-- ==== Sys2Proof/Word.lean ====
section
/-! DEFINITION. The word types the manual's registers, fields and codes have. -/

namespace Sys2Proof

/-- A byte of host memory, ingress memory, a packet or a register (R11). -/
abbrev Byte := BitVec 8
/-- A 16-bit field. -/
abbrev Half := BitVec 16
/-- A 32-bit register or field; also the bits of an FP32 value. -/
abbrev Word := BitVec 32
/-- A 64-bit field: digests, generator states, addresses. -/
abbrev Dword := BitVec 64
/-- A 128-bit value: a Spore key, a counter block, a Ring lane state. -/
abbrev Qword := BitVec 128
/-- The 40-bit code of an XW40 value (R138). -/
abbrev Xw := BitVec 40
/-- The five sticky flags of an engine, in the bit order of Table OPS-11:
[0] OVF, [1] UNF, [2] INX, [3] INV, [4] FLUSH (R103). -/
abbrev Flags := BitVec 5
/-- A value of the tray counter (R356). -/
abbrev Tick := Nat

end Sys2Proof
end

