-- ==== Sys2Proof/Syntax.lean ====
section
/-! DEFINITION. The commands of the tray: one constructor for each row of spec/opcode_table.json, with the operands the
command or event carries. An event that the tray stamps carries the tick on which it is stamped (log entry 5). -/

namespace Sys2Proof

/-- A memory, link or compare event met while a command runs (R117, R199, R269, R391 to R393, R417, R502). `contextUe` is an
uncorrectable SRAM error in a cached context. `lockCheck` carries the check words that two chips compare, the lower or home
chip's first: those of the first run and of the repeat; `atHome` tells home-side stages (R392) from a pass of the pair that the
chip belongs to (R391). `maskLost` names the two chips whose copies of a mask shard are both bad. -/
inductive Incident where
  | sramCe (chip core : Nat)
  | sramUe (chip core row : Nat)
  | contextUe (chip core row : Nat)
  | sfuCe (chip core : Nat)
  | sfuUe (chip core : Nat)
  | hbmCe (chip : Nat)
  | hbmUeModel (chip : Nat)
  | hbmUeReserved (chip : Nat)
  | lockCheck (chip sid : Nat) (atHome : Bool) (first again : BitVec 64 × BitVec 64)
  | laneParity (chip lane after : Nat)
  | ingressUe (chip line : Nat)
  | overhangFail (granule : Nat)
  | streamLost (sid : Nat)
  | maskLost (entry chip mirror : Nat)
  | windowRecordLost (sid step : Nat)
  deriving DecidableEq, Repr

/-- What BIST finds on one chip (R409, R411): the chip-level blocks, the Ring block, cores, SRAM rows by their address, and
spare rows. -/
structure BistResult where
  chip : Nat
  chipOk : Bool
  ringOk : Bool
  failedCores : List Nat
  failedRows : List (Nat × Nat)
  failedSpares : List (Nat × Nat)
  deriving DecidableEq, Repr

/-- What HBM and link training leave on one chip: HBM trained, peers whose link failed, lanes that failed (R345, R355). -/
structure TrainResult where
  chip : Nat
  hbmOk : Bool
  failedLinks : List Nat
  failedLanes : List (Nat × Nat)
  deriving DecidableEq, Repr

/-- What the host did to its own memory before a doorbell: bytes stored, and address ranges whose reads fail (R312). -/
structure HostNews where
  stores : List (Nat × List Byte)
  bad : List (Nat × Nat)
  deriving DecidableEq, Repr

/-- What the boot ROM finds in step 3: does each bank verify (R474)? -/
structure RomResult where
  bankA : Bool
  bankB : Bool
  deriving DecidableEq, Repr

/-- A run of LOAD_FUNCTION: the command's number and the events its sweep meets (R117). -/
structure LoadRun where
  id : Nat
  inc : List Incident
  deriving DecidableEq, Repr

/-- What a lane's receiver reports (R345): a lost lock, or so many symbol errors. -/
structure LaneReport where
  lane : Nat
  lostLock : Bool
  errors : Nat
  tick : Tick
  deriving DecidableEq, Repr

/-- A time exchange begins: its tick, and the offset of the TMC's counter that the lead then measures (R358). -/
structure ExchangeStart where
  tmcOffset : Int
  tick : Tick
  deriving DecidableEq, Repr

/-- One flit of a time exchange: when it left and when it came, each on its own end's counter (R358). -/
structure TimeLeg where
  sent : Nat
  received : Nat
  deriving DecidableEq, Repr

/-- A measurement of the power drawn: without charging, and what charging asks for, in mW (R437, R439). -/
structure PowerReading where
  load : Nat
  charge : Nat
  deriving DecidableEq, Repr

/-- A command or event. `fn` is the function that acts: 0 the PF, v + 1 VF v. -/
inductive Instr where
  -- packets, executed once started; `id` is the dispatcher's command number
  | nop (id : Nat)
  | fence (id : Nat)
  | loadModel (id : Nat)
  | unloadModel (id : Nat)
  | setModelPriority (id : Nat)
  | openStream (id : Nat)
  | setStreamParams (id : Nat)
  | closeStream (id : Nat)
  | rebuildHistory (id : Nat)
  | saveStream (id : Nat)
  | restoreStream (id : Nat)
  | stepCmd (id : Nat) (inc : List Incident)
  | stepScores (id : Nat) (inc : List Incident)
  | verify (id : Nat) (inc : List Incident)
  | lookahead (id : Nat) (inc : List Incident)
  | hostDraw (id : Nat) (inc : List Incident)
  | softmax (id : Nat) (inc : List Incident)
  | topk (id : Nat) (inc : List Incident)
  | thresholdCompact (id : Nat) (inc : List Incident)
  | rowstat (id : Nat) (inc : List Incident)
  | castOp (id : Nat) (inc : List Incident)
  | randomFill (id : Nat) (inc : List Incident)
  | applyFunction (id : Nat) (inc : List Incident)
  | ringJump (id : Nat)
  | loadFunction (run : LoadRun)
  | loadMask (id : Nat)
  | replay (id : Nat) (inc : List Incident)
  | readDigests (id : Nat)
  | readFlags (id : Nat) (tick : Tick)
  | readCounters (id : Nat) (tick : Tick)
  | clearCounters (id : Nat)
  | setMode (id : Nat)
  | setWakeTolerance (id : Nat)
  | barrier (id : Nat) (tick : Tick)
  | barrierArrival (id chip : Nat) (tick : Tick)
  | barrierRelease (id : Nat)
  | launchAt (id : Nat)
  | launchTick (id : Nat)
  | abort (id : Nat)
  -- the host's accesses to BAR0 and BAR2
  | sqTailDb (link fn ring : Nat) (value : Word) (news : HostNews)
  | cqHeadDb (link fn ring : Nat) (value : Word)
  | sqEnable (fn ring : Nat) (value : Word)
  | sqDisable (fn ring : Nat) (value : Word)
  | cqEnable (fn ring : Nat) (value : Word)
  | cqDisable (fn ring : Nat) (value : Word)
  | ringErrClear (fn ring : Nat) (value : Word)
  | flagSummaryClear (value : Word)
  | eventCauseClear (value : Word)
  | vfEnable (vf : Nat)
  | vfDisable (vf : Nat)
  | sriovVfEnable (link : Nat) (on : Bool)
  | trayCountLoRead (link : Nat)
  | ingressSyncRead (link : Nat)
  | bar2Write (fn link offset : Nat) (bytes : List (Option Byte))
  | registerWrite (fn link offset : Nat) (value : Word)
  | functionLevelReset (fn : Nat)
  -- the dispatcher
  | commandAccept (tick : Tick)
  | commandStart (id : Nat) (tick : Tick)
  | completionRecordWrite (id : Nat) (tick : Tick)
  | cqCoalesceDelay (ring : Nat) (tick : Tick)
  | deadlineExpiry (id : Nat)
  | watchdogExpiry (id : Nat) (stuck : List (Nat × Nat)) (tick : Tick)
  -- the fabric and tray time
  | flitReceive (src dst : Nat) (flit : List Byte) (tick : Tick)
  | nackReceive (src dst ackSeq : Nat) (tick : Tick)
  | ackTimeout (src dst seq context : Nat) (tick : Tick)
  | retryAttemptTimeout (src dst : Nat) (tick : Tick)
  | retryWindowExpiry (src dst : Nat)
  | laneRetire (src dst : Nat) (report : LaneReport)
  | linkRecalibration (a b : Nat)
  | timeExchange (start : ExchangeStart)
  | timeRsp (chip : Nat) (req rsp : TimeLeg) (after : Int)
  | timeExchangeLoss (chip : Nat) (after : Int)
  -- faults and recovery
  | coreHeartbeatMiss (chip core : Nat) (tick : Tick)
  | coreReplacement (chip core : Nat)
  | chipHeartbeatMiss (chip : Nat) (tick : Tick)
  | fatalReport (chip : Nat) (tick : Tick)
  | regulatorFault (chip : Nat) (tick : Tick)
  | fenceTick (tick : Tick)
  | chipLossRestart (tick : Tick)
  | relayDone (tick : Tick)
  | tmcWatchdog
  | tmcResume
  | counterSave
  | backgroundTaskDue (task chip arg : Nat) (found : List Incident) (bad : List BistResult) (tick : Tick)
  | boundedSlot (chip : Nat) (tick : Tick)
  | quietSlotStart (arrivals : List (Nat × Tick))
  | quietSlotEnd (tick : Tick)
  -- power, ride-through and idle
  | pressureMeasurement (reading : PowerReading)
  | puffballMeasure (millijoules : Nat) (tick : Tick)
  | puffballCapacityMeasure (millijoules : Nat)
  | thermalThrottle (chip temp : Nat) (tick : Tick)
  | coldPlateOvertemp (temp : Nat)
  | inputHigh (millivolts : Nat) (tick : Tick)
  | pfEarly (millivolts : Nat) (tick : Tick)
  | inputReturn (millivolts : Nat) (tick : Tick)
  | decisionTick
  | snapshotTick (tick : Tick)
  | saveComplete (tick : Tick)
  | presenceLost (tick : Tick)
  | presenceMated
  | puffballBleed
  | idleEntry (state : Nat) (tick : Tick)
  -- bring-up
  | inputCheck (millivolts : Nat)
  | puffballPreCharge (millijoules : Nat)
  | tmcBoot (rom : RomResult)
  | chipPowerOnBist (found : List BistResult)
  | hbmMycelTraining (found : List TrainResult)
  | trayCounterAlignment (outside : List Nat)
  | configurationApply
  | ready
  -- host links
  | hostLinkTrained (link width speed : Nat)
  | hostLinkDown (link : Nat)
  | hostBridgeFailed (bridge : Nat) (tick : Tick)
  -- management
  | gracefulRestart (tick : Tick)
  | forceRestart
  | gracefulShutdown (tick : Tick)
  | on
  | configWrite (blob : List Byte)
  | configRead
  | faultLogRead
  | ledgerRead
  | firmwareTransfer (viaRedfish : Bool) (bundle : List Byte) (whole : Bool)
  | verifyComplete
  | activateFirmware
  | mctpControl (message : List Byte)
  | getSensorReading (sensor : Nat)
  | getVersion (request : List Byte)
  | getCapabilities (request : List Byte)
  | negotiateAlgorithms (request : List Byte)
  | getDigests (request : List Byte)
  | getCertificate (request : List Byte)
  | challenge (request : List Byte)
  | getMeasurements (request : List Byte)
  | redfishGet (path : Nat)
  | eventSubscription (endpoint : Nat) (create : Bool)
  | accountService (user action arg : Nat)
  | mirrorBuildComplete (sid : Nat)
  | modelRelayComplete (mid : Nat)
  | throttleRelease (chip temp : Nat)
  | coldPlateRelease (temp : Nat)
  deriving DecidableEq, Repr

end Sys2Proof
end

