-- ==== Sys2Proof/Machine/Bits.lean ====
section
/-! DEFINITION. Bytes, fields, sparse canonical maps and the check words (R10, R11, R348, R234). -/

namespace Sys2Proof.Machine

/-! ## Bytes and little-endian fields -/

/-- The little-endian value of a byte list (R11). -/
def leNat : List Byte → Nat
  | [] => 0
  | b :: bs => b.toNat + 256 * leNat bs

/-- The n low bytes of a value, little-endian (R11). -/
def leBytes : Nat → Nat → List Byte
  | 0, _ => []
  | n + 1, v => BitVec.ofNat 8 v :: leBytes n (v / 256)

/-- The bytes from an offset on, n of them; bytes beyond the end read 0. -/
def slice (bs : List Byte) (off n : Nat) : List Byte :=
  let part := (bs.drop off).take n
  part ++ List.replicate (n - part.length) 0#8

/-- A little-endian field of n bytes at an offset. -/
def fieldAt (bs : List Byte) (off n : Nat) : Nat := leNat (slice bs off n)

/-- Bits [hi:lo] of a value (R10). -/
def bits (v hi lo : Nat) : Nat := v / 2 ^ lo % 2 ^ (hi + 1 - lo)

/-- Bit n of a value. -/
def bit (v n : Nat) : Bool := decide (v / 2 ^ n % 2 = 1)

/-- A truth value as a bit. -/
def b2n (b : Bool) : Nat := if b then 1 else 0

/-- v rounded up to a multiple of k. -/
def roundUp (v k : Nat) : Nat := (v + k - 1) / k * k

/-- ⌈a / b⌉. -/
def ceilDiv (a b : Nat) : Nat := (a + b - 1) / b

/-- Bytes padded with zeros to a length. -/
def padTo (n : Nat) (bs : List Byte) : List Byte := bs ++ List.replicate (n - bs.length) 0#8

/-- The first offset below n at which a byte of the list is nonzero. -/
def firstNonzero (bs : List Byte) : Nat → Nat → Option Nat
  | _, 0 => none
  | off, n + 1 => if fieldAt bs off 1 ≠ 0 then some off else firstNonzero bs (off + 1) n

/-! ## Element codes packed into bytes (R73) -/

/-- The low and high halves of the bytes, low half first. -/
def nibbles : List Byte → List Nat
  | [] => []
  | b :: bs => b.toNat % 16 :: b.toNat / 16 :: nibbles bs

/-- Groups of k bytes read as little-endian codes. -/
def groupCodes (k : Nat) : Nat → List Byte → List Nat
  | 0, _ => []
  | n + 1, bs => leNat (bs.take k) :: groupCodes k n (bs.drop k)

/-- The first n element codes of width w bits in the bytes. -/
def unpackCodes (w n : Nat) (bs : List Byte) : List Nat :=
  if w = 4 then (nibbles bs).take n else groupCodes (w / 8) n bs

/-- Two 4-bit codes per byte, the lower index in bits [3:0]. -/
def packNibbles : List Nat → List Byte
  | [] => []
  | [a] => [BitVec.ofNat 8 (a % 16)]
  | a :: b :: rest => BitVec.ofNat 8 (a % 16 + 16 * (b % 16)) :: packNibbles rest

/-- Element codes of width w bits packed into bytes. -/
def packCodes (w : Nat) (cs : List Nat) : List Byte :=
  if w = 4 then packNibbles cs else cs.flatMap (leBytes (w / 8))

/-! ## Check words -/

/-- One bit of a reflected CRC. -/
def crcBit (poly c : Nat) : Nat := if c % 2 = 1 then (c / 2) ^^^ poly else c / 2

/-- k bits of a reflected CRC. -/
def crcBits (poly : Nat) : Nat → Nat → Nat
  | 0, c => c
  | k + 1, c => crcBits poly k (crcBit poly c)

/-- A reflected CRC run over bytes. -/
def crcRun (poly : Nat) (c : Nat) (bs : List Byte) : Nat :=
  bs.foldl (fun c b => crcBits poly 8 (c ^^^ b.toNat)) c

/-- CRC-32C (Castagnoli), reflected, initial and final value all ones (R129, R234, R406). -/
def crc32c (bs : List Byte) : Nat := crcRun 0x82F63B78 0xFFFFFFFF bs ^^^ 0xFFFFFFFF

/-- CRC-64/XZ: polynomial 0x42F0_E1EB_A9EA_3693 reflected, initial and final value all ones (R348). -/
def crc64 (bs : List Byte) : Nat :=
  crcRun 0xC96C5795D7870F42 0xFFFFFFFFFFFFFFFF bs ^^^ 0xFFFFFFFFFFFFFFFF

/-! ## Sparse maps in one canonical form

A list of key and value pairs, keys strictly rising, no entry equal to what an unlisted key reads as. -/

/-- Reading a key: the entry, else the default. -/
def mapGet {α : Type} (d : α) : List (Nat × α) → Nat → α
  | [], _ => d
  | (k, v) :: rest, a => if k = a then v else mapGet d rest a

/-- Removing a key. -/
def mapDel {α : Type} : List (Nat × α) → Nat → List (Nat × α)
  | [], _ => []
  | (k, v) :: rest, a => if k = a then rest else if a < k then (k, v) :: rest else (k, v) :: mapDel rest a

/-- Inserting a key that is to be listed. -/
def mapIns {α : Type} : List (Nat × α) → Nat → α → List (Nat × α)
  | [], a, x => [(a, x)]
  | (k, v) :: rest, a, x =>
    if k = a then (a, x) :: rest else if a < k then (a, x) :: (k, v) :: rest else (k, v) :: mapIns rest a x

/-- Writing a key, keeping the canonical form: writing the default removes the entry. -/
def mapSet {α : Type} [DecidableEq α] (d : α) (l : List (Nat × α)) (a : Nat) (x : α) : List (Nat × α) :=
  if x = d then mapDel l a else mapIns l a x

/-- Keys strictly rising from a bound, and no entry equal to the default. -/
def mapWfFrom {α : Type} [DecidableEq α] (d : α) : Nat → List (Nat × α) → Bool
  | _, [] => true
  | lo, (k, v) :: rest => decide (lo ≤ k) && decide (v ≠ d) && mapWfFrom d (k + 1) rest

/-- The canonical form. -/
def mapWf {α : Type} [DecidableEq α] (d : α) (l : List (Nat × α)) : Bool := mapWfFrom d 0 l

/-! ## Byte memories: what an unlisted address reads as is 0 -/

/-- The canonical form of a byte memory. -/
def Memory.wf (m : List (Nat × Byte)) : Bool := mapWf 0#8 m

/-- A byte of a memory. -/
def memByte (m : List (Nat × Byte)) (a : Nat) : Byte := mapGet 0#8 m a

/-- n bytes of a memory from an address. -/
def memBytes (m : List (Nat × Byte)) (a n : Nat) : List Byte := (List.range n).map fun i => memByte m (a + i)

/-- Storing bytes from an address on. -/
def memStore (m : List (Nat × Byte)) (a : Nat) : List Byte → List (Nat × Byte)
  | [] => m
  | b :: bs => memStore (mapSet 0#8 m a b) (a + 1) bs

/-- Storing the enabled bytes from an address on (byte enables, R501). -/
def memStoreEnabled (m : List (Nat × Byte)) (a : Nat) : List (Option Byte) → List (Nat × Byte)
  | [] => m
  | some b :: bs => memStoreEnabled (mapSet 0#8 m a b) (a + 1) bs
  | none :: bs => memStoreEnabled m (a + 1) bs

/-! ## Lists as small tables -/

/-- Element i of a table, else a default. -/
def nth {α : Type} (d : α) (l : List α) (i : Nat) : α := l.getD i d

/-- The table with element i changed by a function; unchanged beyond its end. -/
def modNth {α : Type} (l : List α) (i : Nat) (f : α → α) : List α :=
  match l, i with
  | [], _ => []
  | x :: xs, 0 => f x :: xs
  | x :: xs, n + 1 => x :: modNth xs n f

/-- A counter that saturates at a bound (R431). -/
def satAdd (bound v n : Nat) : Nat := min bound (v + n)

/-- Insertion into a list kept sorted by a strict order test. -/
def insertBy {α : Type} (lt : α → α → Bool) (x : α) : List α → List α
  | [] => [x]
  | y :: ys => if lt x y then x :: y :: ys else y :: insertBy lt x ys

/-- One merge of two sorted lists, the left one first on ties, with fuel for both lengths. -/
def mergeBy {α : Type} (lt : α → α → Bool) : Nat → List α → List α → List α
  | 0, xs, ys => xs ++ ys
  | _ + 1, [], ys => ys
  | _ + 1, xs, [] => xs
  | n + 1, x :: xs, y :: ys =>
    if lt y x then y :: mergeBy lt n (x :: xs) ys else x :: mergeBy lt n xs (y :: ys)

/-- Stable merge sort by halving, with fuel for the levels. -/
def sortLevels {α : Type} (lt : α → α → Bool) : Nat → List α → List α
  | 0, l => l
  | n + 1, l =>
    if l.length < 2 then l
    else
      let h := l.length / 2
      mergeBy lt l.length (sortLevels lt n (l.take h)) (sortLevels lt n (l.drop h))

/-- A stable sort by a strict order test. -/
def sortBy {α : Type} (lt : α → α → Bool) (l : List α) : List α := sortLevels lt (l.length.log2 + 1) l

/-- Consecutive chunks of n elements (the last may be shorter), with fuel for their number. -/
def chunksAux {α : Type} (n : Nat) : Nat → List α → List (List α)
  | 0, _ => []
  | k + 1, l => if l.isEmpty then [] else l.take n :: chunksAux n k (l.drop n)

/-- Consecutive chunks of n elements. -/
def chunks {α : Type} (n : Nat) (l : List α) : List (List α) := chunksAux n l.length l

/-- The list with each element's position. -/
def withIndex {α : Type} (l : List α) : List (Nat × α) := (List.range l.length).zip l

end Sys2Proof.Machine
end

