-- ==== Sys2Proof/Config.lean ====
section
/-! DEFINITION. What an implementation fixes, and the free values: constants without a body, of which nothing can be
proved. Each is named in the assumption log. -/

namespace Sys2Proof.Config

/-! ## Free values (log entry 3) -/

/-- The order in which partials arrive, and which of several tied entries comes first, in FREE order (R88, R146, R160,
R171, R204): a free choice for each path, whose last element is the run's free counter. -/
opaque freeChoice : List Nat → Nat

/-- A byte the manual calls unspecified (R319, R331): the run's free counter, the byte's number. -/
opaque unspecifiedByte : Nat → Nat → BitVec 8

/-- A telemetry value that the environment decides: the run's free counter, the sensor (R478). -/
opaque sensorValue : Nat → Nat → Nat

/-- What the bleed leaves in the Puffball, in mJ, of which the manual says only that it is below 1 J (R490). -/
opaque bleedRemainder : Nat → Nat

/-- Had a ledger write that a power loss met been cut short (R407)? -/
opaque writeCut : Nat → Bool

/-- The payload of a time-exchange flit, of which the manual gives no layout (R347, R358). -/
opaque timePayload : Nat → List (BitVec 8)

/-- The SHA-384 digest of a byte string, which the manual names and does not define (R473, R481). -/
opaque sha384 : List (BitVec 8) → BitVec 384

/-- The ECDSA P-384 signature of a digest by the device identity key, which never leaves the secure element (R480). -/
opaque deviceSign : BitVec 384 → BitVec 768

/-- The certificate chain of slot 0, issued by Ohmira at manufacture (R480). -/
opaque certChain : List (BitVec 8)

/-- Does an ECDSA P-384 signature over a digest verify under a public key (R473)? -/
opaque ecdsaVerifies : List (BitVec 8) → BitVec 384 → List (BitVec 8) → Bool

/-- A byte of an SPDM response whose content the manual leaves to the standards it cites. -/
opaque standardByte : Nat → Nat → BitVec 8

/-! ## Firmware bundles, whose layout the manual does not give (R473) -/

/-- A part of a bundle: 0 header and components, 1 public key, 2 signature, 16 + k component k. -/
opaque bundlePart : Nat → List (BitVec 8) → List (BitVec 8)

/-- Does a bundle carry all four components (R475)? -/
opaque bundleWhole : List (BitVec 8) → Bool

/-- The security version of a bundle. -/
opaque bundleSvn : List (BitVec 8) → BitVec 6

/-- The key slot a bundle revokes, where it revokes one (R474). -/
opaque bundleRevokes : List (BitVec 8) → Option Nat

/-- The version of a bundle as FW_VERSION reports it. -/
opaque bundleVersion : List (BitVec 8) → BitVec 32

/-- FN_TABLE_VER of a bundle's correction tables (R383). -/
opaque bundleTables : List (BitVec 8) → BitVec 16

/-- The two fused key hashes of the boot ROM (R473). -/
opaque fusedKeyHash : Nat → BitVec 384

/-- The four bytes that report the SVN floor and the revoked slots (Table BOOT-10). -/
opaque trustBytes : Nat → List Nat → List (BitVec 8)

end Sys2Proof.Config
end

