-- ==== Sys2Proof/Machine/Num.lean ====
section
/-! DEFINITION. Exact values, rounding and the FP32 basic operations (03_number_formats.md). -/

namespace Sys2Proof.Machine

/-! ## Flags -/

/-- No flag. -/
def noFlags : Flags := 0#5
/-- OVF (Table FMT-6). -/
def fOVF : Flags := 1#5
/-- UNF. -/
def fUNF : Flags := 2#5
/-- INX. -/
def fINX : Flags := 4#5
/-- INV. -/
def fINV : Flags := 8#5
/-- FLUSH. -/
def fFLUSH : Flags := 16#5

/-! ## Exact values -/

/-- An exact dyadic value m × 2^e. -/
structure Dy where
  m : Int
  e : Int
  deriving DecidableEq, Repr

/-- An exact nonnegative rational n / d × 2^e with a sign of its own, so that a zero keeps its sign. -/
structure Exact where
  neg : Bool
  n : Nat
  d : Nat
  e : Int
  deriving DecidableEq, Repr

/-- m × 2^k for an integer k, exact for k ≥ 0. -/
def shl (m : Int) (k : Nat) : Int := m * (2 ^ k : Nat)

/-- The exact sum of two dyadics. -/
def dyAdd (a b : Dy) : Dy :=
  if a.m = 0 then b else if b.m = 0 then a
  else if a.e ≤ b.e then ⟨a.m + shl b.m (b.e - a.e).toNat, a.e⟩
  else ⟨shl a.m (a.e - b.e).toNat + b.m, b.e⟩

/-- The exact product of two dyadics. -/
def dyMul (a b : Dy) : Dy := ⟨a.m * b.m, a.e + b.e⟩

/-- The exact negation. -/
def dyNeg (a : Dy) : Dy := ⟨-a.m, a.e⟩

/-- The exact difference. -/
def dySub (a b : Dy) : Dy := dyAdd a (dyNeg b)

/-- Scaling by 2^k. -/
def dyScale (a : Dy) (k : Int) : Dy := ⟨a.m, a.e + k⟩

/-- The integer k as a dyadic. -/
def dyInt (k : Int) : Dy := ⟨k, 0⟩

/-- Exact comparison a < b. -/
def dyLt (a b : Dy) : Bool := (dySub a b).m < 0

/-- Exact comparison a ≤ b. -/
def dyLe (a b : Dy) : Bool := (dySub a b).m ≤ 0

/-- The greatest integer not above the value. -/
def dyFloor (a : Dy) : Int :=
  if 0 ≤ a.e then shl a.m a.e.toNat else Int.fdiv a.m ((2 ^ (-a.e).toNat : Nat) : Int)

/-- The dyadic as an exact value; a zero takes the sign given. -/
def dyExact (zeroNeg : Bool) (a : Dy) : Exact :=
  if a.m = 0 then ⟨zeroNeg, 0, 1, 0⟩ else ⟨decide (a.m < 0), a.m.natAbs, 1, a.e⟩

/-- The exact quotient of two dyadics, b nonzero. -/
def dyQuot (a b : Dy) : Exact :=
  ⟨Bool.xor (decide (a.m < 0)) (decide (b.m < 0)), a.m.natAbs, b.m.natAbs, a.e - b.e⟩

/-- floor(log2 (n / d × 2^e)), n and d positive. -/
def floorLog2 (n d : Nat) (e : Int) : Int :=
  let k : Int := (n.log2 : Int) - (d.log2 : Int)
  let below : Bool := if 0 ≤ k then n < d * 2 ^ k.toNat else n * 2 ^ (-k).toNat < d
  (if below then k - 1 else k) + e

/-- n / d × 2^e in units of 2^q as a fraction (numerator, denominator). -/
def inUnits (n d : Nat) (e q : Int) : Nat × Nat :=
  if q ≤ e then (n * 2 ^ (e - q).toNat, d) else (n, d * 2 ^ (q - e).toNat)

/-- The integer nearest to n / d × 2^e in units of 2^q, ties to even, and whether it is inexact (R91). -/
def rne (n d : Nat) (e q : Int) : Nat × Bool :=
  let (a, b) := inUnits n d e q
  let f := a / b
  let r := a % b
  let up : Bool := decide (b < 2 * r) || (decide (b = 2 * r) && decide (f % 2 = 1))
  (if up then f + 1 else f, decide (r ≠ 0))

/-- The integer part of n / d × 2^e in units of 2^q (rounding toward zero), and whether it is inexact. -/
def rtz (n d : Nat) (e q : Int) : Nat × Bool :=
  let (a, b) := inUnits n d e q
  (a / b, decide (a % b ≠ 0))

/-- A nonzero exact value rounded to p significant bits with an unbounded exponent, to nearest, ties to even. -/
def roundSig (p : Nat) (x : Exact) : Dy :=
  if x.n = 0 then ⟨0, 0⟩ else
  let q := floorLog2 x.n x.d x.e - ((p : Int) - 1)
  let m := (rne x.n x.d x.e q).1
  ⟨if x.neg then -(m : Int) else (m : Int), q⟩

/-- A dyadic rounded to p significant bits with an unbounded exponent. -/
def roundDy (p : Nat) (a : Dy) : Dy := roundSig p (dyExact false a)

/-! ## Element formats -/

/-- The element formats of Table FMT-1 with the codes of Tables MODEL-1 and OPS-4. -/
inductive Fmt where
  | fp32 | bf16 | fp16 | e4m3 | e5m2 | e2m1
  deriving DecidableEq, Repr

/-- The format code (Table OPS-4). -/
def fmtCode : Fmt → Nat
  | .fp32 => 0 | .bf16 => 1 | .fp16 => 2 | .e4m3 => 3 | .e5m2 => 4 | .e2m1 => 5

/-- The format of a code. -/
def fmtOf : Nat → Option Fmt
  | 0 => some .fp32 | 1 => some .bf16 | 2 => some .fp16 | 3 => some .e4m3 | 4 => some .e5m2
  | 5 => some .e2m1 | _ => none

/-- Width in bits (Table FMT-1). -/
def fmtWidth : Fmt → Nat
  | .fp32 => 32 | .bf16 => 16 | .fp16 => 16 | .e4m3 => 8 | .e5m2 => 8 | .e2m1 => 4
/-- Fraction bits (Table FMT-1). -/
def fmtFrac : Fmt → Nat
  | .fp32 => 23 | .bf16 => 7 | .fp16 => 10 | .e4m3 => 3 | .e5m2 => 2 | .e2m1 => 1
/-- Exponent bits (Table FMT-1). -/
def fmtExpBits : Fmt → Nat
  | .fp32 => 8 | .bf16 => 8 | .fp16 => 5 | .e4m3 => 4 | .e5m2 => 5 | .e2m1 => 2
/-- Exponent bias (Table FMT-1). -/
def fmtBias : Fmt → Nat
  | .fp32 => 127 | .bf16 => 127 | .fp16 => 15 | .e4m3 => 7 | .e5m2 => 15 | .e2m1 => 1

/-- The code of the canonical quiet NaN (Table FMT-2); FP4-E2M1 has none. -/
def fmtQnan : Fmt → Nat
  | .fp32 => 0x7FC00000 | .bf16 => 0x7FC0 | .fp16 => 0x7E00 | .e4m3 => 0x7F | .e5m2 => 0x7E | .e2m1 => 0
/-- The code of +inf, where the format has one (Table FMT-2). -/
def fmtInf : Fmt → Option Nat
  | .fp32 => some 0x7F800000 | .bf16 => some 0x7F80 | .fp16 => some 0x7C00 | .e5m2 => some 0x7C
  | .e4m3 => none | .e2m1 => none
/-- The code of the largest finite value (Table FMT-2). -/
def fmtMaxCode : Fmt → Nat
  | .fp32 => 0x7F7FFFFF | .bf16 => 0x7F7F | .fp16 => 0x7BFF | .e4m3 => 0x7E | .e5m2 => 0x7B | .e2m1 => 0x7
/-- The overflow threshold: the magnitude at or above which a value overflows (Table FMT-5). -/
def fmtThreshold : Fmt → Dy
  | .fp32 => ⟨0x1FFFFFF, 103⟩ | .bf16 => ⟨0x1FF, 119⟩ | .fp16 => ⟨65520, 0⟩
  | .e4m3 => ⟨464, 0⟩ | .e5m2 => ⟨61440, 0⟩ | .e2m1 => ⟨7, 0⟩
/-- The exponent of the smallest normal value. -/
def fmtEmin (f : Fmt) : Int := 1 - (fmtBias f : Int)
/-- The sign bit of a code. -/
def fmtSign (f : Fmt) : Nat := 2 ^ (fmtWidth f - 1)

/-- What a code stands for: a NaN (sign, quiet, fraction bits), an infinity, or a finite value
m × 2^e with its sign. -/
inductive Dec where
  | nan (neg quiet : Bool) (frac : Nat)
  | inf (neg : Bool)
  | fin (neg : Bool) (m : Nat) (e : Int)
  deriving DecidableEq, Repr

/-- Decoding an element code without a block scale (R71, R72). -/
def decodeFp (f : Fmt) (code : Nat) : Dec :=
  let neg : Bool := decide (code / fmtSign f % 2 = 1)
  let fr := code % 2 ^ fmtFrac f
  let ex := code / 2 ^ fmtFrac f % 2 ^ fmtExpBits f
  let top := 2 ^ fmtExpBits f - 1
  if f = .e4m3 ∧ ex = top ∧ fr = 7 then .nan neg true fr
  else if f ≠ .e4m3 ∧ f ≠ .e2m1 ∧ ex = top then
    if fr = 0 then .inf neg else .nan neg (decide (fr / 2 ^ (fmtFrac f - 1) = 1)) fr
  else if ex = 0 then .fin neg fr (fmtEmin f - fmtFrac f)
  else .fin neg (2 ^ fmtFrac f + fr) ((ex : Int) - fmtBias f - fmtFrac f)

/-- Is the code a NaN of its format? -/
def isNanCode (f : Fmt) (code : Nat) : Bool :=
  match decodeFp f code with | .nan _ _ _ => true | _ => false

/-- A code whose value is subnormal (nonzero, exponent field zero). -/
def isSubnormal (f : Fmt) (code : Nat) : Bool :=
  decide (code / 2 ^ fmtFrac f % 2 ^ fmtExpBits f = 0 ∧ code % 2 ^ fmtFrac f ≠ 0)

/-- The dyadic of a finite decoded value, else 0. -/
def decDy : Dec → Dy
  | .fin neg m e => ⟨if neg then -(m : Int) else (m : Int), e⟩
  | _ => ⟨0, 0⟩

/-! ## Modes -/

/-- The effective numeric settings of a command (R83): STRICT, flush on, NZ_POS. -/
structure Modes where
  strict : Bool
  flush : Bool
  nzPos : Bool
  deriving DecidableEq, Repr

/-- The codes of Table FMT-3 resolved: NUM_MODE, FLUSH_MODE and NZ_MODE to their effective settings. -/
def resolveModes (num flushCode nzCode : Nat) : Modes :=
  let st := decide (num = 1)
  { strict := st
    flush := if flushCode = 0 then !st else decide (flushCode = 2)
    nzPos := if nzCode = 0 then !st else decide (nzCode = 2) }

/-- STRICT with its defaults. -/
def strictModes : Modes := ⟨true, false, false⟩
/-- FAST with its defaults. -/
def fastModes : Modes := ⟨false, true, true⟩
/-- The settings IV1_COMPAT admits: FAST, no flush, NZ_IEEE (Table DET-11). -/
def iv1Modes : Modes := ⟨false, false, false⟩

/-- A −0 code is written +0 under NZ_POS (R90). -/
def nzOut (md : Modes) (w : Word) : Word := if md.nzPos && w == 0x80000000#32 then 0#32 else w

/-! ## Rounding an exact value into a format -/

/-- The code of sign and magnitude. -/
def signed (f : Fmt) (neg : Bool) (mag : Nat) : Nat := if neg then fmtSign f + mag else mag

/-- The magnitude code of m × 2^q, where m fits the format's precision and q is at least its least quantum. -/
def packMag (f : Fmt) (m : Nat) (q : Int) : Nat :=
  if m < 2 ^ fmtFrac f then m
  else
    let m' := if m = 2 ^ (fmtFrac f + 1) then 2 ^ fmtFrac f else m
    let q' := if m = 2 ^ (fmtFrac f + 1) then q + 1 else q
    let ex := (q' + fmtFrac f + fmtBias f).toNat
    ex * 2 ^ fmtFrac f + (m' - 2 ^ fmtFrac f)

/-- A value at or beyond the threshold (Table FMT-5): the code and the flags under SAT or NONSAT. -/
def overflowCode (f : Fmt) (nonsat neg : Bool) : Nat × Flags :=
  match f with
  | .e4m3 => if nonsat then (signed f neg 0x7F, fOVF) else (signed f neg 0x7E, fOVF ||| fINX)
  | .e5m2 => if nonsat then (signed f neg 0x7C, fOVF ||| fINX) else (signed f neg 0x7B, fOVF ||| fINX)
  | .e2m1 => (signed f neg 0x7, fOVF ||| fINX)
  | .fp16 => (signed f neg 0x7C00, fOVF ||| fINX)
  | .bf16 => (signed f neg 0x7F80, fOVF ||| fINX)
  | .fp32 => (signed f neg 0x7F800000, fOVF ||| fINX)

/-- Infinite input of a conversion without block scales (Table FMT-5). -/
def infCode (f : Fmt) (nonsat neg : Bool) : Nat × Flags :=
  match fmtInf f with
  | some c => (signed f neg c, noFlags)
  | none => overflowCode f nonsat neg

/-- Is the exact value at or above the threshold of the format? -/
def overflows (f : Fmt) (x : Exact) : Bool :=
  let t := fmtThreshold f
  let E := floorLog2 x.n x.d x.e
  let T := floorLog2 t.m.natAbs 1 t.e
  if T < E then true else if E < T then false
  else
    let (a, b) := inUnits x.n x.d x.e t.e
    decide (t.m.natAbs * b ≤ a)

/-- Is output flush defined for the format (R89: FP32, BF16 and FP16 destinations)? -/
def flushable : Fmt → Bool
  | .fp32 => true | .bf16 => true | .fp16 => true | _ => false

/-- An exact value rounded to nearest even into a format, with its flags (R89, R91, R92). -/
def encodeFp (f : Fmt) (nonsat flush : Bool) (x : Exact) : Nat × Flags :=
  if x.n = 0 then (signed f x.neg 0, noFlags)
  else if overflows f x then overflowCode f nonsat x.neg
  else
    let p := fmtFrac f + 1
    let E := floorLog2 x.n x.d x.e
    let unb := roundSig p x
    let tiny := dyLt ⟨unb.m.natAbs, unb.e⟩ ⟨1, fmtEmin f⟩
    if tiny && flush && flushable f then (signed f x.neg 0, fFLUSH ||| fUNF ||| fINX)
    else
      let qmin := fmtEmin f - fmtFrac f
      let q := max (E - fmtFrac f) qmin
      if E + 2 < qmin then (signed f x.neg 0, fUNF ||| fINX)
      else
        let (m, inx) := rne x.n x.d x.e q
        let fl := (if inx then fINX else noFlags) ||| (if inx && tiny then fUNF else noFlags)
        (signed f x.neg (packMag f m q), fl)

/-- An exact value rounded once to FP32 under the modes, as a value inside an arithmetic unit. -/
def toF32 (md : Modes) (x : Exact) : Word × Flags :=
  let (c, fl) := encodeFp .fp32 false md.flush x
  (BitVec.ofNat 32 c, fl)

/-- A dyadic rounded once to FP32 without flush and without flags (nearest even). -/
def dyToF32 (a : Dy) : Word := (toF32 strictModes (dyExact false a)).1

/-- A dyadic rounded toward zero to FP32 (Δ of R111). -/
def dyToF32RTZ (a : Dy) : Word :=
  if a.m = 0 then 0#32 else
  let n := a.m.natAbs
  let q := max (floorLog2 n 1 a.e - 23) (-149)
  BitVec.ofNat 32 (signed .fp32 (decide (a.m < 0)) (packMag .fp32 (rtz n 1 a.e q).1 q))

/-! ## FP32 operands and NaN rules -/

/-- FP32 bits decoded. -/
def dec32 (w : Word) : Dec := decodeFp .fp32 w.toNat
/-- The value of finite FP32 bits. -/
def val32 (w : Word) : Dy := decDy (dec32 w)
/-- Is it a NaN? -/
def isNan32 (w : Word) : Bool := isNanCode .fp32 w.toNat
/-- Is it a signalling NaN? -/
def isSnan32 (w : Word) : Bool := match dec32 w with | .nan _ q _ => !q | _ => false
/-- Is it an infinity? -/
def isInf32 (w : Word) : Bool := match dec32 w with | .inf _ => true | _ => false
/-- The sign bit. -/
def sign32 (w : Word) : Bool := w.getLsbD 31
/-- Is it ±0? -/
def isZero32 (w : Word) : Bool := (w &&& 0x7FFFFFFF#32) == 0#32
/-- The canonical quiet NaN (Table FMT-2). -/
def qnan32 : Word := 0x7FC00000#32
/-- +inf. -/
def inf32 : Word := 0x7F800000#32
/-- −inf. -/
def ninf32 : Word := 0xFF800000#32
/-- 1.0. -/
def one32 : Word := 0x3F800000#32
/-- An infinity of the sign given. -/
def infOf (neg : Bool) : Word := if neg then ninf32 else inf32
/-- A zero of the sign given. -/
def zeroOf (neg : Bool) : Word := if neg then 0x80000000#32 else 0#32

/-- Input flush of an FP32 operand (R89). -/
def flushIn (md : Modes) (w : Word) : Word × Flags :=
  if md.flush && isSubnormal .fp32 w.toNat then (w &&& 0x80000000#32, fFLUSH) else (w, noFlags)

/-- The NaN a basic operation with NaN operands returns: under STRICT the first one, quieted; under FAST the
canonical one (R97, R98). INV when any operand is signalling (R96). -/
def nanResult (md : Modes) (ops : List Word) : Word × Flags :=
  let fl := if ops.any isSnan32 then fINV else noFlags
  match ops.find? isNan32 with
  | some w => (if md.strict then w ||| 0x00400000#32 else qnan32, fl)
  | none => (qnan32, fl)

/-- Addition of FP32 operands already flushed. -/
def addCore (md : Modes) (a b : Word) : Word × Flags :=
  match dec32 a, dec32 b with
  | .nan _ _ _, _ => nanResult md [a, b]
  | _, .nan _ _ _ => nanResult md [a, b]
  | .inf x, .inf y => if x = y then (infOf x, noFlags) else (qnan32, fINV)
  | .inf x, _ => (infOf x, noFlags)
  | _, .inf y => (infOf y, noFlags)
  | .fin x _ _, .fin y _ _ => toF32 md (dyExact (x && y) (dyAdd (val32 a) (val32 b)))

/-- a + b, rounded once (R86, R88). -/
def fadd (md : Modes) (a b : Word) : Word × Flags :=
  let (a', f1) := flushIn md a
  let (b', f2) := flushIn md b
  let (r, f3) := addCore md a' b'
  (r, f1 ||| f2 ||| f3)

/-- The sign bit inverted. -/
def fneg (w : Word) : Word := w ^^^ 0x80000000#32

/-- a − b, rounded once. A NaN operand keeps its own sign (R97). -/
def fsub (md : Modes) (a b : Word) : Word × Flags :=
  if isNan32 a || isNan32 b then
    let (a', f1) := flushIn md a
    let (b', f2) := flushIn md b
    let (r, f3) := nanResult md [a', b']
    (r, f1 ||| f2 ||| f3)
  else fadd md a (fneg b)

/-- a × b, rounded once. -/
def fmul (md : Modes) (a b : Word) : Word × Flags :=
  let (a', f1) := flushIn md a
  let (b', f2) := flushIn md b
  let sg := Bool.xor (sign32 a') (sign32 b')
  let (r, f3) :=
    match dec32 a', dec32 b' with
    | .nan _ _ _, _ => nanResult md [a', b']
    | _, .nan _ _ _ => nanResult md [a', b']
    | .inf _, .inf _ => (infOf sg, noFlags)
    | .inf _, .fin _ m _ => if m = 0 then (qnan32, fINV) else (infOf sg, noFlags)
    | .fin _ m _, .inf _ => if m = 0 then (qnan32, fINV) else (infOf sg, noFlags)
    | .fin _ _ _, .fin _ _ _ => toF32 md (dyExact sg (dyMul (val32 a') (val32 b')))
  (r, f1 ||| f2 ||| f3)

/-- a / b, rounded once. A finite nonzero value over a zero raises OVF without INX (R100). -/
def fdiv (md : Modes) (a b : Word) : Word × Flags :=
  let (a', f1) := flushIn md a
  let (b', f2) := flushIn md b
  let sg := Bool.xor (sign32 a') (sign32 b')
  let (r, f3) :=
    match dec32 a', dec32 b' with
    | .nan _ _ _, _ => nanResult md [a', b']
    | _, .nan _ _ _ => nanResult md [a', b']
    | .inf _, .inf _ => (qnan32, fINV)
    | .inf _, _ => (infOf sg, noFlags)
    | _, .inf _ => (zeroOf sg, noFlags)
    | .fin _ m _, .fin _ k _ =>
      if k = 0 then (if m = 0 then (qnan32, fINV) else (infOf sg, fOVF))
      else if m = 0 then (zeroOf sg, noFlags)
      else toF32 md (dyQuot (val32 a') (val32 b'))
  (r, f1 ||| f2 ||| f3)

/-- fma(a, b, c): the exact product plus c, rounded once (R87). -/
def ffma (md : Modes) (a b c : Word) : Word × Flags :=
  let (a', f1) := flushIn md a
  let (b', f2) := flushIn md b
  let (c', f3) := flushIn md c
  let sg := Bool.xor (sign32 a') (sign32 b')
  let prodInf := isInf32 a' || isInf32 b'
  let prodInv := (isInf32 a' && isZero32 b') || (isZero32 a' && isInf32 b')
  let (r, f4) :=
    if isNan32 a' || isNan32 b' || isNan32 c' then
      let (w, f) := nanResult md [a', b', c']
      (w, if prodInv then f ||| fINV else f)
    else if prodInv then (qnan32, fINV)
    else if prodInf then
      (if isInf32 c' && sign32 c' != sg then (qnan32, fINV) else (infOf sg, noFlags))
    else if isInf32 c' then (c', noFlags)
    else toF32 md (dyExact (sg && sign32 c') (dyAdd (dyMul (val32 a') (val32 b')) (val32 c')))
  (r, f1 ||| f2 ||| f3 ||| f4)

/-- The integer square root by one bit of the root at a time, from bit k − 1 down. -/
def isqrtFrom (n : Nat) : Nat → Nat → Nat
  | 0, r => r
  | k + 1, r =>
    let c := r + 2 ^ k
    isqrtFrom n k (if c * c ≤ n then c else r)

/-- floor(sqrt n). -/
def isqrt (n : Nat) : Nat := isqrtFrom n (n.log2 / 2 + 1) 0

/-- The square root of a positive dyadic as an exact value with at least 40 significant bits and a sticky unit:
rounding it to at most 32 bits gives the correctly rounded root. -/
def sqrtSticky (a : Dy) : Exact :=
  let e2 : Int := a.e - 160
  let e' : Int := if e2 % 2 = 0 then e2 else e2 - 1
  let n := a.m.natAbs * 2 ^ (a.e - e').toNat
  let r := isqrt n
  if r * r = n then ⟨false, r, 1, e' / 2⟩ else ⟨false, 2 * r + 1, 1, e' / 2 - 1⟩

/-- The correctly rounded square root (R86, R119). -/
def fsqrt (md : Modes) (a : Word) : Word × Flags :=
  let (a', f1) := flushIn md a
  let (r, f2) :=
    match dec32 a' with
    | .nan _ _ _ => nanResult md [a']
    | .inf neg => if neg then (qnan32, fINV) else (inf32, noFlags)
    | .fin neg m _ =>
      if m = 0 then (a', noFlags) else if neg then (qnan32, fINV)
      else toF32 md (sqrtSticky (val32 a'))
  (r, f1 ||| f2)

/-! ## Comparison and the order key -/

/-- Quiet comparison of two FP32 values (R101): none when unordered. -/
def fcmp (a b : Word) : Option Ordering :=
  match dec32 a, dec32 b with
  | .nan _ _ _, _ => none
  | _, .nan _ _ _ => none
  | .inf x, .inf y => some (if x = y then .eq else if x then .lt else .gt)
  | .inf x, _ => some (if x then .lt else .gt)
  | _, .inf y => some (if y then .gt else .lt)
  | .fin _ _ _, .fin _ _ _ =>
    let d := (dySub (val32 a) (val32 b)).m
    some (if d < 0 then .lt else if d = 0 then .eq else .gt)

/-- a < b under R101. -/
def flt (a b : Word) : Bool := fcmp a b == some .lt
/-- a ≤ b under R101. -/
def fle (a b : Word) : Bool := fcmp a b == some .lt || fcmp a b == some .eq
/-- a = b under R101. -/
def feq (a b : Word) : Bool := fcmp a b == some .eq

/-- The order key of FP32 bits (R102). -/
def orderKey (x : Word) : Word :=
  if isNan32 x then 0xFFFFFFFF#32
  else if x == 0x80000000#32 then 0x80000000#32
  else if x.getLsbD 31 then ~~~x
  else x ||| 0x80000000#32

/-- FP32 of a natural number below 2^24, exact. -/
def natToF32 (n : Nat) : Word := dyToF32 ⟨n, 0⟩

/-! ## Conversions between formats without block scales -/

/-- The NaN code a conversion to a format delivers (R97, R98); the source fraction is left-aligned. -/
def convNan (md : Modes) (src dst : Fmt) (neg : Bool) (frac : Nat) : Nat :=
  if !md.strict then fmtQnan dst
  else match dst with
    | .e4m3 => signed dst neg 0x7F
    | .e2m1 => 0
    | _ =>
      let q := frac ||| 2 ^ (fmtFrac src - 1)
      let fr := if fmtFrac src ≤ fmtFrac dst then q * 2 ^ (fmtFrac dst - fmtFrac src)
                else q / 2 ^ (fmtFrac src - fmtFrac dst)
      signed dst neg ((2 ^ fmtExpBits dst - 1) * 2 ^ fmtFrac dst + fr)

/-- The E4M3 NaN carries no payload: widening it gives the quiet bit alone. -/
def nanFrac (src : Fmt) (frac : Nat) : Nat := if src = .e4m3 then 4 else frac

/-- One element converted from a format to another, to nearest even, no block scales on either side
(R89, R91 to R93, R97, R98). The input flush belongs to the source format. -/
def convElem (md : Modes) (nonsat : Bool) (src dst : Fmt) (code : Nat) : Nat × Flags :=
  let fIn := md.flush && flushable src && isSubnormal src code
  match decodeFp src code with
  | .nan neg quiet fr =>
    (convNan md src dst neg (nanFrac src fr), if quiet then noFlags else fINV)
  | .inf neg => infCode dst nonsat neg
  | .fin neg m e =>
    if fIn then (signed dst neg 0, fFLUSH)
    else
      let (c, fl) := encodeFp dst nonsat md.flush ⟨neg, m, 1, e⟩
      (c, fl)

/-- Widening an FP16 or BF16 code to FP32 bits exactly, NaN bits kept in the highest places (R74, R99):
data movement, no flush and no flag. -/
def widenBits (src : Fmt) (code : Nat) : Word :=
  match decodeFp src code with
  | .nan neg _ fr => BitVec.ofNat 32 (signed .fp32 neg (0x7F800000 + nanFrac src fr * 2 ^ (23 - fmtFrac src)))
  | .inf neg => infOf neg
  | .fin neg m e => BitVec.ofNat 32 (encodeFp .fp32 false false ⟨neg, m, 1, e⟩).1

end Sys2Proof.Machine
end

