-- ==== Sys2Proof/Machine/Sfu.lean ====
section
/-! DEFINITION. The special-function unit: tables, tiers, built-ins (04_special_functions.md R111 to R123, R136, R506). -/

namespace Sys2Proof.Machine

/-! ## Real functions in fixed point

A real value is held as an integer in units of 2^-240, so that rounding it to 24 or 32 bits gives the rounding of the
true value. -/

/-- Fraction bits of the fixed-point reals. -/
def fixBits : Nat := 240

/-- 1.0 in fixed point. -/
def fixOne : Int := ((2 ^ fixBits : Nat) : Int)

/-- A product of fixed-point values. -/
def fixMul (a b : Int) : Int := Int.fdiv (a * b) fixOne

/-- A quotient of fixed-point values. -/
def fixDiv (a b : Int) : Int := Int.fdiv (a * fixOne) b

/-- A dyadic in fixed point. -/
def fixOfDy (d : Dy) : Int := dyFloor ⟨d.m, d.e + fixBits⟩

/-- A fixed-point value as a dyadic. -/
def fixDy (v : Int) : Dy := ⟨v, -(fixBits : Int)⟩

/-- The exponential series from term k on, with fuel for the terms. -/
def expSeries (x : Int) : Nat → Nat → Int → Int
  | 0, _, _ => 0
  | n + 1, k, term => term + expSeries x n (k + 1) (Int.fdiv (fixMul term x) ((k : Int) + 1))

/-- e^x for |x| below 1. -/
def fixExp (x : Int) : Int := expSeries x 64 0 fixOne

/-- The inverse hyperbolic tangent series Σ y^(2k+1) / (2k+1), with fuel for the terms. -/
def atanhSeries (y2 : Int) : Nat → Nat → Int → Int
  | 0, _, _ => 0
  | n + 1, k, pow => Int.fdiv pow ((2 * k + 1 : Nat) : Int) + atanhSeries y2 n (k + 1) (fixMul pow y2)

/-- ln m for m in [1, 2]. -/
def fixLn (m : Int) : Int :=
  let y := fixDiv (m - fixOne) (m + fixOne)
  2 * atanhSeries (fixMul y y) 84 0 y

/-- ln 2. -/
def fixLn2 : Int := fixLn (2 * fixOne)

/-- Squaring n times. -/
def fixSquare : Nat → Int → Int
  | 0, v => v
  | n + 1, v => fixSquare n (fixMul v v)

/-- tanh x for x in [0, 16]. -/
def fixTanh (x : Int) : Int :=
  let e := fixSquare 6 (fixExp (Int.fdiv (-2 * x) 64))
  fixDiv (fixOne - e) (fixOne + e)

/-- π in fixed point (floor). -/
def fixPi : Int := 0x3243f6a8885a308d313198a2e03707344a4093822299f31d0082efa98ec4e

/-- The alternating series of sin (k = 1) or cos (k = 0), with fuel for the terms. -/
def trigSeries (x2 : Int) : Nat → Nat → Int → Int
  | 0, _, _ => 0
  | n + 1, k, term =>
    term + trigSeries x2 n (k + 2) (Int.fdiv (-(fixMul term x2)) (((k + 1) * (k + 2) : Nat) : Int))

/-- sin x for |x| below 1. -/
def fixSin (x : Int) : Int := trigSeries (fixMul x x) 32 1 x

/-- cos x for |x| below 1. -/
def fixCos (x : Int) : Int := trigSeries (fixMul x x) 32 0 fixOne

/-! ## Constants of the reductions -/

/-- log2 e at 96 fraction bits (R506). -/
def log2e96 : Dy := ⟨0x171547652b82fe1777d0ffda1, -96⟩
/-- π / 2 at 96 fraction bits (R121). -/
def pio2_96 : Dy := ⟨0x1921fb54442d18469898cc517, -96⟩
/-- ln 2 at 64 fraction bits (R150). -/
def ln2_64 : Dy := ⟨0xB17217F7D1CF79AC, -64⟩

/-! ## Tables and interpolation -/

/-- The evaluation tiers: L, P, and the IV-1 construction (R111, R112, R136). -/
inductive Tier where
  | l | p | iv1
  deriving DecidableEq, Repr

/-- The functions that are interpolated over a reduced interval (R113). -/
inductive BaseFn where
  | pow2 | log2 | recip | rsqrt | sqrt | tanh | sin | cos
  deriving DecidableEq, Repr

/-- The true function at a point of its reduced interval, in fixed point. -/
def baseFix (g : BaseFn) (x : Dy) : Int :=
  let v := fixOfDy x
  match g with
  | .pow2 => fixExp (fixMul v fixLn2)
  | .log2 => fixDiv (fixLn v) fixLn2
  | .recip => fixDiv fixOne v
  | .rsqrt => fixDiv fixOne (isqrt (v.natAbs * 2 ^ fixBits) : Nat)
  | .sqrt => (isqrt (v.natAbs * 2 ^ fixBits) : Nat)
  | .tanh => fixTanh v
  | .sin => fixSin v
  | .cos => fixCos v

/-- Equal segments of an octave of the reduced interval (R111, R112, R136). -/
def tierSegments : Tier → Nat
  | .l => 16 | .p => 256 | .iv1 => 64

/-- A stretch [start, start + width] of a reduced interval that is cut into equal segments. -/
structure Piece where
  g : BaseFn
  start : Dy
  width : Dy
  deriving DecidableEq, Repr

/-- Node j: the FP32 value nearest to the true function at the start of segment j. -/
def tableNode (p : Piece) (N j : Nat) : Dy :=
  let x := dyAdd p.start ⟨p.width.m * (j : Int), p.width.e - (N.log2 : Int)⟩
  val32 (dyToF32 (fixDy (baseFix p.g x)))

/-- The midpoint of segment j. -/
def tableMid (p : Piece) (N j : Nat) : Dy :=
  dyAdd p.start ⟨p.width.m * (2 * (j : Int) + 1), p.width.e - (N.log2 : Int) - 1⟩

/-- The step of a segment: toward zero, but to nearest in the IV-1 construction (R111, R136). -/
def tableStep (t : Tier) (n n' : Dy) : Dy :=
  val32 (if t = .iv1 then dyToF32 (dySub n' n) else dyToF32RTZ (dySub n' n))

/-- The correction coefficient of a segment (R113). -/
def tableCorr (p : Piece) (N j : Nat) (n step : Dy) : Dy :=
  let g := fixDy (baseFix p.g (tableMid p N j))
  val32 (dyToF32 (dyScale (dySub (dySub g n) (dyScale step (-1))) 2))

/-- Bits the interpolated value keeps: the 32-bit internal significand, or FP32 in the IV-1 construction. -/
def tierBits : Tier → Nat
  | .iv1 => 24 | _ => 32

/-- The interpolated value at a reduced operand (R111, R112, R136). -/
def interp (t : Tier) (p : Piece) (m : Dy) : Dy :=
  let N := tierSegments t
  let u : Exact := dyQuot (dyScale (dySub m p.start) (N.log2 : Int)) p.width
  let (a, b) := inUnits u.n u.d u.e 0
  let j := a / b
  if u.n = 0 then roundDy (tierBits t) (tableNode p N 0)
  else if N ≤ j then roundDy (tierBits t) (tableNode p N N)
  else
    let n := tableNode p N j
    let step := tableStep t n (tableNode p N (j + 1))
    let r : Int := ((a % b : Nat) : Int)
    let d : Dy := ⟨(b : Int), 0⟩
    let lin := dyAdd (dyMul n d) (dyMul step ⟨r, 0⟩)
    let full :=
      if t = .p then
        let q := tableCorr p N j n step
        (dyAdd (dyMul lin d) (dyMul q ⟨r * ((b : Int) - r), 0⟩), dyMul d d)
      else (lin, d)
    if full.1.m = 0 then ⟨0, 0⟩ else roundSig (tierBits t) (dyQuot full.1 full.2)

/-- The piece of [1, 2). -/
def pieceOct (g : BaseFn) : Piece := ⟨g, ⟨1, 0⟩, ⟨1, 0⟩⟩

/-- The piece of [1, 4) a reduced operand lies in: an octave, or the whole interval in the IV-1 construction. -/
def pieceQuad (t : Tier) (g : BaseFn) (m : Dy) : Piece :=
  if t = .iv1 then ⟨g, ⟨1, 0⟩, ⟨3, 0⟩⟩
  else if dyLt m ⟨2, 0⟩ then ⟨g, ⟨1, 0⟩, ⟨1, 0⟩⟩ else ⟨g, ⟨2, 0⟩, ⟨2, 0⟩⟩

/-- x = 2^k × m with m in [1, 2), x positive. -/
def splitOct (x : Dy) : Int × Dy :=
  let k := floorLog2 x.m.natAbs 1 x.e
  (k, ⟨(x.m.natAbs : Nat), x.e - k⟩)

/-- x = 4^k × m with m in [1, 4), x positive. -/
def splitQuad (x : Dy) : Int × Dy :=
  let k := Int.fdiv (floorLog2 x.m.natAbs 1 x.e) 2
  (k, ⟨(x.m.natAbs : Nat), x.e - 2 * k⟩)

/-- An integer nearest to a dyadic, ties to even. -/
def dyRne (x : Dy) : Int :=
  if x.m = 0 then 0
  else
    let n := (rne x.m.natAbs 1 x.e 0).1
    if x.m < 0 then -(n : Int) else (n : Int)

/-! ## Internal evaluations: values with the internal significand, unbounded exponent -/

/-- k and f of R506's exponential: P = x × LOG2E_96 = k + f, f rounded to the internal significand. -/
def expReduce (x : Dy) : Int × Dy :=
  let P := dyMul x log2e96
  let k := dyRne P
  (k, roundDy 32 (dySub P (dyInt k)))

/-- An exponent kept where it still overflows or underflows every format. -/
def clampExp (k : Int) : Int := max (-200000) (min 200000 k)

/-- exp x as an internal value 2^k × 2^f. -/
def expInternal (t : Tier) (x : Dy) : Dy :=
  let (k, f) := expReduce x
  dyScale (interp t ⟨.pow2, ⟨-1, -1⟩, ⟨1, 0⟩⟩ f) (clampExp k)

/-- exp2 x as an internal value. -/
def exp2Internal (t : Tier) (x : Dy) : Dy :=
  let k := dyFloor x
  dyScale (interp t ⟨.pow2, ⟨0, 0⟩, ⟨1, 0⟩⟩ (dySub x (dyInt k))) (clampExp k)

/-- g ≈ log2 m of R506. -/
def log2Mant (t : Tier) (m : Dy) : Dy := interp t (pieceOct .log2) m

/-- sfu_ln(m) of R150: g × LN2_64 rounded once to the internal significand. -/
def sfuLn (t : Tier) (m : Dy) : Dy := roundDy 32 (dyMul (log2Mant t m) ln2_64)

/-- 1 / x as an internal value, x nonzero; odd. -/
def recipInternal (t : Tier) (x : Dy) : Dy :=
  let (k, m) := splitOct x
  let v := dyScale (interp t (pieceOct .recip) m) (-k)
  if x.m < 0 then dyNeg v else v

/-- 1 / sqrt x as an internal value, x positive. -/
def rsqrtInternal (t : Tier) (x : Dy) : Dy :=
  let (k, m) := splitQuad x
  dyScale (interp t (pieceQuad t .rsqrt m) m) (-k)

/-- sqrt x by interpolation (the IV-1 construction). -/
def sqrtInternal (t : Tier) (x : Dy) : Dy :=
  let (k, m) := splitQuad x
  dyScale (interp t (pieceQuad t .sqrt m) m) k

/-- The exponent of the least and of the first octave beyond the greatest of tanh (Table SFU-3, R136). -/
def tanhRange : Tier → Int × Int
  | .iv1 => (-10, 3) | _ => (-12, 4)

/-- tanh x as an internal value; odd. -/
def tanhInternal (t : Tier) (x : Dy) : Dy :=
  if x.m = 0 then x else
  let j := floorLog2 x.m.natAbs 1 x.e
  if j < (tanhRange t).1 then x
  else
    let v :=
      if (tanhRange t).2 ≤ j then ⟨1, 0⟩
      else interp t ⟨.tanh, ⟨1, j⟩, ⟨1, j⟩⟩ ⟨(x.m.natAbs : Nat), x.e⟩
    if x.m < 0 then dyNeg v else v

/-- A sum of internal values rounded to the internal significand; the smaller operand is lost where it is far below. -/
def addInternal (a b : Dy) : Dy :=
  if a.m = 0 then roundDy 32 b else if b.m = 0 then roundDy 32 a else
  let ea := floorLog2 a.m.natAbs 1 a.e
  let eb := floorLog2 b.m.natAbs 1 b.e
  if eb + 160 < ea then roundDy 32 a
  else if ea + 160 < eb then roundDy 32 b
  else roundDy 32 (dyAdd a b)

/-- sigmoid x = 1 / (1 + exp(−x)) as an internal value (R120). -/
def sigmoidInternal (t : Tier) (x : Dy) : Dy := recipInternal t (addInternal ⟨1, 0⟩ (expInternal t (dyNeg x)))

/-- A product of internal values, rounded to the internal significand. -/
def mulInternal (a b : Dy) : Dy := roundDy 32 (dyMul a b)

/-- √(2/π) of GELU at the 32-bit internal significand. -/
def geluScale : Dy := ⟨0xCC42299F, -32⟩

/-- 0.044715 of GELU at the 32-bit internal significand. -/
def geluCubic : Dy := ⟨0xB727136A, -36⟩

/-- GELU's inner polynomial √(2/π) (x + 0.044715 x³), formed with the 32-bit internal significand: every product and the sum
rounded once to it (R120; DEDUCED, log entry 15). -/
def geluArg (x : Dy) : Dy :=
  mulInternal geluScale (addInternal x (mulInternal geluCubic (mulInternal x (mulInternal x x))))

/-- GELU x = 0.5 x (1 + tanh u) as an internal value, tanh of the tier in force (R120); 0 where 1 + tanh u is 0. -/
def geluInternal (t : Tier) (x : Dy) : Dy := dyScale (dyMul x (addInternal ⟨1, 0⟩ (tanhInternal t (geluArg x)))) (-1)

/-! ## sin and cos (R121) -/

/-- k of R121: x × 2/π rounded to an integer, which never ties. -/
def trigIndex (x : Dy) : Int :=
  let half := Int.fdiv fixPi 2
  Int.fdiv (fixOfDy x + Int.fdiv half 2) half

/-- x − k × π/2 exactly, with π/2 at 96 fraction bits (R121). -/
def trigRest (x : Dy) : Dy := dySub x (dyMul (dyInt (trigIndex x)) pio2_96)

/-- The reduced interval [−π/4, π/4] of sin and cos, one octave, its ends at the reduction's 96-bit π/2 (R111, Table SFU-3;
log entry 15). -/
def trigPiece (g : BaseFn) : Piece := ⟨g, dyScale (dyNeg pio2_96) (-1), pio2_96⟩

/-- sin x, or cos x, as an internal value, x positive in the domain: quadrant k mod 4, r rounded once to the internal
significand (R120, R121). -/
def trigInternal (t : Tier) (cosine : Bool) (x : Dy) : Dy :=
  let q := (trigIndex x + (if cosine then 1 else 0)) % 4
  let r := roundDy 32 (trigRest x)
  let p := trigPiece (if q % 2 = 0 then .sin else .cos)
  let v := interp t p (if dyLt r p.start then p.start else r)
  if 2 ≤ q then dyNeg v else v

/-! ## Results and flags -/

/-- An internal value of an inexact evaluation, far exponents brought near. -/
def tameExp (v : Dy) : Dy :=
  if v.m = 0 then v
  else
    let k := floorLog2 v.m.natAbs 1 v.e
    if k < -400 then ⟨v.m, v.e - k - 400⟩ else if 400 < k then ⟨v.m, v.e - k + 400⟩ else v

/-- The final rounding of an inexact evaluation: INX always, UNF when tiny (R116). -/
def sfuInexact (md : Modes) (zeroNeg : Bool) (v : Dy) : Word × Flags :=
  let v := tameExp v
  let (w, fl) := toF32 md (dyExact zeroNeg v)
  let r := roundDy 24 v
  let tiny := r.m = 0 || dyLt ⟨(r.m.natAbs : Nat), r.e⟩ ⟨1, -126⟩
  (w, fl ||| fINX ||| (if tiny then fUNF else noFlags))

/-- The final rounding of an exact case of Table SFU-4. -/
def sfuExact (md : Modes) (v : Dy) : Word × Flags := toF32 md (dyExact false v)

/-- Is the dyadic ± a power of two? -/
def isPow2 (x : Dy) : Bool := x.m ≠ 0 && x.m.natAbs == 2 ^ x.m.natAbs.log2

/-- The FP32 value numbered on the line of all finite FP32 values: the order of the values is that of the numbers. -/
def ordOf (w : Word) : Int :=
  if w.getLsbD 31 then -((w &&& 0x7FFFFFFF#32).toNat : Int) else (w.toNat : Int)

/-- The FP32 bits of a number of that line. -/
def ofOrd (k : Int) : Word :=
  if k < 0 then BitVec.ofNat 32 (0x80000000 + k.natAbs) else BitVec.ofNat 32 k.toNat

/-- sin or cos of a nonzero finite operand: NaN and INV beyond 2^20, else by reduction and interpolation, with the sign
symmetries of R120 bit for bit. -/
def trigEval (md : Modes) (t : Tier) (cosine : Bool) (x : Dy) : Word × Flags :=
  let ax : Dy := ⟨(x.m.natAbs : Nat), x.e⟩
  if dyLt ⟨1, 20⟩ ax then (qnan32, fINV)
  else
    let v := trigInternal t cosine ax
    sfuInexact md false (if x.m < 0 && !cosine then dyNeg v else v)

/-- GELU of a nonzero finite operand. The least subnormal is delivered as Table SFU-4 states it; a result 0 is a result far
below every format (Table SFU-4, −M). -/
def geluEval (md : Modes) (t : Tier) (w : Word) : Word × Flags :=
  let x := val32 w
  let v := geluInternal t x
  if w == 1#32 then sfuInexact md false x
  else if v.m = 0 then (zeroOf true, fUNF ||| fINX ||| (if md.flush then fFLUSH else noFlags))
  else sfuInexact md false v

/-- A built-in at a finite nonzero operand (flush already applied). -/
def builtinFinite (md : Modes) (t : Tier) (fid : Nat) (w : Word) : Word × Flags :=
  let x := val32 w
  let neg := sign32 w
  match fid with
  | 0x01 => sfuInexact md false (expInternal t x)
  | 0x02 =>
    let k := dyFloor x
    if dySub x (dyInt k) = ⟨0, 0⟩ ∨ (dySub x (dyInt k)).m = 0 then
      if -126 ≤ k ∧ k ≤ 127 then sfuExact md ⟨1, k⟩ else sfuInexact md false ⟨1, clampExp k⟩
    else sfuInexact md false (exp2Internal t x)
  | 0x03 =>
    if neg then (qnan32, fINV)
    else if w == one32 then (0#32, noFlags)
    else
      let (k, m) := splitOct x
      sfuInexact md false (dyAdd (dyMul (dyInt k) ln2_64) (sfuLn t m))
  | 0x04 =>
    if neg then (qnan32, fINV)
    else
      let (k, m) := splitOct x
      if isPow2 x then sfuExact md (dyInt k)
      else sfuInexact md false (dyAdd (dyInt k) (log2Mant t m))
  | 0x05 =>
    if isPow2 x then sfuExact md ⟨if neg then -1 else 1, -(splitOct x).1⟩
    else sfuInexact md neg (recipInternal t x)
  | 0x06 =>
    if neg then (qnan32, fINV)
    else if isPow2 x && (splitOct x).1 % 2 == 0 then sfuExact md ⟨1, -(splitQuad x).1⟩
    else sfuInexact md false (rsqrtInternal t x)
  | 0x07 =>
    if t = .iv1 then
      if neg then (qnan32, fINV)
      else if isPow2 x && (splitOct x).1 % 2 == 0 then sfuExact md ⟨1, (splitQuad x).1⟩
      else sfuInexact md false (sqrtInternal t x)
    else fsqrt md w
  | 0x08 => sfuInexact md neg (tanhInternal t x)
  | 0x09 => sfuInexact md false (sigmoidInternal t x)
  | 0x0A => geluEval md t w
  | 0x0B =>
    if (w == 1#32) then sfuInexact md false x
    else sfuInexact md neg (dyMul x (sigmoidInternal t x))
  | 0x0C => trigEval md t false x
  | 0x0D => trigEval md t true x
  | _ => (w, noFlags)

/-- A built-in at ±0 (Table SFU-4). -/
def builtinZero (fid : Nat) (w : Word) : Word × Flags :=
  match fid with
  | 0x01 | 0x02 | 0x0D => (one32, noFlags)
  | 0x03 | 0x04 => (ninf32, fOVF)
  | 0x05 | 0x06 => (infOf (sign32 w), fOVF)
  | 0x09 => (0x3F000000#32, noFlags)
  | _ => (w, noFlags)

/-- A built-in at an infinity (Table SFU-4). -/
def builtinInf (fid : Nat) (neg : Bool) : Word × Flags :=
  match fid with
  | 0x01 | 0x02 => (if neg then 0#32 else inf32, noFlags)
  | 0x03 | 0x04 | 0x07 => if neg then (qnan32, fINV) else (inf32, noFlags)
  | 0x05 => (zeroOf neg, noFlags)
  | 0x06 => if neg then (qnan32, fINV) else (0#32, noFlags)
  | 0x08 => (if neg then 0xBF800000#32 else one32, noFlags)
  | 0x09 => (if neg then 0#32 else one32, noFlags)
  | 0x0A | 0x0B => (if neg then 0x80000000#32 else inf32, noFlags)
  | 0x0C | 0x0D => (qnan32, fINV)
  | _ => (infOf neg, noFlags)

/-- A built-in function of Table SFU-3 evaluated at an FP32 operand (R116, R118 to R122). The identity moves its
operand; −0 results are written +0 under NZ_POS. -/
def builtin (md : Modes) (t : Tier) (fid : Nat) (w : Word) : Word × Flags :=
  if fid = 0 then
    if isNan32 w then nanResult md [w]
    else let (w', fl) := flushIn md w; (nzOut md w', fl)
  else
    let (w', f1) := flushIn md w
    let (r, f2) :=
      if isNan32 w' then nanResult md [w']
      else if isInf32 w' then builtinInf fid (sign32 w')
      else if isZero32 w' then builtinZero fid w'
      else builtinFinite md t fid w'
    (nzOut md r, f1 ||| f2)

/-! ## The wide path (R123, R150) -/

/-- exp at an FP32 operand as an exact internal value for XW40 (R123, R506): the operand is finite. -/
def expWide (t : Tier) (x : Dy) : Dy := expInternal t x

end Sys2Proof.Machine
end

