-- ==== Sys2Proof/Machine/Spore.lean ====
section
/-! DEFINITION. Spore words, Ring lanes and the values made of random words (07_spore_and_ring.md). -/

namespace Sys2Proof.Machine

/-! ## Spore (R175 to R185) -/

/-- The round constants of Table RNG-4. -/
def sporeRC : List Dword :=
  [0x7A3C15E94B82D06F#64, 0x1F6E8D34C95A27B3#64, 0xC4D19B07E2F53A68#64, 0x58A2F7C61D3E946B#64,
   0xE96B0452A7C8F1D3#64, 0x2D85C3AF6019BE47#64, 0x936F5E18D4B20C9A#64, 0x06C9A27D35F8E451#64,
   0xB1E46F938C075D2E#64, 0x4B17D8E0F263A9C5#64]

/-- One round of the mix (R178). -/
def sporeRound (rk x : Dword) : Dword :=
  let x := (x + rk) * 0x100001#64
  let x := x ^^^ (x >>> 28)
  x.rotateLeft 36

/-- The rounds from number r on (R178): the high half of the counter block enters after round 4. -/
def sporeRounds (kl kh hi : Dword) : List Dword → Nat → Dword → Dword
  | [], _, x => x
  | rc :: rest, r, x =>
    let x := sporeRound ((if r % 2 = 0 then kl else kh) + rc) x
    let x := if r = 4 then x ^^^ hi else x
    sporeRounds kl kh hi rest (r + 1) x

/-- spore_mix of a key and a counter block (R178). -/
def sporeMix (key ctr : Qword) : Dword :=
  sporeRounds (key.extractLsb' 0 64) (key.extractLsb' 64 64) (ctr.extractLsb' 64 64) sporeRC 0 (ctr.extractLsb' 0 64)

/-- A counter block (Table RNG-2). -/
def sporeBlock (stream step draft purpose index word : Nat) : Qword :=
  BitVec.ofNat 128 (stream % 65536 * 2 ^ 112 + step % 2 ^ 48 * 2 ^ 64 + draft % 16 * 2 ^ 60 + purpose % 16 * 2 ^ 56
    + index % 2 ^ 22 * 2 ^ 34 + word % 2 ^ 34)

/-- A Spore word (R179). -/
def sporeWord (key ctr : Qword) : Word := (sporeMix key ctr).extractLsb' 0 32

/-- The word of element e of a tensor operator (R184). -/
def sporeElem (seed : Qword) (step purpose e : Nat) : Word :=
  sporeWord seed (sporeBlock 0 step 0 purpose (e % 2 ^ 22) (e / 2 ^ 22))

/-! ## Uniforms and exponentials (R180, R181) -/

/-- u as an exact value: (2N + 1) × 2^−25 with N = word[31:8]. -/
def uniformDy (w : Word) : Dy := ⟨((2 * (w.toNat / 256) + 1 : Nat) : Int), -25⟩

/-- u delivered in FP32, rounded toward zero without a flag. -/
def uniform32 (w : Word) : Word := dyToF32RTZ (uniformDy w)

/-- E = −ln u at the tier, at least 2^−26 (R181). -/
def exponential32 (t : Tier) (w : Word) : Word :=
  let u := uniformDy w
  let (k, m) := splitOct u
  let v := dyToF32 (dyNeg (dyAdd (dyMul (dyInt k) ln2_64) (sfuLn t m)))
  if flt v 0x32800000#32 then 0x32800000#32 else v

/-! ## Ring lanes (R187 to R195) -/

/-- The feedback masks of Table RNG-7. -/
def ringMasks : List Qword :=
  [0x87#128, 0xC2000000000000000000000000000001#128, 0x40000028000000000000000000000001#128,
   0x00000000000000000000000028000005#128, 0x00000002000000000400000000800001#128,
   0x00000200000000400000000080000001#128, 0x00020000000010000000040000000001#128,
   0x00000000004000000010000000008001#128]

/-- The base states of Table RNG-8. -/
def ringBases : List Qword :=
  [0x91D42C7AE05B3F684A1ED97C0B836F25#128, 0x2F8BC46E1A73D590E6C20F4B93A87D1C#128,
   0xD7A15E3C9B2046F81C9E7A53B4D02E6F#128, 0x4E06B9D27F1AC358A37DE21B5C9408F6#128,
   0xB35C0E972D64A1F85B0EC3A97F12D486#128, 0x6C92F1A583DE074BC2581E6DA90F3B74#128,
   0x05E7A3C9D14B6F287E1A94C03D5BE862#128, 0xF8B16D0E4A37C92F0D64B8E1257A9C3D#128]

/-- The mask of a lane. -/
def ringMask (lane : Nat) : Qword := nth 0#128 ringMasks lane
/-- The base state of a lane. -/
def ringBase (lane : Nat) : Qword := nth 0#128 ringBases lane

/-- One step: multiplication by x (R187). -/
def ringStep (mask s : Qword) : Qword := if s.getLsbD 127 then (s <<< 1) ^^^ mask else s <<< 1

/-- n steps. -/
def ringSteps (mask : Qword) : Nat → Qword → Qword
  | 0, s => s
  | n + 1, s => ringSteps mask n (ringStep mask s)

/-- A word and the state after it (R187). -/
def ringDraw (mask s : Qword) : Word × Qword := (s.extractLsb' 96 32, ringSteps mask 32 s)

/-- n words of a lane and the state after them. -/
def ringDrawN (mask : Qword) : Nat → Qword → List Word × Qword
  | 0, s => ([], s)
  | n + 1, s =>
    let (w, s1) := ringDraw mask s
    let (ws, s2) := ringDrawN mask n s1
    (w :: ws, s2)

/-- Multiplication of two elements modulo the polynomial, from bit k − 1 of the second factor down. -/
def ringMulAux (mask a b : Qword) : Nat → Qword → Qword
  | 0, acc => acc
  | k + 1, acc =>
    let acc := ringStep mask acc
    ringMulAux mask a b k (if b.getLsbD k then acc ^^^ a else acc)

/-- a × b modulo the polynomial. -/
def ringMul (mask a b : Qword) : Qword := ringMulAux mask a b 128 0#128

/-- x^d modulo the polynomial, from bit k − 1 of the exponent down. -/
def ringPowAux (mask d : Qword) : Nat → Qword → Qword
  | 0, acc => acc
  | k + 1, acc =>
    let sq := ringMul mask acc acc
    ringPowAux mask d k (if d.getLsbD k then ringStep mask sq else sq)

/-- state × x^d (R195): d = 2^128 − 1 leaves the state unchanged. -/
def ringJump (mask s d : Qword) : Qword :=
  if d = BitVec.allOnes 128 then s else ringMul mask s (ringPowAux mask d 128 1#128)

/-- The state of lane L of chip c at a cold bring-up, a RESET or a reseed (R189). -/
def laneStart (chip lane : Nat) : Qword :=
  ringJump (ringMask lane) (ringBase lane) (BitVec.ofNat 128 (chip * 2 ^ 120))

/-- The starting state of a stream's first Ring draw (R193). -/
def streamRingStart (seed : Qword) : Qword := if seed = 0#128 then ringBase 0 else seed

/-! ## Digests (R387 to R389) -/

/-- The value word of Table DET-5. -/
def digestValue (code scale fmt : Nat) : Dword :=
  BitVec.ofNat 64 (code % 2 ^ 32 + scale % 256 * 2 ^ 32 + fmt % 256 * 2 ^ 40)

/-- digest_mix (R388). -/
def digestMix (i : Nat) (v : Dword) : Dword :=
  let x := v + 0x3C79A5E21B84D06F#64
  let x := x * 0x8F1C52B7E46D3A29#64
  let x := x ^^^ (x >>> 31)
  let x := x + BitVec.ofNat 64 (i % 2 ^ 32) * 0xA1F34C879D2E6B35#64
  let x := x * 0x6B4ED09A37F1C8C5#64
  let x := x ^^^ (x >>> 29)
  let x := x * 0x8F1C52B7E46D3A29#64
  x ^^^ (x >>> 32)

/-- The digest of a set of elements (R389). -/
def digestOf (l : List (Nat × Dword)) : Dword := l.foldl (fun d (i, v) => d + digestMix i v) 0#64

/-- The digest of FP32 values by index. -/
def digestWords (l : List (Nat × Word)) : Dword := digestOf (l.map fun (i, w) => (i, digestValue w.toNat 0 0))

end Sys2Proof.Machine
end

