-- ==== Sys2Proof/Machine/Formats.lean ====
section
/-! DEFINITION. Block scales, the choice of a scale, and stochastic rounding (03_number_formats.md R73 to R81, R94). -/

namespace Sys2Proof.Machine

/-! ## Block scales -/

/-- The block size of its code: none, 16 or 32 (Table MODEL-1). -/
def blockSize : Nat → Nat
  | 1 => 16 | 2 => 32 | _ => 0

/-- Block scales are mandatory for FP4, optional for FP8 and refused elsewhere (R76). -/
def blockAllowed (f : Fmt) (blockCode : Nat) : Bool :=
  match f with
  | .e2m1 => blockCode == 1 || blockCode == 2
  | .e4m3 | .e5m2 => decide (blockCode ≤ 2)
  | _ => blockCode == 0

/-- Bytes of a row of n elements: element codes, then scale codes (R254, R317). -/
def rowBytes (f : Fmt) (blockCode n : Nat) : Nat :=
  ceilDiv (n * fmtWidth f) 8 + (if blockSize blockCode = 0 then 0 else ceilDiv n (blockSize blockCode))

/-- An element decoded together with its block's scale code, exactly (R74, R75). -/
def decodeScaled (f : Fmt) (scale : Option Nat) (code : Nat) : Dec :=
  match scale with
  | none => decodeFp f code
  | some 255 => .nan false true 0x400000
  | some c =>
    match decodeFp f code with
    | .fin neg m e => .fin neg m (e + ((c : Int) - 127))
    | d => d

/-- An operand element as an arithmetic unit takes it: input flush under R89 (a subnormal FP32, BF16 or FP16 code;
a decoded FP8 or FP4 value below 2^−126). -/
def operandElem (md : Modes) (f : Fmt) (scale : Option Nat) (code : Nat) : Dec × Flags :=
  let d := decodeScaled f scale code
  match d with
  | .fin neg m e =>
    let small :=
      if flushable f then isSubnormal f code
      else m ≠ 0 && dyLt ⟨(m : Int), e⟩ ⟨1, -126⟩
    if md.flush && small then (.fin neg 0 0, fFLUSH) else (d, noFlags)
  | _ => (d, noFlags)

/-- The scale code of each element of a row: none without block scales. -/
def scaleOf (blockCode : Nat) (scales : List Nat) (i : Nat) : Option Nat :=
  if blockSize blockCode = 0 then none else some (nth 127 scales (i / blockSize blockCode))

/-- A stored row taken apart: its element codes and its scale codes. -/
structure CodedRow where
  codes : List Nat
  scales : List Nat
  deriving DecidableEq, Repr

/-- Reading a row of n elements from its bytes (R254, R317). -/
def parseRow (f : Fmt) (blockCode n : Nat) (bs : List Byte) : CodedRow :=
  let eb := ceilDiv (n * fmtWidth f) 8
  { codes := unpackCodes (fmtWidth f) n bs
    scales := if blockSize blockCode = 0 then []
              else groupCodes 1 (ceilDiv n (blockSize blockCode)) (bs.drop eb) }

/-- A coded row as bytes. -/
def rowToBytes (f : Fmt) (r : CodedRow) : List Byte :=
  packCodes (fmtWidth f) r.codes ++ r.scales.flatMap (leBytes 1)

/-- The elements of a row with their scale codes. -/
def rowElems (blockCode : Nat) (r : CodedRow) : List (Nat × Option Nat) :=
  (withIndex r.codes).map fun (i, c) => (c, scaleOf blockCode r.scales i)

/-- A decoded value rounded to FP32 bits under R92 (NaN by R97, R98; exact widening where it fits). -/
def decToF32 (md : Modes) (d : Dec) : Word × Flags :=
  match d with
  | .nan neg q fr =>
    (if md.strict then BitVec.ofNat 32 (signed .fp32 neg (0x7F800000 + (fr ||| 0x400000))) else qnan32,
      if q then noFlags else fINV)
  | .inf neg => (infOf neg, noFlags)
  | .fin neg m e => toF32 md ⟨neg, m, 1, e⟩

/-- The fraction of a NaN code left-aligned in FP32's fraction field. -/
def alignNan (f : Fmt) (d : Dec) : Dec :=
  match d with
  | .nan neg q fr => .nan neg q (if fmtFrac f = 23 then fr else nanFrac f fr * 2 ^ (23 - fmtFrac f))
  | _ => d

/-- One stored element as FP32: input flush, exact decoding, NaN rules (R74, R89, R97, R98). -/
def elemToF32 (md : Modes) (f : Fmt) (scale : Option Nat) (code : Nat) : Word × Flags :=
  let (d, fl) := operandElem md f scale code
  let d' := match scale with | some 255 => d | _ => alignNan f d
  let (w, fl') := decToF32 md d'
  (w, fl ||| fl')

/-! ## Stochastic rounding (R94) -/

/-- The value of a target's largest finite code. -/
def fmtMax (f : Fmt) : Dy := decDy (decodeFp f (fmtMaxCode f))

/-- A finite exact value rounded stochastically with one 32-bit word r, of which bits [31:16] decide. -/
def encodeStoch (f : Fmt) (nonsat flush : Bool) (r : Word) (x : Exact) : Nat × Flags :=
  if x.n = 0 then (signed f x.neg 0, noFlags) else
  let E := floorLog2 x.n x.d x.e
  let qmin := fmtEmin f - fmtFrac f
  let q := max (E - fmtFrac f) qmin
  let f16 : Nat := if E + 20 < q then 0 else (rtz x.n x.d x.e (q - 16)).1 % 65536
  let base : Nat := if E < q then 0 else (rtz x.n x.d x.e q).1
  let exact : Bool := if E + 2 < q then false else !(rne x.n x.d x.e q).2
  let up := decide (65536 ≤ f16 + r.toNat / 65536)
  let m := if !exact && up then base + 1 else base
  let tiny := decide (E < fmtEmin f)
  let inx := if exact then noFlags else fINX ||| (if tiny then fUNF else noFlags)
  if dyLt (fmtMax f) ⟨(m : Int), q⟩ then overflowCode f nonsat x.neg
  else if flush && flushable f && tiny && dyLt ⟨(m : Int), q⟩ ⟨1, fmtEmin f⟩ then
    (signed f x.neg 0, fFLUSH ||| fUNF ||| fINX)
  else (signed f x.neg (packMag f m q), inx)

/-- The rounding an encoding uses for one finite element: to nearest, or stochastically with its word. -/
def encodeWith (f : Fmt) (nonsat flush : Bool) (word : Option Word) (x : Exact) : Nat × Flags :=
  match word with
  | none => encodeFp f nonsat flush x
  | some r => encodeStoch f nonsat flush r x

/-! ## Choosing a block's scale (R77 to R81) -/

/-- The exponent of the largest element (emax of R77). -/
def fmtEmaxScale : Fmt → Int
  | .e4m3 => 8 | .e5m2 => 15 | _ => 2

/-- An encoded block: scale code, element codes, flags, and whether an element was crushed (R79). -/
structure EncBlock where
  scale : Nat
  codes : List Nat
  flags : Flags
  crushed : Bool
  deriving DecidableEq, Repr

/-- A zero's code keeps its sign only under NZ_IEEE (R78, R90). -/
def nzCode (md : Modes) (f : Fmt) (c : Nat) : Nat := if md.nzPos && c = fmtSign f then 0 else c

/-- The block's exponent after the threshold step, and whether R77 floored it. -/
def blockExponent (f : Fmt) (xs : List Exact) : Int × Bool :=
  let big := xs.foldl (fun (best : Dy) x =>
    let v := roundSig 200 { x with neg := false }
    if dyLt best v then v else best) ⟨0, 0⟩
  let e0 := floorLog2 big.m.natAbs 1 big.e - fmtEmaxScale f
  let past := overflows f ⟨false, big.m.natAbs, 1, big.e - e0⟩
  let e1 := if past then e0 + 1 else e0
  if e1 < -127 then (-127, true) else if 127 < e1 then (127, false) else (e1, false)

/-- The elements of a block rounded at exponent e. -/
def encodeElems (md : Modes) (f : Fmt) (nonsat : Bool) (e : Int) (floored : Bool)
    (xs : List (Dec × Option Word)) : List Nat × Flags × Bool :=
  xs.foldr (fun (d, w) (cs, fl, cr) =>
    let (c, f1, zeroed) :=
      match d with
      | .fin neg m ex =>
        let (c, f1) := encodeWith f nonsat false w ⟨neg, m, 1, ex - e⟩
        (c, f1, decide (m ≠ 0 ∧ c % fmtSign f = 0))
      | .inf neg => let (c, f1) := infCode f nonsat neg; (c, f1, false)
      | .nan neg _ _ => (signed f neg (fmtQnan f), noFlags, false)
    (nzCode md f c :: cs, fl ||| f1, cr || (zeroed && !floored))) ([], noFlags, false)

/-- The finite nonzero values of a block. -/
def blockFinite (xs : List (Dec × Option Word)) : List Exact :=
  xs.filterMap fun (d, _) => match d with
    | .fin neg m e => if m = 0 then none else some ⟨neg, m, 1, e⟩
    | _ => none

/-- A block encoded under R77 to R81; each element comes with its random word when rounding is stochastic. -/
def encodeBlock (md : Modes) (f : Fmt) (nonsat : Bool) (xs : List (Dec × Option Word)) : EncBlock :=
  let anyNan := xs.any fun (d, _) => match d with | .nan _ _ _ => true | _ => false
  let anyInf := xs.any fun (d, _) => match d with | .inf _ => true | _ => false
  let nanBlock (fl : Flags) : EncBlock := ⟨255, xs.map fun _ => 0, fl, false⟩
  let fin := blockFinite xs
  let finite (e : Int) (floored : Bool) : EncBlock :=
    let (cs, fl, cr) := encodeElems md f nonsat e floored xs
    ⟨(e + 127).toNat, cs, fl, cr⟩
  if anyNan then nanBlock fINV
  else if anyInf && f ≠ .e5m2 then
    if f = .e4m3 && nonsat then nanBlock fOVF else finite 127 false
  else if fin.isEmpty then finite (-127) true
  else let (e, fl) := blockExponent f fin; finite e fl

/-- A row of decoded values encoded into a format and block size: the coded row, its flags, and the number of
blocks that hold a crushed element (R77, R79, R91). -/
def encodeRow (md : Modes) (f : Fmt) (blockCode : Nat) (nonsat : Bool) (xs : List (Dec × Option Word)) :
    CodedRow × Flags × Nat :=
  if blockSize blockCode = 0 then
    xs.foldr (fun (d, w) (r, fl, n) =>
      let (c, f1) :=
        match d with
        | .fin neg m e => encodeWith f nonsat md.flush w ⟨neg, m, 1, e⟩
        | .inf neg => infCode f nonsat neg
        | .nan neg q fr => (convNan md .fp32 f neg fr, if q then noFlags else fINV)
      (⟨nzCode md f c :: r.codes, r.scales⟩, fl ||| f1, n)) (⟨[], []⟩, noFlags, 0)
  else
    (chunks (blockSize blockCode) xs).foldr (fun blk (r, fl, n) =>
      let b := encodeBlock md f nonsat blk
      (⟨b.codes ++ r.codes, b.scale :: r.scales⟩, fl ||| b.flags, n + b2n b.crushed)) (⟨[], []⟩, noFlags, 0)

/-- FP32 bits as a decoded value. -/
def f32Dec (w : Word) : Dec := dec32 w

end Sys2Proof.Machine
end

