-- ==== Sys2Proof/Machine/Reduce.lean ====
section
/-! DEFINITION. How sums are formed: the fixed tree, FREE order, the row partition, FP32 sums (R25, R87, R88, R146,
R155, R255, R256, R373 to R377). -/

namespace Sys2Proof.Machine

/-! ## Order modes -/

/-- The order mode of a command (R372): FIXED, or FREE with the path that numbers its free choices. -/
inductive Order where
  | fixed
  | free (path : List Nat)
  deriving DecidableEq, Repr

/-- The order of a part of a command: FREE choices of different parts are independent. -/
def orderSub (o : Order) (k : Nat) : Order :=
  match o with
  | .fixed => .fixed
  | .free p => .free (k :: p)

/-- One free choice below n (0 where there is no choice). -/
def freeBelow (path : List Nat) (n : Nat) : Nat := if n ≤ 1 then 0 else Config.freeChoice path % n

/-- A list in an order of free choices, with fuel for its length. -/
def freePermuteAux {α : Type} (path : List Nat) : Nat → List α → List α
  | 0, l => l
  | n + 1, l =>
    let i := freeBelow (n :: path) l.length
    match l.drop i with
    | [] => l
    | x :: rest => x :: freePermuteAux path n (l.take i ++ rest)

/-- A list in an order of free choices. -/
def freePermute {α : Type} (path : List Nat) (l : List α) : List α := freePermuteAux path l.length l

/-! ## The fixed tree T (R373) -/

/-- One level of T: neighbours combined, an odd last leaf passed up. -/
def treeLevel {α : Type} (add : α → α → α × Flags) : List α → List α × Flags
  | [] => ([], noFlags)
  | [x] => ([x], noFlags)
  | x :: y :: rest =>
    let (z, f) := add x y
    let (zs, fs) := treeLevel add rest
    (z :: zs, f ||| fs)

/-- T with fuel for its levels. -/
def treeAux {α : Type} (add : α → α → α × Flags) : Nat → List α → List α × Flags
  | 0, l => (l, noFlags)
  | n + 1, l =>
    match l with
    | [] => ([], noFlags)
    | [x] => ([x], noFlags)
    | _ =>
      let (l', f) := treeLevel add l
      let (r, fs) := treeAux add n l'
      (r, f ||| fs)

/-- The fixed tree T over a sequence of leaves; the empty sum is the value given. -/
def treeT {α : Type} (add : α → α → α × Flags) (zero : α) (l : List α) : α × Flags :=
  let (r, f) := treeAux add (l.length.log2 + 1) l
  (r.headD zero, f)

/-- A list without its element i. -/
def dropNth {α : Type} (l : List α) (i : Nat) : List α := l.take i ++ l.drop (i + 1)

/-- FREE order's combination of FP32 partials: any two remaining partials are added next (R88), with fuel. -/
def freeTreeAux {α : Type} (add : α → α → α × Flags) (path : List Nat) : Nat → List α → List α × Flags
  | 0, l => (l, noFlags)
  | n + 1, l =>
    match l with
    | [] => ([], noFlags)
    | [x] => ([x], noFlags)
    | x :: _ =>
      let i := freeBelow ((2 * n) :: path) l.length
      let a := nth x l i
      let l1 := dropNth l i
      let j := freeBelow ((2 * n + 1) :: path) l1.length
      let b := nth x l1 j
      let (c, f) := add a b
      let (r, fs) := freeTreeAux add path n (c :: dropNth l1 j)
      (r, f ||| fs)

/-- Partials combined under the order mode: T, or any order. Two partials leave no choice. -/
def combine {α : Type} (add : α → α → α × Flags) (zero : α) (o : Order) (l : List α) : α × Flags :=
  match o with
  | .fixed => treeT add zero l
  | .free p =>
    if l.length ≤ 2 then treeT add zero l
    else
      let (r, f) := freeTreeAux add p l.length l
      (r.headD zero, f)

/-! ## The partition of a row (R155, R255, R256, R320) -/

/-- Entries of a granule. -/
def granuleSize : Nat := 512
/-- Granules of a piece at most (R155). -/
def pieceGranules : Nat := 64

/-- A core's share of a row: its physical number and its pieces, each a list of granule numbers. -/
structure CorePart where
  core : Nat
  pieces : List (List Nat)
  deriving DecidableEq, Repr

/-- A chip's share of a row. -/
structure ChipPart where
  chip : Nat
  cores : List CorePart
  deriving DecidableEq, Repr

/-- Granules dealt to the active cores in turn, then cut into pieces of at most 64 (R256, R155). -/
def dealCores (cores : List Nat) (granules : List Nat) : List CorePart :=
  (withIndex cores).map fun (k, c) =>
    let mine := (withIndex granules).filterMap fun (q, g) => if q % cores.length = k then some g else none
    ⟨c, chunks pieceGranules mine⟩

/-- Granules dealt on after n granules of the same chip, into pieces of their own (R258). -/
def dealAfter (cores : List Nat) (n : Nat) (granules : List Nat) : List CorePart :=
  (withIndex cores).map fun (k, c) =>
    let mine := (withIndex granules).filterMap fun (q, g) => if (n + q) % cores.length = k then some g else none
    ⟨c, chunks pieceGranules mine⟩

/-- Granules `first … first + n − 1` dealt to the chips by rank (R255, R320); each chip comes with its active cores. -/
def dealRow (chips : List (Nat × List Nat)) (first n : Nat) : List ChipPart :=
  (withIndex chips).map fun (rank, (chip, cores)) =>
    let mine := (List.range n).filter fun j => (first + j) % chips.length = rank
    ⟨chip, dealCores cores mine⟩

/-- The chip and core that hold a granule. -/
def ownerOf (parts : List ChipPart) (g : Nat) : Nat × Nat :=
  match parts.findSome? fun cp =>
      (cp.cores.find? fun k => k.pieces.any fun p => p.contains g).map fun k => (cp.chip, k.core) with
  | some x => x
  | none => (0, 0)

/-- The chip that holds a granule. -/
def ownerChip (parts : List ChipPart) (g : Nat) : Nat := (ownerOf parts g).1

/-! ## FP32 sums -/

/-- Does a decoded value make a product NaN or infinite? -/
def decIsNan : Dec → Bool
  | .nan _ _ _ => true | _ => false
/-- An infinite decoded value. -/
def decIsInf : Dec → Bool
  | .inf _ => true | _ => false
/-- A signalling NaN. -/
def decIsSnan : Dec → Bool
  | .nan _ q _ => !q | _ => false
/-- The sign of a decoded value. -/
def decNeg : Dec → Bool
  | .nan n _ _ => n | .inf n => n | .fin n _ _ => n
/-- A decoded zero. -/
def decIsZero : Dec → Bool
  | .fin _ m _ => m == 0 | _ => false

/-- 1.0 decoded. -/
def decOne : Dec := .fin false 1 0

/-- One reduction tile under FAST: the exact products added exactly, the sum rounded once (R88). A tile that holds a quiet NaN
together with infinite products of both signs raises no INV (DESIGN CHOICE: R96 does not say, log entry 103). -/
def tileSum (md : Modes) (ps : List (Dec × Dec)) : Word × Flags :=
  let snan := ps.any fun (a, b) => decIsSnan a || decIsSnan b
  let nan := ps.any fun (a, b) => decIsNan a || decIsNan b
  let bad := ps.any fun (a, b) => (decIsInf a && decIsZero b) || (decIsZero a && decIsInf b)
  let infs := ps.filterMap fun (a, b) =>
    if decIsInf a || decIsInf b then some (Bool.xor (decNeg a) (decNeg b)) else none
  let clash := infs.contains true && infs.contains false
  let fInv := if snan || (bad && !nan) || bad || (clash && !nan) then fINV else noFlags
  if nan || bad || clash then (qnan32, fInv)
  else match infs with
    | s :: _ => (infOf s, noFlags)
    | [] =>
      let total := ps.foldl (fun acc (a, b) => dyAdd acc (dyMul (decDy a) (decDy b))) ⟨0, 0⟩
      let allNeg := !ps.isEmpty && ps.all fun (a, b) => Bool.xor (decNeg a) (decNeg b)
      toF32 md (dyExact allNeg total)

/-- A decoded element carried into an FP32 fused multiply–add exactly: the product is never rounded on its own. -/
def fmaDec (md : Modes) (a b : Dec) (acc : Word) : Word × Flags :=
  let sg := Bool.xor (decNeg a) (decNeg b)
  let nanW (d : Dec) : Word := match d with
    | .nan neg q fr =>
      BitVec.ofNat 32 (signed .fp32 neg (0x7F800000 + (if q then fr ||| 0x400000 else (if fr = 0 then 1 else fr))))
    | _ => 0#32
  let bad := (decIsInf a && decIsZero b) || (decIsZero a && decIsInf b)
  if decIsNan a || decIsNan b || isNan32 acc then
    let ops := (if decIsNan a then [nanW a] else []) ++ (if decIsNan b then [nanW b] else []) ++ [acc]
    let (w, f) := nanResult md ops
    (w, if bad then f ||| fINV else f)
  else if bad then (qnan32, fINV)
  else if decIsInf a || decIsInf b then
    if isInf32 acc && sign32 acc != sg then (qnan32, fINV) else (infOf sg, noFlags)
  else if isInf32 acc then (acc, noFlags)
  else toF32 md (dyExact (sg && sign32 acc) (dyAdd (dyMul (decDy a) (decDy b)) (val32 acc)))

/-- The STRICT accumulation of R87: a fused multiply–add chain from −0.0. -/
def fmaChain (md : Modes) (ps : List (Dec × Dec)) : Word × Flags :=
  ps.foldl (fun (acc, fl) (a, b) => let (r, f) := fmaDec md a b acc; (r, fl ||| f)) (0x80000000#32, noFlags)

/-- A dot product or a product sum whose tiles start at element 0 (R87, R88, R374): `always` takes T in every order
mode (NORM and the head maps). -/
def sumProducts (md : Modes) (o : Order) (width : Nat) (ps : List (Dec × Dec)) : Word × Flags :=
  if md.strict then fmaChain md ps
  else
    let tiles := (chunks width ps).map (tileSum md)
    let fl := tiles.foldl (fun f t => f ||| t.2) noFlags
    let (r, f2) := combine (fadd md) 0#32 o (tiles.map fun t => t.1)
    (r, fl ||| f2)

/-- A FAST row sum in FIXED order: tiles clipped at granule boundaries, T within a granule, then T over the granule
sums (R375). In FREE order the tiles run from element 0 and combine in any order (R88). -/
def rowSum (md : Modes) (o : Order) (width : Nat) (ps : List (Dec × Dec)) : Word × Flags :=
  if md.strict then fmaChain md ps
  else match o with
    | .free _ => sumProducts md o width ps
    | .fixed =>
      let grans := (chunks granuleSize ps).map fun g => sumProducts md .fixed width g
      let fl := grans.foldl (fun f t => f ||| t.2) noFlags
      let (r, f2) := treeT (fadd md) 0#32 (grans.map fun t => t.1)
      (r, fl ||| f2)

/-- The IV-1 summation: tiles of 128 elements rounded once, added sequentially (R401). -/
def iv1Sum (ps : List (Dec × Dec)) : Word × Flags :=
  match (chunks 128 ps).map (tileSum iv1Modes) with
  | [] => (0#32, noFlags)
  | t :: ts => ts.foldl (fun (acc, fl) t => let (r, f) := fadd iv1Modes acc t.1; (r, fl ||| t.2 ||| f)) t

end Sys2Proof.Machine
end

