-- ==== Sys2Proof/Machine/Xw40.lean ====
section
/-! DEFINITION. XW40 values, their sums, and leaving XW40 (05_wide_exponent_softmax.md). -/

namespace Sys2Proof.Machine

/-- +0 (Table XW-2). -/
def xwZero : Xw := 0x4000000000#40
/-- −0. -/
def xwNegZero : Xw := 0xC000000000#40
/-- +inf. -/
def xwInf : Xw := 0x3FFFE00000#40
/-- The canonical quiet NaN. -/
def xwNan : Xw := 0x3FFFF00000#40
/-- 1.0. -/
def xwOne : Xw := 0#40

/-- The exponent field as an integer (R138). -/
def xwExp (x : Xw) : Int :=
  let e : Nat := x.toNat / 2 ^ 21 % 2 ^ 18
  if e < 2 ^ 17 then (e : Int) else (e : Int) - 262144
/-- The fraction field. -/
def xwFrac (x : Xw) : Nat := x.toNat % 2 ^ 21
/-- The sign. -/
def xwSign (x : Xw) : Bool := x.getLsbD 39

/-- The value of a code (R138, R139): a NaN, an infinity or a finite value. -/
def xwDec (x : Xw) : Dec :=
  let e := xwExp x
  if e = 131071 then (if xwFrac x = 0 then .inf (xwSign x) else .nan (xwSign x) true 0)
  else if e = -131072 then .fin (xwSign x) 0 0
  else .fin (xwSign x) (2 ^ 21 + xwFrac x) (e - 21)

/-- A code from sign, exponent and fraction. -/
def xwPack (neg : Bool) (e : Int) (f : Nat) : Xw :=
  BitVec.ofNat 40 ((if neg then 2 ^ 39 else 0) + (e % 262144).toNat * 2 ^ 21 + f)

/-- An exact value rounded to 22 significant bits and encoded (R141). A negative value beyond the range, which no sum on the tray
is, becomes −inf (DESIGN CHOICE, log entry 100). -/
def xwRound (x : Exact) : Xw :=
  if x.n = 0 then (if x.neg then xwNegZero else xwZero)
  else
    let r := roundSig 22 x
    let e := floorLog2 r.m.natAbs 1 r.e
    if 131070 < e then (if x.neg then 0xBFFFE00000#40 else xwInf)
    else if e < -131071 then (if x.neg then xwNegZero else xwZero)
    else
      let k := e - 21 - r.e
      let m := if 0 ≤ k then r.m.natAbs / 2 ^ k.toNat else r.m.natAbs * 2 ^ (-k).toNat
      xwPack x.neg e (m - 2 ^ 21)

/-- XW40 addition (R141). An operand far below the other does not reach its rounding. +inf and −inf together, which no sum on
the tray meets, give the NaN (DESIGN CHOICE, log entry 100). -/
def xwAdd (a b : Xw) : Xw :=
  if a == xwZero then b else if b == xwZero then a else
  match xwDec a, xwDec b with
  | .nan _ _ _, _ => xwNan
  | _, .nan _ _ _ => xwNan
  | .inf x, .inf y => if x = y then a else xwNan
  | .inf _, _ => a
  | _, .inf _ => b
  | .fin n1 m1 e1, .fin n2 m2 e2 =>
    if m1 = 0 then (if m2 = 0 then (if n1 && n2 then xwNegZero else xwZero) else b)
    else if m2 = 0 then a
    else if e2 + 30 < e1 then a
    else if e1 + 30 < e2 then b
    else
      let d (n : Bool) (m : Nat) (e : Int) : Dy := ⟨if n then -(m : Int) else (m : Int), e⟩
      xwRound (dyExact false (dyAdd (d n1 m1 e1) (d n2 m2 e2)))

/-- XW40 addition raises no flag (R142). -/
def xwAddF (a b : Xw) : Xw × Flags := (xwAdd a b, noFlags)

/-- The fixed tree over XW40 leaves. -/
def xwTree (l : List Xw) : Xw := (treeT xwAddF xwZero l).1

/-! ## The clamp and the wide functions (R53, R123, R143, R150) -/

/-- Table PIPE-2: the clamped score and whether it changed. -/
def clampScore (w : Word) : Word × Bool :=
  match dec32 w with
  | .nan _ _ _ => (w, false)
  | .inf neg => if neg then (w, false) else (0x477FFFFF#32, true)
  | .fin _ _ _ =>
    if dyLt (val32 w) ⟨-65536, 0⟩ then (0xC7800000#32, true)
    else if dyLe ⟨65536, 0⟩ (val32 w) then (0x477FFFFF#32, true)
    else (w, false)

/-- exp_xw (R143). -/
def expXw (t : Tier) (w : Word) : Xw :=
  let c := (clampScore w).1
  match dec32 c with
  | .nan _ _ _ => xwNan
  | .inf _ => xwZero
  | .fin _ m _ => if m = 0 then xwOne else xwRound (dyExact false (expInternal t (val32 c)))

/-- ln_xw (R150); −0, which the rule does not name, gives −inf as +0 does (DESIGN CHOICE, log entry 100). -/
def lnXw (t : Tier) (x : Xw) : Word :=
  match xwDec x with
  | .nan _ _ _ => qnan32
  | .inf neg => if neg then qnan32 else inf32
  | .fin neg m _ =>
    if m = 0 then (if neg then ninf32 else ninf32)
    else if neg then qnan32
    else
      let p := dyMul (dyInt (xwExp x)) ln2_64
      let mant : Dy := ⟨((2 ^ 21 + xwFrac x : Nat) : Int), -21⟩
      dyToF32 (dyAdd p (sfuLn t mant))

/-! ## Leaving XW40 (R148, R149, R151) -/

/-- An XW40 quotient in a format, rounded once; above 1.0 it is written as 1.0 without a flag (R148). -/
def xwQuotient (md : Modes) (f : Fmt) (a b : Xw) : Nat × Flags :=
  match xwDec a, xwDec b with
  | .fin _ m1 e1, .fin _ m2 e2 =>
    if m2 = 0 then (fmtQnan f, fINV)
    else if m1 = 0 then (0, noFlags)
    else
      let x : Exact := ⟨false, m1, m2, max (-4000) (min 4000 (e1 - e2))⟩
      if (if e1 < e2 then decide (m1 ≤ m2 * 2 ^ (min 40 (e2 - e1).toNat)) else decide (m1 * 2 ^ (min 40 (e1 - e2).toNat) ≤ m2))
      then encodeFp f false md.flush x
      else (encodeFp f false md.flush ⟨false, 1, 1, 0⟩)
  | _, _ => (fmtQnan f, noFlags)

/-- An XW40 quotient in FP32. -/
def xwQuotF32 (md : Modes) (a b : Xw) : Word × Flags :=
  let (c, fl) := xwQuotient md .fp32 a b
  (BitVec.ofNat 32 c, fl)

/-- A single XW40 value in FP32 (R149). -/
def xwToF32 (md : Modes) (a : Xw) : Word × Flags :=
  match xwDec a with
  | .nan _ _ _ => (qnan32, noFlags)
  | .inf neg => (infOf neg, noFlags)
  | .fin neg m e => toF32 md ⟨neg, m, 1, max (-4000) (min 4000 e)⟩

/-- An FP32 value converted exactly to XW40 (R401). -/
def xwOfF32 (w : Word) : Xw :=
  match dec32 w with
  | .nan _ _ _ => xwNan
  | .inf neg => if neg then 0xBFFFE00000#40 else xwInf
  | .fin neg m e => xwRound ⟨neg, m, 1, e⟩

/-- s − ln Σ, a result above +0.0 written as +0.0 without a flag (R151). -/
def logProbOf (md : Modes) (s lnSum : Word) : Word × Flags :=
  let (r, fl) := fsub md s lnSum
  if flt 0#32 r then (0#32, noFlags) else (nzOut md r, fl)

/-! ## Sums along a row (R145, R146, R375) -/

/-- A binary counter takes one arriving partial at a level (R146): equal levels are added into the next. -/
def counterPut (fuel : Nat) (levels : List (Option Xw)) (x : Xw) : List (Option Xw) :=
  match fuel, levels with
  | 0, ls => ls
  | _, [] => [some x]
  | _, none :: rest => some x :: rest
  | n + 1, some y :: rest => none :: counterPut n rest (xwAdd y x)

/-- A binary counter over partials in arriving order; what remains is added from the lowest level upwards. -/
def counterSum (arrivals : List Xw) : Xw :=
  let ls := arrivals.foldl (counterPut (arrivals.length + 1)) []
  let rest := ls.filterMap id
  match rest with
  | [] => xwZero
  | x :: xs => xs.foldl xwAdd x

/-- What a unit of FREE order makes of its partials, which arrive in an order of free choices. Fewer than three
nonzero partials leave no choice, since adding +0 changes nothing and addition commutes. -/
def freeUnit (path : List Nat) (l : List Xw) : Xw :=
  match l.filter (fun x => x != xwZero) with
  | [] => xwZero
  | [x] => x
  | [x, y] => xwAdd x y
  | _ => counterSum (freePermute path l)

/-- The XW40 sum of terms along a row, one term per logical index (R146, R375). -/
def xwRowSum (o : Order) (parts : List ChipPart) (terms : List Xw) : Xw :=
  let grans := chunks granuleSize terms
  match o with
  | .fixed => xwTree (grans.map xwTree)
  | .free path =>
    let chipSums := parts.map fun cp =>
      let coreSums := cp.cores.map fun k =>
        let pieces := k.pieces.map fun p => xwTree (p.flatMap fun g => nth [] grans g)
        freeUnit (0 :: k.core :: cp.chip :: path) pieces
      freeUnit (1 :: cp.chip :: path) coreSums
    freeUnit (2 :: path) chipSums

end Sys2Proof.Machine
end

