-- ==== Sys2Proof/Machine/Gill.lean ====
section
/-! DEFINITION. The Gill selector: buckets, the cut, compaction and mass accounting, TOPK and THRESHOLD_COMPACT
(06_gill_selection.md). -/

namespace Sys2Proof.Machine

/-- C_MAX (R164). -/
def candMax : Nat := 65536

/-- An entry of a row as the selector sees it: order key, logical index, final score, exp_xw term. -/
structure Entry where
  key : Nat
  idx : Nat
  score : Word
  term : Xw
  deriving DecidableEq, Repr

/-- Mass-bearing keys (R154). -/
def massBearing (key : Nat) : Bool := decide (0x00800000 ≤ key ∧ key ≤ 0xFF800000)

/-- The cut parameters of a stream (Table GILL-2). -/
structure CutParams where
  topK : Nat
  minP : Word
  topP : Word
  precision : Nat
  deriving DecidableEq, Repr

/-- Entries by descending key, equal keys by ascending index. -/
def entryBefore (a b : Entry) : Bool := decide (b.key < a.key ∨ (a.key = b.key ∧ a.idx < b.idx))

/-- Runs of equal keys in a sorted list, with fuel for its length. -/
def tieRuns : Nat → List Entry → List (List Entry)
  | 0, _ => []
  | _, [] => []
  | n + 1, e :: rest =>
    let same := rest.takeWhile fun x => x.key == e.key
    (e :: same) :: tieRuns n (rest.drop same.length)

/-- The selection order (R160): ties by index in FIXED order, by free choices in FREE order. -/
def selectionOrder (o : Order) (l : List Entry) : List Entry :=
  let s := sortBy entryBefore l
  match o with
  | .fixed => s
  | .free p => (tieRuns s.length s).flatMap fun run => freePermute ((run.headD ⟨0, 0, 0#32, 0#40⟩).key :: p) run

/-- The row maximum over entries that are not NaN; +0 where +0 and −0 tie; −inf for none (R152). -/
def rowMax (finals : List Word) : Word :=
  finals.foldl (fun best w =>
    if isNan32 w then best
    else
      let k := (orderKey w).toNat
      let b := (orderKey best).toNat
      if b < k then w else if k = b && w == 0#32 then w else best) ninf32

/-- The partial record a piece leaves after EXP+HIST (R156): its chip and core, its granules, the level-1 counts and masses
of its occupied buckets, its XW40 sum, its maximum, its NaN indication, the piece top bucket, and its digest partials. -/
structure PieceRec where
  chip : Nat
  core : Nat
  grans : List Nat
  counts : List (Nat × Nat)
  masses : List (Nat × Xw)
  sum : Xw
  max : Word
  nan : Bool
  top : Nat
  dScore : Dword
  dFinal : Dword
  deriving DecidableEq, Repr

/-- The level-1 bucket of a key (R153). -/
def bucketOf (key : Nat) : Nat := key / 2 ^ 22

/-- The record of one piece: `row` gives index, score, final score and term of the logical indices of its granules. -/
def pieceRec (chip core : Nat) (grans : List Nat) (row : List (Nat × Word × Word × Xw)) : PieceRec :=
  let keys := row.map fun x => (bucketOf (orderKey x.2.2.1).toNat, x.2.2.2)
  let used := (keys.map fun k => k.1).eraseDups
  { chip := chip, core := core, grans := grans
    counts := used.map fun b => (b, (keys.filter fun k => k.1 == b).length)
    masses := used.map fun b => (b, xwTree (keys.map fun k => if k.1 = b then k.2 else xwZero))
    sum := xwTree (keys.map fun k => k.2)
    max := rowMax (row.map fun x => x.2.2.1)
    nan := row.any fun x => isNan32 x.2.2.1
    top := (keys.map fun k => k.1).foldl max 0
    dScore := digestWords (row.map fun x => (x.1, x.2.1))
    dFinal := digestWords (row.map fun x => (x.1, x.2.2.1)) }

/-- The records of a row's pieces (R155, R156). -/
def pieceRecs (parts : List ChipPart) (row : List (Nat × Word × Word × Xw)) : List PieceRec :=
  let grans := chunks granuleSize row
  parts.flatMap fun cp => cp.cores.flatMap fun k => k.pieces.map fun p =>
    pieceRec cp.chip k.core p (p.flatMap fun g => nth [] grans g)

/-- Does a later pass that concerns a bucket recompute a granule: it lies in no piece whose top bucket is below (R158)? -/
def inPass (recs : List PieceRec) (bucket g : Nat) : Bool :=
  recs.all fun r => !(r.grans.contains g && decide (r.top < bucket))

/-- The entries a later pass over the pieces meets (R158). -/
def laterPass (recs : List PieceRec) (bucket : Nat) (l : List Entry) : List Entry :=
  l.filter fun e => inPass recs bucket (e.idx / granuleSize)

/-- A unit of the walk: a bucket, or a sub-bucket. -/
structure CutUnit where
  members : List Entry
  mass : Xw
  deriving DecidableEq, Repr

/-- Groups of a list in selection order that share key / 2^sh, with fuel. -/
def unitRuns (sh : Nat) : Nat → List Entry → List (List Entry)
  | 0, _ => []
  | _, [] => []
  | n + 1, e :: rest =>
    let same := rest.takeWhile fun x => x.key / 2 ^ sh == e.key / 2 ^ sh
    (e :: same) :: unitRuns sh n (rest.drop same.length)

/-- The mass of the entries of a row whose key falls in a unit (R153, R146, R375). -/
def unitMass (o : Order) (parts : List ChipPart) (row : List (Nat × Xw)) (sh u : Nat) : Xw :=
  xwRowSum (orderSub (orderSub o sh) u) parts (row.map fun (k, t) => if k / 2 ^ sh = u then t else xwZero)

/-- The occupied units of a level in descending order. -/
def unitsOf (o : Order) (parts : List ChipPart) (row : List (Nat × Xw)) (sh : Nat) (l : List Entry) : List CutUnit :=
  (unitRuns sh l.length l).map fun ms =>
    ⟨ms, unitMass o parts row sh ((ms.headD ⟨0, 0, 0#32, 0#40⟩).key / 2 ^ sh)⟩

/-- a × b rounded to 22 bits: the top-p target (R162). -/
def xwTarget (sigma : Xw) (p : Word) : Xw :=
  match xwDec sigma, dec32 p with
  | .fin _ m e, .fin _ m2 e2 => xwRound ⟨false, m * m2, 1, e + e2⟩
  | _, _ => xwNan

/-- a ≥ b for nonnegative finite XW40 values. -/
def xwGe (a b : Xw) : Bool :=
  match xwDec a, xwDec b with
  | .fin _ m1 e1, .fin _ m2 e2 =>
    if m2 = 0 then true else if m1 = 0 then false
    else if e2 < e1 then true else if e1 < e2 then false else decide (m2 ≤ m1)
  | _, _ => false

/-- The boundaries of a cut: the count bound, the threshold key (none: min-p disabled), the target mass (none: top-p
disabled). -/
structure Bounds where
  cap : Nat
  kthr : Option Nat
  target : Option Xw
  deriving DecidableEq, Repr

/-- Does a mass reach the target? -/
def massReached (b : Bounds) (m : Xw) : Bool := match b.target with | some t => xwGe m t | none => false

/-- Does a key lie below the threshold key? -/
def belowThr (b : Bounds) (k : Nat) : Bool := match b.kthr with | some t => decide (k < t) | none => false

/-- How the boundary meets the cut unit of a level (R165). -/
inductive CutEdge where
  | lower | upper | inside
  deriving DecidableEq, Repr

/-- The outcome of a walk over one level: units kept wholly, the unit the boundary lies in, units left, running count and
mass. -/
structure WalkOut where
  kept : List CutUnit
  cutUnit : Option CutUnit
  left : List CutUnit
  cnt : Nat
  mass : Xw
  deriving DecidableEq, Repr

/-- How a crossing unit is cut: on its lower edge, above it where it lies wholly below the threshold, or inside. R165 puts the
boundary on the lower edge where either n_after is the count bound or m_after is the target; a unit whose m_after is the
target while its n_after lies beyond the count bound is walked at the next level, the count bound being met inside it (DESIGN
CHOICE, log entry 23). -/
def edgeOf (b : Bounds) (u : CutUnit) (nAfter : Nat) (mAfter : Xw) : CutEdge :=
  let anyBelow := u.members.any fun e => belowThr b e.key
  let allBelow := u.members.all fun e => belowThr b e.key
  let massOver := match b.target with | some t => xwGe mAfter t && !(mAfter == t) | none => false
  if allBelow then .upper
  else if !anyBelow && !massOver && decide (nAfter ≤ b.cap) then .lower
  else .inside

/-- The walk of R165 over the units of one level. -/
def walkUnits (b : Bounds) (cnt : Nat) (mass : Xw) : List CutUnit → WalkOut
  | [] => ⟨[], none, [], cnt, mass⟩
  | u :: rest =>
    let nAfter := cnt + u.members.length
    let mAfter := xwAdd mass u.mass
    let crosses := decide (b.cap ≤ nAfter) || u.members.any (fun e => belowThr b e.key) || massReached b mAfter
    if !crosses then
      let w := walkUnits b nAfter mAfter rest
      { w with kept := u :: w.kept }
    else
      match edgeOf b u nAfter mAfter with
      | .lower => ⟨[u], none, rest, nAfter, mAfter⟩
      | .upper => ⟨[], none, u :: rest, cnt, mass⟩
      | .inside => ⟨[], some u, rest, cnt, mass⟩

/-- The third level (R165): entries one at a time; the kept ones, the dropped ones, the running count and mass. -/
def walkEntries (b : Bounds) (cnt : Nat) (mass : Xw) : List Entry → List Entry × List Entry × Nat × Xw
  | [] => ([], [], cnt, mass)
  | e :: rest =>
    if belowThr b e.key then ([], e :: rest, cnt, mass)
    else
      let cnt' := cnt + 1
      let mass' := xwAdd mass e.term
      if decide (b.cap ≤ cnt') || massReached b mass' then ([e], rest, cnt', mass')
      else
        let (k, d, c, m) := walkEntries b cnt' mass' rest
        (e :: k, d, c, m)

/-- The outcome of CUT and COMPACT: candidates in selection order, the masses, and whether C_MAX truncated them. -/
structure CutOut where
  sel : List Entry
  kept : Xw
  left : Xw
  trunc : Bool
  deriving DecidableEq, Repr

/-- XW40 additions in order, from +0. -/
def xwFold (l : List Xw) : Xw := l.foldl xwAdd xwZero

/-- The cut sub-bucket under CUT_PRECISION (R166): kept entries, masses left out in order, running count and mass,
and whether inclusion was truncated at C_MAX. Where the cut length itself lies beyond C_MAX, the C_MAX boundary is resolved to
the entry whatever CUT_PRECISION says (R164). -/
def cutSubBucket (b : Bounds) (nk precision maxKey cnt : Nat) (mass : Xw) (u : CutUnit) :
    List Entry × List Xw × Nat × Xw × Bool :=
  let n := u.members.length
  let onlyCap := decide (candMax < nk) && decide (candMax ≤ cnt + n) &&
    !(u.members.any fun e => belowThr b e.key) && !(massReached b (xwAdd mass u.mass))
  let beyond := decide (candMax < nk) && decide (candMax < (walkEntries { b with cap := nk } cnt mass u.members).2.2.1)
  if precision = 0 || onlyCap || beyond then
    let (k, d, c, m) := walkEntries b cnt mass u.members
    (k, d.map fun e => e.term, c, m, false)
  else if precision = 2 && !(u.members.any fun e => e.key == maxKey) then ([], [u.mass], cnt, mass, false)
  else if cnt + n ≤ candMax then (u.members, [], cnt + n, xwAdd mass u.mass, false)
  else
    let k := u.members.take (candMax - cnt)
    (k, (u.members.drop (candMax - cnt)).map fun e => e.term, candMax, k.foldl (fun m e => xwAdd m e.term) mass, true)

/-- The cut of a row (R162 to R169). `sel` is the row's mass-bearing entries in selection order, `row` the key and term
of every logical index, `recs` the records of its pieces: the level-2 pass and the COMPACT pass meet the pieces whose top
bucket is at or above the bucket they concern (R158). -/
def cutRow (o : Order) (parts : List ChipPart) (recs : List PieceRec) (row : List (Nat × Xw)) (sel : List Entry)
    (p : CutParams) (kthr : Option Nat) (sigma : Xw) : CutOut :=
  let ne := sel.length
  let nk := if p.topK = 0 then ne else min p.topK ne
  let b : Bounds := ⟨min nk candMax, kthr, if p.topP == one32 then none else some (xwTarget sigma p.topP)⟩
  let nm := (sel.filter fun e => !belowThr b e.key).length
  let maxKey := (sel.headD ⟨0, 0, 0#32, 0#40⟩).key
  let w1 := walkUnits b 0 xwZero (unitsOf o parts row 22 sel)
  let ents (us : List CutUnit) : List Entry := us.flatMap fun u => u.members
  let (cands, leftParts, cnt, mass, cutT) :=
    match w1.cutUnit with
    | none => (ents w1.kept, [], w1.cnt, w1.mass, false)
    | some u =>
      let second := laterPass recs (bucketOf (u.members.headD ⟨0, 0, 0#32, 0#40⟩).key) u.members
      let w2 := walkUnits b w1.cnt w1.mass (unitsOf o parts row 12 second)
      match w2.cutUnit with
      | none => (ents w1.kept ++ ents w2.kept, w2.left.map CutUnit.mass, w2.cnt, w2.mass, false)
      | some v =>
        let (k, d, c, m, t) := cutSubBucket b nk p.precision maxKey w2.cnt w2.mass v
        (ents w1.kept ++ ents w2.kept ++ k, d ++ w2.left.map CutUnit.mass, c, m, t)
  let exactT := decide (cnt = candMax ∧ candMax < nk ∧ candMax < nm) && !massReached b mass
  { sel := laterPass recs (bucketOf (cands.getLastD ⟨0, 0, 0#32, 0#40⟩).key) cands
    kept := mass
    left := xwFold (leftParts ++ w1.left.map CutUnit.mass)
    trunc := cutT || exactT }

/-- Candidates in ascending logical index (R168). -/
def byIndex (l : List Entry) : List Entry := sortBy (fun a b => decide (a.idx < b.idx)) l

/-- D_CAND (R57, R387). -/
def candDigest (l : List Entry) : Dword := digestWords (l.map fun e => (e.idx, e.score))

/-! ## TOPK and THRESHOLD_COMPACT (R171 to R173) -/

/-- Entries of an operator row from its FP32-widened values. -/
def opEntries (ws : List Word) : List Entry :=
  (withIndex ws).map fun (i, w) => ⟨(orderKey w).toNat, i, w, xwZero⟩

/-- TOPK: the indices of the min(k, L) highest entries, descending key (R171). -/
def topkRow (o : Order) (ws : List Word) (k : Nat) : List Nat :=
  ((selectionOrder o (opEntries ws)).take k).map fun e => e.idx

/-- THRESHOLD_COMPACT: the kept indices in ascending order and the qualifying count (R172). -/
def thresholdRow (o : Order) (ws : List Word) (thr : Word) : List Nat × Nat :=
  let q := (opEntries ws).filter fun e => decide ((orderKey thr).toNat ≤ e.key)
  if q.length ≤ candMax then (q.map fun e => e.idx, q.length)
  else ((byIndex ((selectionOrder o q).take candMax)).map fun e => e.idx, q.length)

end Sys2Proof.Machine
end

