-- ==== Sys2Proof/Machine/Stats.lean ====
section
/-! DEFINITION. Row statistics and NORM (R133 to R135, R46, Table SFU-9). -/

namespace Sys2Proof.Machine

/-- What the row statistics give. -/
structure Stats where
  mean : Word
  var : Word
  msq : Word
  flags : Flags
  elemFlags : List Flags
  deriving DecidableEq, Repr

/-- An FP32 word as a decoded operand. -/
def opDec (w : Word) : Dec := dec32 w

/-- The differences d of R133: d[0] is +0.0, or x0 where x0 is a NaN; it raises no flag. -/
def shifted (md : Modes) (xs : List Word) : List (Word × Flags) :=
  match xs with
  | [] => []
  | x0 :: rest =>
    (if isNan32 x0 then x0 else 0#32, noFlags) :: rest.map fun x => fsub md x x0

/-- The mean and the variance of R133 from s1, s2, x0 and n. -/
def meanVar (md : Modes) (x0 nf s1 s2 : Word) : Word × Word × Flags :=
  let (a, f1) := fdiv md s1 nf
  let (mean, f2) := fadd md x0 a
  let (var, f3) :=
    if isNan32 s2 then (s2, noFlags)
    else if s2 == inf32 then (inf32, noFlags)
    else
      let (p, g1) := fmul md s1 s1
      let (q, g2) := fdiv md p nf
      let (d, g3) := fsub md s2 q
      let (v, g4) := fdiv md d nf
      (if flt v 0#32 then 0#32 else v, g1 ||| g2 ||| g3 ||| g4)
  (mean, var, f1 ||| f2 ||| f3)

/-- The row statistics with a summation rule of the caller's for each of s1, s2 and q (0, 1, 2): `shift` forms the mean and
variance, `square` the mean square. -/
def rowStats (md : Modes) (sum : Nat → List (Dec × Dec) → Word × Flags) (shift square : Bool) (xs : List Word) : Stats :=
  let x0 := xs.headD 0#32
  let nf := natToF32 xs.length
  let (mean, var, f1, ef) :=
    if shift then
      let d := shifted md xs
      let dw := d.map fun p => opDec p.1
      let (s1, g1) := sum 0 (dw.map fun w => (w, decOne))
      let (s2, g2) := sum 1 (dw.map fun w => (w, w))
      let (m, v, g3) := meanVar md x0 nf s1 s2
      (m, v, g1 ||| g2 ||| g3, d.map fun p => p.2)
    else (0#32, 0#32, noFlags, [])
  let (msq, f2) :=
    if square then
      let (q, g1) := sum 2 (xs.map fun x => (opDec x, opDec x))
      let (r, g2) := fdiv md q nf
      (r, g1 ||| g2)
    else (0#32, noFlags)
  ⟨mean, var, msq, f1 ||| f2, ef⟩

/-- NORM's vector before its re-encoding (R134): kind 1 RMS, kind 2 layer; flags of the tile engine and of the SFU. -/
def normVector (md : Modes) (t : Tier) (sum : List (Dec × Dec) → Word × Flags) (kind : Nat) (eps : Word)
    (weights : Option (List Word)) (xs : List Word) : List Word × Flags × Flags :=
  let st := rowStats md (fun _ => sum) (kind = 2) (kind = 1) xs
  let (v, f1) := fadd md (if kind = 2 then st.var else st.msq) eps
  let (r, fs) := builtin md t 0x06 v
  let one (x w : Word) : Word × Flags :=
    let (y, g1) :=
      if kind = 2 then
        let (c, a1) := fsub md x st.mean
        let (y, a2) := fmul md c r
        (y, a1 ||| a2)
      else fmul md x r
    match weights with
    | none => (y, g1)
    | some _ => let (z, g2) := fmul md y w; (z, g1 ||| g2)
  let ys := (withIndex xs).map fun (i, x) => one x (match weights with | some ws => nth one32 ws i | none => one32)
  let fl := ys.foldl (fun f y => f ||| y.2) (st.flags ||| f1 ||| st.elemFlags.foldl (· ||| ·) noFlags)
  (ys.map fun y => y.1, fl, fs)

end Sys2Proof.Machine
end

