-- ==== Sys2Proof/Machine/Row.lean ====
section
/-! DEFINITION. One row through stages 1 to 11 (02_step_pipeline.md, R40 to R58; IV-1 path R401). -/

namespace Sys2Proof.Machine

/-! ## What a row needs -/

/-- Flags and crushed blocks raised at one engine (R104): tile engine or SFU of a physical core. -/
structure FlagRec where
  sfu : Bool
  chip : Nat
  core : Nat
  flags : Flags
  crush : Nat
  deriving DecidableEq, Repr

/-- What a stream brings to a row, as it stands at acceptance (R45): modes, parameters, lists, the combined mask as a
bitmap (none: no mask). -/
structure StreamCfg where
  md : Modes
  compat : Bool
  softCap : Word
  temp : Word
  rep : Word
  pres : Word
  freq : Word
  bias : List (Nat × Word)
  counts : List (Nat × Nat)
  mask : Option Nat
  cut : CutParams
  deriving DecidableEq, Repr

/-- Where and how a row runs: tier, order, tile width, the partition, the partner chips of lock-step pairs, the home
chip and its lowest-numbered active core. -/
structure RunCfg where
  tier : Tier
  order : Order
  width : Nat
  parts : List ChipPart
  partners : List ChipPart
  homeChip : Nat
  homeCore : Nat
  deriving DecidableEq, Repr

/-- What the scoring matrix brings: format, block code, rows as stored, biases, logit scale, NORM (R252). -/
structure ScoreModel where
  fmt : Fmt
  block : Nat
  hidden : Nat
  rows : List (List Byte)
  bias : Option (List Word)
  scale : Word
  normKind : Nat
  normEps : Word
  normW : Option (List Word)
  deriving DecidableEq, Repr

/-- The input of a row: a hidden vector for a model, or a score row of a format. -/
inductive RowInput where
  | hidden (model : ScoreModel) (vec : CodedRow)
  | scores (fmt : Fmt) (codes : List Nat)
  deriving DecidableEq, Repr

/-- What stages 1 to 11 leave. `status` is 0, 0x10, 0x11 or 0x13; the row's NORM vector, scores and final scores are
kept for REPLAY and the digests, the records of its pieces for the later passes until RESULT (R156). -/
structure RowOut where
  status : Nat
  len : Nat
  normVec : CodedRow
  scores : List Word
  finals : List Word
  dNorm : Dword
  dScore : Dword
  dFinal : Dword
  dCand : Dword
  rowMax : Word
  sigma : Xw
  lnSum : Word
  clamped : Bool
  greedy : Bool
  scoreRow : Bool
  sel : List Entry
  kept : Xw
  left : Xw
  keptFrac : Word
  leftFrac : Word
  weights : List (Nat × Word)
  recs : List FlagRec
  pieces : List PieceRec
  deriving DecidableEq, Repr

/-- A record at the home chip's lowest-numbered active core (R104). -/
def homeRec (rc : RunCfg) (sfu : Bool) (f : Flags) : FlagRec := ⟨sfu, rc.homeChip, rc.homeCore, f, 0⟩

/-- Records at the core that holds a granule, and at its lock-step partner's. -/
def granRec (rc : RunCfg) (sfu : Bool) (g : Nat) (f : Flags) : List FlagRec :=
  if f = noFlags then [] else
  let (c, k) := ownerOf rc.parts g
  ⟨sfu, c, k, f, 0⟩ ::
    (if rc.partners.isEmpty then [] else let (c2, k2) := ownerOf rc.partners g; [⟨sfu, c2, k2, f, 0⟩])

/-! ## INGRESS and NORM (R42, R43, R46) -/

/-- The summation NORM uses: T in every order mode, or the IV-1 rule (R374, R401). -/
def normSum (sc : StreamCfg) (rc : RunCfg) (ps : List (Dec × Dec)) : Word × Flags :=
  if sc.compat then iv1Sum ps else sumProducts sc.md .fixed rc.width ps

/-- A coded vector as FP32 values after input flush, with flags (R133, R92). -/
def vecToF32 (md : Modes) (f : Fmt) (block : Nat) (r : CodedRow) : List Word × Flags :=
  (rowElems block r).foldr (fun (c, s) (ws, fl) =>
    let (w, f1) := elemToF32 md f s c
    (w :: ws, fl ||| f1)) ([], noFlags)

/-- The vector as it enters SCORE, with the records of NORM at the home chip. -/
def normStage (sc : StreamCfg) (rc : RunCfg) (m : ScoreModel) (v : CodedRow) : CodedRow × List FlagRec :=
  if m.normKind = 0 then (v, [])
  else
    let (xs, f0) := vecToF32 sc.md m.fmt m.block v
    let (ys, f1, fs) := normVector sc.md rc.tier (normSum sc rc) m.normKind m.normEps m.normW xs
    let (r, f2, crush) := encodeRow sc.md m.fmt m.block false (ys.map fun y => (dec32 y, none))
    (r, [⟨false, rc.homeChip, rc.homeCore, f0 ||| f1 ||| f2, crush⟩, homeRec rc true fs])

/-- D_NORM (Table PIPE-3, R387). -/
def normDigest (m : ScoreModel) (r : CodedRow) : Dword :=
  digestOf ((withIndex (rowElems m.block r)).map fun (i, (c, s)) =>
    (i, digestValue c (match s with | some x => x | none => 0) (fmtCode m.fmt)))

/-- The decoded operands of a coded vector with its input-flush flags (R89). -/
def operandVec (md : Modes) (f : Fmt) (block : Nat) (r : CodedRow) : List Dec × Flags :=
  (rowElems block r).foldr (fun (c, s) (ds, fl) =>
    let (d, f1) := operandElem md f s c
    let d' := match s with | some 255 => d | _ => alignNan f d
    (d' :: ds, fl ||| f1)) ([], noFlags)

/-! ## SCORE and EPILOGUE (R47 to R49) -/

/-- The dot product of a row of the matrix with the vector (R87, R88, R374, R401). -/
def dotRow (sc : StreamCfg) (rc : RunCfg) (o : Order) (vec row : List Dec) : Word × Flags :=
  let ps := vec.zip row
  if sc.compat then iv1Sum ps else sumProducts sc.md o rc.width ps

/-- The soft cap of R48: c × tanh(s / c); tile-engine flags, SFU flags. -/
def softCap (sc : StreamCfg) (t : Tier) (s : Word) : Word × Flags × Flags :=
  if flt 0#32 sc.softCap then
    let (q, f1) := fdiv sc.md s sc.softCap
    let (h, fs) := builtin sc.md t 0x08 q
    let (r, f2) := fmul sc.md sc.softCap h
    (r, f1 ||| f2, fs)
  else (s, noFlags, noFlags)

/-- EPILOGUE of a model's accumulator (R48). -/
def epilogueModel (sc : StreamCfg) (t : Tier) (m : ScoreModel) (i : Nat) (a : Word) : Word × Flags × Flags :=
  let b := match m.bias with | some l => nth 0#32 l i | none => 0#32
  let (x, f1) := fadd sc.md a b
  let (s, f2) := fmul sc.md x m.scale
  let (r, f3, fs) := softCap sc t s
  (nzOut sc.md r, f1 ||| f2 ||| f3, fs)

/-- INGRESS and EPILOGUE of a score-row element (R43, R49): an FP32 element is moved, its subnormals flushed; a narrower one
is converted, a signalling NaN raising INV and every NaN delivered by R97 or R98. -/
def epilogueScore (sc : StreamCfg) (t : Tier) (f : Fmt) (code : Nat) : Word × Flags × Flags :=
  let (w, f0) := if f = .fp32 then flushIn sc.md (BitVec.ofNat 32 code) else elemToF32 sc.md f none code
  let (r, f1, fs) := softCap sc t w
  (nzOut sc.md r, f0 ||| f1, fs)

/-! ## BIAS/PENALTY, MASK, TEMPERATURE, CLAMP (R50 to R53, R241, R242) -/

/-- The bias of an index (R241). -/
def applyBias (sc : StreamCfg) (i : Nat) (s : Word) : Word × Flags :=
  match sc.bias.find? fun p => p.1 == i with
  | none => (s, noFlags)
  | some (_, v) => if v == ninf32 then (ninf32, noFlags) else fadd sc.md s v

/-- The penalties of an index with a positive count (R242). -/
def applyPenalty (sc : StreamCfg) (i : Nat) (s : Word) : Word × Flags :=
  match sc.counts.find? fun p => p.1 == i with
  | none => (s, noFlags)
  | some (_, c) =>
    if c = 0 then (s, noFlags) else
    let (s1, f1) :=
      if sc.rep == one32 then (s, noFlags)
      else if flt 0#32 s then fdiv sc.md s sc.rep else fmul sc.md s sc.rep
    let (s2, f2) := if isZero32 sc.pres then (s1, noFlags) else fsub sc.md s1 sc.pres
    let (s3, f3) :=
      if isZero32 sc.freq then (s2, noFlags)
      else
        let (f, g1) := fmul sc.md sc.freq (natToF32 c)
        let (r, g2) := fsub sc.md s2 f
        (r, g1 ||| g2)
    (s3, f1 ||| f2 ||| f3)

/-- Is an index allowed (R51)? -/
def maskAllows (sc : StreamCfg) (i : Nat) : Bool :=
  match sc.mask with | none => true | some m => m.testBit i

/-- Is the stream on the greedy path (R52)? -/
def isGreedy (sc : StreamCfg) : Bool := isZero32 sc.temp

/-- An index from EPILOGUE's score to its final score: the value, tile-engine flags, and whether CLAMP changed it. -/
def finalScore (sc : StreamCfg) (i : Nat) (s : Word) : Word × Flags × Bool :=
  let (s1, f1) := applyBias sc i s
  let (s2, f2) := applyPenalty sc i s1
  let s3 := if maskAllows sc i then nzOut sc.md s2 else ninf32
  let (s4, f3) := if isGreedy sc then (s3, noFlags) else fdiv sc.md s3 sc.temp
  let (s5, ch) := clampScore (nzOut sc.md s4)
  (s5, f1 ||| f2 ||| f3, ch)

/-! ## A whole row -/

/-- One index after CLAMP. -/
structure Elem where
  score : Word
  final : Word
  te : Flags
  sfu : Flags
  clamped : Bool
  deriving DecidableEq, Repr

/-- Stages 4 to 8 after the score of an index is known. -/
def elemOf (sc : StreamCfg) (i : Nat) (s : Word) (te sfu : Flags) : Elem :=
  let (f, f1, ch) := finalScore sc i s
  ⟨s, f, te ||| f1, sfu, ch⟩

/-- Stages 3 to 8 of a model's row for every logical index. -/
def modelElems (sc : StreamCfg) (rc : RunCfg) (m : ScoreModel) (vec : List Dec) (vecFl : Flags) : List Elem :=
  (withIndex m.rows).map fun (i, bs) =>
    let (row, f1) := operandVec sc.md m.fmt m.block (parseRow m.fmt m.block m.hidden bs)
    let (a, f2) := dotRow sc rc (orderSub rc.order i) vec row
    let (s, f3, fs) := epilogueModel sc rc.tier m i a
    elemOf sc i s (vecFl ||| f1 ||| f2 ||| f3) fs

/-- Stages 1 and 4 to 8 of a score row. -/
def scoreElems (sc : StreamCfg) (rc : RunCfg) (f : Fmt) (codes : List Nat) : List Elem :=
  (withIndex codes).map fun (i, c) =>
    let (s, f1, fs) := epilogueScore sc rc.tier f c
    elemOf sc i s f1 fs

/-- The flags of the elements recorded at the cores of their granules; an allowed NaN raises INV there (R68, R104). -/
def elemRecs (rc : RunCfg) (es : List Elem) : List FlagRec :=
  (withIndex (chunks granuleSize es)).flatMap fun (g, l) =>
    let te := l.foldl (fun f e => f ||| e.te ||| (if isNan32 e.final then fINV else noFlags)) noFlags
    let sf := l.foldl (fun f e => f ||| e.sfu) noFlags
    granRec rc false g te ++ granRec rc true g sf

/-- The row's entries: every mass-bearing index (R154). -/
def rowEntries (t : Tier) (finals : List Word) : List Entry :=
  ((withIndex finals).map fun (i, w) => (⟨(orderKey w).toNat, i, w, expXw t w⟩ : Entry)).filter
    fun e => massBearing e.key

/-- The min-p threshold key with its home-side flags (R162): tile engine, SFU. -/
def minPKey (sc : StreamCfg) (t : Tier) (smax : Word) : Option Nat × Flags × Flags :=
  if isZero32 sc.cut.minP then (none, noFlags, noFlags)
  else
    let (l, fs) := builtin sc.md t 0x03 sc.cut.minP
    let (thr, f1) := fadd sc.md smax l
    (some (orderKey thr).toNat, f1, fs)

/-- An empty outcome to fill in. -/
def rowBlank : RowOut :=
  ⟨0, 0, ⟨[], []⟩, [], [], 0#64, 0#64, 0#64, 0#64, ninf32, xwZero, 0#32, false, false, false, [], xwZero, xwZero,
    0#32, 0#32, [], [], []⟩

/-- Stages 9 to 11 on the native path. -/
def cutStage (sc : StreamCfg) (rc : RunCfg) (out : RowOut) : RowOut :=
  let ents := rowEntries rc.tier out.finals
  let row := out.finals.map fun w =>
    let k := (orderKey w).toNat
    (k, if massBearing k then expXw rc.tier w else xwZero)
  let smax := rowMax out.finals
  let sigma := xwRowSum (orderSub rc.order 0) rc.parts (row.map fun p => p.2)
  let (kthr, ft, fs) := minPKey sc rc.tier smax
  let sel := selectionOrder (orderSub rc.order 1) ents
  let c := cutRow (orderSub rc.order 2) rc.parts out.pieces row sel sc.cut kthr sigma
  let (kf, f1) := xwQuotF32 sc.md c.kept sigma
  let (lf, f2) := xwQuotF32 sc.md c.left sigma
  { out with
    status := if c.trunc then 0x13 else 0
    rowMax := smax
    sigma := sigma
    lnSum := lnXw rc.tier sigma
    sel := c.sel
    kept := c.kept
    left := c.left
    keptFrac := kf
    leftFrac := lf
    dCand := candDigest (byIndex c.sel)
    recs := out.recs ++ [homeRec rc false (ft ||| f1 ||| f2), homeRec rc true fs] }

/-! ## The IV-1 path (R401) -/

/-- The IV-1 candidates: the first TOP_K of the selection order, stopped where the accumulated weight reaches
fp32(TOP_P × W), with the accumulated weight and the flags of its additions. -/
def iv1Walk (target : Word) : Word → List (Entry × Word) → List (Entry × Word) × Word × Flags
  | c, [] => ([], c, noFlags)
  | c, (e, w) :: rest =>
    let (c', f) := fadd iv1Modes c w
    if fle target c' then ([(e, w)], c', f)
    else
      let (k, c2, f2) := iv1Walk target c' rest
      ((e, w) :: k, c2, f ||| f2)

/-- Sequential FP32 sum of weights from +0. -/
def seqSum (ws : List Word) : Word × Flags :=
  ws.foldl (fun (acc, fl) w => let (r, f) := fadd iv1Modes acc w; (r, fl ||| f)) (0#32, noFlags)

/-- The IV-1 weights of a row: fp32 w = iv1_exp(fp32(s − m)), with flags of the tile engine and of the SFU. -/
def iv1Weights (m : Word) (finals : List Word) : List (Word × Flags × Flags) :=
  finals.map fun s =>
    if s == ninf32 then (0#32, noFlags, noFlags)
    else
      let (d, f) := fsub iv1Modes s m
      let (w, fs) := builtin iv1Modes .iv1 0x01 d
      (w, f, fs)

/-- W: granule sums, then their sequential sum (R401), with the flags of each granule's sum and of the sum of them. -/
def iv1Total (ws : List Word) : Word × List Flags × Flags :=
  let gs := (chunks granuleSize ws).map seqSum
  let (t, f) := seqSum (gs.map fun g => g.1)
  (t, gs.map fun g => g.2, f)

/-- The flags of the granule sums of w at the cores that hold the granules (R104). -/
def iv1SumRecs (rc : RunCfg) (fl : List Flags) : List FlagRec :=
  (withIndex fl).flatMap fun (g, f) => granRec rc false g f

/-- Stages 9 to 11 under IV1_COMPAT. -/
def cutStageIv1 (sc : StreamCfg) (rc : RunCfg) (out : RowOut) : RowOut :=
  let m := rowMax out.finals
  let wf := iv1Weights m out.finals
  let ws := wf.map fun x => x.1
  let (W, fg, fw) := iv1Total ws
  let ents := (rowEntries .iv1 out.finals)
  let sel := (selectionOrder .fixed ents).take sc.cut.topK
  let (target, f1) := fmul iv1Modes sc.cut.topP W
  let (kept, c, f5) := iv1Walk target 0#32 (sel.map fun e => (e, nth 0#32 ws e.idx))
  let (lf0, f2) := fsub iv1Modes W c
  let left := if flt lf0 0#32 then 0#32 else lf0
  let (kf, f3) := fdiv iv1Modes c W
  let (lf, f4) := fdiv iv1Modes left W
  let (lnW, fl) := builtin iv1Modes .iv1 0x03 W
  let recs := (withIndex (chunks granuleSize wf)).flatMap fun (g, l) =>
    granRec rc false g (l.foldl (fun f x => f ||| x.2.1) noFlags) ++
      granRec rc true g (l.foldl (fun f x => f ||| x.2.2) noFlags)
  { out with
    status := 0
    rowMax := m
    sigma := xwOfF32 W
    lnSum := lnW
    sel := kept.map fun x => x.1
    kept := xwOfF32 c
    left := xwOfF32 left
    keptFrac := kf
    leftFrac := lf
    dCand := candDigest (byIndex (kept.map fun x => x.1))
    weights := kept.map fun x => (x.1.idx, x.2)
    recs := out.recs ++ recs ++ iv1SumRecs rc fg ++
      [homeRec rc false (fw ||| f1 ||| f2 ||| f3 ||| f4 ||| f5), homeRec rc true fl] }

/-- The pair check word of a pass (R391): digest_mix over every final score it produces, by logical index, and over the words
of the data it sends off the chip, in send order. -/
def pairCheckWord (finals : List (Nat × Word)) (sent : List Dword) : Dword :=
  digestWords finals + digestOf ((withIndex sent).map fun (k, w) => (0x80000000 + k, w))

/-- Stages 1 to 11 of one row (R40): ROW_NAN and ROW_EMPTY stop it before CUT (R68). -/
def runRow (sc : StreamCfg) (rc : RunCfg) (inp : RowInput) : RowOut :=
  let (es, pre) :=
    match inp with
    | .hidden m v =>
      let (nv, nr) := normStage sc rc m v
      let (vec, vf) := operandVec sc.md m.fmt m.block nv
      (modelElems sc rc m vec vf, { rowBlank with normVec := nv, dNorm := normDigest m nv, recs := nr })
    | .scores f codes => (scoreElems sc rc f codes, { rowBlank with scoreRow := true })
  let finals := es.map fun e => e.final
  let scores := es.map fun e => e.score
  let anyNan := finals.any isNan32
  let allNeg := finals.all fun w => w == ninf32
  let out : RowOut :=
    { pre with
      len := es.length
      scores := scores
      finals := finals
      dScore := digestWords (withIndex scores)
      dFinal := digestWords (withIndex finals)
      clamped := es.any fun e => e.clamped
      greedy := isGreedy sc
      recs := pre.recs ++ elemRecs rc es
      pieces := pieceRecs rc.parts ((withIndex es).map fun (i, e) =>
        (i, e.score, e.final, if massBearing (orderKey e.final).toNat then expXw rc.tier e.final else xwZero)) }
  if anyNan then { out with status := 0x11, rowMax := rowMax finals, sigma := xwNan }
  else if allNeg then { out with status := 0x10 }
  else if sc.compat then cutStageIv1 sc rc out
  else cutStage sc rc out

/-- The log-probability of a final score (R151, R401), with its tile-engine flags at the home chip. -/
def rowLogProb (sc : StreamCfg) (out : RowOut) (s : Word) : Word × Flags :=
  if sc.compat then
    let (d, f1) := fsub iv1Modes s out.rowMax
    let (r, f2) := fsub iv1Modes d out.lnSum
    (r, f1 ||| f2)
  else logProbOf sc.md s out.lnSum

end Sys2Proof.Machine
end

