-- ==== Sys2Proof/Machine/Draw.lean ====
section
/-! DEFINITION. Stage 12 and RESULT: draws, VERIFY, LOOKAHEAD, HOST_DRAW, and the bytes of result entries
(02_step_pipeline.md R59 to R63, 08_draw_and_verify.md). -/

namespace Sys2Proof.Machine

/-! ## The result entry (Table PIPE-4) -/

/-- The fields of a result entry. -/
structure EntryVals where
  token : Nat
  logprob : Word
  keptFrac : Word
  leftFrac : Word
  kept : Xw
  left : Xw
  rowStatus : Nat
  alts : List (Nat × Word)
  sid : Nat
  flags : Nat
  step : Nat
  candCount : Nat
  dNorm : Dword
  dScore : Dword
  dFinal : Dword
  dCand : Dword
  deriving DecidableEq, Repr

/-- No token (R63). -/
def noToken : Nat := 0xFFFFFFFF

/-- The eight ALT slots: those written, then unused ones (R62). -/
def altBytes (alts : List (Nat × Word)) : List Byte :=
  ((List.range 8).map fun k =>
    match alts[k]? with
    | some (t, lp) => leBytes 4 t ++ leBytes 4 lp.toNat
    | none => leBytes 4 noToken ++ leBytes 4 0).flatten

/-- The 160 bytes of a result entry. -/
def entryBytes (v : EntryVals) : List Byte :=
  leBytes 4 v.token ++ leBytes 4 v.logprob.toNat ++ leBytes 4 v.keptFrac.toNat ++ leBytes 4 v.leftFrac.toNat ++
  leBytes 5 v.kept.toNat ++ leBytes 5 v.left.toNat ++ leBytes 1 v.rowStatus ++ leBytes 1 v.alts.length ++
  leBytes 2 v.sid ++ leBytes 2 v.flags ++ leBytes 6 v.step ++ leBytes 2 0 ++ leBytes 4 v.candCount ++ leBytes 4 0 ++
  leBytes 8 v.dNorm.toNat ++ leBytes 8 v.dScore.toNat ++ leBytes 8 v.dFinal.toNat ++ leBytes 8 v.dCand.toNat ++
  altBytes v.alts ++ leBytes 16 0

/-- The 8-byte words of a byte string, the last one filled with zeros. -/
def wordsOf (bs : List Byte) : List Dword :=
  (chunks 8 bs).map fun w => BitVec.ofNat 64 (leNat w)

/-- The result check word of a stream (R392): digest_mix over the words of the result entry with its extension, and over the
words of the staged commit. -/
def resultCheckWord (entry : List Byte) (commit : List Dword) : Dword :=
  digestOf (withIndex (wordsOf entry)) + digestOf ((withIndex commit).map fun (k, w) => (0x80000000 + k, w))

/-- RESULT_FLAGS of a row that ran (Table PIPE-5); `extra` holds BG_INTRUSION and LOCKSTEP_DIVERGED. -/
def resultFlags (out : RowOut) (greedy altShort candAbsent : Bool) (extra : Nat) : Nat :=
  b2n out.clamped + 2 * b2n greedy + 4 * b2n out.scoreRow + extra + 32 * b2n altShort + 64 * b2n candAbsent

/-- What stage 12 of a stream needs beside its rows: id, step counter at acceptance, seed, modes, alternatives asked
for, and the flag bits of RESULT_FLAGS the run itself sets. -/
structure DrawCtx where
  sid : Nat
  step : Nat
  seed : Qword
  cfg : StreamCfg
  altReq : Nat
  extra : Nat
  deriving DecidableEq, Repr

/-- What stage 12 and RESULT leave for a stream: the entry with its extension, the bytes of the further area, the row
status, and the staged commit (tokens, advance of the counter, Ring state). -/
structure StreamResult where
  entry : List Byte
  aux : List Byte
  status : Nat
  tokens : List Nat
  advance : Nat
  ring : Option Qword
  recs : List FlagRec
  clamped : Bool
  deriving DecidableEq, Repr

/-- The entry of a row that carries no token (R63). -/
def noTokenVals (d : DrawCtx) (out : RowOut) (status : Nat) : EntryVals :=
  { token := noToken, logprob := 0#32, keptFrac := 0#32, leftFrac := 0#32, kept := xwZero, left := xwZero
    rowStatus := status, alts := [], sid := d.sid
    flags := resultFlags out (isGreedy d.cfg) false true d.extra
    step := d.step, candCount := 0, dNorm := out.dNorm, dScore := out.dScore, dFinal := out.dFinal, dCand := 0#64 }

/-- The entry of a stream refused at acceptance (R66): no stage runs. -/
def refusedVals (sid step : Nat) (scoreRow : Bool) : EntryVals :=
  { token := noToken, logprob := 0#32, keptFrac := 0#32, leftFrac := 0#32, kept := xwZero, left := xwZero
    rowStatus := 0x20, alts := [], sid := sid, flags := 64 + 4 * b2n scoreRow, step := step, candCount := 0
    dNorm := 0#64, dScore := 0#64, dFinal := 0#64, dCand := 0#64 }

/-- Does a row carry a token (its status is OK or CAND_TRUNC)? -/
def rowHasToken (out : RowOut) : Bool := out.status == 0 || out.status == 0x13

/-- The alternatives: candidates other than the token, by descending final score, ties to the lower index (R62). -/
def altsOf (d : DrawCtx) (out : RowOut) (token : Nat) : List (Nat × Word) × Flags :=
  let l := ((sortBy entryBefore (out.sel.filter fun e => e.idx != token)).take d.altReq).map fun e =>
    (e.idx, rowLogProb d.cfg out e.score)
  (l.map fun x => (x.1, x.2.1), l.foldl (fun f x => f ||| x.2.2) noFlags)

/-- The final score of a candidate. -/
def candScore (out : RowOut) (token : Nat) : Word :=
  match out.sel.find? fun e => e.idx == token with
  | some e => e.score
  | none => ninf32

/-- The entry of a row and its token, with the home-side flags. -/
def tokenVals (d : DrawCtx) (out : RowOut) (token : Nat) : EntryVals × Flags :=
  let (lp, f1) := rowLogProb d.cfg out (candScore out token)
  let (alts, f2) := altsOf d out token
  ({ token := token, logprob := lp, keptFrac := out.keptFrac, leftFrac := out.leftFrac, kept := out.kept
     left := out.left, rowStatus := out.status, alts := alts, sid := d.sid
     flags := resultFlags out (isGreedy d.cfg) (decide (alts.length < d.altReq)) false d.extra
     step := d.step, candCount := out.sel.length, dNorm := out.dNorm, dScore := out.dScore
     dFinal := out.dFinal, dCand := out.dCand }, f1 ||| f2)

/-! ## The exponential race (R203 to R206) -/

/-- A runner of the race: its index and its exact key. -/
structure Runner where
  idx : Nat
  key : Dy
  deriving DecidableEq, Repr

/-- The runner with the largest key; ties to the lower index in FIXED order, to a free choice in FREE order. -/
def raceWinner (o : Order) (l : List Runner) : Nat :=
  let best := l.foldl (fun (b : Option Runner) r =>
    match b with
    | none => some r
    | some x => if dyLt x.key r.key then some r else b) none
  match best with
  | none => noToken
  | some b =>
    let tied := (l.filter fun r => !dyLt r.key b.key).map fun r => r.idx
    match o with
    | .fixed => tied.foldl min b.idx
    | .free p => nth b.idx tied (freeBelow p tied.length)

/-- One runner: s − ln E with the word of its counter block (R203, R213), and the SFU flags of its key. -/
def runnerOf (md : Modes) (t : Tier) (seed : Qword) (sid step draft purpose : Nat) (idx : Nat) (s : Word) :
    Runner × Flags :=
  let E := exponential32 t (sporeWord seed (sporeBlock sid step draft purpose idx 0))
  let (l, f) := builtin md t 0x03 E
  (⟨idx, dySub (val32 s) (val32 l)⟩, f ||| fINX)

/-- The race over weighted candidates (index, ln weight): the token and its records, at the core of each index. -/
def race (o : Order) (rc : RunCfg) (md : Modes) (seed : Qword) (sid step draft purpose : Nat)
    (cands : List (Nat × Word)) : Nat × List FlagRec :=
  let rs := cands.map fun (i, s) => runnerOf md rc.tier seed sid step draft purpose i s
  let recs := (cands.zip rs).flatMap fun ((i, _), (_, f)) => granRec rc true (i / granuleSize) f
  (raceWinner o (rs.map fun r => r.1), recs)

/-- The greedy token: the head of the selection order (R206). -/
def greedyToken (out : RowOut) : Nat := match out.sel with | e :: _ => e.idx | [] => noToken

/-- Candidates with their final scores, in ascending index. -/
def candScores (out : RowOut) : List (Nat × Word) := (byIndex out.sel).map fun e => (e.idx, e.score)

/-! ## The IV-1 inverse-CDF walk (R209, R194) -/

/-- The walk over accumulated weights. -/
def cdfWalk (target : Word) (last : Nat) : Word → List (Nat × Word) → Nat
  | _, [] => last
  | c, (i, w) :: rest =>
    let c' := (fadd iv1Modes c w).1
    if flt target c' then i else cdfWalk target last c' rest

/-- The drawn token for a Ring word, with the flags of its arithmetic. -/
def iv1Draw (word : Word) (cands : List (Nat × Word)) : Nat × Flags :=
  let (total, f1) := seqSum (cands.map fun c => c.2)
  let (target, f2) := fmul iv1Modes (uniform32 word) total
  (cdfWalk target ((cands.getLast?.map fun c => c.1).getD noToken) 0#32 cands, f1 ||| f2)

/-! ## STEP and STEP_SCORES -/

/-- Stage 12 and RESULT of a STEP or STEP_SCORES row; `ring` is the Ring state an IV1_COMPAT draw starts from. -/
def stepResult (d : DrawCtx) (rc : RunCfg) (out : RowOut) (ring : Qword) : StreamResult :=
  if !rowHasToken out then
    ⟨entryBytes (noTokenVals d out out.status), [], out.status, [], 0, none, out.recs, out.clamped⟩
  else
    let (token, recs, ring') :=
      if isGreedy d.cfg then (greedyToken out, [], none)
      else if d.cfg.compat then
        let (w, r') := ringDraw (ringMask 0) ring
        let (t, f) := iv1Draw w (sortBy (fun a b => decide (a.1 < b.1)) out.weights)
        (t, [homeRec rc false f], some r')
      else
        let (t, rs) := race (orderSub rc.order 3) rc d.cfg.md d.seed d.sid d.step 0 0 (candScores out)
        (t, rs, none)
    let (v, f) := tokenVals d out token
    ⟨entryBytes v, [], out.status, [token], 1, ring', out.recs ++ recs ++ [homeRec rc false f], out.clamped⟩

/-! ## HOST_DRAW (R207, R208) -/

/-- A candidate record (Table DRAW-3) with its home-side flags. -/
def candRecord (d : DrawCtx) (out : RowOut) (e : Entry) : List Byte × Flags :=
  let (p, f1) := xwQuotF32 d.cfg.md e.term out.kept
  let (lp, f2) := rowLogProb d.cfg out e.score
  (leBytes 4 e.idx ++ leBytes 4 e.score.toNat ++ leBytes 4 p.toNat ++ leBytes 4 lp.toNat, f1 ||| f2)

/-- The 32-byte extension of Table DRAW-2. -/
def hostDrawExt (written : Nat) (rowMax : Word) (off : Nat) (short : Bool) : List Byte :=
  leBytes 4 written ++ leBytes 4 rowMax.toNat ++ leBytes 8 off ++ leBytes 1 (b2n short) ++ leBytes 15 0

/-- Stage 12 and RESULT of a HOST_DRAW row, the k-th stream of the command. -/
def hostDrawResult (d : DrawCtx) (rc : RunCfg) (out : RowOut) (k cap : Nat) : StreamResult :=
  let off := k * cap * 16
  if !rowHasToken out then
    ⟨entryBytes (noTokenVals d out out.status) ++ hostDrawExt 0 out.rowMax off false, [], out.status, [], 0, none,
      out.recs, out.clamped⟩
  else
    let shown := byIndex (out.sel.take cap)
    let recs := shown.map (candRecord d out)
    let (v, f) := tokenVals d out (greedyToken out)
    let fl := recs.foldl (fun f r => f ||| r.2) f
    ⟨entryBytes v ++ hostDrawExt shown.length out.rowMax off (decide (cap < out.sel.length)),
      (recs.map fun r => r.1).flatten, out.status, [], 1, none, out.recs ++ [homeRec rc false fl], out.clamped⟩

/-! ## VERIFY (R210 to R218) -/

/-- A draft: token, its q, and the whole list of q. -/
structure Draft where
  token : Nat
  q : Word
  qlist : List (Nat × Word)
  deriving DecidableEq, Repr

/-- A POS record (Table DRAW-6). -/
structure PosRec where
  token : Nat
  logprob : Word
  pDraft : Word
  outcome : Nat
  status : Nat
  deriving DecidableEq, Repr

/-- A POS record's bytes. -/
def posBytes (p : PosRec) : List Byte :=
  leBytes 4 p.token ++ leBytes 4 p.logprob.toNat ++ leBytes 4 p.pDraft.toNat ++ leBytes 1 p.outcome ++
    leBytes 1 p.status ++ leBytes 2 0

/-- A position that is not visited. -/
def posUnvisited : PosRec := ⟨noToken, 0#32, 0#32, 5, 0⟩

/-- The candidate of an index, if it is one. -/
def candOf (out : RowOut) (i : Nat) : Option Entry := out.sel.find? fun e => e.idx == i

/-- a ≤ b for nonnegative dyadics, by magnitude first. -/
def dyLePos (a b : Dy) : Bool :=
  if a.m = 0 then true else if b.m = 0 then false
  else
    let ea := floorLog2 a.m.natAbs 1 a.e
    let eb := floorLog2 b.m.natAbs 1 b.e
    if ea < eb then true else if eb < ea then false else dyLe a b

/-- Is the draft accepted (R214)? Exact values throughout. -/
def draftAccepted (word : Word) (q : Word) (kept : Xw) (term : Xw) : Bool :=
  dyLePos (dyMul (dyMul (uniformDy word) (val32 q)) (decDy (xwDec kept))) (decDy (xwDec term))

/-- The residual race of R215: the token, whether it fell back, records. -/
def residualDraw (d : DrawCtx) (rc : RunCfg) (out : RowOut) (j : Nat) (dr : Draft) : Nat × Bool × List FlagRec :=
  let md := d.cfg.md
  let parts : List (Nat × Word × Flags) := (byIndex out.sel).map fun e =>
    let (p, f1) := xwQuotF32 md e.term out.kept
    let q := match dr.qlist.find? fun x => x.1 == e.idx with | some x => x.2 | none => 0#32
    let (r, f2) := fsub md p q
    (e.idx, r, f1 ||| f2)
  let fl := parts.foldl (fun f x => f ||| x.2.2) noFlags
  let pos := parts.filter fun x => flt 0#32 x.2.1
  if pos.isEmpty then
    let (t, rs) := race (orderSub (orderSub rc.order 4) j) rc md d.seed d.sid (d.step + j) j 2 (candScores out)
    (t, true, homeRec rc false fl :: rs)
  else
    let lns : List (Nat × Word × Flags) := pos.map fun x => (x.1, builtin md rc.tier 0x03 x.2.1)
    let fs := lns.foldl (fun f x => f ||| x.2.2) noFlags
    let (t, rs) := race (orderSub (orderSub rc.order 4) j) rc md d.seed d.sid (d.step + j) j 2
      (lns.map fun x => (x.1, x.2.1))
    (t, false, homeRec rc false fl :: homeRec rc true fs :: rs)

/-- The walk's outcome. -/
structure WalkRes where
  recs : List PosRec
  accepted : Nat
  tokens : List Nat
  stop : Nat
  fallback : Bool
  truncSeen : Bool
  flags : List FlagRec
  deriving DecidableEq, Repr

/-- The walk over positions j, j + 1, … (R214 to R217): rows of the remaining positions and their drafts (the last
position has none). The POS record of a position that ends with OUTCOME 6 carries no token, LOGPROB 0 and P_DRAFT 0 (DESIGN
CHOICE: the rule gives its OUTCOME and row status alone, log entry 99). -/
def verifyWalk (d : DrawCtx) (rc : RunCfg) : Nat → List RowOut → List Draft → WalkRes
  | j, [], _ => ⟨[], 0, [], j, false, false, []⟩
  | j, out :: rest, drafts =>
    let tr := out.status == 0x13
    if !rowHasToken out then ⟨[⟨noToken, 0#32, 0#32, 6, out.status⟩], 0, [], j, false, false, []⟩
    else
      match drafts with
      | [] =>
        let (t, rs) :=
          if isGreedy d.cfg then (greedyToken out, [])
          else race (orderSub (orderSub rc.order 3) j) rc d.cfg.md d.seed d.sid (d.step + j) j 0 (candScores out)
        let (lp, f) := rowLogProb d.cfg out (candScore out t)
        ⟨[⟨t, lp, 0#32, 2, out.status⟩], 0, [t], j, false, tr, homeRec rc false f :: rs⟩
      | dr :: drs =>
        let term := match candOf out dr.token with | some e => e.term | none => xwZero
        let (pd, f1) := if term == xwZero then (0#32, noFlags) else xwQuotF32 d.cfg.md term out.kept
        let word := sporeWord d.seed (sporeBlock d.sid (d.step + j) j 1 dr.token 0)
        let g := greedyToken out
        let ok := if isGreedy d.cfg then decide (g = dr.token)
                  else term != xwZero && draftAccepted word dr.q out.kept term
        if ok then
          let (lp, f2) := rowLogProb d.cfg out (candScore out dr.token)
          let w := verifyWalk d rc (j + 1) rest drs
          { w with
            recs := ⟨dr.token, lp, pd, if isGreedy d.cfg then 3 else 0, out.status⟩ :: w.recs
            accepted := w.accepted + 1
            tokens := dr.token :: w.tokens
            truncSeen := w.truncSeen || tr
            flags := homeRec rc false (f1 ||| f2) :: w.flags }
        else
          let (t, fb, rs) := if isGreedy d.cfg then (g, false, []) else residualDraw d rc out j dr
          let (lp, f2) := rowLogProb d.cfg out (candScore out t)
          ⟨[⟨t, lp, pd, if isGreedy d.cfg then 4 else 1, out.status⟩], 0, [t], j, fb, tr,
            homeRec rc false (f1 ||| f2) :: rs⟩

/-- The VERIFY extension (Table DRAW-6). -/
def verifyExt (n accepted emitted stop : Nat) (fallback : Bool) (recs : List PosRec) : List Byte :=
  leBytes 1 n ++ leBytes 1 accepted ++ leBytes 1 emitted ++ leBytes 1 stop ++ leBytes 1 (b2n fallback) ++
  leBytes 11 0 ++
  ((List.range 16).map fun k => posBytes (nth posUnvisited recs k)).flatten

/-- Stage 12 and RESULT of a VERIFY stream: rows of positions 0 to n. -/
def verifyResult (d : DrawCtx) (rc : RunCfg) (outs : List RowOut) (drafts : List Draft) : StreamResult :=
  let w := verifyWalk d rc 0 outs drafts
  let stopOut := nth rowBlank outs w.stop
  let recs := (outs.flatMap fun o => o.recs) ++ w.flags
  let n := drafts.length
  if !rowHasToken stopOut then
    ⟨entryBytes (noTokenVals d stopOut stopOut.status) ++ verifyExt n w.accepted 0 w.stop w.fallback w.recs, [],
      stopOut.status, [], 0, none, recs, outs.any fun o => o.clamped⟩
  else
    let last := w.tokens.getLast?.getD noToken
    let (v, f) := tokenVals d stopOut last
    let st := if w.truncSeen then 0x13 else 0
    ⟨entryBytes { v with rowStatus := st } ++
        verifyExt n w.accepted w.tokens.length w.stop w.fallback w.recs, [], st, w.tokens, w.tokens.length, none,
      recs ++ [homeRec rc false f], outs.any fun o => o.clamped⟩

/-- The VERIFY entry of a stream refused at acceptance (R66, R217). -/
def verifyRefused (sid step n : Nat) : List Byte := entryBytes (refusedVals sid step false) ++ verifyExt n 0 0 0 false []

/-! ## LOOKAHEAD (R219 to R223) -/

/-- The rotated vector of a head at a position (R220): values, tile-engine flags, SFU flags. -/
def rotate (md : Modes) (t : Tier) (pos : Nat) : List Word → List Word → List Word × Flags × Flags
  | a0 :: a1 :: xs, fr :: frs =>
    let (a, f0) := fmul md (natToF32 pos) fr
    let (c, g1) := builtin md t 0x0D a
    let (s, g2) := builtin md t 0x0C a
    let (t0, f1) := fmul md a1 s
    let (t1, f2) := fmul md a1 c
    let (y0, f3) := ffma md a0 c (fneg t0)
    let (y1, f4) := ffma md a0 s t1
    let (ys, f, g) := rotate md t pos xs frs
    (y0 :: y1 :: ys, f0 ||| f1 ||| f2 ||| f3 ||| f4 ||| f, g1 ||| g2 ||| g)
  | _, _ => ([], noFlags, noFlags)

/-- A head's guess at the hidden state: rotation, re-encoding, its map, re-encoding (R220, R221), with the records at
the home chip. -/
def headVector (sc : StreamCfg) (rc : RunCfg) (m : ScoreModel) (rope : List Word) (map : List (List Byte))
    (nv : CodedRow) (pos : Nat) : CodedRow × List FlagRec :=
  let (x, f0) := vecToF32 sc.md m.fmt m.block nv
  let (y, f1, fs) := rotate sc.md rc.tier pos x rope
  let (r1, f2, c1) := encodeRow sc.md m.fmt m.block false (y.map fun w => (dec32 w, none))
  let (v, f3) := operandVec sc.md m.fmt m.block r1
  let prods := map.map fun bs =>
    let (row, g1) := operandVec sc.md m.fmt m.block (parseRow m.fmt m.block m.hidden bs)
    let (a, g2) := sumProducts sc.md .fixed rc.width (v.zip row)
    (a, g1 ||| g2)
  let f4 := prods.foldl (fun f p => f ||| p.2) noFlags
  let (r2, f5, c2) := encodeRow sc.md m.fmt m.block false (prods.map fun p => (dec32 p.1, none))
  (r2, [⟨false, rc.homeChip, rc.homeCore, f0 ||| f1 ||| f2 ||| f3 ||| f4 ||| f5, c1 + c2⟩, homeRec rc true fs])

/-- A head's record and its q-list. -/
structure HeadOut where
  token : Nat
  q : Word
  logprob : Word
  status : Nat
  qlist : List (Nat × Word)
  flags : Nat
  recs : List FlagRec
  clamped : Bool
  deriving DecidableEq, Repr

/-- The q-list of a head (R222): at most 64 candidates in ascending index, the drafted one among them. -/
def headQList (md : Modes) (out : RowOut) (token : Nat) : List (Nat × Word) × Bool × Flags :=
  let first := out.sel.take 64
  let inList := first.any fun e => e.idx == token
  let pick :=
    if out.sel.length ≤ 64 || inList then first
    else first.take 63 ++ (out.sel.find? fun e => e.idx == token).toList
  let l := (byIndex pick).map fun e => (e.idx, xwQuotF32 md e.term out.kept)
  (l.map fun x => (x.1, x.2.1), decide (64 < out.sel.length) && !inList, l.foldl (fun f x => f ||| x.2.2) noFlags)

/-- A head that did not run: HEAD_STATUS 0xFF (R223); its other fields are those of no token (DESIGN CHOICE, log entry 99). -/
def headAbsent : HeadOut := ⟨noToken, 0#32, 0#32, 0xFF, [], 0, [], false⟩

/-- Stages SCORE to COMPACT and the draw of a head h (R221, R222). -/
def headRun (d : DrawCtx) (rc : RunCfg) (m : ScoreModel) (h : Nat) (v : CodedRow) : HeadOut :=
  let rc := { rc with order := orderSub rc.order (100 + h) }
  let out := runRow d.cfg rc (.hidden { m with normKind := 0 } v)
  if !rowHasToken out then ⟨noToken, 0#32, 0#32, out.status, [], 2 * b2n (isGreedy d.cfg), out.recs, out.clamped⟩
  else
    let (t, rs) :=
      if isGreedy d.cfg then (greedyToken out, [])
      else race (orderSub rc.order 3) rc d.cfg.md d.seed d.sid (d.step + h) h 5 (candScores out)
    let term := match candOf out t with | some e => e.term | none => xwZero
    let (q, f1) := if isGreedy d.cfg then (one32, noFlags) else xwQuotF32 d.cfg.md term out.kept
    let (lp, f2) := rowLogProb d.cfg out (candScore out t)
    let (ql, tr, f3) := headQList d.cfg.md out t
    ⟨t, q, lp, out.status, ql, b2n tr + 2 * b2n (isGreedy d.cfg),
      out.recs ++ rs ++ [homeRec rc false (f1 ||| f2 ||| f3)], out.clamped⟩

/-- A HEAD record (Table DRAW-7). -/
def headBytes (h : HeadOut) : List Byte :=
  leBytes 4 h.token ++ leBytes 4 h.q.toNat ++ leBytes 4 h.logprob.toNat ++ leBytes 1 h.status ++
    leBytes 1 h.qlist.length ++ leBytes 1 h.flags ++ leBytes 1 0

/-- A q-list's pairs (R211). -/
def qlistBytes (l : List (Nat × Word)) : List Byte := l.flatMap fun (i, q) => leBytes 4 i ++ leBytes 4 q.toNat

/-- The LOOKAHEAD extension. -/
def lookaheadExt (hs : List HeadOut) : List Byte :=
  leBytes 1 hs.length ++ leBytes 15 0 ++
    ((List.range 4).map fun k => headBytes (nth headAbsent hs k)).flatten

/-- Stage 12 and RESULT of a LOOKAHEAD stream: the main row as a STEP, then heads 1 to H. `headCfg` is the stream's
configuration for head rows (the step's mask or none). The head q-lists are returned beside the result. -/
def lookaheadResult (d : DrawCtx) (rc : RunCfg) (m : ScoreModel) (headCfg : StreamCfg) (rope : List Word)
    (maps : List (List (List Byte))) (position : Nat) (out : RowOut) : StreamResult × List (List Byte) :=
  let main := stepResult d rc out 0#128
  if !rowHasToken out then ({ main with entry := main.entry ++ lookaheadExt [] }, [])
  else
    let hs := (withIndex maps).map fun (k, mp) =>
      let h := k + 1
      let (v, rs) := headVector headCfg rc m rope mp out.normVec (position + h)
      let r := headRun { d with cfg := headCfg } rc m h v
      { r with recs := rs ++ r.recs }
    ({ main with
       entry := main.entry ++ lookaheadExt hs
       recs := main.recs ++ hs.flatMap fun h => h.recs
       clamped := main.clamped || hs.any fun h => h.clamped },
     hs.map fun h => qlistBytes h.qlist)

end Sys2Proof.Machine
end

