-- ==== Sys2Proof/Machine/Micro.lean ====
section
/-! DEFINITION. Micro-programs: step words, execution, the function image, its checks and the MONO sweep (R124 to R130). -/

namespace Sys2Proof.Machine

/-! ## The image (Table SFU-7) -/

/-- A function image taken apart. -/
structure FnImage where
  slot : Nat
  loadFlags : Nat
  steps : List Nat
  consts : List Word
  log2n : Nat
  table : List Word
  monoLo : Word
  monoHi : Word
  deriving DecidableEq, Repr

/-- Bytes of an image with a table of 2^N segments (R128). -/
def imageLen (log2n : Nat) : Nat := 0x170 + (if log2n = 0 then 0 else 4 * (2 ^ log2n + 1))

/-- Reading an image. -/
def parseImage (bs : List Byte) : FnImage :=
  let n := fieldAt bs 5 1
  { slot := fieldAt bs 1 1
    loadFlags := fieldAt bs 2 1
    steps := (List.range (min 32 (fieldAt bs 3 1))).map fun k => fieldAt bs (0x30 + 8 * k) 8
    consts := (List.range (min 16 (fieldAt bs 4 1))).map fun k => BitVec.ofNat 32 (fieldAt bs (0x130 + 4 * k) 4)
    log2n := n
    table := if n = 0 ∨ 10 < n then [] else (List.range (2 ^ n + 1)).map fun k => BitVec.ofNat 32 (fieldAt bs (0x170 + 4 * k) 4)
    monoLo := BitVec.ofNat 32 (fieldAt bs 8 4)
    monoHi := BitVec.ofNat 32 (fieldAt bs 0xC 4) }

/-- The check word of an image: bytes 0x010 to 0x023 taken as zero (R129). -/
def imageCheck (bs : List Byte) : Nat := crc32c (bs.take 0x10 ++ List.replicate 0x14 0#8 ++ bs.drop 0x24)

/-! ## Step words (Tables SFU-5, SFU-6) -/

/-- The fields of a step word. -/
structure StepWord where
  op : Nat
  dst : Nat
  a : Nat
  b : Nat
  c : Nat
  pred : Nat
  imm : Nat
  deriving DecidableEq, Repr

/-- Taking a step word apart. -/
def parseStep (w : Nat) : StepWord :=
  { op := bits w 63 58, dst := bits w 57 55, a := bits w 54 50, b := bits w 49 45, c := bits w 44 40
    pred := bits w 39 36, imm := bits w 31 16 }

/-- Is an operand code one of R125, its constant present (R129)? -/
def operandOk (consts code : Nat) : Bool := decide (code ≤ 8) || (decide (16 ≤ code) && decide (code - 16 < consts))

/-- The operands an operation reads (Table SFU-6): A, B, C. -/
def stepReads (op imm : Nat) : Bool × Bool × Bool :=
  match op with
  | 0x00 => (true, false, false)
  | 0x01 => (true, true, false)
  | 0x02 => (true, true, false)
  | 0x03 => (true, true, true)
  | 0x06 => (true, true, true)
  | 0x07 => (true, true, true)
  | 0x09 => (false, false, false)
  | 0x0A => (true, imm == 2, false)
  | _ => (true, false, false)

/-- Is an operand code defined at all (9–15 are reserved)? -/
def codeDefined (code : Nat) : Bool := decide (code ≤ 8) || decide (16 ≤ code)

/-- Is a step word valid in an image (R125, R126, R129)? IMM bits above those Table SFU-6 uses are rejected for TLU, SIGN and
BUILTIN as the rule rejects them for RRED; an operation that uses no IMM takes any (DESIGN CHOICE, log entry 101). -/
def stepOk (consts log2n w : Nat) : Bool :=
  let s := parseStep w
  let r := stepReads s.op s.imm
  let use (on : Bool) (code : Nat) : Bool := if on then operandOk consts code else codeDefined code
  let immOk : Bool :=
    match s.op with
    | 0x04 => decide (s.imm < 4)
    | 0x05 => decide (s.imm < 16) && decide (1 ≤ s.imm % 16) && s.imm == log2n
    | 0x0A => decide (s.imm < 3)
    | 0x0B => decide (1 ≤ s.imm ∧ s.imm ≤ 0x0D)
    | _ => true
  decide (s.op ≤ 0x0B) && use r.1 s.a && use r.2.1 s.b && use r.2.2 s.c && decide (s.pred ≤ 6) && immOk &&
    bits w 35 32 == 0 && bits w 15 0 == 0

/-- Does a program hold a BUILTIN step? -/
def hasBuiltin (im : FnImage) : Bool := im.steps.any fun w => (parseStep w).op == 0x0B

/-! ## Execution (R124, R126, R127) -/

/-- The state of one element's run: working registers, KREG, flags. -/
structure MicroSt where
  wregs : List Word
  kreg : Int
  flags : Flags
  deriving DecidableEq, Repr

/-- The value of an operand code. -/
def microOperand (im : FnImage) (input : Word) (st : MicroSt) (code : Nat) : Word :=
  if code < 8 then nth 0#32 st.wregs code
  else if code = 8 then input
  else nth 0#32 im.consts (code - 16)

/-- Writing a working register. -/
def microWrite (st : MicroSt) (dst : Nat) (w : Word) (f : Flags) : MicroSt :=
  { st with wregs := modNth st.wregs dst (fun _ => w), flags := st.flags ||| f }

/-- RRED (Table SFU-6, R127): value, KREG, flags. -/
def rred (md : Modes) (mode : Nat) (w : Word) : Word × Int × Flags :=
  let (w', f0) := flushIn md w
  match dec32 w' with
  | .nan _ _ _ => (w, 0, f0)
  | .inf _ => (qnan32, 0, f0 ||| fINV)
  | .fin _ m _ =>
    let x := val32 w'
    let ax : Dy := ⟨(x.m.natAbs : Nat), x.e⟩
    match mode with
    | 0 =>
      if dyLe ⟨1, 30⟩ ax then (qnan32, 0, f0 ||| fINV)
      else
        let k := dyFloor x
        let (r, f) := toF32 md (dyExact false (dySub x (dyInt k)))
        (r, k, f0 ||| f)
    | 1 =>
      if m = 0 then (qnan32, 0, f0 ||| fINV)
      else let (k, mm) := splitOct ax; (dyToF32 mm, k, f0)
    | 2 =>
      if dyLe ⟨1, 30⟩ ax then (qnan32, 0, f0 ||| fINV)
      else
        let k := dyRne (dyMul x log2e96)
        let r := dySub x (fixDy (k * fixLn2))
        let (v, f) := toF32 md (dyExact (sign32 w') (if k = 0 then x else r))
        (v, k, f0 ||| f)
    | _ =>
      if dyLt ⟨1, 20⟩ ax then (qnan32, 0, f0 ||| fINV)
      else
        let (y, f) := toF32 md (dyExact (sign32 w') (trigRest x))
        (y, trigIndex x % 4, f0 ||| f)

/-- The step of a table segment, toward zero (R111); nodes that are not finite are subtracted in FP32. -/
def tluDelta (md : Modes) (n n' : Word) : Word :=
  match dec32 n, dec32 n' with
  | .fin _ _ _, .fin _ _ _ =>
    let d := dySub (val32 n') (val32 n)
    if dyLe ⟨0xFFFFFF, 104⟩ ⟨(d.m.natAbs : Nat), d.e⟩ then (if d.m < 0 then 0xFF7FFFFF#32 else 0x7F7FFFFF#32)
    else dyToF32RTZ d
  | _, _ => (fsub md n' n).1

/-- TLU (Table SFU-6). -/
def tlu (md : Modes) (im : FnImage) (w : Word) : Word × Flags :=
  let (w', f0) := flushIn md w
  if isNan32 w' then (w, f0)
  else if flt w' 0#32 then (nth 0#32 im.table 0, f0)
  else if fle one32 w' then (nth 0#32 im.table (2 ^ im.log2n), f0)
  else
    let u := dyScale (val32 w') im.log2n
    let j := dyFloor u
    let t := dyToF32 (dySub u (dyInt j))
    let n := nth 0#32 im.table j.toNat
    let (r, f) := ffma md t (tluDelta md n (nth 0#32 im.table (j.toNat + 1))) n
    (r, f0 ||| f)

/-- Operands of a comparison: flushed, with the flags of R89 and R101. -/
def cmpOperands (md : Modes) (a b : Word) : Word × Word × Flags :=
  let (a', f1) := flushIn md a
  let (b', f2) := flushIn md b
  (a', b', f1 ||| f2 ||| (if isSnan32 a || isSnan32 b then fINV else noFlags))

/-- A predicate of Table SFU-5. -/
def predHolds (pred : Nat) (a b : Word) : Bool :=
  match pred with
  | 0 => feq a b
  | 1 => !feq a b
  | 2 => flt a b
  | 3 => fle a b
  | 4 => flt b a
  | 5 => fle b a
  | _ => (fcmp a b).isNone

/-- CLAMP: A itself where it is a NaN, compares equal to a bound, or lies inside. -/
def microClamp (md : Modes) (a b c : Word) : Word × Flags :=
  if isNan32 a then (a, if isSnan32 a then fINV else noFlags)
  else
    let (a1, b1, f1) := cmpOperands md a b
    let m := if flt a1 b1 then b else a
    let (m1, c1, f2) := cmpOperands md m c
    (if flt c1 m1 then c else m, f1 ||| f2)

/-- A × 2^KREG rounded once. -/
def microLdexp (md : Modes) (w : Word) (k : Int) : Word × Flags :=
  let (w', f0) := flushIn md w
  let (r, f) :=
    match dec32 w' with
    | .nan _ _ _ => nanResult md [w']
    | .inf _ => (w', noFlags)
    | .fin neg m e => toF32 md ⟨neg, m, 1, e + max (-1000) (min 1000 k)⟩
  (r, f0 ||| f)

/-- One step other than END. -/
def microStep (md : Modes) (t : Tier) (im : FnImage) (input : Word) (st : MicroSt) (s : StepWord) : MicroSt :=
  let A := microOperand im input st s.a
  let B := microOperand im input st s.b
  let C := microOperand im input st s.c
  let wr (p : Word × Flags) : MicroSt := microWrite st s.dst p.1 p.2
  match s.op with
  | 0x01 => wr (fadd md A B)
  | 0x02 => wr (fmul md A B)
  | 0x03 => wr (ffma md A B C)
  | 0x04 => let (v, k, f) := rred md s.imm A; { microWrite st s.dst v f with kreg := k }
  | 0x05 => wr (tlu md im A)
  | 0x06 =>
    let (a, b, f) := cmpOperands md A B
    if predHolds s.pred a b then wr (C, f) else { st with flags := st.flags ||| f }
  | 0x07 => wr (microClamp md A B C)
  | 0x08 => wr (microLdexp md A st.kreg)
  | 0x09 => wr (toF32 md (dyExact false ⟨st.kreg, 0⟩))
  | 0x0A =>
    wr (match s.imm with
      | 0 => (A &&& 0x7FFFFFFF#32, noFlags)
      | 1 => (fneg A, noFlags)
      | _ => ((A &&& 0x7FFFFFFF#32) ||| (B &&& 0x80000000#32), noFlags))
  | 0x0B => wr (builtin md t s.imm A)
  | _ => st

/-- The steps from one on: END returns its operand, running out returns WREG0 (R127). -/
def microLoop (md : Modes) (t : Tier) (im : FnImage) (input : Word) : List Nat → MicroSt → Word × Flags
  | [], st => (nth 0#32 st.wregs 0, st.flags)
  | w :: rest, st =>
    let s := parseStep w
    if s.op = 0 then (microOperand im input st s.a, st.flags)
    else microLoop md t im input rest (microStep md t im input st s)

/-- A micro-program run on one element. -/
def microRun (md : Modes) (t : Tier) (im : FnImage) (input : Word) : Word × Flags :=
  microLoop md t im input im.steps ⟨List.replicate 8 0#32, 0, noFlags⟩

/-! ## The checks of an image and the MONO sweep (R129, R130) -/

/-- Are bytes [off, off + n) all 0? -/
def zeroRange (bs : List Byte) (off n : Nat) : Bool := (slice bs off n).all fun b => b == 0#8

/-- Are the fields and steps of an image valid (R129)? -/
def imageValid (bs : List Byte) : Bool :=
  let im := parseImage bs
  let nSteps := fieldAt bs 3 1
  let nConst := fieldAt bs 4 1
  let mono := bit im.loadFlags 0
  fieldAt bs 0 1 == 1 && decide (im.slot ≤ 63) && decide (im.loadFlags < 32) && bits im.loadFlags 4 3 != 3 &&
  decide (1 ≤ nSteps ∧ nSteps ≤ 32) && decide (nConst ≤ 16) && decide (im.log2n ≤ 10) &&
  zeroRange bs 6 2 && zeroRange bs 0x15 3 && zeroRange bs 0x24 12 &&
  zeroRange bs (0x30 + 8 * nSteps) (8 * (32 - nSteps)) && zeroRange bs (0x130 + 4 * nConst) (4 * (16 - nConst)) &&
  im.steps.all (stepOk nConst im.log2n) &&
  (!mono || (!isNan32 im.monoLo && !isNan32 im.monoHi && !flt im.monoHi im.monoLo))

/-- Is a value inside the MONO domain? -/
def inDomain (im : FnImage) (w : Word) : Bool := !isNan32 w && fle im.monoLo w && fle w im.monoHi

/-- The swept points of an FP32 program, before their neighbours are added: binade by binade, either sign. -/
def sweepBinades (S : Nat) : List Word :=
  let pos := (List.range 255).flatMap fun e =>
    (List.range S).map fun j => BitVec.ofNat 32 (e * 2 ^ 23 + j * (2 ^ 23 / S))
  pos ++ pos.map fun w => w ||| 0x80000000#32

/-- A point's FP32 neighbours. -/
def neighbours (w : Word) : List Word := [ofOrd (ordOf w - 1), ofOrd (ordOf w + 1)]

/-- Sweep order: by value, −0 before +0, equal bits once. -/
def sweepBefore (a b : Word) : Bool :=
  if a.getLsbD 31 && !b.getLsbD 31 then true
  else if !a.getLsbD 31 && b.getLsbD 31 then false
  else if a.getLsbD 31 then decide (b.toNat < a.toNat) else decide (a.toNat < b.toNat)

/-- Equal neighbours of a sorted list dropped. -/
def dedupSorted : List Word → List Word
  | [] => []
  | [x] => [x]
  | x :: y :: rest => if x == y then dedupSorted (y :: rest) else x :: dedupSorted (y :: rest)

/-- The swept points in order (R130). -/
def sweepPoints (im : FnImage) : List Word :=
  let cls := bits im.loadFlags 4 3
  let raw :=
    if cls = 0 then
      let base := sweepBinades (if im.log2n = 0 then 16 else 2 ^ im.log2n)
      base ++ (base.filter (inDomain im)).flatMap neighbours ++ [0#32, 0x80000000#32, im.monoLo, im.monoHi]
    else
      let f := if cls = 1 then Fmt.bf16 else Fmt.fp16
      ((List.range 65536).filter fun c => !isNanCode f c).map (widenBits f)
  dedupSorted (sortBy sweepBefore (raw.filter (inDomain im)))

/-- The first failing point of a sweep: input, preceding output, output. The first swept point has no preceding output:
FAIL_OUT_PREV is then 0 (DESIGN CHOICE, log entry 101). -/
def sweepFail (dir : Bool) (f : Word → Word) : Option Word → List Word → Option (Word × Word × Word)
  | _, [] => none
  | prev, x :: rest =>
    let y := f x
    let bad := isNan32 y ||
      (match prev with | some p => if dir then flt p y else flt y p | none => false)
    if bad then some (x, prev.getD 0#32, y) else sweepFail dir f (some y) rest

/-- The sweep's runs: FAST defaults and STRICT, both tiers where a BUILTIN step occurs. -/
def sweepRuns (im : FnImage) : List (Modes × Tier) :=
  if hasBuiltin im then [(fastModes, .p), (strictModes, .p), (fastModes, .l), (strictModes, .l)]
  else [(fastModes, .p), (strictModes, .p)]

/-- The MONO sweep: the first failure of any run, the runs taken in the order FAST P, STRICT P, FAST L, STRICT L (DESIGN CHOICE:
R130 gives no order of the runs, log entry 101). -/
def monoSweep (im : FnImage) : Option (Word × Word × Word) :=
  let pts := sweepPoints im
  (sweepRuns im).findSome? fun (md, t) => sweepFail (bit im.loadFlags 1) (fun x => (microRun md t im x).1) none pts

/-- The verdict on an image: REPORT_CODE and the FAIL fields (R129). `occupied` tells whether its slot holds a function. -/
def imageReport (bs : List Byte) (occupied : Nat → Bool) : Nat × Word × Word × Word :=
  let im := parseImage bs
  if imageCheck bs ≠ fieldAt bs 0x10 4 then (1, 0#32, 0#32, 0#32)
  else if !imageValid bs then (2, 0#32, 0#32, 0#32)
  else
    match (if bit im.loadFlags 0 then monoSweep im else none) with
    | some (x, p, y) => (3, x, p, y)
    | none => if occupied im.slot && !bit im.loadFlags 2 then (4, 0#32, 0#32, 0#32) else (0, 0#32, 0#32, 0#32)

/-- A function of Table SFU-3 evaluated at an operand: a built-in or a loaded program. -/
def evalFunction (md : Modes) (t : Tier) (fid : Nat) (im : Option FnImage) (w : Word) : Word × Flags :=
  if fid < 0x40 then builtin md t fid w
  else match im with
    | some i => microRun md t i w
    | none => (w, noFlags)

end Sys2Proof.Machine
end

