-- ==== Sys2Proof/Machine/State.lean ====
section
/-! DEFINITION. The tray's state as plain data, every piece of it, and the state after reset (input absent, vault as
shipped). INVENTORY.md lists each field with its rule. Host memory and the interrupts and events sent stand in the state
because commands read and write them (log entries 6, 7). -/

namespace Sys2Proof.Machine

/-! ## Stops -/

/-- A fault stops the machine. No meaning of this model raises one: the manual gives every command an effect. -/
inductive Fault where
  /-- Raised by nobody; the type has a value so that outcomes can be written. Safe. -/
  | unused
  deriving DecidableEq, Repr

/-- A refusal by name. -/
inductive Refusal where
  /-- An arm of exec that has no meaning yet. Safe: the model stops. -/
  | notModelled (mnemonic : String)
  deriving DecidableEq, Repr

/-! ## Rings, virtual functions, host links (11_command_packets.md, 18_physical_electrical_host.md) -/

/-- A ring (Table CMD-9, R274 to R280). `taken` holds SQ entries accepted ahead of order (ABORT, R294); `written` counts
CQ slots written and not released; `coal` and `oldest` are the interrupt counts of R305; `records` keeps the records
written in slots the host has not released, with their COMPLETE_TICK (R503). -/
structure Ring where
  sqBaseLo : Word
  sqBaseHi : Word
  cqBaseLo : Word
  cqBaseHi : Word
  size : Word
  ctrl : Word
  vector : Word
  coalesce : Word
  sqHead : Nat
  sqTail : Nat
  cqTail : Nat
  cqHead : Nat
  phase : Bool
  written : Nat
  ringErr : Bool
  errCode : Nat
  taken : List Nat
  stalled : Bool
  coal : Nat
  oldest : Option Tick
  records : List (Nat × Tick × List Byte)
  deriving DecidableEq, Repr

/-- The reset values of Table CMD-9. -/
def Ring.reset : Ring :=
  ⟨0#32, 0#32, 0#32, 0#32, 0x808#32, 0#32, 0#32, 0#32, 0, 0, 0, 0, true, 0, false, 0, [], false, 0, none, []⟩

/-- A virtual function's registers (Table CMD-18). -/
structure Vf where
  rings : Word
  streamBase : Word
  streamCount : Word
  vectors : Word
  enabled : Bool
  cfgErr : Bool
  deriving DecidableEq, Repr

/-- The reset values of Table CMD-18. -/
def Vf.reset : Vf := ⟨0#32, 0#32, 0#32, 0#32, false, false⟩

/-- A host link: trained, its width and speed in GT/s, the counter half a TRAY_COUNT_LO read latched (Table CMD-16),
and the reads that AER logged (R312). -/
structure HostLink where
  trained : Bool
  width : Nat
  speed : Nat
  latch : Word
  aer : Nat
  deriving DecidableEq, Repr

/-- A link that is not trained. -/
def HostLink.down : HostLink := ⟨false, 0, 0, 0#32, 0⟩

/-- A host bridge: failed (R503), the HOST_LINKS latch (R495), ingress memory (R499, R501), kept doorbell tails
(R370). -/
structure Bridge where
  failed : Bool
  latch : Nat
  ingress : List (Nat × Byte)
  tails : List (Nat × Nat)
  deriving DecidableEq, Repr

/-! ## Streams, masks, models (09_streams_penalties_masks.md, 10_models_and_placement.md) -/

/-- A stream context (Table STRM-2) with its bias list and history, oldest token first. HIST_COUNT is the history's
length; the count table is computed from it. -/
structure Stream where
  seed : Qword
  step : Nat
  isOpen : Bool
  histValid : Bool
  ringBound : Bool
  modes : Nat
  window : Nat
  topK : Nat
  temp : Word
  minP : Word
  topP : Word
  softCap : Word
  rep : Word
  pres : Word
  freq : Word
  bias : List (Nat × Word)
  maskSpec : Nat
  ring : Qword
  userTag : Nat
  hist : List Nat
  histHead : Nat
  deriving DecidableEq, Repr

/-- A closed stream: every byte 0 (R238). -/
def Stream.closed : Stream :=
  ⟨0#128, 0, false, false, false, 0, 0, 0, 0#32, 0#32, 0#32, 0#32, 0#32, 0#32, 0#32, [], 0, 0#128, 0, [], 0⟩

/-- A mask-bank entry: length in bits and its bits (R248). -/
structure Mask where
  len : Nat
  bits : Nat
  deriving DecidableEq, Repr

/-- A model: descriptor (Table MODEL-1), MODEL_STATE, PRIORITY, stored rows, biases, norm weights, head maps, frequency
table; placement ranks (a chip, or a lock-step pair), resident granule rows, the CRC-32C of each overhang image, and
while degraded the ranks and resident rows its re-lay is to give it (R270). -/
structure Model where
  desc : List Byte
  state : Nat
  priority : Nat
  rows : List (List Byte)
  bias : Option (List Word)
  normW : Option (List Word)
  heads : List (List (List Byte))
  rope : List Word
  ranks : List (List Nat)
  resident : Nat
  crcs : List Nat
  plan : Option (List (List Nat) × Nat)
  deriving DecidableEq, Repr

/-- A vaulted model descriptor with state and priority (Table PWR-7). -/
structure VaultModel where
  desc : List Byte
  state : Nat
  priority : Nat
  deriving DecidableEq, Repr

/-! ## Commands (R294 to R301) -/

/-- Where an accepted command stands. -/
inductive Phase where
  | held | started | executed
  deriving DecidableEq, Repr

/-- A staged commit: what a command changes on the tick of its completion record (R64, R239). A step's commit carries the
step-counter value S0 it counts from (R218). -/
inductive Commit where
  | step (sid base : Nat) (tokens : List Nat) (advance : Nat) (ring : Option Qword)
  | openStream (sid : Nat) (st : Stream)
  | setParams (sid : Nat) (block : List Byte) (modeCtrl : Word) (bias : List (Nat × Word))
  | closeStream (sid : Nat)
  | history (sid mode : Nat) (tokens : List Nat)
  | streamRing (sid : Nat) (reset : Bool) (distance : Qword)
  | lane (chip lane : Nat) (s : Qword)
  | lanes (lane : Nat) (reset : Bool) (distance : Qword)
  | loadModel (mid : Nat) (m : Model)
  | unloadModel (mid : Nat)
  | priority (mid p : Nat)
  | suspend (mid : Nat)
  | mask (entry : Nat) (m : Option Mask)
  | function (slot : Nat) (image : List Byte)
  | clearCounters (scope mask : Nat)
  | mode (mask value : Word) (cap : Option Nat)
  | wake (us : Word)
  | audit (sid step : Nat) (ctx entry head result : List Byte) (bias : List (Nat × Word)) (input : List Byte)
      (absent : Bool) (mid : Option (Nat × Nat)) (banks : List (Nat × Nat)) (token : Option Nat)
  | clearAudit (sid : Nat)
  deriving DecidableEq, Repr

/-- An accepted command whose record is not yet written. `modeCtrl`, `ctxs` and `ready` are read at acceptance (R45,
R296); `fixed` is a COMPLETE_TICK set in advance (R299, R297); `notBefore` is the earliest COMPLETE_TICK of a command that an ABORT ended
(R300); `skips` holds the spans of ticks that the watchdog does not count (R428); `freed` is the tick on which the last command
that held it back completed (R366); `began` tells that it has started, a replay included (R301);
`behind` names the older of two step commands in flight for which it waits (R35); `hang` is the overhang allowance in ticks
for the host links trained when it started (R268, R428). -/
structure Cmd where
  id : Nat
  fn : Nat
  ring : Nat
  index : Nat
  cq : Nat
  packet : List Byte
  accept : Tick
  start : Tick
  phase : Phase
  status : Nat
  detail : Nat
  cflags : Nat
  late : Bool
  modeCtrl : Word
  ctxs : List (Nat × Stream)
  commits : List Commit
  fixed : Option Tick
  notBefore : Tick
  skips : List (Tick × Tick)
  replayed : Bool
  reserved : List Nat
  began : Bool
  behind : Option Nat
  hang : Nat
  freed : Tick
  deriving DecidableEq, Repr

/-- The replay-window record (Table DET-9). -/
structure AuditRec where
  step : Nat
  ctx : List Byte
  entry : List Byte
  head : List Byte
  result : List Byte
  bias : List (Nat × Word)
  input : List Byte
  absent : Bool
  model : Option (Nat × Nat)
  banks : List (Nat × Nat)
  token : Option Nat
  tick : Tick
  deriving DecidableEq, Repr

/-- An audited stream: the chip that holds it, its history base, its records oldest first (R396). -/
structure Audited where
  sid : Nat
  chip : Nat
  base : List Nat
  baseHead : Nat
  recs : List AuditRec
  deriving DecidableEq, Repr

/-! ## Chips, cores, links (13_mycel_fabric_and_time.md, 15_faults_repair_recovery.md) -/

/-- A core's role. -/
inductive Role where
  | active | spare | fenced
  deriving DecidableEq, Repr

/-- A core: role, sticky flags of its tile engine and SFU (R103), counters of Table FLT-12, SRAM rows spared, heartbeats
missed, a BIST asked for (R429), the ORIGIN and the fence tick of a fence whose replacement has not taken over (R416), and the
spare rows that failed (R409). -/
structure Core where
  role : Role
  te : Flags
  sfu : Flags
  counters : List Nat
  spared : List (Nat × Nat)
  missed : Nat
  lastMiss : Option Tick
  test : Bool
  pending : Option (Nat × Tick)
  badSpares : List Nat
  deriving DecidableEq, Repr

/-- A core as shipped: active below 16, else spare (R21). -/
def Core.fresh (k : Nat) : Core :=
  ⟨if k < 16 then .active else .spare, noFlags, noFlags, List.replicate 9 0, [], 0, none, false, none, []⟩

/-- A chip: admitted and active, its cores, Ring lanes (R188), a failed Ring block (R199), counters (chip, HBM), its own
pressure source (R440), missed heartbeats, invalid exchanges, its counter's offset from the lead at the last exchange and the tick
of that exchange (R358, R359), uncorrectable errors in the window of
Table FLT-5, BIST asked for after a divergence (R394), streams in the order they were last stepped, newest first (R227). -/
structure Chip where
  active : Bool
  cores : List Core
  lanes : List Qword
  ringFailed : Bool
  counters : List Nat
  hbm : List Nat
  throttled : Bool
  missed : Nat
  lastMiss : Option Tick
  badExchanges : Nat
  offset : Int
  offsetAt : Tick
  ueTicks : List Tick
  test : Bool
  pauses : Nat
  lastSlot : Option Tick
  stepped : List Nat
  deriving DecidableEq, Repr

/-- A chip before power-on. -/
def Chip.fresh (c : Nat) : Chip :=
  ⟨false, (List.range 18).map Core.fresh, (List.range 8).map (laneStart c), false, List.replicate 8 0,
    List.replicate 5 0, false, 0, none, 0, 0, 0, [], false, 0, none, []⟩

/-- A flit (Table MYC-1): TYPE, ROUTE's source and destination, SEQ, ACK_SEQ where ACK_VALID is set, class, RELAY, CREDITS,
CONTEXT and the valid payload. -/
structure Flit where
  typ : Nat
  src : Nat
  dst : Nat
  seq : Nat
  ack : Option Nat
  cls : Nat
  relay : Bool
  credits : Nat
  context : Nat
  payload : List Byte
  deriving DecidableEq, Repr

/-- A direction's RETRY (R351 to R353): entry tick, the attempt's start and the flits it must see acknowledged, failed
attempts in a row, good flits since the last successful attempt (none while an attempt runs), whether the NACK for the failure
that started the attempt is still on its way, and the tick up to which the watchdogs of its commands have skipped (R428). -/
structure Retry where
  entered : Tick
  attempt : Tick
  waiting : List Nat
  fails : Nat
  good : Option Nat
  told : Bool
  mark : Tick
  deriving DecidableEq, Repr

/-- One link direction at its two ends (R345 to R354): active lanes, spare, retired lanes, symbol errors by lane with their ticks;
the sender's queue of flits that wait, its replay buffer of unacknowledged DATA flits in sequence order, the last sequence number
acknowledged, RETRY, credits by class, those of the relay buffers after those of direct traffic; the receiver's last accepted
sequence number and whether a NACK is out; what it delivered (payloads), the NACKs it sent, and the flits that the fabric sent
in this direction of its own. -/
structure Dir where
  lanes : List Nat
  spare : Option Nat
  retired : List Nat
  errors : List (Nat × Tick × Nat)
  queue : List Flit
  unacked : List Flit
  acked : Nat
  retry : Option Retry
  accepted : Nat
  nacked : Bool
  credits : List Nat
  delivered : List (List Byte)
  nacks : List Nat
  sent : List Flit
  deriving DecidableEq, Repr

/-- A direction after training (R344): nothing accepted yet, so sequence number 0 is next. -/
def Dir.fresh : Dir :=
  ⟨[0, 1, 2, 3], some 4, [], [], [], [], 4095, none, 4095, false, [0, 0, 0, 0, 0, 0, 0, 0], [], [], []⟩

/-- A link between chips a < b: FAILED, its two directions, counters of Table FLT-12, recalibration count. -/
structure Link where
  a : Nat
  b : Nat
  failed : Bool
  up : Dir
  down : Dir
  counters : List Nat
  recal : Nat
  deriving DecidableEq, Repr

/-- The 28 pairs of chips. -/
def linkPairs : List (Nat × Nat) :=
  (List.range 8).flatMap fun a => ((List.range 8).filter fun b => a < b).map fun b => (a, b)

/-- A link before training. -/
def Link.fresh (p : Nat × Nat) : Link := ⟨p.1, p.2, false, .fresh, .fresh, List.replicate 7 0, 0⟩

/-- A chip loss being handled (R418 to R421): declared, with the fence tick and the chips of an earlier loss whose recovery it
interrupted (R423); or fenced and recovering. -/
inductive Loss where
  | none
  | declared (chips : List Nat) (fence : Tick) (earlier : List Nat)
  | recovering (chips : List Nat)
  deriving DecidableEq, Repr

/-- A barrier in progress (R365). -/
structure BarrierSt where
  id : Nat
  arrivals : List (Nat × Tick)
  release : Option Tick
  deriving DecidableEq, Repr

/-- A background task that is due (Table PWR-10): task, chip, argument, the tick it fell due, and what it will find. -/
structure Task where
  kind : Nat
  chip : Nat
  arg : Nat
  due : Tick
  found : List Incident
  bad : List BistResult
  deriving DecidableEq, Repr

/-- A quiet slot: none, asked for, open until a tick (R381). -/
inductive Quiet where
  | none
  | wanted
  | openUntil (stop : Tick)
  deriving DecidableEq, Repr

/-! ## The Truffle vault (Tables PWR-7, PWR-8, FLT-1, FLT-2) -/

/-- A ledger entry (Table FLT-2). -/
structure LedgerEntry where
  kind : Nat
  chip : Nat
  unit : Nat
  origin : Nat
  element : Nat
  replacement : Nat
  bringUp : Nat
  deriving DecidableEq, Repr

/-- A ledger copy (Table FLT-1): LEDGER_VERSION, whether CHECK matches the contents, SEQUENCE, BRING_UP_COUNT, entries. -/
structure Ledger where
  version : Nat
  checkOk : Bool
  seq : Nat
  bringUps : Nat
  entries : List LedgerEntry
  deriving DecidableEq, Repr

/-- A fault-log entry (R434). -/
structure LogEntry where
  tick : Tick
  event : Nat
  chip : Nat
  unit : Nat
  detail : Nat
  deriving DecidableEq, Repr

/-- A save slot (Table PWR-8); contexts listed are those open. `headerOk` stands for HEADER_CHECK matching. -/
structure Slot where
  state : Nat
  seq : Nat
  tick : Tick
  settings : Dword
  chips : Nat
  kind : Nat
  headerOk : Bool
  lanes : List (List Qword)
  contexts : List (Nat × List Byte)
  deriving DecidableEq, Repr

/-- An empty slot. -/
def Slot.empty : Slot := ⟨0, 0, 0, 0#64, 0, 0, false, [], []⟩

/-- A saved set of counters (R432): cores, links, HBM, chips, totals. -/
structure CounterSet where
  core : List (List (List Nat))
  link : List (List Nat)
  hbm : List (List Nat)
  chip : List (List Nat)
  total : List Nat
  deriving DecidableEq, Repr

/-- The vault. `torn` holds the ledger entries whose write a power loss cut short (R407). -/
structure Vault where
  ledgerA : Ledger
  ledgerB : Ledger
  cfgA : List Byte
  cfgB : List Byte
  faultLog : List LogEntry
  counters : CounterSet
  models : List (Nat × VaultModel)
  functions : List (Nat × List Byte)
  masks : List (Nat × Mask)
  maskGen : List (Nat × Nat)
  slotA : Slot
  slotB : Slot
  bias : List (Nat × List (Nat × Word))
  torn : List LedgerEntry
  deriving DecidableEq, Repr

/-! ## The TMC: power, boot, management (16, 17) -/

/-- Where the tray stands between power-off and service (Table BOOT-1, R424, R466, R467, I5). -/
inductive Boot where
  | off
  | inputCheck | preCharge | tmcBoot | chipPower | training | alignment | apply | readyStep
  | serving
  | tooFewChips
  | recovery
  | railsDown
  | i5
  | faultShutdown
  deriving DecidableEq, Repr

/-- The shutdown in progress (R447): none, drain since D, save since S; its SAVE_KIND and what follows. -/
inductive Shutdown where
  | none
  | drain (d : Tick) (kind : Nat) (railsStay : Bool) (toI5 : Bool)
  | save (s : Tick) (kind : Nat) (railsStay : Bool) (toI5 : Bool)
  deriving DecidableEq, Repr

/-- Power state: the input in mV, presence, the cap, the power measured and the charging power in it (R439), the pressure level and
its count below threshold, the Puffball in mJ and its capacity, the open window's decision tick, cold plate hold, bridge to the idle states. -/
structure Power where
  millivolts : Nat
  mated : Bool
  disconnected : Bool
  cap : Nat
  milliwatts : Nat
  charging : Nat
  pressure : Nat
  below : Nat
  energy : Nat
  capacity : Nat
  powerReady : Bool
  window : Option Tick
  coldPlate : Bool
  idle : Nat
  idleSince : Tick
  i4Slot : Bool
  deriving DecidableEq, Repr

/-- A firmware bank (R473 to R475): bytes of the bundle, valid. -/
structure Bank where
  bytes : List Byte
  valid : Bool
  deriving DecidableEq, Repr

/-- Management state: banks, the active one, a staged activation, bring-ups failed in a row since activation, the SVN
floor, revoked key slots, the bundle the last bring-up started, the update in progress (none, PLDM, Redfish), endpoint id, SPDM progress and transcript,
event receivers, subscriptions, accounts (role, password changed), a reset held until READY. -/
structure Mgmt where
  banks : List Bank
  activeBank : Nat
  staged : Bool
  activated : Bool
  tries : Nat
  svnFloor : Nat
  revoked : List Nat
  running : List Byte
  update : Option Bool
  eid : Nat
  spdm : Nat
  transcript : List Byte
  subs : List Nat
  accounts : List (Nat × Nat)
  labelChanged : Bool
  smbAlert : Bool
  resetBusy : Bool
  heldReset : Option Bool
  rebuilt : Bool
  inForce : Option Bool
  cfg : List Byte
  deriving DecidableEq, Repr

/-! ## The whole state -/

/-- The BAR0 registers that are not a ring's or a VF's (Table CMD-16) and the outputs the host sees: `readData` is what
the last register read or management request answered, `msi` the MSI-X messages sent (function, vector), newest first,
`events` the management events sent (Table BOOT-9) with the tick that the TMC stamped on each (R356), newest first. -/
structure Regs where
  cfgDefaulted : Bool
  relayActive : Bool
  degraded : Bool
  pfEarly : Bool
  saving : Bool
  ready : Bool
  lead : Nat
  modeCtrl : Word
  flagSummary : Word
  eventCause : Word
  eventEnable : Word
  eventVector : Word
  wakeTolerance : Word
  settings : Dword
  msixTable : List (Nat × Byte)
  msixPending : List Nat
  sriovOwner : Option Nat
  readData : List Byte
  msi : List (Nat × Nat)
  events : List (Nat × Nat × Nat × Tick)
  deriving DecidableEq, Repr

/-- Periodic BIST (R410): the tick of READY, the round, and its segments taken. -/
structure Bist where
  readyAt : Tick
  round : Nat
  segments : Nat
  deriving DecidableEq, Repr

/-- The machine. `now` is the lead's tray counter; `tmc` is the offset of the TMC's copy from it at their last exchange, with the
tick of that exchange (R358). `recent` holds the outputs of the commands completed within the last 200 µs (R503). `ledgerWrite` is
the ledger write in progress: the tick by which it is done and the entries it adds (R407). The last three fields are the model's own: the count of free values taken (log entry 3), the dispatcher's
next command number, and the commands that wait. -/
structure State where
  now : Tick
  tmc : Int × Tick
  regs : Regs
  rings : List (Nat × Ring)
  vfs : List Vf
  links : List HostLink
  bridges : List Bridge
  host : List (Nat × Byte)
  hostBad : List (Nat × Nat)
  unsent : List (Nat × List Byte)
  unrecorded : List (Nat × Nat × List Byte)
  served : List Nat
  cmds : List Cmd
  done : List (Nat × Nat)
  recent : List (Tick × List (Nat × List Byte))
  streams : List (Nat × Stream)
  homing : List Nat
  homes : List (Nat × Nat × Option Nat)
  moving : List Nat
  models : List (Nat × Model)
  modelGen : List (Nat × Nat)
  masks : List (Nat × Mask)
  functions : List (Nat × List Byte)
  audited : List Audited
  chips : List Chip
  mesh : List Link
  totals : List Nat
  loss : Loss
  barrierSt : Option BarrierSt
  tasks : List Task
  quiet : Quiet
  bist : Bist
  ledgerWrite : Option (Tick × List LedgerEntry)
  deputy : Option Nat
  deferred : List LedgerEntry
  deferredLog : List LogEntry
  vault : Vault
  boot : Boot
  shutdown : Shutdown
  power : Power
  mgmt : Mgmt
  freeCtr : Nat
  nextId : Nat
  pending : List Instr
  deriving DecidableEq, Repr

/-! ## Reset -/

/-- Zero counters for the whole tray. -/
def CounterSet.zero : CounterSet :=
  ⟨List.replicate 8 (List.replicate 18 (List.replicate 9 0)), List.replicate 28 (List.replicate 7 0),
    List.replicate 8 (List.replicate 5 0), List.replicate 8 (List.replicate 8 0), List.replicate 32 0⟩

/-- The factory defaults of Table BOOT-5 as a blob with CFG_SEQ 1 and its CFG_CHECK, as shipped in copy A
(log entry 8). -/
def factoryBlob (seq : Nat) : List Byte :=
  let pre := leBytes 2 1 ++ leBytes 2 0 ++ leBytes 4 seq
  let post := leBytes 4 0 ++ leBytes 4 0 ++ leBytes 2 300 ++ leBytes 1 1 ++ leBytes 1 0 ++ leBytes 1 16 ++
    leBytes 1 0x4E ++ leBytes 2 3 ++ leBytes 4 0 ++ leBytes 4 3 ++ List.replicate 4060 0#8
  let check := crc32c (pre ++ leBytes 4 0 ++ post)
  pre ++ leBytes 4 check ++ post

/-- The vault as shipped: a valid empty ledger, factory configuration in copy A, nothing saved (log entry 8). -/
def Vault.shipped : Vault :=
  ⟨⟨1, true, 1, 0, []⟩, ⟨1, true, 0, 0, []⟩, factoryBlob 1, [], [], .zero, [], [], [], [], .empty, .empty, [], []⟩

/-- Registers at power-on (Table CMD-16). -/
def Regs.reset : Regs :=
  { cfgDefaulted := false, relayActive := false, degraded := false, pfEarly := false, saving := false, ready := false
    lead := 0, modeCtrl := 0#32, flagSummary := 0#32, eventCause := 0#32, eventEnable := 0#32, eventVector := 0#32
    wakeTolerance := 0#32, settings := 0#64, msixTable := [], msixPending := [], sriovOwner := none
    readData := [], msi := [], events := [] }

/-- Power before the input is there: the register POWER_CAP resets to 300 W. -/
def Power.reset : Power :=
  { millivolts := 0, mated := false, disconnected := false, cap := 300, milliwatts := 0, charging := 0, pressure := 0, below := 0, energy := 0
    capacity := 24000, powerReady := false, window := none, coldPlate := false, idle := 0, idleSince := 0
    i4Slot := false }

/-- Management as shipped (log entry 8). -/
def Mgmt.reset : Mgmt :=
  { banks := [⟨[], true⟩, ⟨[], false⟩], activeBank := 0, staged := false, activated := false, tries := 0, svnFloor := 0
    revoked := [], running := [], update := none, eid := 0, spdm := 0, transcript := [], subs := [], accounts := [(0, 0)]
    labelChanged := false, smbAlert := false, resetBusy := false, heldReset := none, rebuilt := false, inForce := none
    cfg := [] }

/-- The machine right after reset: power-on with the input absent, everything that is stored as shipped. -/
def State.reset : State :=
  { now := 0
    tmc := (0, 0)
    regs := .reset
    rings := []
    vfs := List.replicate 16 .reset
    links := List.replicate 4 .down
    bridges := List.replicate 2 ⟨false, 0, [], []⟩
    host := []
    hostBad := []
    unsent := []
    unrecorded := []
    served := [255, 255, 255, 255]
    cmds := []
    done := []
    recent := []
    streams := []
    homing := []
    homes := []
    moving := []
    models := []
    modelGen := []
    masks := []
    functions := []
    audited := []
    chips := (List.range 8).map Chip.fresh
    mesh := linkPairs.map Link.fresh
    totals := List.replicate 32 0
    loss := .none
    barrierSt := none
    tasks := []
    quiet := .none
    bist := ⟨0, 0, 0⟩
    ledgerWrite := none
    deputy := none
    deferred := []
    deferredLog := []
    vault := .shipped
    boot := .off
    shutdown := .none
    power := .reset
    mgmt := .reset
    freeCtr := 0
    nextId := 1
    pending := [] }

end Sys2Proof.Machine
end

