-- ==== Sys2Proof/Machine/Ops.lean ====
section
/-! DEFINITION. The named operations over the tray's state that the meanings share: time, counters, events, interrupts,
rings and functions, host memory and ingress memory, chips and their cores, the vault's log and ledger. -/

namespace Sys2Proof.Machine

/-! ## Time (R16, R24, R356, R364) -/

/-- Ticks per µs of a clock plan (Table SCOPE-3). -/
def planRate : Nat → Nat
  | 1 => 1200 | 2 => 800 | _ => 1600

/-- Tile width of a clock plan (Table ARCH-3). -/
def planWidth : Nat → Nat
  | 1 => 512 | 2 => 1024 | _ => 256

/-- A field of the configuration copy in force (Table BOOT-4). -/
def cfgField (s : State) (off n : Nat) : Nat := fieldAt s.mgmt.cfg off n

/-- The running clock plan: fixed by the configuration in force (R26, R462). -/
def clockPlan (s : State) : Nat := bits (cfgField s 0x10 4) 13 12

/-- A duration in µs as ticks (R16). -/
def ticksUs (s : State) (us : Nat) : Nat := us * planRate (clockPlan s)

/-- A tick count the manual gives at PLAN_A, under the running plan (R15, R16). -/
def ticksA (s : State) (n : Nat) : Nat := ceilDiv (n * planRate (clockPlan s)) 1600

/-- The tray counter advanced to the stamp of an event; it never steps back (R359). -/
def stamp (s : State) (t : Tick) : State := { s with now := max s.now t }

/-! ## MODE_CTRL fields (Table CMD-19) -/

def modeDet (w : Word) : Bool := w.getLsbD 0
def modeFixed (w : Word) : Bool := w.getLsbD 1 || w.getLsbD 0
def modeLock (w : Word) : Bool := w.getLsbD 2
def modeWithhold (w : Word) : Bool := w.getLsbD 3
def modeNum (w : Word) : Nat := bits w.toNat 4 4
def modeFlush (w : Word) : Nat := bits w.toNat 6 5
def modeNz (w : Word) : Nat := bits w.toNat 8 7
def modeUnprotected (w : Word) : Bool := w.getLsbD 9
def modeProfile (w : Word) : Nat := bits w.toNat 11 10
def modePlan (w : Word) : Nat := bits w.toNat 13 12
def modeWindow (w : Word) : Bool := w.getLsbD 14

/-- The SFU tier of the step path under a power profile (Table SFU-1). -/
def stepTier (w : Word) : Tier := if modeProfile w = 2 then .l else .p

/-! ## Interrupts, events, the fault log (R305, R434, R479) -/

/-- Where a function's MSI-X table entry of a vector is kept. -/
def msixKey (fn vector : Nat) : Nat := fn * 2 ^ 24 + 16 * vector

/-- Is a vector masked (log entry 14)? The table keeps the mask bit inverted, so that every vector is masked at reset. -/
def msixMasked (s : State) (fn vector : Nat) : Bool := !(memByte s.regs.msixTable (msixKey fn vector + 12)).getLsbD 0

/-- An MSI-X message of a function's vector; a masked vector keeps it pending (log entry 14). -/
def sendMsi (s : State) (fn vector : Nat) : State :=
  if msixMasked s fn vector then
    { s with regs := { s.regs with msixPending :=
        if s.regs.msixPending.contains (512 * fn + vector) then s.regs.msixPending
        else (512 * fn + vector) :: s.regs.msixPending } }
  else { s with regs := { s.regs with msi := (fn, vector) :: s.regs.msi } }

/-- A management event to every receiver (R479), stamped by the TMC (R356); SMB_ALERT_L goes low (R504). -/
def mgmtEvent (s : State) (code a b : Nat) : State :=
  { s with
    regs := { s.regs with events := (code, a, b, s.now) :: s.regs.events }
    mgmt := { s.mgmt with smbAlert := true } }

/-- An entry of the fault log, of which the last 1,024 are kept (R434); while the TMC restarts it waits (R404). -/
def logFault (s : State) (event chip unit detail : Nat) : State :=
  let e : LogEntry := ⟨s.now, event, chip, unit, detail⟩
  match s.deputy with
  | some _ => { s with deferredLog := s.deferredLog ++ [e] }
  | none => { s with vault := { s.vault with faultLog := (e :: s.vault.faultLog).take 1024 } }

/-- A bit of EVENT_CAUSE set: on 0 to 1 the management event 0x10 + bit goes out, and EVENT_VECTOR where the bit is
enabled (R305, R479). -/
def raiseEvent (s : State) (b : Nat) : State :=
  if s.regs.eventCause.getLsbD b then s
  else
    let s := mgmtEvent { s with regs := { s.regs with eventCause := s.regs.eventCause ||| (1#32 <<< b) } } (0x10 + b) 0 0
    if s.regs.eventEnable.getLsbD b then sendMsi s 0 (bits s.regs.eventVector.toNat 8 0) else s

def evCHIP_LOST : Nat := 0
def evCORE_FENCED : Nat := 1
def evLINK_FAILED : Nat := 2
def evPF_EARLY : Nat := 3
def evPOWER_SAVE : Nat := 4
def evRELAY_DONE : Nat := 5
def evMODEL_SUSPENDED : Nat := 6
def evCFG_DEFAULTED : Nat := 7
def evBIST_FAIL : Nat := 8
def evRING_ERR : Nat := 9
def evLOCKSTEP : Nat := 10
def evTHERMAL : Nat := 11
def evFLAG_RAISED : Nat := 12

/-! ## Chips and cores -/

/-- A chip of the tray. -/
def chipOf (s : State) (c : Nat) : Chip := nth (Chip.fresh c) s.chips c

/-- A chip changed. -/
def setChip (s : State) (c : Nat) (f : Chip → Chip) : State := { s with chips := modNth s.chips c f }

/-- A core changed. -/
def setCore (s : State) (c k : Nat) (f : Core → Core) : State :=
  setChip s c fun ch => { ch with cores := modNth ch.cores k f }

/-- Active chips in ascending ID: the ranking of R226. -/
def activeChips (s : State) : List Nat := (List.range 8).filter fun c => (chipOf s c).active

/-- The active cores of a chip by physical number (R256). -/
def activeCores (s : State) (c : Nat) : List Nat :=
  ((withIndex (chipOf s c).cores).filter fun p => p.2.role == .active).map fun p => p.1

/-- The spares left on a chip. -/
def spareCores (s : State) (c : Nat) : List Nat :=
  ((withIndex (chipOf s c).cores).filter fun p => p.2.role == .spare).map fun p => p.1

/-- The lowest-numbered active core of a chip (R104). -/
def firstCore (s : State) (c : Nat) : Nat := (activeCores s c).headD 0

/-- The complete lock-step pairs by their lower chip (R390). -/
def completePairs (s : State) : List Nat :=
  [0, 2, 4, 6].filter fun c => (chipOf s c).active && (chipOf s (c + 1)).active

/-- Placement ranks: chips, or the complete pairs under LOCKSTEP (R260, R390). -/
def ranksNow (s : State) (lock : Bool) : List (List Nat) :=
  if lock then (completePairs s).map fun c => [c, c + 1] else (activeChips s).map fun c => [c]

/-! ## Pressure (R437 to R440, R488) -/

/-- The level a chip applies: the broadcast one, or 5 under its own heat or the cold plate's (R440, R488). -/
def chipPressure (s : State) (c : Nat) : Nat :=
  if (chipOf s c).throttled || s.power.coldPlate then max 5 s.power.pressure else s.power.pressure

/-- The stall fraction, in sixteenths, of tile engines, SFUs and Gill slices at a level (Table PWR-1): a block issues no work on that
many of every 16 ticks (R438). -/
def stallSixteenths (level : Nat) : Nat := nth 12 [0, 1, 2, 3, 4, 6, 8, 12] level

/-- The stall fraction of the merge units in eighths (Table PWR-1). -/
def mergeEighths (level : Nat) : Nat := if 7 ≤ level then 2 else if level = 6 then 1 else 0

/-- Is the BULK class of the fabric paused at a level (Table PWR-1)? -/
def bulkPaused (level : Nat) : Bool := decide (5 ≤ level)

/-! ## Counters (R431) -/

/-- A tray total advanced, saturating at 0xFFFF_FFFF. -/
def countTotal (s : State) (i n : Nat) : State := { s with totals := modNth s.totals i (satAdd 0xFFFFFFFF · n) }

/-- A core counter and its total (Tables FLT-12, FLT-13). -/
def countCore (s : State) (c k i n : Nat) : State :=
  countTotal (setCore s c k fun co => { co with counters := modNth co.counters i (satAdd 0xFFFF · n) }) i n

/-- An HBM counter and its total. -/
def countHbm (s : State) (c i n : Nat) : State :=
  countTotal (setChip s c fun ch => { ch with hbm := modNth ch.hbm i (satAdd 0xFFFF · n) }) (16 + i) n

/-- A chip counter and its total. -/
def countChip (s : State) (c i n : Nat) : State :=
  countTotal (setChip s c fun ch => { ch with counters := modNth ch.counters i (satAdd 0xFFFF · n) }) (21 + i) n

/-- The position of a pair in the mesh. -/
def linkIndex (a b : Nat) : Nat := linkPairs.findIdx fun p => p.1 == min a b && p.2 == max a b

/-- The link of a pair. -/
def linkOf (s : State) (a b : Nat) : Link := nth (Link.fresh (a, b)) s.mesh (linkIndex a b)

/-- The link of a pair changed. -/
def setLink (s : State) (a b : Nat) (f : Link → Link) : State := { s with mesh := modNth s.mesh (linkIndex a b) f }

/-- A link counter and its total. -/
def countLink (s : State) (a b i n : Nat) : State :=
  countTotal (setLink s a b fun l => { l with counters := modNth l.counters i (satAdd 0xFFFF · n) }) (9 + i) n

/-! ## Flags of the engines and the summary (R103 to R106) -/

/-- One record of flags and crushed blocks entered at its engine. -/
def recordFlag (s : State) (r : FlagRec) : State :=
  let s := if r.flags = noFlags then s else setCore s r.chip r.core fun k =>
    if r.sfu then { k with sfu := k.sfu ||| r.flags } else { k with te := k.te ||| r.flags }
  if r.crush = 0 then s else countCore s r.chip r.core 5 r.crush

/-- The OR of every flag of the engines that serve (R106). -/
def engineFlags (s : State) : Flags :=
  s.chips.foldl (fun f ch => if ch.active then
    ch.cores.foldl (fun f k => if k.role = .active then f ||| k.te ||| k.sfu else f) f else f) noFlags

/-- Bits latched in FLAG_SUMMARY; FLAG_RAISED where a bit goes to 1 (R106, R305). -/
def latchSummary (s : State) (b : Word) : State :=
  let new := s.regs.flagSummary ||| b
  if new = s.regs.flagSummary then s
  else raiseEvent { s with regs := { s.regs with flagSummary := new } } evFLAG_RAISED

/-- The summary bits that records and a CLAMP indication set. -/
def summaryBits (recs : List FlagRec) (clamp : Bool) : Word :=
  let f := recs.foldl (fun f r => f ||| r.flags) noFlags
  BitVec.ofNat 32 (f.toNat + 32 * b2n clamp + 64 * b2n (recs.any fun r => r.crush != 0))

/-- The records of a command entered, with the summary. -/
def recordFlags (s : State) (recs : List FlagRec) (clamp : Bool) : State :=
  latchSummary (recs.foldl recordFlag s) (summaryBits recs clamp)

/-! ## Functions and rings (R274, R306, R307) -/

/-- The first ring of a VF and its count. -/
def vfFirst (v : Vf) : Nat := bits v.rings.toNat 7 0
def vfCount (v : Vf) : Nat := bits v.rings.toNat 16 8
/-- A VF of the tray. -/
def vfOf (s : State) (v : Nat) : Vf := nth Vf.reset s.vfs v

/-- The function that owns a tray ring: an enabled VF, else the PF. -/
def ringFn (s : State) (r : Nat) : Nat :=
  match (withIndex s.vfs).find? fun p => p.2.enabled && decide (vfFirst p.2 ≤ r ∧ r < vfFirst p.2 + vfCount p.2) with
  | some (v, _) => v + 1
  | none => 0

/-- The tray ring a function means by a ring number; none where the function has no such ring. -/
def trayRing (s : State) (fn r : Nat) : Option Nat :=
  if fn = 0 then (if decide (r < 256) && ringFn s r == 0 then some r else none)
  else
    let v := vfOf s (fn - 1)
    if v.enabled && decide (r < vfCount v ∧ vfFirst v + r < 256) then some (vfFirst v + r) else none

/-- A tray ring's number within its function. -/
def fnRing (s : State) (fn r : Nat) : Nat := if fn = 0 then r else r - vfFirst (vfOf s (fn - 1))

/-- A ring. -/
def ringOf (s : State) (r : Nat) : Ring := mapGet Ring.reset s.rings r
/-- A ring stored. -/
def setRing (s : State) (r : Nat) (x : Ring) : State := { s with rings := mapIns s.rings r x }

def sqEnabled (x : Ring) : Bool := x.ctrl.getLsbD 0
def cqEnabled (x : Ring) : Bool := x.ctrl.getLsbD 1
def ringPriority (x : Ring) : Nat := bits x.ctrl.toNat 3 2
def ringTarget (x : Ring) : Nat := bits x.ctrl.toNat 11 4
def ringIrq (x : Ring) : Bool := x.ctrl.getLsbD 12
def ringHome (x : Ring) : Nat := bits x.ctrl.toNat 17 16
def sqEntries (x : Ring) : Nat := 2 ^ bits x.size.toNat 4 0
def cqEntries (x : Ring) : Nat := 2 ^ bits x.size.toNat 12 8
def sqBase (x : Ring) : Nat := x.sqBaseLo.toNat + 2 ^ 32 * x.sqBaseHi.toNat
def cqBase (x : Ring) : Nat := x.cqBaseLo.toNat + 2 ^ 32 * x.cqBaseHi.toNat

/-- The tray ring whose CQ a ring's CQ_TARGET names. -/
def targetOf (s : State) (r : Nat) : Option Nat := trayRing s (ringFn s r) (ringTarget (ringOf s r))

/-- A ring error: RING_ERR, its first code, and the event (R508). -/
def ringError (s : State) (r code : Nat) : State :=
  let x := ringOf s r
  raiseEvent (if x.ringErr then s else setRing s r { x with ringErr := true, errCode := code }) evRING_ERR

/-- Incomplete commands accepted from a ring. -/
def ringCmds (s : State) (r : Nat) : List Cmd := s.cmds.filter fun c => c.ring == r

/-- Slots of a CQ that are free (R279): neither written and unreleased nor reserved. -/
def cqFree (s : State) (q : Nat) : Nat :=
  let x := ringOf s q
  cqEntries x - (x.written + (s.cmds.filter fun c => c.cq == q).length)

/-! ## Host links, host memory, ingress memory -/

/-- A host link that is trained and whose bridge works. -/
def linkUp (s : State) (l : Nat) : Bool := (nth HostLink.down s.links l).trained

/-- The trained links. -/
def trainedLinks (s : State) : List Nat := (List.range 4).filter (linkUp s)

/-- The link for a preferred number: itself, else the lowest trained (R311, R507). -/
def linkFor (s : State) (l : Nat) : Option Nat := if linkUp s l then some l else (trainedLinks s).head?

/-- Do reads of a range of host memory succeed (R312)? -/
def hostOk (s : State) (a n : Nat) : Bool :=
  !(trainedLinks s).isEmpty && !(s.hostBad.any fun p => decide (p.1 < a + n ∧ a < p.1 + p.2))

/-- Bytes of host memory. -/
def hostBytes (s : State) (a n : Nat) : List Byte := memBytes s.host a n

/-- A read of host memory: none where it fails twice. -/
def hostRead (s : State) (a n : Nat) : Option (List Byte) := if n = 0 then some [] else
  if hostOk s a n then some (hostBytes s a n) else none

/-- Outputs written to host memory; with no link trained they wait (log entry 9). -/
def hostWrite (s : State) (a : Nat) (bs : List Byte) : State :=
  if (trainedLinks s).isEmpty then { s with unsent := s.unsent ++ [(a, bs)] }
  else { s with host := memStore s.host a bs }

/-- AER on the link that carried the second read of a failure (R312): the next trained link, or the same one. -/
def logAer (s : State) (r : Nat) : State :=
  match linkFor s (ringHome (ringOf s r)) with
  | none => s
  | some l =>
    let l2 := ((trainedLinks s).find? fun x => decide (l < x)).getD ((trainedLinks s).headD l)
    { s with links := modNth s.links l2 fun h => { h with aer := h.aer + 1 } }

/-- The bridge of a link's port. -/
def linkBridge (l : Nat) : Nat := if l < 2 then 0 else 1

/-- The size of a function's BAR2 window and its base in the ingress memory (R499, R500). -/
def bar2Size (fn : Nat) : Nat := if fn = 0 then 2 ^ 36 else 2 ^ 32
def bar2Base (fn : Nat) : Nat := if fn = 0 then 0 else (fn - 1) * 2 ^ 32

/-- A working bridge, if any. -/
def workingBridge (s : State) : Option Bridge := s.bridges.find? fun b => !b.failed

/-- Bytes of a function's ingress window; zeros where both bridges have failed (DESIGN CHOICE: R31 does not say what a step then
reads, log entry 103). -/
def bar2Bytes (s : State) (fn off n : Nat) : List Byte :=
  match workingBridge s with
  | some b => memBytes b.ingress (bar2Base fn + off) n
  | none => List.replicate n 0#8

/-! ## Streams -/

/-- A stream context. -/
def streamOf (s : State) (sid : Nat) : Stream := mapGet Stream.closed s.streams sid
/-- A stream context stored. -/
def setStream (s : State) (sid : Nat) (x : Stream) : State := { s with streams := mapIns s.streams sid x }

/-- Home and mirror of a stream (R226, R230): the pair the last re-homing fixed, else the ranks of the last homing with
lost chips replaced by their mirror, and both lost by the first active chip (log entry 11). -/
def homeOf (s : State) (sid : Nat) : Nat × Option Nat :=
  match s.homes.find? fun p => p.1 == sid with
  | some (_, h, m) => (h, m)
  | none =>
    let n := s.homing.length
    let h := nth 0 s.homing (sid % n)
    let m := nth 0 s.homing ((sid % n + 1) % n)
    if (chipOf s h).active then (h, if (chipOf s m).active && m != h then some m else none)
    else if (chipOf s m).active then (m, none)
    else ((activeChips s).headD h, none)

/-- A homing (R226): every stream's home by rank; every replay-window record is cleared (Table DET-10). The streams in `busy`
keep their home and mirror until their step has ended (R230). -/
def homingNow (s : State) (busy : List Nat) : State :=
  { s with
    homing := activeChips s
    homes := busy.map fun sid => (sid, (homeOf s sid).1, (homeOf s sid).2)
    moving := busy
    audited := [] }

/-- Contexts that a chip's SRAM holds at most: 512 KiB for each active core (R227). -/
def cacheRoom (s : State) (c : Nat) : Nat := 1024 * (activeCores s c).length

/-- The streams whose home a chip is. -/
def homeStreams (s : State) (c : Nat) : List Nat := (List.range 65536).filter fun sid => (homeOf s sid).1 == c

/-- The contexts a chip caches: all of its home contexts where they fit, else the most recently stepped (R227). -/
def cachedContexts (s : State) (c : Nat) : List Nat :=
  let mine := homeStreams s c
  if mine.length ≤ cacheRoom s c then mine
  else (((chipOf s c).stepped.filter fun sid => (homeOf s sid).1 == c).take (cacheRoom s c))

/-- The tokens the penalties count: the most recent min(HIST_COUNT, PENALTY_WINDOW). -/
def windowTokens (st : Stream) : List Nat := st.hist.drop (st.hist.length - min st.hist.length st.window)

/-- Sorted tokens counted. -/
def countRuns : Nat → List Nat → List (Nat × Nat)
  | 0, _ => []
  | _, [] => []
  | n + 1, t :: rest =>
    let same := rest.takeWhile fun x => x == t
    (t, same.length + 1) :: countRuns n (rest.drop same.length)

/-- The count table of a token list. -/
def countTable (ts : List Nat) : List (Nat × Nat) := countRuns ts.length (sortBy (fun a b => decide (a < b)) ts)

/-- Tokens appended to a history: the oldest dropped above 4,096 (R242, R243). -/
def appendTokens (st : Stream) (ts : List Nat) : Stream :=
  if !st.histValid then st
  else
    let h := st.hist ++ ts
    { st with hist := h.drop (h.length - min h.length 4096), histHead := (st.histHead + ts.length) % 4096 }

/-! ## Ledger (R406, R407) -/

/-- Is a ledger copy valid (R406)? -/
def Ledger.valid (l : Ledger) : Bool := l.version == 1 && l.checkOk

/-- The ledger copy in use (R406). -/
def ledgerNow (s : State) : Ledger :=
  let a := s.vault.ledgerA
  let b := s.vault.ledgerB
  if a.valid && (!b.valid || decide (b.seq ≤ a.seq)) then a else b

/-- A ledger written into the copy that does not hold the higher SEQUENCE, one above it. -/
def writeLedger (s : State) (entries : List LedgerEntry) (bringUps : Nat) : State :=
  let a := s.vault.ledgerA
  let b := s.vault.ledgerB
  let cur := ledgerNow s
  let new : Ledger := ⟨1, true, cur.seq + 1, bringUps, entries⟩
  if a.valid && (!b.valid || decide (b.seq ≤ a.seq)) then { s with vault := { s.vault with ledgerB := new } }
  else { s with vault := { s.vault with ledgerA := new } }

/-- The ledger write in progress, with the entries it adds; it is complete within 5 ms (R407). -/
def markWrite (s : State) (es : List LedgerEntry) : State :=
  let old := match s.ledgerWrite with
    | some (d, l) => if s.now < d then l else []
    | none => []
  { s with ledgerWrite := some (s.now + ticksUs s 5000, old ++ es) }

/-- Entries that a rebuild adds: to both copies (R408). -/
def bothLedgers (s : State) (es : List LedgerEntry) : State :=
  let add (l : Ledger) : Ledger := { l with entries := l.entries ++ es }
  { s with vault := { s.vault with ledgerA := add s.vault.ledgerA, ledgerB := add s.vault.ledgerB } }

/-- Entries written (R407): into both copies while a rebuild goes on, else into the older one. -/
def writeEntries (s : State) (es : List LedgerEntry) : State :=
  if s.mgmt.rebuilt then bothLedgers s es
  else
    let cur := ledgerNow s
    writeLedger (markWrite s es) (cur.entries ++ es) cur.bringUps

/-- A field entry: written at once with its fault-log entry, or handed over when the TMC resumes (R404, R407). -/
def addLedger (s : State) (kind chip unit origin element replacement : Nat) : State :=
  let e : LedgerEntry := ⟨kind, chip, unit, origin, element, replacement, (ledgerNow s).bringUps⟩
  let s := logFault s 0x41 chip unit kind
  match s.deputy with
  | some _ => { s with deferred := s.deferred ++ [e] }
  | none => writeEntries s [e]

/-- The power of the TMC gone: a ledger write that was not yet done may have left its copy torn, and its entries wait for the
next bring-up, as do those that the TMC had not yet taken over (R407; log entry 93). -/
def cutWrite (s : State) : State :=
  match s.ledgerWrite with
  | some (d, es) =>
    if s.now < d && Config.writeCut s.freeCtr then
      let tear (mine other : Ledger) : Ledger := if mine.seq < other.seq then mine else { mine with checkOk := false }
      let a := s.vault.ledgerA
      let b := s.vault.ledgerB
      { s with
        freeCtr := s.freeCtr + 1, ledgerWrite := none
        vault := { s.vault with ledgerA := tear a b, ledgerB := tear b a, torn := s.vault.torn ++ es } }
    else { s with freeCtr := s.freeCtr + 1, ledgerWrite := none }
  | none => s

/-- The entries that a power loss cut short, written at the next bring-up from the fault log (R407). -/
def writeTorn (s : State) : State :=
  if s.vault.torn.isEmpty then s
  else
    let es := s.vault.torn
    writeEntries { s with vault := { s.vault with torn := [] } } es

/-! ## Commands -/

/-- An accepted command by number. -/
def cmdOf (s : State) (id : Nat) : Option Cmd := s.cmds.find? fun c => c.id == id

/-- A command changed. -/
def setCmd (s : State) (id : Nat) (f : Cmd → Cmd) : State :=
  { s with cmds := s.cmds.map fun c => if c.id == id then f c else c }

/-- A field of a command's packet. -/
def pkt (c : Cmd) (off n : Nat) : Nat := fieldAt c.packet off n
/-- OPCODE, TAG, DEADLINE, PARAM_ADDR, PARAM_LEN, MODEL_ID of a command. -/
def pktOp (c : Cmd) : Nat := pkt c 0 1
def pktTag (c : Cmd) : Nat := pkt c 4 4
def pktDeadline (c : Cmd) : Nat := pkt c 8 8
def pktParam (c : Cmd) : Nat := pkt c 0x10 8
def pktParamLen (c : Cmd) : Nat := pkt c 0x18 4
def pktModel (c : Cmd) : Nat := pkt c 0x1C 1
def pktAbortOnLate (c : Cmd) : Bool := bit (pkt c 1 1) 0
def pktIrqSuppress (c : Cmd) : Bool := bit (pkt c 1 1) 1

/-- The parameter block of a command. -/
def paramBytes (s : State) (c : Cmd) : List Byte := hostBytes s (pktParam c) (pktParamLen c)

/-- A status of the first two groups of R291. -/
def isFailure (st : Nat) : Bool := decide (0x20 ≤ st) || st == 0x12

/-- A command ended by a status of the second group: commits discarded, its record still to be written. -/
def endCmd (s : State) (id status detail : Nat) (fixed : Option Tick) : State :=
  setCmd s id fun c =>
    { c with phase := .executed, status := status, detail := detail, commits := [], fixed := fixed, reserved := [] }

/-- Is an opcode a step command? -/
def isStepOp (op : Nat) : Bool := decide (0x30 ≤ op ∧ op ≤ 0x34)
/-- Is an opcode a tensor operator (Table FLT-7 counts RING_JUMP apart)? -/
def isTensorOp (op : Nat) : Bool := decide (0x40 ≤ op ∧ op ≤ 0x46)
/-- The opcodes that can be aborted only while held (R301). -/
def onlyHeldAbort (op : Nat) : Bool :=
  decide (0x10 ≤ op ∧ op ≤ 0x12) || decide (0x20 ≤ op ∧ op ≤ 0x25) || [0x50, 0x51, 0x64, 0x70, 0x71].contains op

/-- The started command of a number, of an opcode. -/
def startedCmd (s : State) (id op : Nat) : Option Cmd :=
  match cmdOf s id with
  | some c => if c.phase == .started && pktOp c == op then some c else none
  | none => none

/-- A command's body has run: status 0 (or the status and DETAIL given), flags of COMPL_FLAGS added, commits staged. -/
def finishCmd (s : State) (id status detail cflags : Nat) (commits : List Commit) : State :=
  setCmd s id fun c =>
    { c with
      phase := .executed, status := status, detail := detail, cflags := c.cflags ||| cflags, commits := commits }

/-- One free value taken: the count that numbers the free choices of a run goes up. -/
def nextFree (s : State) : State := { s with freeCtr := s.freeCtr + 1 }

end Sys2Proof.Machine
end

