-- ==== Sys2Proof/Machine/Operands.lean ====
section
/-! DEFINITION. Operand forms: fields of packets and parameter blocks, their ranges, and the byte layouts of contexts,
images and mask specifications. A check is a list of (byte offset, holds) pairs in ascending offset; the first that fails
gives DETAIL (Table CMD-12). -/

namespace Sys2Proof.Machine

/-- The first offending offset: the lowest. -/
def firstBad (l : List (Nat × Bool)) : Option Nat :=
  match (l.filter fun p => !p.2).map fun p => p.1 with
  | [] => none
  | o :: os => some (os.foldl min o)

/-- The 64-byte lines, lists and blocks the manual wants aligned. -/
def aligned (n a : Nat) : Bool := a % n == 0

/-- Are the bytes [lo, hi) of a block zero? One check at the field's offset (R13). -/
def zeroField (bs : List Byte) (lo hi : Nat) : Nat × Bool := (lo, (slice bs lo (hi - lo)).all fun b => b == 0#8)

/-- DETAIL for no single location. -/
def noLocation : Nat := 0xFFFFFFFF
/-- DETAIL for a place in the parameter block or a referenced list. -/
def inBlock (off : Nat) : Nat := 2 ^ 31 + off

/-! ## FP32 ranges -/

/-- lo ≤ x ≤ hi, which no NaN satisfies. -/
def within32 (lo hi x : Word) : Bool := fle lo x && fle x hi
/-- ±0.0, or within a range. -/
def zeroOr (lo hi x : Word) : Bool := isZero32 x || within32 lo hi x
/-- (0.0, 1.0]. -/
def unitRange (x : Word) : Bool := flt 0#32 x && fle x one32
/-- +0.0, or finite and nonzero (LOGIT_SCALE, SCALE). -/
def scaleOk (x : Word) : Bool := x == 0#32 || (!isNan32 x && !isInf32 x && !isZero32 x)
/-- +0.0 stands for a default. -/
def orElse (d x : Word) : Word := if x = 0#32 then d else x
/-- −0.0 stored as +0.0 (R235). -/
def posZero (x : Word) : Word := if isZero32 x then 0#32 else x

/-! ## MASK_SPEC (Table STRM-5, R245, R246) -/

def specBank (m j : Nat) : Nat := bits m (12 * j + 11) (12 * j)
def specCount (m : Nat) : Nat := bits m 50 48
def specOp (m j : Nat) : Nat := bits m (50 + 2 * j) (49 + 2 * j)
def specStep (m : Nat) : Nat := bits m 58 57
def specSrc (m : Nat) : Nat := bits m 60 59
/-- The bank entries a specification names. -/
def specBanks (m : Nat) : List Nat := (List.range (min 4 (specCount m))).map (specBank m)

/-- Fields in range and fields beyond BANK_COUNT zero. -/
def specFields (m : Nat) : Bool :=
  decide (specCount m ≤ 4) && bits m 63 61 == 0 &&
  ((List.range 4).all fun j => decide (j < specCount m) || specBank m j == 0) &&
  ([1, 2, 3].all fun j => if j < specCount m then decide (specOp m j < 3) else specOp m j == 0)

/-- A specification in a context. -/
def ctxSpecOk (m : Nat) : Bool := specFields m && specSrc m == 0 && specStep m == 0

/-- A specification in a command. -/
def cmdSpecOk (m : Nat) : Bool :=
  match specSrc m with
  | 0 => m == 0
  | 1 => specFields m
  | 2 => m == 2 ^ 60
  | _ => false

/-- The specification in force: the context's, the command's own, or none. -/
def specInForce (ctxSpec m : Nat) : Nat := match specSrc m with | 0 => ctxSpec | 1 => m | _ => 0

/-- a OP b for allow-masks of n bits. -/
def maskOp (n op a b : Nat) : Nat :=
  match op with
  | 0 => a &&& b
  | 1 => a ||| b
  | _ => a &&& (b ^^^ (2 ^ n - 1))

/-- The combined allow-mask over n indices (R246); none where no bank and no bitmap is named. -/
def combinedMask (banks : Nat → Nat) (spec n bitmap : Nat) : Option Nat :=
  if specCount spec = 0 && specStep spec = 0 then none
  else
    let all := 2 ^ n - 1
    let bank (j : Nat) : Nat := banks (specBank spec j) % 2 ^ n
    let m0 := if specCount spec = 0 then all else bank 0
    let m1 := [1, 2, 3].foldl (fun m j => if j < specCount spec then maskOp n (specOp spec j) m (bank j) else m) m0
    some (if specStep spec = 0 then m1 else maskOp n (specStep spec - 1) m1 (bitmap % 2 ^ n))

/-! ## Contexts as bytes (Tables STRM-2, STRM-7) -/

/-- A bias list as bytes (R240). -/
def biasBytes (l : List (Nat × Word)) : List Byte := l.flatMap fun (i, w) => leBytes 4 i ++ leBytes 4 w.toNat

/-- A bias list read from bytes. -/
def parsePairs (bs : List Byte) (n : Nat) : List (Nat × Word) :=
  (List.range n).map fun i => (fieldAt bs (8 * i) 4, BitVec.ofNat 32 (fieldAt bs (8 * i + 4) 4))

/-- The 512 bytes of a context with CTX_CHECK (R234). -/
def ctxBytes (sid : Nat) (st : Stream) : List Byte :=
  let b := leBytes 16 st.seed.toNat ++ leBytes 6 st.step ++ leBytes 2 sid ++
    leBytes 1 (b2n st.isOpen + 2 * b2n st.histValid + 4 * b2n st.ringBound) ++ leBytes 1 st.modes ++
    leBytes 2 st.window ++ leBytes 4 st.topK ++ leBytes 4 st.temp.toNat ++ leBytes 4 st.minP.toNat ++
    leBytes 4 st.topP.toNat ++ leBytes 4 st.softCap.toNat ++ leBytes 4 st.rep.toNat ++ leBytes 4 st.pres.toNat ++
    leBytes 4 st.freq.toNat ++ leBytes 2 st.bias.length ++ leBytes 2 st.hist.length ++ leBytes 8 st.maskSpec ++
    leBytes 16 st.ring.toNat ++ leBytes 2 st.histHead ++ leBytes 6 0 ++ leBytes 8 st.userTag ++ leBytes 404 0
  b ++ leBytes 4 (crc32c b)

/-- An FP32 field. -/
def word32 (bs : List Byte) (off : Nat) : Word := BitVec.ofNat 32 (fieldAt bs off 4)
/-- A 128-bit field. -/
def qword (bs : List Byte) (off : Nat) : Qword := BitVec.ofNat 128 (fieldAt bs off 16)

/-- A context read from its 512 bytes, with the bias list and history given. -/
def parseCtx (bs : List Byte) (bias : List (Nat × Word)) (hist : List Nat) : Stream :=
  let fl := fieldAt bs 0x18 1
  { seed := qword bs 0, step := fieldAt bs 0x10 6, isOpen := bit fl 0, histValid := bit fl 1, ringBound := bit fl 2
    modes := fieldAt bs 0x19 1, window := fieldAt bs 0x1A 2, topK := fieldAt bs 0x1C 4, temp := word32 bs 0x20
    minP := word32 bs 0x24, topP := word32 bs 0x28, softCap := word32 bs 0x2C, rep := word32 bs 0x30
    pres := word32 bs 0x34, freq := word32 bs 0x38, bias := bias, maskSpec := fieldAt bs 0x40 8, ring := qword bs 0x48
    userTag := fieldAt bs 0x60 8, hist := hist, histHead := fieldAt bs 0x58 2 }

/-- The 18,960 bytes of a stream image (R249, Table STRM-7). -/
def imageBytes (sid : Nat) (st : Stream) (withHistory : Bool) : List Byte :=
  let st' := if withHistory then { st with histHead := st.hist.length % 4096 }
    else { st with hist := [], histHead := 0, histValid := false }
  let b := ctxBytes sid st' ++ padTo 2048 (biasBytes st'.bias) ++ padTo 16384 (st'.hist.flatMap (leBytes 4))
  b ++ leBytes 4 (crc32c b) ++ leBytes 12 0

/-! ## Stream parameters (Tables STRM-3, GILL-2, DET-11) -/

/-- NUM_MODE, FLUSH_MODE and NZ_MODE codes in a MODES byte. -/
def modesNum (m : Nat) : Nat := bits m 0 0
def modesFlush (m : Nat) : Nat := bits m 2 1
def modesNz (m : Nat) : Nat := bits m 4 3
def modesCompat (m : Nat) : Bool := bit m 5
def modesCut (m : Nat) : Nat := bits m 7 6

/-- MODES bits [4:0] after the substitution of R84. -/
def substModes (m : Nat) (numDflt : Bool) (w : Word) : Nat :=
  let num := if numDflt then modeNum w else modesNum m
  let fl := if modesFlush m = 0 then modeFlush w else modesFlush m
  let nz := if modesNz m = 0 then modeNz w else modesNz m
  num + 2 * fl + 8 * nz

/-- STRICT with FLUSH_MODE ON (R84). -/
def strictOn (m : Nat) : Bool := modesNum m == 1 && modesFlush m == 2

/-- The settings of a MODES byte resolved (Table FMT-3). -/
def modesOf (m : Nat) : Modes := resolveModes (modesNum m) (modesFlush m) (modesNz m)

/-- The mode pair of R84 and the limits of Table DET-11 on a context, each at the offset of the field it limits, or at MODES
where the block does not set that field. -/
def limitChecks (st : Stream) (sel : Nat → Bool) : List (Nat × Bool) :=
  let free := !modesCompat st.modes
  let at4 (o : Nat) : Nat := if sel 4 then o else 0x19
  [(0x19, !strictOn st.modes && (free || (modesOf st.modes == iv1Modes && modesCut st.modes == 0))),
   (at4 0x1C, free || decide (1 ≤ st.topK ∧ st.topK ≤ 1024)), (at4 0x24, free || isZero32 st.minP),
   (if sel 5 then 0x2C else 0x19, free || isZero32 st.softCap)]

/-- The parameter checks of a block by UPDATE_MASK bit: `sel b` tells whether bit b's fields are set (Table STRM-3). -/
def paramChecks (bs : List Byte) (sel : Nat → Bool) : List (Nat × Bool) :=
  let m := fieldAt bs 0x19 1
  let f (off : Nat) : Word := word32 bs off
  let on (b : Nat) (ok : Bool) : Bool := !sel b || ok
  [(0x19, on 2 (modesFlush m != 3 && modesNz m != 3) && on 4 (modesCut m != 3)),
   (0x1A, on 6 (decide (1 ≤ fieldAt bs 0x1A 2 ∧ fieldAt bs 0x1A 2 ≤ 4096))),
   (0x1C, on 4 (decide (fieldAt bs 0x1C 4 ≤ 65536))),
   (0x20, on 3 (zeroOr 0x3B800000#32 0x43800000#32 (f 0x20))),
   (0x24, on 4 (isZero32 (f 0x24) || unitRange (f 0x24))),
   (0x28, on 4 (unitRange (f 0x28))),
   (0x2C, on 5 (zeroOr 0x3B800000#32 0x47800000#32 (f 0x2C))),
   (0x30, on 6 (within32 0x3D800000#32 0x41800000#32 (f 0x30))),
   (0x34, on 6 (within32 0xC2800000#32 0x42800000#32 (f 0x34))),
   (0x38, on 6 (within32 0xC2800000#32 0x42800000#32 (f 0x38))),
   (0x3C, on 7 (decide (fieldAt bs 0x3C 2 ≤ 256))),
   (0x40, on 8 (ctxSpecOk (fieldAt bs 0x40 8)))]

/-- A stream with the selected fields of a block (R236, R237); `bias` is the list read at BIAS_ADDR. -/
def applyParams (st : Stream) (bs : List Byte) (sel : Nat → Bool) (w : Word) (bias : List (Nat × Word)) : Stream :=
  let m := fieldAt bs 0x19 1
  let st := if sel 0 then { st with seed := qword bs 0 } else st
  let st := if sel 1 then { st with step := fieldAt bs 0x10 6 } else st
  let st := if sel 2 then
      { st with modes := substModes m (bit (fieldAt bs 0x6C 1) 0) w + 32 * b2n (modesCompat m) +
                  64 * modesCut st.modes }
    else st
  let st := if sel 3 then { st with temp := posZero (word32 bs 0x20) } else st
  let st := if sel 4 then
      { st with topK := fieldAt bs 0x1C 4, minP := word32 bs 0x24, topP := word32 bs 0x28
                modes := st.modes % 64 + 64 * modesCut m }
    else st
  let st := if sel 5 then { st with softCap := posZero (word32 bs 0x2C) } else st
  let st := if sel 6 then
      { st with rep := word32 bs 0x30, pres := posZero (word32 bs 0x34), freq := posZero (word32 bs 0x38)
                window := fieldAt bs 0x1A 2 }
    else st
  let st := if sel 7 then { st with bias := bias } else st
  let st := if sel 8 then { st with maskSpec := fieldAt bs 0x40 8 } else st
  let st := if sel 9 then
      { st with ring := qword bs 0x48, ringBound := decide (qword bs 0x48 ≠ 0#128) }
    else st
  if sel 10 then { st with userTag := fieldAt bs 0x60 8 } else st

/-- The stream an OPEN_STREAM block makes (R237): every field, OPEN and HISTORY_VALID, an empty history. -/
def openedStream (bs : List Byte) (w : Word) (bias : List (Nat × Word)) : Stream :=
  { applyParams Stream.closed bs (fun _ => true) w bias with isOpen := true, histValid := true }

/-- The fields SET_STREAM_PARAMS selects. -/
def selOf (bs : List Byte) : Nat → Bool := bit (fieldAt bs 0x68 4)

/-- The checks of a 128-byte stream parameter block (R236, R237). -/
def blockChecks (bs : List Byte) (sel : Nat → Bool) : List (Nat × Bool) :=
  let pc := paramChecks bs sel
  let numDflt := bit (fieldAt bs 0x6C 1) 0
  let m := fieldAt bs 0x19 1
  [zeroField bs 0x16 0x18, zeroField bs 0x18 0x19] ++
  (match pc with
   | (o, ok) :: rest => (o, ok && (!sel 2 || !(numDflt && modesNum m == 1))) :: rest
   | [] => []) ++
  [zeroField bs 0x3E 0x40] ++
  [(0x40, bits (fieldAt bs 0x40 8) 63 61 == 0), zeroField bs 0x58 0x5A, zeroField bs 0x5A 0x60,
   (0x68, bits (fieldAt bs 0x68 4) 31 11 == 0), (0x6C, bits (fieldAt bs 0x6C 1) 7 1 == 0), zeroField bs 0x6D 0x70,
   (0x70, !sel 7 || aligned 8 (fieldAt bs 0x70 8)), zeroField bs 0x78 0x80]

/-- A bias list (R240): the first offending offset in it. -/
def biasBad (l : List (Nat × Word)) : Option Nat :=
  firstBad ((withIndex l).flatMap fun (j, (i, v)) =>
    [(8 * j, decide (i < 4194304) && (j == 0 || decide ((nth (0, 0#32) l (j - 1)).1 < i))),
     (8 * j + 4, v == ninf32 || within32 0xC7800000#32 0x47800000#32 v)])

/-- The checks of a stream image (R250): the first failing field's offset. -/
def imageChecks (bs : List Byte) : List (Nat × Bool) :=
  let fl := fieldAt bs 0x18 1
  let nb := fieldAt bs 0x3C 2
  let nh := fieldAt bs 0x3E 2
  let bias := parsePairs (slice bs 0x200 2048) nb
  let st := parseCtx (bs.take 512) bias []
  let biasOff := (biasBad bias).getD 0
  [(0x18, bit fl 0 && bits fl 7 3 == 0)] ++ paramChecks bs (fun _ => true) ++ limitChecks st (fun _ => true) ++
  [(0x3E, decide (nh ≤ 4096)),
   (0x58, decide (fieldAt bs 0x58 2 < 4096)), zeroField bs 0x5A 0x60, zeroField bs 0x68 0x1FC,
   (0x1FC, fieldAt bs 0x1FC 4 == crc32c (bs.take 0x1FC)), (0x200 + biasOff, (biasBad bias).isNone),
   (0x4A00, fieldAt bs 0x4A00 4 == crc32c (bs.take 0x4A00)), zeroField bs 0x4A04 0x4A10]

/-- The stream an image holds. -/
def imageStream (bs : List Byte) : Stream :=
  let nh := fieldAt bs 0x3E 2
  parseCtx (bs.take 512) (parsePairs (slice bs 0x200 2048) (fieldAt bs 0x3C 2))
    ((List.range nh).map fun i => fieldAt bs (0xA00 + 4 * i) 4)

/-- A context with −0.0 stored as +0.0 in the four fields of R235. -/
def plusZeros (st : Stream) : Stream :=
  { st with temp := posZero st.temp, softCap := posZero st.softCap, pres := posZero st.pres, freq := posZero st.freq }

/-- The stream that RESTORE_STREAM installs (R235, R250). -/
def restoredStream (bs : List Byte) : Stream := plusZeros (imageStream bs)

/-! ## Model descriptors (Table MODEL-1, R253, R254, R261) -/

/-- The element format of a code of Table OPS-4. -/
def fmtAt : Nat → Fmt
  | 0 => .fp32 | 1 => .bf16 | 2 => .fp16 | 3 => .e4m3 | 4 => .e5m2 | _ => .e2m1

def dFmt (d : List Byte) : Fmt := fmtAt (fieldAt d 1 1)
def dBlock (d : List Byte) : Nat := fieldAt d 2 1
def dHidden (d : List Byte) : Nat := fieldAt d 4 4
def dVocab (d : List Byte) : Nat := fieldAt d 8 4
def dHasBias (d : List Byte) : Bool := bit (fieldAt d 0x15 1) 0
def dHasNormW (d : List Byte) : Bool := bit (fieldAt d 0x15 1) 1
def dOverhangOk (d : List Byte) : Bool := bit (fieldAt d 0x15 1) 2
def dHeads (d : List Byte) : Nat := fieldAt d 0x16 1
/-- ROW_BYTES of R254. -/
def dRowBytes (d : List Byte) : Nat := rowBytes (dFmt d) (dBlock d) (dHidden d)

/-- The checks of a descriptor but for MODEL_ID and the frequency table (R253). -/
def descChecks (d : List Byte) : List (Nat × Bool) :=
  let f (o : Nat) : Nat := fieldAt d o 8
  let req (b : Bool) (o : Nat) : Bool := if b then f o != 0 && aligned 64 (f o) else f o == 0
  let hid := dHidden d
  let eps := word32 d 0x10
  let oh := dOverhangOk d
  [(0x01, decide (fieldAt d 1 1 ≤ 5)),
   (0x02, decide (dBlock d ≤ 2) && (decide (5 < fieldAt d 1 1) || blockAllowed (dFmt d) (dBlock d))),
   (0x03, decide (fieldAt d 3 1 ≤ 2)),
   (0x04, decide (64 ≤ hid ∧ hid ≤ 32768) && aligned 64 hid),
   (0x08, decide (1 ≤ dVocab d)),
   (0x0C, scaleOk (word32 d 0x0C)),
   (0x10, eps == 0#32 || (scaleOk eps && !sign32 eps)),
   (0x14, decide (fieldAt d 0x14 1 ≤ 15)),
   (0x15, bits (fieldAt d 0x15 1) 7 3 == 0 && !(dHasNormW d && fieldAt d 3 1 == 0)),
   (0x16, decide (dHeads d ≤ 4)), zeroField d 0x17 0x18,
   (0x18, req true 0x18), (0x20, req (dHasBias d) 0x20), (0x28, req (dHasNormW d) 0x28),
   (0x30, req (dHeads d != 0) 0x30), (0x38, req (dHeads d != 0) 0x38),
   (0x40, if oh then f 0x40 != 0 && aligned 4096 (f 0x40) else f 0x40 == 0),
   (0x48, if oh then f 0x48 != 0 && aligned 4096 (f 0x48) else f 0x48 == 0), zeroField d 0x50 0x80]

/-- Granule bytes, replicated bytes, granules of a model (R261). -/
def granuleBytes (d : List Byte) : Nat := 512 * (dRowBytes d + 4 * b2n (dHasBias d))
def replicatedBytes (d : List Byte) : Nat :=
  4 * dHidden d * b2n (dHasNormW d) + dHeads d * dHidden d * dRowBytes d + (if dHeads d = 0 then 0 else 2 * dHidden d)
def granules (d : List Byte) : Nat := ceilDiv (dVocab d) 512

/-- alloc(r_res) on n ranks (R261). -/
def allocBytes (d : List Byte) (n r : Nat) : Nat :=
  roundUp ((r + ceilDiv r (n - 1)) * granuleBytes d + replicatedBytes d) (2 * 2 ^ 20)

/-- R, the granule rows of a model on n ranks. -/
def granuleRows (d : List Byte) (n : Nat) : Nat := ceilDiv (granules d) n

/-- The overhang in bytes for r resident rows (R266). -/
def overhangBytes (d : List Byte) (n r : Nat) : Nat := (granules d - min (granules d) (r * n)) * granuleBytes d

/-- The largest r ≤ top with alloc(r) ≤ free. -/
def largestFit (d : List Byte) (n free : Nat) : Nat → Option Nat
  | 0 => if allocBytes d n 0 ≤ free then some 0 else none
  | r + 1 => if allocBytes d n (r + 1) ≤ free then some (r + 1) else largestFit d n free r

/-- The overhang test of R266 for r resident rows. -/
def overhangTest (d : List Byte) (n r : Nat) : Bool :=
  let o := overhangBytes d n r
  dOverhangOk d && decide (o ≤ fieldAt d 0x48 8) && decide (25 * o ≤ 2 * n * allocBytes d n (granuleRows d n))

/-! ## The tensor header (Table OPS-3) -/

/-- A tensor operator's header. -/
structure THdr where
  rows : Nat
  len : Nat
  inFmt : Nat
  inBlock : Nat
  outFmt : Nat
  outBlock : Nat
  modes : Nat
  tier : Nat
  flags : Nat
  src : Nat
  inAddr : Nat
  inStride : Nat
  outAddr : Nat
  outStride : Nat
  aux : Nat
  deriving DecidableEq, Repr

/-- The header of a block. -/
def parseHdr (b : List Byte) : THdr :=
  ⟨fieldAt b 0 4, fieldAt b 4 4, fieldAt b 8 1, fieldAt b 9 1, fieldAt b 0xA 1, fieldAt b 0xB 1, fieldAt b 0xC 1,
    fieldAt b 0xD 1, fieldAt b 0xE 1, fieldAt b 0xF 1, fieldAt b 0x10 8, fieldAt b 0x18 8, fieldAt b 0x20 8,
    fieldAt b 0x28 8, fieldAt b 0x30 8⟩

/-- The modes of an operator (R318): its own, or MODE_CTRL's. -/
def hdrModes (h : THdr) (w : Word) : Nat :=
  if bit h.modes 6 then modeNum w + 2 * modeFlush w + 8 * modeNz w else h.modes % 32

/-- ROW_BYTES of an operator row (R317); U32 rows have 32-bit elements. -/
def opRowBytes (code block len : Nat) : Nat := if code = 6 then 4 * len else rowBytes (fmtAt code) block len

/-- A format and block code an operator takes: codes up to `top`, blocks as R76 allows or none at all. -/
def fmtBlockOk (top : Nat) (blocks : Bool) (code block : Nat) : Bool × Bool :=
  (decide (code ≤ top), if blocks then decide (block ≤ 2) && (decide (5 < code) || blockAllowed (fmtAt code) block)
    else block == 0)

end Sys2Proof.Machine
end

