-- ==== Sys2Proof/Machine/Validate.lean ====
section
/-! DEFINITION. What the dispatcher checks at acceptance (R281 to R285, R287, R291, and the rules of the commands'
owners): the status of the first group of R291, or a read of host memory that fails twice (R312). -/

namespace Sys2Proof.Machine

/-- A packet being validated: the issuing function, the ring, the bytes, MODE_CTRL at that tick. -/
structure Req where
  fn : Nat
  ring : Nat
  p : List Byte
  mode : Word
  deriving DecidableEq, Repr

def Req.op (q : Req) : Nat := fieldAt q.p 0 1
def Req.f (q : Req) (off n : Nat) : Nat := fieldAt q.p off n
/-- STREAM_COUNT, PARAM_ADDR, PARAM_LEN, MODEL_ID. -/
def Req.count (q : Req) : Nat := q.f 2 2
def Req.addr (q : Req) : Nat := q.f 0x10 8
def Req.plen (q : Req) : Nat := q.f 0x18 4
def Req.model (q : Req) : Nat := q.f 0x1C 1

/-- What validation finds; each field is a DETAIL where the status applies. -/
structure Found where
  badOp : Bool
  bad : Option Nat
  forbidden : Bool
  long : Option Nat
  suspended : Bool
  power : Bool
  fault : Option Nat
  deriving DecidableEq, Repr

/-- Nothing found. -/
def Found.none : Found := ⟨false, Option.none, false, Option.none, false, false, Option.none⟩

/-- The verdict: the first status of R291 with its DETAIL; 0 for a command that may run. -/
def verdict (op : Nat) (x : Found) : Nat × Nat :=
  if x.badOp then (0x21, op)
  else match x.bad with
    | some d => (0x20, d)
    | none =>
      if x.forbidden then (0x22, 0)
      else match x.long with
        | some d => (0x12, d)
        | none =>
          if x.suspended then (0x31, 0)
          else if x.power then (0x32, 0)
          else match x.fault with
            | some d => (0x23, d)
            | none => (0, 0)

/-! ## Opcodes (Table CMD-7) -/

/-- The opcodes that are not reserved. -/
def opKnown (op : Nat) : Bool :=
  [1, 2, 0x7F].contains op || decide (0x10 ≤ op ∧ op ≤ 0x12) || decide (0x20 ≤ op ∧ op ≤ 0x25) || isStepOp op ||
  decide (0x40 ≤ op ∧ op ≤ 0x47) || [0x50, 0x51].contains op || decide (0x60 ≤ op ∧ op ≤ 0x64) ||
  decide (0x70 ≤ op ∧ op ≤ 0x73)

/-- The opcodes marked PF only (R302). -/
def opPfOnly (op : Nat) : Bool := decide (0x10 ≤ op ∧ op ≤ 0x12) || [0x50, 0x51, 0x64, 0x70, 0x71, 0x72].contains op

/-- Does a step command take score rows (R43, R315)? -/
def takesScores (q : Req) : Bool := q.op == 0x31 || (q.op == 0x34 && bit (q.f 0x29 1) 1)

/-- The commands POWER_NOT_READY rejects (R443). -/
def needsPower (op : Nat) : Bool := isStepOp op || (decide (0x20 ≤ op ∧ op ≤ 0x25) && op != 0x24)

/-- The parameter-block length an opcode requires (R282). -/
def paramNeed (q : Req) : Nat :=
  let op := q.op
  if isStepOp op then q.count * 64
  else if isTensorOp op || op = 0x10 || op = 0x20 || op = 0x22 then 128
  else match op with
    | 0x23 => 4 * q.f 0x24 4
    | 0x24 | 0x25 => 18960
    | 0x47 | 0x51 | 0x63 => 32
    | 0x60 | 0x61 => 64
    | 0x62 | 0x64 => 16
    | _ => 0

/-! ## Models a command names -/

/-- The descriptor of an accepted LOAD_MODEL of a model that is not complete, newest first. -/
def pendingLoad (s : State) (mid : Nat) : Option (List Byte) :=
  ((s.cmds.filter fun c => pktOp c == 0x10 && pktModel c == mid && !isFailure c.status).getLast?).map fun c =>
    paramBytes s c

/-- A model held by the tray. -/
def modelOf (s : State) (mid : Nat) : Option Model := (s.models.find? fun p => p.1 == mid).map fun p => p.2

/-- The descriptor a command accepted now is checked against. -/
def descNow (s : State) (mid : Nat) : Option (List Byte) :=
  match pendingLoad s mid with
  | some d => some d
  | none => (modelOf s mid).map fun m => m.desc

/-- Is a model suspended, with no load under way? -/
def isSuspended (s : State) (mid : Nat) : Bool :=
  (pendingLoad s mid).isNone && (match modelOf s mid with | some m => m.state == 4 | none => false)

/-- Does a packet's MODEL_ID name a model that must exist? -/
def namesModel (q : Req) : Bool :=
  [0x11, 0x12, 0x30, 0x32, 0x33].contains q.op || (q.op == 0x34 && !takesScores q)

/-! ## Streams a command names -/

/-- May a function name a stream (R308)? -/
def streamInRange (s : State) (fn sid : Nat) : Bool :=
  fn == 0 || (let v := vfOf s (fn - 1); decide (v.streamBase.toNat % 65536 ≤ sid) &&
    decide (sid < v.streamBase.toNat % 65536 + v.streamCount.toNat % 131072))

/-- An open stream the function may name. -/
def openFor (s : State) (fn sid : Nat) : Bool := streamInRange s fn sid && (streamOf s sid).isOpen

/-- The length that an accepted LOAD_MASK, not yet complete, is to give a bank entry; the newest one's (R248). -/
def pendingMask (s : State) (b : Nat) : Option Nat :=
  ((s.cmds.filter fun c => pktOp c == 0x51 && !isFailure c.status && fieldAt (paramBytes s c) 0 2 == b).getLast?).map
    fun c => fieldAt (paramBytes s c) 4 4

/-- The length of a bank entry as a command accepted now will see it (R248). -/
def maskLenNext (s : State) (b : Nat) : Nat := (pendingMask s b).getD (mapGet ⟨0, 0⟩ s.masks b).len

/-- The bank entries a specification names will hold something for a command accepted now (R246, R248). -/
def banksLoaded (s : State) (spec : Nat) : Bool := (specBanks spec).all fun b => decide (0 < maskLenNext s b)

/-- The bank entries a specification names hold something as a command runs (R246). -/
def banksHeld (s : State) (spec : Nat) : Bool :=
  (specBanks spec).all fun b => decide (0 < (mapGet ⟨0, 0⟩ s.masks b).len)

/-! ## The packet -/

/-- The operands of the commands of Tables CMD-2 and CMD-3 by opcode. -/
def operandChecks (s : State) (q : Req) : List (Nat × Bool) :=
  let f := q.f
  let z (a b : Nat) : Nat × Bool := zeroField q.p a b
  let sid := f 0x20 2
  match q.op with
  | 0x20 => [(0x20, streamInRange s q.fn sid && !(streamOf s sid).isOpen), z 0x22 0x40]
  | 0x22 | 0x21 => [(0x20, openFor s q.fn sid), z 0x22 0x40]
  | 0x23 => [(0x20, openFor s q.fn sid),
      (0x22, decide (f 0x22 1 ≤ 1) && (f 0x22 1 == 0 || (streamOf s sid).histValid)), z 0x23 0x24,
      (0x24, decide (f 0x24 4 ≤ 4096)), z 0x28 0x40]
  | 0x24 => [(0x20, openFor s q.fn sid), (0x22, bits (f 0x22 1) 7 1 == 0), z 0x23 0x40]
  | 0x25 => [(0x20, streamInRange s q.fn sid && !(streamOf s sid).isOpen), z 0x22 0x40]
  | 0x12 => [(0x20, decide (f 0x20 1 ≤ 15)), z 0x21 0x40]
  | 0x02 => [(0x20, decide (f 0x20 1 ≤ 1)), z 0x21 0x40]
  | 0x7F => [(0x20, (trayRing s q.fn sid).isSome), (0x22, decide (f 0x22 1 ≤ 2)), z 0x23 0x24,
      (0x24, f 0x22 1 == 0 || f 0x24 4 == 0), z 0x28 0x40]
  | 0x70 =>
    let m := f 0x20 4
    let v := f 0x24 4
    let sel (hi lo : Nat) : Bool := bits m hi lo == 2 ^ (hi + 1 - lo) - 1
    [(0x20, m &&& 0x4FFF == m),
     (0x24, !(sel 6 5 && bits v 6 5 == 3) && !(sel 8 7 && bits v 8 7 == 3) && !(sel 11 10 && bits v 11 10 == 3)),
     (0x28, !bit (f 0x2A 1) 0 || decide (150 ≤ f 0x28 2 ∧ f 0x28 2 ≤ 300)), (0x2A, bits (f 0x2A 1) 7 1 == 0),
     z 0x2B 0x40]
  | 0x71 => [z 0x24 0x40]
  | 0x73 => [z 0x28 0x40]
  | op =>
    if isStepOp op then
      let aux := op == 0x33 || op == 0x34
      let sc := takesScores q
      let hmax := match descNow s q.model with | some d => dHeads d | none => 4
      [(0x20, aligned 64 (f 0x20 8)), (0x28, decide (f 0x28 1 ≤ 8)),
       (0x29, bits (f 0x29 1) 7 2 == 0 && (op == 0x33 || !bit (f 0x29 1) 0) && (op == 0x34 || !bit (f 0x29 1) 1)),
       (0x2A, if op == 0x33 then decide (1 ≤ f 0x2A 1 ∧ f 0x2A 1 ≤ hmax) else f 0x2A 1 == 0),
       (0x2B, if sc then decide (f 0x2B 1 ≤ 2) else f 0x2B 1 == 0),
       (0x2C, if sc then decide (1 ≤ f 0x2C 4) else f 0x2C 4 == 0),
       (0x30, if aux then f 0x30 8 != 0 && aligned 64 (f 0x30 8) else f 0x30 8 == 0),
       (0x38, if op == 0x34 then decide (1 ≤ f 0x38 4 ∧ f 0x38 4 ≤ 65536) else f 0x38 4 == 0), z 0x3C 0x40]
    else [z 0x20 0x40]

/-- STREAM_COUNT within Table CMD-4. -/
def countOk (q : Req) : Bool :=
  if isStepOp q.op then decide (1 ≤ q.count) && decide (q.count ≤ if q.op = 0x33 then 1024 else 4096) else q.count == 0

/-- MODEL_ID of the header (Table CMD-1): REPLAY's is checked with its block (R334). -/
def modelIdOk (s : State) (q : Req) : Bool :=
  if namesModel q then (descNow s q.model).isSome
  else if q.op = 0x10 || q.op = 0x60 then true
  else q.model == 0

/-- The checks of a packet but for LOAD_FUNCTION's length, in ascending offset. -/
def packetChecks (s : State) (q : Req) : List (Nat × Bool) :=
  let need := paramNeed q
  let free := q.op == 0x50
  [(0x01, bits (q.f 1 1) 7 2 == 0), (0x02, countOk q),
   (0x10, aligned 64 q.addr && (if free || need != 0 then q.addr != 0 else q.addr == 0)),
   (0x18, free || q.plen == need), (0x1C, modelIdOk s q), zeroField q.p 0x1D 0x20] ++ operandChecks s q

/-! ## Step commands: stream entries and drafts -/

/-- Bytes of one input of a step command: a hidden vector or a score row. -/
def inputBytes (s : State) (q : Req) : Nat :=
  if takesScores q then q.f 0x2C 4 * (if q.f 0x2B 1 = 0 then 4 else 2)
  else match descNow s q.model with | some d => dRowBytes d | none => 0

/-- L of a step command's rows. -/
def rowLength (s : State) (q : Req) : Nat :=
  if takesScores q then q.f 0x2C 4 else match descNow s q.model with | some d => dVocab d | none => 0

/-- Entry j of a parameter block. -/
def entryAt (b : List Byte) (j : Nat) : List Byte := slice b (64 * j) 64

/-- The stream ids of a block's entries. -/
def entryIds (b : List Byte) (n : Nat) : List Nat := (List.range n).map fun j => fieldAt (entryAt b j) 0 2

/-- The checks of stream entry j (Table CMD-5, R44, R246, R285). -/
def entryChecks (s : State) (q : Req) (ids : List Nat) (e : List Byte) (j : Nat) : List (Nat × Bool) :=
  let op := q.op
  let sid := fieldAt e 0 2
  let ver := op == 0x32
  let n := fieldAt e 3 1
  let vec := inputBytes s q
  let need := if ver then n * roundUp vec 64 + vec else vec
  let spec := fieldAt e 0x10 8
  let stp := specInForce (streamOf s sid).maskSpec spec
  let o := 64 * j
  [(o, openFor s q.fn sid && !(ids.take j).contains sid), (o + 2, bits (fieldAt e 2 1) 7 1 == 0),
   (o + 3, if ver then decide (n ≤ 15) else n == 0),
   (o + 4, if op = 0x33 then decide (fieldAt e 4 4 < 2 ^ 20 - 4) else fieldAt e 4 4 == 0),
   (o + 8, aligned 64 (fieldAt e 8 8) &&
      (bit (fieldAt e 2 1) 0 || decide (fieldAt e 8 8 + need ≤ bar2Size q.fn))),
   (o + 0x10, if ver then spec == 0 else cmdSpecOk spec && banksLoaded s stp),
   (o + 0x18, ver || specStep stp != 0 || fieldAt e 0x18 8 == 0),
   (o + 0x20, if ver then aligned 8 (fieldAt e 0x20 8) else fieldAt e 0x20 8 == 0),
   (o + 0x28, (slice e 0x28 24).all fun b => b == 0#8)]

/-- The checks of draft entry k of n + 1 (Table DRAW-4, R211) but for its q-list. -/
def draftChecks (s : State) (sid vocab n : Nat) (d : List Byte) (k : Nat) : List (Nat × Bool) :=
  let o := 32 * k
  let last := k == n
  let mode := fieldAt d 8 1
  let qv := word32 d 4
  let stp := specInForce (streamOf s sid).maskSpec (fieldAt d 0x18 8)
  [(o, if last then fieldAt d 0 4 == 0xFFFFFFFF else decide (fieldAt d 0 4 < vocab)),
   (o + 4, if last then qv == 0#32 else unitRange qv),
   (o + 8, if last then mode == 0 else decide (mode ≤ 1)),
   (o + 9, if mode = 1 then decide (1 ≤ fieldAt d 9 1 ∧ fieldAt d 9 1 ≤ 64) else fieldAt d 9 1 == 0),
   (o + 0xA, fieldAt d 0xA 6 == 0),
   (o + 0x10, if mode = 1 then fieldAt d 0x10 8 != 0 && aligned 8 (fieldAt d 0x10 8) else fieldAt d 0x10 8 == 0),
   (o + 0x18, cmdSpecOk (fieldAt d 0x18 8) && banksLoaded s stp)]

/-- A SPARSE q-list (R211): the first offending offset in it. -/
def qlistBad (d : List Byte) (l : List (Nat × Word)) : Option Nat :=
  let tok := fieldAt d 0 4
  let each := firstBad ((withIndex l).flatMap fun (j, (i, v)) =>
    [(8 * j, j == 0 || decide ((nth (0, 0#32) l (j - 1)).1 < i)),
     (8 * j + 4, unitRange v && (i != tok || v == word32 d 4))])
  match each with
  | some o => some o
  | none => if l.any fun p => p.1 == tok then none else some noLocation

/-- A list in host memory checked: the bytes, or a read that fails twice, with DETAIL. -/
def failOffset (s : State) (a n : Nat) : Nat :=
  let offs := s.hostBad.filterMap fun p =>
    if p.1 < a + n ∧ a < p.1 + p.2 then some (max p.1 a - a) else none
  offs.foldl min (offs.headD 0)

/-- The DETAIL of a failed read: parameter block, or a referenced structure. -/
def readDetail (s : State) (list : Bool) (a n : Nat) : Nat := (if list then 2 ^ 31 else 0) + failOffset s a n % 2 ^ 31

/-- Findings one after another: the first that found something, a BAD_PARAM before a read that fails (R291). -/
def orFound (a b : Found) : Found :=
  if a.bad.isSome || (b.bad.isNone && decide (a ≠ Found.none)) then a else b

/-- A BAD_PARAM at an offset of the block or of a list. -/
def badAt (o : Option Nat) : Found :=
  match o with
  | none => .none
  | some x => { Found.none with bad := some (if x = noLocation then noLocation else inBlock x) }

/-- A BAD_PARAM with no location. -/
def badIf (b : Bool) : Found := if b then { Found.none with bad := some noLocation } else .none

/-- A list at an address, checked by a function of its bytes. -/
def onList (s : State) (a n : Nat) (k : List Byte → Found) : Found :=
  match hostRead s a n with
  | some bs => k bs
  | none => { Found.none with fault := some (readDetail s true a n) }

/-- The first finding of a list, a BAD_PARAM before a read that fails (R291). -/
def firstFound (l : List Found) : Found := l.foldr orFound Found.none

/-- The draft entries of one stream entry. -/
def draftsFound (s : State) (q : Req) (e : List Byte) : Found :=
  let sid := fieldAt e 0 2
  let n := fieldAt e 3 1
  let vocab := rowLength s q
  onList s (fieldAt e 0x20 8) (32 * (n + 1)) fun bs =>
    let ds := (List.range (n + 1)).map fun k => slice bs (32 * k) 32
    let a := badAt (firstBad ((withIndex ds).flatMap fun (k, d) => draftChecks s sid vocab n d k))
    orFound a (firstFound (ds.map fun d =>
      if fieldAt d 8 1 = 1 then
        onList s (fieldAt d 0x10 8) (8 * fieldAt d 9 1) fun l => badAt (qlistBad d (parsePairs l (fieldAt d 9 1)))
      else .none))

/-- The draft entries that VERIFY's stream entry e names, as they can be read. -/
def draftSpecs (s : State) (e : List Byte) : List Nat :=
  match hostRead s (fieldAt e 0x20 8) (32 * (fieldAt e 3 1 + 1)) with
  | some bs => (List.range (fieldAt e 3 1 + 1)).map fun k => fieldAt bs (32 * k + 0x18) 8
  | none => []

/-- BITMAP_ADDR and the bitmaps of VERIFY's stream entry e: nonzero only where some position uses STEP_BITMAP
(Table CMD-5). -/
def bitmapOk (s : State) (e : List Byte) : Bool :=
  fieldAt e 0x18 8 == 0 || (hostRead s (fieldAt e 0x20 8) (32 * (fieldAt e 3 1 + 1))).isNone ||
    (draftSpecs s e).any fun spec => specStep (specInForce (streamOf s (fieldAt e 0 2)).maskSpec spec) != 0

/-- Are a stream's penalties neutral (R243)? -/
def penaltiesNeutral (st : Stream) : Bool := st.rep == one32 && isZero32 st.pres && isZero32 st.freq

/-- Is a model's matrix of a format that IV1_COMPAT admits (Table DET-11)? -/
def compatMatrix (s : State) (mid : Nat) : Bool :=
  match descNow s mid with
  | some d => decide (fieldAt d 1 1 ≤ 2) && dBlock d == 0
  | none => true

/-- What a step command's block shows (R44, R85, R211, R224, R233, R243, R400, Table CMD-4). -/
def stepFound (s : State) (q : Req) (b : List Byte) : Found :=
  let n := q.count
  let ids := entryIds b n
  let es := (List.range n).map (entryAt b)
  let a := badAt (firstBad ((withIndex es).flatMap fun (j, e) => entryChecks s q ids e j))
  let sts := ids.map (streamOf s)
  let st0 := sts.headD Stream.closed
  let compat := modesCompat st0.modes
  let fmtOk := takesScores q || compatMatrix s q.model
  let mix := sts.any fun st => modesOf st.modes != modesOf st0.modes || modesCompat st.modes != compat
  let hist := badAt (firstBad ((withIndex sts).map fun (j, st) => (64 * j, st.histValid || penaltiesNeutral st)))
  let deep := q.op == 0x32 && decide (4096 < es.foldl (fun t e => t + fieldAt e 3 1 + 1) 0)
  let compatBad := compat && (!(q.op == 0x30 || q.op == 0x31) || !fmtOk)
  let maps := if q.op = 0x32 then badAt (firstBad ((withIndex es).map fun (j, e) => (64 * j + 0x18, bitmapOk s e)))
    else Found.none
  let lists := if q.op = 0x32 then orFound maps (firstFound (es.map (draftsFound s q))) else Found.none
  let L := rowLength s q
  let long : Option Nat :=
    if takesScores q && decide (4194304 < L) then some 0x2C
    else if compat && decide (262144 < L) then some (if takesScores q then 0x2C else noLocation)
    else none
  { orFound a (orFound hist (orFound (badIf (mix || deep || compatBad)) lists)) with long := long }

/-! ## Tensor, load and audit operators -/

/-- The checks of a tensor operator's block (R316 to R328). -/
def tensorChecks (s : State) (q : Req) (b : List Byte) : List (Nat × Bool) :=
  let h := parseHdr b
  let op := q.op
  let z (lo hi : Nat) : Nat × Bool := zeroField b lo hi
  let rnd := op == 0x45
  let wide := op == 0x43 || op == 0x44 || op == 0x46
  let (fi, bi) := if rnd then (h.inFmt == 0, h.inBlock == 0) else
    fmtBlockOk (if wide then 5 else 2) wide h.inFmt h.inBlock
  let (fo, bo) := match op with
    | 0x40 => fmtBlockOk 2 false h.outFmt h.outBlock
    | 0x44 | 0x46 => fmtBlockOk 5 true h.outFmt h.outBlock
    | 0x45 => ((h.outFmt == 6 && fieldAt b 0x40 1 != 1 && fieldAt b 0x40 1 != 2) ||
        (h.outFmt == 0 && fieldAt b 0x40 1 != 0), h.outBlock == 0)
    | _ => (h.outFmt == 0, h.outBlock == 0)
  let m := hdrModes h q.mode
  let usesTier := op == 0x40 || op == 0x45 || op == 0x46
  let compat := bit h.modes 5
  let stats := bit h.flags 1
  let inRow := opRowBytes h.inFmt h.inBlock h.len
  let outRow := match op with
    | 0x41 => 8 * min (fieldAt b 0x40 4) h.len
    | 0x42 => 8 * min h.len 65536
    | 0x43 => 16
    | _ => opRowBytes h.outFmt h.outBlock h.len
  let strideOk (st row : Nat) : Bool := aligned 64 st && decide (row ≤ st)
  let inBar := h.src != 1 || decide (h.inAddr + (h.rows - 1) * h.inStride + inRow ≤ bar2Size q.fn)
  let auxOk := match op with
    | 0x40 => if stats then h.aux != 0 && aligned 64 h.aux else h.aux == 0
    | 0x42 => h.aux != 0 && aligned 64 h.aux
    | 0x46 => aligned 64 h.aux
    | _ => h.aux == 0
  let fid := fieldAt b 0x40 1
  let spore := fieldAt b 0x42 1 == 1
  let stoch := rnd || fieldAt b 0x40 1 == 1
  [(0x00, decide (1 ≤ h.rows ∧ h.rows ≤ 65536)), (0x04, decide (1 ≤ h.len)), (0x08, fi), (0x09, bi), (0x0A, fo),
   (0x0B, bo),
   (0x0C, !bit h.modes 7 && modesFlush h.modes != 3 && modesNz h.modes != 3 &&
      (!bit h.modes 6 || h.modes % 32 == 0) && !strictOn m &&
      (!compat || ((op == 0x40 || op == 0x46) && modesOf m == iv1Modes && decide (h.inFmt ≤ 2 ∧ h.outFmt ≤ 2)))),
   (0x0D, if usesTier then decide (h.tier ≤ 1) else h.tier == 0),
   (0x0E, if op = 0x40 then decide (h.flags ≤ 3) else h.flags == 0),
   (0x0F, if rnd then h.src == 0 else decide (h.src ≤ 1)),
   (0x10, if rnd then h.inAddr == 0 else aligned 64 h.inAddr && inBar),
   (0x18, if rnd then h.inStride == 0 else strideOk h.inStride inRow),
   (0x20, aligned 64 h.outAddr), (0x28, strideOk h.outStride outRow), (0x30, auxOk), z 0x38 0x40] ++
  match op with
  | 0x40 => [(0x40, scaleOk (word32 b 0x40)), z 0x44 0x80]
  | 0x41 => [(0x40, decide (1 ≤ fieldAt b 0x40 4 ∧ fieldAt b 0x40 4 ≤ 65536)), z 0x44 0x80]
  | 0x42 => [(0x40, h.inFmt == 0 || fieldAt b 0x42 2 == 0), z 0x44 0x80]
  | 0x43 => [z 0x40 0x80]
  | 0x46 =>
    [(0x40, (decide (fid ≤ 0x0D) || (decide (0x40 ≤ fid ∧ fid ≤ 0x7F) &&
        (s.functions.any fun p => p.1 == fid - 0x40))) &&
        (!compat || [0x00, 0x01, 0x03, 0x05, 0x06, 0x07, 0x08, 0x09, 0x0A, 0x0B].contains fid)),
     z 0x41 0x44, (0x44, scaleOk (word32 b 0x44)), z 0x48 0x80]
  | _ =>
    [(0x40, if rnd then decide (fieldAt b 0x40 1 ≤ 2)
        else decide (fieldAt b 0x40 1 ≤ 1)),
     (0x41, if rnd then fieldAt b 0x41 1 == 0 else decide (fieldAt b 0x41 1 ≤ 1)),
     (0x42, if stoch then decide (fieldAt b 0x42 1 ≤ 1) else fieldAt b 0x42 1 == 0),
     (0x43, if stoch && !spore then decide (fieldAt b 0x43 1 ≤ 7) else fieldAt b 0x43 1 == 0), z 0x44 0x48,
     (0x48, (stoch && spore) || fieldAt b 0x48 6 == 0), z 0x4E 0x50,
     (0x50, (stoch && spore) || fieldAt b 0x50 16 == 0), z 0x60 0x80]

/-- Does a tensor operator bind a Ring lane (R190)? -/
def bindsLane (op : Nat) (b : List Byte) : Bool :=
  (op == 0x45 || (op == 0x44 && fieldAt b 0x40 1 == 1)) && fieldAt b 0x42 1 == 0

/-- Has an active chip's Ring block failed (R199)? -/
def ringBroken (s : State) : Bool := (activeChips s).any fun c => (chipOf s c).ringFailed

/-- What a tensor operator's block shows. A failed Ring block refuses a lane-bound command at its acceptance; one that was accepted
before the block failed still draws (DESIGN CHOICE: R199 names acceptance alone, log entry 102). -/
def tensorFound (s : State) (q : Req) (b : List Byte) : Found :=
  let h := parseHdr b
  let lane := bindsLane q.op b
  { orFound (badAt (firstBad (tensorChecks s q b))) (badIf (lane && ringBroken s)) with
    forbidden := lane && modeDet q.mode
    long := if 4194304 < h.len || (bit h.modes 5 && 262144 < h.len) then some (inBlock 4) else none }

/-- RING_JUMP (Table OPS-6). -/
def ringJumpFound (s : State) (q : Req) (b : List Byte) : Found :=
  let t := fieldAt b 0 1
  orFound (badAt (firstBad
    [(0, decide (t ≤ 1)), (1, bits (fieldAt b 1 1) 7 1 == 0),
     (2, if t = 0 then decide (fieldAt b 2 1 ≤ 7) else fieldAt b 2 1 == 0), zeroField b 3 4,
     (4, if t = 1 then openFor s q.fn (fieldAt b 4 2) else fieldAt b 4 2 == 0), zeroField b 6 0x10]))
    (badIf (t == 0 && ringBroken s))

/-- The frequencies of a model's table (R220, R253). -/
def ropeFound (s : State) (d : List Byte) : Found :=
  if dHeads d = 0 then .none
  else onList s (fieldAt d 0x38 8) (2 * dHidden d) fun bs =>
    badAt (firstBad ((List.range (dHidden d / 2)).map fun i => (4 * i, unitRange (word32 bs (4 * i)))))

/-- LOAD_MODEL (R253). -/
def loadModelFound (s : State) (q : Req) (d : List Byte) : Found :=
  let busy := (pendingLoad s q.model).isSome ||
    (match modelOf s q.model with | some m => m.state != 4 | none => false)
  let h : Found := if fieldAt d 0 1 == q.model then .none else { Found.none with bad := some 0x1C }
  let a := badAt (firstBad ((0, !busy) :: descChecks d))
  { orFound h (orFound a (ropeFound s d)) with long := if 4194304 < dVocab d then some (inBlock 8) else none }

/-- LOAD_MASK (Table OPS-7, R333). -/
def loadMaskFound (b : List Byte) : Found :=
  let len := fieldAt b 4 4
  let a := fieldAt b 8 8
  badAt (firstBad [(0, decide (fieldAt b 0 2 ≤ 4095)), zeroField b 2 4, (4, decide (len ≤ 4194304)),
    (8, aligned 64 a && (a == 0) == (len == 0)), zeroField b 0x10 0x20])

/-- SET_STREAM_PARAMS and OPEN_STREAM blocks with their bias lists (R236, R237). -/
def streamBlockFound (s : State) (q : Req) (b : List Byte) : Found :=
  let opening := q.op == 0x20
  let sel : Nat → Bool := if opening then fun _ => true else selOf b
  let st := streamOf s (q.f 0x20 2)
  let new := if opening then openedStream b q.mode [] else applyParams st b sel q.mode []
  let nb := fieldAt b 0x3C 2
  let a := badAt (firstBad (blockChecks b sel ++ limitChecks new sel))
  let l := if sel 7 && nb != 0 then
      onList s (fieldAt b 0x70 8) (8 * nb) fun bs => badAt (biasBad (parsePairs bs nb))
    else Found.none
  orFound a l

/-- Is a (stream, step) recorded in the replay window? -/
def auditRec (s : State) (sid step : Nat) : Option (Audited × AuditRec) :=
  match s.audited.find? fun a => a.sid == sid with
  | some a => (a.recs.find? fun r => r.step == step).map fun r => (a, r)
  | none => none

/-- Reserved sizes of the dump sections selected (Table OPS-9). -/
def dumpSize (mask L vec : Nat) : Nat :=
  0x100 + (if bit mask 0 then roundUp vec 64 else 0) + (if bit mask 1 then roundUp (4 * L) 64 else 0) +
    (if bit mask 2 then roundUp (4 * L) 64 else 0) + (if bit mask 3 then 524288 else 0)

/-- The generation of a model or of a bank entry (R398). -/
def genOf (l : List (Nat × Nat)) (i : Nat) : Nat := mapGet 0 l i

/-- Do the model and the banks a window record names stand as they stood (R399): loaded, and of the record's generations? -/
def generationsHold (s : State) (r : AuditRec) : Bool :=
  (match r.model with
    | some (mid, g) => (modelOf s mid).isSome && genOf s.modelGen mid == g
    | none => true) &&
  r.banks.all fun p => genOf s.vault.maskGen p.1 == p.2 && banksLoaded s (p.1 + 2 ^ 48)

/-- REPLAY (Table OPS-8, R334, R335, R336, R399, R400). -/
def replayFound (s : State) (q : Req) (b : List Byte) : Found :=
  let f (o n : Nat) : Nat := fieldAt b o n
  let sid := f 0 2
  let host := f 2 1 == 1
  let sc := host && f 4 1 == 1
  let z := zeroField b
  let first := firstBad
    [(0, streamInRange s q.fn sid), (2, decide (f 2 1 ≤ 1)), (3, bits (f 3 1) 7 4 == 0),
     (4, if host then decide (f 4 1 ≤ 1) else f 4 1 == 0), (5, if sc then decide (f 5 1 ≤ 2) else f 5 1 == 0),
     (6, decide (f 6 1 ≤ 8)), z 7 8, z 0xE 0x10, (0x10, host || f 0x10 8 == 0), (0x18, host || f 0x18 8 == 0),
     (0x20, if sc then decide (1 ≤ f 0x20 4) else f 0x20 4 == 0), z 0x24 0x28, (0x28, aligned 64 (f 0x28 8)),
     z 0x38 0x40]
  let midBad := q.model != 0 && (!host || sc)
  let hostRun : Found :=
    if !sc && (descNow s q.model).isNone then { Found.none with bad := some 0x1C } else
    onList s (f 0x10 8) 18960 fun im =>
      let st := imageStream im
      orFound (badAt (firstBad (imageChecks im))) (orFound (badIf (st.step != f 8 6))
        (onList s (f 0x18 8) 64 fun e =>
          let p := leBytes 1 (if sc then 0x31 else 0x30) ++ slice q.p 1 0x2A ++ leBytes 1 (f 5 1) ++
            leBytes 4 (f 0x20 4) ++ List.replicate 16 0#8
          let q' : Req := { q with p := p }
          let spec := fieldAt e 0x10 8
          let stp := specInForce st.maskSpec spec
          let L := rowLength s q'
          let cap := dumpSize (f 3 1) L (if sc then 0 else inputBytes s q')
          orFound (badAt (firstBad
            [(0, fieldAt e 0 2 == sid), (2, bits (fieldAt e 2 1) 7 1 == 0), (3, fieldAt e 3 1 == 0),
             (4, fieldAt e 4 4 == 0),
             (8, aligned 64 (fieldAt e 8 8) && (bit (fieldAt e 2 1) 0 ||
               decide (fieldAt e 8 8 + inputBytes s q' ≤ bar2Size q.fn))),
             (0x10, cmdSpecOk spec && banksLoaded s stp),
             (0x18, specStep stp != 0 || fieldAt e 0x18 8 == 0), (0x20, fieldAt e 0x20 8 == 0),
             (0x28, (slice e 0x28 24).all fun x => x == 0#8)]))
            (orFound (badAt (if f 0x30 8 < cap then some 0x30 else none))
              (badIf ((!st.histValid && !penaltiesNeutral st) ||
                (modesCompat st.modes && !sc && !compatMatrix s q.model))))))
  let winRun : Found :=
    match auditRec s sid (f 8 6) with
    | none => badIf true
    | some (_, r) =>
      let L := fieldAt r.head 4 4
      let vec := match r.model with
        | some (mid, _) => (match modelOf s mid with | some m => dRowBytes m.desc | none => 0)
        | none => 0
      orFound (badIf (!modeWindow q.mode || r.absent || !generationsHold s r))
        (badAt (if f 0x30 8 < dumpSize (f 3 1) L vec then some 0x30 else none))
  let susp := if host then !sc && isSuspended s q.model
    else match auditRec s sid (f 8 6) with
      | some (_, r) => (match r.model with | some (mid, _) => isSuspended s mid | none => false)
      | none => false
  let base : Found :=
    if midBad then { Found.none with bad := some 0x1C }
    else orFound (badAt first) (if host then hostRun else winRun)
  let compat := host && (match hostRead s (f 0x10 8) 18960 with
    | some im => modesCompat (imageStream im).modes
    | none => false)
  let rows := if sc then f 0x20 4 else match descNow s q.model with | some d => dVocab d | none => 0
  { base with
    suspended := susp
    long := if (sc && 4194304 < rows) || (compat && 262144 < rows) then some (if sc then inBlock 0x20 else noLocation)
      else none }

/-- READ_DIGESTS (Table OPS-10). -/
def digestsFound (s : State) (q : Req) (b : List Byte) : Found :=
  let f (o n : Nat) : Nat := fieldAt b o n
  let ten := f 0 1 == 1
  let (fo, bo) := fmtBlockOk 5 true (f 1 1) (f 2 1)
  let stride := f 0x18 8
  let a := firstBad
    [(0, decide (f 0 1 ≤ 1)), (1, if ten then fo else f 1 1 == 0), (2, if ten then bo else f 2 1 == 0),
     zeroField b 3 4, (4, decide (1 ≤ f 4 4) && decide (f 4 4 ≤ if ten then 65536 else 4096)),
     (8, if ten then decide (1 ≤ f 8 4) else f 8 4 == 0), zeroField b 0xC 0x10, (0x10, aligned 64 (f 0x10 8)),
     (0x18, if ten then aligned 64 stride && decide (opRowBytes (f 1 1) (f 2 1) (f 8 4) ≤ stride) else stride == 0),
     (0x20, aligned 64 (f 0x20 8)), zeroField b 0x28 0x40]
  let names := if ten || q.fn = 0 then Found.none else
    onList s (f 0x10 8) (8 * f 4 4) fun l =>
      badAt (firstBad ((List.range (f 4 4)).map fun j => (8 * j, streamInRange s q.fn (fieldAt l (8 * j) 2))))
  { orFound (badAt a) names with long := if ten && 4194304 < f 8 4 then some (inBlock 8) else none }

/-- READ_FLAGS, READ_COUNTERS and CLEAR_COUNTERS (R338, Table OPS-12). -/
def flagsFound (q : Req) (b : List Byte) : Found :=
  badAt (firstBad [(8, bits (fieldAt b 8 1) 7 1 == 0 && (q.fn == 0 || !bit (fieldAt b 8 1) 0)), zeroField b 9 16])

def countersFound (q : Req) (b : List Byte) : Found :=
  let rd := q.op == 0x63
  badAt (firstBad
    [(0, bits (fieldAt b 0 1) 7 5 == 0 && (rd || fieldAt b 0 1 != 0)), zeroField b 1 4,
     (4, !rd || fieldAt b 4 4 == 0), (8, if rd then aligned 64 (fieldAt b 8 8) else fieldAt b 8 8 == 0),
     (0x10, !rd || decide (65536 ≤ fieldAt b 0x10 4)), (0x14, !rd || (slice b 0x14 12).all fun x => x == 0#8)])

/-- The findings in a command's parameter block. -/
def blockFound (s : State) (q : Req) (b : List Byte) : Found :=
  let op := q.op
  if isStepOp op then stepFound s q b
  else if isTensorOp op then tensorFound s q b
  else match op with
    | 0x10 => loadModelFound s q b
    | 0x20 | 0x22 => streamBlockFound s q b
    | 0x23 => badAt (firstBad ((List.range (q.f 0x24 4)).map fun j => (4 * j, decide (fieldAt b (4 * j) 4 < 4194304))))
    | 0x25 => badAt (firstBad (imageChecks b))
    | 0x47 => ringJumpFound s q b
    | 0x50 =>
      if q.plen < 0x170 || q.plen != imageLen (fieldAt b 5 1) then { Found.none with bad := some 0x18 } else Found.none
    | 0x51 => loadMaskFound b
    | 0x60 => replayFound s q b
    | 0x61 => digestsFound s q b
    | 0x62 => flagsFound q b
    | 0x63 | 0x64 => countersFound q b
    | _ => .none

/-- Validation of a packet and its parameter block (R281, R291, R302): the status and DETAIL at acceptance, 0 when the
command may run. -/
def validate (s : State) (q : Req) : Nat × Nat :=
  if !opKnown q.op || (q.fn != 0 && opPfOnly q.op) then (0x21, q.op)
  else
    let power := needsPower q.op && !s.power.powerReady && !modeUnprotected q.mode
    let susp := namesModel q && isSuspended s q.model
    let x : Found :=
      match firstBad (packetChecks s q) with
      | some o => { Found.none with bad := some o }
      | none =>
        if q.addr = 0 || q.op = 0x24 then Found.none
        else match hostRead s q.addr q.plen with
          | none =>
            { Found.none with
              fault := some (readDetail s false q.addr q.plen)
              long := if isStepOp q.op && takesScores q && decide (4194304 < q.f 0x2C 4) then some 0x2C else none }
          | some b => blockFound s q b
    verdict q.op { x with power := power, suspended := x.suspended || susp }

end Sys2Proof.Machine
end

