-- ==== Sys2Proof/Machine/Place.lean ====
section
/-! DEFINITION. Where a model's granules lie, what fits, and the plan after a chip loss (R255 to R273); the partition of
a command's row over chips and cores (R256, R258, R320). -/

namespace Sys2Proof.Machine

/-! ## Budget and placement -/

/-- Model space of a chip or pair: 22,528 MiB (R261). -/
def modelSpace : Nat := 22528 * 2 ^ 20

/-- What a held model takes on each chip. -/
def modelAlloc (m : Model) : Nat := if m.state = 4 then 0 else allocBytes m.desc m.ranks.length m.resident

/-- Space reserved by loads that have started and not completed (R263). -/
def reservedSpace (s : State) : Nat :=
  s.cmds.foldl (fun t c => if pktOp c = 0x10 then t + nth 0 c.reserved 2 else t) 0

/-- Free space per chip. -/
def freeSpace (s : State) : Nat :=
  modelSpace - (s.models.foldl (fun t p => t + modelAlloc p.2) 0 + reservedSpace s)

/-- The ranks a load is placed on now. -/
def placeRanks (s : State) : List (List Nat) := ranksNow s (modeLock s.regs.modeCtrl)

/-- A placement on n ranks with f free: the MODEL_STATE (2 or 3) and the resident rows (R263, R266). `top` is the largest
number of resident rows tried. -/
def overhangFit (d : List Byte) (n f top : Nat) : Option (Nat × Nat) :=
  match largestFit d n f top with
  | some r => if overhangTest d n r then some (3, r) else none
  | none => none

/-- LOAD_MODEL's decision. -/
def placeModel (d : List Byte) (n f : Nat) : Option (Nat × Nat) :=
  let R := granuleRows d n
  if n < 2 then none
  else if allocBytes d n R ≤ f then some (2, R)
  else overhangFit d n f R

/-- The decision a starting LOAD_MODEL reserves: state, resident rows, bytes (R263). -/
def reserveLoad (s : State) (d : List Byte) (mid : Nat) : Option (List Nat) :=
  let n := (placeRanks s).length
  let held := (s.models.filter fun p => p.1 != mid).length +
    (s.cmds.filter fun c => pktOp c == 0x10 && !c.reserved.isEmpty && pktModel c != mid &&
      (modelOf s (pktModel c)).isNone).length
  if 64 ≤ held then none
  else match placeModel d n (freeSpace s) with
    | some (st, r) => some [st, r, allocBytes d n r]
    | none => none

/-- Is a model in overhang, resident rows short of all? -/
def inOverhang (m : Model) : Bool := decide (m.resident < granuleRows m.desc m.ranks.length)

/-- Models in plan order: descending PRIORITY, ascending MODEL_ID (R270). -/
def planOrder (l : List (Nat × Model)) : List (Nat × Model) :=
  sortBy (fun a b => decide (b.2.priority < a.2.priority ∨ (a.2.priority = b.2.priority ∧ a.1 < b.1))) l

/-- The plan walked over models: for each, its new state and resident rows. -/
def planWalk (n : Nat) : Nat → List (Nat × Model) → List (Nat × Nat × Nat)
  | _, [] => []
  | free, (mid, m) :: rest =>
    let R := granuleRows m.desc n
    if m.state = 4 then planWalk n free rest
    else
      let choice : Option (Nat × Nat) :=
        if n < 2 then none
        else if !inOverhang m && decide (allocBytes m.desc n R ≤ free) then some (2, R)
        else overhangFit m.desc n free (R - 1)
      match choice with
      | some (st, r) => (mid, st, r) :: planWalk n (free - allocBytes m.desc n r) rest
      | none => (mid, 4, 0) :: planWalk n free rest

/-- A suspended model holds no HBM (R271). -/
def suspendModel (m : Model) : Model :=
  { m with state := 4, rows := [], bias := none, normW := none, heads := [], rope := [], crcs := [], plan := none }

/-- MODEL_SUSPENDED raised where a model goes to suspended. -/
def suspendNow (s : State) (mid : Nat) : State :=
  raiseEvent
    { s with
      models := s.models.map fun p => if p.1 == mid then (p.1, suspendModel p.2) else p
      vault := { s.vault with models := s.vault.models.map fun p => if p.1 == mid then (p.1, { p.2 with state := 4 }) else p } }
    evMODEL_SUSPENDED

/-- The ranks of a model's placement that a lost chip held. -/
def lostRanks (s : State) (m : Model) : List Nat :=
  ((withIndex m.ranks).filter fun p => p.2.any fun c => !(chipOf s c).active).map fun p => p.1

/-! ### Parity groups (R257, R258) -/

/-- The data members of parity group k in parity block b: (rank, granule), resident rows only. -/
def groupMembers (m : Model) (b k : Nat) : List (Nat × Nat) :=
  let n := m.ranks.length
  (List.range n).filterMap fun r =>
    let q := b * (n - 1) + (r + 2 * n - 1 - k) % n
    if r ≠ k ∧ q < m.resident ∧ q * n + r < granules m.desc then some (r, q * n + r) else none

/-- Has a parity group lost two members, its parity granule on rank k among them? -/
def groupBroken (m : Model) (lost : List Nat) (b k : Nat) : Bool :=
  let ms := groupMembers m b k
  decide (2 ≤ (ms.filter fun p => lost.contains p.1).length + b2n (lost.contains k && !ms.isEmpty))

/-- Does a model have a parity group that lost two members (R272)? -/
def parityBroken (m : Model) (lost : List Nat) : Bool :=
  let n := m.ranks.length
  (List.range (ceilDiv m.resident (n - 1))).any fun b => (List.range n).any fun k => groupBroken m lost b k

/-- The plan of R270 fixed for the ranks now active: models suspended at once, the others degraded until re-laid. -/
def fixPlan (s : State) : State :=
  let ranks := placeRanks s
  let s := s.models.foldl (fun s p =>
    if p.2.state != 4 && parityBroken p.2 (lostRanks s p.2) then suspendNow s p.1
    else s) s
  let plan := planWalk ranks.length modelSpace (planOrder s.models)
  plan.foldl (fun s (mid, st, r) =>
    if st = 4 then suspendNow s mid
    else
      { s with
        models := s.models.map fun p =>
          if p.1 == mid && decide (0 < (lostRanks s p.2).length) then
            (p.1, { p.2 with state := 5, plan := some (ranks, r) })
          else p }) s

/-- A model's re-lay done: its new ranks and resident rows (R270). -/
def relaidModel (m : Model) : Model :=
  match m.plan with
  | some (ranks, r) =>
    { m with ranks := ranks, resident := r, plan := none, state := if r < granuleRows m.desc ranks.length then 3 else 2 }
  | none => m

/-! ## Overhang (R267, R268) -/

/-- The image of granule g: 512 rows and, with HAS_BIAS, 512 biases; padded rows are zero (R255, R267). -/
def granuleImage (m : Model) (g : Nat) : List Byte :=
  let rb := dRowBytes m.desc
  let rs := (m.rows.drop (512 * g)).take 512
  let rows := rs.flatten ++ List.replicate ((512 - rs.length) * rb) 0#8
  match m.bias with
  | none => rows
  | some b =>
    let bs := (b.drop (512 * g)).take 512
    rows ++ bs.flatMap (fun w => leBytes 4 w.toNat) ++ List.replicate (4 * (512 - bs.length)) 0#8

/-- Two granules of one size added bytewise (R257). -/
def xorBytes (a b : List Byte) : List Byte := (a.zip b).map fun p => p.1 ^^^ p.2

/-- The parity granule of group k in parity block b: the XOR of its members, absent granules as zero (R257). -/
def parityGranule (m : Model) (b k : Nat) : List Byte :=
  (groupMembers m b k).foldl (fun t p => xorBytes t (granuleImage m p.2)) (List.replicate (granuleBytes m.desc) 0#8)

/-- A degraded read of granule g: its group's parity granule and the group's other members added (R258). -/
def degradedGranule (m : Model) (g : Nat) : List Byte :=
  let n := m.ranks.length
  let b := g / n / (n - 1)
  let k := (g % n + 2 * n - 1 - g / n % (n - 1)) % n
  ((groupMembers m b k).filter fun p => p.2 != g).foldl (fun t p => xorBytes t (granuleImage m p.2)) (parityGranule m b k)

/-- The overhang granules of a model. -/
def overhangGranules (m : Model) : List Nat :=
  let first := min (granules m.desc) (m.resident * m.ranks.length)
  (List.range (granules m.desc - first)).map fun k => first + k

/-- Where the image of an overhang granule lies. -/
def imageAddr (m : Model) (g : Nat) : Nat :=
  fieldAt m.desc 0x40 8 + (g - m.resident * m.ranks.length) * granuleBytes m.desc

/-- The rate of a port in GB/s (R268). -/
def portRate (s : State) (port : Nat) : Nat :=
  let rate (l : Nat) : Nat :=
    let h := nth HostLink.down s.links l
    if !h.trained then 0 else if h.width < 16 then 12 else if h.speed = 64 then 48 else 24
  max (rate (2 * port)) (rate (2 * port + 1))

/-- MODEL_OVERHANG_US of a model (R268, Table MODEL-5). -/
def overhangUs (s : State) (m : Model) : Nat :=
  let o := overhangBytes m.desc m.ranks.length m.resident
  let r := portRate s 0 + portRate s 1
  if m.state = 4 || o = 0 then 0 else ceilDiv o ((if r = 0 then 12 else r) * 1000) + 5

/-! ## Partition of a row -/

/-- The chip of a rank that works: its lowest active one. -/
def rankChip (s : State) (l : List Nat) : Nat := (l.find? fun c => (chipOf s c).active).getD (l.headD 0)

/-- The granules a rank scores: its own, and those of a lost rank whose parity granule it holds (R257, R258); own first,
each list ascending. -/
def rankGranules (m : Model) (lost : List Nat) (G rank : Nat) : List Nat × List Nat :=
  let n := m.ranks.length
  let own := (List.range G).filter fun g => g % n == rank
  let help := (List.range G).filter fun g =>
    let r := g % n
    let j := g / n % (n - 1)
    lost.contains r && decide (g / n < m.resident) && ((r + 2 * n - 1 - j) % n == rank)
  (own, help)

/-- Two deals of one chip joined core by core: reconstructed granules make pieces of their own. -/
def joinParts (a b : List CorePart) : List CorePart :=
  (a.zip b).map fun p => { p.1 with pieces := p.1.pieces ++ p.2.pieces }

/-- The partition of a model's row, its lowest chips or the partners of its pairs. A lost rank's overhang granules go to
the first working rank (log entry 10). -/
def modelParts (s : State) (m : Model) (partner : Bool) : List ChipPart :=
  let G := granules m.desc
  let lost := lostRanks s m
  let firstUp := ((List.range m.ranks.length).find? fun r => !lost.contains r).getD 0
  ((withIndex m.ranks).filter fun p => !lost.contains p.1).map fun (rank, l) =>
    let chip := if partner then (l.getLast?).getD 0 else rankChip s l
    let (own, help) := rankGranules m lost G rank
    let hung := if rank = firstUp then
        (List.range G).filter fun g => lost.contains (g % m.ranks.length) && decide (m.resident ≤ g / m.ranks.length)
      else []
    let cores := activeCores s chip
    ⟨chip, joinParts (dealCores cores (own ++ hung)) (dealAfter cores (own ++ hung).length help)⟩

/-- The chips that deal operator rows, with their cores (R320, R391): ranks now, or partners of pairs. -/
def dealChips (s : State) (lock partner : Bool) : List (Nat × List Nat) :=
  (ranksNow s lock).map fun l =>
    let c := if partner then (l.getLast?).getD 0 else l.headD 0
    (c, activeCores s c)

/-- The partition of a row of L entries whose first operator granule is `first`. -/
def rowParts (s : State) (lock partner : Bool) (first L : Nat) : List ChipPart :=
  dealRow (dealChips s lock partner) first (ceilDiv L 512)

/-- The order mode of a command: FIXED, or FREE numbered by the run's free counter (R372). -/
def orderOf (s : State) (mode : Word) : Order := if modeFixed mode then .fixed else .free [s.freeCtr]

end Sys2Proof.Machine
end

