-- ==== Sys2Proof/Machine/Flags.lean ====
section
/-! DEFINITION. Status words computed from the state: TRAY_STATUS, CORES, MODEL_STATE, the flag snapshot, STATUS and
COMPL_FLAGS of a record (Tables CMD-8, CMD-11, CMD-16, CMD-17, OPS-11; R288 to R292, R338). -/

namespace Sys2Proof.Machine

/-- LOCKSTEP_ACTIVE: pairs in force. -/
def lockActive (s : State) : Bool := modeLock s.regs.modeCtrl && !(completePairs s).isEmpty

/-- CHIPS_ACTIVE. -/
def chipMask (s : State) : Nat := (activeChips s).foldl (fun m c => m + 2 ^ c) 0

/-- Is the host-visible part of the status valid: from the end of step 5 for the chips (R463)? -/
def chipsReported (b : Boot) : Bool :=
  [Boot.alignment, .apply, .readyStep, .serving, .tooFewChips, .faultShutdown].contains b

/-- TRAY_STATUS (Table CMD-17); 0 in recovery mode (R466). -/
def trayStatus (s : State) : Word :=
  if s.boot = .recovery then 0#32
  else
    let r := s.regs
    BitVec.ofNat 32 (b2n r.ready + 2 * b2n r.degraded + 4 * b2n r.relayActive + 8 * b2n r.cfgDefaulted +
      16 * b2n s.power.powerReady + 32 * b2n r.pfEarly + 64 * b2n r.saving + 128 * b2n (lockActive s) +
      (if chipsReported s.boot then 256 * chipMask s else 0) + 65536 * (if r.ready then r.lead else 0))

/-- A byte of CORES_LO or CORES_HI. -/
def coresByte (s : State) (c : Nat) : Nat :=
  if chipsReported s.boot && (chipOf s c).active then (activeCores s c).length + 32 * (spareCores s c).length else 0

/-- Four bytes, the first at [7:0]. -/
def packBytes (l : List Nat) : Word := BitVec.ofNat 32 (leNat (l.map (BitVec.ofNat 8)))

/-- MODEL_STATE of an id (Table CMD-16): loading while a LOAD_MODEL is accepted and incomplete. -/
def modelState (s : State) (m : Nat) : Nat :=
  if (pendingLoad s m).isSome then 1 else match modelOf s m with | some x => x.state | none => 0

/-! ## READ_FLAGS (Table OPS-11) -/

/-- The bytes of a core's two engines. -/
def coreFlagBytes (s : State) (c k : Nat) : List Byte :=
  let ch := chipOf s c
  let co := nth (Core.fresh k) ch.cores k
  if !ch.active || co.role == .fenced then [0x80#8, 0x80#8]
  else if co.role == .spare then [0x40#8, 0x40#8]
  else [co.te.setWidth 8, co.sfu.setWidth 8]

/-- The 304-byte snapshot on a tick. -/
def flagSnapshot (s : State) (t : Tick) : List Byte :=
  leBytes 8 t ++ leBytes 4 s.regs.flagSummary.toNat ++ leBytes 4 0 ++
    (List.range 8).flatMap fun c => (List.range 18).flatMap fun k => coreFlagBytes s c k

/-- Every serving engine's flags cleared (R107). -/
def clearFlags (s : State) : State :=
  { s with chips := s.chips.map fun ch =>
      { ch with cores := ch.cores.map fun k =>
          if ch.active && k.role == .active then { k with te := noFlags, sfu := noFlags } else k } }

/-! ## The completion record (Tables CMD-6, CMD-8, CMD-11) -/

/-- COMPL_FLAGS with LATE and REPLAYED (R292). -/
def complFlags (c : Cmd) (t : Tick) : Nat :=
  c.cflags ||| b2n (pktDeadline c != 0 && decide (pktDeadline c ≤ t)) ||| 2 * b2n c.replayed

/-- STATUS (R291). -/
def finalStatus (c : Cmd) (t : Tick) : Nat :=
  let f := complFlags c t
  if isFailure c.status then c.status
  else if bit f 0 || c.late then 0x01
  else if bit f 1 then 0x02
  else if bit f 2 then 0x03
  else if bit f 3 then 0x04
  else c.status

/-- The 32 bytes of a record. -/
def recordBytes (s : State) (c : Cmd) (t : Tick) (phase : Bool) : List Byte :=
  leBytes 4 (pktTag c) ++ leBytes 2 (fnRing s c.fn c.ring) ++ leBytes 2 c.index ++ leBytes 1 (finalStatus c t) ++
    leBytes 1 (b2n phase) ++ leBytes 2 (complFlags c t) ++ leBytes 4 c.detail ++ leBytes 8 c.accept ++ leBytes 8 t

end Sys2Proof.Machine
end

