-- ==== Sys2Proof/Machine/Dispatcher.lean ====
section
/-! DEFINITION. The dispatcher: acceptance, holds and starts, completion records and what becomes visible with them,
coalesced interrupts, deadlines and the step watchdog (R274 to R313, R428, R429). -/

namespace Sys2Proof.Machine

/-! ## Which entry is accepted next (R276 to R279, R294) -/

/-- Entry indices from SQ_HEAD to the stored tail. -/
def waitingEntries (x : Ring) : List Nat :=
  let n := sqEntries x
  (List.range ((x.sqTail + n - x.sqHead) % n)).map fun k => (x.sqHead + k) % n

/-- Where an SQ entry lies. -/
def entryAddr (x : Ring) (i : Nat) : Nat := sqBase x + 64 * i

/-- An ABORT among the waiting entries of a ring, not yet taken. -/
def waitingAbort (s : State) (x : Ring) : Option Nat :=
  (waitingEntries x).find? fun i =>
    !x.taken.contains i && hostOk s (entryAddr x i) 64 && memByte s.host (entryAddr x i) == 0x7F#8

/-- Commands of a ring that count towards its limit of 16. -/
def ringLoad (s : State) (r : Nat) : Nat := ((ringCmds s r).filter fun c => pktOp c != 0x7F).length

/-- The entry a ring offers: an ABORT ahead of order, else its head while fewer than 16 are incomplete (R294). -/
def ringOffer (s : State) (r : Nat) : Option (Nat × Bool) :=
  let x := ringOf s r
  match targetOf s r with
  | none => none
  | some q =>
    if !sqEnabled x || x.stalled || cqFree s q = 0 then none
    else match waitingAbort s x with
      | some i => some (i, true)
      | none => if 16 ≤ ringLoad s r || (waitingEntries x).isEmpty then none else some (x.sqHead, false)

/-- The ring served next: ABORTs first, then strict PRIORITY, round robin within it. -/
def pickRing (s : State) : Option (Nat × Nat × Bool) :=
  let offers : List (Nat × Nat × Bool) := s.rings.filterMap fun p => (ringOffer s p.1).map fun o => (p.1, o.1, o.2)
  match offers.find? fun o => o.2.2 with
  | some o => some o
  | none =>
    let top := offers.foldl (fun m o => max m (ringPriority (ringOf s o.1))) 0
    let l := offers.filter fun o => ringPriority (ringOf s o.1) == top
    let last := nth 255 s.served top
    match l.find? fun o => decide (last < o.1) with
    | some o => some o
    | none => l.head?

/-- SQ_HEAD moved past an accepted entry and past entries accepted ahead of order. -/
def advanceHead (x : Ring) : Nat → Ring
  | 0 => x
  | n + 1 =>
    if x.taken.contains x.sqHead then
      advanceHead { x with sqHead := (x.sqHead + 1) % sqEntries x, taken := x.taken.erase x.sqHead } n
    else x

/-- An entry taken. -/
def takeEntry (x : Ring) (i : Nat) : Ring := advanceHead { x with taken := i :: x.taken } 65536

/-- The streams a step command's block names, as they stand now (R45). -/
def snapshotStreams (s : State) (q : Req) : List (Nat × Stream) :=
  if isStepOp q.op then (entryIds (hostBytes s q.addr q.plen) q.count).map fun sid => (sid, streamOf s sid) else []

/-- Step commands in flight: started, their records not yet written (R35). -/
def stepsFlying (s : State) : List Cmd := s.cmds.filter fun c => isStepOp (pktOp c) && c.began && c.phase != .held

/-- The number of step commands in flight. -/
def stepsInFlight (s : State) : Nat := (stepsFlying s).length

/-- The older of two step commands in flight, for which a third waits (R35). -/
def olderStep (s : State) : Option Nat :=
  match stepsFlying s with
  | a :: b :: _ => some (if b.start < a.start then b.id else a.id)
  | _ => none

/-- Does ABORTED take the place of a command's status (R291)? -/
def yieldsToAbort (st : Nat) : Bool := !isFailure st || [0x23, 0x41, 0x50].contains st

/-- Can a command that has not completed still be aborted (R291, R300, R301)? -/
def canAbort (c : Cmd) : Bool := yieldsToAbort c.status && (!c.began || !onlyHeldAbort (pktOp c))

/-- Has an ABORT_ON_LATE command reached its deadline (R299)? -/
def pastDeadline (s : State) (c : Cmd) : Bool := pktAbortOnLate c && decide (pktDeadline c ≠ 0 ∧ pktDeadline c ≤ s.now)

/-- The command an accepted packet makes (R281, R291, R297, R299). -/
def newCmd (s : State) (q : Req) (cq idx : Nat) (t : Tick) : Cmd :=
  let (st, dt) := validate s q
  let deadline := q.f 8 8
  let base : Cmd :=
    { id := s.nextId, fn := q.fn, ring := q.ring, index := idx, cq := cq, packet := q.p, accept := t, start := t
      phase := if st = 0 then .held else .executed, status := st, detail := dt, cflags := 0, late := false
      modeCtrl := q.mode, ctxs := if st = 0 then snapshotStreams s q else [], commits := [], fixed := none
      notBefore := 0, skips := [], replayed := false, reserved := [], began := false
      behind := if isStepOp q.op then olderStep s else none, hang := 0, freed := t }
  if (st = 0 || st = 0x23) && bit (q.f 1 1) 0 && decide (deadline ≠ 0 ∧ deadline ≤ t) then
    { base with phase := .executed, status := 0x40, detail := 1, fixed := some t }
  else if st = 0 && q.op = 0x73 && decide (q.f 0x20 8 ≤ t) then
    { base with phase := .executed, late := true, fixed := some t }
  else base

/-- Does the lead's counter pass tick v without holding it: at one of the adjustments by 2 with which it catches up with the TMC's
copy (R359; log entry 98)? -/
def skipsTick (s : State) (v : Tick) : Bool :=
  let n := (v - s.tmc.2) / ticksA s 1024
  decide (0 < n ∧ (n : Int) ≤ s.tmc.1 ∧ (v - s.tmc.2) % ticksA s 1024 = 0)

/-- The first tick on which an action tied to tick v takes place (R367). -/
def landing (s : State) (v : Tick) : Tick := if skipsTick s v then v + 1 else v

/-- May the dispatcher accept packets: READY, not SAVING (R313, R447)? -/
def accepting (s : State) : Bool := s.regs.ready && !s.regs.saving

/-- A wake from an idle state (R456): back to active; a wake from I4 consumes its slot (R455). -/
def wake (s : State) : State :=
  if s.power.idle = 0 then { s with power := { s.power with idleSince := s.now } }
  else
    let used (x : Slot) : Slot := if x.state = 2 ∧ x.kind = 2 then { x with state := 3 } else x
    { s with
      power := { s.power with idle := 0, idleSince := s.now, i4Slot := false }
      vault := if s.power.idle = 4 then
          { s.vault with slotA := used s.vault.slotA, slotB := used s.vault.slotB } else s.vault }

/-- A command joins the tray; an unreadable parameter block is logged (R312). -/
def joinCommand (s : State) (r : Nat) (ahead : Bool) (c : Cmd) : State :=
  let s := if c.status = 0x23 then logAer s r else s
  let x := ringOf s r
  wake { setRing s r (takeEntry x c.index) with
    cmds := s.cmds ++ [c]
    nextId := s.nextId + 1
    served := if ahead then s.served else modNth s.served (ringPriority x) fun _ => r }

/-- RING_ERR 0x4: the ring fetches no further until it is enabled anew (R311). -/
def stallRing (s : State) (r : Nat) : State :=
  setRing (ringError s r 4) r { ringOf (ringError s r 4) r with stalled := true }

/-- The entry at place i of ring r enters the block: an unreadable entry stalls the ring (R311), any other becomes a
command with its verdict of acceptance, its record reserved (R279, R281). -/
def takeCommand (s : State) (r i : Nat) (ahead : Bool) : State :=
  if !hostOk s (entryAddr (ringOf s r) i) 64 then stallRing s r
  else joinCommand s r ahead
    (newCmd s ⟨ringFn s r, r, hostBytes s (entryAddr (ringOf s r) i) 64, s.regs.modeCtrl⟩ ((targetOf s r).getD r) i s.now)

/-- COMMAND_ACCEPT on a tick. -/
def doCommandAccept (s : State) (t : Tick) : State :=
  let s := stamp s t
  if !accepting s then s
  else match pickRing s with
    | none => s
    | some (r, i, ahead) => takeCommand s r i ahead

/-- COMMAND_ACCEPT (R279, R294). -/
def execCommandAccept (t : Tick) (s : State) : Host.Outcome State Fault Refusal := .next (doCommandAccept s t)

/-! ## Holds (R295 and the rules it names) -/

/-- The streams a command names. -/
def cmdStreams (s : State) (c : Cmd) : List Nat :=
  let op := pktOp c
  if isStepOp op then c.ctxs.map fun p => p.1
  else if decide (0x20 ≤ op ∧ op ≤ 0x25) then [pkt c 0x20 2]
  else if op = 0x47 then (let b := paramBytes s c; if fieldAt b 0 1 = 1 then [fieldAt b 4 2] else [])
  else []

/-- The model a command names (R263, R264). -/
def cmdModel (s : State) (c : Cmd) : Option Nat :=
  let op := pktOp c
  if [0x10, 0x11, 0x12].contains op then some (pktModel c)
  else if op = 0x60 then
    let b := paramBytes s c
    if fieldAt b 2 1 = 1 then (if fieldAt b 4 1 = 0 then some (pktModel c) else none)
    else match auditRec s (fieldAt b 0 2) (fieldAt b 8 6) with
      | some (_, r) => r.model.map fun p => p.1
      | none => none
  else if namesModel ⟨c.fn, c.ring, c.packet, c.modeCtrl⟩ then some (pktModel c)
  else none

/-- The function slot an APPLY_FUNCTION or LOAD_FUNCTION names (R132). -/
def cmdSlot (s : State) (c : Cmd) : Option Nat :=
  let b := paramBytes s c
  if pktOp c = 0x50 then some (fieldAt b 1 1)
  else if pktOp c = 0x46 && decide (0x40 ≤ fieldAt b 0x40 1) then some (fieldAt b 0x40 1 - 0x40)
  else none

/-- The lane number a command binds or jumps (R191, R195). -/
def cmdLane (s : State) (c : Cmd) : Option Nat :=
  let b := paramBytes s c
  if pktOp c = 0x47 then (if fieldAt b 0 1 = 0 then some (fieldAt b 2 1) else none)
  else if bindsLane (pktOp c) b then some (fieldAt b 0x43 1)
  else none

/-- The bank entries a command names (R248). -/
def cmdBanks (s : State) (c : Cmd) : List Nat :=
  let op := pktOp c
  if op = 0x51 then [fieldAt (paramBytes s c) 0 2]
  else if isStepOp op then
    let b := paramBytes s c
    (List.range (pkt c 2 2)).flatMap fun j =>
      let e := entryAt b j
      let ctx := (mapGet Stream.closed c.ctxs (fieldAt e 0 2)).maskSpec
      if op = 0x32 then
        (List.range (fieldAt e 3 1 + 1)).flatMap fun k =>
          specBanks (specInForce ctx (fieldAt (hostBytes s (fieldAt e 0x20 8 + 32 * k) 32) 0x18 8))
      else specBanks (specInForce ctx (fieldAt e 0x10 8))
  else if op = 0x60 then
    let b := paramBytes s c
    if fieldAt b 2 1 = 1 then
      specBanks (specInForce (imageStream (hostBytes s (fieldAt b 0x10 8) 18960)).maskSpec
        (fieldAt (hostBytes s (fieldAt b 0x18 8) 64) 0x10 8))
    else match auditRec s (fieldAt b 0 2) (fieldAt b 8 6) with
      | some (_, r) => r.banks.map fun p => p.1
      | none => []
  else []

/-- The stream commands that wait for a step on their stream (R45), and RING_JUMP with a stream (R194). -/
def holdsForStep (op : Nat) : Bool := [0x21, 0x22, 0x23, 0x24, 0x25, 0x47].contains op

/-- Does an earlier incomplete command d hold c back? -/
def holdsBack (s : State) (d c : Cmd) : Bool :=
  let od := pktOp d
  let oc := pktOp c
  let shares := (cmdStreams s c).any fun x => (cmdStreams s d).contains x
  (isStepOp od && shares && (isStepOp oc || holdsForStep oc)) ||
  (od == 0x50 && d.phase != .held) ||
  ((od == 0x50 || oc == 0x50) && (cmdSlot s d).isSome && cmdSlot s d == cmdSlot s c) ||
  ((od == 0x51 || oc == 0x51) && (cmdBanks s c).any fun x => (cmdBanks s d).contains x) ||
  (od == 0x10 && !isFailure d.status && cmdModel s c == some (pktModel d)) ||
  (oc == 0x11 && cmdModel s d == some (pktModel c)) ||
  ((cmdLane s d).isSome && cmdLane s d == cmdLane s c) ||
  (od == 0x02 && (if pkt d 0x20 1 = 0 then d.ring == c.ring else d.fn == c.fn)) ||
  (od == 0x73 && d.ring == c.ring && d.phase != .executed) || od == 0x72 || od == 0x70 || oc == 0x70

/-- Does a step command in flight name a stream of a stream command, whichever was accepted first (R45)? -/
def streamBusy (s : State) (c : Cmd) : Bool :=
  holdsForStep (pktOp c) && (stepsFlying s).any fun d => (cmdStreams s c).any fun x => (cmdStreams s d).contains x

/-- Has the older of the two step commands, for which a third waits, written its record (R35)? -/
def olderDone (s : State) (c : Cmd) : Bool :=
  match c.behind with
  | some o => s.cmds.all fun d => d.id != o
  | none => true

/-- Has every hold on a held command been released? -/
def mayStart (s : State) (c : Cmd) : Bool :=
  let op := pktOp c
  c.phase == .held &&
  (op == 0x7F ||
    ((s.cmds.all fun d => !decide (d.id < c.id) || !holdsBack s d c) &&
     (s.cmds.all fun d => !(pktOp d == 0x50 && d.phase != .held && d.id != c.id)) &&
     (!isStepOp op || (decide (stepsInFlight s < 2) && olderDone s c)) && !streamBusy s c &&
     (op != 0x10 || !s.regs.relayActive) &&
     (op != 0x11 || s.cmds.all fun d => d.id == c.id || d.phase == .held || cmdModel s d != some (pktModel c)) &&
     s.quiet == .none && s.shutdown == .none &&
     (match s.loss with | .recovering _ => false | .declared _ _ old => old.isEmpty | .none => true)))

/-- The overhang allowance of a command in ticks, for the host links trained now (R268, R428). -/
def hangTicks (s : State) (c : Cmd) : Nat :=
  match (match cmdModel s c with | some m => modelOf s m | none => none) with
  | some m => ticksUs s (overhangUs s m)
  | none => 0

/-- Ticks covered by spans in ascending order of their starts; `upTo` is how far they have been counted. -/
def spanTicks (upTo : Tick) : List (Tick × Tick) → Nat
  | [] => 0
  | (a, b) :: rest => (b - max a upTo) + spanTicks (max b upTo) rest

/-- The spans in RETRY that go on now of directions that hold an unacknowledged DATA flit of a command. -/
def openSkips (s : State) (c : Cmd) : List (Tick × Tick) :=
  s.mesh.flatMap fun l => [l.up, l.down].filterMap fun d => match d.retry with
    | some r => if d.unacked.any fun f => f.context == c.id % 2 ^ 32 then some (r.mark, s.now) else none
    | none => none

/-- The ticks since a command's start that the watchdog skips (R428): each tick counts once, however many directions were in RETRY. -/
def skipTicks (s : State) (c : Cmd) : Nat :=
  spanTicks c.start (sortBy (fun a b => decide (a.1 < b.1)) (c.skips ++ openSkips s c))

/-- With two step commands in flight, every held one waits for the older (R35). -/
def markBehind (s : State) : State :=
  match olderStep s with
  | some o => { s with cmds := s.cmds.map fun d =>
      if d.phase == .held && isStepOp (pktOp d) then { d with behind := some o } else d }
  | none => s

/-- A command started on the present tick. -/
def startCmd (s : State) (c : Cmd) (reserved : List Nat) : State :=
  let h := hangTicks s c
  markBehind (setCmd s c.id fun d =>
    { d with phase := .started, start := s.now, began := true, hang := h, reserved := reserved })

/-- COMMAND_START of a command on a tick; one whose deadline has come while it was held is aborted instead (R299). -/
def doCommandStart (s : State) (id : Nat) (t : Tick) : State :=
  let s := stamp s t
  match cmdOf s id with
  | none => s
  | some c =>
    if c.phase == .held && canAbort c && pastDeadline s c then endCmd s id 0x40 1 (some (landing s (pktDeadline c)))
    else if !mayStart s c || !s.regs.ready then s
    else if pktOp c = 0x10 then
      match reserveLoad s (paramBytes s c) (pktModel c) with
      | some r => startCmd s c r
      | none => setCmd s id fun c => { c with phase := .executed, start := s.now, status := 0x30, began := true }
    else startCmd s c []

/-- COMMAND_START (R295, R35). -/
def execCommandStart (id : Nat) (t : Tick) (s : State) : Host.Outcome State Fault Refusal :=
  .next (doCommandStart s id t)

/-! ## What becomes visible with a record (R64, R239) -/

/-- Counters of a list set to 0 where the mask selects them (R340). -/
def clearSelected (mask : Nat) (l : List Nat) : List Nat :=
  (withIndex l).map fun (i, v) => if mask = 0 || bit mask i then 0 else v

/-- CLEAR_COUNTERS (R340). -/
def clearCounterSets (s : State) (scope mask : Nat) : State :=
  let z := clearSelected mask
  { s with
    chips := s.chips.map fun ch =>
      { ch with
        cores := if bit scope 0 then ch.cores.map fun k => { k with counters := z k.counters } else ch.cores
        hbm := if bit scope 2 then z ch.hbm else ch.hbm
        counters := if bit scope 3 then z ch.counters else ch.counters }
    mesh := if bit scope 1 then s.mesh.map fun l => { l with counters := z l.counters } else s.mesh
    totals := if bit scope 4 then z s.totals else s.totals }

/-- MODE_CTRL after a SET_MODE: DETERMINISTIC keeps ORDER_MODE at 1, and clearing it leaves FIXED unless the same command
writes ORDER_MODE 0 (R304, R341). -/
def newMode (w mask value : Word) : Word :=
  let v := (w &&& ~~~mask) ||| (value &&& mask)
  if v.getLsbD 0 then v ||| 2#32 else v

/-- The records and base of an audited stream cleared (Table DET-10). -/
def unaudit (s : State) (sid : Nat) : State := { s with audited := s.audited.filter fun a => a.sid != sid }

/-- The tick of an audited stream's newest record. -/
def newestTick (a : Audited) : Tick := (a.recs.getLast?.map fun r => r.tick).getD 0

/-- A record entered for an audited stream (R396): same (stream, STEP) replaced, a seventeenth evicts the oldest into the
base, a 513th stream on the chip displaces the stalest. -/
def enterAudit (s : State) (sid : Nat) (base : Stream) (r : AuditRec) : State :=
  let chip := (homeOf s sid).1
  let a : Audited := (s.audited.find? fun a => a.sid == sid).getD ⟨sid, chip, base.hist, base.histHead, []⟩
  let recs := (a.recs.filter fun x => x.step != r.step) ++ [r]
  let a' : Audited :=
    match recs with
    | old :: rest =>
      if 16 < recs.length then
        let ts := match old.token with | some t => [t] | none => []
        let h := a.base ++ ts
        { a with base := h.drop (h.length - min h.length 4096), baseHead := (a.baseHead + ts.length) % 4096, recs := rest }
      else { a with recs := recs }
    | [] => { a with recs := recs }
  let others := s.audited.filter fun b => b.sid != sid
  let mine := others.filter fun b => b.chip == chip
  let others := if mine.length < 512 then others else
    let stale := mine.foldl (fun m b => min m (newestTick b)) (newestTick (mine.headD a'))
    match mine.find? fun b => newestTick b == stale with
    | some v => others.filter fun b => b.sid != v.sid
    | none => others
  { s with audited := others ++ [a'] }

/-- A lane set by a command (R191). -/
def setLane (s : State) (c l : Nat) (v : Qword) : State :=
  setChip s c fun ch => { ch with lanes := modNth ch.lanes l fun _ => v }

/-- A stream's Ring state after RING_JUMP (R195). -/
def jumpStream (st : Stream) (reset : Bool) (d : Qword) : Stream :=
  let start := if reset || !st.ringBound then streamRingStart st.seed else st.ring
  { st with ring := ringJump (ringMask 0) start d, ringBound := true }

/-- Does a staged commit still find its stream as it needs it (R237, R250, R420)? -/
def commitHolds (s : State) : Commit → Bool
  | .openStream sid _ => !(streamOf s sid).isOpen
  | .setParams sid _ _ _ => (streamOf s sid).isOpen
  | .closeStream sid => (streamOf s sid).isOpen
  | .history sid mode _ => (streamOf s sid).isOpen && (mode == 0 || (streamOf s sid).histValid)
  | .streamRing sid _ _ => (streamOf s sid).isOpen
  | _ => true

/-- A held step command sees the counter and the history that an earlier step on its stream commits (R36). -/
def followStep (sid step : Nat) (tokens : List Nat) (c : Cmd) : Cmd :=
  if c.phase == .held && isStepOp (pktOp c) then
    { c with ctxs := c.ctxs.map fun p => if p.1 == sid then (sid, appendTokens { p.2 with step := step } tokens) else p }
  else c

/-- A context cleared in the Truffle vault's save slots (R238). -/
def clearSlot (sid : Nat) (x : Slot) : Slot := { x with contexts := x.contexts.filter fun p => p.1 != sid }

/-! ## Slots for background tasks (R372, R381, R446, R460) -/

/-- May tasks take slots: in service, no brownout window, no shutdown, no loss being handled (R446, R460)? -/
def slotsOpen (s : State) : Bool :=
  s.regs.ready && s.power.window.isNone && s.shutdown == .none && s.loss == .none

/-- Is FIXED order in force: in MODE_CTRL, or for a started command that was accepted under it (R372)? -/
def fixedNow (s : State) : Bool :=
  modeFixed s.regs.modeCtrl || s.cmds.any fun c => c.phase != .held && modeFixed c.modeCtrl

/-- Is a BIST asked for on some chip (R394, R429)? -/
def testWanted (s : State) : Bool :=
  (activeChips s).any fun c => (chipOf s c).test || (chipOf s c).cores.any fun k => k.test && k.role != .fenced

/-- A quiet slot asked for where FIXED order has work for one (R381, R459). -/
def askQuiet (s : State) : State :=
  if s.quiet == .none && slotsOpen s && fixedNow s && (!s.tasks.isEmpty || testWanted s) then { s with quiet := .wanted } else s

/-- One staged commit applied on tick t. -/
def applyCommit (t : Tick) (s : State) : Commit → State
  | .step sid base tokens adv ring =>
    let st := streamOf s sid
    if !st.isOpen then s
    else
      let st := appendTokens { st with step := base + adv } tokens
      setStream { s with cmds := s.cmds.map (followStep sid (base + adv) tokens) } sid
        (match ring with | some r => { st with ring := r, ringBound := true } | none => st)
  | .openStream sid st =>
    let s := setStream s sid st
    { s with vault := { s.vault with bias := mapIns s.vault.bias sid st.bias } }
  | .setParams sid block w bias =>
    let st := applyParams (streamOf s sid) block (selOf block) w bias
    let s := setStream s sid st
    { s with vault := { s.vault with bias := mapIns s.vault.bias sid st.bias } }
  | .closeStream sid =>
    let s := unaudit (setStream s sid Stream.closed) sid
    { s with vault := { s.vault with
        bias := mapIns s.vault.bias sid [], slotA := clearSlot sid s.vault.slotA, slotB := clearSlot sid s.vault.slotB } }
  | .history sid mode tokens =>
    let st := streamOf s sid
    let new := if mode = 0 then { st with hist := tokens, histHead := tokens.length % 4096, histValid := true }
      else appendTokens st tokens
    unaudit (setStream s sid new) sid
  | .streamRing sid reset d => setStream s sid (jumpStream (streamOf s sid) reset d)
  | .lane c l v => setLane s c l v
  | .lanes l reset d =>
    (activeChips s).foldl (fun s c =>
      let old := if reset then laneStart c l else nth 0#128 (chipOf s c).lanes l
      setLane s c l (ringJump (ringMask l) old d)) s
  | .loadModel mid m =>
    { s with
      models := mapIns (mapDel s.models mid) mid m
      modelGen := mapSet 0 s.modelGen mid ((genOf s.modelGen mid + 1) % 2 ^ 32)
      vault := { s.vault with models := mapIns (mapDel s.vault.models mid) mid ⟨m.desc, m.state, m.priority⟩ } }
  | .unloadModel mid =>
    { s with models := mapDel s.models mid, vault := { s.vault with models := mapDel s.vault.models mid } }
  | .priority mid p =>
    { s with
      models := s.models.map fun x => if x.1 == mid then (x.1, { x.2 with priority := p }) else x
      vault := { s.vault with models := s.vault.models.map fun x =>
        if x.1 == mid then (x.1, { x.2 with priority := p }) else x } }
  | .suspend mid => suspendNow s mid
  | .mask e m =>
    let new : Mask := m.getD ⟨0, 0⟩
    { s with
      masks := mapIns s.masks e new
      vault := { s.vault with
        masks := mapIns s.vault.masks e new
        maskGen := mapSet 0 s.vault.maskGen e ((genOf s.vault.maskGen e + 1) % 2 ^ 32) } }
  | .function slot image =>
    { s with
      functions := mapIns (mapDel s.functions slot) slot image
      vault := { s.vault with functions := mapIns (mapDel s.vault.functions slot) slot image } }
  | .clearCounters scope mask => clearCounterSets s scope mask
  | .mode mask value cap =>
    let w := newMode s.regs.modeCtrl mask value
    askQuiet { s with
      regs := { s.regs with modeCtrl := w }
      power := { s.power with cap := cap.getD s.power.cap }
      audited := if modeWindow w then s.audited else [] }
  | .wake us => { s with regs := { s.regs with wakeTolerance := us } }
  | .audit sid step ctx entry head result bias input absent mid banks token =>
    enterAudit s sid (parseCtx ctx bias (streamOf s sid).hist)
      ⟨step, ctx, entry, head, result, bias, input, absent, mid, banks, token, t⟩
  | .clearAudit sid => unaudit s sid

/-! ## The watchdog's budget (R268, R428) -/

/-- Elements a command scores, reads or writes (R428). -/
def cmdElements (s : State) (c : Cmd) : Nat :=
  let q : Req := ⟨c.fn, c.ring, c.packet, c.modeCtrl⟩
  let b := paramBytes s c
  let op := pktOp c
  if isStepOp op then
    let n := pkt c 2 2
    let rows := if op = 0x32 then
        (List.range n).foldl (fun t j => t + fieldAt (entryAt b j) 3 1 + 1) 0
      else if op = 0x33 then n * (1 + pkt c 0x2A 1) else n
    rows * rowLength s q
  else if isTensorOp op then fieldAt b 0 4 * fieldAt b 4 4
  else if op = 0x61 then fieldAt b 4 4 * fieldAt b 8 4
  else if op = 0x60 then
    (if fieldAt b 2 1 = 1 && fieldAt b 4 1 = 1 then fieldAt b 0x20 4
     else match (match cmdModel s c with | some m => descNow s m | none => none) with
       | some d => dVocab d | none => 0)
  else 0

/-- The watchdog's budget in ticks, with the overhang allowance of the links trained at its start (R268, R428). -/
def watchdogBudget (s : State) (c : Cmd) : Nat :=
  let e := cmdElements s c
  let b := 3200000 + (if 16777216 < e then ceilDiv (e - 16777216) 2048 * 1600 else 0)
  ticksA s b + c.hang

/-- The commands the watchdog watches. -/
def watched (op : Nat) : Bool := isStepOp op || isTensorOp op || op == 0x60 || op == 0x61

/-- Has the watchdog of a command expired by tick t: its count has reached the budget (R428)? -/
def expired (s : State) (c : Cmd) (t : Tick) : Bool :=
  watched (pktOp c) && c.phase != .held && !isFailure c.status && decide (c.start + watchdogBudget s c + skipTicks s c ≤ t)

/-- Has the snapshot tick that a drain fixed in advance come (R447)? -/
def snapshotDue (s : State) (t : Tick) : Bool :=
  match s.shutdown with | .drain d _ _ _ => decide (d + ticksUs s 10000 ≤ t) | _ => false

/-! ## The completion record (R278, R288, R289, R305, R311) -/

/-- A message of a CQ and its counts restarted. -/
def sendCq (s : State) (q : Nat) : State :=
  let x := ringOf s q
  sendMsi (setRing s q { x with coal := 0, oldest := none }) (ringFn s q) (bits x.vector.toNat 8 0)

/-- The counts of R305 after a record; a message where COUNT asks for one. -/
def countRecord (s : State) (q : Nat) (suppress : Bool) (t : Tick) : State :=
  let x := ringOf s q
  let n := x.coal + b2n (!suppress)
  let want := bits x.coalesce.toNat 15 0
  let s := setRing s q { x with coal := n, oldest := some (x.oldest.getD t) }
  if !ringIrq x then s
  else if want = 0 then (if suppress then s else sendCq s q)
  else if want ≤ n then sendCq s q else s

/-- A record written into the next slot of its CQ, or kept until a link trains (R278, R311). -/
def writeRecord (s : State) (c : Cmd) (t : Tick) : State :=
  let x := ringOf s c.cq
  let bs := recordBytes s c t x.phase
  let a := cqBase x + 32 * x.cqTail
  let n := cqEntries x
  let tail := (x.cqTail + 1) % n
  let s := setRing s c.cq
    { x with
      cqTail := tail, phase := if tail = 0 then !x.phase else x.phase, written := x.written + 1
      records := x.records ++ [(x.cqTail, t, bs)] }
  let s := if (trainedLinks s).isEmpty then
      { ringError s c.cq 5 with unrecorded := s.unrecorded ++ [(c.cq, a, bs)] }
    else hostWrite s a bs
  countRecord s c.cq (pktIrqSuppress c) t

/-- Is an ABORT waiting that stamped before tick t and targets the command (R300)? -/
def abortWaits (s : State) (c : Cmd) (t : Tick) : Bool :=
  s.cmds.any fun a => pktOp a == 0x7F && a.phase != .executed && a.fn == c.fn && decide (c.accept < a.accept) &&
    decide (a.accept < t) && pktOp c != 0x7F &&
    (match pkt a 0x22 1 with
     | 0 => trayRing s a.fn (pkt a 0x20 2) == some c.ring && pkt a 0x24 4 == pktTag c
     | 1 => trayRing s a.fn (pkt a 0x20 2) == some c.ring
     | _ => true)

/-- Is a completion on tick t caught by a declared fence tick (R419)? -/
def caughtByFence (s : State) (t : Tick) : Bool :=
  match s.loss with | .declared _ f _ => decide (f ≤ t) | _ => false

/-- The command as it ends on tick t: aborted at its deadline where R299 says so, BAD_PARAM where its stream is gone. -/
def settleCmd (s : State) (c : Cmd) (t : Tick) : Cmd × Tick :=
  let d := pktDeadline c
  if canAbort c && pktAbortOnLate c && decide (d ≠ 0 ∧ d ≤ t) then
    ({ c with status := 0x40, detail := 1, commits := [] }, landing s d)
  else if !isFailure c.status && !(c.commits.all (commitHolds s)) then
    ({ c with status := 0x20, detail := noLocation, commits := [] }, t)
  else (c, t)

/-- The stride of result entries (R59, R208, R218, R223). -/
def entryStride : Nat → Nat
  | 0x32 => 432 | 0x33 => 240 | 0x34 => 192 | _ => 160

/-- The bytes of an operator row's output (R317, R324, R325). -/
def opOutBytes (op : Nat) (b : List Byte) : Nat :=
  let h := parseHdr b
  match op with
  | 0x41 => 8 * min (fieldAt b 0x40 4) h.len
  | 0x42 => 8 * min h.len 65536
  | 0x43 => 16
  | _ => opRowBytes h.outFmt h.outBlock h.len

/-- The size of a REPLAY's dump as its block asks for it. -/
def replayDumpSize (s : State) (c : Cmd) (b : List Byte) : Nat :=
  let mask := fieldAt b 3 1
  if fieldAt b 2 1 = 1 then
    if fieldAt b 4 1 = 1 then dumpSize mask (fieldAt b 0x20 4) 0
    else match modelOf s (pktModel c) with
      | some m => dumpSize mask (dVocab m.desc) (dRowBytes m.desc)
      | none => 0x100
  else match auditRec s (fieldAt b 0 2) (fieldAt b 8 6) with
    | some (_, r) =>
      let vec := match r.model with
        | some (mid, _) => (match modelOf s mid with | some m => dRowBytes m.desc | none => 0)
        | none => 0
      dumpSize mask (fieldAt r.head 4 4) vec
    | none => 0

/-- The output areas, row records and dumps of a command in host memory (Tables OPS-1, OPS-9 to OPS-12, R316). -/
def outAreas (s : State) (c : Cmd) : List (Nat × Nat) :=
  let op := pktOp c
  let n := pkt c 2 2
  let b := paramBytes s c
  if isStepOp op then
    (pkt c 0x20 8, n * entryStride op) ::
      (if op = 0x33 then [(pkt c 0x30 8, n * 2048)] else if op = 0x34 then [(pkt c 0x30 8, n * pkt c 0x38 4 * 16)] else [])
  else if isTensorOp op then
    let h := parseHdr b
    (List.range h.rows).map (fun r => (h.outAddr + r * h.outStride, opOutBytes op b)) ++
      (if op = 0x40 && bit h.flags 1 then [(h.aux, 16 * h.rows)] else if op = 0x42 then [(h.aux, 8 * h.rows)] else [])
  else match op with
    | 0x24 => [(pktParam c, 18960)]
    | 0x60 => [(fieldAt b 0x28 8, replayDumpSize s c b)]
    | 0x61 => [(fieldAt b 0x20 8, fieldAt b 4 4 * (if fieldAt b 0 1 = 1 then 8 else 40))]
    | 0x62 => [(fieldAt b 0 8, 304)]
    | 0x63 => [(fieldAt b 8 8, 65536)]
    | _ => []

/-- n unspecified bytes of a run, the first numbered k. -/
def freeBytes (run k n : Nat) : List Byte := (List.range n).map fun i => Config.unspecifiedByte run (k + i)

/-- Areas filled with unspecified bytes. -/
def spoilAreas (s : State) : Nat → List (Nat × Nat) → State
  | _, [] => s
  | k, (a, n) :: rest => spoilAreas (hostWrite s a (freeBytes s.freeCtr k n)) (k + n) rest

/-- A status of the second group of R291. -/
def isSecondGroup (st : Nat) : Bool := [0x60, 0x40, 0x23, 0x41, 0x50].contains st

/-- What a command that ends with a status of the second group leaves: its outputs hold unspecified bytes (R331). A
parameter block that could not be read names no area. -/
def spoil (s : State) (c : Cmd) : State :=
  if !isSecondGroup c.status || (c.status = 0x23 && decide (c.detail < 2 ^ 31)) then s
  else nextFree (spoilAreas s 0 (outAreas s c))

/-- The outputs of a command beside those of the last 200 µs, which a bridge failure rewrites (R503). -/
def keepRecent (s : State) (c : Cmd) (t : Tick) : List (Tick × List (Nat × List Byte)) :=
  (s.recent.filter fun p => decide (t ≤ p.1 + ticksUs s 200)) ++
    [(t, if isFailure c.status then [] else (outAreas s c).map fun a => (a.1, hostBytes s a.1 a.2))]

/-- Is a stream named by a step command in flight? -/
def stepOnStream (s : State) (sid : Nat) : Bool := (stepsFlying s).any fun d => (cmdStreams s d).contains sid

/-- Streams that waited for their step move to their new homes (R230). -/
def releaseMoves (s : State) : State :=
  let stay := s.moving.filter (stepOnStream s)
  { s with
    moving := stay
    homes := s.homes.filter fun p => !s.moving.contains p.1 || stay.contains p.1 }

/-- The commands that a command held back have it behind them (R366). -/
def freeFollowers (s : State) (c : Cmd) (t : Tick) : State :=
  { s with cmds := s.cmds.map fun d =>
      if d.phase == .held && (holdsBack s c d || (isStepOp (pktOp c) && isStepOp (pktOp d))) then { d with freed := t } else d }

/-- The record of a command issued on tick t, with its commits; none for a command that a function-level reset left
without a ring (R309). -/
def completeCmd (s : State) (c : Cmd) (t : Tick) : State :=
  let (c, t) := settleCmd s c t
  let s := freeFollowers (spoil (c.commits.foldl (applyCommit t) s) c) c t
  let s := releaseMoves { s with
    cmds := s.cmds.filter fun d => d.id != c.id
    done := if pktOp c = 0x7F then s.done else (c.ring, pktTag c) :: s.done
    recent := keepRecent s c t
    power := { s.power with idleSince := max s.power.idleSince t } }
  if c.cq = 256 then s else writeRecord s c t

/-- COMPLETION_RECORD_WRITE of a command on a tick. -/
def doCompletionRecordWrite (s : State) (id : Nat) (t : Tick) : State :=
  match cmdOf s id with
  | none => stamp s t
  | some c =>
    let t' := match c.fixed with | some f => f | none => max (max s.now t) c.notBefore
    let s := stamp s t'
    if c.phase != .executed || (caughtByFence s t' && !isFailure c.status) || expired s c t' || snapshotDue s t' ||
        (abortWaits s c t' && (!isFailure c.status || canAbort c)) then s
    else completeCmd s c t'

/-- COMPLETION_RECORD_WRITE (R64, R289). -/
def execCompletionRecordWrite (id : Nat) (t : Tick) (s : State) : Host.Outcome State Fault Refusal :=
  .next (doCompletionRecordWrite s id t)

/-- CQ_COALESCE_DELAY (R305). -/
def doCqCoalesceDelay (s : State) (r : Nat) (t : Tick) : State :=
  let s := stamp s t
  let x := ringOf s r
  let delay := bits x.coalesce.toNat 31 16
  match x.oldest with
  | some t0 => if ringIrq x && delay != 0 && decide (t0 + ticksUs s delay ≤ s.now) then sendCq s r else s
  | none => s

/-- CQ_COALESCE_DELAY. -/
def execCqCoalesceDelay (r : Nat) (t : Tick) (s : State) : Host.Outcome State Fault Refusal :=
  .next (doCqCoalesceDelay s r t)

/-! ## Deadlines and the watchdog (R299, R428, R429) -/

/-- A barrier whose BARRIER is aborted ends (R299, R300, R309). -/
def dropBarrier (s : State) (gone : Nat → Bool) : State :=
  { s with barrierSt := s.barrierSt.filter fun b => !gone b.id }

/-- DEADLINE_EXPIRY of a command: an ABORT_ON_LATE command that is not complete ends on its deadline tick. -/
def doDeadlineExpiry (s : State) (id : Nat) : State :=
  match cmdOf s id with
  | none => s
  | some c =>
    let d := pktDeadline c
    if pktAbortOnLate c && d != 0 && canAbort c then
      dropBarrier (endCmd (stamp s (landing s d)) id 0x40 1 (some (landing s d))) fun i => i == id
    else s

/-- DEADLINE_EXPIRY. -/
def execDeadlineExpiry (id : Nat) (s : State) : Host.Outcome State Fault Refusal := .next (doDeadlineExpiry s id)

/-- A core that had not delivered is to be tested in the next background slot (R429). -/
def askTest (s : State) (p : Nat × Nat) : State := setCore s p.1 p.2 fun k => { k with test := true }

/-- WATCHDOG_EXPIRY of a command on a tick: it ends WATCHDOG where its count has reached the budget; the cores that had not
delivered their partials are to be tested (R429). -/
def doWatchdogExpiry (s : State) (id : Nat) (stuck : List (Nat × Nat)) (t : Tick) : State :=
  let s := stamp s t
  match cmdOf s id with
  | none => s
  | some c =>
    if expired s c s.now && !caughtByFence s s.now then
      stuck.foldl askTest (countChip (endCmd s id 0x41 0 none) s.regs.lead 5 1)
    else s

/-- WATCHDOG_EXPIRY. -/
def execWatchdogExpiry (id : Nat) (stuck : List (Nat × Nat)) (t : Tick) (s : State) : Host.Outcome State Fault Refusal :=
  .next (doWatchdogExpiry s id stuck t)

end Sys2Proof.Machine
end

