-- ==== Sys2Proof/Machine/Repair.lean ====
section
/-! DEFINITION. What the fault manager does that several events share: core fences, row sparing, chip-loss declaration,
stream and mask loss, memory and compare events met while a command runs, a shutdown's commit (R403 to R424, R447). -/

namespace Sys2Proof.Machine

/-! ## Chip loss declared (R418, R419) -/

/-- A chip declared lost on the present tick: the fence tick lies 1,600 ticks later; a loss within the same detection time
joins it (Table FLT-11), one after the fence starts the phases again (R423). -/
def declareLoss (s : State) (c : Nat) : State :=
  if !(chipOf s c).active then s
  else match s.loss with
    | .declared cs f old => if cs.contains c then s else { s with loss := .declared (cs ++ [c]) f old }
    | .recovering old => { s with loss := .declared [c] (s.now + ticksA s 1600) old }
    | .none => { s with loss := .declared [c] (s.now + ticksA s 1600) [] }

/-- A chip lost on a report. A chip never declares itself lost, so the deputy's own loss waits for its missed heartbeats, which
the next chip sees (R403, R404). -/
def declareBy (s : State) (c : Nat) : State := if s.deputy = some c then s else declareLoss s c

/-- A chip's fatal report, counted, and the loss it causes (R403, Table FLT-6). -/
def fatal (s : State) (c : Nat) : State :=
  if !(chipOf s c).active then s else declareBy (countChip s c 7 1) c

/-- Is a chip lost, or declared lost? -/
def losing (s : State) (c : Nat) : Bool :=
  !(chipOf s c).active || (match s.loss with | .declared cs _ _ => cs.contains c | _ => false)

/-! ## Cores (R412 to R416) -/

/-- Cores of a chip that work or stand by. -/
def workingCores (s : State) (c : Nat) : Nat := (activeCores s c).length + (spareCores s c).length

/-- The fence of a core on its fence tick: an active core waits for its replacement; a spare leaves the pool and the ledger
(R411). A fence that would leave fewer than 12 working cores is a chip loss (R22, R415); within a lost chip a fence is moot
(R39). -/
def fenceCore (s : State) (c k origin : Nat) : State :=
  let co := nth (Core.fresh k) (chipOf s c).cores k
  if losing s c || co.role == .fenced then s
  else if workingCores s c ≤ 12 then fatal s c
  else if co.role == .spare then addLedger (setCore s c k fun x => { x with role := .fenced }) 2 c k origin 0 0
  else
    let s := countChip (setCore s c k fun x => { x with role := .fenced, pending := some (origin, s.now), missed := 0 }) c 0 1
    logFault (raiseEvent s evCORE_FENCED) evCORE_FENCED c k 0

/-- The fence of a chip that is handled next: the earliest fence tick first, the lower core on a tie (R416, log entry 94). -/
def nextFence (s : State) (c : Nat) : Option Nat :=
  let l := (withIndex (chipOf s c).cores).filterMap fun (k, x) => x.pending.map fun p => (p.2, k)
  (sortBy (fun a b => decide (a.1 < b.1 ∨ (a.1 = b.1 ∧ a.2 < b.2))) l).head?.map fun p => p.2

/-- A fenced core's replacement in service (R413): the lowest-numbered spare, else the remaining cores. -/
def replaceCore (s : State) (c k : Nat) : State :=
  let co := nth (Core.fresh k) (chipOf s c).cores k
  match co.pending with
  | none => s
  | some (origin, _) =>
    let s := setCore s c k fun x => { x with pending := none, te := noFlags, sfu := noFlags }
    match (spareCores s c).head? with
    | some j =>
      let s := setCore s c j fun x => { x with role := .active, te := noFlags, sfu := noFlags }
      addLedger s 1 c k origin 0 j
    | none => addLedger s 2 c k origin 0 0

/-- The lowest spare row of a core that is neither mapped nor found bad (R405, R409; log entry 95). -/
def freeSpare (co : Core) : Option Nat :=
  (List.range 24).find? fun j => !co.badSpares.contains j && !co.spared.any fun p => p.2 == j

/-- A failed row's sparing no longer waits for a slot. -/
def dropSparing (s : State) (c k row : Nat) : State :=
  { s with tasks := s.tasks.filter fun t => !(t.kind == 5 && t.chip == c && t.arg == 2048 * k + row) }

/-- A failed SRAM row spared, or its core fenced where no spare row is left (R405, R411, R412). Where the row was spared before, it
is its spare row that failed: that one is out of use, and the row gets another. -/
def spareRow (s : State) (c k row origin : Nat) : State :=
  let s := dropSparing s c k row
  let co := nth (Core.fresh k) (chipOf s c).cores k
  let old := (co.spared.filter fun p => p.1 == row).map fun p => p.2
  let co := { co with badSpares := co.badSpares ++ old, spared := co.spared.filter fun p => p.1 != row }
  if losing s c || co.role == .fenced then s
  else match freeSpare co with
    | none => fenceCore s c k origin
    | some j =>
      let s := setCore s c k fun x => { x with spared := co.spared ++ [(row, j)], badSpares := co.badSpares }
      addLedger (countCore s c k 2 1) 3 c k origin row j

/-- A spare row that fails the march: out of use, and the row it stood for is spared again (R409, R411). -/
def spareFails (s : State) (c k j origin : Nat) : State :=
  match (nth (Core.fresh k) (chipOf s c).cores k).spared.find? fun p => p.2 == j with
  | some p => spareRow s c k p.1 origin
  | none => setCore s c k fun x => { x with badSpares := if x.badSpares.contains j then x.badSpares else x.badSpares ++ [j] }

/-- A failed Ring block: out of use until the next bring-up, and handled as the fence of the chip's lowest-numbered active core is
(R199, log entry 96). -/
def ringFails (s : State) (c origin : Nat) : State :=
  if losing s c || (chipOf s c).ringFailed then s
  else fenceCore (raiseEvent (setChip s c fun x => { x with ringFailed := true }) evBIST_FAIL) c (firstCore s c) origin

/-- A BIST failure of a core (R411). -/
def bistFail (s : State) (c k origin : Nat) : State :=
  let s := raiseEvent (countCore s c k 7 1) evBIST_FAIL
  fenceCore (logFault s evBIST_FAIL c k 7) c k origin

/-- What periodic BIST found on a chip (R410, R411). -/
def bistResult (s : State) (origin : Nat) (r : BistResult) : State :=
  if !(chipOf s r.chip).active then s
  else if !r.chipOk then fatal (logFault (raiseEvent s evBIST_FAIL) evBIST_FAIL r.chip 0 7) r.chip
  else
    let s := r.failedCores.foldl (fun s k => bistFail s r.chip k origin) s
    let s := r.failedRows.foldl (fun s p => spareRow s r.chip p.1 p.2 origin) s
    let s := r.failedSpares.foldl (fun s p => spareFails s r.chip p.1 p.2 origin) s
    if r.ringOk then s else ringFails s r.chip origin

/-! ## Streams and masks whose copies are lost (R231, Table FLT-5) -/

/-- A stream closed because both copies are lost, with its fault-log entry. -/
def loseStream (s : State) (sid : Nat) : State :=
  if !(streamOf s sid).isOpen then s
  else logFault (unaudit (setStream s sid Stream.closed) sid) 0x40 (homeOf s sid).1 0 sid

/-- A mask entry freed because both copies are bad. -/
def loseMask (s : State) (e : Nat) : State := { s with masks := mapDel s.masks e }

/-! ## Memory and compare events (R117, R199, R393, R394, R417, R502) -/

/-- An uncorrectable HBM error counted in counter i; more than 64 within 1,600,000,000 ticks are fatal. -/
def hbmUe (s : State) (c i : Nat) : State :=
  let recent := s.now :: (chipOf s c).ueTicks.filter fun t => decide (s.now < t + ticksA s 1600000000)
  let s := setChip (countHbm s c i 1) c fun x => { x with ueTicks := recent }
  if 64 < recent.length then fatal s c else s

/-- An uncorrectable SRAM error: the row due for sparing, or its core fenced where no spare row is left or the error recurs. In
piece data the piece is recomputed; a cached context is read from HBM again, the context in State being the one in HBM. -/
def sramUe (s : State) (c k row : Nat) (again piece : Bool) : State :=
  let s := countCore s c k 1 1
  let s := if piece then countCore s c k 6 1 else s
  let arg := 2048 * k + row
  if again || (freeSpare (nth (Core.fresh k) (chipOf s c).cores k)).isNone then fenceCore s c k 3
  else if s.tasks.any fun t => t.kind == 5 && t.chip == c && t.arg == arg then s
  else askQuiet { s with tasks := s.tasks ++ [⟨5, c, arg, s.now, [], []⟩] }

/-- The chip that stands beside a chip in a check: its pair's other chip (R391). -/
def pairMate (c : Nat) : Nat := if c % 2 = 0 then c + 1 else c - 1

/-- The two chips that compare a check word: the chips of a pair, or a stream's home and mirror (R391, R392). -/
def checkChips (s : State) (c sid : Nat) (atHome : Bool) : Option (Nat × Nat) :=
  if atHome then (homeOf s sid).2.map fun m => ((homeOf s sid).1, m) else some (min c (pairMate c), max c (pairMate c))

/-- Do two check words differ (R393)? -/
def wordsDiffer (w : Dword × Dword) : Bool := w.1 != w.2

/-- Has a comparison diverged: the words differ, and differ again in the repeat (R393)? -/
def checkDiverged (first again : Dword × Dword) : Bool := wordsDiffer first && wordsDiffer again

/-- A comparison of check words (R393, R394): a mismatch is counted in both chips; a divergence is counted too, raises
LOCKSTEP_DIVERGE, and asks for a BIST of both chips in the next quiet slot. -/
def compareWords (s : State) (c sid : Nat) (atHome : Bool) (first again : Dword × Dword) : State :=
  match checkChips s c sid atHome with
  | none => s
  | some (a, b) =>
    if !wordsDiffer first then s
    else
      let s := countChip (countChip s a 2 1) b 2 1
      if !wordsDiffer again then s
      else
        let s := countChip (countChip s a 3 1) b 3 1
        let s := setChip (setChip s a fun x => { x with test := true }) b fun x => { x with test := true }
        askQuiet (raiseEvent s evLOCKSTEP)

/-- A Ring lane reseeded after a parity error (R199). The reseeded state is the lane's at once and stays, whatever becomes of the
command that met the error (DESIGN CHOICE, log entry 102). -/
def reseedLane (s : State) (c l : Nat) : State :=
  mgmtEvent (countChip (setLane s c l (laneStart c l)) c 1 1) 0x04 c l

/-- Both copies of a stream's or a mask shard's data bad: an uncorrectable error on each of their chips, counted in counter i. -/
def copiesBad (s : State) (i home mirror : Nat) : State :=
  let s := hbmUe s home i
  if mirror = home then s else hbmUe s mirror i

/-- The chip that holds an audited stream's records. -/
def recordChip (s : State) (sid : Nat) : Nat :=
  match s.audited.find? fun a => a.sid == sid with | some a => a.chip | none => (homeOf s sid).1

/-- A replay-window record dropped. -/
def dropRecord (s : State) (sid st : Nat) : State :=
  { s with audited := s.audited.map fun a =>
      if a.sid == sid then { a with recs := a.recs.filter fun r => r.step != st } else a }

/-- One event met while a command runs; `seen` lists those before it in the same command. -/
def applyIncident (s : State) (seen : List Incident) (i : Incident) : State :=
  let again := seen.contains i
  match i with
  | .sramCe c k => countCore s c k 0 1
  | .sramUe c k row => sramUe s c k row again true
  | .contextUe c k row => sramUe s c k row again false
  | .sfuCe c k => countCore s c k 3 1
  | .sfuUe c k => let s := countCore s c k 4 1; if again then fenceCore s c k 3 else s
  | .hbmCe c => countHbm s c 0 1
  | .hbmUeModel c => hbmUe s c 1
  | .hbmUeReserved c => hbmUe s c 2
  | .lockCheck c sid atHome first twice => compareWords s c sid atHome first twice
  | .laneParity c l _ => reseedLane s c l
  | .ingressUe c _ => hbmUe s c 2
  | .overhangFail _ => s
  | .streamLost sid => copiesBad (loseStream s sid) 2 (homeOf s sid).1 ((homeOf s sid).2.getD (homeOf s sid).1)
  | .maskLost e c m => copiesBad (loseMask s e) 2 c m
  | .windowRecordLost sid st => hbmUe (dropRecord s sid st) (recordChip s sid) 2

/-- The events of a command in order. -/
def applyIncidentsFrom (s : State) (seen : List Incident) : List Incident → State
  | [] => s
  | i :: rest => applyIncidentsFrom (applyIncident s seen i) (i :: seen) rest

/-- The events of a command. -/
def applyIncidents (s : State) (l : List Incident) : State := applyIncidentsFrom s [] l

/-- An error that a scrub found: handled by the same rule, counted in the scrub counters (R417). -/
def applyScrub (s : State) (i : Incident) : State :=
  match i with
  | .hbmCe c => countHbm s c 3 1
  | .hbmUeModel c => hbmUe s c 4
  | .hbmUeReserved c => hbmUe s c 4
  | .streamLost sid => copiesBad (loseStream s sid) 4 (homeOf s sid).1 ((homeOf s sid).2.getD (homeOf s sid).1)
  | .maskLost e c m => copiesBad (loseMask s e) 4 c m
  | .windowRecordLost sid st => hbmUe (dropRecord s sid st) (recordChip s sid) 4
  | i => applyIncident s [] i

/-- Diverged streams of a command (R393): those whose result mismatched twice; for other commands any mark. -/
def divergedSids (l : List Incident) : List Nat :=
  l.filterMap fun i => match i with | .lockCheck _ sid _ first again => if checkDiverged first again then some sid else none | _ => none

/-- The overhang granules whose image failed twice (R269). -/
def overhangFails (l : List Incident) : List Nat :=
  l.filterMap fun i => match i with | .overhangFail g => some g | _ => none

/-- The ingress lines delivered as NaN (R502). -/
def badLines (l : List Incident) : List Nat :=
  l.filterMap fun i => match i with | .ingressUe _ line => some line | _ => none

/-! ## Shutdown commit (R447) -/

/-- The commit on tick d: SAVING, POWER_SAVE, the drain begins; a commit while one drains changes nothing. -/
def commitShutdown (s : State) (d kind : Nat) (railsStay toI5 : Bool) : State :=
  match s.shutdown with
  | .none =>
    raiseEvent { s with
      regs := { s.regs with saving := true }
      power := { s.power with window := none }
      mgmt := { s.mgmt with
        update := none
        banks := if s.mgmt.update.isSome then modNth s.mgmt.banks (1 - s.mgmt.activeBank) fun _ => ⟨[], false⟩
          else s.mgmt.banks }
      shutdown := .drain d kind railsStay toI5 } evPOWER_SAVE
  | _ => s

end Sys2Proof.Machine
end

