-- ==== Sys2Proof/Machine/Streams.lean ====
section
/-! DEFINITION. The stream commands: OPEN_STREAM, SET_STREAM_PARAMS, CLOSE_STREAM, REBUILD_HISTORY, SAVE_STREAM,
RESTORE_STREAM (R236 to R239, R244, R249, R250, R398). Each stages what becomes visible with its record. -/

namespace Sys2Proof.Machine

/-! ## What packet meanings share -/

/-- A read of n bytes at offset o of a structure at address a that failed twice while a command ran (R312). -/
def readFault (s : State) (c : Cmd) (list : Bool) (a o n : Nat) : State :=
  finishCmd (logAer s c.ring) c.id 0x23
    ((if list then 2 ^ 31 else 0) + (o + failOffset s (a + o) n) % 2 ^ 31) 0 []

/-- A command that ends BAD_PARAM while it runs, its streams or models no longer as at acceptance. -/
def lateBad (s : State) (c : Cmd) (detail : Nat) : State := finishCmd s c.id 0x20 detail 0 []

/-- A command that has run, with commits. -/
def doneCmd (s : State) (c : Cmd) (commits : List Commit) : State := finishCmd s c.id 0 0 0 commits

/-- The parameter block of a running command. -/
def withParams (s : State) (c : Cmd) (k : List Byte → State) : State :=
  match hostRead s (pktParam c) (pktParamLen c) with
  | none => readFault s c false (pktParam c) 0 (pktParamLen c)
  | some b => k b

/-- A list or image in host memory that a running command reads. -/
def withList (s : State) (c : Cmd) (a n : Nat) (k : List Byte → State) : State :=
  match hostRead s a n with
  | none => readFault s c true a 0 n
  | some b => k b

/-- A started command of an opcode acts; any other event of that number changes nothing. -/
def onCmd (s : State) (id op : Nat) (k : Cmd → State) : State :=
  match startedCmd s id op with
  | some c => k c
  | none => s

/-- The stream a command names. -/
def pktStream (c : Cmd) : Nat := pkt c 0x20 2

/-! ## OPEN_STREAM and SET_STREAM_PARAMS (R236, R237) -/

/-- The bias list of a block, where its fields are set. -/
def withBias (s : State) (c : Cmd) (b : List Byte) (set : Bool) (k : List (Nat × Word) → State) : State :=
  let n := fieldAt b 0x3C 2
  if set && n != 0 then withList s c (fieldAt b 0x70 8) (8 * n) fun bs => k (parsePairs bs n) else k []

/-- OPEN_STREAM. -/
def doOpenStream (s : State) (id : Nat) : State :=
  onCmd s id 0x20 fun c => withParams s c fun b => withBias s c b true fun bias =>
    if (streamOf s (pktStream c)).isOpen then lateBad s c 0x20
    else doneCmd s c [.openStream (pktStream c) (openedStream b c.modeCtrl bias)]

/-- OPEN_STREAM. -/
def execOpenStream (id : Nat) (s : State) : Host.Outcome State Fault Refusal := .next (doOpenStream s id)

/-- SET_STREAM_PARAMS. -/
def doSetStreamParams (s : State) (id : Nat) : State :=
  onCmd s id 0x22 fun c => withParams s c fun b => withBias s c b (selOf b 7) fun bias =>
    let st := streamOf s (pktStream c)
    let new := applyParams st b (selOf b) c.modeCtrl bias
    if !st.isOpen then lateBad s c 0x20
    else match firstBad (limitChecks new (selOf b)) with
      | some o => lateBad s c (inBlock o)
      | none => doneCmd s c [.setParams (pktStream c) b c.modeCtrl bias]

/-- SET_STREAM_PARAMS. -/
def execSetStreamParams (id : Nat) (s : State) : Host.Outcome State Fault Refusal := .next (doSetStreamParams s id)

/-! ## CLOSE_STREAM, REBUILD_HISTORY (R238, R244) -/

/-- CLOSE_STREAM. -/
def doCloseStream (s : State) (id : Nat) : State :=
  onCmd s id 0x21 fun c =>
    if !(streamOf s (pktStream c)).isOpen then lateBad s c 0x20 else doneCmd s c [.closeStream (pktStream c)]

/-- CLOSE_STREAM. -/
def execCloseStream (id : Nat) (s : State) : Host.Outcome State Fault Refusal := .next (doCloseStream s id)

/-- REBUILD_HISTORY: REPLACE or APPEND of COUNT tokens, oldest first. -/
def doRebuildHistory (s : State) (id : Nat) : State :=
  onCmd s id 0x23 fun c => withParams s c fun b =>
    let st := streamOf s (pktStream c)
    let mode := pkt c 0x22 1
    let tokens := (List.range (pkt c 0x24 4)).map fun i => fieldAt b (4 * i) 4
    if !st.isOpen then lateBad s c 0x20
    else if mode = 1 && !st.histValid then lateBad s c 0x22
    else doneCmd s c [.history (pktStream c) mode tokens]

/-- REBUILD_HISTORY. -/
def execRebuildHistory (id : Nat) (s : State) : Host.Outcome State Fault Refusal := .next (doRebuildHistory s id)

/-! ## SAVE_STREAM, RESTORE_STREAM (R249, R250) -/

/-- SAVE_STREAM: the image of the committed state. -/
def doSaveStream (s : State) (id : Nat) : State :=
  onCmd s id 0x24 fun c =>
    let st := streamOf s (pktStream c)
    if !st.isOpen then lateBad s c 0x20
    else doneCmd (hostWrite s (pktParam c) (imageBytes (pktStream c) st (bit (pkt c 0x22 1) 0))) c []

/-- SAVE_STREAM. -/
def execSaveStream (id : Nat) (s : State) : Host.Outcome State Fault Refusal := .next (doSaveStream s id)

/-- RESTORE_STREAM: the image checked and installed under the target's id. -/
def doRestoreStream (s : State) (id : Nat) : State :=
  onCmd s id 0x25 fun c => withParams s c fun b =>
    if (streamOf s (pktStream c)).isOpen then lateBad s c 0x20
    else match firstBad (imageChecks b) with
      | some o => lateBad s c (inBlock o)
      | none => doneCmd s c [.openStream (pktStream c) (restoredStream b), .clearAudit (pktStream c)]

/-- RESTORE_STREAM. -/
def execRestoreStream (id : Nat) (s : State) : Host.Outcome State Fault Refusal := .next (doRestoreStream s id)

end Sys2Proof.Machine
end

