-- ==== Sys2Proof/Machine/Models.lean ====
section
/-! DEFINITION. LOAD_MODEL, UNLOAD_MODEL, SET_MODEL_PRIORITY (R252 to R254, R262 to R267, R271). -/

namespace Sys2Proof.Machine

/-- n FP32 words at an address. -/
def wordsAt (bs : List Byte) (n : Nat) : List Word := (List.range n).map fun i => word32 bs (4 * i)

/-- n rows of a size. -/
def rowsOf (bs : List Byte) (size n : Nat) : List (List Byte) := (List.range n).map fun i => slice bs (size * i) size

/-- A list that is read only where a flag asks for it. -/
def withIf (s : State) (c : Cmd) (on : Bool) (a n : Nat) (k : List Byte → State) : State :=
  if on then withList s c a n k else k []

/-- The model a descriptor and its source bytes make, placed as the load decided. -/
def builtModel (s : State) (d matrix bias normW heads rope : List Byte) (state resident : Nat) : Model :=
  let hid := dHidden d
  let rb := dRowBytes d
  { desc := d, state := state, priority := fieldAt d 0x14 1
    rows := rowsOf matrix rb (dVocab d)
    bias := if dHasBias d then some (wordsAt bias (dVocab d)) else none
    normW := if dHasNormW d then some (wordsAt normW hid) else none
    heads := (List.range (dHeads d)).map fun h => rowsOf (slice heads (h * hid * rb) (hid * rb)) rb hid
    rope := if dHeads d = 0 then [] else wordsAt rope (hid / 2)
    ranks := placeRanks s, resident := resident, crcs := [], plan := none }

/-- The overhang images of a model written to its buffer, with their CRCs kept (R267). -/
def writeOverhang (s : State) (m : Model) : State × Model :=
  let gs := overhangGranules m
  (gs.foldl (fun s g => hostWrite s (imageAddr m g) (granuleImage m g)) s,
   { m with crcs := gs.map fun g => crc32c (granuleImage m g) })

/-- LOAD_MODEL: every part read from host memory, the overhang written, the model staged. -/
def doLoadModel (s : State) (id : Nat) : State :=
  onCmd s id 0x10 fun c => withParams s c fun d =>
    let f (o : Nat) : Nat := fieldAt d o 8
    let hid := dHidden d
    let rb := dRowBytes d
    let hs := dHeads d
    withList s c (f 0x18) (dVocab d * rb) fun matrix =>
    withIf s c (dHasBias d) (f 0x20) (4 * dVocab d) fun bias =>
    withIf s c (dHasNormW d) (f 0x28) (4 * hid) fun normW =>
    withIf s c (hs != 0) (f 0x30) (hs * hid * rb) fun heads =>
    withIf s c (hs != 0) (f 0x38) (2 * hid) fun rope =>
      let m := builtModel s d matrix bias normW heads rope (nth 2 c.reserved 0) (nth 0 c.reserved 1)
      let (s, m) := writeOverhang s m
      if m.state = 3 then
        finishCmd s c.id 0x04 (overhangGranules m).length 8 [.loadModel (pktModel c) m]
      else doneCmd s c [.loadModel (pktModel c) m]

/-- LOAD_MODEL. -/
def execLoadModel (id : Nat) (s : State) : Host.Outcome State Fault Refusal := .next (doLoadModel s id)

/-- A command on a model that is held and not suspended. -/
def onModel (s : State) (c : Cmd) (k : Model → State) : State :=
  match modelOf s (pktModel c) with
  | none => lateBad s c 0x1C
  | some m => if m.state = 4 then finishCmd s c.id 0x31 0 0 [] else k m

/-- UNLOAD_MODEL. -/
def doUnloadModel (s : State) (id : Nat) : State :=
  onCmd s id 0x11 fun c => onModel s c fun _ => doneCmd s c [.unloadModel (pktModel c)]

/-- UNLOAD_MODEL (R264). -/
def execUnloadModel (id : Nat) (s : State) : Host.Outcome State Fault Refusal := .next (doUnloadModel s id)

/-- SET_MODEL_PRIORITY. -/
def doSetModelPriority (s : State) (id : Nat) : State :=
  onCmd s id 0x12 fun c => onModel s c fun _ => doneCmd s c [.priority (pktModel c) (pkt c 0x20 1)]

/-- SET_MODEL_PRIORITY (R265). -/
def execSetModelPriority (id : Nat) (s : State) : Host.Outcome State Fault Refusal := .next (doSetModelPriority s id)

end Sys2Proof.Machine
end

