-- ==== Sys2Proof/Machine/Steps.lean ====
section
/-! DEFINITION. The step commands STEP, STEP_SCORES, VERIFY, LOOKAHEAD and HOST_DRAW (R40 to R70, R202 to R224, R314,
R315): what each stream gets, what is written and what is staged. -/

namespace Sys2Proof.Machine

/-! ## What a stream brings -/

/-- The context a step uses: as at acceptance, with what earlier steps on the stream have committed since (R36, R45, followStep);
the Ring state, which R45 does not name, as it stands when the step runs (log entry 30). -/
def steppedStream (s : State) (c : Cmd) (sid : Nat) : Stream :=
  let live := streamOf s sid
  { mapGet live c.ctxs sid with ring := live.ring, ringBound := live.ringBound, isOpen := live.isOpen }

/-- A stream's configuration for a row with a combined mask. -/
def streamCfg (st : Stream) (mask : Option Nat) : StreamCfg :=
  { md := modesOf st.modes, compat := modesCompat st.modes, softCap := st.softCap, temp := st.temp, rep := st.rep
    pres := st.pres, freq := st.freq, bias := st.bias, counts := countTable (windowTokens st), mask := mask
    cut := ⟨st.topK, st.minP, st.topP, modesCut st.modes⟩ }

/-- The matrix of a held model with its defaults put in (Table MODEL-1). -/
def scoreModel (m : Model) : ScoreModel :=
  { fmt := dFmt m.desc, block := dBlock m.desc, hidden := dHidden m.desc, rows := m.rows, bias := m.bias
    scale := orElse one32 (word32 m.desc 0x0C), normKind := fieldAt m.desc 3 1
    normEps := orElse 0x3727C5AC#32 (word32 m.desc 0x10), normW := m.normW }

/-- Where a row runs: the partition of the command, the stream's home chip, the order of the command. -/
def runCfg (s : State) (mode : Word) (compat : Bool) (parts partners : List ChipPart) (sid k : Nat) : RunCfg :=
  let home := (homeOf s sid).1
  { tier := if compat then .iv1 else stepTier mode
    order := if compat then .fixed else orderSub (orderOf s mode) k
    width := planWidth (clockPlan s), parts := parts, partners := partners, homeChip := home
    homeCore := firstCore s home }

/-- The combined mask of a specification in force over n indices, its bitmap in host memory (R246, R247). -/
def rowMask (s : State) (spec n bitmap : Nat) : Option Nat :=
  combinedMask (fun b => (mapGet ⟨0, 0⟩ s.masks b).bits) spec n
    (if specStep spec = 0 then 0 else leNat (hostBytes s bitmap (ceilDiv n 8)))

/-! ## Ingress lines delivered as NaN (R502) -/

/-- Does a byte at an ingress address lie in a bad line? -/
def inBadLine (lines : List Nat) (a : Nat) : Bool := lines.contains (a / 64)

/-- A row with the elements and blocks of bad lines turned into NaNs; `base` is its ingress address. -/
def poison (f : Fmt) (block base : Nat) (lines : List Nat) (r : CodedRow) : CodedRow :=
  if lines.isEmpty then r
  else
    let w := fmtWidth f
    let eb := ceilDiv (r.codes.length * w) 8
    let hit (i : Nat) : Bool := inBadLine lines (base + i * w / 8)
    let b := blockSize block
    { codes := (withIndex r.codes).map fun (i, c) => if hit i && b = 0 then fmtQnan f else c
      scales := (withIndex r.scales).map fun (k, x) =>
        if inBadLine lines (base + eb + k) || ((List.range b).any fun i => decide (b * k + i < r.codes.length) && hit (b * k + i))
        then 255 else x }

/-! ## Inputs -/

/-- Does an entry's input lie in host memory? -/
def entryHost (e : List Byte) : Bool := bit (fieldAt e 2 1) 0

/-- n bytes of an entry's input from an offset on. -/
def entryInput (s : State) (fn : Nat) (e : List Byte) (off n : Nat) : List Byte :=
  if entryHost e then hostBytes s (fieldAt e 8 8 + off) n else bar2Bytes s fn (fieldAt e 8 8 + off) n

/-- The hidden vector of an entry at an offset. -/
def entryVector (s : State) (fn : Nat) (d e : List Byte) (off : Nat) (lines : List Nat) : CodedRow :=
  let v := parseRow (dFmt d) (dBlock d) (dHidden d) (entryInput s fn e off (dRowBytes d))
  if entryHost e then v else poison (dFmt d) (dBlock d) (bar2Base fn + fieldAt e 8 8 + off) lines v

/-- The score row of an entry. -/
def entryScores (s : State) (fn fmt len : Nat) (e : List Byte) (lines : List Nat) : RowInput :=
  let f := fmtAt fmt
  let r := parseRow f 0 len (entryInput s fn e 0 (rowBytes f 0 len))
  .scores f (if entryHost e then r else poison f 0 (bar2Base fn + fieldAt e 8 8) lines r).codes

/-- The ranges of host memory that an entry's streams are read from (R312): the address of the structure, the offset in it
and the length. Vector j lies in the input at INPUT_ADDR, bitmap j in the bitmaps at BITMAP_ADDR (R285, Table CMD-12). -/
def entryReads (s : State) (c : Cmd) (q : Req) (e : List Byte) : List (Nat × Nat × Nat) :=
  let op := pktOp c
  let L := rowLength s q
  let vec := inputBytes s q
  let n := fieldAt e 3 1
  let sid := fieldAt e 0 2
  let ctx := (steppedStream s c sid).maskSpec
  let inp := if entryHost e then
      (List.range (n + 1)).map fun j => (fieldAt e 8 8, j * roundUp vec 64, vec) else []
  let dr := if op = 0x32 then (fieldAt e 0x20 8, 0, 32 * (n + 1)) :: (List.range n).map fun j =>
      let d := hostBytes s (fieldAt e 0x20 8 + 32 * j) 32
      (fieldAt d 0x10 8, 0, 8 * fieldAt d 9 1) else []
  let bm := (List.range (n + 1)).filterMap fun j =>
    let spec := if op = 0x32 then fieldAt (hostBytes s (fieldAt e 0x20 8 + 32 * j) 32) 0x18 8 else fieldAt e 0x10 8
    if specStep (specInForce ctx spec) = 0 then none
    else some (fieldAt e 0x18 8, j * roundUp (ceilDiv L 8) 64, ceilDiv L 8)
  dr ++ inp ++ bm

/-- The drafts of an entry (Table DRAW-4). -/
def entryDrafts (s : State) (e : List Byte) : List Draft :=
  (List.range (fieldAt e 3 1)).map fun j =>
    let d := hostBytes s (fieldAt e 0x20 8 + 32 * j) 32
    let tok := fieldAt d 0 4
    let q := word32 d 4
    ⟨tok, q, if fieldAt d 8 1 = 1 then parsePairs (hostBytes s (fieldAt d 0x10 8) (8 * fieldAt d 9 1)) (fieldAt d 9 1)
      else [(tok, q)]⟩

/-! ## One stream -/

/-- What a command's rows share. -/
structure StepEnv where
  model : Option Model
  parts : List ChipPart
  partners : List ChipPart
  len : Nat
  lines : List Nat
  diverged : List Nat
  deriving DecidableEq, Repr

/-- The flag bits of RESULT_FLAGS that the run sets (Table PIPE-5). -/
def runBits (c : Cmd) (diverged : Bool) : Nat :=
  8 * b2n (bit c.cflags 6) + 16 * b2n (diverged && !modeWithhold c.modeCtrl)

/-- Is a stream refused for its step counter, as it stands at acceptance (R66)? -/
def stepExhausted (op : Nat) (st : Stream) (n : Nat) : Bool :=
  decide (2 ^ 48 - 1 < st.step + (if op = 0x32 then n + 1 else 1))

/-- The extension of an entry without a token (Tables DRAW-2, DRAW-6, DRAW-7). -/
def emptyExt (op n : Nat) (rowMax : Word) (off : Nat) : List Byte :=
  match op with
  | 0x32 => verifyExt n 0 0 0 false []
  | 0x33 => lookaheadExt []
  | 0x34 => hostDrawExt 0 rowMax off false
  | _ => []

/-- A stream withheld after a second lock-step mismatch (Table DET-7). -/
def withheld (d : DrawCtx) (op n off : Nat) (out : RowOut) (r : StreamResult) : StreamResult :=
  let v := noTokenVals d out 0x50
  let v := { v with
    dCand := if rowHasToken out then out.dCand else 0#64
    flags := resultFlags out (isGreedy d.cfg) false (!rowHasToken out) d.extra }
  { r with
    entry := entryBytes v ++ emptyExt op n out.rowMax off, aux := [], status := 0x50, tokens := [], advance := 0, ring := none }

/-- The configuration of stream k's rows under a specification in force, its bitmap at an address. -/
def rowCfgOf (s : State) (v : StepEnv) (st : Stream) (spec bitmap : Nat) : StreamCfg := streamCfg st (rowMask s spec v.len bitmap)

/-- Where stream k's rows run. -/
def entryRun (s : State) (c : Cmd) (v : StepEnv) (k : Nat) (e : List Byte) : RunCfg :=
  runCfg s c.modeCtrl (modesCompat (steppedStream s c (fieldAt e 0 2)).modes) v.parts v.partners (fieldAt e 0 2) (64 * k)

/-- Input j of an entry: hidden vector j at its offset, or its score row (R43, R285). -/
def entryRow (s : State) (c : Cmd) (v : StepEnv) (e : List Byte) (j : Nat) : RowInput :=
  match v.model with
  | some m => .hidden (scoreModel m) (entryVector s c.fn m.desc e (j * roundUp (dRowBytes m.desc) 64) v.lines)
  | none => entryScores s c.fn (pkt c 0x2B 1) v.len e v.lines

/-- Stages 1 to 11 of stream k's row, with its own mask specification (R40). -/
def mainRow (s : State) (c : Cmd) (v : StepEnv) (k : Nat) (e : List Byte) : RowOut :=
  let st := steppedStream s c (fieldAt e 0 2)
  runRow (rowCfgOf s v st (specInForce st.maskSpec (fieldAt e 0x10 8)) (fieldAt e 0x18 8)) (entryRun s c v k e) (entryRow s c v e 0)

/-- Stages 1 to 11 of position j of a VERIFY stream: the drafts before it in the history, its own mask specification (R212). -/
def verifyRow (s : State) (c : Cmd) (v : StepEnv) (k : Nat) (e : List Byte) (j : Nat) : RowOut :=
  let st := steppedStream s c (fieldAt e 0 2)
  let rc := entryRun s c v k e
  let stj := appendTokens st (((entryDrafts s e).take j).map fun x => x.token)
  let dspec := fieldAt (hostBytes s (fieldAt e 0x20 8 + 32 * j) 32) 0x18 8
  runRow (rowCfgOf s v stj (specInForce st.maskSpec dspec) (fieldAt e 0x18 8 + j * roundUp (ceilDiv v.len 8) 64))
    { rc with order := orderSub rc.order (200 + j) } (entryRow s c v e j)

/-- Stages 1 to 13 of stream k of a command: its result and the q-lists of its heads. -/
def stepOne (s : State) (c : Cmd) (v : StepEnv) (k : Nat) (e : List Byte) : StreamResult × List (List Byte) :=
  let op := pktOp c
  let sid := fieldAt e 0 2
  let n := fieldAt e 3 1
  let st := steppedStream s c sid
  let cap := pkt c 0x38 4
  let off := k * cap * 16
  if stepExhausted op st n then
    (⟨entryBytes (refusedVals sid st.step v.model.isNone) ++ emptyExt op n 0xFF800000#32 off, [], 0x20, [], 0, none, [], false⟩, [])
  else
    let div := v.diverged.contains sid
    let cfg := rowCfgOf s v st (specInForce st.maskSpec (fieldAt e 0x10 8)) (fieldAt e 0x18 8)
    let rc := entryRun s c v k e
    let d : DrawCtx := ⟨sid, st.step, st.seed, cfg, pkt c 0x28 1, runBits c div⟩
    let out := mainRow s c v k e
    let hold (r : StreamResult) (out : RowOut) : StreamResult :=
      if div && modeWithhold c.modeCtrl then withheld d op n off out r else r
    match op with
    | 0x32 =>
      let rows := (List.range (n + 1)).map (verifyRow s c v k e)
      (hold (verifyResult d rc rows (entryDrafts s e)) (rows.headD out), [])
    | 0x33 =>
      match v.model with
      | some m =>
        let (r, ql) := lookaheadResult d rc (scoreModel m) { cfg with mask := if bit (pkt c 0x29 1) 0 then cfg.mask else none }
          m.rope (m.heads.take (pkt c 0x2A 1)) (fieldAt e 4 4) out
        (hold r out, if div && modeWithhold c.modeCtrl then [] else ql)
      | none => (stepResult d rc out 0#128, [])
    | 0x34 => (hold (hostDrawResult d rc out k cap) out, [])
    | _ =>
      let ring := if st.ringBound then st.ring else streamRingStart st.seed
      (hold (stepResult d rc out ring) out, [])

/-! ## The whole command -/

/-- Was some row of a stream truncated at C_MAX? -/
def truncSeen (op : Nat) (r : StreamResult) : Bool :=
  r.status == 0x13 ||
  (op == 0x32 && (List.range 16).any fun k => fieldAt r.entry (0xB0 + 16 * k + 13) 1 == 0x13) ||
  (op == 0x33 && (List.range 4).any fun k => fieldAt r.entry (0xB0 + 16 * k + 12) 1 == 0x13)

/-- The outputs of stream k written (R59, R208, R222). -/
def writeStep (s : State) (c : Cmd) (k : Nat) (r : StreamResult) (ql : List (List Byte)) : State :=
  let op := pktOp c
  let s := hostWrite s (pkt c 0x20 8 + k * entryStride op) r.entry
  let aux := pkt c 0x30 8
  let s := if op = 0x34 then hostWrite s (aux + k * pkt c 0x38 4 * 16) r.aux else s
  (withIndex ql).foldl (fun s p => hostWrite s (aux + (4 * k + p.1) * 512) p.2) s

/-- The replay-window record that a completed STEP or STEP_SCORES stages (R396, R397). -/
def auditCommit (s : State) (c : Cmd) (L : Nat) (e : List Byte) (r : StreamResult) : Commit :=
  let sid := fieldAt e 0 2
  let st := steppedStream s c sid
  let sc := pktOp c == 0x31
  let q : Req := ⟨c.fn, c.ring, c.packet, c.modeCtrl⟩
  let spec := specInForce st.maskSpec (fieldAt e 0x10 8)
  let inp := entryInput s c.fn e 0 (inputBytes s q)
  let bm := if specStep spec = 0 then [] else hostBytes s (fieldAt e 0x18 8) (ceilDiv L 8)
  let bytes := padTo (roundUp inp.length 64) inp ++ padTo (roundUp bm.length 64) bm
  let head := leBytes 1 (pktOp c) ++ leBytes 1 (pktModel c) ++ leBytes 1 (pkt c 0x2B 1) ++ leBytes 1 (pkt c 0x28 1) ++
    leBytes 4 L ++ leBytes 8 c.accept ++ leBytes 4 c.modeCtrl.toNat
  .audit sid st.step (ctxBytes sid st) e head r.entry st.bias (if 28672 < bytes.length then [] else bytes)
    (decide (28672 < bytes.length)) (if sc then none else some (pktModel c, genOf s.modelGen (pktModel c)))
    ((specBanks spec).map fun b => (b, genOf s.vault.maskGen b)) r.tokens.head?

/-- What a stream's result stages (R65, R218, Table DET-10). -/
def stepCommits (s : State) (c : Cmd) (L : Nat) (e : List Byte) (r : StreamResult) : List Commit :=
  let sid := fieldAt e 0 2
  let op := pktOp c
  let rec0 := if (op = 0x30 || op = 0x31) && modeWindow c.modeCtrl then [auditCommit s c L e r] else []
  let clear := if (op = 0x32 || op = 0x33) && r.advance != 0 then [Commit.clearAudit sid] else []
  rec0 ++ clear ++ (if r.advance = 0 then [] else [.step sid (steppedStream s c sid).step r.tokens r.advance r.ring])

/-- The rows run, written and staged. -/
def runSteps (s : State) (c : Cmd) (b : List Byte) (v : StepEnv) (flags : Nat) (inc : List Incident) : State :=
  let op := pktOp c
  let es := (withIndex ((List.range (pkt c 2 2)).map (entryAt b)))
  let rs := es.map fun (k, e) => (k, e, stepOne s c v k e)
  let commits := rs.flatMap fun (_, e, r) => stepCommits s c v.len e r.1
  let bad := (rs.filter fun x => x.2.2.1.status != 0).length
  let trunc := rs.any fun x => truncSeen op x.2.2.1
  let div := !v.diverged.isEmpty && !modeWithhold c.modeCtrl
  let s := rs.foldl (fun s x => writeStep s c x.1 x.2.2.1 x.2.2.2) s
  let s := recordFlags s (rs.flatMap fun x => x.2.2.1.recs) (rs.any fun x => x.2.2.1.clamped)
  let s := nextFree (applyIncidents s inc)
  finishCmd s c.id 0 bad (flags + 16 * b2n (decide (0 < bad)) + 32 * b2n trunc + 128 * b2n div) commits

/-- Does a model's row take a degraded read (R259)? -/
def readsDegraded (s : State) (m : Model) : Bool :=
  let n := m.ranks.length
  (lostRanks s m).any fun r => decide (r < granules m.desc) && decide (0 < m.resident) && decide (r < n)

/-- Does some overhang image fail its CRC, fail to read, or lie behind no link (R269)? -/
def overhangBroken (s : State) (m : Model) (inc : List Incident) : Bool :=
  let gs := overhangGranules m
  !(overhangFails inc).isEmpty ||
  (withIndex gs).any fun (k, g) =>
    let n := granuleBytes m.desc
    !hostOk s (imageAddr m g) n || crc32c (hostBytes s (imageAddr m g) n) != nth 0 m.crcs k

/-- A step command on a model: degraded and overhang reads, suspension. -/
def stepModel (s : State) (c : Cmd) (b : List Byte) (inc : List Incident) (m : Model) : State :=
  if m.state = 4 then finishCmd s c.id 0x31 0 0 []
  else if !(overhangGranules m).isEmpty && overhangBroken s m inc then
    finishCmd (applyIncidents s inc) c.id 0x31 0 0 [.suspend (pktModel c)]
  else
    let lock := modeLock c.modeCtrl
    let v : StepEnv := ⟨some m, modelParts s m false, if lock then modelParts s m true else [], dVocab m.desc,
      badLines inc, divergedSids inc⟩
    runSteps s c b v (4 * b2n (readsDegraded s m) + 8 * b2n (!(overhangGranules m).isEmpty)) inc

/-- The specifications in force of an entry: its own, or those of VERIFY's positions. -/
def entrySpecs (s : State) (c : Cmd) (e : List Byte) : List Nat :=
  let ctx := (steppedStream s c (fieldAt e 0 2)).maskSpec
  if pktOp c = 0x32 then (draftSpecs s e).map (specInForce ctx) else [specInForce ctx (fieldAt e 0x10 8)]

/-- The context read into the home chip's SRAM before INGRESS, the most recently stepped first (R227). -/
def cacheStream (s : State) (sid : Nat) : State :=
  setChip s (homeOf s sid).1 fun ch => { ch with stepped := (sid :: ch.stepped.filter fun x => x != sid).take 18432 }

/-- A step command that has started: inputs read, streams still open, rows run. -/
def doStepOp (s : State) (id op : Nat) (inc : List Incident) : State :=
  onCmd s id op fun c => withParams s c fun b =>
    let q : Req := ⟨c.fn, c.ring, c.packet, c.modeCtrl⟩
    let es := (List.range (pkt c 2 2)).map (entryAt b)
    let s := es.foldl (fun s e => cacheStream s (fieldAt e 0 2)) s
    let live := es.filter fun e => !stepExhausted op (steppedStream s c (fieldAt e 0 2)) (fieldAt e 3 1)
    let reads := live.flatMap (entryReads s c q)
    match reads.find? fun p => p.2.2 != 0 && !hostOk s (p.1 + p.2.1) p.2.2 with
    | some p => readFault s c true p.1 p.2.1 p.2.2
    | none =>
      if es.any fun e => !(streamOf s (fieldAt e 0 2)).isOpen then lateBad s c noLocation
      else if es.any fun e => (entrySpecs s c e).any fun spec => !banksHeld s spec then lateBad s c noLocation
      else if takesScores q then
        let L := pkt c 0x2C 4
        let lock := modeLock c.modeCtrl
        runSteps s c b ⟨none, rowParts s lock false 0 L, if lock then rowParts s lock true 0 L else [], L,
          badLines inc, divergedSids inc⟩ 0 inc
      else match modelOf s (pktModel c) with
        | none => lateBad s c 0x1C
        | some m => stepModel s c b inc m

/-- STEP (R40). -/
def execStep (id : Nat) (inc : List Incident) (s : State) : Host.Outcome State Fault Refusal :=
  .next (doStepOp s id 0x30 inc)

/-- STEP_SCORES (R43). -/
def execStepScores (id : Nat) (inc : List Incident) (s : State) : Host.Outcome State Fault Refusal :=
  .next (doStepOp s id 0x31 inc)

/-- VERIFY (R210 to R218). -/
def execVerify (id : Nat) (inc : List Incident) (s : State) : Host.Outcome State Fault Refusal :=
  .next (doStepOp s id 0x32 inc)

/-- LOOKAHEAD (R219 to R223). -/
def execLookahead (id : Nat) (inc : List Incident) (s : State) : Host.Outcome State Fault Refusal :=
  .next (doStepOp s id 0x33 inc)

/-- HOST_DRAW (R207, R208). -/
def execHostDraw (id : Nat) (inc : List Incident) (s : State) : Host.Outcome State Fault Refusal :=
  .next (doStepOp s id 0x34 inc)

end Sys2Proof.Machine
end

