-- ==== Sys2Proof/Machine/Tensor.lean ====
section
/-! DEFINITION. The tensor operators SOFTMAX, TOPK, THRESHOLD_COMPACT, ROWSTAT, CAST, RANDOM_FILL, APPLY_FUNCTION and
RING_JUMP (R124, R133, R143 to R152, R171 to R173, R190, R195, R200, R201, R316 to R331, R401). -/

namespace Sys2Proof.Machine

/-! ## What the rows of an operator share -/

/-- The header, the block, the modes, tier and order of a tensor operator, and the ingress lines delivered as NaN. -/
structure TEnv where
  fn : Nat
  hdr : THdr
  block : List Byte
  md : Modes
  tier : Tier
  compat : Bool
  order : Order
  width : Nat
  lock : Bool
  lines : List Nat
  deriving DecidableEq, Repr

/-- What one row leaves: its output and aux bytes, its status, the qualifying count, its records, a CLAMP indication. -/
structure TRow where
  out : List Byte
  aux : List Byte
  status : Nat
  qualifying : Nat
  recs : List FlagRec
  clamped : Bool
  deriving DecidableEq, Repr

/-- The environment of a started operator (R115, R318): tier L under TRICKLE, whatever TIER asks for. -/
def tensorEnv (s : State) (c : Cmd) (b : List Byte) (inc : List Incident) : TEnv :=
  let h := parseHdr b
  let compat := bit h.modes 5
  { fn := c.fn, hdr := h, block := b, md := modesOf (hdrModes h c.modeCtrl)
    tier := if compat then .iv1 else if h.tier = 1 then .l else stepTier c.modeCtrl
    compat := compat, order := if compat then .fixed else orderOf s c.modeCtrl, width := planWidth (clockPlan s)
    lock := modeLock c.modeCtrl, lines := badLines inc }

/-- Operator granules of a row. -/
def rowGrans (e : TEnv) : Nat := ceilDiv e.hdr.len 512

/-- Where row r runs: its granules' owners, and the chip that merges it (R320). -/
def tensorCfg (s : State) (e : TEnv) (r : Nat) : RunCfg :=
  let parts := rowParts s e.lock false (r * rowGrans e) e.hdr.len
  let home := ownerChip parts 0
  { tier := e.tier, order := orderSub e.order r, width := e.width, parts := parts
    partners := if e.lock then rowParts s e.lock true (r * rowGrans e) e.hdr.len else []
    homeChip := home, homeCore := firstCore s home }

/-- The elements of an input row (R317, R502). -/
def tensorRow (s : State) (e : TEnv) (r : Nat) : CodedRow :=
  let h := e.hdr
  let f := fmtAt h.inFmt
  let n := rowBytes f h.inBlock h.len
  let a := h.inAddr + r * h.inStride
  if h.src = 0 then parseRow f h.inBlock h.len (hostBytes s a n)
  else poison f h.inBlock (bar2Base e.fn + a) e.lines (parseRow f h.inBlock h.len (bar2Bytes s e.fn a n))

/-- Flags of the elements of a row, entered at the cores of their granules (R104). -/
def elementRecs (rc : RunCfg) (sfu : Bool) (fl : List Flags) : List FlagRec :=
  (withIndex (chunks granuleSize fl)).flatMap fun (g, l) => granRec rc sfu g (l.foldl (· ||| ·) noFlags)

/-- Crushed blocks of a granule, counted at its core and its lock-step partner's. -/
def crushRec (rc : RunCfg) (g n : Nat) : List FlagRec :=
  if n = 0 then [] else
  let (c, k) := ownerOf rc.parts g
  ⟨false, c, k, noFlags, n⟩ ::
    (if rc.partners.isEmpty then [] else let (c2, k2) := ownerOf rc.partners g; [⟨false, c2, k2, noFlags, n⟩])

/-- A row encoded granule by granule: its bytes and its records. -/
def encodeGranules (rc : RunCfg) (md : Modes) (f : Fmt) (block : Nat) (nonsat : Bool) (xs : List (Dec × Option Word)) :
    List Byte × List FlagRec :=
  let gs := (chunks granuleSize xs).map (encodeRow md f block nonsat)
  (rowToBytes f ⟨gs.flatMap fun g => g.1.codes, gs.flatMap fun g => g.1.scales⟩,
   (withIndex gs).flatMap fun (g, _, fl, n) => granRec rc false g fl ++ crushRec rc g n)

/-- The elements of a row as FP32, each with its flags. -/
def rowF32 (e : TEnv) (row : CodedRow) : List (Word × Flags) :=
  (rowElems e.hdr.inBlock row).map fun (c, sc) => elemToF32 e.md (fmtAt e.hdr.inFmt) sc c

/-! ## SOFTMAX (R322, R323, R401) -/

/-- An element after SCALE and the clamp: its score, flags, and whether the clamp changed it. -/
def softmaxScore (e : TEnv) (x : Word × Flags) : Word × Flags × Bool :=
  let scale := orElse one32 (word32 e.block 0x40)
  let (s, f) := if scale == one32 then (x.1, noFlags) else fmul e.md x.1 scale
  let (s', ch) := clampScore (nzOut e.md s)
  (s', x.2 ||| f, ch)

/-- FP32 bits written in the output format: one further rounding where it is narrower. -/
def narrowTo (md : Modes) (f : Fmt) (w : Word) : Nat × Flags :=
  if f = .fp32 then (w.toNat, noFlags)
  else let (c, fl) := convElem md false .fp32 f w.toNat; (nzCode md f c, fl)

/-- The STATS record of a row. -/
def statsRecord (lnSum rowMax : Word) (sum : Xw) (status : Nat) : List Byte :=
  leBytes 4 lnSum.toNat ++ leBytes 4 rowMax.toNat ++ leBytes 5 sum.toNat ++ leBytes 1 status ++ leBytes 2 0

/-- The native outputs of a row that holds some mass: elements with flags, ln Σ, Σ, home-side records. -/
def softmaxNative (e : TEnv) (rc : RunCfg) (logOut : Bool) (ss : List Word) :
    List (Nat × Flags) × Word × Xw × List FlagRec :=
  let f := fmtAt e.hdr.outFmt
  let terms := ss.map fun w => if massBearing (orderKey w).toNat then expXw e.tier w else xwZero
  let sigma := xwRowSum (orderSub rc.order 0) rc.parts terms
  let ln := lnXw e.tier sigma
  let out := (ss.zip terms).map fun (w, t) =>
    if logOut then
      let (lp, f1) := logProbOf e.md w ln
      let (c, f2) := narrowTo e.md f lp
      (c, f1 ||| f2)
    else xwQuotient e.md f t sigma
  (out, ln, sigma, [])

/-- The IV-1 outputs of a row. -/
def softmaxIv1 (e : TEnv) (rc : RunCfg) (logOut : Bool) (ss : List Word) :
    List (Nat × Flags) × Word × Xw × List FlagRec :=
  let f := fmtAt e.hdr.outFmt
  let m := rowMax ss
  let wf := iv1Weights m ss
  let (W, fg, fw) := iv1Total (wf.map fun x => x.1)
  let (lnW, fl) := builtin iv1Modes .iv1 0x03 W
  let (ln, f1) := fadd iv1Modes m lnW
  let out := (ss.zip wf).map fun (s, w, g, _) =>
    let (y, g1) :=
      if logOut then
        let (d, a1) := fsub iv1Modes s m
        let (r, a2) := fsub iv1Modes d lnW
        (r, a1 ||| a2)
      else fdiv iv1Modes w W
    let (c, g2) := narrowTo iv1Modes f y
    (c, g ||| g1 ||| g2)
  (out, ln, xwOfF32 W,
    elementRecs rc true (wf.map fun x => x.2.2) ++ iv1SumRecs rc fg ++ [homeRec rc false (fw ||| f1), homeRec rc true fl])

/-- One row of SOFTMAX. -/
def softmaxRow (e : TEnv) (rc : RunCfg) (row : CodedRow) : TRow :=
  let f := fmtAt e.hdr.outFmt
  let logOut := bit e.hdr.flags 0
  let stats := bit e.hdr.flags 1
  let es := (rowF32 e row).map (softmaxScore e)
  let ss := es.map fun x => x.1
  let clamped := es.any fun x => x.2.2
  let codes (l : List Nat) : List Byte := packCodes (fmtWidth f) l
  let record (ln m : Word) (sum : Xw) (st : Nat) : List Byte := if stats then statsRecord ln m sum st else []
  if ss.any isNan32 then
    ⟨codes (ss.map fun _ => fmtQnan f), record qnan32 (rowMax ss) xwNan 0x11, 0x11, 0,
      elementRecs rc false (es.map fun x => x.2.1 ||| (if isNan32 x.1 then fINV else noFlags)), clamped⟩
  else if ss.all fun w => w == ninf32 then
    ⟨codes (ss.map fun _ => if logOut then (infCode f false true).1 else 0), record ninf32 ninf32 xwZero 0x10, 0x10, 0,
      elementRecs rc false (es.map fun x => x.2.1), clamped⟩
  else
    let (out, ln, sum, recs) := if e.compat then softmaxIv1 e rc logOut ss else softmaxNative e rc logOut ss
    ⟨codes (out.map fun x => x.1), record ln (rowMax ss) sum 0, 0, 0,
      elementRecs rc false ((es.zip out).map fun (x, y) => x.2.1 ||| y.2) ++ recs, clamped⟩

/-! ## TOPK and THRESHOLD_COMPACT (R171, R172, R324) -/

/-- An element widened to FP32, its bits unchanged in meaning. -/
def widen (f : Fmt) (c : Nat) : Word := if f = .fp32 then BitVec.ofNat 32 c else widenBits f c

/-- An output record: INDEX, then the input bits. -/
def indexRecord (codes : List Nat) (i : Nat) : List Byte := leBytes 4 i ++ leBytes 4 (nth 0 codes i)

/-- One row of TOPK. -/
def topkOut (e : TEnv) (rc : RunCfg) (row : CodedRow) : TRow :=
  let f := fmtAt e.hdr.inFmt
  let l := topkRow (orderSub rc.order 0) (row.codes.map (widen f)) (fieldAt e.block 0x40 4)
  ⟨l.flatMap (indexRecord row.codes), [], 0, 0, [], false⟩

/-- One row of THRESHOLD_COMPACT. -/
def thresholdOut (e : TEnv) (rc : RunCfg) (row : CodedRow) : TRow :=
  let f := fmtAt e.hdr.inFmt
  let (l, n) := thresholdRow (orderSub rc.order 0) (row.codes.map (widen f)) (widen f (fieldAt e.block 0x40 4))
  ⟨l.flatMap (indexRecord row.codes), leBytes 4 n ++ leBytes 4 l.length, if candMax < n then 0x13 else 0, n, [], false⟩

/-! ## ROWSTAT (R133, R135, R325, R375) -/

/-- An FP32 sum along a row taken apart: its value, the flags of tiles and of granule trees by the element they start at,
and the flags of the merge (R87, R88, R104, R375). -/
def rowSumSplit (md : Modes) (o : Order) (width : Nat) (ps : List (Dec × Dec)) : Word × List (Nat × Flags) × Flags :=
  if md.strict then
    let (v, l) := (withIndex ps).foldl (fun (st : Word × List (Nat × Flags)) (i, a, b) =>
      let (r, f) := fmaDec md a b st.1
      (r, (i, f) :: st.2)) (0x80000000#32, [])
    (v, l, noFlags)
  else match o with
    | .free _ =>
      let tiles := (chunks width ps).map (tileSum md)
      let (r, f) := combine (fadd md) 0#32 o (tiles.map fun t => t.1)
      (r, (withIndex tiles).map fun (k, t) => (k * width, t.2), f)
    | .fixed =>
      let grans := (chunks granuleSize ps).map (sumProducts md .fixed width)
      let (r, f) := treeT (fadd md) 0#32 (grans.map fun g => g.1)
      (r, (withIndex grans).map fun (k, g) => (k * granuleSize, g.2), f)

/-- Flags of sums at the cores of the elements they start at. -/
def tileRecs (rc : RunCfg) (l : List (Nat × Flags)) : List FlagRec :=
  l.flatMap fun (i, f) => granRec rc false (i / granuleSize) f

/-- One row of ROWSTAT. -/
def rowstatRow (e : TEnv) (rc : RunCfg) (row : CodedRow) : TRow :=
  let xf := rowF32 e row
  let xs := xf.map fun x => x.1
  let sum (k : Nat) (ps : List (Dec × Dec)) : Word × List (Nat × Flags) × Flags :=
    rowSumSplit e.md (orderSub rc.order k) e.width ps
  let st := rowStats e.md (fun k ps => let (v, _, f) := sum k ps; (v, f)) true true xs
  let d := (shifted e.md xs).map fun p => opDec p.1
  let tiles := (sum 0 (d.map fun w => (w, decOne))).2.1 ++ (sum 1 (d.map fun w => (w, w))).2.1 ++
    (sum 2 (xs.map fun x => (opDec x, opDec x))).2.1
  let o (w : Word) : List Byte := leBytes 4 (nzOut e.md w).toNat
  ⟨o st.mean ++ o st.var ++ o st.msq ++ leBytes 4 0, [], 0, 0,
    elementRecs rc false ((xf.zip st.elemFlags).map fun (x, f) => x.2 ||| f) ++ tileRecs rc tiles ++
      [homeRec rc false st.flags], false⟩

/-! ## Random words of an operator (R184, R190, R199, R200) -/

/-- n words of a lane; before the words whose numbers are listed the lane is reseeded (R199). -/
def laneDraw (mask start : Qword) (reseed : List Nat) : Nat → Nat → Qword → List Word × Qword
  | 0, _, st => ([], st)
  | n + 1, k, st =>
    let (w, st1) := ringDraw mask (if reseed.contains k then start else st)
    let (ws, st2) := laneDraw mask start reseed n (k + 1) st1
    (w :: ws, st2)

/-- The parity errors of a chip's lane in a command, by the number of words drawn before each. -/
def laneErrors (inc : List Incident) (chip lane : Nat) : List Nat :=
  inc.filterMap fun i => match i with
    | .laneParity c l k => if c = chip ∧ l = lane then some k else none
    | _ => none

/-- The rank that processes flat position e of rows of length L (R320). -/
def flatRank (L n e : Nat) : Nat := (e / L * ceilDiv L 512 + e % L / 512) % n

/-- The words of a lane-bound operator in flat order, and the lanes' states after them (R190). -/
def laneWords (s : State) (lock partner : Bool) (lane rows L : Nat) (inc : List Incident) :
    List Word × List (Nat × Qword) :=
  let chips := (dealChips s lock partner).map fun p => p.1
  let draws := (withIndex chips).map fun (rank, c) =>
    let es := (List.range (rows * L)).filter fun e => flatRank L chips.length e == rank
    let (ws, st) := laneDraw (ringMask lane) (laneStart c lane) (laneErrors inc c lane) es.length 0
      (nth 0#128 (chipOf s c).lanes lane)
    (c, es.zip ws, st)
  let all := sortBy (fun (a b : Nat × Word) => decide (a.1 < b.1)) (draws.flatMap fun d => d.2.1)
  (all.map fun p => p.2, draws.map fun d => (d.1, d.2.2))

/-- The words of an operator by flat position, with the lane commits (R95, R184, R191). -/
def operatorWords (s : State) (e : TEnv) (purpose : Nat) (inc : List Incident) : (Nat → Word) × List Commit :=
  let b := e.block
  if fieldAt b 0x42 1 = 1 then (sporeElem (qword b 0x50) (fieldAt b 0x48 6) purpose, [])
  else
    let lane := fieldAt b 0x43 1
    let (ws, after) := laneWords s e.lock false lane e.hdr.rows e.hdr.len inc
    let after2 := if e.lock then (laneWords s true true lane e.hdr.rows e.hdr.len inc).2 else []
    (nth 0#32 ws, (after ++ after2).map fun p => .lane p.1 lane p.2)

/-! ## CAST, RANDOM_FILL, APPLY_FUNCTION (R94, R124, R201, R326 to R328) -/

/-- One row of CAST; `word` gives the random word of a column, none to nearest. -/
def castRow (e : TEnv) (rc : RunCfg) (word : Nat → Option Word) (row : CodedRow) : TRow :=
  let f := fmtAt e.hdr.inFmt
  let ds := (rowElems e.hdr.inBlock row).map fun (c, sc) =>
    let (d, fl) := operandElem e.md f sc c
    (match sc with | some 255 => d | _ => alignNan f d, fl)
  let xs := (withIndex ds).map fun (i, d, _) => (d, word i)
  let (out, recs) := encodeGranules rc e.md (fmtAt e.hdr.outFmt) e.hdr.outBlock (fieldAt e.block 0x41 1 == 1) xs
  ⟨out, [], 0, 0, elementRecs rc false (ds.map fun d => d.2) ++ recs, false⟩

/-- One row of RANDOM_FILL. -/
def randomRow (e : TEnv) (rc : RunCfg) (word : Nat → Word) : TRow :=
  let dist := fieldAt e.block 0x40 1
  let value (w : Word) : Word := match dist with | 0 => w | 1 => uniform32 w | _ => exponential32 e.tier w
  let ws := (List.range e.hdr.len).map word
  ⟨ws.flatMap fun w => leBytes 4 (value w).toNat, [], 0, 0,
    if dist = 2 then elementRecs rc true (ws.map fun _ => fINX) else [], false⟩

/-- The loaded program an APPLY_FUNCTION names, if it names one. -/
def namedImage (s : State) (fid : Nat) : Option FnImage :=
  if fid < 0x40 then none else (s.functions.find? fun p => p.1 == fid - 0x40).map fun p => parseImage p.2

/-- One row of APPLY_FUNCTION with its biases (+0.0 each where absent). -/
def applyRow (s : State) (e : TEnv) (rc : RunCfg) (bias : List Word) (row : CodedRow) : TRow :=
  let fid := fieldAt e.block 0x40 1
  let im := namedImage s fid
  let scale := orElse one32 (word32 e.block 0x44)
  let ys := (withIndex (rowF32 e row)).map fun (i, x, f0) =>
    let (t, f1) := fadd e.md x (nth 0#32 bias i)
    let (u, f2) := fmul e.md t scale
    let (y, fs) := evalFunction e.md e.tier fid im u
    (y, f0 ||| f1 ||| f2, fs)
  let (out, recs) := encodeGranules rc e.md (fmtAt e.hdr.outFmt) e.hdr.outBlock false
    (ys.map fun y => (dec32 y.1, none))
  ⟨out, [], 0, 0, elementRecs rc false (ys.map fun y => y.2.1) ++ elementRecs rc true (ys.map fun y => y.2.2) ++ recs,
    false⟩

/-! ## The whole operator -/

/-- Do two spans of host memory share a byte? -/
def spansMeet (a n b m : Nat) : Bool := decide (n ≠ 0 ∧ m ≠ 0 ∧ a < b + m ∧ b < a + n)

/-- Do a command's outputs overlap its inputs (R319)? -/
def outputsOverlap (s : State) (c : Cmd) (e : TEnv) : Bool :=
  let h := e.hdr
  let L := h.len
  let ins := if h.src = 0 && pktOp c != 0x45 then
      [(h.inAddr, (h.rows - 1) * h.inStride + opRowBytes h.inFmt h.inBlock L)] else []
  let bias := if pktOp c = 0x46 && h.aux != 0 then [(h.aux, 4 * L)] else []
  (outAreas s c).any fun o => (ins ++ bias).any fun i => spansMeet o.1 o.2 i.1 i.2

/-- The rows' outputs written; overlapping outputs are unspecified (R319). -/
def writeRows (s : State) (c : Cmd) (e : TEnv) (rows : List TRow) : State :=
  if outputsOverlap s c e then spoilAreas s 0 (outAreas s c)
  else (withIndex rows).foldl (fun s (r, x) =>
    let s := hostWrite s (e.hdr.outAddr + r * e.hdr.outStride) x.out
    if x.aux.isEmpty then s else hostWrite s (e.hdr.aux + r * x.aux.length) x.aux) s

/-- The rows run: outputs, flags, CLAMP, status, DETAIL and COMPL_FLAGS (R324, R393). -/
def finishTensor (s : State) (c : Cmd) (e : TEnv) (inc : List Incident) (commits : List Commit) (rows : List TRow) :
    State :=
  let div := !(divergedSids inc).isEmpty
  let withhold := div && modeWithhold c.modeCtrl
  let trunc := rows.any fun x => x.status == 0x13
  let outcome := rows.any fun x => x.status == 0x10 || x.status == 0x11
  let qual := rows.foldl (fun t x => satAdd 0xFFFFFFFF t x.qualifying) 0
  let s := writeRows s c e rows
  let s := recordFlags s (rows.flatMap fun x => x.recs) (rows.any fun x => x.clamped)
  let s := nextFree (applyIncidents s inc)
  finishCmd s c.id (if withhold then 0x50 else if trunc then 0x13 else 0)
    (if withhold then 0 else if pktOp c = 0x42 then qual else 0)
    (16 * b2n outcome + 32 * b2n trunc + 128 * b2n (div && !withhold)) commits

/-- A read of an input row, or of the biases, that fails twice (R312). -/
def tensorFault (s : State) (c : Cmd) (e : TEnv) : Option Nat :=
  let h := e.hdr
  let rows := if h.src = 0 && pktOp c != 0x45 then
      (List.range h.rows).map fun r => (r * h.inStride, h.inAddr + r * h.inStride, opRowBytes h.inFmt h.inBlock h.len)
    else []
  let bias := if pktOp c = 0x46 && h.aux != 0 then [(0, h.aux, 4 * h.len)] else []
  ((rows ++ bias).find? fun p => !hostOk s p.2.1 p.2.2).map fun p =>
    2 ^ 31 + (p.1 + failOffset s p.2.1 p.2.2) % 2 ^ 31

/-- A tensor operator that has started: reads checked, rows run by `k`. -/
def doTensor (s : State) (id op : Nat) (inc : List Incident) (k : Cmd → TEnv → List TRow × List Commit) : State :=
  onCmd s id op fun c => withParams s c fun b =>
    let e := tensorEnv s c b inc
    match tensorFault s c e with
    | some d => finishCmd (logAer s c.ring) c.id 0x23 d 0 []
    | none => let (rows, commits) := k c e; finishTensor s c e inc commits rows

/-- The rows of an operator by a function of each row alone. -/
def mapRows (s : State) (e : TEnv) (f : RunCfg → CodedRow → TRow) : List TRow :=
  (List.range e.hdr.rows).map fun r => f (tensorCfg s e r) (tensorRow s e r)

/-- SOFTMAX. -/
def doSoftmax (s : State) (id : Nat) (inc : List Incident) : State :=
  doTensor s id 0x40 inc fun _ e => (mapRows s e (softmaxRow e), [])

/-- SOFTMAX (R322, R323). -/
def execSoftmax (id : Nat) (inc : List Incident) (s : State) : Host.Outcome State Fault Refusal := .next (doSoftmax s id inc)

/-- TOPK. -/
def doTopk (s : State) (id : Nat) (inc : List Incident) : State :=
  doTensor s id 0x41 inc fun _ e => (mapRows s e (topkOut e), [])

/-- TOPK (R171, R324). -/
def execTopk (id : Nat) (inc : List Incident) (s : State) : Host.Outcome State Fault Refusal := .next (doTopk s id inc)

/-- THRESHOLD_COMPACT. -/
def doThresholdCompact (s : State) (id : Nat) (inc : List Incident) : State :=
  doTensor s id 0x42 inc fun _ e => (mapRows s e (thresholdOut e), [])

/-- THRESHOLD_COMPACT (R172, R324). -/
def execThresholdCompact (id : Nat) (inc : List Incident) (s : State) : Host.Outcome State Fault Refusal :=
  .next (doThresholdCompact s id inc)

/-- ROWSTAT. -/
def doRowstat (s : State) (id : Nat) (inc : List Incident) : State :=
  doTensor s id 0x43 inc fun _ e => (mapRows s e (rowstatRow e), [])

/-- ROWSTAT (R133, R325). -/
def execRowstat (id : Nat) (inc : List Incident) (s : State) : Host.Outcome State Fault Refusal := .next (doRowstat s id inc)

/-- CAST. -/
def doCast (s : State) (id : Nat) (inc : List Incident) : State :=
  doTensor s id 0x44 inc fun _ e =>
    let row (w : Nat → Nat → Option Word) (r : Nat) : TRow := castRow e (tensorCfg s e r) (w r) (tensorRow s e r)
    if fieldAt e.block 0x40 1 = 0 then ((List.range e.hdr.rows).map (row fun _ _ => none), [])
    else
      let (w, commits) := operatorWords s e 3 inc
      ((List.range e.hdr.rows).map (row fun r i => some (w (r * e.hdr.len + i))), commits)

/-- CAST (R94, R326). -/
def execCast (id : Nat) (inc : List Incident) (s : State) : Host.Outcome State Fault Refusal := .next (doCast s id inc)

/-- RANDOM_FILL. -/
def doRandomFill (s : State) (id : Nat) (inc : List Incident) : State :=
  doTensor s id 0x45 inc fun _ e =>
    let (w, commits) := operatorWords s e 4 inc
    ((List.range e.hdr.rows).map fun r => randomRow e (tensorCfg s e r) fun i => w (r * e.hdr.len + i), commits)

/-- RANDOM_FILL (R201, R326). -/
def execRandomFill (id : Nat) (inc : List Incident) (s : State) : Host.Outcome State Fault Refusal :=
  .next (doRandomFill s id inc)

/-- APPLY_FUNCTION. -/
def doApplyFunction (s : State) (id : Nat) (inc : List Incident) : State :=
  doTensor s id 0x46 inc fun _ e =>
    let bias := if e.hdr.aux = 0 then [] else wordsAt (hostBytes s e.hdr.aux (4 * e.hdr.len)) e.hdr.len
    (mapRows s e (applyRow s e · bias), [])

/-- APPLY_FUNCTION (R124, R328). -/
def execApplyFunction (id : Nat) (inc : List Incident) (s : State) : Host.Outcome State Fault Refusal :=
  .next (doApplyFunction s id inc)

/-- RING_JUMP: a lane of every active chip, or a stream's state, staged. -/
def doRingJump (s : State) (id : Nat) : State :=
  onCmd s id 0x47 fun c => withParams s c fun b =>
    let reset := bit (fieldAt b 1 1) 0
    if fieldAt b 0 1 = 0 then doneCmd s c [.lanes (fieldAt b 2 1) reset (qword b 0x10)]
    else if !(streamOf s (fieldAt b 4 2)).isOpen then lateBad s c (inBlock 4)
    else doneCmd s c [.streamRing (fieldAt b 4 2) reset (qword b 0x10)]

/-- RING_JUMP (R195, R329). -/
def execRingJump (id : Nat) (s : State) : Host.Outcome State Fault Refusal := .next (doRingJump s id)

end Sys2Proof.Machine
end

