-- ==== Sys2Proof/Machine/Audit.lean ====
section
/-! DEFINITION. The load and audit operators: LOAD_FUNCTION, LOAD_MASK, REPLAY, READ_DIGESTS, READ_FLAGS, READ_COUNTERS,
CLEAR_COUNTERS (R129, R131, R248, R332 to R340, R396 to R399). -/

namespace Sys2Proof.Machine

/-! ## LOAD_FUNCTION (R129, R131, R332) -/

/-- LOAD_FUNCTION: the SFU errors of its sweep (R117), the verdict written back, an accepted image staged. -/
def doLoadFunction (s : State) (id : Nat) (inc : List Incident) : State :=
  onCmd s id 0x50 fun c => withParams s c fun b =>
    let s := applyIncidents s inc
    let r := imageReport b fun slot => s.functions.any fun p => p.1 == slot
    let a := pktParam c
    let s := hostWrite s (a + 0x14) (leBytes 1 r.1)
    let s := hostWrite s (a + 0x18) (leBytes 4 r.2.1.toNat ++ leBytes 4 r.2.2.1.toNat ++ leBytes 4 r.2.2.2.toNat)
    if r.1 = 0 then doneCmd s c [.function (fieldAt b 1 1) b] else finishCmd s c.id 0x20 r.1 0 []

/-- LOAD_FUNCTION. -/
def execLoadFunction (run : LoadRun) (s : State) : Host.Outcome State Fault Refusal :=
  .next (doLoadFunction s run.id run.inc)

/-! ## LOAD_MASK (R248, R333) -/

/-- The loads that wait for their record: bank entry and length. -/
def stagedMasks (s : State) : List (Nat × Nat) :=
  s.cmds.flatMap fun c => c.commits.filterMap fun m => match m with
    | .mask e (some x) => some (e, x.len)
    | _ => none

/-- Bitmap bytes of every entry but one. An entry whose replacement waits for its record counts once, with the longer of
its two bitmaps (R248). -/
def maskBytes (s : State) (entry : Nat) : Nat :=
  let staged := stagedMasks s
  let size (e len : Nat) : Nat := ceilDiv (staged.foldl (fun m p => if p.1 = e then max m p.2 else m) len) 8
  let held := s.masks.foldl (fun t p => if p.1 = entry then t else t + size p.1 p.2.len) 0
  let fresh := ((staged.map fun p => p.1).eraseDups.filter fun e => e != entry && !s.masks.any fun p => p.1 == e)
  fresh.foldl (fun t e => t + size e 0) held

/-- LOAD_MASK. -/
def doLoadMask (s : State) (id : Nat) : State :=
  onCmd s id 0x51 fun c => withParams s c fun b =>
    let entry := fieldAt b 0 2
    let len := fieldAt b 4 4
    if len = 0 then doneCmd s c [.mask entry none]
    else if 134217728 < maskBytes s entry + ceilDiv len 8 then finishCmd s c.id 0x30 0 0 []
    else withList s c (fieldAt b 8 8) (ceilDiv len 8) fun bs =>
      doneCmd s c [.mask entry (some ⟨len, leNat bs % 2 ^ len⟩)]

/-- LOAD_MASK. -/
def execLoadMask (id : Nat) (s : State) : Host.Outcome State Fault Refusal := .next (doLoadMask s id)

/-! ## REPLAY (R334 to R336, R399) -/

/-- What a replay runs: stream as it stood, entry, model (none: a score row of a format and a length), its input bytes
and step bitmap, and the recorded result entry. -/
structure ReplaySrc where
  st : Stream
  model : Option (Nat × Model)
  fmt : Nat
  len : Nat
  input : List Byte
  base : Option Nat
  mask : Option Nat
  recorded : Option (List Byte)
  deriving DecidableEq, Repr

/-- A specification's mask with the bitmap's bits given. -/
def specMask (s : State) (spec n bitmap : Nat) : Option Nat :=
  combinedMask (fun b => (mapGet ⟨0, 0⟩ s.masks b).bits) spec n bitmap

/-- The bytes of an input row. -/
def srcBytes (m : Option (Nat × Model)) (fmt len : Nat) : Nat :=
  match m with
  | some (_, x) => dRowBytes x.desc
  | none => len * (if fmt = 0 then 4 else 2)

/-- The source of a WINDOW replay: the history is the base and the tokens of older records; none where the input is absent or a
generation differs when the replay runs (R399). -/
def windowSrc (s : State) (sid step : Nat) : Option ReplaySrc :=
  match auditRec s sid step with
  | none => none
  | some (a, r) =>
    let older := (a.recs.takeWhile fun x => x.step != step).filterMap fun x => x.token
    let h := a.base ++ older
    let st := parseCtx r.ctx r.bias (h.drop (h.length - min h.length 4096))
    let m := match r.model with | some (mid, _) => (modelOf s mid).map fun m => (mid, m) | none => none
    let L := fieldAt r.head 4 4
    let n := srcBytes m (fieldAt r.head 2 1) L
    let spec := specInForce st.maskSpec (fieldAt r.entry 0x10 8)
    let bm := leNat (slice r.input (roundUp n 64) (ceilDiv L 8))
    if r.absent || (r.model.isSome && m.isNone) || !generationsHold s r then none
    else some ⟨st, m, fieldAt r.head 2 1, L, r.input.take n, none, specMask s spec L bm, some r.result⟩

/-- The reads of a HOST replay beside its image and entry. -/
def hostReplayReads (st : Stream) (e : List Byte) (n L : Nat) : List (Nat × Nat) :=
  let spec := specInForce st.maskSpec (fieldAt e 0x10 8)
  (if entryHost e then [(fieldAt e 8 8, n)] else []) ++
    (if specStep spec = 0 then [] else [(fieldAt e 0x18 8, ceilDiv L 8)])

/-- The source of a HOST replay. -/
def hostSrc (s : State) (c : Cmd) (b e : List Byte) (st : Stream) (m : Option (Nat × Model)) : ReplaySrc :=
  let L := match m with | some (_, x) => dVocab x.desc | none => fieldAt b 0x20 4
  let n := srcBytes m (fieldAt b 5 1) L
  let spec := specInForce st.maskSpec (fieldAt e 0x10 8)
  ⟨st, m, fieldAt b 5 1, L, entryInput s c.fn e 0 n,
    if entryHost e then none else some (bar2Base c.fn + fieldAt e 8 8), rowMask s spec L (fieldAt e 0x18 8), none⟩

/-- The row a replay runs. -/
def replayInput (x : ReplaySrc) (lines : List Nat) : RowInput :=
  let fix (f : Fmt) (block : Nat) (r : CodedRow) : CodedRow :=
    match x.base with | some a => poison f block a lines r | none => r
  match x.model with
  | some (_, m) =>
    .hidden (scoreModel m) (fix (dFmt m.desc) (dBlock m.desc) (parseRow (dFmt m.desc) (dBlock m.desc) (dHidden m.desc) x.input))
  | none => let f := fmtAt x.fmt; .scores f (fix f 0 (parseRow f 0 x.len x.input)).codes

/-- The bits of MATCH (Table OPS-9). -/
def matchBits (recorded : Option (List Byte)) (out : RowOut) : Nat :=
  match recorded with
  | none => 0
  | some r =>
    b2n (fieldAt r 0x30 8 == out.dNorm.toNat) + 2 * b2n (fieldAt r 0x38 8 == out.dScore.toNat) +
      4 * b2n (fieldAt r 0x40 8 == out.dFinal.toNat) + 8 * b2n (fieldAt r 0x48 8 == out.dCand.toNat)

/-- FP32 values as bytes. -/
def wordBytes (l : List Word) : List Byte := l.flatMap fun w => leBytes 4 w.toNat

/-- The sections of a dump in order: reserved size and content. -/
def dumpSections (mask : Nat) (x : ReplaySrc) (out : RowOut) : List (Nat × List Byte) :=
  let norm := match x.model with
    | some (_, m) => [(roundUp (dRowBytes m.desc) 64, rowToBytes (dFmt m.desc) out.normVec)]
    | none => []
  (if bit mask 0 then norm else []) ++
    (if bit mask 1 then [(roundUp (4 * x.len) 64, wordBytes out.scores)] else []) ++
    (if bit mask 2 then [(roundUp (4 * x.len) 64, wordBytes out.finals)] else []) ++
    (if bit mask 3 then
      [(524288, (byIndex out.sel).flatMap fun e => leBytes 4 e.idx ++ leBytes 4 e.score.toNat)] else [])

/-- Sections written one after another. -/
def writeSections (s : State) : Nat → List (Nat × List Byte) → State
  | _, [] => s
  | a, (n, bs) :: rest => writeSections (hostWrite s a bs) (a + n) rest

/-- The parts that a replay's row is summed in, and under LOCKSTEP their partners. -/
def replayParts (s : State) (lock : Bool) (x : ReplaySrc) : List ChipPart × List ChipPart :=
  match x.model with
  | some (_, m) => (modelParts s m false, if lock then modelParts s m true else [])
  | none => (rowParts s lock false 0 x.len, if lock then rowParts s lock true 0 x.len else [])

/-- The dump of a replay at address a: its header, its sections, and the record's status and flags (R335, R336). -/
def finishReplay (s : State) (c : Cmd) (a : Nat) (head : List Byte) (sections : List (Nat × List Byte)) (x : ReplaySrc)
    (inc : List Incident) : State :=
  let s := writeSections (hostWrite s a head) (a + 0x100) sections
  let s := nextFree (applyIncidents s inc)
  let fl := match x.model with
    | some (_, m) => 4 * b2n (readsDegraded s m) + 8 * b2n (!(overhangGranules m).isEmpty)
    | none => 0
  let div := !(divergedSids inc).isEmpty
  let withhold := div && modeWithhold c.modeCtrl
  finishCmd s c.id (if withhold then 0x50 else 0) 0 (fl + 128 * b2n (div && !withhold)) []

/-- The replay run and dumped: nothing is committed and no flag is raised (R335). -/
def runReplay (s : State) (c : Cmd) (b : List Byte) (x : ReplaySrc) (inc : List Incident) : State :=
  let sid := fieldAt b 0 2
  let sc := x.model.isNone
  let pp := replayParts s (modeLock c.modeCtrl) x
  let cfg := streamCfg x.st x.mask
  let rc := runCfg s c.modeCtrl (modesCompat x.st.modes) pp.1 pp.2 sid 0
  let d : DrawCtx := ⟨sid, x.st.step, x.st.seed, cfg, fieldAt b 6 1, runBits c !(divergedSids inc).isEmpty⟩
  let refused := stepExhausted 0x30 x.st 0
  let out := if refused then rowBlank else runRow cfg rc (replayInput x (badLines inc))
  let res := stepResult d rc out (if x.st.ringBound then x.st.ring else streamRingStart x.st.seed)
  let entry := if refused then entryBytes (refusedVals sid x.st.step sc) else res.entry
  let recs := if refused then [] else res.recs
  let mask := if sc then fieldAt b 3 1 / 2 * 2 else fieldAt b 3 1
  let crush := recs.foldl (fun t r => satAdd 0xFFFF t r.crush) 0
  let head := leBytes 2 sid ++ leBytes 1 mask ++ leBytes 1 0 ++ leBytes 4 x.len ++ leBytes 6 x.st.step ++ leBytes 2 0 ++
    leBytes 4 (summaryBits recs out.clamped).toNat ++ leBytes 2 crush ++ leBytes 1 (matchBits x.recorded out) ++
    leBytes 9 0 ++ entry ++ leBytes 64 0
  finishReplay s c (fieldAt b 0x28 8) head (if refused then [] else dumpSections mask x out) x inc

/-- A replay against a model: suspended, or its overhang broken (R269). -/
def replayModel (s : State) (c : Cmd) (b : List Byte) (x : ReplaySrc) (inc : List Incident) : State :=
  match x.model with
  | none => runReplay s c b x inc
  | some (mid, m) =>
    if m.state = 4 then finishCmd s c.id 0x31 0 0 []
    else if !(overhangGranules m).isEmpty && overhangBroken s m inc then
      finishCmd (applyIncidents s inc) c.id 0x31 0 0 [.suspend mid]
    else runReplay s c b x inc

/-- REPLAY. -/
def doReplay (s : State) (id : Nat) (inc : List Incident) : State :=
  onCmd s id 0x60 fun c => withParams s c fun b =>
    if fieldAt b 2 1 = 0 then
      match windowSrc s (fieldAt b 0 2) (fieldAt b 8 6) with
      | none => lateBad s c noLocation
      | some x => replayModel s c b x inc
    else
      withList s c (fieldAt b 0x10 8) 18960 fun im => withList s c (fieldAt b 0x18 8) 64 fun e =>
        let st := imageStream im
        let run (m : Option (Nat × Model)) : State :=
          let x := hostSrc s c b e st m
          match (hostReplayReads st e x.input.length x.len).find? fun p => p.2 != 0 && !hostOk s p.1 p.2 with
          | some p => readFault s c true p.1 0 p.2
          | none => replayModel s c b x inc
        if fieldAt b 4 1 = 1 then run none
        else match modelOf s (pktModel c) with
          | none => lateBad s c 0x1C
          | some m => run (some (pktModel c, m))

/-- REPLAY. -/
def execReplay (id : Nat) (inc : List Incident) (s : State) : Host.Outcome State Fault Refusal := .next (doReplay s id inc)

/-! ## READ_DIGESTS (R337) -/

/-- The 40 bytes for a request of RECORD. -/
def digestRecord (s : State) (sid step : Nat) : List Byte :=
  match auditRec s sid step with
  | some (_, r) => slice r.result 0x30 32 ++ leBytes 1 1 ++ leBytes 7 0
  | none => leBytes 40 0

/-- The digest of a row of a format and block (R387 to R389). -/
def rowDigest (fmt block len : Nat) (bs : List Byte) : Dword :=
  digestOf ((withIndex (rowElems block (parseRow (fmtAt fmt) block len bs))).map fun (i, c, sc) =>
    (i, digestValue c (match sc with | some x => x | none => 0) fmt))

/-- READ_DIGESTS. -/
def doReadDigests (s : State) (id : Nat) : State :=
  onCmd s id 0x61 fun c => withParams s c fun b =>
    let f (o n : Nat) : Nat := fieldAt b o n
    let n := f 4 4
    let src := f 0x10 8
    let out := f 0x20 8
    if f 0 1 = 0 then
      withList s c src (8 * n) fun l =>
        doneCmd (hostWrite s out ((List.range n).flatMap fun j =>
          digestRecord s (fieldAt l (8 * j) 2) (fieldAt l (8 * j + 2) 6))) c []
    else
      let size := opRowBytes (f 1 1) (f 2 1) (f 8 4)
      match (List.range n).find? fun r => !hostOk s (src + r * f 0x18 8) size with
      | some r =>
        readFault s c true src (r * f 0x18 8) size
      | none =>
        doneCmd (hostWrite s out ((List.range n).flatMap fun r =>
          leBytes 8 (rowDigest (f 1 1) (f 2 1) (f 8 4) (hostBytes s (src + r * f 0x18 8) size)).toNat)) c []

/-- READ_DIGESTS. -/
def execReadDigests (id : Nat) (s : State) : Host.Outcome State Fault Refusal := .next (doReadDigests s id)

/-! ## READ_FLAGS, READ_COUNTERS, CLEAR_COUNTERS (R107, R338 to R340) -/

/-- READ_FLAGS with its snapshot on a tick. -/
def doReadFlags (s : State) (id : Nat) (t : Tick) : State :=
  onCmd s id 0x62 fun c => withParams s c fun b =>
    let s := stamp s t
    let s := hostWrite s (fieldAt b 0 8) (flagSnapshot s s.now)
    doneCmd (if bit (fieldAt b 8 1) 0 then clearFlags s else s) c []

/-- READ_FLAGS. -/
def execReadFlags (id : Nat) (t : Tick) (s : State) : Host.Outcome State Fault Refusal := .next (doReadFlags s id t)

/-- The records of one unit. -/
def counterRecords (kind chip unit : Nat) (l : List Nat) : List (List Byte) :=
  (withIndex l).map fun (i, v) => leBytes 1 kind ++ leBytes 1 chip ++ leBytes 1 unit ++ leBytes 1 i ++ leBytes 4 v

/-- Every record of a scope, in ascending UNIT_KIND, CHIP, UNIT, COUNTER; units of lost chips are omitted (R339). -/
def allRecords (s : State) (scope : Nat) : List (List Byte) :=
  let cs := activeChips s
  let up (c : Nat) : Bool := (chipOf s c).active
  let core := cs.flatMap fun c =>
    (withIndex (chipOf s c).cores).flatMap fun (k, co) => counterRecords 0 c k co.counters
  let link := (s.mesh.filter fun l => up l.a && up l.b).flatMap fun l => counterRecords 1 l.a l.b l.counters
  let hbm := cs.flatMap fun c => counterRecords 2 c 0 (chipOf s c).hbm
  let chip := cs.flatMap fun c => counterRecords 3 c 0 (chipOf s c).counters
  (if bit scope 0 then core else []) ++ (if bit scope 1 then link else []) ++ (if bit scope 2 then hbm else []) ++
    (if bit scope 3 then chip else []) ++ (if bit scope 4 then counterRecords 4 0 0 s.totals else [])

/-- READ_COUNTERS with its snapshot on a tick. -/
def doReadCounters (s : State) (id : Nat) (t : Tick) : State :=
  onCmd s id 0x63 fun c => withParams s c fun b =>
    let s := stamp s t
    let rs := allRecords s (fieldAt b 0 1)
    doneCmd (hostWrite s (fieldAt b 8 8) (leBytes 8 s.now ++ leBytes 4 rs.length ++ leBytes 4 0 ++ rs.flatten)) c []

/-- READ_COUNTERS. -/
def execReadCounters (id : Nat) (t : Tick) (s : State) : Host.Outcome State Fault Refusal := .next (doReadCounters s id t)

/-- CLEAR_COUNTERS: staged for its completion tick. -/
def doClearCounters (s : State) (id : Nat) : State :=
  onCmd s id 0x64 fun c => withParams s c fun b => doneCmd s c [.clearCounters (fieldAt b 0 1) (fieldAt b 4 4)]

/-- CLEAR_COUNTERS. -/
def execClearCounters (id : Nat) (s : State) : Host.Outcome State Fault Refusal := .next (doClearCounters s id)

end Sys2Proof.Machine
end

