-- ==== Sys2Proof/Machine/Control.lean ====
section
/-! DEFINITION. The control commands: NOP, FENCE, SET_MODE, SET_WAKE_TOLERANCE, BARRIER with its arrivals and release,
LAUNCH_AT and its tick, ABORT (R295, R297, R300, R301, R341, R342, R365 to R368). -/

namespace Sys2Proof.Machine

/-- NOP. -/
def doNop (s : State) (id : Nat) : State := onCmd s id 0x01 fun c => doneCmd s c []

/-- NOP (R342). -/
def execNop (id : Nat) (s : State) : Host.Outcome State Fault Refusal := .next (doNop s id)

/-- Is every earlier command of a FENCE's scope complete (Table CMD-13)? -/
def fenceReady (s : State) (c : Cmd) : Bool :=
  s.cmds.all fun d => !decide (d.id < c.id) || !(if pkt c 0x20 1 = 0 then d.ring == c.ring else d.fn == c.fn)

/-- FENCE: it ends once every earlier command of its scope has completed, and waits until then. -/
def doFence (s : State) (id : Nat) : State :=
  onCmd s id 0x02 fun c => if fenceReady s c then doneCmd s c [] else s

/-- FENCE (R295). -/
def execFence (id : Nat) (s : State) : Host.Outcome State Fault Refusal := .next (doFence s id)

/-! ## SET_MODE, SET_WAKE_TOLERANCE (R341, R342, R390) -/

/-- Does a SET_MODE leave a MODE_CTRL that R341 and R390 refuse, or one with a reserved code of Table CMD-19 (R14)? -/
def modeRefused (s : State) (mask value : Word) : Bool :=
  let w := s.regs.modeCtrl
  let v := newMode w mask value
  (modeLock v != modeLock w && !s.models.isEmpty) || (modeLock v && !v.getLsbD 1) ||
  (modeNum v == 1 && modeFlush v == 2) || modeFlush v == 3 || modeNz v == 3 || modeProfile v == 3

/-- SET_MODE: the new MODE_CTRL and power cap staged. -/
def doSetMode (s : State) (id : Nat) : State :=
  onCmd s id 0x70 fun c =>
    let mask := BitVec.ofNat 32 (pkt c 0x20 4)
    let value := BitVec.ofNat 32 (pkt c 0x24 4)
    if modeRefused s mask value then lateBad s c 0x24
    else doneCmd s c [.mode mask value (if bit (pkt c 0x2A 1) 0 then some (pkt c 0x28 2) else none)]

/-- SET_MODE. -/
def execSetMode (id : Nat) (s : State) : Host.Outcome State Fault Refusal := .next (doSetMode s id)

/-- SET_WAKE_TOLERANCE: staged. -/
def doSetWakeTolerance (s : State) (id : Nat) : State :=
  onCmd s id 0x71 fun c => doneCmd s c [.wake (BitVec.ofNat 32 (pkt c 0x20 4))]

/-- SET_WAKE_TOLERANCE. -/
def execSetWakeTolerance (id : Nat) (s : State) : Host.Outcome State Fault Refusal := .next (doSetWakeTolerance s id)

/-! ## BARRIER (R365, R368) -/

/-- BARRIER: arrival requests go out. -/
def doBarrier (s : State) (id : Nat) (t : Tick) : State :=
  onCmd (stamp s t) id 0x72 fun c => match (stamp s t).barrierSt with
    | some _ => stamp s t
    | none => { stamp s t with barrierSt := some ⟨c.id, [], none⟩ }

/-- BARRIER. -/
def execBarrier (id : Nat) (t : Tick) (s : State) : Host.Outcome State Fault Refusal := .next (doBarrier s id t)

/-- The release tick: the largest arrival stamp plus 2,048 ticks, once every active chip has arrived. -/
def barrierTick (s : State) (arrivals : List (Nat × Tick)) : Option Tick :=
  if (activeChips s).all fun c => arrivals.any fun a => a.1 == c then
    some (arrivals.foldl (fun m a => max m a.2) 0 + ticksA s 2048)
  else none

/-- BARRIER_ARRIVAL of a chip that has drained its work for earlier commands. -/
def doBarrierArrival (s : State) (id chip : Nat) (t : Tick) : State :=
  match s.barrierSt with
  | none => s
  | some b =>
    if b.id != id || b.release.isSome || !(chipOf s chip).active || (b.arrivals.any fun a => a.1 == chip) ||
        (s.cmds.any fun d => decide (d.id < id) && d.phase != .executed) then s
    else
      let s := stamp s t
      let l := b.arrivals ++ [(chip, t)]
      { s with barrierSt := some { b with arrivals := l, release := barrierTick s l } }

/-- BARRIER_ARRIVAL. -/
def execBarrierArrival (id chip : Nat) (t : Tick) (s : State) : Host.Outcome State Fault Refusal :=
  .next (doBarrierArrival s id chip t)

/-- BARRIER_RELEASE: on the release tick the BARRIER completes, every earlier command complete. -/
def doBarrierRelease (s : State) (id : Nat) : State :=
  match s.barrierSt with
  | none => s
  | some b => match b.release with
    | none => s
    | some r =>
      if b.id != id || s.cmds.any fun d => decide (d.id < id) then s
      else
        let r := landing s r
        let s := setCmd { stamp s r with barrierSt := none } id fun c => { c with fixed := some r }
        onCmd s id 0x72 fun c => doneCmd s c []

/-- BARRIER_RELEASE. -/
def execBarrierRelease (id : Nat) (s : State) : Host.Outcome State Fault Refusal := .next (doBarrierRelease s id)

/-! ## LAUNCH_AT (R297, R366, R367) -/

/-- LAUNCH_AT: it holds its ring until LAUNCH_TICK; one that starts with its tick gone by ends at once. -/
def doLaunchAt (s : State) (id : Nat) : State :=
  onCmd s id 0x73 fun c => if pkt c 0x20 8 ≤ s.now then doneCmd s c [] else s

/-- LAUNCH_AT. -/
def execLaunchAt (id : Nat) (s : State) : Host.Outcome State Fault Refusal := .next (doLaunchAt s id)

/-- The next command of a ring after one of its commands. -/
def nextOfRing (s : State) (c : Cmd) : Option Cmd := (ringCmds s c.ring).find? fun d => decide (c.id < d.id)

/-- Was a command ready 4,800 ticks before tick t, so that the dispatcher could broadcast it with START_TICK t (R366)? -/
def readyFor (s : State) (d : Cmd) (t : Tick) : Bool := decide (max d.accept d.freed + ticksA s 4800 ≤ t)

/-- LAUNCH_TICK: the LAUNCH_AT completes on its tick, and the next command of its ring starts on it if it was ready in time; one
that became ready later starts by its own event (R366). -/
def doLaunchTick (s : State) (id : Nat) : State :=
  onCmd s id 0x73 fun c =>
    let t := max s.now (landing s (pkt c 0x20 8))
    let s := setCmd (stamp s t) id fun c => { c with fixed := some t }
    let s := doneCmd s c []
    match nextOfRing s c with
    | some d => if readyFor s d t then doCommandStart s d.id t else s
    | none => s

/-- LAUNCH_TICK. -/
def execLaunchTick (id : Nat) (s : State) : Host.Outcome State Fault Refusal := .next (doLaunchTick s id)

/-! ## ABORT (R300, R301) -/

/-- Does an ABORT's scope reach a ring and tag? -/
def abortReaches (s : State) (a : Cmd) (ring tag : Nat) : Bool :=
  match pkt a 0x22 1 with
  | 0 => trayRing s a.fn (pkt a 0x20 2) == some ring && pkt a 0x24 4 == tag
  | 1 => trayRing s a.fn (pkt a 0x20 2) == some ring
  | _ => ringFn s ring == a.fn

/-- The incomplete commands an ABORT names. -/
def abortTargets (s : State) (a : Cmd) : List Cmd :=
  s.cmds.filter fun d => d.fn == a.fn && pktOp d != 0x7F && decide (d.accept < a.accept) &&
    abortReaches s a d.ring (pktTag d)

/-- Has a boundary fixed in advance for a command come by tick t, so that it acts before an ABORT stamped then (R364, Tables MYC-6,
FLT-11): its LAUNCH_TICK, its deadline, its barrier's release, its watchdog's expiry? -/
def boundaryCame (s : State) (d : Cmd) (t : Tick) : Bool :=
  (pktOp d == 0x73 && d.phase == .started && decide (pkt d 0x20 8 ≤ t)) ||
  (match d.fixed with | some f => decide (f ≤ t) | none => false) ||
  (pktAbortOnLate d && decide (pktDeadline d ≠ 0 ∧ pktDeadline d ≤ t)) ||
  (match s.barrierSt with
   | some b => b.id == d.id && (match b.release with | some r => decide (r ≤ t) | none => false)
   | none => false) ||
  expired s d t

/-- Can an ABORT stamped on tick t end a command (R300, R301, R364)? -/
def abortCan (s : State) (t : Tick) (d : Cmd) : Bool := canAbort d && !boundaryCame s d t

/-- One target of an ABORT ended: its record comes after the stamp (R300). -/
def abortOne (detail stampTick : Nat) (s : State) (d : Cmd) : State :=
  setCmd (endCmd s d.id 0x40 detail none) d.id fun c => { c with notBefore := stampTick + 1 }

/-- ABORT: its targets end ABORTED, their records after its stamp, and what they held is released; its DETAIL counts them
and gives the outcome. -/
def doAbort (s : State) (id : Nat) : State :=
  onCmd s id 0x7F fun a =>
    let ts := abortTargets s a
    let hit := ts.filter (abortCan s a.accept)
    let doneSome := (ts.any fun d => (isFailure d.status && !canAbort d) || boundaryCame s d a.accept) || s.done.any fun p => abortReaches s a p.1 p.2
    let busy := ts.any fun d => !isFailure d.status && !canAbort d && !boundaryCame s d a.accept
    let outcome := if !hit.isEmpty then 0 else if busy then 3 else if doneSome then 1 else 2
    let s := hit.foldl (abortOne (if pkt a 0x22 1 = 0 then 0 else 2) a.accept) s
    let s := dropBarrier s fun i => hit.any fun d => d.id == i
    finishCmd s id 0 (min 0xFFFF hit.length + 65536 * outcome) 0 []

/-- ABORT. -/
def execAbort (id : Nat) (s : State) : Host.Outcome State Fault Refusal := .next (doAbort s id)

end Sys2Proof.Machine
end

