-- ==== Sys2Proof/Machine/Fabric.lean ====
section
/-! DEFINITION. The Mycel fabric and tray time: flits, retry, failed links and relays, lanes, recalibration, time exchanges
(R344 to R361, R427, R433). A direction is named by its sender and its receiver. -/

namespace Sys2Proof.Machine

/-! ## Directions -/

/-- The direction from src to dst of the pair's link. -/
def dirOf (s : State) (src dst : Nat) : Dir :=
  let l := linkOf s src dst
  if src < dst then l.up else l.down

/-- A direction changed. -/
def setDir (s : State) (src dst : Nat) (f : Dir → Dir) : State :=
  setLink s src dst fun l => if src < dst then { l with up := f l.up } else { l with down := f l.down }

/-- Has the pair's link failed? -/
def linkFailed (s : State) (a b : Nat) : Bool := (linkOf s a b).failed

/-- A chip's FAILED links. -/
def failedLinks (s : State) (c : Nat) : Nat := (s.mesh.filter fun l => l.failed && (l.a == c || l.b == c)).length

/-- The relay of a pair (R354): the lowest-numbered other active chip whose links to both are not FAILED. -/
def relayOf (s : State) (a b : Nat) : Option Nat :=
  (activeChips s).find? fun c => c != a && c != b && !linkFailed s a c && !linkFailed s b c

/-- The next hop of traffic from a chip to another: the direct link, or the relay where that link is FAILED (R354). -/
def hopOf (s : State) (a b : Nat) : Option Nat := if linkFailed s a b then relayOf s a b else some b

/-! ## Flits (R347, R348) -/

/-- The 256 bytes of a flit with its CRC. -/
def flitBytes (f : Flit) : List Byte :=
  let b := leBytes 1 f.typ ++ leBytes 1 (f.src + 16 * f.dst) ++ leBytes 2 f.seq ++
    leBytes 2 (match f.ack with | some a => a + 4096 | none => 0) ++ leBytes 1 (f.cls + 4 * b2n f.relay) ++
    leBytes 1 f.credits ++ leBytes 1 (min 234 f.payload.length) ++ leBytes 1 0 ++ leBytes 4 f.context ++
    padTo 234 (f.payload.take 234)
  b ++ leBytes 8 (crc64 b)

/-- The fields of a flit. -/
def parseFlit (b : List Byte) : Flit :=
  let ack := fieldAt b 4 2
  let cls := fieldAt b 6 1
  { typ := fieldAt b 0 1, src := bits (fieldAt b 1 1) 3 0, dst := bits (fieldAt b 1 1) 7 4, seq := bits (fieldAt b 2 2) 11 0
    ack := if bit ack 12 then some (bits ack 11 0) else none, cls := bits cls 1 0, relay := bit cls 2
    credits := fieldAt b 7 1, context := fieldAt b 0x0A 4, payload := slice b 0x0E (min 234 (fieldAt b 8 1)) }

/-- Is a flit whole: 256 bytes whose CRC matches? -/
def flitGood (f : List Byte) : Bool := f.length == 256 && fieldAt f 0xF8 8 == crc64 (f.take 0xF8)

/-- A link-local flit of a type between two chips (R347): no sequence number, CONTEXT 0. -/
def localFlit (typ src dst : Nat) (payload : List Byte) : Flit := ⟨typ, src, dst, 0, none, 0, false, 0, 0, payload⟩

/-! ## Sending (R349, R350, R354) -/

/-- Which credits a flit takes: its class's, for direct traffic or for the relay buffers. -/
def creditOf (f : Flit) : Nat := f.cls % 4 + 4 * b2n f.relay

/-- May a queued flit go now: a credit of its class, and BULK not paused by its sender's pressure level (R350, R438)? -/
def maySend (s : State) (src : Nat) (d : Dir) (f : Flit) : Bool :=
  decide (0 < nth 0 d.credits (creditOf f)) && !(f.cls == 3 && bulkPaused (chipPressure s src))

/-- The queued flit that goes next: of the highest-priority class that has both a flit and a credit (R350). -/
def nextToSend (s : State) (src : Nat) (d : Dir) : Option Flit :=
  (List.range 4).findSome? fun c => d.queue.find? fun f => f.cls == c && maySend s src d f

/-- The sequence number after the flits that are unacknowledged. -/
def nextSeq (d : Dir) : Nat := (d.acked + d.unacked.length + 1) % 4096

/-- A DATA flit sent: numbered, kept in the replay buffer, its credit spent. -/
def putFlit (d : Dir) (f : Flit) : Dir :=
  let g := { f with seq := nextSeq d }
  { d with
    queue := d.queue.erase f, unacked := d.unacked ++ [g], credits := modNth d.credits (creditOf f) (· - 1)
    sent := d.sent ++ [g] }

/-- The queue of a direction sent as far as credits, pressure and the 512 flits of the replay buffer allow (R349, R350). -/
def pump (s : State) (src dst : Nat) : Nat → State
  | 0 => s
  | n + 1 =>
    let d := dirOf s src dst
    if linkFailed s src dst || 512 ≤ d.unacked.length then s
    else match nextToSend s src d with
      | some f => pump (setDir s src dst fun d => putFlit d f) src dst n
      | none => s

/-- A direction sends what it can. -/
def sendAll (s : State) (src dst : Nat) : State := pump s src dst (dirOf s src dst).queue.length

/-- A DATA flit queued at a chip for its destination, on the direct link or towards the relay. -/
def queueFlit (s : State) (chip : Nat) (f : Flit) : State :=
  match hopOf s chip f.dst with
  | some h => sendAll (setDir s chip h fun d => { d with queue := d.queue ++ [f] }) chip h
  | none => s

/-- A link-local flit sent by a chip to its destination. -/
def sendLocal (s : State) (chip : Nat) (f : Flit) : State :=
  match hopOf s chip f.dst with
  | some h => setDir s chip h fun d => { d with sent := d.sent ++ [f] }
  | none => s

/-- The distance from sequence number a to b. -/
def seqAfter (a b : Nat) : Nat := (b + 4096 - a) % 4096

/-- A DATA flit that its sender is seen to have sent: kept in the replay buffer in sequence order, its credit spent. -/
def noteSent (d : Dir) (f : Flit) : Dir :=
  let k := seqAfter d.acked f.seq
  if k = 0 || 512 < k || 512 ≤ d.unacked.length || d.unacked.any fun p => p.seq == f.seq then d
  else
    { d with
      unacked := sortBy (fun a b => decide (seqAfter d.acked a.seq < seqAfter d.acked b.seq)) (d.unacked ++ [f])
      credits := modNth d.credits (creditOf f) (· - 1) }

/-! ## A failed link (R353, R354, R427, Table FLT-6) -/

/-- The chip of an unreachable pair that is declared lost: more FAILED links, the higher ID on a tie. -/
def unreachableLoser (s : State) (a b : Nat) : Nat :=
  let fa := failedLinks s a
  let fb := failedLinks s b
  if fb < fa then a else if fa < fb then b else max a b

/-- A loss declared for a pair with no link and no relay, and for a chip with three FAILED links and a missed heartbeat. -/
def checkLinks (s : State) (a b : Nat) : State :=
  let s := if (chipOf s a).active && (chipOf s b).active && linkFailed s a b && (relayOf s a b).isNone then
      declareBy s (unreachableLoser s a b) else s
  [a, b].foldl (fun s c => if 3 ≤ failedLinks s c && decide (0 < (chipOf s c).missed) then declareLoss s c else s) s

/-- Every FAILED link judged: a pair may have lost its last relay. -/
def recheckLinks (s : State) : State := s.mesh.foldl (fun s l => if l.failed then checkLinks s l.a l.b else s) s

/-- A started command replayed from its start, at once and with a fresh watchdog (R427). -/
def replayNow (s : State) (id : Nat) : State :=
  match cmdOf s id with
  | none => s
  | some c =>
    if c.phase == .held || isFailure c.status then s
    else countTotal (setCmd s id fun c =>
      { c with
        phase := .started, start := s.now, status := 0, detail := 0, cflags := 0, commits := [], skips := []
        replayed := true }) 30 1

/-- Does a command have an unacknowledged DATA flit in a direction? -/
def dirHolds (d : Dir) (id : Nat) : Bool := d.unacked.any fun f => f.context == id % 2 ^ 32

/-- The commands with an unacknowledged DATA flit in a direction. -/
def dirCmds (s : State) (d : Dir) : List Nat := (s.cmds.filter fun c => dirHolds d c.id).map fun c => c.id

/-- The ticks in RETRY up to now entered for the commands whose flits the direction holds (R428). -/
def closeSkips (s : State) (src dst : Nat) : State :=
  let d := dirOf s src dst
  match d.retry with
  | none => s
  | some r =>
    setDir { s with cmds := s.cmds.map fun c => if dirHolds d c.id then { c with skips := c.skips ++ [(r.mark, s.now)] } else c }
      src dst fun d => { d with retry := d.retry.map fun r => { r with mark := s.now } }

/-- The two replay buffers of a failed link dropped; the flits that waited are taken off it. -/
def dropLink (s : State) (a b : Nat) : State :=
  let drop (d : Dir) : Dir := { d with queue := [], unacked := [], retry := none, nacked := false }
  setLink s a b fun l => { l with failed := true, up := drop l.up, down := drop l.down }

/-- A link declared FAILED: replay buffers dropped, LINK_FAILED raised, the flits that waited sent through the relay, the commands
with flits on it replayed where a relay serves the pair, and every pair judged anew. -/
def failLink (s : State) (a b : Nat) : State :=
  let l := linkOf s a b
  if l.failed then s
  else
    let ids := (dirCmds s l.up ++ dirCmds s l.down).eraseDups
    let lo := min a b
    let hi := max a b
    let s := dropLink (closeSkips (closeSkips s lo hi) hi lo) a b
    let s := raiseEvent (countLink s a b 5 1) evLINK_FAILED
    let s := logFault s evLINK_FAILED lo hi 5
    let s := if (relayOf s a b).isSome then ids.foldl replayNow s else s
    let s := l.down.queue.foldl (fun s f => queueFlit s hi f) (l.up.queue.foldl (fun s f => queueFlit s lo f) s)
    recheckLinks s

/-! ## Retry (R351, R352) -/

/-- A retry attempt started on the present tick: every unacknowledged flit is replayed in sequence order; with none it succeeds at
once. `told`: the NACK for the failure that started it is still to arrive. -/
def startAttempt (s : State) (src dst fails : Nat) (entered : Tick) (told : Bool) : State :=
  let d := dirOf s src dst
  let w := d.unacked.map fun p => p.seq
  let r : Retry := ⟨entered, s.now, w, if w.isEmpty then 0 else fails, if w.isEmpty then some 0 else none, told, s.now⟩
  countLink (setDir s src dst fun d => { d with retry := some r, sent := d.sent ++ d.unacked }) src dst 6 w.length

/-- A failed attempt: the eighth in a row fails the link, any other starts the next. -/
def failAttempt (s : State) (src dst : Nat) (r : Retry) : State :=
  let s := countLink s src dst 2 1
  if 8 ≤ r.fails + 1 then failLink s src dst else startAttempt s src dst (r.fails + 1) r.entered false

/-- RETRY entered, or a running attempt failed, or a new attempt after a successful one. -/
def retryEvent (s : State) (src dst : Nat) : State :=
  match (dirOf s src dst).retry with
  | none => startAttempt (countLink s src dst 1 1) src dst 0 s.now false
  | some r => if r.good.isNone then failAttempt s src dst r else startAttempt s src dst r.fails r.entered false

/-- Is sequence number a at or before b, among the 512 a sender may have unacknowledged? -/
def seqUpTo (a b : Nat) : Bool := decide ((b + 4096 - a) % 4096 < 512)

/-- The flits of a direction acknowledged up to a sequence number leave its replay buffer. -/
def trimAcked (d : Dir) (ack : Nat) : Dir :=
  { d with unacked := d.unacked.filter fun p => !seqUpTo p.seq ack, acked := if seqUpTo d.acked ack then ack else d.acked }

/-- An attempt whose flits are all acknowledged succeeds (R351). -/
def judgeAttempt (d : Dir) : Dir :=
  { d with retry := d.retry.map fun r =>
      if r.good.isNone && r.waiting.all (fun q => d.unacked.all fun p => p.seq != q) then
        { r with waiting := [], fails := 0, good := some 0 }
      else r }

/-- Flits of a direction acknowledged up to a sequence number; an attempt whose flits are all acknowledged succeeds, and what waited
for room in the replay buffer goes out. -/
def acknowledge (s : State) (src dst ack : Nat) : State :=
  sendAll (setDir (closeSkips s src dst) src dst fun d => judgeAttempt (trimAcked d ack)) src dst

/-- Has the direction a running attempt whose own NACK is still to arrive? -/
def nackDue (d : Dir) : Bool := match d.retry with | some r => r.good.isNone && r.told | none => false

/-- NACK_RECEIVE: the sender of a direction learns what arrived and retries; a NACK that arrives while an attempt runs fails it,
unless it is the one for the failure that started the attempt. -/
def doNackReceive (s : State) (src dst ack : Nat) (t : Tick) : State :=
  let s := stamp s t
  if linkFailed s src dst then s
  else if nackDue (dirOf s src dst) then
    acknowledge (setDir s src dst fun d => { d with retry := d.retry.map fun r => { r with told := false } }) src dst (ack % 4096)
  else retryEvent (setDir (closeSkips s src dst) src dst fun d => trimAcked d (ack % 4096)) src dst

/-- NACK_RECEIVE. -/
def execNackReceive (src dst ack : Nat) (t : Tick) (s : State) : Host.Outcome State Fault Refusal :=
  .next (doNackReceive s src dst ack t)

/-- ACK_TIMEOUT: a DATA flit of a command unacknowledged for 4,800 ticks. -/
def doAckTimeout (s : State) (src dst seq context : Nat) (t : Tick) : State :=
  let s := stamp s t
  if linkFailed s src dst then s
  else
    let s := setDir s src dst fun d => noteSent d ⟨1, src, dst, seq % 4096, none, 0, false, 0, context, []⟩
    match (dirOf s src dst).retry with
    | some _ => s
    | none => retryEvent s src dst

/-- ACK_TIMEOUT. -/
def execAckTimeout (src dst seq context : Nat) (t : Tick) (s : State) : Host.Outcome State Fault Refusal :=
  .next (doAckTimeout s src dst seq context t)

/-- RETRY_ATTEMPT_TIMEOUT: an attempt not acknowledged whole after 4,800 ticks. -/
def doRetryAttemptTimeout (s : State) (src dst : Nat) (t : Tick) : State :=
  let s := stamp s t
  match (dirOf s src dst).retry with
  | some r =>
    if r.good.isNone && decide (r.attempt + ticksA s 4800 ≤ s.now) then failAttempt (closeSkips s src dst) src dst r else s
  | none => s

/-- RETRY_ATTEMPT_TIMEOUT. -/
def execRetryAttemptTimeout (src dst : Nat) (t : Tick) (s : State) : Host.Outcome State Fault Refusal :=
  .next (doRetryAttemptTimeout s src dst t)

/-- RETRY_WINDOW_EXPIRY: a direction still in RETRY 320,000 ticks after it entered fails its link. -/
def doRetryWindowExpiry (s : State) (src dst : Nat) : State :=
  match (dirOf s src dst).retry with
  | some r => failLink (stamp s (r.entered + ticksA s 320000)) src dst
  | none => s

/-- RETRY_WINDOW_EXPIRY. -/
def execRetryWindowExpiry (src dst : Nat) (s : State) : Host.Outcome State Fault Refusal :=
  .next (doRetryWindowExpiry s src dst)

/-! ## Receiving (R347 to R350, R352, R358) -/

/-- One NACK after a good flit, carrying the last sequence number accepted. -/
def sendNack (s : State) (src dst : Nat) : State :=
  if (dirOf s src dst).nacked then s
  else
    let n := (dirOf s src dst).accepted
    let s := setDir s src dst fun d => { d with nacked := true, nacks := d.nacks ++ [n] }
    setDir s dst src fun d => { d with sent := d.sent ++ [{ localFlit 2 dst src [] with ack := some n }] }

/-- A flit whose CRC fails: discarded and counted; in the clean run after a successful attempt it starts a new attempt (R352). -/
def badFlit (s : State) (src dst : Nat) : State :=
  let s := countLink s src dst 0 1
  let s := match (dirOf s src dst).retry with
    | some r =>
      if r.good.isSome then
        startAttempt (closeSkips s src dst) src dst r.fails r.entered !(dirOf s src dst).nacked
      else s
    | none => s
  sendNack s src dst

/-- A good flit in the clean run of a direction in RETRY: the 256th ends RETRY before its limit. -/
def goodRun (s : State) (src dst : Nat) : State :=
  match (dirOf s src dst).retry with
  | some r => match r.good with
    | some n =>
      if 256 ≤ n + 1 && decide (s.now < r.entered + ticksA s 320000) then
        setDir (closeSkips s src dst) src dst fun d => { d with retry := none }
      else setDir s src dst fun d => { d with retry := some { r with good := some (n + 1) } }
    | none => s
  | none => s

/-- A DATA flit: accepted in sequence, else discarded. At its destination its payload is delivered; a relay chip sends it on with
RELAY set (R350, R354). -/
def dataFlit (s : State) (src dst : Nat) (f : Flit) : State :=
  if f.seq = ((dirOf s src dst).accepted + 1) % 4096 then
    let s := setDir s src dst fun d =>
      { d with
        accepted := f.seq, nacked := false
        delivered := if f.dst = dst then d.delivered ++ [f.payload] else d.delivered }
    if f.dst = dst then s else queueFlit s dst { f with relay := true }
  else sendNack s src dst

/-- A time exchange's flit (R358): a TIME_REQ is answered at its destination; a relay sends either kind on. -/
def timeFlit (s : State) (dst : Nat) (f : Flit) : State :=
  if f.dst ≠ dst then sendLocal s dst { f with relay := true }
  else if f.typ = 3 then nextFree (sendLocal s dst (localFlit 4 dst f.src (Config.timePayload s.freeCtr)))
  else s

/-- A good flit: it counts in the clean run, its acknowledgement and credits serve the other direction, then its type acts. -/
def goodFlit (s : State) (src dst : Nat) (f : Flit) (t : Tick) : State :=
  let s := goodRun s src dst
  let s := match f.ack with | some a => if f.typ = 2 then s else acknowledge s dst src a | none => s
  let k := bits f.credits 1 0 + 4 * b2n f.relay
  let s := sendAll (setDir s dst src fun d => { d with credits := modNth d.credits k (· + bits f.credits 7 2) }) dst src
  if f.typ = 1 then dataFlit (setDir s src dst fun d => noteSent d f) src dst f
  else
    let s := setDir s src dst fun d => { d with nacked := false }
    match f.typ with
    | 2 => doNackReceive s dst src (f.ack.getD 0) t
    | 3 | 4 => timeFlit s dst f
    | _ => s

/-- FLIT_RECEIVE at the receiver of a direction; every flit from a lost chip is discarded (R419). -/
def doFlitReceive (s : State) (src dst : Nat) (f : List Byte) (t : Tick) : State :=
  let s := stamp s t
  if linkFailed s src dst || (s.regs.ready && !(chipOf s src).active) then s
  else if flitGood f then goodFlit s src dst (parseFlit f) t
  else badFlit s src dst

/-- FLIT_RECEIVE. -/
def execFlitReceive (src dst : Nat) (f : List Byte) (t : Tick) (s : State) : Host.Outcome State Fault Refusal :=
  .next (doFlitReceive s src dst f t)

/-! ## Lanes and recalibration (R345, R346) -/

/-- A direction after one of its lanes is retired: the spare takes its place, or the direction narrows. -/
def retireLane (d : Dir) (lane : Nat) : Dir :=
  let d := { d with retired := d.retired ++ [lane] }
  if d.spare = some lane then { d with spare := none }
  else match d.spare with
    | some sp => { d with lanes := d.lanes.map (fun l => if l = lane then sp else l), spare := none }
    | none => { d with lanes := d.lanes.filter fun l => l != lane }

/-- Symbol errors of a lane within the last 1,600,000 ticks, the present report among them (R345). -/
def laneErrorCount (s : State) (d : Dir) (lane : Nat) : Nat :=
  d.errors.foldl (fun n e => if e.1 = lane ∧ s.now < e.2.1 + ticksA s 1600000 then n + e.2.2 else n) 0

/-- LANE_RETIRE: a lane's receiver reports symbol errors or a lost lock; the lane is retired on a lost lock, or on more than 64
errors within 1,600,000 ticks. -/
def doLaneRetire (s : State) (src dst lane : Nat) (lostLock : Bool) (errors : Nat) (t : Tick) : State :=
  let s := stamp s t
  let d := dirOf s src dst
  if linkFailed s src dst || !(d.lanes.contains lane || d.spare == some lane) then s
  else
    let s := setDir s src dst fun d => { d with errors :=
      (d.errors.filter fun e => decide (s.now < e.2.1 + ticksA s 1600000)) ++ [(lane, s.now, errors)] }
    if !lostLock && decide (laneErrorCount s (dirOf s src dst) lane ≤ 64) then s
    else
      let s := countLink (setDir s src dst fun d => retireLane d lane) src dst 3 1
      if (dirOf s src dst).lanes.length < 2 then failLink s src dst else s

/-- LANE_RETIRE. -/
def execLaneRetire (src dst : Nat) (r : LaneReport) (s : State) : Host.Outcome State Fault Refusal :=
  .next (doLaneRetire s src dst r.lane r.lostLock r.errors r.tick)

/-- A direction after recalibration number c: the spare changes places with active lane c mod 4. -/
def recalDir (c : Nat) (d : Dir) : Dir :=
  match d.spare with
  | some sp => { d with lanes := modNth d.lanes (c % 4) (fun _ => sp), spare := d.lanes[c % 4]? }
  | none => d

/-- LINK_RECALIBRATION of a pair, in one pause. -/
def doLinkRecalibration (s : State) (a b : Nat) : State :=
  if linkFailed s a b then s
  else countLink (setLink s a b fun l =>
    { l with up := recalDir l.recal l.up, down := recalDir l.recal l.down, recal := l.recal + 1 }) a b 4 1

/-- LINK_RECALIBRATION. -/
def execLinkRecalibration (a b : Nat) (s : State) : Host.Outcome State Fault Refusal := .next (doLinkRecalibration s a b)

/-! ## Tray time (R356 to R360, R404, R433) -/

/-- What is left of an offset after n adjustments of one tick each towards it (R359). -/
def slewed (o : Int) (n : Nat) : Int := if 0 ≤ o then max 0 (o - n) else min 0 (o + n)

/-- A chip's present offset from the lead: at most one adjustment in 1,024 ticks since the exchange that measured it (R359). -/
def chipOffset (s : State) (c : Nat) : Int :=
  slewed (chipOf s c).offset ((s.now - (chipOf s c).offsetAt) / ticksA s 1024)

/-- A chip's copy of the tray counter (R356). -/
def chipCount (s : State) (c : Nat) : Nat := (s.now + chipOffset s c).toNat

/-- The TMC's copy of the tray counter, which the lead slews towards (R356, R358). -/
def tmcCount (s : State) : Nat := (s.now + slewed s.tmc.1 ((s.now - s.tmc.2) / ticksA s 1024)).toNat

/-- TIME_EXCHANGE: the lead sends a TIME_REQ to every other active chip, on the direct link or through the relay, and measures the
TMC's offset over the sideband, which it cannot while the TMC restarts (R358, R404). -/
def doTimeExchange (s : State) (tmcOffset : Int) (t : Tick) : State :=
  let s := stamp s t
  let lead := s.regs.lead
  let s := (activeChips s).foldl (fun s c =>
    if c = lead then s else nextFree (sendLocal s lead (localFlit 3 lead c (Config.timePayload s.freeCtr)))) s
  if s.deputy.isSome then s else { s with tmc := (tmcOffset, s.now) }

/-- TIME_EXCHANGE. -/
def execTimeExchange (x : ExchangeStart) (s : State) : Host.Outcome State Fault Refusal :=
  .next (doTimeExchange s x.tmcOffset x.tick)

/-- A time fault: after a burst of exchanges the offset is small and the fault counted, or the chip is fatal. None is raised
while the TMC restarts. -/
def timeFault (s : State) (c : Nat) (after : Int) : State :=
  if s.deputy.isSome then s
  else if after.natAbs ≤ ticksA s 4 then countChip s c 4 1
  else fatal s c

/-- TIME_EXCHANGE_LOSS: the sixteenth in a row is a time fault. -/
def doTimeExchangeLoss (s : State) (c : Nat) (after : Int) : State :=
  if !(chipOf s c).active then s
  else
    let n := (chipOf s c).badExchanges + 1
    if 16 ≤ n then timeFault (setChip s c fun x => { x with badExchanges := 0 }) c after
    else setChip s c fun x => { x with badExchanges := n }

/-- TIME_EXCHANGE_LOSS. -/
def execTimeExchangeLoss (c : Nat) (after : Int) (s : State) : Host.Outcome State Fault Refusal :=
  .next (doTimeExchangeLoss s c after)

/-- The round trip of an exchange from its four timestamps: the lead's at the request and at the answer's arrival, the chip's at the
request's arrival and at the answer. -/
def roundTripOf (sent received answered back : Nat) : Int := ((back : Int) - sent) - ((answered : Int) - received)

/-- The chip's offset from the lead: half of the round trip corrected for, a half tick dropped towards minus infinity (R358, log
entry 97). -/
def offsetOf (sent received answered back : Nat) : Int := (((received : Int) - sent) + ((answered : Int) - back)) / 2

/-- TIME_RSP: a valid exchange gives the offset that the chip then slews away; one above 64 ticks is a time fault. -/
def doTimeRsp (s : State) (c sent received answered back : Nat) (after : Int) : State :=
  let s := stamp s back
  if !(chipOf s c).active then s
  else if (ticksA s 1600 : Int) < roundTripOf sent received answered back then doTimeExchangeLoss s c after
  else
    let o := offsetOf sent received answered back
    let s := setChip s c fun x => { x with badExchanges := 0, offset := o, offsetAt := s.now }
    if ticksA s 64 < o.natAbs then timeFault s c after else s

/-- TIME_RSP. -/
def execTimeRsp (c : Nat) (req rsp : TimeLeg) (after : Int) (s : State) : Host.Outcome State Fault Refusal :=
  .next (doTimeRsp s c req.sent req.received rsp.sent rsp.received after)

end Sys2Proof.Machine
end

