-- ==== Sys2Proof/Machine/Recovery.lean ====
section
/-! DEFINITION. The fault manager: heartbeats, fences and replacements, chip loss from its report to the re-lay's end, the
TMC's restart, counter saves (R230, R231, R270, R371, R403 to R424, R432). -/

namespace Sys2Proof.Machine

/-! ## Cores (R412, R413) -/

/-- The count of consecutive missed heartbeats after one more, when intervals of n ticks separate them. -/
def missCount (s : State) (missed : Nat) (last : Option Tick) (n : Nat) : Nat :=
  match last with
  | some t => if s.now ≤ t + ticksA s n then missed + 1 else 1
  | none => 1

/-- CORE_HEARTBEAT_MISS: the fourth in a row is a hang. -/
def doCoreHeartbeatMiss (s : State) (c k : Nat) (t : Tick) : State :=
  let s := stamp s t
  let co := nth (Core.fresh k) (chipOf s c).cores k
  if !(chipOf s c).active || co.role == .fenced then s
  else
    let n := missCount s co.missed co.lastMiss 16384
    let s := setCore s c k fun x => { x with missed := n, lastMiss := some s.now }
    if 4 ≤ n then fenceCore (countCore s c k 8 1) c k 3 else s

/-- CORE_HEARTBEAT_MISS. -/
def execCoreHeartbeatMiss (c k : Nat) (t : Tick) (s : State) : Host.Outcome State Fault Refusal :=
  .next (doCoreHeartbeatMiss s c k t)

/-- CORE_REPLACEMENT: the replacement of a fenced core is in service. Fences of one chip are handled one after another in
fence-tick order, and within a lost chip they are moot (R39, R416). -/
def doCoreReplacement (s : State) (c k : Nat) : State :=
  if (chipOf s c).active && nextFence s c == some k then replaceCore s c k else s

/-- CORE_REPLACEMENT. -/
def execCoreReplacement (c k : Nat) (s : State) : Host.Outcome State Fault Refusal := .next (doCoreReplacement s c k)

/-! ## Chip loss declared (Table FLT-6) -/

/-- CHIP_HEARTBEAT_MISS: ten in a row, or one beside three FAILED links, and the chip is declared lost. -/
def doChipHeartbeatMiss (s : State) (c : Nat) (t : Tick) : State :=
  let s := stamp s t
  if !(chipOf s c).active then s
  else
    let n := missCount s (chipOf s c).missed (chipOf s c).lastMiss 32000
    let s := setChip (countChip s c 6 1) c fun x => { x with missed := n, lastMiss := some s.now }
    if 10 ≤ n || 3 ≤ failedLinks s c then declareLoss s c else s

/-- CHIP_HEARTBEAT_MISS. -/
def execChipHeartbeatMiss (c : Nat) (t : Tick) (s : State) : Host.Outcome State Fault Refusal :=
  .next (doChipHeartbeatMiss s c t)

/-- FATAL_REPORT of a chip's fault agent. -/
def doFatalReport (s : State) (c : Nat) (t : Tick) : State := fatal (stamp s t) c

/-- FATAL_REPORT. -/
def execFatalReport (c : Nat) (t : Tick) (s : State) : Host.Outcome State Fault Refusal := .next (doFatalReport s c t)

/-- REGULATOR_FAULT: only the TMC receives it, so a deputy does not act on it (R404). -/
def doRegulatorFault (s : State) (c : Nat) (t : Tick) : State :=
  if s.deputy.isSome then stamp s t else declareBy (stamp s t) c

/-- REGULATOR_FAULT. -/
def execRegulatorFault (c : Nat) (t : Tick) (s : State) : Host.Outcome State Fault Refusal := .next (doRegulatorFault s c t)

/-! ## The fence tick (R419 to R424) -/

/-- A chip's losses in the ledger so far. -/
def lossCount (s : State) (c : Nat) : Nat :=
  (((ledgerNow s).entries ++ s.deferred).filter fun e => e.kind == 5 && e.chip == c).length

/-- A lost chip leaves: inactive, counted, entered in the ledger; its core fences are moot (R39), its replay-window records gone. -/
def dropChip (s : State) (c : Nat) : State :=
  let n := lossCount s c + 1
  let s := setChip s c fun x => { x with active := false, cores := x.cores.map fun k => { k with pending := none } }
  let s := addLedger (countTotal s 29 1) 5 c 0 3 n 0
  let s := logFault (raiseEvent s evCHIP_LOST) evCHIP_LOST c 0 n
  { s with audited := s.audited.filter fun a => a.chip != c }

/-- Streams after chips are lost: those with no copy left are closed, the others keep the copies that remain (R230, R231).
`before` is the state before the loss. -/
def promoteHomes (before s : State) (lost : List Nat) : State :=
  let gone (c : Nat) : Bool := lost.contains c
  let dead := (s.streams.filter fun p =>
    let (h, m) := homeOf before p.1
    gone h && (match m with | some x => gone x | none => true)).map fun p => p.1
  let keep := s.homes.filterMap fun (sid, h, m) =>
    let m' := match m with | some x => if gone x then none else some x | none => none
    if gone h then m'.map fun x => (sid, x, none) else some (sid, h, m')
  dead.foldl loseStream { s with homes := keep }

/-- The commands that a loss interrupts and that are replayed (Table FLT-7). -/
def replayedByLoss (op : Nat) : Bool :=
  isStepOp op || isTensorOp op || decide (0x60 ≤ op ∧ op ≤ 0x64) || decide (0x20 ≤ op ∧ op ≤ 0x25) ||
  [0x47, 0x50, 0x51, 0x70].contains op

/-- A command at the fence tick. -/
def catchCmd (c : Cmd) : Cmd :=
  if c.phase == .held || isFailure c.status then c
  else if replayedByLoss (pktOp c) then
    { c with
      phase := .held, status := 0, detail := 0, cflags := 0, commits := [], fixed := none, replayed := true
      reserved := [] }
  else if pktOp c = 0x10 then
    { c with phase := .held, status := 0, detail := 0, cflags := 0, commits := [], reserved := [] }
  else c

/-- Is a command caught and to be replayed? -/
def caught (c : Cmd) : Bool := c.phase != .held && !isFailure c.status && replayedByLoss (pktOp c)

/-- The fence tick leaves DEGRADED, RELAY_ACTIVE while chips remain to re-lay, a deputy among the chips left, and a
barrier's arrivals to be made anew. -/
def fenceMarks (s : State) (lost : List Nat) : State :=
  { s with
    regs := { s.regs with degraded := true, relayActive := decide (4 ≤ (activeChips s).length) }
    deputy := s.deputy.map fun d => if lost.contains d then (activeChips s).headD d else d
    barrierSt := s.barrierSt.map fun b => if b.release.isSome then b else { b with arrivals := [] } }

/-- The commands under way are caught and counted; `lost` lists the chips of every loss not yet recovered from (R423). -/
def catchCommands (s : State) (lost : List Nat) : State :=
  countTotal { s with cmds := s.cmds.map catchCmd, loss := .recovering lost } 30 (s.cmds.filter caught).length

/-- Fewer than four chips: the tray goes down in a fault shutdown. -/
def fewChips (s : State) : State :=
  if (activeChips s).length < 4 && s.shutdown == .none then
    commitShutdown (mgmtEvent s 0x0D 0 0) s.now 1 true false
  else s

/-- The links of a host port stop carrying traffic once all four chips behind its bridge are lost (R39). -/
def portsDown (s : State) : State :=
  [0, 1].foldl (fun s p =>
    if (List.range 4).any fun i => (chipOf s (4 * p + i)).active then s
    else { s with links := modNth (modNth s.links (2 * p) fun _ => .down) (2 * p + 1) fun _ => .down }) s

/-- What the fence tick does once it has come. -/
def fenceNow (before : State) (lost earlier : List Nat) : State :=
  let s := promoteHomes before (catchCommands (lost.foldl dropChip before) (earlier ++ lost)) lost
  fewChips (portsDown (recheckLinks (fixPlan (fenceMarks s lost))))

/-- FENCE_TICK: the lost chips are cut off, commands are caught, homes promoted, the plan fixed; with fewer than four chips
left the tray shuts down. -/
def doFenceTick (s : State) (t : Tick) : State :=
  match s.loss with
  | .declared lost f old => if t < f then stamp s t else fenceNow (stamp s f) lost old
  | _ => stamp s t

/-- FENCE_TICK. -/
def execFenceTick (t : Tick) (s : State) : Host.Outcome State Fault Refusal := .next (doFenceTick s t)

/-- A LAUNCH_AT that fires late on the new lead's first tick (R368). -/
def lateLaunch (s : State) (c : Cmd) : Cmd :=
  if pktOp c = 0x73 && c.phase == .started && decide (pkt c 0x20 8 ≤ s.now) then
    { c with phase := .executed, late := true, fixed := some s.now }
  else c

/-- The tails that a working bridge keeps, read by a new lead (R371). -/
def readTails (s : State) : State :=
  match workingBridge s with
  | some b => { s with rings := s.rings.map fun p => (p.1, { p.2 with sqTail := mapGet p.2.sqTail b.tails p.1 }) }
  | none => s

/-- The lead role moves to the lowest-numbered active chip (R371): it reads the kept tails, aligns its counter to the TMC, and fires
a LAUNCH_AT whose tick has passed (R368). -/
def moveLead (s : State) : State :=
  let s := readTails { s with regs := { s.regs with lead := (activeChips s).headD s.regs.lead }, tmc := (0, s.now) }
  { s with cmds := s.cmds.map (lateLaunch s) }

/-- A caught command started again, with a fresh watchdog (R420, R428). -/
def restartCmd (s : State) (c : Cmd) : Cmd :=
  if c.phase == .held && c.replayed && s.shutdown == .none then
    { c with phase := .started, start := s.now, skips := [], hang := hangTicks s c }
  else c

/-- CHIP_LOSS_RESTART: the lead moves where it was lost, and the interrupted commands start again. -/
def doChipLossRestart (s : State) (t : Tick) : State :=
  match s.loss with
  | .recovering lost =>
    let s := stamp s t
    let s := if lost.contains s.regs.lead then moveLead s else s
    askQuiet { s with loss := .none, cmds := s.cmds.map (restartCmd s) }
  | _ => stamp s t

/-- CHIP_LOSS_RESTART. -/
def execChipLossRestart (t : Tick) (s : State) : Host.Outcome State Fault Refusal := .next (doChipLossRestart s t)

/-! ## Re-lay and mirrors (R230, R270, R422) -/

/-- MODEL_RELAY_COMPLETE: one model's re-lay done; the images of the granules it leaves in overhang are written to its
buffer, with their CRCs (R267, R270). -/
def doModelRelayComplete (s : State) (mid : Nat) : State :=
  match modelOf s mid with
  | none => s
  | some m =>
    if m.state != 5 then s
    else
      let w := writeOverhang s (relaidModel m)
      { w.1 with
        models := w.1.models.map fun p => if p.1 == mid then (mid, w.2) else p
        vault := { w.1.vault with models := w.1.vault.models.map fun p =>
          if p.1 == mid then (mid, { p.2 with state := w.2.state }) else p } }

/-- MODEL_RELAY_COMPLETE. -/
def execModelRelayComplete (mid : Nat) (s : State) : Host.Outcome State Fault Refusal := .next (doModelRelayComplete s mid)

/-- RELAY_DONE: no model waits for its re-lay; service is whole again and a homing is performed. -/
def doRelayDone (s : State) (t : Tick) : State :=
  let s := stamp s t
  if !s.regs.relayActive || s.loss != .none || s.models.any fun p => p.2.state == 5 then s
  else
    homingNow (raiseEvent { s with regs := { s.regs with relayActive := false, degraded := false } } evRELAY_DONE)
      ((stepsFlying s).flatMap (cmdStreams s)).eraseDups

/-- RELAY_DONE. -/
def execRelayDone (t : Tick) (s : State) : Host.Outcome State Fault Refusal := .next (doRelayDone s t)

/-- The next surviving chip by rank after a chip. -/
def nextChip (s : State) (c : Nat) : Option Nat :=
  let l := (activeChips s).filter fun x => x != c
  match l.find? fun x => decide (c < x) with
  | some x => some x
  | none => l.head?

/-- MIRROR_BUILD_COMPLETE: a stream left with one copy has two again. -/
def doMirrorBuildComplete (s : State) (sid : Nat) : State :=
  let (h, m) := homeOf s sid
  match m with
  | some _ => s
  | none => { s with homes := (s.homes.filter fun p => p.1 != sid) ++ [(sid, h, nextChip s h)] }

/-- MIRROR_BUILD_COMPLETE. -/
def execMirrorBuildComplete (sid : Nat) (s : State) : Host.Outcome State Fault Refusal := .next (doMirrorBuildComplete s sid)

/-! ## The TMC's restart (R404) and counter saves (R432) -/

/-- The counters as a set. -/
def counterSet (s : State) : CounterSet :=
  ⟨s.chips.map fun c => c.cores.map fun k => k.counters, s.mesh.map fun l => l.counters, s.chips.map fun c => c.hbm,
    s.chips.map fun c => c.counters, s.totals⟩

/-- The counters restored from a set. -/
def restoreCounters (s : State) (x : CounterSet) : State :=
  { s with
    chips := (withIndex s.chips).map fun (c, ch) =>
      { ch with
        cores := (withIndex ch.cores).map fun (k, co) => { co with counters := nth co.counters (nth [] x.core c) k }
        hbm := nth ch.hbm x.hbm c, counters := nth ch.counters x.chip c }
    mesh := (withIndex s.mesh).map fun (i, l) => { l with counters := nth l.counters x.link i }
    totals := x.total }

/-- TMC_WATCHDOG: the TMC restarts, and the lead's fault agent serves as deputy. -/
def doTmcWatchdog (s : State) : State :=
  if s.deputy.isSome || !s.regs.ready then s else { s with deputy := some s.regs.lead }

/-- TMC_WATCHDOG. -/
def execTmcWatchdog (s : State) : Host.Outcome State Fault Refusal := .next (doTmcWatchdog s)

/-- TMC_RESUME: what fell due meanwhile is written now. -/
def doTmcResume (s : State) : State :=
  match s.deputy with
  | none => s
  | some _ =>
    let es := s.deferred
    let log := s.deferredLog
    let s := { s with deputy := none, deferred := [], deferredLog := [] }
    let s := es.foldl (fun s e => writeEntries s [e]) s
    { s with vault := { s.vault with faultLog := (log.reverse ++ s.vault.faultLog).take 1024, counters := counterSet s } }

/-- TMC_RESUME. -/
def execTmcResume (s : State) : Host.Outcome State Fault Refusal := .next (doTmcResume s)

/-- COUNTER_SAVE: while the TMC restarts, its copy waits for the resume. -/
def doCounterSave (s : State) : State :=
  if s.deputy.isSome then s else { s with vault := { s.vault with counters := counterSet s } }

/-- COUNTER_SAVE. -/
def execCounterSave (s : State) : Host.Outcome State Fault Refusal := .next (doCounterSave s)

end Sys2Proof.Machine
end

