-- ==== Sys2Proof/Machine/Background.lean ====
section
/-! DEFINITION. Background tasks, bounded slots and quiet slots (R381, R394, R410, R417, R456 to R460). A task's kind is its
row of Table PWR-10, counted from 0. -/

namespace Sys2Proof.Machine

/-- The work of one task. -/
def runTask (s : State) (t : Task) : State :=
  match t.kind with
  | 0 => t.found.foldl applyScrub s
  | 1 =>
    let p := nth (0, 1) linkPairs t.arg
    doLinkRecalibration s p.1 p.2
  | 3 => t.found.foldl (fun s i => applyIncident s [] i) s
  | 4 =>
    let s := { s with chips := s.chips.map fun c =>
      { c with test := false, cores := c.cores.map fun k => { k with test := false } } }
    t.bad.foldl (fun s r => bistResult s 2 r) s
  | 5 => spareRow s t.chip (t.arg / 2048) (t.arg % 2048) 3
  | _ => s

/-- The maximum deferral of a task (Table PWR-10). -/
def maxDeferral (s : State) (kind : Nat) : Nat :=
  match kind with
  | 0 | 4 => ticksUs s 60000000
  | 3 => ticksUs s 10000000
  | _ => ticksUs s 1000000

/-- Has no chip piece work? -/
def noPieceWork (s : State) : Bool := s.cmds.all fun c => c.phase != .started

/-- The due tasks that run in a natural gap, in FREE order (R458). -/
def runGapTasks (s : State) : State :=
  if slotsOpen s && noPieceWork s && !fixedNow s && !s.tasks.isEmpty then
    s.tasks.foldl runTask { s with tasks := [] }
  else s

/-- The round of periodic BIST that the present tick falls in (R410): one every 21,600 s from READY. -/
def bistRound (s : State) : Nat := (s.now - s.bist.readyAt) / ticksUs s 21600000000

/-- The segments of the present round that have been taken. -/
def bistTaken (s : State) : Nat := if s.bist.round = bistRound s then s.bist.segments else 0

/-- Is a BIST segment still to be taken: one of the 512 of the round, or one that a fault asks for (R394, R410, R429)? -/
def bistDue (s : State) : Bool := decide (bistTaken s < 512) || testWanted s

/-- A BIST segment counted in its round. -/
def countSegment (s : State) : State :=
  { s with bist := { s.bist with round := bistRound s, segments := bistTaken s + 1 } }

/-- BACKGROUND_TASK_DUE: a lane pause and telemetry at once; else a gap in FREE order, a quiet slot in FIXED order. A task
that needs the chips wakes the tray. -/
def doBackgroundTaskDue (s : State) (kind chip arg : Nat) (found : List Incident) (bad : List BistResult) (t : Tick) :
    State :=
  let s := stamp s t
  let task : Task := ⟨kind, chip, arg, s.now, found, bad⟩
  if !s.regs.ready || (kind = 4 && !bistDue s) then s
  else if kind = 2 || 6 ≤ kind then runTask s task
  else
    let s := wake (if kind = 4 then countSegment s else s)
    let s := { s with tasks := s.tasks ++ [task] }
    if fixedNow s then askQuiet s else runGapTasks s

/-- BACKGROUND_TASK_DUE. -/
def execBackgroundTaskDue (kind chip arg : Nat) (found : List Incident) (bad : List BistResult) (t : Tick) (s : State) :
    Host.Outcome State Fault Refusal := .next (doBackgroundTaskDue s kind chip arg found bad t)

/-- Has a command piece work of its own? -/
def hasPieces (c : Cmd) : Bool :=
  c.phase == .started && (isStepOp (pktOp c) || isTensorOp (pktOp c) || pktOp c == 0x60)

/-- The overdue task of a chip that its next bounded slot serves: in the order of Table PWR-10, longest due first. -/
def overdueTask (s : State) (chip : Nat) : Option Task :=
  let l := s.tasks.filter fun t => t.chip == chip && decide (t.due + maxDeferral s t.kind ≤ s.now)
  (sortBy (fun a b => decide (a.kind < b.kind ∨ (a.kind = b.kind ∧ a.due < b.due))) l).head?

/-- BOUNDED_SLOT of a chip: at most one in 160,000 ticks, never in FIXED order; commands with piece work report it. -/
def doBoundedSlot (s : State) (chip : Nat) (t : Tick) : State :=
  let s := stamp s t
  let ok := match (chipOf s chip).lastSlot with | some l => decide (l + ticksA s 160000 ≤ s.now) | none => true
  if !slotsOpen s || fixedNow s || !ok then s
  else match overdueTask s chip with
    | none => s
    | some task =>
      let s := setChip s chip fun c => { c with lastSlot := some s.now }
      let s := { s with
        tasks := s.tasks.erase task
        cmds := s.cmds.map fun c => if hasPieces c then { c with cflags := c.cflags ||| 64 } else c }
      runTask s task

/-- BOUNDED_SLOT. -/
def execBoundedSlot (chip : Nat) (t : Tick) (s : State) : Host.Outcome State Fault Refusal := .next (doBoundedSlot s chip t)

/-- The tasks that one quiet slot serves: every due task, of BIST segments at most four (R381, R410). -/
def slotTasks (l : List Task) : List Task :=
  (l.filter fun t => t.kind != 4) ++ ((l.filter fun t => t.kind == 4).take 4)

/-- The tasks that wait for a further slot. -/
def laterTasks (l : List Task) : List Task := (l.filter fun t => t.kind == 4).drop 4

/-- QUIET_SLOT_START: with every started command complete and an arrival of every active chip, the slot begins on the release tick
(R365, R381) and serves the due tasks. -/
def doQuietSlotStart (s : State) (arrivals : List (Nat × Tick)) : State :=
  match barrierTick s arrivals with
  | none => s
  | some r =>
    let s := stamp s r
    if s.quiet == .wanted && slotsOpen s && s.cmds.all fun c => c.phase == .held then
      (slotTasks s.tasks).foldl runTask
        { s with tasks := laterTasks s.tasks, quiet := .openUntil (s.now + ticksA s 12800) }
    else s

/-- QUIET_SLOT_START. -/
def execQuietSlotStart (arrivals : List (Nat × Tick)) (s : State) : Host.Outcome State Fault Refusal :=
  .next (doQuietSlotStart s arrivals)

/-- QUIET_SLOT_END: at the latest on the slot's last tick; the commands it held start. -/
def doQuietSlotEnd (s : State) (t : Tick) : State :=
  match s.quiet with
  | .openUntil stop =>
    let s := stamp { s with quiet := .none } (min t stop)
    askQuiet ((s.cmds.map fun c => c.id).foldl (fun s id => doCommandStart s id s.now) s)
  | _ => stamp s t

/-- QUIET_SLOT_END. -/
def execQuietSlotEnd (t : Tick) (s : State) : Host.Outcome State Fault Refusal := .next (doQuietSlotEnd s t)

/-! ## The tray between commands -/

/-- One tick with no command waiting (log entry 13): the counter advances where it runs, and due tasks use the gap. -/
def idleTick (s : State) : State := if s.boot = .off then s else runGapTasks { s with now := s.now + 1 }

end Sys2Proof.Machine
end

