-- ==== Sys2Proof/Machine/Power.lean ====
section
/-! DEFINITION. Power: the limiter, the Puffball, brownouts, presence, the shutdown's drain, snapshot and save, the idle
states (R435 to R456, R488, R490 to R493). -/

namespace Sys2Proof.Machine

/-! ## The limiter and heat (R435 to R440, R488) -/

/-- The effective cap in mW: the cap, or 8.0 A times the input from 38 V up to 40 V if that is lower (R435). -/
def effectiveCap (s : State) : Nat :=
  let p := s.power
  if 38000 ≤ p.millivolts ∧ p.millivolts < 40000 then min (1000 * p.cap) (8 * p.millivolts) else 1000 * p.cap

/-- The thresholds of levels 1 to 7 in hundredths of P / C (Table PWR-1). -/
def pressureThresholds : List Nat := [90, 93, 96, 98, 100, 102, 105]

/-- The level whose threshold a measured power reaches. -/
def reachedLevel (mw cap : Nat) : Nat := (pressureThresholds.filter fun t => decide (t * cap ≤ 100 * mw)).length

/-- The power in mW that charging may take at a pressure level (R439, Table PWR-1, Table PWR-5): up to 10 W below 12 J at any level,
above that by the level, and none at E_FULL. -/
def chargeLimit (mj level : Nat) : Nat :=
  if 24000 ≤ mj then 0 else if mj < 12000 || level ≤ 1 then 10000 else if level = 2 then 5000 else 0

/-- The measured power P: what the tray draws and, counted in, the charging of the Puffball, held to its limit (R437, R439). -/
def measuredPower (s : State) (load charge : Nat) : Nat := load + min charge (chargeLimit s.power.energy s.power.pressure)

/-- PRESSURE_MEASUREMENT: a level rises at once; it falls by one after 16 measurements in a row below its threshold. -/
def doPressureMeasurement (s : State) (load charge : Nat) : State :=
  let mw := measuredPower s load charge
  let p := { s.power with milliwatts := mw, charging := min charge (chargeLimit s.power.energy s.power.pressure) }
  let l := reachedLevel mw (effectiveCap s)
  { s with power :=
      if p.pressure < l then { p with pressure := l, below := 0 }
      else if l < p.pressure then
        (if 16 ≤ p.below + 1 then { p with pressure := p.pressure - 1, below := 0 } else { p with below := p.below + 1 })
      else { p with below := 0 } }

/-- PRESSURE_MEASUREMENT (R437). -/
def execPressureMeasurement (r : PowerReading) (s : State) : Host.Outcome State Fault Refusal :=
  .next (doPressureMeasurement s r.load r.charge)

/-- THERMAL_THROTTLE of a chip: level 5 from 95 °C; at 110 °C its regulator powers it down, which is a chip loss. -/
def doThermalThrottle (s : State) (c temp : Nat) (t : Tick) : State :=
  let s := stamp s t
  if temp < 95 || !(chipOf s c).active then s
  else
    let s := if s.regs.eventCause.getLsbD evTHERMAL then s else logFault s evTHERMAL c 0 0
    let s := raiseEvent (setChip s c fun x => { x with throttled := true }) evTHERMAL
    if 110 ≤ temp then doRegulatorFault s c t else s

/-- THERMAL_THROTTLE (R440, R488). -/
def execThermalThrottle (c temp : Nat) (t : Tick) (s : State) : Host.Outcome State Fault Refusal :=
  .next (doThermalThrottle s c temp t)

/-- THROTTLE_RELEASE: 5 °C below the throttle point. -/
def doThrottleRelease (s : State) (c temp : Nat) : State :=
  if temp ≤ 90 then setChip s c fun x => { x with throttled := false } else s

/-- THROTTLE_RELEASE (R440). -/
def execThrottleRelease (c temp : Nat) (s : State) : Host.Outcome State Fault Refusal := .next (doThrottleRelease s c temp)

/-- COLD_PLATE_OVERTEMP: every chip acts as at its own throttle point. -/
def doColdPlateOvertemp (s : State) (temp : Nat) : State :=
  if temp < 60 then s else raiseEvent { s with power := { s.power with coldPlate := true } } evTHERMAL

/-- COLD_PLATE_OVERTEMP (R488). -/
def execColdPlateOvertemp (temp : Nat) (s : State) : Host.Outcome State Fault Refusal := .next (doColdPlateOvertemp s temp)

/-- COLD_PLATE_RELEASE: below 55 °C. -/
def doColdPlateRelease (s : State) (temp : Nat) : State :=
  if temp < 55 then { s with power := { s.power with coldPlate := false } } else s

/-- COLD_PLATE_RELEASE (R488). -/
def execColdPlateRelease (temp : Nat) (s : State) : Host.Outcome State Fault Refusal := .next (doColdPlateRelease s temp)

/-! ## Save slots (R450, R452, R455) -/

/-- Is a slot complete and not consumed? -/
def slotUsable (x : Slot) : Bool := x.state == 2 && x.headerOk

/-- The slot a resume takes: the newest complete, unconsumed one; true names slot A. -/
def resumeSlot (s : State) : Option Bool :=
  let a := s.vault.slotA
  let b := s.vault.slotB
  if slotUsable a && (!slotUsable b || decide (b.seq ≤ a.seq)) then some true
  else if slotUsable b then some false else none

/-- The slot a save writes: the one whose SAVE_SEQ is lower. -/
def saveToA (s : State) : Bool := decide (s.vault.slotA.seq ≤ s.vault.slotB.seq)

/-- A slot changed. -/
def setSlot (s : State) (a : Bool) (f : Slot → Slot) : State :=
  { s with vault := if a then { s.vault with slotA := f s.vault.slotA } else { s.vault with slotB := f s.vault.slotB } }

/-- SLOT_STATE 1: the slot is being written. -/
def beginSlot (s : State) : State := setSlot s (saveToA s) fun x => { x with state := 1, headerOk := false }

/-- What a save of tick t writes: Ring states of the active chips, contexts of the open streams (R196, R448). -/
def slotContents (s : State) (other : Slot) (t kind : Nat) : Slot :=
  { state := 2, seq := other.seq + 1, tick := t, settings := s.regs.settings, chips := chipMask s, kind := kind
    headerOk := true
    lanes := (List.range 8).map fun c => if (chipOf s c).active then (chipOf s c).lanes else List.replicate 8 0
    contexts := (s.streams.filter fun p => p.2.isOpen).map fun p => (p.1, ctxBytes p.1 p.2) }

/-- The slot written whole and marked complete. -/
def writeSlot (s : State) (t kind : Nat) : State :=
  let a := saveToA s
  setSlot s a fun _ => slotContents s (if a then s.vault.slotB else s.vault.slotA) t kind

/-- Every save slot that is not empty consumed (R465). -/
def consumeAll (s : State) : State :=
  let f (x : Slot) : Slot := if x.state = 0 then x else { x with state := 3 }
  setSlot (setSlot s true f) false f

/-! ## Rails down -/

/-- The chip rails dropped: what only the chips held is gone, and the tray stands at b. SAVING and READY clear. -/
def dropRails (s : State) (b : Boot) : State :=
  { s with
    regs := { s.regs with ready := false, saving := false, degraded := false, relayActive := false, lead := 0 }
    rings := [], vfs := List.replicate 16 .reset, unsent := [], unrecorded := [], served := [255, 255, 255, 255]
    cmds := [], done := [], recent := []
    streams := [], homing := [], homes := [], moving := [], models := [], modelGen := [], masks := [], functions := [], audited := []
    vault := { s.vault with torn := s.vault.torn ++ s.deferred }
    chips := (List.range 8).map Chip.fresh, mesh := linkPairs.map Link.fresh
    loss := .none, barrierSt := none, tasks := [], quiet := .none, deputy := none, deferred := [], deferredLog := []
    boot := b, shutdown := .none
    power := { s.power with window := none, idle := 0, i4Slot := false } }

/-- Is the input present (R492): mated, not disconnected, not below 38 V? -/
def inputPresent (s : State) : Bool :=
  s.power.mated && !s.power.disconnected && decide (38000 ≤ s.power.millivolts)

/-- Where the tray stands with its rails down: waiting for step 1 with the input present, else without it. -/
def downBoot (s : State) : Boot := if inputPresent s then .inputCheck else .railsDown

/-- Are the chip rails up? -/
def railsUp (s : State) : Bool :=
  [Boot.chipPower, .training, .alignment, .apply, .readyStep, .serving, .tooFewChips, .faultShutdown].contains s.boot

/-- Is a bring-up under way? -/
def bringingUp (s : State) : Bool :=
  [Boot.inputCheck, .preCharge, .tmcBoot, .chipPower, .training, .alignment, .apply, .readyStep].contains s.boot

/-! ## The decision (R445, R447, R493, Table PWR-6) -/

/-- A loss of input decided on the present tick. In service the tray commits to shutdown; in I4 its image becomes the
resume image and the rails drop; a shutdown already committed keeps its deadlines and ends with the rails down; before
READY, and where no save is owed, the rails drop. -/
def decideLoss (s : State) : State :=
  let s := { s with power := { s.power with window := none } }
  match s.shutdown with
  | .drain d k _ _ => { s with shutdown := .drain d k false false }
  | .save x k _ _ => { s with shutdown := .save x k false false }
  | .none =>
    if s.boot = .off then s
    else if s.boot = .serving && s.power.idle != 4 then commitShutdown s s.now 0 false false
    else dropRails s .railsDown

/-- The window's decision tick reached. -/
def doDecisionTick (s : State) : State :=
  match s.power.window with
  | some d => decideLoss (stamp s d)
  | none => s

/-- DECISION_TICK (R445, R447). -/
def execDecisionTick (s : State) : Host.Outcome State Fault Refusal := .next (doDecisionTick s)

/-! ## The Puffball (R442 to R444, R490) -/

/-- POWER_READY after a measurement (Table PWR-5, R444). -/
def powerReadyAfter (p : Power) (mj : Nat) : Bool :=
  if p.capacity < 12000 || mj < 10000 then false else if 12000 ≤ mj then true else p.powerReady

/-- PUFFBALL_MEASURE: POWER_READY; below E_COMMIT inside a window the tray commits on this tick; an empty Puffball without
input drops the rails, and a save that was being written stays incomplete (R450). -/
def doPuffballMeasure (s : State) (mj : Nat) (t : Tick) : State :=
  let s := match s.power.window with
    | some d => if d ≤ t then doDecisionTick s else s
    | none => s
  let s := stamp s t
  let s := { s with power := { s.power with energy := mj, powerReady := powerReadyAfter s.power mj } }
  let s := if s.power.window.isSome && decide (mj < 8000) then decideLoss s else s
  if mj = 0 && !inputPresent s && railsUp s then dropRails (cutWrite s) .railsDown else s

/-- PUFFBALL_MEASURE (R442, R445). -/
def execPuffballMeasure (mj : Nat) (t : Tick) (s : State) : Host.Outcome State Fault Refusal :=
  .next (doPuffballMeasure s mj t)

/-- PUFFBALL_CAPACITY_MEASURE, taken while POWER_READY is set and no window is open. -/
def doPuffballCapacityMeasure (s : State) (mj : Nat) : State :=
  if !s.power.powerReady || s.power.window.isSome then s
  else
    let s := { s with power := { s.power with capacity := mj, powerReady := s.power.powerReady && decide (12000 ≤ mj) } }
    if mj < 14000 then mgmtEvent s 0x06 0 0 else s

/-- PUFFBALL_CAPACITY_MEASURE (R444). -/
def execPuffballCapacityMeasure (mj : Nat) (s : State) : Host.Outcome State Fault Refusal :=
  .next (doPuffballCapacityMeasure s mj)

/-- PUFFBALL_BLEED: with the rails down and the input absent the Puffball ends below 1 J, and the TMC is off. -/
def doPuffballBleed (s : State) : State :=
  if s.boot = .railsDown && !inputPresent s then
    let mj := min s.power.energy (Config.bleedRemainder s.freeCtr % 1000)
    nextFree { s with boot := .off, power := { s.power with energy := mj, powerReady := false } }
  else s

/-- PUFFBALL_BLEED (R490). -/
def execPuffballBleed (s : State) : Host.Outcome State Fault Refusal := .next (doPuffballBleed s)

/-! ## The input (R435, R445, R446, R492, R493) -/

/-- INPUT_HIGH: an event from 60 V up to 63 V; above it the busbar is disconnected. -/
def doInputHigh (s : State) (mv : Nat) (t : Tick) : State :=
  let s := stamp s t
  if mv < 60000 then s
  else if mv ≤ 63000 then mgmtEvent { s with power := { s.power with millivolts := mv } } 0x05 0 0
  else { s with power := { s.power with millivolts := mv, disconnected := true } }

/-- INPUT_HIGH (R435). -/
def execInputHigh (mv : Nat) (t : Tick) (s : State) : Host.Outcome State Fault Refusal := .next (doInputHigh s mv t)

/-- PF_EARLY, stamped after 50 µs below 38 V or disconnected: the window opens, and I1 to I3 wake (R456). -/
def doPfEarly (s : State) (mv : Nat) (t : Tick) : State :=
  let s := match s.power.window with
    | some d => if d ≤ t then doDecisionTick s else s
    | none => s
  let s := stamp s t
  if 38000 ≤ mv && !s.power.disconnected then s
  else
    let s := { s with power := { s.power with millivolts := mv } }
    if s.boot = .off || s.boot = .railsDown || s.power.window.isSome then s
    else
      let s := if s.power.idle = 4 then s else wake s
      raiseEvent { s with
        regs := { s.regs with pfEarly := true }
        power := { s.power with window := some (s.now + ticksUs s 5000) } } evPF_EARLY

/-- PF_EARLY (R445). -/
def execPfEarly (mv : Nat) (t : Tick) (s : State) : Host.Outcome State Fault Refusal := .next (doPfEarly s mv t)

/-- INPUT_RETURN, stamped after 50 µs at or above 40 V: before D it closes the window, on D or later the tray commits
first; with the rails down the path of R449 begins, on a counter from 0 (R356). -/
def doInputReturn (s : State) (mv : Nat) (t : Tick) : State :=
  if mv < 40000 || 63000 < mv || !s.power.mated then s
  else
    let back (s : State) : State := { s with power := { s.power with millivolts := mv, disconnected := false } }
    match s.power.window with
    | some d =>
      if t < d then
        let s := back (stamp s t)
        countTotal { s with
          regs := { s.regs with pfEarly := false }
          power := { s.power with window := none, idleSince := s.now } } 31 1 |> askQuiet
      else back (stamp (doDecisionTick s) t)
    | none =>
      if s.boot = .railsDown || s.boot = .off then { back s with now := 0, boot := .inputCheck }
      else back (stamp s t)

/-- INPUT_RETURN (R445, R449). -/
def execInputReturn (mv : Nat) (t : Tick) (s : State) : Host.Outcome State Fault Refusal := .next (doInputReturn s mv t)

/-- PRESENCE_LOST, stamped after 50 µs open: in service the commit with no window; before READY a window as after
PF_EARLY. -/
def doPresenceLost (s : State) (t : Tick) : State :=
  let s := match s.power.window with
    | some d => if d ≤ t then doDecisionTick s else s
    | none => s
  let s := { stamp s t with power := { s.power with mated := false } }
  if s.boot = .off || s.boot = .railsDown then s
  else if bringingUp s then
    (if s.power.window.isSome then s
     else { s with power := { s.power with window := some (s.now + ticksUs s 5000) } })
  else decideLoss s

/-- PRESENCE_LOST (R493). -/
def execPresenceLost (t : Tick) (s : State) : Host.Outcome State Fault Refusal := .next (doPresenceLost s t)

/-- PRESENCE_MATED: the input counts as present again; nothing else changes (R493). -/
def doPresenceMated (s : State) : State := { s with power := { s.power with mated := true } }

/-- PRESENCE_MATED (R492). -/
def execPresenceMated (s : State) : Host.Outcome State Fault Refusal := .next (doPresenceMated s)

/-! ## Snapshot and save (R447 to R449, R455) -/

/-- A waiting ABORT acts at the latest on S (Table PWR-6). -/
def standingAborts (s : State) : State :=
  (s.cmds.filter fun c => pktOp c == 0x7F && c.phase != .executed && !isFailure c.status).foldl
    (fun s c => doAbort (setCmd s c.id fun c => { c with phase := .started }) c.id) s

/-- Does a command keep the status it has at S: found at acceptance, or ABORTED? -/
def keepsStatus (st : Nat) : Bool := isFailure st && !([0x23, 0x41, 0x50].contains st)

/-- An incomplete command ended on S: POWER_SAVE_ABORT, unless it had ended otherwise; no record without a host link
(R313). -/
def saveAbort (t : Tick) (s : State) (c : Cmd) : State :=
  let (c', t') := settleCmd s c t
  let c'' := if keepsStatus c'.status || pktOp c == 0x7F then c' else { c' with status := 0x60, detail := 0, commits := [] }
  if (trainedLinks s).isEmpty then { s with cmds := s.cmds.filter fun d => d.id != c.id }
  else completeCmd s c'' t'

/-- Does no started command remain to be waited for? -/
def drained (s : State) : Bool := s.cmds.all fun c => c.phase == .held || isFailure c.status

/-- SNAPSHOT_TICK: once the drain is empty, or at D + 10 ms, the incomplete commands end and the slot is begun. -/
def doSnapshotTick (s : State) (t : Tick) : State :=
  match s.shutdown with
  | .drain d kind stay i5 =>
    let last := d + ticksUs s 10000
    if !drained s && t < last then stamp s t
    else
      let s := standingAborts (stamp s (min t last))
      let x := s.now
      let s := s.cmds.foldl (saveAbort x) s
      beginSlot { s with shutdown := .save x kind stay i5, barrierSt := none, tasks := [], quiet := .none }
  | _ => stamp s t

/-- SNAPSHOT_TICK (R447). -/
def execSnapshotTick (t : Tick) (s : State) : Host.Outcome State Fault Refusal := .next (doSnapshotTick s t)

/-- SAVE_COMPLETE: the slot is marked complete with the counters; a fault shutdown keeps its rails and clears READY, I5
keeps the TMC, any other save ends with the rails down. -/
def doSaveComplete (s : State) (t : Tick) : State :=
  let s := stamp s t
  match s.shutdown with
  | .save x kind stay i5 =>
    let s := writeSlot (doTmcResume s) x kind
    let s := { s with vault := { s.vault with counters := counterSet s } }
    if stay then
      { s with
        shutdown := .none, boot := .faultShutdown
        regs := { s.regs with ready := false }
        mgmt := { s.mgmt with resetBusy := false } }
    else if i5 then
      let s := dropRails s .i5
      { s with mgmt := { s.mgmt with resetBusy := false } }
    else dropRails s (downBoot s)
  | _ => s

/-- SAVE_COMPLETE (R447, R449, R452). -/
def execSaveComplete (t : Tick) (s : State) : Host.Outcome State Fault Refusal := .next (doSaveComplete s t)

/-! ## Idle states (R454, R455) -/

/-- Entry delay in µs and wake time in µs of the idle states (Table PWR-9). -/
def idleTable : List (Nat × Nat) := [(0, 0), (2, 1), (1000, 60), (10000, 900), (1000000, 40000)]

/-- Is the tray idle: no incomplete command, every enabled SQ fetched, no window? -/
def isIdle (s : State) : Bool :=
  s.cmds.isEmpty && s.power.window.isNone && s.regs.ready && s.shutdown == .none && s.loss == .none &&
    s.rings.all fun p => !sqEnabled p.2 || p.2.sqHead == p.2.sqTail

/-- IDLE_ENTRY of the next state in order, once its delay has passed, where WAKE_TOLERANCE allows it; I4 writes its slot. -/
def doIdleEntry (s : State) (n : Nat) (t : Tick) : State :=
  let s := stamp s t
  let (delay, wk) := nth (0, 0) idleTable n
  if isIdle s && n == s.power.idle + 1 && decide (n ≤ 4) && decide (wk ≤ s.regs.wakeTolerance.toNat) &&
      decide (s.power.idleSince + ticksUs s delay ≤ s.now) then
    let s := { s with power := { s.power with idle := n } }
    if n = 4 then
      let s := writeSlot s s.now 2
      { s with power := { s.power with i4Slot := true } }
    else s
  else s

/-- IDLE_ENTRY (R454, R455). -/
def execIdleEntry (n : Nat) (t : Tick) (s : State) : Host.Outcome State Fault Refusal := .next (doIdleEntry s n t)

end Sys2Proof.Machine
end

