-- ==== Sys2Proof/Machine/BringUp.lean ====
section
/-! DEFINITION. Bring-up in its eight steps and the host links (R408, R409, R425, R450, R453, R461 to R474, R494 to R498,
R503). `boot` names the step that runs next; while a brownout window is open a bring-up stands still (Table PWR-6). -/

namespace Sys2Proof.Machine

/-- A bring-up step runs where the tray stands at it and no window is open. -/
def onStep (s : State) (b : Boot) (k : State → State) : State :=
  if s.boot = b ∧ s.power.window = none then k s else s

/-- A fault-log entry whose EVENT byte the manual does not state. -/
def logOther (s : State) : State := nextFree (logFault s (Config.unspecifiedByte s.freeCtr 0).toNat 0 0 0)

/-! ## Steps 1 and 2 -/

/-- The registers and the ingress memory at the start of a bring-up: reset values, bridges working again (R463, R501, R503);
the bridges' latches stay. -/
def resetRegs (s : State) : State :=
  { s with
    regs := { Regs.reset with readData := s.regs.readData, msi := s.regs.msi, events := s.regs.events }
    bridges := s.bridges.map fun b => { b with failed := false, ingress := [], tails := [] }
    power := { s.power with cap := 300 } }

/-- INPUT_CHECK: the input has been at 40 to 60 V for 50 ms; step 1 ends. A TMC that had no input counts from 0 (R356). -/
def doInputCheck (s : State) (mv : Nat) : State :=
  if [Boot.off, .railsDown, .inputCheck].contains s.boot && s.power.mated && decide (40000 ≤ mv ∧ mv ≤ 60000) &&
      s.power.window.isNone then
    let s := if s.boot = .inputCheck then s else { s with now := 0 }
    let s := resetRegs s
    { s with
      boot := .preCharge
      power := { s.power with millivolts := mv, disconnected := false }
      mgmt := { s.mgmt with eid := 0, spdm := 0, transcript := [] } }
  else s

/-- INPUT_CHECK (R461, R492). -/
def execInputCheck (mv : Nat) (s : State) : Host.Outcome State Fault Refusal := .next (doInputCheck s mv)

/-- PUFFBALL_PRE_CHARGE: E_COMMIT reached, or PUFFBALL_FAULT after 2 s without it; bring-up goes on. -/
def doPuffballPreCharge (s : State) (mj : Nat) : State :=
  onStep s .preCharge fun s =>
    let s := if mj < 8000 then mgmtEvent s 0x0C 0 0 else s
    { s with boot := .tmcBoot, power := { s.power with energy := mj, powerReady := powerReadyAfter s.power mj } }

/-- PUFFBALL_PRE_CHARGE (R444, R461). -/
def execPuffballPreCharge (mj : Nat) (s : State) : Host.Outcome State Fault Refusal := .next (doPuffballPreCharge s mj)

/-! ## Step 3: firmware and configuration (R462, R469, R470, R474, R495) -/

/-- ASCII text padded with zeros. -/
def asciiPadded (bs : List Byte) : Bool :=
  (bs.dropWhile fun b => decide (0 < b.toNat ∧ b.toNat < 128)).all fun b => b == 0#8

/-- The fields of a blob checked (R469), CFG_SEQ and CFG_CHECK apart. -/
def cfgFieldsOk (b : List Byte) : Bool :=
  let f := fieldAt b
  let w := f 0x10 4
  b.length == 4096 && f 0 2 == 1 && f 2 2 == 0 && f 0x0C 4 == 0 && decide (w < 2 ^ 15) &&
    bits w 11 10 != 3 && bits w 13 12 != 3 && bits w 6 5 != 3 && bits w 8 7 != 3 &&
    (!bit w 2 || bit w 1) && (!bit w 0 || bit w 1) && !(bits w 6 5 == 2 && bit w 4) &&
    decide (150 ≤ f 0x14 2 ∧ f 0x14 2 ≤ 300 ∧ f 0x16 1 ≤ 2 ∧ f 0x17 1 < 16 ∧ f 0x18 1 ≤ 16) &&
    decide (8 ≤ f 0x19 1 ∧ f 0x19 1 ≤ 0x77 ∧ f 0x1A 2 < 4 ∧ f 0x20 4 < 4) &&
    asciiPadded (slice b 0x30 64) && (b.drop 0x70).all fun x => x == 0#8

/-- CFG_CHECK of a blob. -/
def cfgCheck (b : List Byte) : Nat := crc32c (b.take 8 ++ leBytes 4 0 ++ b.drop 12)

/-- Is a stored copy valid? -/
def cfgValid (b : List Byte) : Bool := cfgFieldsOk b && fieldAt b 8 4 == cfgCheck b

/-- The copy a bring-up selects: the valid one with the higher CFG_SEQ; true names copy A. -/
def selectCfg (s : State) : Option Bool :=
  let a := s.vault.cfgA
  let b := s.vault.cfgB
  if cfgValid a && (!cfgValid b || decide (fieldAt b 4 4 ≤ fieldAt a 4 4)) then some true
  else if cfgValid b then some false else none

/-- The configuration of a bring-up put in force. -/
def takeCfg (s : State) : State :=
  match selectCfg s with
  | some a =>
    { s with
      mgmt := { s.mgmt with inForce := some a, cfg := if a then s.vault.cfgA else s.vault.cfgB }
      regs := { s.regs with cfgDefaulted := false } }
  | none =>
    let s := { s with
      mgmt := { s.mgmt with inForce := none, cfg := factoryBlob 0 }
      regs := { s.regs with cfgDefaulted := true } }
    logFault (raiseEvent (mgmtEvent s 0x01 0 0) evCFG_DEFAULTED) evCFG_DEFAULTED 0 0 0

/-- A bridge's latch brought to the configuration; its port's links retrain where the port's value differs. -/
def latchPort (s : State) (p : Nat) : State :=
  let v := cfgField s 0x17 1
  let b := nth ⟨false, 0, [], []⟩ s.bridges p
  if bit b.latch p == bit v p && bit b.latch (2 + p) == bit v (2 + p) then s
  else
    { s with
      bridges := modNth s.bridges p fun b => { b with latch := v }
      links := modNth (modNth s.links (2 * p) fun _ => .down) (2 * p + 1) fun _ => .down }

/-- A newly activated bank that failed three bring-ups in a row gives way to the previous one (R474). -/
def revertBank (s : State) : State :=
  let m := s.mgmt
  if m.activated && decide (3 ≤ m.tries) then
    mgmtEvent { s with mgmt := { m with activeBank := 1 - m.activeBank, activated := false, tries := 0 } } 0x09 0 0
  else s

/-- The bank that the boot ROM starts: the active one if it is sound, else the other if that is sound (R474). -/
def romPick (s : State) (rom : RomResult) : Option Nat :=
  let ok (b : Nat) : Bool := (if b = 0 then rom.bankA else rom.bankB) && (nth ⟨[], false⟩ s.mgmt.banks b).valid
  let a := s.mgmt.activeBank
  if ok a then some a else if ok (1 - a) then some (1 - a) else none

/-- The boot ROM starts bank b: a start of a newly activated bank is counted, a fall-back to the other bank is told. -/
def romTake (s : State) (b : Nat) : State :=
  if b = s.mgmt.activeBank then { s with mgmt := { s.mgmt with tries := s.mgmt.tries + b2n s.mgmt.activated } }
  else mgmtEvent { s with mgmt := { s.mgmt with activeBank := b, activated := false, tries := 0 } } 0x09 0 0

/-- No bank is valid: the TMC stays in recovery mode (R466). -/
def enterRecovery (s : State) : State :=
  mgmtEvent { s with boot := .recovery, mgmt := { s.mgmt with resetBusy := false } } 0x0A 0 0

/-- The TMC runs its bank: chips are powered next, and each bridge latches its port configuration. -/
def bootBank (s : State) : State :=
  let run := (nth ⟨[], false⟩ s.mgmt.banks s.mgmt.activeBank).bytes
  let bad := !s.vault.ledgerA.valid && !s.vault.ledgerB.valid
  let s := { s with boot := .chipPower, mgmt := { s.mgmt with running := run, rebuilt := bad } }
  latchPort (latchPort (if bad then s else writeTorn s) 0) 1

/-- TMC_BOOT. -/
def doTmcBoot (s : State) (rom : RomResult) : State :=
  onStep s .tmcBoot fun s =>
    let r := revertBank s
    let s := takeCfg { r with
      deputy := none, deferred := [], deferredLog := [], vault := { r.vault with torn := r.vault.torn ++ r.deferred } }
    match romPick s rom with
    | some b => bootBank (romTake s b)
    | none => enterRecovery s

/-- TMC_BOOT (R474). -/
def execTmcBoot (rom : RomResult) (s : State) : Host.Outcome State Fault Refusal := .next (doTmcBoot s rom)

/-! ## Step 4: BIST and repair (R406 to R411, R414, R425) -/

/-- A ledger entry's effect on its core (Table FLT-2). -/
def applyEntry (s : State) (e : LedgerEntry) : State :=
  match e.kind with
  | 1 => setCore (setCore s e.chip e.unit fun x => { x with role := .fenced }) e.chip e.replacement fun x =>
      { x with role := .active }
  | 2 => setCore s e.chip e.unit fun x => { x with role := .fenced }
  | 3 => setCore s e.chip e.unit fun x =>
      { x with
        badSpares := x.badSpares ++ (x.spared.filter fun p => p.1 == e.element).map fun p => p.2
        spared := (x.spared.filter fun p => p.1 != e.element) ++ [(e.element, e.replacement)] }
  | _ => s

/-- Is a chip's last loss entry CHIP_LOST? -/
def lostLast (s : State) (c : Nat) : Bool :=
  match ((ledgerNow s).entries.filter fun e => e.chip == c && (e.kind == 5 || e.kind == 6)).getLast? with
  | some e => e.kind == 5
  | none => false

/-- Every fenced core that waits for its spare gets it, in fence-tick order (R416). -/
def coverChip (s : State) (c : Nat) : State :=
  (List.range 18).foldl (fun s _ => match nextFence s c with | some k => replaceCore s c k | none => s) s

/-- A chip is left out of the tray. -/
def leaveOut (s : State) (c : Nat) : State := setChip s c fun x => { x with active := false }

/-- Fenced cores replaced at once, and chips that a test made unfit left out of this bring-up. -/
def settleBoot (s : State) : State :=
  let s := (List.range 8).foldl coverChip s
  match s.loss with
  | .declared cs _ _ => cs.foldl leaveOut { s with loss := .none }
  | _ => s

/-- Power-up BIST of one chip. -/
def bootBist (s : State) (r : BistResult) : State :=
  if !(chipOf s r.chip).active then s
  else if !r.chipOk then leaveOut (logFault (raiseEvent s evBIST_FAIL) evBIST_FAIL r.chip 0 0) r.chip
  else settleBoot (bistResult s 1 r)

/-- CHIP_POWER_ON_BIST: chips with fewer than two losses powered, counters restored, the ledger applied or rebuilt, BIST. -/
def doChipPowerOnBist (s : State) (found : List BistResult) : State :=
  onStep s .chipPower fun s =>
    let rebuilt := s.mgmt.rebuilt
    let s := if rebuilt then
        { s with vault := { s.vault with ledgerA := ⟨1, true, 1, 0, []⟩, ledgerB := ⟨1, true, 2, 0, []⟩ } } else s
    let s := { s with chips := (withIndex s.chips).map fun (c, x) => { x with active := lossCount s c < 2 } }
    let s := (ledgerNow s).entries.foldl applyEntry (restoreCounters s s.vault.counters)
    let s := found.foldl bootBist s
    let s := { s with boot := .training }
    if rebuilt then logOther (mgmtEvent s 0x02 0 0) else s

/-- CHIP_POWER_ON_BIST (R408, R409). -/
def execChipPowerOnBist (found : List BistResult) (s : State) : Host.Outcome State Fault Refusal :=
  .next (doChipPowerOnBist s found)

/-! ## Steps 5 and 6 -/

/-- A lane of a chip towards a peer that cannot serve: retired for this bring-up. -/
def bootLane (s : State) (src dst lane : Nat) : State :=
  setDir s src dst fun d => if d.lanes.contains lane || d.spare == some lane then retireLane d lane else d

/-- The LANE entries of the ledger: [8] of ELEMENT is 0 where the entry's chip transmits. -/
def ledgerLane (s : State) (e : LedgerEntry) : State :=
  if e.kind != 4 then s
  else if bit e.element 8 then bootLane s e.unit e.chip (e.element % 8) else bootLane s e.chip e.unit (e.element % 8)

/-- What training found on one chip: lanes retired, links FAILED, and under a rebuild the lanes' ledger entries. -/
def bootTrain (s : State) (r : TrainResult) : State :=
  let s := r.failedLanes.foldl (fun s p =>
    let s := bootLane s r.chip p.1 p.2
    let s := countLink s r.chip p.1 3 1
    if s.mgmt.rebuilt then addLedger s 4 r.chip p.1 1 p.2 4 else s) s
  let s := r.failedLinks.foldl (fun s p => setLink s r.chip p fun l => { l with failed := true }) s
  if r.hbmOk then s else setChip s r.chip fun x => { x with active := false }

/-- A link of two admitted chips that is FAILED from bring-up, or left with fewer than 2 lanes. -/
def bootLink (s : State) (p : Nat × Nat) : State :=
  let l := linkOf s p.1 p.2
  let bad := l.failed || decide (l.up.lanes.length < 2 ∨ l.down.lanes.length < 2)
  if !bad || !(chipOf s p.1).active || !(chipOf s p.2).active then s
  else
    let s := setLink s p.1 p.2 fun l => { l with failed := true }
    logFault (raiseEvent (countLink s p.1 p.2 5 1) evLINK_FAILED) evLINK_FAILED p.1 p.2 5

/-- Links of a chip to other chips in the running that trained. -/
def trainedPeers (s : State) (c : Nat) : Nat :=
  ((activeChips s).filter fun d => d != c && !linkFailed s c d).length

/-- A chip with a CHIP_LOST entry: admitted with at least three links, and entered as CHIP_READMITTED (R425). -/
def readmit (s : State) (c : Nat) : State :=
  if !(chipOf s c).active || lossCount s c = 0 then s
  else if trainedPeers s c < 3 then setChip s c fun x => { x with active := false }
  else if lostLast s c then addLedger s 6 c 0 1 0 0 else s

/-- Training of HBM and Mycel from the ledger and what the links showed. -/
def trainNow (s : State) (found : List TrainResult) : State :=
  linkPairs.foldl bootLink ((List.range 8).foldl readmit (found.foldl bootTrain ((ledgerNow s).entries.foldl ledgerLane s)))

/-- HBM_MYCEL_TRAINING. -/
def doHbmMycelTraining (s : State) (found : List TrainResult) : State :=
  onStep s .training fun s => { trainNow s found with boot := .alignment }

/-- HBM_MYCEL_TRAINING (R344, R355, R425). -/
def execHbmMycelTraining (found : List TrainResult) (s : State) : Host.Outcome State Fault Refusal :=
  .next (doHbmMycelTraining s found)

/-- TRAY_COUNTER_ALIGNMENT: every counter starts at 0; a chip outside R357 is not admitted. -/
def doTrayCounterAlignment (s : State) (outside : List Nat) : State :=
  onStep s .alignment fun s =>
    let s := outside.foldl (fun s c => setChip s c fun x => { x with active := false }) s
    { s with
      boot := .apply, now := 0, tmc := (0, 0), ledgerWrite := none
      chips := s.chips.map fun x => { x with offset := 0, offsetAt := 0 }
      power := { s.power with idleSince := 0 } }

/-- TRAY_COUNTER_ALIGNMENT (R356). -/
def execTrayCounterAlignment (outside : List Nat) (s : State) : Host.Outcome State Fault Refusal :=
  .next (doTrayCounterAlignment s outside)

/-! ## Step 7 (R131, R196, R226, R251, R273, R304, R453) -/

/-- A stored function image reinstalled, or dropped with its slot named. -/
def reinstall (s : State) (p : Nat × List Byte) : State :=
  if imageCheck p.2 = fieldAt p.2 0x10 4 then { s with functions := mapIns (mapDel s.functions p.1) p.1 p.2 }
  else mgmtEvent s 0x03 p.1 0

/-- A context of a save slot: dropped where CTX_CHECK fails; else its stream, without its history. -/
def resumeContext (s : State) (p : Nat × List Byte) : State :=
  if crc32c (p.2.take 508) = fieldAt p.2 508 4 then
    let st := parseCtx p.2 (mapGet [] s.vault.bias p.1) []
    setStream s p.1 { st with histValid := false, hist := [], histHead := 0 }
  else logFault s 0x40 0 0 p.1

/-- The lanes of an active chip at a resume: the slot's where it holds them, else their base states. -/
def resumeLanes (x : Slot) (s : State) (c : Nat) : State :=
  if !(chipOf s c).active then s
  else
    let base := (List.range 8).map (laneStart c)
    setChip s c fun ch => { ch with lanes := if bit x.chips c then nth base x.lanes c else base }

/-- A vaulted model as a resume holds it: suspended, with its id and priority. -/
def suspendedModel (m : VaultModel) : Model :=
  { desc := m.desc, state := 4, priority := m.priority, rows := [], bias := none, normW := none, heads := [], rope := []
    ranks := [], resident := 0, crcs := [], plan := none }

/-- Every vaulted model is a suspended model of the tray. -/
def suspendVaulted (s : State) : State :=
  { s with
    models := s.vault.models.map fun p => (p.1, suspendedModel p.2)
    vault := { s.vault with models := s.vault.models.map fun p => (p.1, { p.2 with state := 4 }) } }

/-- Commit-then-resume from a slot. -/
def resumeFrom (s : State) (x : Slot) : State :=
  suspendVaulted ((List.range 8).foldl (resumeLanes x) (x.contexts.foldl resumeContext s))

/-- A cold start: no streams, no models; SAVE_LOST where a slot was left unfinished (R450). -/
def coldStart (s : State) : State :=
  let s := { s with vault := { s.vault with models := [] } }
  let lost (x : Slot) : Bool := x.state == 1 || (x.state == 2 && !x.headerOk)
  if lost s.vault.slotA || lost s.vault.slotB then logOther (mgmtEvent s 0x07 0 0) else s

/-- The configuration's values enter the registers; masks and functions come from the vault; every generation starts from 0 (R398). -/
def applyCfg (s : State) : State :=
  { s with
    regs := { s.regs with
      modeCtrl := BitVec.ofNat 32 (cfgField s 0x10 4)
      wakeTolerance := BitVec.ofNat 32 (cfgField s 0x1C 4) }
    power := { s.power with cap := cfgField s 0x14 2 }
    masks := s.vault.masks
    modelGen := []
    vault := { s.vault with maskGen := [] } }

/-- The saved slot is resumed, or the tray starts cold. -/
def resumeOrCold (s : State) : State :=
  match resumeSlot s with
  | some true => resumeFrom s s.vault.slotA
  | some false => resumeFrom s s.vault.slotB
  | none => coldStart s

/-- CONFIGURATION_APPLY. -/
def doConfigurationApply (s : State) : State :=
  onStep s .apply fun s =>
    let s := applyCfg s
    { resumeOrCold (homingNow (s.vault.functions.foldl reinstall s) []) with boot := .readyStep }

/-- CONFIGURATION_APPLY (R453, R461). -/
def execConfigurationApply (s : State) : Host.Outcome State Fault Refusal := .next (doConfigurationApply s)

/-! ## Step 8 (R464 to R467, R474) -/

/-- A management reset in service: the drain starts at once (R465). -/
def mgmtReset (s : State) (toI5 : Bool) : State :=
  let s := wake s
  commitShutdown s s.now 3 false toI5

/-- SETTINGS_FP (Table DET-4). -/
def settingsNow (s : State) : Dword :=
  if s.mgmt.running.isEmpty then 0x0201000701040000#64
  else (0x0201#16 ++ Config.bundleTables s.mgmt.running ++ 0x0104#16 ++ 0#16).setWidth 64

/-- The first READY of a newly activated bank: its count of failures is over, the SVN floor rises, a revocation takes
effect. -/
def firmwareReady (m : Mgmt) : Mgmt :=
  let m := { m with activated := false, tries := 0 }
  if m.running.isEmpty then m
  else
    { m with
      svnFloor := max m.svnFloor (Config.bundleSvn m.running).toNat
      revoked := match Config.bundleRevokes m.running with
        | some k => if m.revoked.contains k then m.revoked else m.revoked ++ [k]
        | none => m.revoked }

/-- The restored slot consumed. -/
def consumeResumed (s : State) : State :=
  match resumeSlot s with
  | some a => setSlot s a fun x => { x with state := 3 }
  | none => s

/-- Fewer than four chips at READY: the tray does not serve. -/
def stayDown (s : State) : State :=
  let s := ((List.range 8).filter fun c => !(chipOf s c).active).foldl (fun s c => mgmtEvent s 0x0B c 0) s
  { s with boot := .tooFewChips, mgmt := { s.mgmt with resetBusy := false, heldReset := none } }

/-- The registers and the firmware's marks at READY. -/
def readyMarks (s : State) (held : Option Bool) : State :=
  { s with
    boot := .serving
    regs := { s.regs with ready := true, settings := settingsNow s, lead := (activeChips s).headD 0 }
    bist := ⟨s.now, 0, 0⟩
    power := { s.power with idle := 0, idleSince := s.now }
    mgmt := { firmwareReady s.mgmt with resetBusy := held.isSome, heldReset := none, rebuilt := false } }

/-- The tray serves: the slot is consumed, the ledger counts the bring-up, and links without a detour are acted on. -/
def readyNow (s : State) (held : Option Bool) : State :=
  let s := consumeResumed s
  recheckLinks (readyMarks (writeLedger s (ledgerNow s).entries ((ledgerNow s).bringUps + 1)) held)

/-- READY: with at least four chips the tray serves; links that failed since are judged, and a held reset is performed. -/
def doReady (s : State) : State :=
  onStep s .readyStep fun s =>
    if (activeChips s).length < 4 then stayDown s
    else match s.mgmt.heldReset with
      | some i5 => mgmtReset (readyNow s (some i5)) i5
      | none => readyNow s none

/-- READY (R464). -/
def execReady (s : State) : Host.Outcome State Fault Refusal := .next (doReady s)

/-! ## Host links (R311, R494, R495, R498, R503) -/

/-- Are all four chips behind a host port lost, in service (R39)? -/
def portLost (s : State) (p : Nat) : Bool := s.regs.ready && (List.range 4).all fun i => !(chipOf s (4 * p + i)).active

/-- May a link train at a width and speed (R494, R495)? -/
def linkCan (s : State) (l width speed : Nat) : Bool :=
  let b := nth ⟨false, 0, [], []⟩ s.bridges (linkBridge l)
  let p := linkBridge l
  let nominal := if bit b.latch p then 8 else 16
  !b.failed && !portLost s p && (bit b.latch p || l % 2 == 0) && decide (l < 4) && [4, 8, 16].contains width && decide (width ≤ nominal) &&
    (speed == 32 || (speed == 64 && !bit b.latch (2 + p))) && !([Boot.off, .railsDown].contains s.boot)

/-- What waited for a link is sent: outputs first, then records; rings with a failed fetch try again (R311). -/
def flushWaiting (s : State) : State :=
  let outs := s.unsent
  let recs := s.unrecorded
  let s := outs.foldl (fun s p => hostWrite s p.1 p.2) { s with unsent := [], unrecorded := [] }
  let s := recs.foldl (fun s p => hostWrite s p.2.1 p.2.2) s
  { s with rings := s.rings.map fun p => (p.1, { p.2 with stalled := false }) }

/-- HOST_LINK_TRAINED. -/
def doHostLinkTrained (s : State) (l width speed : Nat) : State :=
  if !linkCan s l width speed then s
  else flushWaiting { s with links := modNth s.links l fun x => { x with trained := true, width := width, speed := speed } }

/-- HOST_LINK_TRAINED (R311, R495). -/
def execHostLinkTrained (l width speed : Nat) (s : State) : Host.Outcome State Fault Refusal :=
  .next (doHostLinkTrained s l width speed)

/-- HOST_LINK_DOWN: nothing but the link changes. -/
def doHostLinkDown (s : State) (l : Nat) : State := { s with links := modNth s.links l fun _ => .down }

/-- HOST_LINK_DOWN (R498). -/
def execHostLinkDown (l : Nat) (s : State) : Host.Outcome State Fault Refusal := .next (doHostLinkDown s l)

/-- The unreleased records of the last 200 µs written again into their slots, with identical bytes. -/
def rewriteRecords (s : State) (p : Nat × Ring) : State :=
  (p.2.records.filter fun r => decide (r.2.1 < s.now ∧ s.now ≤ r.2.1 + ticksUs s 200)).foldl
    (fun s r => hostWrite s (cqBase p.2 + 32 * r.1) r.2.2) s

/-- The bridge and its two links are gone. -/
def failBridge (s : State) (b : Nat) : State :=
  { s with
    bridges := modNth s.bridges b fun x => { x with failed := true }
    links := modNth (modNth s.links (2 * b) fun _ => .down) (2 * b + 1) fun _ => .down }

/-- The outputs of the last 200 microseconds are written again. -/
def rewriteRecent (s : State) : State :=
  (s.recent.filter fun p => decide (p.1 < s.now ∧ s.now ≤ p.1 + ticksUs s 200)).foldl
    (fun s p => p.2.foldl (fun s o => hostWrite s o.1 o.2) s) s

/-- HOST_BRIDGE_FAILED: its links go down, its copies serve no more, outputs and records of the last 200 µs are rewritten
through the other bridge; both bridges kept the same tails (R370), so no ring's tail moves. -/
def doHostBridgeFailed (s : State) (b : Nat) (t : Tick) : State :=
  let s := stamp s t
  if (nth ⟨true, 0, [], []⟩ s.bridges b).failed || 2 ≤ b then s
  else
    let s := rewriteRecent (failBridge s b)
    s.rings.foldl rewriteRecords s

/-- HOST_BRIDGE_FAILED (R503). -/
def execHostBridgeFailed (b : Nat) (t : Tick) (s : State) : Host.Outcome State Fault Refusal :=
  .next (doHostBridgeFailed s b t)

end Sys2Proof.Machine
end

