-- ==== Sys2Proof/Machine/Registers.lean ====
section
/-! DEFINITION. The host's accesses to BAR0 and BAR2: doorbells, ring enables, W1C clears, virtual functions, register
writes and reads, ingress memory, function-level resets (R274 to R280, R303 to R309, R497 to R501, R507, R508). -/

namespace Sys2Proof.Machine

/-- Are ring, doorbell and VF registers open (R463)? -/
def regsOpen (s : State) : Bool := s.regs.ready

/-! ## Doorbells -/

/-- What the host did to its memory. -/
def applyNews (s : State) (n : HostNews) : State :=
  { s with host := n.stores.foldl (fun m p => memStore m p.1 p.2) s.host, hostBad := n.bad }

/-- A doorbell value kept by each working bridge (R370). -/
def keepTail (s : State) (r v : Nat) : State :=
  { s with bridges := s.bridges.map fun b =>
      if b.failed then b else { b with tails := mapIns (mapDel b.tails r) r v } }

/-- SQ_TAIL_DB of a tray ring (R276). -/
def ringTail (s : State) (r v : Nat) : State :=
  let x := ringOf s r
  if !sqEnabled x then s
  else if sqEntries x ≤ v then ringError s r 1
  else wake (setRing s r { x with sqTail := v, stalled := false })

/-- SQ_TAIL_DB: the host's memory as it stands, then the write where its link is trained. -/
def doSqTailDb (s : State) (link fn ring : Nat) (value : Word) (news : HostNews) : State :=
  let s := applyNews s news
  if !regsOpen s || !linkUp s link then s
  else match trayRing s fn ring with
    | none => s
    | some r => ringTail (keepTail s r (bits value.toNat 15 0)) r (bits value.toNat 15 0)

/-- SQ_TAIL_DB (R276, R30). -/
def execSqTailDb (link fn ring : Nat) (value : Word) (news : HostNews) (s : State) : Host.Outcome State Fault Refusal :=
  .next (doSqTailDb s link fn ring value news)

/-- CQ_HEAD_DB of a tray ring (R278). -/
def ringHead (s : State) (r h : Nat) : State :=
  let x := ringOf s r
  let n := cqEntries x
  let dist := (h + n - x.cqHead) % n
  if !cqEnabled x then s
  else if n ≤ h || x.written < dist then ringError s r 2
  else
    let gone := (List.range dist).map fun k => (x.cqHead + k) % n
    wake (setRing s r
      { x with cqHead := h, written := x.written - dist
               records := x.records.filter fun p => !gone.contains p.1 })

/-- CQ_HEAD_DB through a link. -/
def doCqHeadDb (s : State) (link fn ring : Nat) (value : Word) : State :=
  if !regsOpen s || !linkUp s link then s
  else match trayRing s fn ring with
    | none => s
    | some r => ringHead s r (bits value.toNat 15 0)

/-- CQ_HEAD_DB (R278). -/
def execCqHeadDb (link fn ring : Nat) (value : Word) (s : State) : Host.Outcome State Fault Refusal :=
  .next (doCqHeadDb s link fn ring value)

/-! ## RING_CTRL (R274, R275, R280, R507) -/

/-- A size code of RING_SIZE. -/
def sizeOk (k : Nat) : Bool := decide (8 ≤ k ∧ k ≤ 16)

/-- Entries of the enabled SQs whose CQ_TARGET is a CQ (R275). -/
def targeting (s : State) (q : Nat) : Nat :=
  s.rings.foldl (fun t p => if sqEnabled p.2 && targetOf s p.1 == some q then t + sqEntries p.2 else t) 0

/-- CQ_ENABLE set on a ring whose enables are clear: a valid size that holds every SQ targeting it, else code 0x3. -/
def enableCq (s : State) (r : Nat) : State :=
  let x := ringOf s r
  if sizeOk (bits x.size.toNat 12 8) && decide (targeting s r ≤ cqEntries x) then
    setRing s r { x with ctrl := x.ctrl ||| 2#32, cqTail := 0, cqHead := 0, phase := true, written := 0, records := []
                         coal := 0, oldest := none }
  else ringError s r 3

/-- SQ_ENABLE set: a valid size, an enabled CQ_TARGET with room, else code 0x3. -/
def enableSq (s : State) (r : Nat) : State :=
  let x := ringOf s r
  let ok := match targetOf s r with
    | some q => cqEnabled (ringOf s q) && sizeOk (bits x.size.toNat 4 0) &&
        decide (targeting s q + sqEntries x ≤ cqEntries (ringOf s q))
    | none => false
  if ok then setRing s r { x with ctrl := x.ctrl ||| 1#32, sqHead := 0, sqTail := 0, taken := [], stalled := false }
  else ringError s r 3

/-- SQ_ENABLE cleared: fetching stops. -/
def disableSq (s : State) (r : Nat) : State :=
  let x := ringOf s r
  setRing s r { x with ctrl := x.ctrl &&& ~~~1#32 }

/-- CQ_ENABLE cleared, or refused with code 0x6 (R280). -/
def disableCq (s : State) (r : Nat) : State :=
  let x := ringOf s r
  let busy := (s.rings.any fun p => sqEnabled p.2 && targetOf s p.1 == some r) || s.cmds.any fun c => c.cq == r
  if busy then ringError s r 6 else setRing s r { x with ctrl := x.ctrl &&& ~~~2#32 }

/-- A write to RING_CTRL of a tray ring (R507). -/
def writeRingCtrl (s : State) (r : Nat) (v : Word) : State :=
  let x := ringOf s r
  if sqEnabled x || cqEnabled x then
    let s := if sqEnabled x && !v.getLsbD 0 then disableSq s r else s
    if cqEnabled x && !v.getLsbD 1 then disableCq s r else s
  else
    let s := setRing s r { x with ctrl := v &&& 0x31FFC#32 }
    let s := if v.getLsbD 1 then enableCq s r else s
    if v.getLsbD 0 then enableSq s r else s

/-- RING_CTRL written by a function. -/
def doRingCtrl (s : State) (fn ring : Nat) (v : Word) : State :=
  if !regsOpen s then s
  else match trayRing s fn ring with
    | none => s
    | some r => writeRingCtrl s r v

/-- SQ_ENABLE (R275). -/
def execSqEnable (fn ring : Nat) (v : Word) (s : State) : Host.Outcome State Fault Refusal := .next (doRingCtrl s fn ring v)
/-- SQ_DISABLE. -/
def execSqDisable (fn ring : Nat) (v : Word) (s : State) : Host.Outcome State Fault Refusal := .next (doRingCtrl s fn ring v)
/-- CQ_ENABLE (R275). -/
def execCqEnable (fn ring : Nat) (v : Word) (s : State) : Host.Outcome State Fault Refusal := .next (doRingCtrl s fn ring v)
/-- CQ_DISABLE (R280). -/
def execCqDisable (fn ring : Nat) (v : Word) (s : State) : Host.Outcome State Fault Refusal := .next (doRingCtrl s fn ring v)

/-! ## W1C registers (R508, Table CMD-16) -/

/-- RING_STATUS written. -/
def doRingErrClear (s : State) (fn ring : Nat) (v : Word) : State :=
  if !regsOpen s || !v.getLsbD 1 then s
  else match trayRing s fn ring with
    | none => s
    | some r => setRing s r { ringOf s r with ringErr := false, errCode := 0 }

/-- RING_ERR_CLEAR (R508). -/
def execRingErrClear (fn ring : Nat) (v : Word) (s : State) : Host.Outcome State Fault Refusal :=
  .next (doRingErrClear s fn ring v)

/-- FLAG_SUMMARY_CLEAR (R18, R106): each latched bit written 1 clears, whatever the engines' flags hold; a bit is set again
when a flag is next raised (log entry 60). -/
def doFlagSummaryClear (s : State) (v : Word) : State :=
  { s with regs := { s.regs with flagSummary := s.regs.flagSummary &&& ~~~v } }

/-- FLAG_SUMMARY_CLEAR. -/
def execFlagSummaryClear (v : Word) (s : State) : Host.Outcome State Fault Refusal := .next (doFlagSummaryClear s v)

/-- EVENT_CAUSE_CLEAR. -/
def doEventCauseClear (s : State) (v : Word) : State :=
  { s with regs := { s.regs with eventCause := s.regs.eventCause &&& ~~~v } }

/-- EVENT_CAUSE_CLEAR. -/
def execEventCauseClear (v : Word) (s : State) : Host.Outcome State Fault Refusal := .next (doEventCauseClear s v)

/-! ## Function-level reset (R309) -/

/-- The commands that stay after a reset: other functions', and started ones of R301, which write no record. -/
def flrCmds (s : State) (fn : Nat) : List Cmd :=
  (s.cmds.filter fun c => c.fn != fn || (onlyHeldAbort (pktOp c) && c.began && !isFailure c.status)).map fun c =>
    if c.fn == fn then { c with cq := 256 } else c

/-- A function-level reset; of the PF, the registers of Table CMD-16 that can be written or set by commands take their reset
values too, MODE_CTRL excepted (R303, R309, log entry 39). -/
def flr (s : State) (fn : Nat) : State :=
  let mine (r : Nat) : Bool := ringFn s r == fn
  let gone (i : Nat) : Bool := s.cmds.any fun c => c.fn == fn && c.id == i
  let s := { dropBarrier s gone with
    cmds := flrCmds s fn
    rings := s.rings.filter fun p => !mine p.1
    unrecorded := s.unrecorded.filter fun p => !mine p.1
    regs := { s.regs with
      msixTable := s.regs.msixTable.filter fun p => p.1 / 2 ^ 24 != fn
      msixPending := s.regs.msixPending.filter fun p => p / 512 != fn } }
  let s := releaseMoves s
  if fn = 0 then
    { s with
      regs := { s.regs with
        flagSummary := 0#32, eventCause := 0#32, eventEnable := 0#32, eventVector := 0#32, wakeTolerance := 0#32 }
      power := { s.power with cap := 300 } }
  else s

/-- FUNCTION_LEVEL_RESET of a function that exists. -/
def doFlr (s : State) (fn : Nat) : State :=
  if !s.regs.ready || (fn != 0 && !(vfOf s (fn - 1)).enabled) then s else flr s fn

/-- FUNCTION_LEVEL_RESET (R309). -/
def execFunctionLevelReset (fn : Nat) (s : State) : Host.Outcome State Fault Refusal := .next (doFlr s fn)

/-! ## Virtual functions (R306, R308, R497) -/

/-- Do two ranges [a, a + n) and [b, b + m) meet? -/
def overlap (a n b m : Nat) : Bool := decide (0 < n ∧ 0 < m ∧ a < b + m ∧ b < a + n)

/-- The MSI-X vectors the PF uses: EVENT_VECTOR where an event is enabled, and those of its CQs with IRQ_ENABLE
(log entry 38). -/
def pfVectors (s : State) : List Nat :=
  ((if s.regs.eventEnable = 0#32 then [] else [bits s.regs.eventVector.toNat 8 0]) ++
    s.rings.filterMap fun p =>
      if ringFn s p.1 = 0 ∧ ringIrq p.2 then some (bits p.2.vector.toNat 8 0) else none).eraseDups

/-- May a VF be enabled beside those that are? The vectors of the PF and of the VFs are at most 512 together (R308). -/
def vfOk (s : State) (v : Nat) : Bool :=
  let x := vfOf s v
  let others := ((withIndex s.vfs).filter fun p => p.1 != v && p.2.enabled).map fun p => p.2
  let sb (y : Vf) : Nat := bits y.streamBase.toNat 15 0
  let sc (y : Vf) : Nat := bits y.streamCount.toNat 16 0
  let vec (y : Vf) : Nat := bits y.vectors.toNat 9 0
  (others.all fun y => !overlap (vfFirst x) (vfCount x) (vfFirst y) (vfCount y) && !overlap (sb x) (sc x) (sb y) (sc y)) &&
  decide ((x :: others).foldl (fun t y => t + vec y) (pfVectors s).length ≤ 512)

/-- VF_ENABLE set. -/
def doVfEnable (s : State) (v : Nat) : State :=
  if !regsOpen s || (vfOf s v).enabled then s
  else { s with vfs := modNth s.vfs v fun x => { x with enabled := vfOk s v, cfgErr := !vfOk s v } }

/-- VF_ENABLE (R306, R308). -/
def execVfEnable (v : Nat) (s : State) : Host.Outcome State Fault Refusal := .next (doVfEnable s v)

/-- VF_ENABLE cleared: a function-level reset of the VF. -/
def doVfDisable (s : State) (v : Nat) : State :=
  if !(vfOf s v).enabled then s
  else
    let s := flr s (v + 1)
    { s with vfs := modNth s.vfs v fun x => { x with enabled := false } }

/-- VF_DISABLE (R306). -/
def execVfDisable (v : Nat) (s : State) : Host.Outcome State Fault Refusal :=
  .next (if regsOpen s then doVfDisable s v else s)

/-- No link owns the virtual functions (R497). -/
def releaseSriov (s : State) : State := { s with regs := { s.regs with sriovOwner := none } }

/-- SRIOV_VF_ENABLE: the first trained link to set VF Enable owns the role; clearing it there disables every VF. -/
def doSriov (s : State) (link : Nat) (on : Bool) : State :=
  if !linkUp s link then s
  else match s.regs.sriovOwner with
    | none => if on then { s with regs := { s.regs with sriovOwner := some link } } else s
    | some o =>
      if on || o != link then s
      else
        releaseSriov ((List.range 16).foldl doVfDisable s)

/-- SRIOV_VF_ENABLE (R306, R497). -/
def execSriovVfEnable (link : Nat) (on : Bool) (s : State) : Host.Outcome State Fault Refusal := .next (doSriov s link on)

/-! ## Reads with an effect (R286, R361) -/

/-- Does BAR0 show the tray counter: from the end of step 6 (R361)? -/
def countVisible (s : State) : Bool := [Boot.apply, .readyStep, .serving, .tooFewChips, .faultShutdown].contains s.boot

/-- The lead chip's counter as BAR0 shows it: 0 until step 6 is complete. -/
def visibleCount (s : State) : Nat := if countVisible s then s.now else 0

/-- TRAY_COUNT_LO_READ through a link. -/
def doTrayCountLoRead (s : State) (link : Nat) : State :=
  if !linkUp s link then s
  else
    { s with
      links := modNth s.links link fun l => { l with latch := BitVec.ofNat 32 (visibleCount s / 2 ^ 32) }
      regs := { s.regs with readData := leBytes 4 (visibleCount s) } }

/-- TRAY_COUNT_LO_READ (Table CMD-16). -/
def execTrayCountLoRead (link : Nat) (s : State) : Host.Outcome State Fault Refusal := .next (doTrayCountLoRead s link)

/-- INGRESS_SYNC_READ: every BAR2 write received before has been stored, so the read returns 0. -/
def doIngressSyncRead (s : State) (link : Nat) : State :=
  if !linkUp s link then s else { s with regs := { s.regs with readData := leBytes 4 0 } }

/-- INGRESS_SYNC_READ (R286). -/
def execIngressSyncRead (link : Nat) (s : State) : Host.Outcome State Fault Refusal := .next (doIngressSyncRead s link)

/-! ## BAR2 (R499 to R501) -/

/-- BAR2_WRITE of a function through a link: stored in every working bridge. -/
def doBar2Write (s : State) (fn link off : Nat) (bs : List (Option Byte)) : State :=
  if !linkUp s link || bar2Size fn < off + bs.length then s
  else { s with bridges := s.bridges.map fun b =>
      if b.failed then b else { b with ingress := memStoreEnabled b.ingress (bar2Base fn + off) bs } }

/-- BAR2_WRITE (R500, R501). -/
def execBar2Write (fn link off : Nat) (bs : List (Option Byte)) (s : State) : Host.Outcome State Fault Refusal :=
  .next (doBar2Write s fn link off bs)

/-! ## REGISTER_WRITE (R303, R306, R307, R507) -/

/-- A configuration register of a ring with both enables clear. -/
def writeRingReg (s : State) (r off : Nat) (v : Word) : State :=
  let x := ringOf s r
  if off = 0x14 then writeRingCtrl s r v
  else if off = 0x28 then
    (if v.getLsbD 1 then setRing s r { x with ringErr := false, errCode := 0 } else s)
  else if sqEnabled x || cqEnabled x then s
  else match off with
    | 0x00 => setRing s r { x with sqBaseLo := v &&& 0xFFFFF000#32 }
    | 0x04 => setRing s r { x with sqBaseHi := v }
    | 0x08 => setRing s r { x with cqBaseLo := v &&& 0xFFFFF000#32 }
    | 0x0C => setRing s r { x with cqBaseHi := v }
    | 0x10 => setRing s r { x with size := v &&& 0x1F1F#32 }
    | 0x18 => setRing s r { x with vector := v &&& 0x1FF#32 }
    | 0x1C => setRing s r { x with coalesce := v }
    | _ => s

/-- A VF management register. -/
def writeVfReg (s : State) (v off : Nat) (x : Word) : State :=
  if off = 0x10 then
    (if x.getLsbD 0 then doVfEnable s v else doVfDisable s v)
  else if (vfOf s v).enabled then s
  else
    { s with vfs := modNth s.vfs v fun y =>
        match off with
        | 0x00 => { y with rings := x &&& 0x1FFFF#32 }
        | 0x04 => { y with streamBase := x &&& 0xFFFF#32 }
        | 0x08 => { y with streamCount := x &&& 0x1FFFF#32 }
        | 0x0C => { y with vectors := x &&& 0x3FF#32 }
        | _ => y }

/-- A double word into the MSI-X table of function fn at byte off (log entry 14). -/
def putMsix (s : State) (fn off : Nat) (w : Word) : State :=
  { s with regs := { s.regs with msixTable := memStore s.regs.msixTable (msixKey fn 0 + off) (leBytes 4 w.toNat) } }

/-- Vector k of function fn leaves the pending bits and goes out (log entry 14). -/
def releaseMsix (s : State) (fn k : Nat) : State :=
  sendMsi { s with regs := { s.regs with msixPending := s.regs.msixPending.filter fun p => p != 512 * fn + k } } fn k

/-- A write into a function's MSI-X table (Table CMD-15, log entry 14): address bits [1:0] stay 0; of vector control only the
mask bit is kept, and a pending message goes out when its vector is unmasked. -/
def writeMsix (s : State) (fn off : Nat) (v : Word) : State :=
  if off % 16 = 0 then putMsix s fn off (v &&& 0xFFFFFFFC#32)
  else if off % 16 = 12 then
    (if !v.getLsbD 0 && s.regs.msixPending.contains (512 * fn + off / 16) then
      releaseMsix (putMsix s fn off (~~~v &&& 1#32)) fn (off / 16)
    else putMsix s fn off (~~~v &&& 1#32))
  else putMsix s fn off v

/-- A write to the ring configuration of function fn at byte off of that region (Table CMD-9). -/
def ringRegionWrite (s : State) (fn off : Nat) (v : Word) : State :=
  if !regsOpen s then s
  else match trayRing s fn (off / 64) with
    | none => s
    | some r => writeRingReg s r (off % 64) v

/-- A write to the doorbell pages of function fn at byte off of that region (Table CMD-9). -/
def doorbellWrite (s : State) (link fn off : Nat) (v : Word) : State :=
  if off % 0x1000 = 0 then doSqTailDb s link fn (off / 0x1000) v ⟨[], s.hostBad⟩
  else if off % 0x1000 = 4 then doCqHeadDb s link fn (off / 0x1000) v
  else s

/-- A write to VF management at byte off of that region (Table CMD-18). -/
def vfRegionWrite (s : State) (off : Nat) (v : Word) : State :=
  if regsOpen s then writeVfReg s (off / 32) (off % 32) v else s

/-- A write to the identification and status registers (Table CMD-16): two registers clear by ones, two are written. -/
def statusRegionWrite (s : State) (off : Nat) (v : Word) : State :=
  if off = 0x30 then doFlagSummaryClear s v
  else if off = 0x34 then doEventCauseClear s v
  else if off = 0x38 then { s with regs := { s.regs with eventEnable := v &&& 0x1FFF#32 } }
  else if off = 0x3C then { s with regs := { s.regs with eventVector := v &&& 0x1FF#32 } }
  else s

/-- A 32-bit write of a function through a link at an aligned BAR0 offset. -/
def doRegisterWrite (s : State) (fn link off : Nat) (v : Word) : State :=
  if !linkUp s link || off % 4 != 0 then s
  else if 0x10000 ≤ off && off < 0x14000 then ringRegionWrite s fn (off - 0x10000) v
  else if 0x100000 ≤ off && off < 0x200000 then doorbellWrite s link fn (off - 0x100000) v
  else if 0x200000 ≤ off && off < 0x202000 then writeMsix s fn (off - 0x200000) v
  else if fn != 0 then s
  else if 0x300000 ≤ off && off < 0x300200 then vfRegionWrite s (off - 0x300000) v
  else statusRegionWrite s off v

/-- REGISTER_WRITE (R303, R507). -/
def execRegisterWrite (fn link off : Nat) (v : Word) (s : State) : Host.Outcome State Fault Refusal :=
  .next (doRegisterWrite s fn link off v)

/-! ## What registers read as (Tables CMD-9, CMD-15 to CMD-18) -/

/-- FW_VERSION: that of the running bundle, 2.4.0 as shipped; 0 in recovery mode (R4, R466). -/
def fwVersion (s : State) : Word :=
  if s.boot = .recovery then 0#32
  else if s.mgmt.running.isEmpty then 0x02040000#32 else Config.bundleVersion s.mgmt.running

/-- RING_STATUS. -/
def ringStatus (s : State) (r : Nat) : Word :=
  let x := ringOf s r
  BitVec.ofNat 32 (b2n (!(ringCmds s r).isEmpty) + 2 * b2n x.ringErr + 16 * x.errCode)

/-- A ring's configuration register. -/
def readRingReg (s : State) (r off : Nat) : Word :=
  let x := ringOf s r
  match off with
  | 0x00 => x.sqBaseLo | 0x04 => x.sqBaseHi | 0x08 => x.cqBaseLo | 0x0C => x.cqBaseHi | 0x10 => x.size | 0x14 => x.ctrl
  | 0x18 => x.vector | 0x1C => x.coalesce | 0x20 => BitVec.ofNat 32 x.sqHead | 0x24 => BitVec.ofNat 32 x.cqTail
  | 0x28 => ringStatus s r
  | _ => 0#32

/-- A doubleword of a function's MSI-X table. -/
def readMsix (s : State) (fn off : Nat) : Word :=
  let w := BitVec.ofNat 32 (leNat (memBytes s.regs.msixTable (msixKey fn 0 + off) 4))
  if off % 16 = 12 then w ^^^ 1#32 else w

/-- What a BAR0 register reads as for a function through a link. -/
def readRegister (s : State) (fn link off : Nat) : Word :=
  if 0x10000 ≤ off && off < 0x14000 then
    (match trayRing s fn ((off - 0x10000) / 64) with
     | none => 0#32
     | some r => readRingReg s r (off % 64))
  else if 0x200000 ≤ off && off < 0x202000 then
    readMsix s fn (off - 0x200000)
  else if 0x202000 ≤ off && off < 0x202040 then
    BitVec.ofNat 32 (s.regs.msixPending.foldl
      (fun t p => if decide (512 * fn + 8 * (off - 0x202000) ≤ p ∧ p < 512 * fn + 8 * (off - 0x202000) + 32) then
        t + 2 ^ ((p - 512 * fn) % 32) else t) 0)
  else if 0x300000 ≤ off && off < 0x300200 then
    (if fn != 0 then 0#32
     else
      let y := vfOf s ((off - 0x300000) / 32)
      match off % 32 with
      | 0x00 => y.rings | 0x04 => y.streamBase | 0x08 => y.streamCount | 0x0C => y.vectors
      | 0x10 => BitVec.ofNat 32 (b2n y.enabled + 2 * b2n y.cfgErr)
      | _ => 0#32)
  else if 0x1000 ≤ off && off < 0x1400 then
    (match modelOf s ((off - 0x1000) / 4) with
     | some m => BitVec.ofNat 32 (overhangUs s m)
     | none => 0#32)
  else if 0x1400 ≤ off && off < 0x1500 then
    packBytes ((List.range 4).map fun k => modelState s (off - 0x1400 + k))
  else match off with
    | 0x00 => 0x0D780192#32
    | 0x04 => fwVersion s
    | 0x08 | 0x0C => 0xB1B1B1B1#32
    | 0x10 => trayStatus s
    | 0x18 => packBytes ([0, 1, 2, 3].map (coresByte s))
    | 0x1C => packBytes ([4, 5, 6, 7].map (coresByte s))
    | 0x20 => BitVec.ofNat 32 (visibleCount s)
    | 0x24 => if countVisible s then (nth HostLink.down s.links link).latch else 0#32
    | 0x28 => s.regs.modeCtrl
    | 0x2C => BitVec.ofNat 32 s.power.cap
    | 0x30 => if fn = 0 then s.regs.flagSummary else 0#32
    | 0x34 => if fn = 0 then s.regs.eventCause else 0#32
    | 0x38 => if fn = 0 then s.regs.eventEnable else 0#32
    | 0x3C => if fn = 0 then s.regs.eventVector else 0#32
    | 0x44 => s.regs.wakeTolerance
    | 0x48 => BitVec.ofNat 32 s.power.idle
    | 0x50 => s.regs.settings.setWidth 32
    | 0x54 => (s.regs.settings >>> 32).setWidth 32
    | _ => 0#32

end Sys2Proof.Machine
end

