-- ==== Sys2Proof/Machine/Mgmt.lean ====
section
/-! DEFINITION. Management: resets, the configuration, logs, firmware updates, MCTP, PLDM sensors, SPDM, Redfish, and the
status LEDs (R434, R465, R471, R472, R475 to R485, R504, R505). An answer is a byte 0 (served) or 1 (refused) and its
payload (log entry 12). -/

namespace Sys2Proof.Machine

/-! ## Who is served -/

/-- An answer to a management request. -/
def answer (s : State) (ok : Bool) (payload : List Byte) : State :=
  { s with regs := { s.regs with readData := (if ok then 0#8 else 1#8) :: payload } }

/-- A refusal with an HTTP status. -/
def refuseHttp (s : State) (code : Nat) : State := answer s false (leBytes 2 code)

/-- Does the TMC serve requests (R504): with the input present or a save running, and not while it restarts (R404)? -/
def mgmtUp (s : State) : Bool := s.deputy.isNone && !([Boot.off, .railsDown].contains s.boot)

/-- Does Redfish serve: its port enabled and the label's credentials changed (R483)? -/
def redfishUp (s : State) : Bool := mgmtUp s && bit (cfgField s 0x20 4) 0 && s.mgmt.labelChanged

/-- Is an MCTP path up (R477): SMBus, or VDM on a trained link? -/
def mctpUp (s : State) : Bool :=
  mgmtUp s && (bit (cfgField s 0x1A 2) 0 || (bit (cfgField s 0x1A 2) 1 && !(trainedLinks s).isEmpty))

/-- A request by either way of management; none but a listed few is served in recovery mode (R466). -/
def onMgmt (s : State) (inRecovery : Bool) (k : State → State) : State :=
  if !(redfishUp s || mctpUp s) then s
  else if s.boot = .recovery && !inRecovery then answer s false []
  else k s

/-! ## Resets (R455, R465, R485, Table BOOT-3) -/

/-- A reset action: refused with 409 while an earlier one is under way. -/
def onReset (s : State) (k : State → State) : State :=
  if !redfishUp s then s
  else if s.mgmt.resetBusy then refuseHttp s 409
  else k (answer s true [])

/-- A reset under way. -/
def busy (s : State) : State := { s with mgmt := { s.mgmt with resetBusy := true } }

/-- GracefulRestart, or GracefulShutdown into I5. A shutdown already running is the one save; a tray that has nothing to save
drops its rails; a bring-up keeps the request until READY. -/
def gracefulReset (s : State) (toI5 : Bool) (t : Tick) : State :=
  let s := stamp s t
  match s.shutdown with
  | .drain d k _ _ => busy { s with shutdown := .drain d k false toI5 }
  | .save x k _ _ => busy { s with shutdown := .save x k false toI5 }
  | .none =>
    match s.boot with
    | .serving => busy (mgmtReset s toI5)
    | .i5 => if toI5 then s else busy { s with boot := downBoot s }
    | .recovery => if toI5 then answer s false [] else busy (dropRails s (downBoot s))
    | .faultShutdown | .tooFewChips => if toI5 then dropRails s .i5 else busy (dropRails s (downBoot s))
    | _ => busy { s with mgmt := { s.mgmt with heldReset := some toI5 } }

/-- GRACEFUL_RESTART. -/
def doGracefulRestart (s : State) (t : Tick) : State := onReset s fun s => gracefulReset s false t

/-- GRACEFUL_RESTART (R465). -/
def execGracefulRestart (t : Tick) (s : State) : Host.Outcome State Fault Refusal := .next (doGracefulRestart s t)

/-- FORCE_RESTART: no save; every slot consumed; a cold bring-up. -/
def doForceRestart (s : State) : State :=
  onReset s fun s => busy (dropRails (consumeAll s) (downBoot s))

/-- FORCE_RESTART (R465). -/
def execForceRestart (s : State) : Host.Outcome State Fault Refusal := .next (doForceRestart s)

/-- GRACEFUL_SHUTDOWN. -/
def doGracefulShutdown (s : State) (t : Tick) : State := onReset s fun s => gracefulReset s true t

/-- GRACEFUL_SHUTDOWN (R455). -/
def execGracefulShutdown (t : Tick) (s : State) : Host.Outcome State Fault Refusal := .next (doGracefulShutdown s t)

/-- ON: I5 is left through commit-then-resume; in any other state the tray is on already. -/
def doOn (s : State) : State :=
  onReset s fun s => if s.boot = .i5 then busy { s with boot := downBoot s } else s

/-- ON (R465). -/
def execOn (s : State) : Host.Outcome State Fault Refusal := .next (doOn s)

/-! ## The configuration (R471, R472) -/

/-- A blob with its CFG_SEQ and CFG_CHECK. -/
def sealBlob (b : List Byte) (seq : Nat) : List Byte :=
  let b := b.take 4 ++ leBytes 4 seq ++ b.drop 8
  b.take 8 ++ leBytes 4 (cfgCheck b) ++ b.drop 12

/-- The copy a write goes to (true: A) and its CFG_SEQ: the older one, or one that is not valid. -/
def cfgTarget (s : State) : Bool × Nat :=
  let a := s.vault.cfgA
  let b := s.vault.cfgB
  match cfgValid a, cfgValid b with
  | false, false => (true, 1)
  | false, true => (true, fieldAt b 4 4 + 1)
  | true, false => (false, fieldAt a 4 4 + 1)
  | true, true => if fieldAt a 4 4 ≤ fieldAt b 4 4 then (true, fieldAt b 4 4 + 1) else (false, fieldAt a 4 4 + 1)

/-- A checked blob stored. -/
def storeCfg (s : State) (b : List Byte) : State :=
  let (a, seq) := cfgTarget s
  if a then { s with vault := { s.vault with cfgA := sealBlob b seq } }
  else { s with vault := { s.vault with cfgB := sealBlob b seq } }

/-- CONFIG_WRITE: a blob that fails its check changes nothing. -/
def doConfigWrite (s : State) (b : List Byte) : State :=
  onMgmt s false fun s => if cfgFieldsOk b then answer (storeCfg s b) true [] else answer s false []

/-- CONFIG_WRITE (R471). -/
def execConfigWrite (b : List Byte) (s : State) : Host.Outcome State Fault Refusal := .next (doConfigWrite s b)

/-- Both copies as stored with the flag of the copy in force: 0 A, 1 B, 2 factory defaults. -/
def configReport (s : State) : List Byte :=
  leBytes 1 (match s.mgmt.inForce with | some true => 0 | some false => 1 | none => 2) ++
    padTo 4096 s.vault.cfgA ++ padTo 4096 s.vault.cfgB

/-- CONFIG_READ. -/
def doConfigRead (s : State) : State := onMgmt s false fun s => answer s true (configReport s)

/-- CONFIG_READ (R472). -/
def execConfigRead (s : State) : Host.Outcome State Fault Refusal := .next (doConfigRead s)

/-! ## Logs (R406, R434) -/

/-- The 32 bytes of a fault-log entry. -/
def logBytes (e : LogEntry) : List Byte :=
  leBytes 8 e.tick ++ leBytes 1 e.event ++ leBytes 1 e.chip ++ leBytes 1 e.unit ++ leBytes 1 0 ++ leBytes 4 e.detail ++
    leBytes 16 0

/-- The fault log, newest first. -/
def faultLogBytes (s : State) : List Byte := s.vault.faultLog.flatMap logBytes

/-- FAULT_LOG_READ. -/
def doFaultLogRead (s : State) : State := onMgmt s true fun s => answer s true (faultLogBytes s)

/-- FAULT_LOG_READ (R434). -/
def execFaultLogRead (s : State) : Host.Outcome State Fault Refusal := .next (doFaultLogRead s)

/-- The 16 bytes of a ledger entry (Table FLT-2). -/
def ledgerEntryBytes (e : LedgerEntry) : List Byte :=
  leBytes 1 e.kind ++ leBytes 1 e.chip ++ leBytes 1 e.unit ++ leBytes 1 e.origin ++ leBytes 4 e.element ++
    leBytes 4 e.replacement ++ leBytes 4 e.bringUp

/-- A ledger copy's header and entries, CHECK over the 64 KiB (Table FLT-1). -/
def ledgerBytes (l : Ledger) : List Byte :=
  let f (check : Nat) : List Byte :=
    leBytes 2 l.version ++ leBytes 2 l.entries.length ++ leBytes 4 l.seq ++ leBytes 4 check ++ leBytes 4 l.bringUps ++
      leBytes 112 0 ++ l.entries.flatMap ledgerEntryBytes
  f (crc32c (padTo 65536 (f 0)))

/-- LEDGER_READ. -/
def doLedgerRead (s : State) : State := onMgmt s false fun s => answer s true (ledgerBytes (ledgerNow s))

/-- LEDGER_READ (R477). -/
def execLedgerRead (s : State) : Host.Outcome State Fault Refusal := .next (doLedgerRead s)

/-! ## Firmware (R473 to R476, R485) -/

/-- The fused slot whose hash a bundle's signing key has, if it is not revoked. -/
def signingSlot (m : Mgmt) (b : List Byte) : Option Nat :=
  [0, 1].find? fun k => !m.revoked.contains k && Config.sha384 (Config.bundlePart 1 b) == Config.fusedKeyHash k

/-- Is a bundle accepted (R473, R474)? -/
def bundleOk (m : Mgmt) (b : List Byte) : Bool :=
  Config.bundleWhole b && decide (m.svnFloor ≤ (Config.bundleSvn b).toNat) &&
    match signingSlot m b with
    | none => false
    | some k => Config.bundleRevokes b != some k &&
        Config.ecdsaVerifies (Config.bundlePart 1 b) (Config.sha384 (Config.bundlePart 0 b)) (Config.bundlePart 2 b)

/-- A bank written. -/
def setBank (m : Mgmt) (k : Nat) (x : Bank) : Mgmt := { m with banks := modNth m.banks k fun _ => x }

/-- FIRMWARE_TRANSFER into the inactive bank: whole, it waits for VerifyComplete; ended early, the bank is invalid. The two
ways of update exclude each other. -/
def doFirmwareTransfer (s : State) (viaRedfish : Bool) (bundle : List Byte) (whole : Bool) : State :=
  let m := s.mgmt
  if !(if viaRedfish then redfishUp s else mctpUp s) then s
  else if m.update == some (!viaRedfish) then (if viaRedfish then refuseHttp s 409 else answer s false [])
  else
    let m := setBank { m with staged := false } (1 - m.activeBank) ⟨if whole then bundle else [], false⟩
    answer { s with mgmt := { m with update := if whole then some viaRedfish else none } } whole []

/-- FIRMWARE_TRANSFER (R475). -/
def execFirmwareTransfer (viaRedfish : Bool) (bundle : List Byte) (whole : Bool) (s : State) :
    Host.Outcome State Fault Refusal := .next (doFirmwareTransfer s viaRedfish bundle whole)

/-- VERIFY_COMPLETE: the bundle verified; FW_STAGED. -/
def doVerifyComplete (s : State) : State :=
  let m := s.mgmt
  let k := 1 - m.activeBank
  let b := (nth ⟨[], false⟩ m.banks k).bytes
  if !mgmtUp s then s
  else if m.update.isNone then answer s false []
  else if bundleOk m b then
    answer (mgmtEvent { s with mgmt := setBank { m with update := none, staged := true } k ⟨b, true⟩ } 0x08 0 0) true []
  else answer { s with mgmt := setBank { m with update := none } k ⟨[], false⟩ } false []

/-- VERIFY_COMPLETE (R475). -/
def execVerifyComplete (s : State) : Host.Outcome State Fault Refusal := .next (doVerifyComplete s)

/-- ACTIVATE_FIRMWARE: the staged bank becomes active, to run from the next bring-up. -/
def doActivateFirmware (s : State) : State :=
  let m := s.mgmt
  if !mgmtUp s then s
  else if m.staged then
    answer { s with mgmt := { m with activeBank := 1 - m.activeBank, staged := false, activated := true, tries := 0 } }
      true []
  else answer s false []

/-- ACTIVATE_FIRMWARE (R475). -/
def execActivateFirmware (s : State) : Host.Outcome State Fault Refusal := .next (doActivateFirmware s)

/-! ## MCTP control and PLDM sensors (R477, R478) -/

/-- MCTP_CONTROL: command code in byte 1; Set Endpoint ID (1) takes the id of byte 3, Get Endpoint ID (2) answers it. -/
def doMctpControl (s : State) (m : List Byte) : State :=
  if !mctpUp s then s
  else match fieldAt m 1 1 with
    | 1 => answer { s with mgmt := { s.mgmt with eid := fieldAt m 3 1 } } true (leBytes 1 (fieldAt m 3 1))
    | 2 => answer s true (leBytes 1 s.mgmt.eid)
    | _ => nextFree (answer s false [Config.standardByte s.freeCtr 0])

/-- MCTP_CONTROL (R477). -/
def execMctpControl (m : List Byte) (s : State) : Host.Outcome State Fault Refusal := .next (doMctpControl s m)

/-- TRAY_STATE (Table BOOT-8). -/
def trayState (s : State) : Nat :=
  if s.boot = .recovery then 6 else if s.boot = .i5 then 7 else if s.boot = .faultShutdown then 5
  else if s.regs.saving then 3 else if !s.regs.ready then 0 else if s.regs.degraded then 2
  else if s.power.idle != 0 then 4 else 1

/-- SPARES: two bits per chip. -/
def sparesMask (s : State) : Nat :=
  (List.range 8).foldl (fun m c => m + (coresByte s c / 32 % 4) * 4 ^ c) 0

/-- What the environment makes of a sensor: a free value; no package draws more than 30 W (R33). -/
def openReading (s : State) (id : Nat) : Nat :=
  let v := Config.sensorValue s.freeCtr id
  if 0x20 ≤ id ∧ id ≤ 0x27 then v % 31 else v

/-- Which threshold of Table PHY-3 a temperature has reached: 0 none, 1 lower warning, 2 upper warning, 3 upper critical, 4 upper
fatal (R488; the codes are the model's, log entry 12). -/
def thresholdOf (id v : Nat) : Nat :=
  if id = 0x18 then (if 60 ≤ v then 3 else if 50 ≤ v then 2 else if v ≤ 10 then 1 else 0)
  else if 110 ≤ v then 4 else if 95 ≤ v then 3 else if 90 ≤ v then 2 else 0

/-- The threshold byte that follows a temperature's reading. -/
def thresholdByte (id v : Nat) : List Byte :=
  if (0x10 ≤ id ∧ id ≤ 0x17) ∨ id = 0x18 then leBytes 1 (thresholdOf id v) else []

/-- A sensor's reading: none for no sensor; `none` inside for a lost chip's; true where the environment decides. -/
def sensor (s : State) (id : Nat) : Option (Option Nat × Bool) :=
  if 0x10 ≤ id ∧ id ≤ 0x17 then some (if (chipOf s (id - 0x10)).active then (some 0, true) else (none, false))
  else if 0x20 ≤ id ∧ id ≤ 0x27 then some (if (chipOf s (id - 0x20)).active then (some 0, true) else (none, false))
  else match id with
    | 1 => some (some (s.power.millivolts / 1000), false)
    | 2 => some (some (s.power.milliwatts / 1000), false)
    | 3 => some (some s.power.cap, false)
    | 4 => some (some s.power.pressure, false)
    | 5 => some (some (s.power.energy / 1000), false)
    | 6 => some (some (s.power.capacity / 1000), false)
    | 0x18 => some (some 0, true)
    | 0x30 => some (some (if chipsReported s.boot then chipMask s else 0), false)
    | 0x31 => some (some (trayState s), false)
    | 0x32 => some (some (sparesMask s), false)
    | _ => none

/-- GET_SENSOR_READING: a byte 1 (available) or 0 (unavailable), the value, and a temperature's threshold. -/
def doGetSensorReading (s : State) (id : Nat) : State :=
  onMgmt s true fun s => match sensor s id with
    | none => answer s false []
    | some (none, _) => answer s true (leBytes 1 0 ++ leBytes 4 0)
    | some (some v, false) => answer s true (leBytes 1 1 ++ leBytes 4 v)
    | some (some _, true) => nextFree (answer s true (leBytes 1 1 ++ leBytes 4 (openReading s id) ++ thresholdByte id (openReading s id)))

/-- GET_SENSOR_READING (R478). -/
def execGetSensorReading (id : Nat) (s : State) : Host.Outcome State Fault Refusal := .next (doGetSensorReading s id)

/-! ## SPDM (R480 to R482) -/

/-- Does SPDM serve: from the end of step 3? -/
def spdmUp (s : State) : Bool := mctpUp s && !([Boot.inputCheck, .preCharge, .tmcBoot].contains s.boot)

/-- An SPDM response, kept with its request in the transcript. -/
def spdmAnswer (s : State) (req resp : List Byte) : State :=
  answer { s with mgmt := { s.mgmt with transcript := s.mgmt.transcript ++ req ++ resp } } true resp

/-- An SPDM error; its code is the standard's. -/
def spdmError (s : State) : State :=
  nextFree (answer s false [0x12#8, 0x7F#8, Config.standardByte s.freeCtr 0, 0#8])

/-- n bytes that the standard decides. -/
def standardBytes (s : State) (n : Nat) : List Byte := (List.range n).map fun i => Config.standardByte s.freeCtr i

/-- A request that needs n steps of the negotiation behind it. -/
def onSpdm (s : State) (n : Nat) (k : State → State) : State :=
  if !spdmUp s then s else if s.mgmt.spdm < n then spdmError s else k s

/-- GET_VERSION: the negotiation starts anew; version 1.2. -/
def doGetVersion (s : State) (req : List Byte) : State :=
  onSpdm s 0 fun s =>
    spdmAnswer { s with mgmt := { s.mgmt with spdm := 1, transcript := [] } } req
      [0x10#8, 0x04#8, 0#8, 0#8, 0#8, 1#8, 0#8, 0x12#8]

/-- GET_VERSION (R480). -/
def execGetVersion (req : List Byte) (s : State) : Host.Outcome State Fault Refusal := .next (doGetVersion s req)

/-- GET_CAPABILITIES: CERT_CAP, CHAL_CAP, MEAS_CAP with signature. -/
def doGetCapabilities (s : State) (req : List Byte) : State :=
  onSpdm s 1 fun s =>
    let resp := [0x12#8, 0x61#8, 0#8, 0#8] ++ standardBytes s 4 ++ leBytes 4 0x16
    nextFree (spdmAnswer { s with mgmt := { s.mgmt with spdm := 2 } } req resp)

/-- GET_CAPABILITIES (R480). -/
def execGetCapabilities (req : List Byte) (s : State) : Host.Outcome State Fault Refusal := .next (doGetCapabilities s req)

/-- Does a negotiation offer ECDSA P-384, SHA-384 and DMTF measurements? -/
def offerOk (req : List Byte) : Bool := bit (fieldAt req 8 4) 7 && bit (fieldAt req 12 4) 1 && bit (fieldAt req 6 1) 0

/-- NEGOTIATE_ALGORITHMS: anything else is refused. -/
def doNegotiateAlgorithms (s : State) (req : List Byte) : State :=
  onSpdm s 2 fun s =>
    if !offerOk req then spdmError s
    else
      spdmAnswer { s with mgmt := { s.mgmt with spdm := 3 } } req
        ([0x12#8, 0x63#8, 0#8, 0#8] ++ leBytes 2 36 ++ leBytes 1 1 ++ leBytes 1 0 ++ leBytes 4 4 ++ leBytes 4 0x80 ++
          leBytes 4 2 ++ leBytes 16 0)

/-- NEGOTIATE_ALGORITHMS (R480). -/
def execNegotiateAlgorithms (req : List Byte) (s : State) : Host.Outcome State Fault Refusal :=
  .next (doNegotiateAlgorithms s req)

/-- A digest as bytes. -/
def digestBytes (bs : List Byte) : List Byte := (leBytes 48 (Config.sha384 bs).toNat).reverse

/-- GET_DIGESTS: slot 0 alone is provisioned. -/
def doGetDigests (s : State) (req : List Byte) : State :=
  onSpdm s 3 fun s => spdmAnswer s req ([0x12#8, 0x01#8, 0#8, 1#8] ++ digestBytes Config.certChain)

/-- GET_DIGESTS (R480). -/
def execGetDigests (req : List Byte) (s : State) : Host.Outcome State Fault Refusal := .next (doGetDigests s req)

/-- GET_CERTIFICATE of slot 0: a part of the chain, and how much remains; slots 1 to 7 are empty. -/
def doGetCertificate (s : State) (req : List Byte) : State :=
  onSpdm s 3 fun s =>
    let off := fieldAt req 4 2
    let n := min (fieldAt req 6 2) (Config.certChain.length - off)
    if fieldAt req 2 1 != 0 || Config.certChain.length ≤ off then spdmError s
    else
      spdmAnswer s req ([0x12#8, 0x02#8, 0#8, 0#8] ++ leBytes 2 n ++ leBytes 2 (Config.certChain.length - off - n) ++
        slice Config.certChain off n)

/-- GET_CERTIFICATE (R480). -/
def execGetCertificate (req : List Byte) (s : State) : Host.Outcome State Fault Refusal := .next (doGetCertificate s req)

/-- A measurement block in the DMTF format: raw or digest, index, value. -/
def measureBlock (i : Nat) (raw : Bool) (v : List Byte) : List Byte :=
  let kind := (match i with | 1 | 2 | 3 | 4 => 1 | 6 => 3 | 8 => 1 | _ => 3) + 128 * b2n raw
  leBytes 1 i ++ leBytes 1 1 ++ leBytes 2 (3 + v.length) ++ leBytes 1 kind ++ leBytes 2 v.length ++ v

/-- The resident function images, slots 0 to 63 in order, 8 KiB each. -/
def residentImages (s : State) : List Byte :=
  (List.range 64).flatMap fun k =>
    padTo 8192 (match s.functions.find? fun p => p.1 == k with | some p => p.2 | none => [])

/-- The measurement blocks of Table BOOT-10 at this tick; only index 1 in recovery mode (R482). -/
def measurements (s : State) : List (Nat × List Byte) :=
  let run := s.mgmt.running
  let part (i k : Nat) : Nat × List Byte := (i, measureBlock i false (digestBytes (Config.bundlePart (16 + k) run)))
  if s.boot = .recovery then [part 1 1]
  else
    [part 1 1, part 2 2, part 3 3, part 4 4, (5, measureBlock 5 true (leBytes 8 s.regs.settings.toNat)),
     (6, measureBlock 6 false (digestBytes s.mgmt.cfg)),
     (7, measureBlock 7 true ((List.range 4).map (nth 0#8 (Config.trustBytes s.mgmt.svnFloor s.mgmt.revoked)))),
     (8, measureBlock 8 false (digestBytes (residentImages s)))]

/-- The signature of the transcript with a response. -/
def transcriptSig (s : State) (req resp : List Byte) : List Byte :=
  leBytes 96 (Config.deviceSign (Config.sha384 (s.mgmt.transcript ++ req ++ resp))).toNat

/-- CHALLENGE: the chain's digest, a nonce, the measurement summary where it is asked for, the signature. -/
def doChallenge (s : State) (req : List Byte) : State :=
  onSpdm s 3 fun s =>
    if fieldAt req 2 1 != 0 then spdmError s
    else
      let sum := if fieldAt req 3 1 = 0 then [] else digestBytes ((measurements s).flatMap fun p => p.2)
      let resp := [0x12#8, 0x03#8, 0#8, 1#8] ++ digestBytes Config.certChain ++ standardBytes s 32 ++ sum ++ leBytes 2 0
      nextFree (spdmAnswer s req (resp ++ transcriptSig s req resp))

/-- CHALLENGE (R480). -/
def execChallenge (req : List Byte) (s : State) : Host.Outcome State Fault Refusal := .next (doChallenge s req)

/-- The blocks a request asks for: none (their number), all, or one. -/
def askedBlocks (s : State) (op : Nat) : Option (List (Nat × List Byte)) :=
  let l := measurements s
  if op = 0 then some [] else if op = 0xFF then some l
  else match l.filter fun p => p.1 == op with
    | [] => none
    | x => some x

/-- GET_MEASUREMENTS, signed where the request asks for it. -/
def doGetMeasurements (s : State) (req : List Byte) : State :=
  onSpdm s 3 fun s =>
    let op := fieldAt req 3 1
    match askedBlocks s op with
    | none => spdmError s
    | some l =>
      let rec' := l.flatMap fun p => p.2
      let resp := [0x12#8, 0x60#8] ++ leBytes 1 (if op = 0 then (measurements s).length else 0) ++ leBytes 1 0 ++
        leBytes 1 l.length ++ leBytes 3 rec'.length ++ rec' ++ standardBytes s 32 ++ leBytes 2 0
      nextFree (spdmAnswer s req (if bit (fieldAt req 2 1) 0 then resp ++ transcriptSig s req resp else resp))

/-- GET_MEASUREMENTS (R481, R482). -/
def execGetMeasurements (req : List Byte) (s : State) : Host.Outcome State Fault Refusal := .next (doGetMeasurements s req)

/-! ## Redfish (R483, R484) -/

/-- The sensors of Table BOOT-8. -/
def sensorIds : List Nat :=
  [1, 2, 3, 4, 5, 6] ++ (List.range 8).map (0x10 + ·) ++ [0x18] ++ (List.range 8).map (0x20 + ·) ++ [0x30, 0x31, 0x32]

/-- The sensors of Table BOOT-8 in the order of their ids: whether a reading is available, and the reading. -/
def sensorBytes (s : State) : List Byte :=
  sensorIds.flatMap fun id =>
    match sensor s id with
    | some (some v, free) => leBytes 1 1 ++ leBytes 4 (if free then openReading s id else v)
    | _ => leBytes 1 0 ++ leBytes 4 0

/-- A text in ASCII, zero-padded to 32 bytes. -/
def textBytes (t : String) : List Byte := padTo 32 (t.toList.map fun c => BitVec.ofNat 8 c.toNat)

/-- The identity of Table SCOPE-1 as far as the tray reports it (R7): vendor, family, product, order code, chip, the stepping of
each chip, chips per tray, GiB of HBM3E, and the firmware bundle. -/
def identityBytes (s : State) : List Byte :=
  textBytes "Ohmira" ++ textBytes "Salox" ++ textBytes "Dregophor DT-8 Sampling Tray" ++ textBytes "SX-DT8-192" ++
    textBytes "Icvor IV-2" ++ (List.range 8).flatMap (fun _ => textBytes "B1") ++ leBytes 1 8 ++ leBytes 4 192 ++
    leBytes 4 (fwVersion s).toNat

/-- What a resource of Table BOOT-11, by its row from 0, holds; none for any other. -/
def resource (s : State) : Nat → Option (List Byte)
  | 0 => some []
  | 1 => some (leBytes 4 0x0D780192 ++ identityBytes s ++ slice s.mgmt.cfg 0x30 64 ++ sensorBytes s)
  | 2 => some (leBytes 4 (fwVersion s).toNat ++ leBytes 8 s.regs.settings.toNat ++ slice s.mgmt.cfg 0x20 16)
  | 3 => some (faultLogBytes s)
  | 4 => some ((ledgerNow s).entries.flatMap ledgerEntryBytes)
  | 5 => some (configReport s)
  | 6 => some (leBytes 1 s.mgmt.activeBank ++ (s.mgmt.banks.flatMap fun b =>
      leBytes 1 (b2n b.valid) ++ leBytes 4 (if b.bytes.isEmpty then 0x02040000 else (Config.bundleVersion b.bytes).toNat)))
  | 7 => some (s.mgmt.subs.flatMap (leBytes 4))
  | 8 => some (s.mgmt.accounts.flatMap fun p => leBytes 1 p.1 ++ leBytes 1 p.2)
  | _ => none

/-- REDFISH_GET: a resource, or 404; recovery mode serves identification, sensors and the fault log (R466). -/
def doRedfishGet (s : State) (path : Nat) : State :=
  if !redfishUp s then s
  else match resource s path with
    | none => refuseHttp s 404
    | some b => if s.boot = .recovery && !([0, 1, 3, 6].contains path) then answer s false [] else if path = 1 then nextFree (answer s true b) else answer s true b

/-- REDFISH_GET (R484). -/
def execRedfishGet (path : Nat) (s : State) : Host.Outcome State Fault Refusal := .next (doRedfishGet s path)

/-- EVENT_SUBSCRIPTION: at most 4. -/
def doEventSubscription (s : State) (endpoint : Nat) (create : Bool) : State :=
  if !redfishUp s then s
  else if s.boot = .recovery then answer s false []
  else if !create then answer { s with mgmt := { s.mgmt with subs := s.mgmt.subs.erase endpoint } } true []
  else if s.mgmt.subs.contains endpoint then answer s true []
  else if 4 ≤ s.mgmt.subs.length then answer s false []
  else answer { s with mgmt := { s.mgmt with subs := s.mgmt.subs ++ [endpoint] } } true []

/-- EVENT_SUBSCRIPTION (R484). -/
def execEventSubscription (endpoint : Nat) (create : Bool) (s : State) : Host.Outcome State Fault Refusal :=
  .next (doEventSubscription s endpoint create)

/-- The role of an account: 0 Administrator, 1 Operator, 2 ReadOnly. -/
def roleOf (s : State) (user : Nat) : Option Nat := (s.mgmt.accounts.find? fun p => p.1 == user).map fun p => p.2

/-- The lowest account number that is free. -/
def freeAccount (s : State) : Nat :=
  ((List.range 9).find? fun k => !(s.mgmt.accounts.any fun p => p.1 == k)).getD 8

/-- ACCOUNT_SERVICE: action 0 a user's own credential change (the label's at first login); by an Administrator 1 creates an
account of a role, 2 removes account arg, 3 gives account arg / 4 the role arg % 4; at most 8 accounts. -/
def doAccountService (s : State) (user act arg : Nat) : State :=
  if !mgmtUp s || !bit (cfgField s 0x20 4) 0 then s
  else match roleOf s user with
    | none => answer s false []
    | some r =>
      if act = 0 then
        answer { s with mgmt := { s.mgmt with labelChanged := s.mgmt.labelChanged || user == 0 } } true []
      else if !s.mgmt.labelChanged || r != 0 || s.boot = .recovery then answer s false []
      else match act with
        | 1 =>
          if 8 ≤ s.mgmt.accounts.length || 3 ≤ arg then answer s false []
          else answer { s with mgmt := { s.mgmt with accounts := s.mgmt.accounts ++ [(freeAccount s, arg)] } } true
            (leBytes 1 (freeAccount s))
        | 2 => answer { s with mgmt := { s.mgmt with accounts := s.mgmt.accounts.filter fun p => p.1 != arg } } true []
        | 3 =>
          if arg % 4 = 3 || (roleOf s (arg / 4)).isNone then answer s false []
          else answer { s with mgmt := { s.mgmt with accounts := s.mgmt.accounts.map fun p =>
            if p.1 == arg / 4 then (p.1, arg % 4) else p } } true []
        | _ => answer s false []

/-- ACCOUNT_SERVICE (R483). -/
def execAccountService (user act arg : Nat) (s : State) : Host.Outcome State Fault Refusal :=
  .next (doAccountService s user act arg)

/-! ## Status LEDs (Table PHY-10) -/

/-- What an LED shows. -/
inductive Led where
  | dark | green | greenBlink | amber | amberBlink
  deriving DecidableEq, Repr

/-- SAVE. -/
def ledSave (s : State) : Led := if s.regs.saving then .amber else .dark

/-- STATUS. -/
def ledStatus (s : State) : Led :=
  if [Boot.faultShutdown, .recovery, .tooFewChips].contains s.boot then .amberBlink
  else if s.regs.degraded then .amber
  else if s.regs.ready then .green
  else if bringingUp s then .greenBlink else .dark

/-- PWR. -/
def ledPwr (s : State) : Led :=
  if railsUp s && s.power.idle != 4 then .green else if inputPresent s then .greenBlink else .dark

/-- LINK0 to LINK3. -/
def ledLink (s : State) (l : Nat) : Led :=
  let b := nth ⟨false, 0, [], []⟩ s.bridges (linkBridge l)
  let x := nth HostLink.down s.links l
  let p := linkBridge l
  if b.failed then .amber
  else if !x.trained then .dark
  else if x.width < (if bit b.latch p then 8 else 16) || (x.speed < 64 && !bit b.latch (2 + p)) then .amber
  else if x.speed = 64 then .green else .greenBlink

end Sys2Proof.Machine
end

