-- ==== Sys2Proof/Machine/Dispatch.lean ====
section
/-! DEFINITION. One arm for each command. -/

namespace Sys2Proof.Machine

/-- The effect of a command on everything but the queue. -/
def exec (i : Instr) (s : State) : Host.Outcome State Fault Refusal :=
  match i with
  | .nop id => Sys2Proof.Machine.execNop id s
  | .fence id => Sys2Proof.Machine.execFence id s
  | .loadModel id => Sys2Proof.Machine.execLoadModel id s
  | .unloadModel id => Sys2Proof.Machine.execUnloadModel id s
  | .setModelPriority id => Sys2Proof.Machine.execSetModelPriority id s
  | .openStream id => Sys2Proof.Machine.execOpenStream id s
  | .setStreamParams id => Sys2Proof.Machine.execSetStreamParams id s
  | .closeStream id => Sys2Proof.Machine.execCloseStream id s
  | .rebuildHistory id => Sys2Proof.Machine.execRebuildHistory id s
  | .saveStream id => Sys2Proof.Machine.execSaveStream id s
  | .restoreStream id => Sys2Proof.Machine.execRestoreStream id s
  | .stepCmd id inc => Sys2Proof.Machine.execStep id inc s
  | .stepScores id inc => Sys2Proof.Machine.execStepScores id inc s
  | .verify id inc => Sys2Proof.Machine.execVerify id inc s
  | .lookahead id inc => Sys2Proof.Machine.execLookahead id inc s
  | .hostDraw id inc => Sys2Proof.Machine.execHostDraw id inc s
  | .softmax id inc => Sys2Proof.Machine.execSoftmax id inc s
  | .topk id inc => Sys2Proof.Machine.execTopk id inc s
  | .thresholdCompact id inc => Sys2Proof.Machine.execThresholdCompact id inc s
  | .rowstat id inc => Sys2Proof.Machine.execRowstat id inc s
  | .castOp id inc => Sys2Proof.Machine.execCast id inc s
  | .randomFill id inc => Sys2Proof.Machine.execRandomFill id inc s
  | .applyFunction id inc => Sys2Proof.Machine.execApplyFunction id inc s
  | .ringJump id => Sys2Proof.Machine.execRingJump id s
  | .loadFunction run => Sys2Proof.Machine.execLoadFunction run s
  | .loadMask id => Sys2Proof.Machine.execLoadMask id s
  | .replay id inc => Sys2Proof.Machine.execReplay id inc s
  | .readDigests id => Sys2Proof.Machine.execReadDigests id s
  | .readFlags id tick => Sys2Proof.Machine.execReadFlags id tick s
  | .readCounters id tick => Sys2Proof.Machine.execReadCounters id tick s
  | .clearCounters id => Sys2Proof.Machine.execClearCounters id s
  | .setMode id => Sys2Proof.Machine.execSetMode id s
  | .setWakeTolerance id => Sys2Proof.Machine.execSetWakeTolerance id s
  | .barrier id tick => Sys2Proof.Machine.execBarrier id tick s
  | .barrierArrival id chip tick => Sys2Proof.Machine.execBarrierArrival id chip tick s
  | .barrierRelease id => Sys2Proof.Machine.execBarrierRelease id s
  | .launchAt id => Sys2Proof.Machine.execLaunchAt id s
  | .launchTick id => Sys2Proof.Machine.execLaunchTick id s
  | .abort id => Sys2Proof.Machine.execAbort id s
  | .sqTailDb link fn ring value news => Sys2Proof.Machine.execSqTailDb link fn ring value news s
  | .cqHeadDb link fn ring value => Sys2Proof.Machine.execCqHeadDb link fn ring value s
  | .sqEnable fn ring value => Sys2Proof.Machine.execSqEnable fn ring value s
  | .sqDisable fn ring value => Sys2Proof.Machine.execSqDisable fn ring value s
  | .cqEnable fn ring value => Sys2Proof.Machine.execCqEnable fn ring value s
  | .cqDisable fn ring value => Sys2Proof.Machine.execCqDisable fn ring value s
  | .ringErrClear fn ring value => Sys2Proof.Machine.execRingErrClear fn ring value s
  | .flagSummaryClear value => Sys2Proof.Machine.execFlagSummaryClear value s
  | .eventCauseClear value => Sys2Proof.Machine.execEventCauseClear value s
  | .vfEnable vf => Sys2Proof.Machine.execVfEnable vf s
  | .vfDisable vf => Sys2Proof.Machine.execVfDisable vf s
  | .sriovVfEnable link on => Sys2Proof.Machine.execSriovVfEnable link on s
  | .trayCountLoRead link => Sys2Proof.Machine.execTrayCountLoRead link s
  | .ingressSyncRead link => Sys2Proof.Machine.execIngressSyncRead link s
  | .bar2Write fn link offset bytes => Sys2Proof.Machine.execBar2Write fn link offset bytes s
  | .registerWrite fn link offset value => Sys2Proof.Machine.execRegisterWrite fn link offset value s
  | .functionLevelReset fn => Sys2Proof.Machine.execFunctionLevelReset fn s
  | .commandAccept tick => Sys2Proof.Machine.execCommandAccept tick s
  | .commandStart id tick => Sys2Proof.Machine.execCommandStart id tick s
  | .completionRecordWrite id tick => Sys2Proof.Machine.execCompletionRecordWrite id tick s
  | .cqCoalesceDelay ring tick => Sys2Proof.Machine.execCqCoalesceDelay ring tick s
  | .deadlineExpiry id => Sys2Proof.Machine.execDeadlineExpiry id s
  | .watchdogExpiry id stuck tick => Sys2Proof.Machine.execWatchdogExpiry id stuck tick s
  | .flitReceive src dst flit tick => Sys2Proof.Machine.execFlitReceive src dst flit tick s
  | .nackReceive src dst ackSeq tick => Sys2Proof.Machine.execNackReceive src dst ackSeq tick s
  | .ackTimeout src dst seq context tick => Sys2Proof.Machine.execAckTimeout src dst seq context tick s
  | .retryAttemptTimeout src dst tick => Sys2Proof.Machine.execRetryAttemptTimeout src dst tick s
  | .retryWindowExpiry src dst => Sys2Proof.Machine.execRetryWindowExpiry src dst s
  | .laneRetire src dst report => Sys2Proof.Machine.execLaneRetire src dst report s
  | .linkRecalibration a b => Sys2Proof.Machine.execLinkRecalibration a b s
  | .timeExchange start => Sys2Proof.Machine.execTimeExchange start s
  | .timeRsp chip req rsp after => Sys2Proof.Machine.execTimeRsp chip req rsp after s
  | .timeExchangeLoss chip after => Sys2Proof.Machine.execTimeExchangeLoss chip after s
  | .coreHeartbeatMiss chip core tick => Sys2Proof.Machine.execCoreHeartbeatMiss chip core tick s
  | .coreReplacement chip core => Sys2Proof.Machine.execCoreReplacement chip core s
  | .chipHeartbeatMiss chip tick => Sys2Proof.Machine.execChipHeartbeatMiss chip tick s
  | .fatalReport chip tick => Sys2Proof.Machine.execFatalReport chip tick s
  | .regulatorFault chip tick => Sys2Proof.Machine.execRegulatorFault chip tick s
  | .fenceTick tick => Sys2Proof.Machine.execFenceTick tick s
  | .chipLossRestart tick => Sys2Proof.Machine.execChipLossRestart tick s
  | .relayDone tick => Sys2Proof.Machine.execRelayDone tick s
  | .tmcWatchdog => Sys2Proof.Machine.execTmcWatchdog s
  | .tmcResume => Sys2Proof.Machine.execTmcResume s
  | .counterSave => Sys2Proof.Machine.execCounterSave s
  | .backgroundTaskDue task chip arg found bad tick => Sys2Proof.Machine.execBackgroundTaskDue task chip arg found bad tick s
  | .boundedSlot chip tick => Sys2Proof.Machine.execBoundedSlot chip tick s
  | .quietSlotStart arrivals => Sys2Proof.Machine.execQuietSlotStart arrivals s
  | .quietSlotEnd tick => Sys2Proof.Machine.execQuietSlotEnd tick s
  | .pressureMeasurement reading => Sys2Proof.Machine.execPressureMeasurement reading s
  | .puffballMeasure millijoules tick => Sys2Proof.Machine.execPuffballMeasure millijoules tick s
  | .puffballCapacityMeasure millijoules => Sys2Proof.Machine.execPuffballCapacityMeasure millijoules s
  | .thermalThrottle chip temp tick => Sys2Proof.Machine.execThermalThrottle chip temp tick s
  | .coldPlateOvertemp temp => Sys2Proof.Machine.execColdPlateOvertemp temp s
  | .inputHigh millivolts tick => Sys2Proof.Machine.execInputHigh millivolts tick s
  | .pfEarly millivolts tick => Sys2Proof.Machine.execPfEarly millivolts tick s
  | .inputReturn millivolts tick => Sys2Proof.Machine.execInputReturn millivolts tick s
  | .decisionTick => Sys2Proof.Machine.execDecisionTick s
  | .snapshotTick tick => Sys2Proof.Machine.execSnapshotTick tick s
  | .saveComplete tick => Sys2Proof.Machine.execSaveComplete tick s
  | .presenceLost tick => Sys2Proof.Machine.execPresenceLost tick s
  | .presenceMated => Sys2Proof.Machine.execPresenceMated s
  | .puffballBleed => Sys2Proof.Machine.execPuffballBleed s
  | .idleEntry state tick => Sys2Proof.Machine.execIdleEntry state tick s
  | .inputCheck millivolts => Sys2Proof.Machine.execInputCheck millivolts s
  | .puffballPreCharge millijoules => Sys2Proof.Machine.execPuffballPreCharge millijoules s
  | .tmcBoot rom => Sys2Proof.Machine.execTmcBoot rom s
  | .chipPowerOnBist found => Sys2Proof.Machine.execChipPowerOnBist found s
  | .hbmMycelTraining found => Sys2Proof.Machine.execHbmMycelTraining found s
  | .trayCounterAlignment outside => Sys2Proof.Machine.execTrayCounterAlignment outside s
  | .configurationApply => Sys2Proof.Machine.execConfigurationApply s
  | .ready => Sys2Proof.Machine.execReady s
  | .hostLinkTrained link width speed => Sys2Proof.Machine.execHostLinkTrained link width speed s
  | .hostLinkDown link => Sys2Proof.Machine.execHostLinkDown link s
  | .hostBridgeFailed bridge tick => Sys2Proof.Machine.execHostBridgeFailed bridge tick s
  | .gracefulRestart tick => Sys2Proof.Machine.execGracefulRestart tick s
  | .forceRestart => Sys2Proof.Machine.execForceRestart s
  | .gracefulShutdown tick => Sys2Proof.Machine.execGracefulShutdown tick s
  | .on => Sys2Proof.Machine.execOn s
  | .configWrite blob => Sys2Proof.Machine.execConfigWrite blob s
  | .configRead => Sys2Proof.Machine.execConfigRead s
  | .faultLogRead => Sys2Proof.Machine.execFaultLogRead s
  | .ledgerRead => Sys2Proof.Machine.execLedgerRead s
  | .firmwareTransfer viaRedfish bundle whole => Sys2Proof.Machine.execFirmwareTransfer viaRedfish bundle whole s
  | .verifyComplete => Sys2Proof.Machine.execVerifyComplete s
  | .activateFirmware => Sys2Proof.Machine.execActivateFirmware s
  | .mctpControl message => Sys2Proof.Machine.execMctpControl message s
  | .getSensorReading sensor => Sys2Proof.Machine.execGetSensorReading sensor s
  | .getVersion req => Sys2Proof.Machine.execGetVersion req s
  | .getCapabilities req => Sys2Proof.Machine.execGetCapabilities req s
  | .negotiateAlgorithms req => Sys2Proof.Machine.execNegotiateAlgorithms req s
  | .getDigests req => Sys2Proof.Machine.execGetDigests req s
  | .getCertificate req => Sys2Proof.Machine.execGetCertificate req s
  | .challenge req => Sys2Proof.Machine.execChallenge req s
  | .getMeasurements req => Sys2Proof.Machine.execGetMeasurements req s
  | .redfishGet path => Sys2Proof.Machine.execRedfishGet path s
  | .eventSubscription endpoint create => Sys2Proof.Machine.execEventSubscription endpoint create s
  | .accountService user action arg => Sys2Proof.Machine.execAccountService user action arg s
  | .mirrorBuildComplete sid => Sys2Proof.Machine.execMirrorBuildComplete sid s
  | .modelRelayComplete mid => Sys2Proof.Machine.execModelRelayComplete mid s
  | .throttleRelease chip temp => Sys2Proof.Machine.execThrottleRelease chip temp s
  | .coldPlateRelease temp => Sys2Proof.Machine.execColdPlateRelease temp s

end Sys2Proof.Machine
end

