-- ==== Sys2Proof/Safety.lean ====
section
/-! DEFINITION. What a safe run is: every step answers a next state. The manual gives each command of the tray an effect, so
no command faults or is refused. -/

namespace Sys2Proof

/-- Does an outcome go on? -/
def Machine.goesOn : Host.Outcome Machine.State Machine.Fault Machine.Refusal → Bool
  | .next _ => true
  | .fault _ => false
  | .refused _ => false

/-- A run of n steps from s that never stops. -/
def Machine.safeRun : Nat → Machine.State → Bool
  | 0, _ => true
  | n + 1, s => match Machine.step s with
    | .next t => Machine.safeRun n t
    | .fault _ => false
    | .refused _ => false

/-! ## Invariants of the tray -/

/-- Host memory, both ingress memories and the MSI-X tables are in canonical form. -/
def Machine.memoriesWf (s : Machine.State) : Bool :=
  Machine.Memory.wf s.host && (s.bridges.all fun b => Machine.Memory.wf b.ingress) && Machine.Memory.wf s.regs.msixTable

/-- While DETERMINISTIC is 1, ORDER_MODE is 1, in MODE_CTRL and in the configuration in force (R304, R469). -/
def Machine.modeWf (s : Machine.State) : Bool :=
  (!s.regs.modeCtrl.getLsbD 0 || s.regs.modeCtrl.getLsbD 1) &&
    (!Machine.bit (Machine.cfgField s 0x10 4) 0 || Machine.bit (Machine.cfgField s 0x10 4) 1)

/-- The invariants together. -/
def Machine.Inv (s : Machine.State) : Bool := Machine.memoriesWf s && Machine.modeWf s

/-! ## Terms that statements use -/

/-- Every read of host memory succeeds: no range of it is bad and a link is trained (R312). -/
def Machine.hostFine (s : Machine.State) : Bool := s.hostBad.isEmpty && !(Machine.trainedLinks s).isEmpty

/-- Every byte of host memory outside a list of areas (address, length) reads in t as it reads in s. -/
def Machine.sameOutside (areas : List (Nat × Nat)) (s t : Machine.State) : Prop :=
  ∀ a, (∀ p ∈ areas, a < p.1 ∨ p.1 + p.2 ≤ a) → Machine.memByte t.host a = Machine.memByte s.host a

/-- A chip but for the flags and the counters of its cores. -/
def Machine.Chip.still (c : Machine.Chip) : Machine.Chip :=
  { c with cores := c.cores.map fun k => { k with te := Machine.noFlags, sfu := Machine.noFlags, counters := [] } }

/-- A command but for what an earlier command's completion may still change in it while it is held: the contexts it follows
(R36) and the tick that freed it (R366). -/
def Machine.Cmd.bare (c : Machine.Cmd) : Machine.Cmd := { c with ctxs := [], freed := 0 }

/-- A change of commands by a completion: only held ones, and only so. -/
def Machine.followsOnly (f : Machine.Cmd → Machine.Cmd) : Prop :=
  ∀ d, (f d).bare = d.bare ∧ (d.phase ≠ .held → f d = d)

/-- t is s but for host memory, the commands, the run's count of free values, and what raising a flag changes: engine flags,
core counters and totals, FLAG_SUMMARY, EVENT_CAUSE and what is sent with them (R103, R106, R305). -/
def Machine.onlyRan (s t : Machine.State) : Prop :=
  { t with
    host := s.host, cmds := s.cmds, freeCtr := s.freeCtr, chips := s.chips, totals := s.totals
    regs := { t.regs with
      flagSummary := s.regs.flagSummary, eventCause := s.regs.eventCause, msixPending := s.regs.msixPending
      msi := s.regs.msi, events := s.regs.events }
    mgmt := { t.mgmt with smbAlert := s.mgmt.smbAlert } } = s ∧
  t.chips.map Machine.Chip.still = s.chips.map Machine.Chip.still

/-- s with the contexts of streams read into their home chips' SRAM, one after another (R227). -/
def Machine.withContexts (s : Machine.State) (sids : List Nat) : Machine.State := sids.foldl Machine.cacheStream s

/-- What the rows of a step command share where nothing disturbs them: score rows, or the model it names, with the parts
that sum a row and under LOCKSTEP their partners (R43, R155, R391). -/
def Machine.stepEnvOf (s : Machine.State) (c : Machine.Cmd) : Machine.StepEnv :=
  let lock := Machine.modeLock c.modeCtrl
  let L := Machine.pkt c 0x2C 4
  if Machine.takesScores ⟨c.fn, c.ring, c.packet, c.modeCtrl⟩ then
    ⟨none, Machine.rowParts s lock false 0 L, if lock then Machine.rowParts s lock true 0 L else [], L, [], []⟩
  else match Machine.modelOf s (Machine.pktModel c) with
    | some m => ⟨some m, Machine.modelParts s m false, if lock then Machine.modelParts s m true else [],
        Machine.dVocab m.desc, [], []⟩
    | none => ⟨none, [], [], 0, [], []⟩

/-- The final scores of a row that gets a token: none is NaN, and one is above −inf (R63, R68). -/
def Machine.drawsToken (out : Machine.RowOut) : Prop :=
  (∀ w ∈ out.finals, Machine.isNan32 w = false) ∧ ∃ w ∈ out.finals, w ≠ Machine.ninf32

/-- A command's body has run: u's commands are s's, but those of number id are executed with a status, a DETAIL, bits of
COMPL_FLAGS added, and what they stage for their record (R64, R239). -/
def Machine.ranTo (s u : Machine.State) (id status detail cflags : Nat) (commits : List Machine.Commit) : Prop :=
  u.cmds = s.cmds.map fun d => if d.id == id then
    { d with
      phase := .executed, status := status, detail := detail, cflags := d.cflags ||| cflags, commits := commits } else d

/-- A command whose record is due on a tick and settles nothing more: executed, no tick fixed in advance or asked to be later,
no chip loss being fenced, no ABORT waiting, not ABORT_ON_LATE, no status of R291's second group, its streams as its commits
need them, a slot reserved, a host link trained, neither its watchdog's limit nor a drain's snapshot tick reached. -/
def Machine.recordDue (s : Machine.State) (id : Nat) (c : Machine.Cmd) (tick : Tick) : Prop :=
  Machine.cmdOf s id = some c ∧ c.phase = .executed ∧ c.fixed = none ∧ s.loss = .none ∧
  (∀ a ∈ s.cmds, Machine.pktOp a ≠ 0x7F ∨ a.phase = .executed) ∧ Machine.pktAbortOnLate c = false ∧
  Machine.isSecondGroup c.status = false ∧ (∀ k ∈ c.commits, Machine.commitHolds s k = true) ∧ c.cq < 256 ∧
  Machine.trainedLinks s ≠ [] ∧ c.notBefore ≤ s.now ∧ Machine.expired (Machine.stamp s tick) c tick = false ∧
  Machine.snapshotDue s tick = false

/-- Is a drain under way? -/
def Machine.draining (s : Machine.State) : Bool := match s.shutdown with | .drain _ _ _ _ => true | _ => false

/-- What recordDue asks of a command that the watchdog does not watch and that has not run yet: nothing but its own effect
stands between it and its record. -/
def Machine.recordReady (s : Machine.State) (c : Machine.Cmd) : Prop :=
  c.fixed = none ∧ s.loss = .none ∧ (∀ a ∈ s.cmds, Machine.pktOp a ≠ 0x7F ∨ a.phase = .executed) ∧
  Machine.pktAbortOnLate c = false ∧ c.cq < 256 ∧ Machine.trainedLinks s ≠ [] ∧ c.notBefore ≤ s.now ∧
  Machine.watched (Machine.pktOp c) = false ∧ Machine.draining s = false

end Sys2Proof
end

