-- ==== Sys2Proof/WellFormed.lean ====
section
/-! DEFINITION. When a command's operands lie in the ranges the manual gives them: chips 0 to 7, cores 0 to 17, lanes 0 to 4,
links 0 to 3, rings 0 to 255, functions 0 to 16 (the PF and 16 VFs), streams 0 to 65,535, models 0 to 255, flits of 256
bytes, configuration blobs of 4,096. -/

namespace Sys2Proof

/-- A chip's number. -/
def chipWf (c : Nat) : Bool := decide (c < 8)
/-- A core of a chip. -/
def coreWf (c k : Nat) : Bool := decide (c < 8 ∧ k < 18)
/-- Two different chips. -/
def pairWf (a b : Nat) : Bool := decide (a < 8 ∧ b < 8 ∧ a ≠ b)
/-- A function and a ring number of it. -/
def ringWf (fn ring : Nat) : Bool := decide (fn < 17 ∧ ring < 256)
/-- A host link. -/
def linkWf (l : Nat) : Bool := decide (l < 4)

/-- An event that a command or a scrub meets. -/
def Incident.wf : Incident → Bool
  | .sramCe c k => coreWf c k
  | .sramUe c k row => coreWf c k && decide (row < 1536)
  | .contextUe c k row => coreWf c k && decide (row < 1536)
  | .sfuCe c k => coreWf c k
  | .sfuUe c k => coreWf c k
  | .hbmCe c => chipWf c
  | .hbmUeModel c => chipWf c
  | .hbmUeReserved c => chipWf c
  | .lockCheck c sid _ _ _ => chipWf c && decide (sid < 65536)
  | .laneParity c l _ => chipWf c && decide (l < 8)
  | .ingressUe c _ => chipWf c
  | .overhangFail _ => true
  | .streamLost sid => decide (sid < 65536)
  | .maskLost e c m => decide (e < 4096) && pairWf c m
  | .windowRecordLost sid _ => decide (sid < 65536)

/-- What BIST finds on a chip. -/
def BistResult.wf (r : BistResult) : Bool :=
  chipWf r.chip && (r.failedCores.all fun k => decide (k < 18)) && (r.failedRows.all fun p => decide (p.1 < 18 ∧ p.2 < 1536)) &&
    r.failedSpares.all fun p => decide (p.1 < 18 ∧ p.2 < 24)

/-- What training leaves on a chip. -/
def TrainResult.wf (r : TrainResult) : Bool :=
  chipWf r.chip && (r.failedLinks.all fun p => pairWf r.chip p) &&
    r.failedLanes.all fun p => pairWf r.chip p.1 && decide (p.2 < 5)

/-- Operands in range. -/
def Instr.wf : Instr → Bool
  | .nop _ | .fence _ | .loadModel _ | .unloadModel _ | .setModelPriority _ | .openStream _ | .setStreamParams _
  | .closeStream _ | .rebuildHistory _ | .saveStream _ | .restoreStream _ | .ringJump _ | .loadMask _
  | .readDigests _ | .readFlags _ _ | .readCounters _ _ | .clearCounters _ | .setMode _ | .setWakeTolerance _
  | .barrier _ _ | .barrierRelease _ | .launchAt _ | .launchTick _ | .abort _ => true
  | .stepCmd _ inc | .stepScores _ inc | .verify _ inc | .lookahead _ inc | .hostDraw _ inc | .softmax _ inc
  | .topk _ inc | .thresholdCompact _ inc | .rowstat _ inc | .castOp _ inc | .randomFill _ inc | .applyFunction _ inc
  | .replay _ inc => inc.all Incident.wf
  | .loadFunction run => run.inc.all Incident.wf
  | .barrierArrival _ chip _ => chipWf chip
  | .sqTailDb link fn ring _ _ => linkWf link && ringWf fn ring
  | .cqHeadDb link fn ring _ => linkWf link && ringWf fn ring
  | .sqEnable fn ring v => ringWf fn ring && v.getLsbD 0
  | .sqDisable fn ring v => ringWf fn ring && !v.getLsbD 0
  | .cqEnable fn ring v => ringWf fn ring && v.getLsbD 1
  | .cqDisable fn ring v => ringWf fn ring && !v.getLsbD 1
  | .ringErrClear fn ring _ => ringWf fn ring
  | .flagSummaryClear _ | .eventCauseClear _ => true
  | .vfEnable v | .vfDisable v => decide (v < 16)
  | .sriovVfEnable link _ => linkWf link
  | .trayCountLoRead link => linkWf link
  | .ingressSyncRead link => linkWf link
  | .bar2Write fn link off bs =>
    decide (fn < 17) && linkWf link && decide (off + bs.length ≤ (if fn = 0 then 2 ^ 36 else 2 ^ 32))
  | .registerWrite fn link off _ =>
    decide (fn < 17) && linkWf link && decide (off % 4 = 0 ∧ off < (if fn = 0 then 2 ^ 24 else 2 ^ 22))
  | .functionLevelReset fn => decide (fn < 17)
  | .commandAccept _ | .commandStart _ _ | .completionRecordWrite _ _ | .deadlineExpiry _ => true
  | .cqCoalesceDelay ring _ => decide (ring < 256)
  | .watchdogExpiry _ stuck _ => stuck.all fun p => coreWf p.1 p.2
  | .flitReceive src dst flit _ => pairWf src dst && decide (flit.length = 256)
  | .nackReceive src dst ack _ => pairWf src dst && decide (ack < 4096)
  | .ackTimeout src dst seq _ _ => pairWf src dst && decide (seq < 4096)
  | .retryAttemptTimeout src dst _ => pairWf src dst
  | .retryWindowExpiry src dst => pairWf src dst
  | .laneRetire src dst r => pairWf src dst && decide (r.lane < 5)
  | .linkRecalibration a b => pairWf a b
  | .timeExchange _ => true
  | .timeRsp c _ _ _ => chipWf c
  | .timeExchangeLoss c _ => chipWf c
  | .coreHeartbeatMiss c k _ => coreWf c k
  | .coreReplacement c k => coreWf c k
  | .chipHeartbeatMiss c _ | .fatalReport c _ | .regulatorFault c _ => chipWf c
  | .fenceTick _ | .chipLossRestart _ | .relayDone _ | .tmcWatchdog | .tmcResume | .counterSave => true
  | .backgroundTaskDue task chip _ found bad _ =>
    decide (task < 7) && chipWf chip && found.all Incident.wf && bad.all BistResult.wf
  | .boundedSlot chip _ => chipWf chip
  | .quietSlotStart arrivals => arrivals.all fun p => chipWf p.1
  | .quietSlotEnd _ => true
  | .pressureMeasurement _ | .puffballMeasure _ _ | .puffballCapacityMeasure _ => true
  | .thermalThrottle c t _ => chipWf c && decide (95 ≤ t)
  | .throttleRelease c t => chipWf c && decide (t ≤ 90)
  | .coldPlateOvertemp t => decide (60 ≤ t)
  | .coldPlateRelease t => decide (t < 55)
  | .inputHigh mv _ => decide (60000 ≤ mv)
  | .pfEarly mv _ => decide (mv < 38000 ∨ 63000 < mv)
  | .inputReturn mv _ => decide (40000 ≤ mv ∧ mv ≤ 63000)
  | .decisionTick | .snapshotTick _ | .saveComplete _ | .presenceLost _ | .presenceMated | .puffballBleed => true
  | .idleEntry n _ => decide (1 ≤ n ∧ n ≤ 4)
  | .inputCheck mv => decide (40000 ≤ mv ∧ mv ≤ 60000)
  | .puffballPreCharge _ | .tmcBoot _ => true
  | .chipPowerOnBist found => found.all BistResult.wf
  | .hbmMycelTraining found => found.all TrainResult.wf
  | .trayCounterAlignment outside => outside.all chipWf
  | .configurationApply | .ready => true
  | .hostLinkTrained link width speed =>
    linkWf link && [4, 8, 16].contains width && (speed == 32 || speed == 64)
  | .hostLinkDown link => linkWf link
  | .hostBridgeFailed b _ => decide (b < 2)
  | .gracefulRestart _ | .forceRestart | .gracefulShutdown _ | .on => true
  | .configWrite blob => decide (blob.length = 4096)
  | .configRead | .faultLogRead | .ledgerRead | .firmwareTransfer _ _ _ | .verifyComplete | .activateFirmware
  | .mctpControl _ | .getSensorReading _ | .getVersion _ | .getCapabilities _ | .negotiateAlgorithms _ | .getDigests _
  | .getCertificate _ | .challenge _ | .getMeasurements _ | .redfishGet _ | .eventSubscription _ _
  | .accountService _ _ _ => true
  | .mirrorBuildComplete sid => decide (sid < 65536)
  | .modelRelayComplete mid => decide (mid < 256)

end Sys2Proof
end

