-- ==== Sys2Proof/Certificates/Slice0/Obligations.lean ====
section
/-! DEFINITION. The statements for the provers. Where a statement rests on a choice of the model, its docstring names the
log entry. `{ t with f := s.f } = s` says that t differs from s in the named fields only. -/

open Sys2Proof Sys2Proof.Machine

/-! ## The machine -/

/-- A step with a command waiting is exec of the command at the front of the queue, on the state with the queue's rest.
No rule of the manual: the queue is the model's. -/
def Obligations.StepRunsFrontCommand : Prop :=
  ∀ (c : Instr) (rest : List Instr) (s : State), step { s with pending := c :: rest } = exec c { s with pending := rest }

/-- A step with no command waiting: nothing happens while the tray is off; with its input there and no background task
waiting, the tray counter advances by one tick and nothing else changes. DESIGN CHOICE of log entry 13. -/
def Obligations.IdleStepAdvancesCounter : Prop :=
  ∀ s : State, s.pending = [] →
    (s.boot = .off → step s = .next s) ∧
    (s.boot ≠ .off → s.tasks = [] → step s = .next { s with now := s.now + 1 })

/-- Whatever the state, every command answers a next state, and none of them touches the queue of waiting commands. -/
def Obligations.EveryCommandAnswersNext : Prop :=
  ∀ (i : Instr) (s : State), ∃ t, exec i s = .next t ∧ t.pending = s.pending

/-- INVARIANT. Every step keeps the canonical form of host memory, of both ingress memories and of the MSI-X tables, and
keeps ORDER_MODE at 1 wherever DETERMINISTIC is 1, in MODE_CTRL and in the configuration in force (R304, R469). -/
def Obligations.StepKeepsInvariants : Prop := ∀ s t : State, Inv s = true → step s = .next t → Inv t = true

/-- The invariants hold right after reset. -/
def Obligations.InvariantsHoldAtReset : Prop := Inv State.reset = true

/-- What the registers read through BAR0 right after reset, by the PF through any link: the reset column of Tables CMD-16
and CMD-18 for every register whose value is not 0, and for the doubleword registers around them; every ring register as
Table CMD-9 gives it. -/
def Obligations.ResetRegisterValues : Prop :=
  ∀ link, link < 4 →
    readRegister State.reset 0 link 0x00 = 0x0D780192#32 ∧ readRegister State.reset 0 link 0x04 = 0x02040000#32 ∧
    readRegister State.reset 0 link 0x08 = 0xB1B1B1B1#32 ∧ readRegister State.reset 0 link 0x0C = 0xB1B1B1B1#32 ∧
    readRegister State.reset 0 link 0x2C = 0x0000012C#32 ∧
    (∀ off ∈ [0x10, 0x14, 0x18, 0x1C, 0x20, 0x24, 0x28, 0x30, 0x34, 0x38, 0x3C, 0x40, 0x44, 0x48, 0x50, 0x54],
      readRegister State.reset 0 link off = 0#32) ∧
    (∀ ring, ring < 256 → readRegister State.reset 0 link (0x10000 + 64 * ring + 0x10) = 0x00000808#32 ∧
      ∀ off ∈ [0x00, 0x04, 0x08, 0x0C, 0x14, 0x18, 0x1C, 0x20, 0x24, 0x28],
        readRegister State.reset 0 link (0x10000 + 64 * ring + off) = 0#32) ∧
    (∀ v, v < 16 → ∀ off ∈ [0x00, 0x04, 0x08, 0x0C, 0x10],
      readRegister State.reset 0 link (0x300000 + 32 * v + off) = 0#32) ∧
    (∀ m, m < 256 → readRegister State.reset 0 link (0x1000 + 4 * m) = 0#32) ∧
    (∀ m, m < 64 → readRegister State.reset 0 link (0x1400 + 4 * m) = 0#32)

/-! ## Doorbells and ring enables -/

/-- SQ_TAIL_DB below the ring size, SQ_ENABLE set: the ring's stored tail becomes the value written, and a stalled fetch is
tried again (R276, R311); the host's own stores are in memory; nothing else changes but the bridges' kept copy of the tail
(R370) and the wake from an idle state (R456). -/
def Obligations.SqTailDoorbellStoresTail : Prop :=
  ∀ (s : State) (link fn ring r : Nat) (v : Word) (news : HostNews),
    s.regs.ready = true → linkUp s link = true → trayRing s fn ring = some r → sqEnabled (ringOf s r) = true →
    bits v.toNat 15 0 < sqEntries (ringOf s r) →
    ∃ t, exec (.sqTailDb link fn ring v news) s = .next t ∧
      ringOf t r = { ringOf s r with sqTail := bits v.toNat 15 0, stalled := false } ∧
      (∀ q, q ≠ r → ringOf t q = ringOf s q) ∧
      t.host = news.stores.foldl (fun m p => memStore m p.1 p.2) s.host ∧ t.hostBad = news.bad ∧ t.power.idle = 0 ∧
      (∀ b ∈ t.bridges, b.failed = false → mapGet 0 b.tails r = bits v.toNat 15 0) ∧
      { t with host := s.host, hostBad := s.hostBad, bridges := s.bridges, rings := s.rings, power := s.power
               vault := s.vault } = s

/-- CQ_HEAD_DB of a value that releases written slots only, CQ_ENABLE set: the released head moves to the value, the slots
between are free again, and no other ring, register or byte changes (R278). -/
def Obligations.CqHeadDoorbellReleasesSlots : Prop :=
  ∀ (s : State) (link fn ring r : Nat) (v : Word),
    s.regs.ready = true → linkUp s link = true → trayRing s fn ring = some r → cqEnabled (ringOf s r) = true →
    bits v.toNat 15 0 < cqEntries (ringOf s r) →
    (bits v.toNat 15 0 + cqEntries (ringOf s r) - (ringOf s r).cqHead) % cqEntries (ringOf s r) ≤ (ringOf s r).written →
    ∃ t, exec (.cqHeadDb link fn ring v) s = .next t ∧
      (ringOf t r).cqHead = bits v.toNat 15 0 ∧
      (ringOf t r).written = (ringOf s r).written -
        (bits v.toNat 15 0 + cqEntries (ringOf s r) - (ringOf s r).cqHead) % cqEntries (ringOf s r) ∧
      { ringOf t r with cqHead := (ringOf s r).cqHead, written := (ringOf s r).written
                        records := (ringOf s r).records } = ringOf s r ∧
      (∀ q, q ≠ r → ringOf t q = ringOf s q) ∧ t.power.idle = 0 ∧
      { t with rings := s.rings, power := s.power, vault := s.vault } = s

/-- Doorbell values out of range are ignored and raise RING_ERR with code 0x1 (SQ) or 0x2 (CQ), the first code standing;
RING_ERR of EVENT_CAUSE is set. With the half's enable clear the write is ignored without an error (R276, R278, R508). -/
def Obligations.DoorbellRangeErrors : Prop :=
  ∀ (s : State) (link fn ring r : Nat) (v : Word), s.regs.ready = true → linkUp s link = true → trayRing s fn ring = some r →
    (sqEnabled (ringOf s r) = true → sqEntries (ringOf s r) ≤ bits v.toNat 15 0 →
      ∃ t, exec (.sqTailDb link fn ring v ⟨[], s.hostBad⟩) s = .next t ∧
        ringOf t r = { ringOf s r with
          ringErr := true, errCode := if (ringOf s r).ringErr then (ringOf s r).errCode else 1 } ∧
        t.regs.eventCause.getLsbD 9 = true ∧ t.host = s.host ∧ t.cmds = s.cmds) ∧
    (sqEnabled (ringOf s r) = false →
      ∃ t, exec (.sqTailDb link fn ring v ⟨[], s.hostBad⟩) s = .next t ∧ { t with bridges := s.bridges } = s) ∧
    (cqEnabled (ringOf s r) = true →
      (cqEntries (ringOf s r) ≤ bits v.toNat 15 0 ∨ (ringOf s r).written <
        (bits v.toNat 15 0 + cqEntries (ringOf s r) - (ringOf s r).cqHead) % cqEntries (ringOf s r)) →
      ∃ t, exec (.cqHeadDb link fn ring v) s = .next t ∧
        ringOf t r = { ringOf s r with
          ringErr := true, errCode := if (ringOf s r).ringErr then (ringOf s r).errCode else 2 } ∧
        t.regs.eventCause.getLsbD 9 = true ∧ t.host = s.host ∧ t.cmds = s.cmds) ∧
    (cqEnabled (ringOf s r) = false → exec (.cqHeadDb link fn ring v) s = .next s)

/-- A write that enables a ring's CQ, its SQ, or both, with both enables clear before: it stores the fields of RING_CTRL, and
each half enabled restarts from 0, the CQ with phase 1, the indices of a half that stays disabled untouched; nothing else
changes. The sizes are those of R274 and R275: each code 8 to 16, the CQ as large as all enabled SQs that name it. -/
def Obligations.RingEnableRestartsHalf : Prop :=
  ∀ (s : State) (fn ring r : Nat) (v : Word), s.regs.ready = true → trayRing s fn ring = some r →
    sqEnabled (ringOf s r) = false → cqEnabled (ringOf s r) = false →
    (v.getLsbD 1 = true → v.getLsbD 0 = false → sizeOk (bits (ringOf s r).size.toNat 12 8) = true →
      targeting (setRing s r { ringOf s r with ctrl := v &&& 0x31FFC#32 }) r ≤ cqEntries (ringOf s r) →
      ∃ t, exec (.cqEnable fn ring v) s = .next t ∧
        ringOf t r = { ringOf s r with
          ctrl := v &&& 0x31FFE#32, cqTail := 0, cqHead := 0, phase := true, written := 0, records := [], coal := 0
          oldest := none } ∧
        (∀ q, q ≠ r → ringOf t q = ringOf s q) ∧ { t with rings := s.rings } = s) ∧
    (v.getLsbD 0 = true → v.getLsbD 1 = false → sizeOk (bits (ringOf s r).size.toNat 4 0) = true →
      ∀ q, q ≠ r → trayRing s (ringFn s r) (bits v.toNat 11 4) = some q → cqEnabled (ringOf s q) = true →
      targeting (setRing s r { ringOf s r with ctrl := v &&& 0x31FFC#32 }) q + sqEntries (ringOf s r) ≤
        cqEntries (ringOf s q) →
      ∃ t, exec (.sqEnable fn ring v) s = .next t ∧
        ringOf t r = { ringOf s r with
          ctrl := v &&& 0x31FFD#32, sqHead := 0, sqTail := 0, taken := [], stalled := false } ∧
        (∀ p, p ≠ r → ringOf t p = ringOf s p) ∧ { t with rings := s.rings } = s) ∧
    (v.getLsbD 0 = true → v.getLsbD 1 = true → sizeOk (bits (ringOf s r).size.toNat 12 8) = true →
      sizeOk (bits (ringOf s r).size.toNat 4 0) = true →
      targeting (setRing s r { ringOf s r with ctrl := v &&& 0x31FFC#32 }) r ≤ cqEntries (ringOf s r) →
      ∀ q, trayRing s (ringFn s r) (bits v.toNat 11 4) = some q → (q = r ∨ cqEnabled (ringOf s q) = true) →
      targeting (setRing s r { ringOf s r with ctrl := v &&& 0x31FFC#32 }) q + sqEntries (ringOf s r) ≤
        cqEntries (ringOf s q) →
      ∀ i, i = Instr.sqEnable fn ring v ∨ i = .cqEnable fn ring v →
      ∃ t, exec i s = .next t ∧
        ringOf t r = { ringOf s r with
          ctrl := v &&& 0x31FFF#32, cqTail := 0, cqHead := 0, phase := true, written := 0, records := [], coal := 0
          oldest := none, sqHead := 0, sqTail := 0, taken := [], stalled := false } ∧
        (∀ p, p ≠ r → ringOf t p = ringOf s p) ∧ { t with rings := s.rings } = s)

/-- R507. While an enable is set, a write to a ring's configuration registers is ignored, except that a write to RING_CTRL
clears the enables it writes as 0 and does nothing else: clearing SQ_ENABLE clears that bit alone; clearing CQ_ENABLE clears
that bit alone, unless an enabled SQ names the CQ or an incomplete command's record goes to it: then it stays set and
RING_ERR reports 0x6 (R280). -/
def Obligations.EnabledRingTakesOnlyClears : Prop :=
  ∀ (s : State) (fn ring r : Nat) (v : Word), s.regs.ready = true → trayRing s fn ring = some r →
    (∀ link off, linkUp s link = true → (sqEnabled (ringOf s r) = true ∨ cqEnabled (ringOf s r) = true) → ring < 256 →
      off ∈ [0x00, 0x04, 0x08, 0x0C, 0x10, 0x18, 0x1C] →
      exec (.registerWrite fn link (0x10000 + 64 * ring + off) v) s = .next s) ∧
    ((sqEnabled (ringOf s r) = true ∨ cqEnabled (ringOf s r) = true) →
      (sqEnabled (ringOf s r) = true → v.getLsbD 0 = true) → (cqEnabled (ringOf s r) = true → v.getLsbD 1 = true) →
      exec (.sqEnable fn ring v) s = .next s ∧ exec (.cqEnable fn ring v) s = .next s) ∧
    (sqEnabled (ringOf s r) = true → v.getLsbD 0 = false → (cqEnabled (ringOf s r) = true → v.getLsbD 1 = true) →
      ∃ t, exec (.sqDisable fn ring v) s = .next t ∧
        ringOf t r = { ringOf s r with ctrl := (ringOf s r).ctrl &&& ~~~1#32 } ∧
        (∀ q, q ≠ r → ringOf t q = ringOf s q) ∧ { t with rings := s.rings } = s) ∧
    (cqEnabled (ringOf s r) = true → v.getLsbD 1 = false → sqEnabled (ringOf s r) = false →
      ((s.rings.any fun p => sqEnabled p.2 && targetOf s p.1 == some r) = false → (∀ c ∈ s.cmds, c.cq ≠ r) →
        ∃ t, exec (.cqDisable fn ring v) s = .next t ∧
          ringOf t r = { ringOf s r with ctrl := (ringOf s r).ctrl &&& ~~~2#32 } ∧
          (∀ q, q ≠ r → ringOf t q = ringOf s q) ∧ { t with rings := s.rings } = s) ∧
      (((s.rings.any fun p => sqEnabled p.2 && targetOf s p.1 == some r) = true ∨ ∃ c ∈ s.cmds, c.cq = r) →
        ∃ t, exec (.cqDisable fn ring v) s = .next t ∧
          ringOf t r = { ringOf s r with
            ringErr := true, errCode := if (ringOf s r).ringErr then (ringOf s r).errCode else 6 } ∧
          t.regs.eventCause.getLsbD 9 = true ∧ t.cmds = s.cmds))

/-- A write to a configuration register of a ring with both enables clear is stored in the bits Table CMD-9 gives it;
no other ring changes. -/
def Obligations.DisabledRingStoresRegisters : Prop :=
  ∀ (s : State) (fn link ring r : Nat) (v : Word), s.regs.ready = true → linkUp s link = true → ring < 256 →
    trayRing s fn ring = some r → sqEnabled (ringOf s r) = false → cqEnabled (ringOf s r) = false →
    let w (off : Nat) := exec (.registerWrite fn link (0x10000 + 64 * ring + off) v) s
    w 0x00 = .next (setRing s r { ringOf s r with sqBaseLo := v &&& 0xFFFFF000#32 }) ∧
    w 0x04 = .next (setRing s r { ringOf s r with sqBaseHi := v }) ∧
    w 0x08 = .next (setRing s r { ringOf s r with cqBaseLo := v &&& 0xFFFFF000#32 }) ∧
    w 0x0C = .next (setRing s r { ringOf s r with cqBaseHi := v }) ∧
    w 0x10 = .next (setRing s r { ringOf s r with size := v &&& 0x1F1F#32 }) ∧
    w 0x18 = .next (setRing s r { ringOf s r with vector := v &&& 0x1FF#32 }) ∧
    w 0x1C = .next (setRing s r { ringOf s r with coalesce := v }) ∧
    (∀ q x, ringOf (setRing s r x) q = if q = r then x else ringOf s q)

/-! ## Registers that clear by ones, and the others of BAR0 -/

/-- Writing 1 to RING_ERR clears it and returns ERR_CODE to 0x0; nothing else changes, and a write without that bit changes
nothing (R508). FLAG_SUMMARY and EVENT_CAUSE: a bit written 1 clears and a bit written 0 stays (R18, Table CMD-16); a bit
that an engine's flag holds clears too and latches again with the next flag raised (log entry 60). Nothing else changes. -/
def Obligations.ErrorAndCauseBitsClear : Prop :=
  (∀ (s : State) (fn ring r : Nat) (v : Word), s.regs.ready = true → trayRing s fn ring = some r →
     (v.getLsbD 1 = true → exec (.ringErrClear fn ring v) s =
       .next (setRing s r { ringOf s r with ringErr := false, errCode := 0 })) ∧
     (v.getLsbD 1 = false → exec (.ringErrClear fn ring v) s = .next s)) ∧
  (∀ (s : State) (v : Word),
     (∃ t, exec (.flagSummaryClear v) s = .next t ∧
       (∀ b, b < 32 → t.regs.flagSummary.getLsbD b =
         (s.regs.flagSummary.getLsbD b && !v.getLsbD b)) ∧
       { t with regs := { t.regs with flagSummary := s.regs.flagSummary } } = s) ∧
     (∃ t, exec (.eventCauseClear v) s = .next t ∧
       (∀ b, b < 32 → t.regs.eventCause.getLsbD b = (s.regs.eventCause.getLsbD b && !v.getLsbD b)) ∧
       { t with regs := { t.regs with eventCause := s.regs.eventCause } } = s))

/-- BAR0 as the PF writes it: EVENT_ENABLE and EVENT_VECTOR are stored in their fields, a read-only register ignores the
write, and so does an offset in no region; the pages of Table CMD-15 are ring registers, doorbells, MSI-X and VFs. -/
def Obligations.StatusRegisterWrites : Prop :=
  ∀ (s : State) (link : Nat) (v : Word), linkUp s link = true →
    exec (.registerWrite 0 link 0x38 v) s = .next { s with regs := { s.regs with eventEnable := v &&& 0x1FFF#32 } } ∧
    exec (.registerWrite 0 link 0x3C v) s = .next { s with regs := { s.regs with eventVector := v &&& 0x1FF#32 } } ∧
    (∀ off ∈ [0x00, 0x04, 0x08, 0x0C, 0x10, 0x14, 0x18, 0x1C, 0x20, 0x24, 0x28, 0x2C, 0x40, 0x44, 0x48, 0x50, 0x54],
      exec (.registerWrite 0 link off v) s = .next s) ∧
    (∀ off, (0x1000 ≤ off ∧ off < 0x10000) ∨ (0x14000 ≤ off ∧ off < 0x100000) ∨ (0x202000 ≤ off ∧ off < 0x300000) ∨
        (0x300200 ≤ off ∧ off < 0x1000000) → exec (.registerWrite 0 link off v) s = .next s)

/-! ## Virtual functions -/

/-- VF_ENABLE: the VF enables exactly where its rings and streams overlap no other enabled VF's and the vectors of the PF and
of all of them are at most 512 (the PF's as log entry 38 counts them); else CFG_ERR reads back; nothing else changes (R306, R308). Clearing it, or VF Enable in the SR-IOV
capability of the owning link, acts on the VF as a function-level reset: its incomplete commands end without records, its
rings and vectors are as at reset, its streams stay (R306, R309, R497). SR-IOV: the first trained link whose VF Enable is set
owns the role, and no other link takes it; clearing VF Enable on the owning link disables every VF at once and frees the role
(R306, R497). -/
def Obligations.VirtualFunctionsAndTheirOwner : Prop :=
  (∀ (s : State) (v : Nat), s.regs.ready = true → v < 16 → s.vfs.length = 16 →
     ((vfOf s v).enabled = false →
       let sb (y : Vf) : Nat := bits y.streamBase.toNat 15 0
       let sc (y : Vf) : Nat := bits y.streamCount.toNat 16 0
       let ok : Prop :=
         (∀ w, w < 16 → w ≠ v → (vfOf s w).enabled = true →
           overlap (vfFirst (vfOf s v)) (vfCount (vfOf s v)) (vfFirst (vfOf s w)) (vfCount (vfOf s w)) = false ∧
           overlap (sb (vfOf s v)) (sc (vfOf s v)) (sb (vfOf s w)) (sc (vfOf s w)) = false) ∧
         (pfVectors s).length + (((List.range 16).filter fun w => w == v || (vfOf s w).enabled).map fun w =>
           bits (vfOf s w).vectors.toNat 9 0).sum ≤ 512
       ∃ t, exec (.vfEnable v) s = .next t ∧
         (ok → vfOf t v = { vfOf s v with enabled := true, cfgErr := false }) ∧
         (¬ ok → vfOf t v = { vfOf s v with enabled := false, cfgErr := true }) ∧
         (∀ w, w ≠ v → vfOf t w = vfOf s w) ∧ { t with vfs := s.vfs } = s) ∧
     ((vfOf s v).enabled = true →
       ∃ t, exec (.vfDisable v) s = .next t ∧ vfOf t v = { vfOf s v with enabled := false } ∧
         (∀ w, w ≠ v → vfOf t w = vfOf s w) ∧ t.streams = s.streams ∧ t.models = s.models ∧ t.masks = s.masks ∧
         (∀ c ∈ t.cmds, c.fn = v + 1 → c.cq = 256 ∧ onlyHeldAbort (pktOp c) = true) ∧
         (∀ c ∈ s.cmds, c.fn ≠ v + 1 → c ∈ t.cmds) ∧ (∀ p ∈ t.rings, ringFn s p.1 ≠ v + 1) ∧
         (∀ p ∈ s.rings, ringFn s p.1 ≠ v + 1 → p ∈ t.rings) ∧ t.host = s.host)) ∧
  (∀ (s : State) (link : Nat), linkUp s link = true →
     (s.regs.sriovOwner = none →
       exec (.sriovVfEnable link true) s = .next { s with regs := { s.regs with sriovOwner := some link } }) ∧
     (∀ o, s.regs.sriovOwner = some o → o ≠ link → ∀ b, exec (.sriovVfEnable link b) s = .next s) ∧
     (s.regs.sriovOwner = some link → s.vfs.length = 16 →
       ∃ t, exec (.sriovVfEnable link false) s = .next t ∧ t.regs.sriovOwner = none ∧
         (∀ v, v < 16 → (vfOf t v).enabled = false) ∧ t.streams = s.streams ∧ t.host = s.host))

/-- FUNCTION_LEVEL_RESET of the PF or of an enabled VF: commands not yet complete leave without a record, but those of R301
that have started run on, and a barrier whose BARRIER leaves ends; the function's rings, its MSI-X table and pending bits are
as at reset; streams, models, masks, MODE_CTRL, counters, host memory and the VFs stay; streams that only a command that left
held to their homes may move (R230); for the PF, FLAG_SUMMARY, EVENT_CAUSE, EVENT_ENABLE, EVENT_VECTOR, WAKE_TOLERANCE and the
power cap take their reset values, and for a VF they stay (R303, R309; log entry 39). -/
def Obligations.FunctionResetDropsCommands : Prop :=
  ∀ (s : State) (fn : Nat), s.regs.ready = true → (fn = 0 ∨ (vfOf s (fn - 1)).enabled = true) →
    ∃ t, exec (.functionLevelReset fn) s = .next t ∧
      t.cmds = (s.cmds.filter fun c => c.fn != fn ||
        (onlyHeldAbort (pktOp c) && c.began && !isFailure c.status)).map
          (fun c => if c.fn == fn then { c with cq := 256 } else c) ∧
      (∀ b, t.barrierSt = some b ↔ s.barrierSt = some b ∧ ∀ c ∈ s.cmds, c.id = b.id → c.fn ≠ fn) ∧
      (∀ p, p ∈ t.rings ↔ p ∈ s.rings ∧ ringFn s p.1 ≠ fn) ∧
      (∀ p ∈ t.regs.msixTable, p.1 / 2 ^ 24 ≠ fn) ∧ (∀ p ∈ t.regs.msixPending, p / 512 ≠ fn) ∧
      (∀ p ∈ s.homes, p.1 ∉ s.moving → p ∈ t.homes) ∧ (∀ p ∈ t.homes, p ∈ s.homes) ∧
      (∀ j, j ∈ t.moving ↔ j ∈ s.moving ∧ stepOnStream { s with cmds := t.cmds } j = true) ∧
      (fn = 0 → t.regs.flagSummary = 0#32 ∧ t.regs.eventCause = 0#32 ∧ t.regs.eventEnable = 0#32 ∧
        t.regs.eventVector = 0#32 ∧ t.regs.wakeTolerance = 0#32 ∧ t.power = { s.power with cap := 300 }) ∧
      (fn ≠ 0 → t.regs = { s.regs with msixTable := t.regs.msixTable, msixPending := t.regs.msixPending } ∧ t.power = s.power) ∧
      { t with
        cmds := s.cmds, rings := s.rings, unrecorded := s.unrecorded, barrierSt := s.barrierSt, homes := s.homes
        moving := s.moving, power := s.power
        regs := { t.regs with
          flagSummary := s.regs.flagSummary, eventCause := s.regs.eventCause, eventEnable := s.regs.eventEnable
          eventVector := s.regs.eventVector, wakeTolerance := s.regs.wakeTolerance
          msixTable := s.regs.msixTable, msixPending := s.regs.msixPending } } = s

/-! ## Reads with an effect, and BAR2 -/

/-- A read of TRAY_COUNT_LO through a trained link answers bits [31:0] of the lead's counter and latches bits [63:32] for
that link alone, 0 before step 6 of bring-up is complete (Table CMD-16, R361); a read of INGRESS_SYNC answers 0 (R286).
Through a link that is not trained nothing happens. -/
def Obligations.EffectfulReadsAnswer : Prop :=
  ∀ (s : State) (link : Nat), link < s.links.length →
    (linkUp s link = true →
      ∃ t, exec (.trayCountLoRead link) s = .next t ∧ t.regs.readData = leBytes 4 (visibleCount s) ∧
        (nth HostLink.down t.links link).latch = BitVec.ofNat 32 (visibleCount s / 2 ^ 32) ∧
        (∀ l, l ≠ link → nth HostLink.down t.links l = nth HostLink.down s.links l) ∧
        { t with links := s.links, regs := { t.regs with readData := s.regs.readData } } = s) ∧
    (linkUp s link = true →
      exec (.ingressSyncRead link) s = .next { s with regs := { s.regs with readData := [0#8, 0#8, 0#8, 0#8] } }) ∧
    (linkUp s link = false → exec (.trayCountLoRead link) s = .next s ∧ exec (.ingressSyncRead link) s = .next s) ∧
    (s.boot = .serving → visibleCount s = s.now) ∧ (s.boot = .alignment → visibleCount s = 0)

/-- A BAR2 write through a trained link, inside the function's window, stores each enabled byte in the ingress memory of every
working bridge, at the PF offset that R500 gives the function; no other byte and nothing else changes (R500, R501). -/
def Obligations.Bar2WriteStoresEnabledBytes : Prop :=
  ∀ (s : State) (fn link off : Nat) (bs : List (Option Byte)), memoriesWf s = true → linkUp s link = true →
    off + bs.length ≤ bar2Size fn →
    ∃ t, exec (.bar2Write fn link off bs) s = .next t ∧ t.bridges.length = s.bridges.length ∧
      (∀ k, k < s.bridges.length →
        let b := nth ⟨false, 0, [], []⟩ s.bridges k
        let b' := nth ⟨false, 0, [], []⟩ t.bridges k
        (b.failed = true → b' = b) ∧
        (b.failed = false → { b' with ingress := b.ingress } = b ∧
          ∀ a, memByte b'.ingress a =
            (if bar2Base fn + off ≤ a ∧ a < bar2Base fn + off + bs.length then
              ((bs[a - (bar2Base fn + off)]?).join).getD (memByte b.ingress a) else memByte b.ingress a))) ∧
      { t with bridges := s.bridges } = s

/-! ## The dispatcher -/

/-- COMMAND_ACCEPT. While the tray is not READY, or SAVING, nothing is accepted. The entry that enters is of an enabled ring
whose CQ has a free slot (R279); unless it is an ABORT its ring has fewer than 16 incomplete commands, and no ring with a
higher PRIORITY has an entry to offer (R274, R294). It becomes a command with its 64 bytes, its function, ring, index and CQ,
stamped with the tick; it is held where validation finds nothing, else executed with that status and DETAIL; ABORT_ON_LATE
with DEADLINE passed ends it ABORTED at once, before an unreadable block counts (R291, R299); a LAUNCH_AT whose tick has come
completes at once, late (R297). A stalled ring offers nothing (R311). An entry that cannot be read raises RING_ERR 0x4 and stalls its ring (R311). -/
def Obligations.AcceptedEntryBecomesCommand : Prop :=
  ∀ (s : State) (t : Tick),
    (accepting s = false → exec (.commandAccept t) s = .next (stamp s t)) ∧
    ∀ r i ahead, accepting s = true → pickRing (stamp s t) = some (r, i, ahead) →
      sqEnabled (ringOf s r) = true ∧ (ringOf s r).stalled = false ∧ (∃ q, targetOf s r = some q ∧ cqFree s q ≠ 0) ∧
      (ahead = false → ringLoad s r < 16 ∧ i = (ringOf s r).sqHead ∧
        ∀ p ∈ s.rings, (ringOffer s p.1).isSome = true → ringPriority (ringOf s p.1) ≤ ringPriority (ringOf s r)) ∧
      (hostOk s (sqBase (ringOf s r) + 64 * i) 64 = false → ∃ u, exec (.commandAccept t) s = .next u ∧
        u.cmds = s.cmds ∧ u.host = s.host ∧ u.regs.eventCause.getLsbD 9 = true ∧
        ringOf u r = { ringOf s r with
          stalled := true, ringErr := true, errCode := if (ringOf s r).ringErr then (ringOf s r).errCode else 4 }) ∧
      (hostOk s (sqBase (ringOf s r) + 64 * i) 64 = true → ∃ u c, exec (.commandAccept t) s = .next u ∧
        u.cmds = s.cmds ++ [c] ∧ c.packet = hostBytes s (sqBase (ringOf s r) + 64 * i) 64 ∧ c.fn = ringFn s r ∧ c.ring = r ∧
        c.index = i ∧ some c.cq = targetOf s r ∧ c.accept = max s.now t ∧ c.modeCtrl = s.regs.modeCtrl ∧ c.id = s.nextId ∧
        c.commits = [] ∧
        (∀ st dt, validate (stamp s t) ⟨ringFn s r, r, c.packet, s.regs.modeCtrl⟩ = (st, dt) →
          let late : Prop := pktAbortOnLate c = true ∧ pktDeadline c ≠ 0 ∧ pktDeadline c ≤ max s.now t
          (st ≠ 0 → (st = 0x23 → ¬ late) → c.phase = .executed ∧ c.status = st ∧ c.detail = dt ∧ c.fixed = none) ∧
          (st = 0 ∨ st = 0x23 → late →
            c.phase = .executed ∧ c.status = 0x40 ∧ c.detail = 1 ∧ c.fixed = some (max s.now t)) ∧
          (st = 0 → ¬ late → pktOp c = 0x73 → pkt c 0x20 8 ≤ max s.now t →
            c.phase = .executed ∧ c.status = 0 ∧ c.late = true ∧ c.fixed = some (max s.now t)) ∧
          (st = 0 → ¬ late → (pktOp c = 0x73 → max s.now t < pkt c 0x20 8) →
            c.phase = .held ∧ c.status = 0 ∧ c.late = false ∧ c.fixed = none)) ∧
        ringOf u r = takeEntry (ringOf s r) i ∧
        (i = (ringOf s r).sqHead → (ringOf s r).taken = [] →
          ringOf u r = { ringOf s r with sqHead := (i + 1) % sqEntries (ringOf s r) }) ∧
        (∀ q, q ≠ r → ringOf u q = ringOf s q) ∧ u.power.idle = 0 ∧
        { u with
          now := s.now, cmds := s.cmds, nextId := s.nextId, rings := s.rings, served := s.served, links := s.links
          power := s.power, vault := s.vault } = s)

/-- COMMAND_START. A held command that no hold keeps back starts on the tick, with the overhang allowance of the links trained
then (R268); nothing else changes but what the held step commands wait for: with two step commands in flight, the older (R35).
A LOAD_MODEL that no placement fits ends NO_CAPACITY, another reserves its placement (R263); a held ABORT_ON_LATE command whose
DEADLINE has come ends ABORTED instead (R299). Kept back are: a step command while an earlier one shares a stream, while two are
in flight, or until the older of two has its record (R35, R45); a stream command while a step in flight names its stream (R45);
whatever comes after a FENCE of its scope, a LAUNCH_AT of its ring, a BARRIER or a SET_MODE; a SET_MODE behind any earlier
command (Table CMD-13). -/
def Obligations.HeldCommandStarts : Prop :=
  ∀ (s : State) (id : Nat) (c : Cmd) (t : Tick), cmdOf s id = some c → s.regs.ready = true →
    let T := max s.now t
    let late : Prop := c.phase = .held ∧ canAbort c = true ∧ pktAbortOnLate c = true ∧ pktDeadline c ≠ 0 ∧ pktDeadline c ≤ T
    let go (f : Cmd → Cmd) : State := { s with now := T, cmds := s.cmds.map fun d => if d.id == id then f d else d }
    let wait (u : State) (o : Option Nat) : State := { u with cmds := u.cmds.map fun d =>
      match o with
      | some n => if d.phase == .held && isStepOp (pktOp d) then { d with behind := some n } else d
      | none => d }
    let starts (l : List Nat) : Prop :=
      let u := go fun d => { d with phase := .started, start := T, began := true, hang := hangTicks s c, reserved := l }
      ∃ o, exec (.commandStart id t) s = .next (wait u o) ∧ (stepsInFlight u < 2 → o = none) ∧
        (∀ a b, stepsFlying u = [a, b] → a.start ≤ b.start → o = some a.id) ∧
        (∀ a b, stepsFlying u = [a, b] → b.start < a.start → o = some b.id)
    (mayStart s c = true → ¬ late → pktOp c ≠ 0x10 → starts []) ∧
    (mayStart s c = true → ¬ late → pktOp c = 0x10 → ∀ l, reserveLoad s (paramBytes s c) (pktModel c) = some l → starts l) ∧
    (mayStart s c = true → ¬ late → pktOp c = 0x10 → reserveLoad s (paramBytes s c) (pktModel c) = none →
      exec (.commandStart id t) s = .next (go fun d =>
        { d with phase := .executed, start := T, status := 0x30, began := true })) ∧
    (late → exec (.commandStart id t) s = .next (go fun d =>
      { d with
        phase := .executed, status := 0x40, detail := 1, commits := [], fixed := some (landing s (pktDeadline c))
        reserved := [] })) ∧
    (mayStart s c = false → ¬ late → exec (.commandStart id t) s = .next (stamp s t)) ∧
    (c.phase = .held → c.behind = none → s.cmds = [c] → s.quiet = .none → s.shutdown = .none → s.loss = .none →
      pktOp c ≠ 0x10 → mayStart s c = true) ∧
    (c.phase ≠ .held → mayStart s c = false) ∧
    (pktOp c ≠ 0x7F → ∀ d ∈ s.cmds, d.id < c.id →
      (isStepOp (pktOp d) = true ∧ isStepOp (pktOp c) = true ∧ (∃ p ∈ c.ctxs, ∃ q ∈ d.ctxs, p.1 = q.1)) ∨
      (pktOp d = 0x02 ∧ ((pkt d 0x20 1 = 0 ∧ d.ring = c.ring) ∨ (pkt d 0x20 1 ≠ 0 ∧ d.fn = c.fn))) ∨
      (pktOp d = 0x73 ∧ d.ring = c.ring ∧ d.phase ≠ .executed) ∨ pktOp d = 0x72 ∨ pktOp d = 0x70 ∨ pktOp c = 0x70 →
      mayStart s c = false) ∧
    (∀ d ∈ s.cmds, isStepOp (pktOp d) = true → d.began = true → d.phase ≠ .held → holdsForStep (pktOp c) = true →
      (∃ p ∈ d.ctxs, p.1 ∈ cmdStreams s c) → mayStart s c = false) ∧
    (isStepOp (pktOp c) = true →
      2 ≤ (s.cmds.filter fun d => isStepOp (pktOp d) && d.began && d.phase != .held).length ∨
        (∃ o, c.behind = some o ∧ ∃ d ∈ s.cmds, d.id = o) → mayStart s c = false)

/-- COMPLETION_RECORD_WRITE. The 32 bytes of Table CMD-6 go to the next slot of the command's CQ: TAG, RING, INDEX, STATUS,
the ring's phase, COMPL_FLAGS, DETAIL, ACCEPT_TICK, COMPLETE_TICK; no other byte of host memory changes. CQ_TAIL advances and
the phase flips where it wraps (R278); the command leaves; every other ring stays, and every other command but for what a held one follows (R36) and when it was
freed (R366). -/
def Obligations.CompletionRecordWritten : Prop :=
  ∀ (s : State) (id : Nat) (c : Cmd) (t : Tick), memoriesWf s = true → recordDue s id c (max s.now t) →
    let x := ringOf s c.cq
    let T := max s.now t
    let a := cqBase x + 32 * x.cqTail
    let tail := (x.cqTail + 1) % cqEntries x
    let bs := leBytes 4 (pktTag c) ++ leBytes 2 (fnRing s c.fn c.ring) ++ leBytes 2 c.index ++ leBytes 1 (finalStatus c T) ++
      leBytes 1 (b2n x.phase) ++ leBytes 2 (complFlags c T) ++ leBytes 4 c.detail ++ leBytes 8 c.accept ++ leBytes 8 T
    ∃ u, exec (.completionRecordWrite id t) s = .next u ∧ bs.length = 32 ∧ hostBytes u a 32 = bs ∧
      sameOutside [(a, 32)] s u ∧ u.now = T ∧ (∃ f, followsOnly f ∧ u.cmds = (s.cmds.map f).filter (fun d => d.id != id)) ∧
      { ringOf u c.cq with coal := x.coal, oldest := x.oldest } =
        { x with
          cqTail := tail, phase := if tail = 0 then !x.phase else x.phase, written := x.written + 1
          records := x.records ++ [(x.cqTail, T, bs)] } ∧
      (∀ q, q ≠ c.cq → ringOf u q = ringOf s q)

/-- On the tick of its record, a command's staged effect is in the state, and no stream it does not name changes (R64, R239):
a step sets STEP to its S0 plus its advance and appends its tokens to a valid history (R65, R218, R242); an opened stream
is as opened; a closed one is all 0, its bias list, its contexts in the save slots and its replay records gone (R238); a history is replaced; MODE_CTRL and the
cap, WAKE_TOLERANCE, a model's PRIORITY, an unloaded model, a mask-bank entry and a function slot are as the command gave
them (R248, R264, R265, R332, R341, R342). -/
def Obligations.RecordAppliesStagedEffect : Prop :=
  ∀ (s : State) (id : Nat) (c : Cmd) (t : Tick) (k : Commit), recordDue s id c (max s.now t) → c.commits = [k] →
    ∃ u, exec (.completionRecordWrite id t) s = .next u ∧
      (∀ sid base toks adv, k = .step sid base toks adv none → (streamOf s sid).isOpen = true → (streamOf s sid).histValid = true →
        (streamOf s sid).hist.length + toks.length ≤ 4096 →
        streamOf u sid = { streamOf s sid with
          step := base + adv, hist := (streamOf s sid).hist ++ toks
          histHead := ((streamOf s sid).histHead + toks.length) % 4096 } ∧
        ∀ j, j ≠ sid → streamOf u j = streamOf s j) ∧
      (∀ sid st, k = .openStream sid st → streamOf u sid = st ∧ mapGet [] u.vault.bias sid = st.bias ∧
        ∀ j, j ≠ sid → streamOf u j = streamOf s j) ∧
      (∀ sid, k = .closeStream sid → streamOf u sid = Stream.closed ∧ mapGet [] u.vault.bias sid = [] ∧
        (∀ p ∈ u.vault.slotA.contexts ++ u.vault.slotB.contexts, p.1 ≠ sid) ∧ (∀ r ∈ u.audited, r.sid ≠ sid) ∧ ∀ j, j ≠ sid → streamOf u j = streamOf s j) ∧
      (∀ sid toks, k = .history sid 0 toks →
        streamOf u sid =
          { streamOf s sid with hist := toks, histHead := toks.length % 4096, histValid := true } ∧
        ∀ j, j ≠ sid → streamOf u j = streamOf s j) ∧
      (∀ mask value cap, k = .mode mask value cap →
        (∀ b, b < 32 → b ≠ 1 → u.regs.modeCtrl.getLsbD b =
          if mask.getLsbD b then value.getLsbD b else s.regs.modeCtrl.getLsbD b) ∧
        (u.regs.modeCtrl.getLsbD 1 = ((if mask.getLsbD 1 then value.getLsbD 1 else s.regs.modeCtrl.getLsbD 1) ||
          u.regs.modeCtrl.getLsbD 0)) ∧
        u.power.cap = cap.getD s.power.cap ∧ u.streams = s.streams) ∧
      (∀ us, k = .wake us → u.regs.wakeTolerance = us ∧ u.streams = s.streams) ∧
      (∀ mid p, k = .priority mid p → u.models = s.models.map (fun m =>
        if m.1 == mid then (m.1, { m.2 with priority := p }) else m) ∧ u.streams = s.streams) ∧
      (∀ mid, k = .unloadModel mid → u.models = mapDel s.models mid ∧ u.vault.models = mapDel s.vault.models mid ∧
        u.streams = s.streams) ∧
      (∀ e m, k = .mask e (some m) → mapGet ⟨0, 0⟩ u.masks e = m ∧ mapGet ⟨0, 0⟩ u.vault.masks e = m ∧
        (∀ j, j ≠ e → mapGet ⟨0, 0⟩ u.masks j = mapGet ⟨0, 0⟩ s.masks j) ∧ u.streams = s.streams) ∧
      (∀ slot im, k = .function slot im → mapGet [] u.functions slot = im ∧ mapGet [] u.vault.functions slot = im ∧
        u.streams = s.streams)

/-- CQ_COALESCE_DELAY: where DELAY µs have passed since the oldest record written after the last message, the CQ's vector
goes out and both counts restart; otherwise only the counter advances (R305). A vector that the MSI-X table masks stays
pending (log entry 14). -/
def Obligations.CoalescedInterruptGoesOut : Prop :=
  ∀ (s : State) (r : Nat) (t t0 : Tick), (ringOf s r).oldest = some t0 →
    let x := ringOf s r
    let delay := bits x.coalesce.toNat 31 16
    let v := bits x.vector.toNat 8 0
    (ringIrq x = true → delay ≠ 0 → t0 + ticksUs s delay ≤ max s.now t →
      ∃ u, exec (.cqCoalesceDelay r t) s = .next u ∧ ringOf u r = { x with coal := 0, oldest := none } ∧
        (∀ q, q ≠ r → ringOf u q = ringOf s q) ∧
        (msixMasked s (ringFn s r) v = false → u.regs.msi = (ringFn s r, v) :: s.regs.msi) ∧
        (msixMasked s (ringFn s r) v = true → u.regs.msi = s.regs.msi ∧ 512 * ringFn s r + v ∈ u.regs.msixPending) ∧
        { u with
          now := s.now, rings := s.rings
          regs := { u.regs with msi := s.regs.msi, msixPending := s.regs.msixPending } } = s) ∧
    (ringIrq x = false ∨ delay = 0 ∨ max s.now t < t0 + ticksUs s delay →
      exec (.cqCoalesceDelay r t) s = .next (stamp s t))

/-- DEADLINE_EXPIRY: a command with ABORT_ON_LATE and a DEADLINE, not complete, ends ABORTED with DETAIL 1 on that tick, or on
the next one where the counter skips it (R367), its commits discarded and its barrier ended, unless it has started and is one
of R301 (R299). WATCHDOG_EXPIRY: a started command that R428 watches ends WATCHDOG where its count has reached its budget, the
ticks in RETRY left out, its commits discarded; the lead's watchdog counter goes up; every core that had not delivered is to
be tested (R429). Before that the counter only advances. -/
def Obligations.DeadlineAndWatchdogEndCommands : Prop :=
  ∀ (s : State) (id : Nat) (c : Cmd), cmdOf s id = some c → isFailure c.status = false →
    let ended (now : Tick) (st dt : Nat) (fx : Option Tick) : State :=
      { s with
        now := now, cmds := s.cmds.map fun d => if d.id == id then
          { d with
            phase := .executed, status := st, detail := dt, commits := [], fixed := fx, reserved := [] } else d }
    let D := landing s (pktDeadline c)
    (pktAbortOnLate c = true → pktDeadline c ≠ 0 → (c.began = false ∨ onlyHeldAbort (pktOp c) = false) →
      exec (.deadlineExpiry id) s = .next { ended (max s.now D) 0x40 1 (some D) with
        barrierSt := s.barrierSt.filter fun b => b.id != id } ∧
      (D = pktDeadline c ∨ D = pktDeadline c + 1) ∧ (s.tmc.1 ≤ 0 → D = pktDeadline c)) ∧
    (pktAbortOnLate c = false ∨ pktDeadline c = 0 ∨ (c.began = true ∧ onlyHeldAbort (pktOp c) = true) →
      exec (.deadlineExpiry id) s = .next s) ∧
    ∀ (stuck : List (Nat × Nat)) (t : Tick), watched (pktOp c) = true → c.phase ≠ .held → s.loss = .none →
      let limit := c.start + watchdogBudget s c + skipTicks (stamp s t) c
      (limit ≤ max s.now t → ∃ u, exec (.watchdogExpiry id stuck t) s = .next u ∧
        u.cmds = (ended (max s.now t) 0x41 0 none).cmds ∧ u.totals = modNth s.totals 26 (fun v => min 0xFFFFFFFF (v + 1)) ∧
        (∀ p ∈ stuck, p.1 < s.chips.length → p.2 < (chipOf s p.1).cores.length →
          (nth (Core.fresh p.2) (chipOf u p.1).cores p.2).test = true) ∧
        { u with now := s.now, cmds := s.cmds, totals := s.totals, chips := s.chips } = s) ∧
      (max s.now t < limit → exec (.watchdogExpiry id stuck t) s = .next (stamp s t))

/-! ## Ordering and mode commands -/

/-- NOP, FENCE, SET_WAKE_TOLERANCE once started (R342, Table CMD-13). NOP ends OK and has no effect; FENCE ends OK once no
earlier command of its ring (scope 0) or function (scope 1) is left, and waits until then; SET_WAKE_TOLERANCE stages its
value for its record. Nothing but the command changes. -/
def Obligations.NopFenceAndWakeToleranceRun : Prop :=
  ∀ (s : State) (id : Nat) (c : Cmd),
    (startedCmd s id 0x01 = some c → ∃ u, exec (.nop id) s = .next u ∧ ranTo s u id 0 0 0 [] ∧ { u with cmds := s.cmds } = s) ∧
    (startedCmd s id 0x71 = some c → ∃ u, exec (.setWakeTolerance id) s = .next u ∧
      ranTo s u id 0 0 0 [.wake (BitVec.ofNat 32 (pkt c 0x20 4))] ∧ { u with cmds := s.cmds } = s) ∧
    (startedCmd s id 0x02 = some c →
      ((∀ d ∈ s.cmds, d.id < c.id → ¬ (if pkt c 0x20 1 = 0 then d.ring = c.ring else d.fn = c.fn)) →
        ∃ u, exec (.fence id) s = .next u ∧ ranTo s u id 0 0 0 [] ∧ { u with cmds := s.cmds } = s) ∧
      ((∃ d ∈ s.cmds, d.id < c.id ∧ (if pkt c 0x20 1 = 0 then d.ring = c.ring else d.fn = c.fn)) →
        exec (.fence id) s = .next s))

/-- R341. SET_MODE starts only when no earlier command of any function is left. It is refused with BAD_PARAM, changing
nothing, where it would change LOCKSTEP while a model is not unloaded, would leave STRICT with FLUSH ON, LOCKSTEP with ORDER_MODE 0 (R390), or a
reserved code 3 in FLUSH, NZ or POWER_PROFILE (R14, Table CMD-19). Otherwise, on the
tick of its record, MODE_CTRL takes MODE_VALUE in the bits MODE_MASK selects, the cap its value where CAP_VALID is set; with
MODE_MASK 0 and CAP_VALID clear both stay; clearing DETERMINISTIC leaves ORDER_MODE at FIXED unless it writes ORDER_MODE 0. -/
def Obligations.SetModeChangesSelectedBits : Prop :=
  ∀ (s : State) (id : Nat) (c : Cmd), modeWf s = true →
    (pktOp c = 0x70 → (∃ d ∈ s.cmds, d.id < c.id) → mayStart s c = false) ∧
    (startedCmd s id 0x70 = some c → recordReady s c →
      let mask := BitVec.ofNat 32 (pkt c 0x20 4)
      let value := BitVec.ofNat 32 (pkt c 0x24 4)
      let w := s.regs.modeCtrl
      let v := newMode w mask value
      let refused : Prop := (modeLock v ≠ modeLock w ∧ s.models ≠ []) ∨ (modeNum v = 1 ∧ modeFlush v = 2) ∨
        (modeLock v = true ∧ v.getLsbD 1 = false) ∨ modeFlush v = 3 ∨ modeNz v = 3 ∨ modeProfile v = 3
      (refused →
        ∃ u, exec (.setMode id) s = .next u ∧ ranTo s u id 0x20 0x24 0 [] ∧ { u with cmds := s.cmds } = s) ∧
      (¬ refused →
        ∃ u, exec (.setMode id) s = .next u ∧ u.regs = s.regs ∧ u.power = s.power ∧
          ∀ t, ∃ x, exec (.completionRecordWrite id t) u = .next x ∧
            (∀ b, b < 32 → b ≠ 1 → x.regs.modeCtrl.getLsbD b = if mask.getLsbD b then value.getLsbD b else w.getLsbD b) ∧
            (x.regs.modeCtrl.getLsbD 1 = ((if mask.getLsbD 1 then value.getLsbD 1 else w.getLsbD 1) ||
              x.regs.modeCtrl.getLsbD 0)) ∧
            (w.getLsbD 0 = true → mask.getLsbD 1 = false → x.regs.modeCtrl.getLsbD 1 = true) ∧
            (mask = 0#32 → x.regs.modeCtrl = w) ∧
            x.power.cap = (if (pkt c 0x2A 1) % 2 = 1 then pkt c 0x28 2 else s.power.cap)))

/-- BARRIER and what follows it (R365, Table CMD-13): a started BARRIER opens a barrier with no arrivals; an active chip
arrives once every earlier command has run; when all active chips have, the release tick is the largest arrival stamp plus
2,048 ticks at PLAN_A; on it, or on the next tick where the counter skips it (R367), the BARRIER ends OK, every earlier
command complete. -/
def Obligations.BarrierReleasesOnOneTick : Prop :=
  ∀ (s : State) (id : Nat),
    (∀ c t, startedCmd s id 0x72 = some c → s.barrierSt = none →
      exec (.barrier id t) s = .next { s with now := max s.now t, barrierSt := some ⟨id, [], none⟩ }) ∧
    (∀ chip t l, s.barrierSt = some ⟨id, l, none⟩ → (chipOf s chip).active = true → (∀ a ∈ l, a.1 ≠ chip) →
      (∀ d ∈ s.cmds, d.id < id → d.phase = .executed) →
      ∃ r, exec (.barrierArrival id chip t) s =
          .next { s with now := max s.now t, barrierSt := some ⟨id, l ++ [(chip, t)], r⟩ } ∧
        ((∃ c, c < 8 ∧ (chipOf s c).active = true ∧ ∀ a ∈ l ++ [(chip, t)], a.1 ≠ c) → r = none) ∧
        ((∀ c, c < 8 → (chipOf s c).active = true → ∃ a ∈ l ++ [(chip, t)], a.1 = c) →
          ∃ m, r = some (m + ticksA s 2048) ∧ (∀ a ∈ l ++ [(chip, t)], a.2 ≤ m) ∧ ∃ a ∈ l ++ [(chip, t)], a.2 = m)) ∧
    (∀ c l r, startedCmd s id 0x72 = some c → s.barrierSt = some ⟨id, l, some r⟩ → (∀ d ∈ s.cmds, ¬ d.id < id) →
      let r' := landing s r
      (r' = r ∨ r' = r + 1) ∧ (s.tmc.1 ≤ 0 → r' = r) ∧
      exec (.barrierRelease id) s = .next { s with
        now := max s.now r', barrierSt := none, cmds := s.cmds.map fun d => if d.id == id then
          { d with phase := .executed, status := 0, detail := 0, commits := [], fixed := some r' } else d })

/-- LAUNCH_AT waits for its tick; started with its tick gone by, it ends at once. LAUNCH_TICK: it completes on that tick, or
on the first one after it (R367); the next command of its ring starts on the same tick, by COMMAND_START, where it was accepted
and free of earlier commands 4,800 ticks before, and otherwise waits for its own event (R297, R366). -/
def Obligations.LaunchFiresOnItsTick : Prop :=
  ∀ (s : State) (id : Nat) (c : Cmd), startedCmd s id 0x73 = some c →
    let L := landing s (pkt c 0x20 8)
    let T := max s.now L
    let v := { s with
      now := T, cmds := s.cmds.map fun d => if d.id == id then
        { d with phase := .executed, status := 0, detail := 0, commits := [], fixed := some T } else d }
    (L = pkt c 0x20 8 ∨ L = pkt c 0x20 8 + 1) ∧ (s.tmc.1 ≤ 0 → L = pkt c 0x20 8) ∧
    (pkt c 0x20 8 ≤ s.now → ∃ u, exec (.launchAt id) s = .next u ∧ ranTo s u id 0 0 0 [] ∧ { u with cmds := s.cmds } = s) ∧
    (s.now < pkt c 0x20 8 → exec (.launchAt id) s = .next s) ∧
    ((∀ d ∈ s.cmds, d.ring = c.ring → d.id ≤ c.id) → exec (.launchTick id) s = .next v) ∧
    (∀ d, (s.cmds.filter fun d => d.ring == c.ring).find? (fun d => decide (c.id < d.id)) = some d →
      (max d.accept d.freed + ticksA s 4800 ≤ T → exec (.launchTick id) s = exec (.commandStart d.id T) v) ∧
      (T < max d.accept d.freed + ticksA s 4800 → exec (.launchTick id) s = .next v))

/-- ABORT: the commands of its function that it names, accepted before its stamp, not complete, not yet started where R301 asks
for it, and with no boundary of their own come by its stamp (a launch, release, deadline or watchdog tick, R364), end ABORTED
with their commits discarded, DETAIL 0 for one named by tag and 2 otherwise; their records come after its stamp. It ends OK
itself; DETAIL [15:0] counts them and [31:16] is 0 where it ended some, 3 where one could not be ended any more, 1 where one was
complete, else 2 (R300, R301). No other command changes. -/
def Obligations.AbortEndsItsTargets : Prop :=
  ∀ (s : State) (id : Nat) (a : Cmd), startedCmd s id 0x7F = some a →
    let named (d : Cmd) : Bool := d.fn == a.fn && pktOp d != 0x7F && decide (d.accept < a.accept) &&
      abortReaches s a d.ring (pktTag d)
    let came (d : Cmd) : Bool := boundaryCame s d a.accept
    let hit := s.cmds.filter fun d =>
      named d && (yieldsToAbort d.status && (!d.began || !onlyHeldAbort (pktOp d)) && !came d)
    ∃ u o, exec (.abort id) s = .next u ∧
      u.cmds = s.cmds.map (fun d =>
        let e := if (hit.any fun h => h.id == d.id) then
          { d with
            phase := .executed, status := 0x40, detail := if pkt a 0x22 1 = 0 then 0 else 2, commits := [], fixed := none
            reserved := [], notBefore := a.accept + 1 } else d
        if e.id == id then
          { e with
            phase := .executed, status := 0, detail := min 0xFFFF hit.length + 65536 * o, commits := [] } else e) ∧
      u.barrierSt = (s.barrierSt.filter fun b => !(hit.any fun h => h.id == b.id)) ∧
      (hit ≠ [] → o = 0) ∧
      (hit = [] → (∃ d ∈ s.cmds, named d = true ∧ isFailure d.status = false ∧ came d = false) → o = 3) ∧
      (hit = [] → (∀ d ∈ s.cmds, named d = true → isFailure d.status = true ∨ came d = true) →
        ((∃ d ∈ s.cmds, named d = true) ∨ ∃ p ∈ s.done, abortReaches s a p.1 p.2 = true) → o = 1) ∧
      (hit = [] → (∀ d ∈ s.cmds, named d = false) → (∀ p ∈ s.done, abortReaches s a p.1 p.2 = false) → o = 2) ∧
      { u with cmds := s.cmds, barrierSt := s.barrierSt } = s

/-! ## Streams -/

/-- OPEN_STREAM on a closed stream, and SET_STREAM_PARAMS on an open one that keeps the limits, end OK and stage a context:
every field from the block with OPEN and HISTORY_VALID set and an empty history (R237), or the fields UPDATE_MASK selects.
OPEN_STREAM of an open stream is BAD_PARAM. Nothing but the command changes before its record (R64). -/
def Obligations.OpenAndSetParamsStageContext : Prop :=
  ∀ (s : State) (id : Nat) (c : Cmd), hostFine s = true →
    let b := hostBytes s (pktParam c) (pktParamLen c)
    let sid := pkt c 0x20 2
    let bias := parsePairs (hostBytes s (fieldAt b 0x70 8) (8 * fieldAt b 0x3C 2)) (fieldAt b 0x3C 2)
    (startedCmd s id 0x20 = some c → (streamOf s sid).isOpen = false →
      ∃ u st, exec (.openStream id) s = .next u ∧ ranTo s u id 0 0 0 [.openStream sid st] ∧ { u with cmds := s.cmds } = s ∧
        st.isOpen = true ∧ st.histValid = true ∧ st.hist = [] ∧ st.histHead = 0 ∧ st.seed = qword b 0 ∧
        st.step = fieldAt b 0x10 6 ∧ st.window = fieldAt b 0x1A 2 ∧ st.topK = fieldAt b 0x1C 4 ∧
        st.temp = posZero (word32 b 0x20) ∧ st.minP = word32 b 0x24 ∧ st.topP = word32 b 0x28 ∧
        st.softCap = posZero (word32 b 0x2C) ∧ st.rep = word32 b 0x30 ∧ st.pres = posZero (word32 b 0x34) ∧
        st.freq = posZero (word32 b 0x38) ∧ st.bias = bias ∧ st.maskSpec = fieldAt b 0x40 8 ∧ st.ring = qword b 0x48 ∧
        st.ringBound = decide (qword b 0x48 ≠ 0#128) ∧ st.userTag = fieldAt b 0x60 8 ∧
        st.modes = (substModes (fieldAt b 0x19 1) (bit (fieldAt b 0x6C 1) 0) c.modeCtrl +
          32 * b2n (modesCompat (fieldAt b 0x19 1))) % 64 + 64 * modesCut (fieldAt b 0x19 1)) ∧
    (startedCmd s id 0x20 = some c → (streamOf s sid).isOpen = true →
      ∃ u, exec (.openStream id) s = .next u ∧ ranTo s u id 0x20 0x20 0 [] ∧ { u with cmds := s.cmds } = s) ∧
    (startedCmd s id 0x22 = some c → (streamOf s sid).isOpen = true → modesCompat (fieldAt b 0x19 1) = false →
      bit (fieldAt b 0x68 4) 2 = false → bit (fieldAt b 0x68 4) 4 = false → bit (fieldAt b 0x68 4) 7 = false →
      (∀ p ∈ limitChecks (applyParams (streamOf s sid) b (bit (fieldAt b 0x68 4)) c.modeCtrl []) (bit (fieldAt b 0x68 4)),
        p.2 = true) →
      ∃ u, exec (.setStreamParams id) s = .next u ∧ ranTo s u id 0 0 0 [.setParams sid b c.modeCtrl []] ∧
        { u with cmds := s.cmds } = s ∧
        let st := applyParams (streamOf s sid) b (bit (fieldAt b 0x68 4)) c.modeCtrl []
        let set (n : Nat) : Bool := bit (fieldAt b 0x68 4) n
        st = { streamOf s sid with
          seed := if set 0 then qword b 0 else (streamOf s sid).seed
          step := if set 1 then fieldAt b 0x10 6 else (streamOf s sid).step
          temp := if set 3 then posZero (word32 b 0x20) else (streamOf s sid).temp
          softCap := if set 5 then posZero (word32 b 0x2C) else (streamOf s sid).softCap
          rep := if set 6 then word32 b 0x30 else (streamOf s sid).rep
          pres := if set 6 then posZero (word32 b 0x34) else (streamOf s sid).pres
          freq := if set 6 then posZero (word32 b 0x38) else (streamOf s sid).freq
          window := if set 6 then fieldAt b 0x1A 2 else (streamOf s sid).window
          maskSpec := if set 8 then fieldAt b 0x40 8 else (streamOf s sid).maskSpec
          ring := if set 9 then qword b 0x48 else (streamOf s sid).ring
          ringBound := if set 9 then decide (qword b 0x48 ≠ 0#128) else (streamOf s sid).ringBound
          userTag := if set 10 then fieldAt b 0x60 8 else (streamOf s sid).userTag })

/-- R238. A CLOSE_STREAM that has started, on an open stream, and then its record: the context, the bias list and the history
are zero, and the vault's bias list and saved contexts with them; the mask bank, every other stream and the models are as before. On a closed
stream it is BAD_PARAM and changes nothing. -/
def Obligations.CloseStreamClearsContext : Prop :=
  ∀ (s : State) (id : Nat) (c : Cmd), startedCmd s id 0x21 = some c → recordReady s c →
    ((streamOf s (pkt c 0x20 2)).isOpen = true →
      ∃ u, exec (.closeStream id) s = .next u ∧ { u with cmds := s.cmds } = s ∧
        ∀ t, ∃ x, exec (.completionRecordWrite id t) u = .next x ∧
          streamOf x (pkt c 0x20 2) =
            ⟨0#128, 0, false, false, false, 0, 0, 0, 0#32, 0#32, 0#32, 0#32, 0#32, 0#32, 0#32, [], 0, 0#128, 0, [], 0⟩ ∧
          mapGet [] x.vault.bias (pkt c 0x20 2) = [] ∧
          (∀ p ∈ x.vault.slotA.contexts ++ x.vault.slotB.contexts, p.1 ≠ pkt c 0x20 2) ∧ x.masks = s.masks ∧ x.vault.masks = s.vault.masks ∧
          x.models = s.models ∧ ∀ j, j ≠ pkt c 0x20 2 → streamOf x j = streamOf s j) ∧
    ((streamOf s (pkt c 0x20 2)).isOpen = false →
      ∃ u, exec (.closeStream id) s = .next u ∧ ranTo s u id 0x20 0x20 0 [] ∧ { u with cmds := s.cmds } = s)

/-- REBUILD_HISTORY in either mode stages its tokens, read from the block as u32 values, oldest first; APPEND on a stream
whose HISTORY_VALID is clear is BAD_PARAM (R244). RESTORE_STREAM of an image that passes every check, on a closed stream,
stages the context the image holds, −0.0 stored as +0.0 (R235), and clears the stream's replay records (R250); an image that fails is BAD_PARAM and leaves
the stream closed. -/
def Obligations.RebuildAndRestoreStageHistory : Prop :=
  ∀ (s : State) (id : Nat) (c : Cmd), hostFine s = true →
    let b := hostBytes s (pktParam c) (pktParamLen c)
    let sid := pkt c 0x20 2
    (startedCmd s id 0x23 = some c → (streamOf s sid).isOpen = true →
      (pkt c 0x22 1 ≠ 1 ∨ (streamOf s sid).histValid = true →
        ∃ u, exec (.rebuildHistory id) s = .next u ∧
          ranTo s u id 0 0 0 [.history sid (pkt c 0x22 1) ((List.range (pkt c 0x24 4)).map fun i => fieldAt b (4 * i) 4)] ∧
          { u with cmds := s.cmds } = s) ∧
      (pkt c 0x22 1 = 1 → (streamOf s sid).histValid = false →
        ∃ u, exec (.rebuildHistory id) s = .next u ∧ ranTo s u id 0x20 0x22 0 [] ∧ { u with cmds := s.cmds } = s)) ∧
    (startedCmd s id 0x25 = some c → (streamOf s sid).isOpen = false →
      ((∀ p ∈ imageChecks b, p.2 = true) →
        let st := imageStream b
        ∃ u, exec (.restoreStream id) s = .next u ∧ { u with cmds := s.cmds } = s ∧
          ranTo s u id 0 0 0 [.openStream sid { st with
            temp := posZero st.temp, softCap := posZero st.softCap, pres := posZero st.pres, freq := posZero st.freq },
            .clearAudit sid]) ∧
      ((∃ p ∈ imageChecks b, p.2 = false) →
        ∃ u d, exec (.restoreStream id) s = .next u ∧ ranTo s u id 0x20 d 0 [] ∧ { u with cmds := s.cmds } = s))

/-- SAVE_STREAM of an open stream, with a link trained, ends OK: the 18,960 bytes at IMAGE_ADDR are the context with its
CTX_CHECK, the bias list, the history where WITH_HISTORY asks for it, and IMAGE_CHECK (Table STRM-7); no other byte of host
memory changes and the stream stays as it is (R249). -/
def Obligations.SaveStreamWritesImage : Prop :=
  ∀ (s : State) (id : Nat) (c : Cmd), memoriesWf s = true → trainedLinks s ≠ [] → startedCmd s id 0x24 = some c →
    (streamOf s (pkt c 0x20 2)).isOpen = true → (streamOf s (pkt c 0x20 2)).bias.length ≤ 256 →
    (streamOf s (pkt c 0x20 2)).hist.length ≤ 4096 →
    let st := streamOf s (pkt c 0x20 2)
    let full := bit (pkt c 0x22 1) 0
    let st' := if full then { st with histHead := st.hist.length % 4096 }
      else { st with hist := [], histHead := 0, histValid := false }
    let body := ctxBytes (pkt c 0x20 2) st' ++ padTo 2048 (biasBytes st.bias) ++
      padTo 16384 (if full then st.hist.flatMap (leBytes 4) else [])
    ∃ u, exec (.saveStream id) s = .next u ∧ ranTo s u id 0 0 0 [] ∧ body.length = 0x4A00 ∧
      hostBytes u (pktParam c) 18960 = body ++ leBytes 4 (crc32c body) ++ leBytes 12 0 ∧
      sameOutside [(pktParam c, 18960)] s u ∧ { u with host := s.host, cmds := s.cmds } = s

/-- DECODE AND ENCODE AGREE on stream images. The image that SAVE_STREAM writes WITH_HISTORY for an open stream, its fields
within their widths and in the ranges of Tables STRM-3, DET-11 and R240, passes every check RESTORE_STREAM makes and gives
back the very context, bias list and history, with HIST_HEAD the count mod 4,096 (R249, R250). -/
def Obligations.SavedImageRestoresContext : Prop :=
  ∀ (sid : Nat) (st : Machine.Stream), sid < 65536 → st.isOpen = true → st.step < 2 ^ 48 → st.modes < 256 → st.window < 65536 →
    st.topK < 2 ^ 32 → st.maskSpec < 2 ^ 64 → st.userTag < 2 ^ 64 → st.bias.length ≤ 256 → (∀ p ∈ st.bias, p.1 < 2 ^ 32) →
    st.hist.length ≤ 4096 → (∀ t ∈ st.hist, t < 2 ^ 32) →
    imageStream (imageBytes sid st true) = { st with histHead := st.hist.length % 4096 } ∧
    ((∀ p ∈ paramChecks (ctxBytes sid st) (fun _ => true), p.2 = true) → (∀ p ∈ limitChecks st (fun _ => true), p.2 = true) →
      biasBad st.bias = none → ∀ p ∈ imageChecks (imageBytes sid st true), p.2 = true)

/-! ## Models -/

/-- UNLOAD_MODEL and SET_MODEL_PRIORITY on a model that is held and not suspended end OK and stage their effect; on a suspended
one they end MODEL_SUSPENDED, on one that is not held BAD_PARAM (R264, R265, R271). LOAD_MODEL, started with a placement
reserved, every read succeeding, stages the model: its descriptor, the MODEL_STATE and resident rows reserved, row i the
ROW_BYTES at MATRIX_ADDR + i·ROW_BYTES, its biases, placed on the ranks of now; it ends OK where resident and OK_OVERHANG,
with the granules' number in DETAIL, in overhang; of host memory only overhang images are written (R263, R267). -/
def Obligations.ModelCommandsStage : Prop :=
  ∀ (s : State) (id : Nat) (c : Cmd),
    let mid := pkt c 0x1C 1
    (∀ m, modelOf s mid = some m → m.state ≠ 4 →
      (startedCmd s id 0x11 = some c → ∃ u, exec (.unloadModel id) s = .next u ∧ ranTo s u id 0 0 0 [.unloadModel mid] ∧
        { u with cmds := s.cmds } = s) ∧
      (startedCmd s id 0x12 = some c → ∃ u, exec (.setModelPriority id) s = .next u ∧
        ranTo s u id 0 0 0 [.priority mid (pkt c 0x20 1)] ∧ { u with cmds := s.cmds } = s)) ∧
    (∀ m, modelOf s mid = some m → m.state = 4 →
      (startedCmd s id 0x11 = some c → ∃ u, exec (.unloadModel id) s = .next u ∧ ranTo s u id 0x31 0 0 [] ∧
        { u with cmds := s.cmds } = s) ∧
      (startedCmd s id 0x12 = some c → ∃ u, exec (.setModelPriority id) s = .next u ∧ ranTo s u id 0x31 0 0 [] ∧
        { u with cmds := s.cmds } = s)) ∧
    (modelOf s mid = none →
      (startedCmd s id 0x11 = some c → ∃ u, exec (.unloadModel id) s = .next u ∧ ranTo s u id 0x20 0x1C 0 [] ∧
        { u with cmds := s.cmds } = s) ∧
      (startedCmd s id 0x12 = some c → ∃ u, exec (.setModelPriority id) s = .next u ∧ ranTo s u id 0x20 0x1C 0 [] ∧
        { u with cmds := s.cmds } = s)) ∧
    (hostFine s = true → memoriesWf s = true → startedCmd s id 0x10 = some c → c.reserved.length = 3 →
      let d := hostBytes s (pktParam c) (pktParamLen c)
      ∃ u m, exec (.loadModel id) s = .next u ∧
        (m.state ≠ 3 → ranTo s u id 0 0 0 [.loadModel mid m]) ∧
        (m.state = 3 → ranTo s u id 0x04 (overhangGranules m).length 8 [.loadModel mid m]) ∧
        m.desc = d ∧ some m.state = c.reserved[0]? ∧ some m.resident = c.reserved[1]? ∧ m.priority = fieldAt d 0x14 1 ∧
        m.rows = (List.range (dVocab d)).map (fun i => hostBytes s (fieldAt d 0x18 8 + dRowBytes d * i) (dRowBytes d)) ∧
        (dHasBias d = false → m.bias = none) ∧
        (dHasBias d = true → m.bias = some ((List.range (dVocab d)).map fun i =>
          BitVec.ofNat 32 (leNat (hostBytes s (fieldAt d 0x20 8 + 4 * i) 4)))) ∧
        m.ranks = ranksNow s (modeLock s.regs.modeCtrl) ∧
        sameOutside ((overhangGranules m).map fun g => (imageAddr m g, (granuleImage m g).length)) s u ∧
        { u with host := s.host, cmds := s.cmds } = s)

/-! ## Load, jump and counter commands -/

/-- RING_JUMP on a lane: on the tick of its record lane L of every active chip is its state, with RESET its start (R189),
times x^d mod p_L, and no lane of a lost chip changes. On a stream: RING_STATE is the stream's, or the starting value where
RESET is set or RING_BOUND clear, times x^d mod p_0, and RING_BOUND is set; no other stream changes (R195). -/
def Obligations.RingJumpMovesLanesAndStreams : Prop :=
  ∀ (s : State) (id : Nat) (c : Cmd), hostFine s = true → startedCmd s id 0x47 = some c → recordReady s c →
    let b := hostBytes s (pktParam c) (pktParamLen c)
    let d := qword b 0x10
    let reset := bit (fieldAt b 1 1) 0
    (fieldAt b 0 1 = 0 → ∃ u, exec (.ringJump id) s = .next u ∧ { u with cmds := s.cmds } = s ∧
      ∀ t, ∃ x, exec (.completionRecordWrite id t) u = .next x ∧ x.streams = s.streams ∧
        ∀ k, k < 8 → ∀ l, l < (chipOf s k).lanes.length → k < s.chips.length →
          nth 0#128 (chipOf x k).lanes l =
            if (chipOf s k).active = true ∧ l = fieldAt b 2 1 then
              ringJump (ringMask l) (if reset then laneStart k l else nth 0#128 (chipOf s k).lanes l) d
            else nth 0#128 (chipOf s k).lanes l) ∧
    (fieldAt b 0 1 ≠ 0 → (streamOf s (fieldAt b 4 2)).isOpen = true →
      ∃ u, exec (.ringJump id) s = .next u ∧ { u with cmds := s.cmds } = s ∧
        ∀ t, ∃ x, exec (.completionRecordWrite id t) u = .next x ∧ x.chips = s.chips ∧
          streamOf x (fieldAt b 4 2) = { streamOf s (fieldAt b 4 2) with
            ringBound := true
            ring := ringJump (ringMask 0)
              (if reset = true ∨ (streamOf s (fieldAt b 4 2)).ringBound = false then
                (if (streamOf s (fieldAt b 4 2)).seed = 0#128 then ringBase 0 else (streamOf s (fieldAt b 4 2)).seed)
               else (streamOf s (fieldAt b 4 2)).ring) d } ∧
          ∀ j, j ≠ fieldAt b 4 2 → streamOf x j = streamOf s j)

/-- LOAD_MASK stages its bits, bit i of byte j being index 8j + i, or the freed entry for LENGTH 0, and ends NO_CAPACITY where
the bank would pass 134,217,728 bytes (R248, R333). CLEAR_COUNTERS stages SCOPE and COUNTER_MASK; on the tick of its record
every selected counter of every unit in scope is 0 and no other changes (R340). LOAD_FUNCTION writes REPORT_CODE and the FAIL
fields into its image, and nothing else; an image with report 0 is staged for its slot, another ends BAD_PARAM with the
report in DETAIL (R129, R332). -/
def Obligations.LoadMaskFunctionAndClearCounters : Prop :=
  ∀ (s : State) (id : Nat) (c : Cmd), hostFine s = true →
    let b := hostBytes s (pktParam c) (pktParamLen c)
    (startedCmd s id 0x51 = some c →
      (fieldAt b 4 4 = 0 → ∃ u, exec (.loadMask id) s = .next u ∧ ranTo s u id 0 0 0 [.mask (fieldAt b 0 2) none] ∧
        { u with cmds := s.cmds } = s) ∧
      (fieldAt b 4 4 ≠ 0 → maskBytes s (fieldAt b 0 2) + ceilDiv (fieldAt b 4 4) 8 ≤ 134217728 →
        ∃ u m, exec (.loadMask id) s = .next u ∧ ranTo s u id 0 0 0 [.mask (fieldAt b 0 2) (some m)] ∧
          { u with cmds := s.cmds } = s ∧ m.len = fieldAt b 4 4 ∧
          ∀ i, i < m.len → m.bits.testBit i =
            (memByte s.host (fieldAt b 8 8 + i / 8)).toNat.testBit (i % 8)) ∧
      (fieldAt b 4 4 ≠ 0 → 134217728 < maskBytes s (fieldAt b 0 2) + ceilDiv (fieldAt b 4 4) 8 →
        ∃ u, exec (.loadMask id) s = .next u ∧ ranTo s u id 0x30 0 0 [] ∧ { u with cmds := s.cmds } = s)) ∧
    (startedCmd s id 0x64 = some c → recordReady s c →
      let z (l l' : List Nat) : Prop := l' = (List.range l.length).map fun i =>
        if fieldAt b 4 4 = 0 ∨ bit (fieldAt b 4 4) i = true then 0 else nth 0 l i
      ∃ u, exec (.clearCounters id) s = .next u ∧ { u with cmds := s.cmds } = s ∧
        ∀ t, ∃ x, exec (.completionRecordWrite id t) u = .next x ∧ x.chips.length = s.chips.length ∧
          (if bit (fieldAt b 0 1) 4 then z s.totals x.totals else x.totals = s.totals) ∧
          (∀ k, k < s.chips.length →
            (if bit (fieldAt b 0 1) 2 then z (chipOf s k).hbm (chipOf x k).hbm else (chipOf x k).hbm = (chipOf s k).hbm) ∧
            (if bit (fieldAt b 0 1) 3 then z (chipOf s k).counters (chipOf x k).counters
              else (chipOf x k).counters = (chipOf s k).counters) ∧
            ∀ j, j < (chipOf s k).cores.length →
              let p := nth (Core.fresh j) (chipOf s k).cores j
              let q := nth (Core.fresh j) (chipOf x k).cores j
              (if bit (fieldAt b 0 1) 0 then z p.counters q.counters else q.counters = p.counters) ∧
              { q with counters := p.counters } = p) ∧
          (bit (fieldAt b 0 1) 1 = false → x.mesh = s.mesh) ∧
          (bit (fieldAt b 0 1) 1 = true → x.mesh.map (fun l => l.counters) =
            s.mesh.map fun l => (List.range l.counters.length).map fun i =>
              if fieldAt b 4 4 = 0 ∨ bit (fieldAt b 4 4) i = true then 0 else nth 0 l.counters i)) ∧
    (startedCmd s id 0x50 = some c → memoriesWf s = true →
      ∃ u code, exec (.loadFunction ⟨id, []⟩) s = .next u ∧ memByte u.host (pktParam c + 0x14) = code ∧
        (code = 0#8 → ranTo s u id 0 0 0 [.function (fieldAt b 1 1) b]) ∧
        (code ≠ 0#8 → ranTo s u id 0x20 code.toNat 0 []) ∧
        sameOutside [(pktParam c + 0x14, 1), (pktParam c + 0x18, 12)] s u ∧ { u with host := s.host, cmds := s.cmds } = s)

/-! ## What the audit commands read -/

/-- READ_FLAGS: the 304 bytes at OUT_ADDR are the tick, FLAG_SUMMARY, 4 zeros, and two bytes for each core: 0x80 for a core
fenced or of a lost chip, 0x40 for a spare, else its tile engine's and its SFU's flags; with CLEAR set every flag of a
serving engine is 0 after, otherwise none changes (R107, R338). READ_COUNTERS: the area at OUT_ADDR is the tick, the number
of records and the 8-byte records of the units in SCOPE. READ_DIGESTS from the window: 40 bytes for each (stream, step)
pair, the recorded digests with a 1, or zeros. No other byte of host memory changes. -/
def Obligations.AuditReadsWriteTheirAreas : Prop :=
  ∀ (s : State) (id : Nat) (c : Cmd) (t : Tick), hostFine s = true → memoriesWf s = true →
    let b := hostBytes s (pktParam c) (pktParamLen c)
    let T := max s.now t
    (startedCmd s id 0x62 = some c → ∃ u, exec (.readFlags id t) s = .next u ∧ ranTo s u id 0 0 0 [] ∧
      hostBytes u (fieldAt b 0 8) 16 = leBytes 8 T ++ leBytes 4 s.regs.flagSummary.toNat ++ leBytes 4 0 ∧
      (∀ k j, k < 8 → j < 18 →
        let co := nth (Core.fresh j) (chipOf s k).cores j
        hostBytes u (fieldAt b 0 8 + 16 + 36 * k + 2 * j) 2 =
          if (chipOf s k).active = false ∨ co.role = .fenced then [0x80#8, 0x80#8]
          else if co.role = .spare then [0x40#8, 0x40#8]
          else [co.te.setWidth 8, co.sfu.setWidth 8]) ∧
      sameOutside [(fieldAt b 0 8, 304)] s u ∧
      (bit (fieldAt b 8 1) 0 = false → u.chips = s.chips) ∧
      (bit (fieldAt b 8 1) 0 = true → ∀ k ∈ u.chips, k.active = true → ∀ co ∈ k.cores, co.role = .active →
        co.te = noFlags ∧ co.sfu = noFlags) ∧
      { u with now := s.now, host := s.host, cmds := s.cmds, chips := s.chips } = s) ∧
    (startedCmd s id 0x63 = some c → ∃ u rs, exec (.readCounters id t) s = .next u ∧ ranTo s u id 0 0 0 [] ∧
      rs = allRecords s (fieldAt b 0 1) ∧ (∀ r ∈ rs, r.length = 8) ∧
      hostBytes u (fieldAt b 8 8) (16 + 8 * rs.length) = leBytes 8 T ++ leBytes 4 rs.length ++ leBytes 4 0 ++ rs.flatten ∧
      sameOutside [(fieldAt b 8 8, 16 + 8 * rs.length)] s u ∧
      { u with now := s.now, host := s.host, cmds := s.cmds } = s) ∧
    (startedCmd s id 0x61 = some c → fieldAt b 0 1 = 0 → ∃ u, exec (.readDigests id) s = .next u ∧ ranTo s u id 0 0 0 [] ∧
      (∀ j, j < fieldAt b 4 4 →
        let sid := leNat (hostBytes s (fieldAt b 0x10 8 + 8 * j) 2)
        let stp := leNat (hostBytes s (fieldAt b 0x10 8 + 8 * j + 2) 6)
        hostBytes u (fieldAt b 0x20 8 + 40 * j) 40 =
          match auditRec s sid stp with
          | some (_, r) => slice r.result 0x30 32 ++ leBytes 1 1 ++ leBytes 7 0
          | none => List.replicate 40 0#8) ∧
      sameOutside [(fieldAt b 0x20 8, 40 * fieldAt b 4 4)] s u ∧ { u with host := s.host, cmds := s.cmds } = s)

/-! ## Step commands -/

/-- A step command that runs undisturbed, its streams open, its bank entries loaded, its model held with no overhang (or score
rows given, R43), its output areas apart: it ends OK with the number of streams without a token in DETAIL; its contexts are
cached at their home chips (R227); only its output areas of host memory are written; entry k holds its stream's id and its S0,
the step counter as at acceptance with what earlier steps have committed since (R36, R45, R59); an entry either carries no
token or its token is staged with that S0: STEP, STEP_SCORES and LOOKAHEAD append it and advance the counter by 1, HOST_DRAW
advances only, VERIFY appends up to n + 1 tokens that end in it and advances by their number (R63, R65, R208, R218). Nothing
else is staged but audit marks. -/
def Obligations.StepCommandsWriteAndStage : Prop :=
  ∀ (s : State) (id : Nat) (c : Cmd),
    let n := pkt c 2 2
    let b := hostBytes s (pktParam c) (pktParamLen c)
    let sid (k : Nat) : Nat := fieldAt b (64 * k) 2
    let S0 (k : Nat) : Nat := (mapGet (streamOf s (sid k)) c.ctxs (sid k)).step
    let runs (i : Instr) (stride : Nat) (rule : Nat → Nat → List Nat → Nat → Option Qword → Prop) : Prop :=
      ∃ (u : State) (detail fl : Nat) (cs : Nat → List Commit),
        exec i s = .next u ∧ ranTo s u id 0 detail fl ((List.range n).flatMap cs) ∧ detail ≤ n ∧
        sameOutside (outAreas s c) s u ∧ onlyRan (withContexts s ((List.range n).map sid)) u ∧
        ∀ k, k < n →
          let e := hostBytes u (pkt c 0x20 8 + k * stride) 160
          fieldAt e 0x1C 2 = sid k ∧ fieldAt e 0x20 6 = S0 k % 2 ^ 48 ∧
          (∀ x ∈ cs k, match x with
            | .step j base _ _ _ => j = sid k ∧ base = S0 k
            | .audit j _ _ _ _ _ _ _ _ _ _ _ => j = sid k
            | .clearAudit j => j = sid k
            | _ => False) ∧
          ((fieldAt e 0 4 = 0xFFFFFFFF ∧ ∀ base toks adv ring, Commit.step (sid k) base toks adv ring ∉ cs k) ∨
            ∃ t toks adv ring, Commit.step (sid k) (S0 k) toks adv ring ∈ cs k ∧ fieldAt e 0 4 = t % 2 ^ 32 ∧
              rule (fieldAt b (64 * k + 3) 1) t toks adv ring)
    hostFine s = true → memoriesWf s = true → (∀ k, k < n → (streamOf s (sid k)).isOpen = true) →
    (∀ k, k < n → ∀ spec ∈ entrySpecs s c (entryAt b k), banksHeld s spec = true) →
    ((outAreas s c).Pairwise fun p q => p.1 + p.2 ≤ q.1 ∨ q.1 + q.2 ≤ p.1) → pkt c 0x2A 1 ≤ 4 →
    (takesScores ⟨c.fn, c.ring, c.packet, c.modeCtrl⟩ = true ∨
      ∃ m, modelOf s (pktModel c) = some m ∧ m.state ≠ 4 ∧ overhangGranules m = []) →
    (startedCmd s id 0x30 = some c → runs (.stepCmd id []) 160 fun _ t toks adv _ => toks = [t] ∧ adv = 1) ∧
    (startedCmd s id 0x31 = some c → runs (.stepScores id []) 160 fun _ t toks adv _ => toks = [t] ∧ adv = 1) ∧
    (startedCmd s id 0x32 = some c → runs (.verify id []) 432 fun d t toks adv ring =>
      toks.getLast? = some t ∧ toks.length = adv ∧ 1 ≤ adv ∧ adv ≤ d + 1 ∧ ring = none) ∧
    (startedCmd s id 0x33 = some c → runs (.lookahead id []) 240 fun _ t toks adv _ => toks = [t] ∧ adv = 1) ∧
    (startedCmd s id 0x34 = some c → runs (.hostDraw id []) 192 fun _ _ toks adv ring => toks = [] ∧ adv = 1 ∧ ring = none)

/-- Where a step command's streams get a token, every one of them does. A stream gets one where its step counter is not
exhausted (R66) and its row, as the pipeline makes it from the state, has no NaN among its final scores and one above −inf
(R63, R68; for VERIFY, the rows of all its positions): ROW_STATUS is OK or CAND_TRUNC, TOKEN is the token, a candidate of the
row where it has candidates, and the commit staged for the stream counts from its S0. -/
def Obligations.StepCommandsDrawTokens : Prop :=
  ∀ (s : State) (id : Nat) (c : Cmd),
    let n := pkt c 2 2
    let b := hostBytes s (pktParam c) (pktParamLen c)
    let sid (k : Nat) : Nat := fieldAt b (64 * k) 2
    let S0 (k : Nat) : Nat := (mapGet (streamOf s (sid k)) c.ctxs (sid k)).step
    let s1 := withContexts s ((List.range n).map sid)
    let row (k : Nat) : RowOut := mainRow s1 c (stepEnvOf s1 c) k (entryAt b k)
    let posRow (k j : Nat) : RowOut := verifyRow s1 c (stepEnvOf s1 c) k (entryAt b k) j
    let draws (i : Instr) (stride : Nat) (rule : Nat → Nat → List Nat → Nat → Prop) : Prop :=
      ∃ (u : State) (detail fl : Nat) (cs : Nat → List Commit),
        exec i s = .next u ∧ ranTo s u id 0 detail fl ((List.range n).flatMap cs) ∧
        ∀ k, k < n →
          let e := hostBytes u (pkt c 0x20 8 + k * stride) 160
          ∃ t toks adv ring, Commit.step (sid k) (S0 k) toks adv ring ∈ cs k ∧ fieldAt e 0 4 = t % 2 ^ 32 ∧
            (fieldAt e 0x1A 1 = 0 ∨ fieldAt e 0x1A 1 = 0x13) ∧ rule k t toks adv
    let found (k t : Nat) : Prop := (row k).sel ≠ [] → ∃ x ∈ (row k).sel, x.idx = t
    hostFine s = true → memoriesWf s = true → (∀ k, k < n → (streamOf s (sid k)).isOpen = true) →
    (∀ k, k < n → ∀ spec ∈ entrySpecs s c (entryAt b k), banksHeld s spec = true) →
    ((outAreas s c).Pairwise fun p q => p.1 + p.2 ≤ q.1 ∨ q.1 + q.2 ≤ p.1) → pkt c 0x2A 1 ≤ 4 →
    (takesScores ⟨c.fn, c.ring, c.packet, c.modeCtrl⟩ = true ∨
      ∃ m, modelOf s (pktModel c) = some m ∧ m.state ≠ 4 ∧ overhangGranules m = []) →
    (∀ k, k < n → S0 k + (if pktOp c = 0x32 then fieldAt b (64 * k + 3) 1 + 1 else 1) < 2 ^ 48) →
    (pktOp c ≠ 0x32 → ∀ k, k < n → drawsToken (row k)) →
    (pktOp c = 0x32 → ∀ k, k < n → ∀ j, j ≤ fieldAt b (64 * k + 3) 1 → drawsToken (posRow k j)) →
    (startedCmd s id 0x30 = some c → draws (.stepCmd id []) 160 fun k t toks adv => toks = [t] ∧ adv = 1 ∧ found k t) ∧
    (startedCmd s id 0x31 = some c → draws (.stepScores id []) 160 fun k t toks adv => toks = [t] ∧ adv = 1 ∧ found k t) ∧
    (startedCmd s id 0x32 = some c → draws (.verify id []) 432 fun _ t toks adv =>
      toks.getLast? = some t ∧ toks.length = adv ∧ 1 ≤ adv) ∧
    (startedCmd s id 0x33 = some c → draws (.lookahead id []) 240 fun k t toks adv => toks = [t] ∧ adv = 1 ∧ found k t) ∧
    (startedCmd s id 0x34 = some c → draws (.hostDraw id []) 192 fun k t toks adv => toks = [] ∧ adv = 1 ∧ found k t)

/-! ## Tensor operators -/

/-- A tensor operator that runs undisturbed completes; it writes only its output areas of host memory (wholly open bytes where
they overlap its inputs, R319) and changes only flags and counters; status 0x13 stands for THRESHOLD_COMPACT alone; only CAST
and RANDOM_FILL bound to a Ring lane stage anything, states of that lane (R191). With areas apart: TOPK in FIXED order writes
the min(K, L) records of highest key, ties by index (R171); THRESHOLD_COMPACT every entry of key at least the threshold's, by
index, and its counts (R172); ROWSTAT ends a row with 4 zeros (R325); RANDOM_FILL of BITS32 from Spore the words (R184, R201). -/
def Obligations.TensorCommandsWriteRows : Prop :=
  ∀ (s : State) (id : Nat) (c : Cmd),
    let b := hostBytes s (pktParam c) (pktParamLen c)
    let h := parseHdr b
    let e := tensorEnv s c b []
    let ran (i : Instr) (p : State → Nat → Nat → List Commit → Prop) : Prop :=
      ∃ (u : State) (st d fl : Nat) (cs : List Commit), exec i s = .next u ∧ ranTo s u id st d fl cs ∧
        sameOutside (outAreas s c) s u ∧ onlyRan s u ∧ p u st d cs
    let apart : Prop := outputsOverlap s c e = false ∧
      (outAreas s c).Pairwise fun p q => p.1 + p.2 ≤ q.1 ∨ q.1 + q.2 ≤ p.1
    let plain (_ : State) (st d : Nat) (cs : List Commit) : Prop := st = 0 ∧ d = 0 ∧ cs = []
    let lane (x : Commit) : Prop := match x with | .lane _ l _ => l = fieldAt b 0x43 1 | _ => False
    let code (r i : Nat) : Nat := nth 0 (tensorRow s e r).codes i
    let key (r i : Nat) : Nat := (orderKey (widen (fmtAt h.inFmt) (code r i))).toNat
    let rec8 (r i : Nat) : List Byte := leBytes 4 i ++ leBytes 4 (code r i)
    let before (r i j : Nat) : Prop := key r j < key r i ∨ (key r i = key r j ∧ i < j)
    let kept (r : Nat) : List Nat := (List.range h.len).filter fun i =>
      decide ((orderKey (widen (fmtAt h.inFmt) (fieldAt b 0x40 4))).toNat ≤ key r i)
    hostFine s = true → memoriesWf s = true →
    (startedCmd s id 0x40 = some c → ran (.softmax id []) plain) ∧
    (startedCmd s id 0x41 = some c → ran (.topk id []) fun u st d cs => plain u st d cs ∧
      (apart → e.order = .fixed → ∀ r, r < h.rows → ∃ ids : List Nat, ids.length = min (fieldAt b 0x40 4) h.len ∧
        hostBytes u (h.outAddr + r * h.outStride) (8 * ids.length) = ids.flatMap (rec8 r) ∧ ids.Pairwise (before r) ∧
        (∀ i ∈ ids, i < h.len) ∧ ∀ i, i < h.len → i ∉ ids → ∀ j ∈ ids, before r j i)) ∧
    (startedCmd s id 0x42 = some c → ran (.thresholdCompact id []) fun u st d cs => cs = [] ∧ (st = 0 ∨ st = 0x13) ∧
      ((∀ r, r < h.rows → (kept r).length ≤ 65536) → st = 0 ∧
        d = ((List.range h.rows).map fun r => (kept r).length).foldl (satAdd 0xFFFFFFFF) 0 ∧
        (apart → ∀ r, r < h.rows →
          hostBytes u (h.outAddr + r * h.outStride) (8 * (kept r).length) = (kept r).flatMap (rec8 r) ∧
          hostBytes u (h.aux + 8 * r) 8 = leBytes 4 (kept r).length ++ leBytes 4 (kept r).length))) ∧
    (startedCmd s id 0x43 = some c → ran (.rowstat id []) fun u st d cs => plain u st d cs ∧
      (apart → ∀ r, r < h.rows → hostBytes u (h.outAddr + r * h.outStride + 12) 4 = leBytes 4 0)) ∧
    (startedCmd s id 0x44 = some c → ran (.castOp id []) fun _ st d cs => st = 0 ∧ d = 0 ∧ (∀ x ∈ cs, lane x) ∧
      (fieldAt b 0x40 1 = 0 ∨ fieldAt b 0x42 1 = 1 → cs = [])) ∧
    (startedCmd s id 0x45 = some c → h.outFmt = 0 ∨ h.outFmt = 6 → ran (.randomFill id []) fun u st d cs => st = 0 ∧ d = 0 ∧
      (∀ x ∈ cs, lane x) ∧ (fieldAt b 0x42 1 = 1 → cs = [] ∧
        (apart → fieldAt b 0x40 1 = 0 → ∀ r, r < h.rows → ∀ j, j < h.len →
          hostBytes u (h.outAddr + r * h.outStride + 4 * j) 4 =
            leBytes 4 (sporeElem (qword b 0x50) (fieldAt b 0x48 6) 4 (r * h.len + j)).toNat))) ∧
    (startedCmd s id 0x46 = some c → ran (.applyFunction id []) plain)

/-! ## REPLAY -/

/-- REPLAY, run undisturbed on a record of the window or on what the host gives (R334), dumps and commits nothing: host memory,
the command and the count of free values are all that changes, no flag, counter, Ring state or summary bit (R335). The dump
begins with STREAM_ID, SECTIONS, ROW_LEN, STEP and MATCH (0 for HOST), the result entry of that stream and step at 0x20 (Table
OPS-9); below DUMP_ADDR nothing is written, and of a dump of score and final rows nothing beyond its size. -/
def Obligations.ReplayDumpsAndCommitsNothing : Prop :=
  ∀ (s : State) (id : Nat) (c : Cmd) (x : ReplaySrc),
    let b := hostBytes s (pktParam c) (pktParamLen c)
    let a := fieldAt b 0x28 8
    let st := imageStream (hostBytes s (fieldAt b 0x10 8) 18960)
    let e := hostBytes s (fieldAt b 0x18 8) 64
    let mask := if x.model.isNone then fieldAt b 3 1 / 2 * 2 else fieldAt b 3 1
    hostFine s = true → memoriesWf s = true → startedCmd s id 0x60 = some c →
    (fieldAt b 2 1 = 0 ∧ windowSrc s (fieldAt b 0 2) (fieldAt b 8 6) = some x ∨
      fieldAt b 2 1 ≠ 0 ∧ fieldAt b 4 1 = 1 ∧ x = hostSrc s c b e st none ∨
      fieldAt b 2 1 ≠ 0 ∧ fieldAt b 4 1 ≠ 1 ∧ ∃ m, modelOf s (pktModel c) = some m ∧
        x = hostSrc s c b e st (some (pktModel c, m))) →
    (∀ p, x.model = some p → p.2.state ≠ 4 ∧ overhangGranules p.2 = []) →
    ∃ u fl, exec (.replay id []) s = .next u ∧ ranTo s u id 0 0 fl [] ∧
      { u with host := s.host, cmds := s.cmds, freeCtr := s.freeCtr } = s ∧
      (∀ q, q < a → memByte u.host q = memByte s.host q) ∧
      (bit mask 0 = false → bit mask 3 = false → x.fmt ≤ 4 → (∀ p, x.model = some p → p.2.rows.length = x.len) →
        sameOutside [(a, dumpSize mask x.len 0)] s u) ∧
      let h := hostBytes u a 0xC0
      fieldAt h 0 2 = fieldAt b 0 2 ∧ fieldAt h 2 1 = mask ∧ fieldAt h 4 4 = x.len % 2 ^ 32 ∧
      fieldAt h 8 6 = x.st.step % 2 ^ 48 ∧ (x.recorded = none → fieldAt h 0x16 1 = 0) ∧
      fieldAt h (0x20 + 0x1C) 2 = fieldAt b 0 2 ∧ fieldAt h (0x20 + 0x20) 6 = x.st.step % 2 ^ 48

/-! ## The fabric -/

/-- On a link that has not failed: a flit whose CRC fails is discarded whole and counted, and the first after a good flit sends
one NACK with the last number accepted (R348, R349); in the clean run after a successful attempt it starts a new one (R352). A
DATA flit one above the last accepted is accepted, and delivered at its destination; any other is discarded with a NACK (R349).
In the clean run the 256th good flit ends RETRY (R352). A NACK, or an unacknowledged flit, puts the direction in RETRY: an attempt
replays every flit left, in sequence order, and waits for them; a further NACK fails a running attempt unless it is the one for
the failure that started it (R351); an attempt not acknowledged in time starts the next, the eighth in a row fails the link, as
does RETRY at the end of its window (R353). Every flit from a lost chip is discarded (R419). -/
def Obligations.LinkFlitsAndRetries : Prop :=
  ∀ (s : State) (src dst : Nat) (t : Tick), src < 8 → dst < 8 → src ≠ dst → s.mesh.length = 28 →
    linkFailed s src dst = false →
    let d := dirOf s src dst
    let T := max s.now t
    let near (u : State) : Prop := u.now = T ∧ linkFailed u src dst = false ∧
      { u with now := s.now, mesh := s.mesh, totals := s.totals, cmds := s.cmds } = s ∧
      (d.retry = none → (dirOf s dst src).retry = none → u.cmds = s.cmds) ∧
      (u.cmds.map fun c => { c with skips := [] }) = (s.cmds.map fun c => { c with skips := [] }) ∧
      ∀ i, i ≠ linkIndex src dst → u.mesh[i]? = s.mesh[i]?
    let nack (x : Dir) : Dir := if x.nacked then x else { x with nacked := true, nacks := x.nacks ++ [x.accepted] }
    let attempt (x : Dir) (fails : Nat) (entered : Tick) (told : Bool) : Dir :=
      { x with
        sent := x.sent ++ x.unacked
        retry := some ⟨entered, T, x.unacked.map fun p => p.seq, if x.unacked = [] then 0 else fails,
          if x.unacked = [] then some 0 else none, told, T⟩ }
    let trim (x : Dir) (a : Nat) : Dir :=
      { x with unacked := x.unacked.filter fun p => !seqUpTo p.seq a, acked := if seqUpTo x.acked a then a else x.acked }
    let failed (u : State) : Prop := linkFailed u src dst = true ∧ u.regs.eventCause.getLsbD 2 = true ∧
      (dirOf u src dst).unacked = [] ∧ (dirOf u dst src).unacked = []
    let heard : Prop := s.regs.ready = false ∨ (chipOf s src).active = true
    (∀ f, ¬ heard → exec (.flitReceive src dst f t) s = .next { s with now := T }) ∧
    (∀ f, heard → flitGood f = false → ∃ u, exec (.flitReceive src dst f t) s = .next u ∧ near u ∧
      ((∀ r, d.retry = some r → r.good = none) → dirOf u src dst = nack d) ∧
      (∀ r, d.retry = some r → r.good ≠ none → dirOf u src dst = nack (attempt d r.fails r.entered !d.nacked)) ∧
      (dirOf u dst src = if d.nacked then dirOf s dst src else { dirOf s dst src with
        sent := (dirOf s dst src).sent ++ [⟨2, dst, src, 0, some d.accepted, 0, false, 0, 0, []⟩] }) ∧
      nth 0 (linkOf u src dst).counters 0 = (if (linkOf s src dst).counters = [] then 0
        else min 0xFFFF (nth 0 (linkOf s src dst).counters 0 + 1))) ∧
    (∀ f, heard → flitGood f = true → fieldAt f 0 1 = 1 → ∃ u, exec (.flitReceive src dst f t) s = .next u ∧
      (bits (fieldAt f 1 1) 7 4 = dst → near u) ∧
      (bits (fieldAt f 2 2) 11 0 = (d.accepted + 1) % 4096 →
        (dirOf u src dst).accepted = (d.accepted + 1) % 4096 ∧ (dirOf u src dst).nacks = d.nacks ∧
        (dirOf u src dst).delivered = d.delivered ++
          (if bits (fieldAt f 1 1) 7 4 = dst then [slice f 0x0E (min 234 (fieldAt f 8 1))] else [])) ∧
      (bits (fieldAt f 2 2) 11 0 ≠ (d.accepted + 1) % 4096 →
        (dirOf u src dst).accepted = d.accepted ∧ (dirOf u src dst).delivered = d.delivered ∧
        (dirOf u src dst).nacks = (nack d).nacks) ∧
      (∀ r n, d.retry = some r → r.good = some n → (dirOf u src dst).retry =
        if 256 ≤ n + 1 ∧ T < r.entered + ticksA s 320000 then none else some { r with good := some (n + 1) })) ∧
    (∀ ack, let left := trim d (ack % 4096)
      (d.retry = none → ∃ u, exec (.nackReceive src dst ack t) s = .next u ∧ near u ∧
        dirOf u src dst = attempt left 0 T false) ∧
      (∀ r, d.retry = some r → r.good = none → r.told = false → ∃ u, exec (.nackReceive src dst ack t) s = .next u ∧
        (r.fails < 7 → near u ∧ dirOf u src dst = attempt left (r.fails + 1) r.entered false) ∧ (7 ≤ r.fails → failed u)) ∧
      (∀ r, d.retry = some r → r.good = none → r.told = true → ∃ u r', exec (.nackReceive src dst ack t) s = .next u ∧
        near u ∧ (dirOf u src dst).retry = some r' ∧ r'.told = false ∧ r'.entered = r.entered ∧ r'.fails ≤ r.fails)) ∧
    (d.retry = none → ∀ p ∈ d.unacked, p.seq < 4096 → ∃ u, exec (.ackTimeout src dst p.seq p.context t) s = .next u ∧
      near u ∧ dirOf u src dst = attempt d 0 T false) ∧
    (∀ r, d.retry = some r → r.good = none → r.attempt + ticksA s 4800 ≤ T → ∃ u,
      exec (.retryAttemptTimeout src dst t) s = .next u ∧
        (r.fails < 7 → near u ∧ dirOf u src dst = attempt d (r.fails + 1) r.entered false) ∧ (7 ≤ r.fails → failed u)) ∧
    (∀ r, d.retry = some r → ∃ u, exec (.retryWindowExpiry src dst) s = .next u ∧ failed u ∧
      u.now = max s.now (r.entered + ticksA s 320000))

/-! ## Lanes and tray time -/

/-- On a link that has not failed, a lane that loses its lock, or has more than 64 symbol errors within 1,600,000 ticks, is
retired (R345): one that carries traffic gives its place to the unused spare; with the spare used, the direction narrows, and a
link left with fewer than 2 usable lanes is FAILED. Fewer errors are counted and nothing else changes. A recalibration with the
spare lets it take over from active lane c mod 4 of each direction, that lane becoming the spare, c the link's count, which
goes up by one; with the spare used no lane changes place (R346). No sequence number, credit or flit changes. An exchange's
start sends the lead's TIME_REQ towards every other active chip and measures the TMC's offset, not while it restarts (R358,
R404). A valid exchange gives an active chip its offset from the four timestamps, to slew away (rounding: log entry 97), and its
count of invalid exchanges starts anew (R358, R359). One lost, or with a round trip above 1,600 ticks, is discarded; the
sixteenth in a row, or an offset above 64 ticks, is a time fault (R359, R360): with at most 4 ticks left after the burst
TIME_FAULT is counted and the chip serves on, else a fatal report loses it (R433). No time fault is raised while the TMC
restarts (R404). All tick counts are those of PLAN_A under the running plan (R15). -/
def Obligations.LanesAndTimeExchanges : Prop :=
  (∀ (s : State) (src dst : Nat) (t : Tick), src < 8 → dst < 8 → src ≠ dst → s.mesh.length = 28 →
     linkFailed s src dst = false →
     let T := max s.now t
     let d := dirOf s src dst
     let near (u : State) : Prop := linkFailed u src dst = false ∧
       { u with now := s.now, mesh := s.mesh, totals := s.totals } = s ∧
       ∀ i, i ≠ linkIndex src dst → u.mesh[i]? = s.mesh[i]?
     let errs (lane n : Nat) : List (Nat × Tick × Nat) :=
       (d.errors.filter fun e => decide (T < e.2.1 + ticksA s 1600000)) ++ [(lane, T, n)]
     let bad (lane : Nat) (lost : Bool) (n : Nat) : Prop :=
       lost = true ∨ 64 < (((errs lane n).filter fun e => e.1 == lane).map fun e => e.2.2).sum
     (∀ lane lost n, lane ∈ d.lanes ∨ d.spare = some lane → ¬ bad lane lost n →
       ∃ u, exec (.laneRetire src dst ⟨lane, lost, n, t⟩) s = .next u ∧ u.now = T ∧ near u ∧ dirOf u dst src = dirOf s dst src ∧
         dirOf u src dst = { d with errors := errs lane n }) ∧
     (∀ lane lost n, lane ∉ d.lanes → d.spare ≠ some lane →
       exec (.laneRetire src dst ⟨lane, lost, n, t⟩) s = .next { s with now := T }) ∧
     (∀ lane lost n sp, bad lane lost n → lane ∈ d.lanes → d.spare = some sp → sp ≠ lane → 2 ≤ d.lanes.length →
       ∃ u, exec (.laneRetire src dst ⟨lane, lost, n, t⟩) s = .next u ∧ u.now = T ∧ near u ∧ dirOf u dst src = dirOf s dst src ∧
         dirOf u src dst = { d with
           lanes := d.lanes.map fun l => if l = lane then sp else l
           spare := none, retired := d.retired ++ [lane], errors := errs lane n }) ∧
     (∀ lost n sp, bad sp lost n → d.spare = some sp → 2 ≤ d.lanes.length →
       ∃ u, exec (.laneRetire src dst ⟨sp, lost, n, t⟩) s = .next u ∧ u.now = T ∧ near u ∧ dirOf u dst src = dirOf s dst src ∧
         dirOf u src dst = { d with spare := none, retired := d.retired ++ [sp], errors := errs sp n }) ∧
     (∀ lane lost n, bad lane lost n → lane ∈ d.lanes → d.spare = none →
       let left := d.lanes.filter fun l => l != lane
       (2 ≤ left.length → ∃ u, exec (.laneRetire src dst ⟨lane, lost, n, t⟩) s = .next u ∧ u.now = T ∧ near u ∧
         dirOf u dst src = dirOf s dst src ∧
         dirOf u src dst = { d with lanes := left, retired := d.retired ++ [lane], errors := errs lane n }) ∧
       (left.length < 2 → ∃ u, exec (.laneRetire src dst ⟨lane, lost, n, t⟩) s = .next u ∧ linkFailed u src dst = true ∧
         u.regs.eventCause.getLsbD 2 = true ∧ (dirOf u src dst).unacked = [] ∧ (dirOf u dst src).unacked = [])) ∧
     (∃ u, exec (.linkRecalibration src dst) s = .next u ∧ u.now = s.now ∧ near u ∧
       (linkOf u src dst).recal = (linkOf s src dst).recal + 1 ∧
       ∀ p ∈ [(src, dst), (dst, src)],
         let x := dirOf s p.1 p.2
         let i := (linkOf s src dst).recal % 4
         (x.spare = none → dirOf u p.1 p.2 = x) ∧
         (∀ sp, x.spare = some sp → i < x.lanes.length →
           dirOf u p.1 p.2 = { x with lanes := x.lanes.set i sp, spare := x.lanes[i]? }))) ∧
  (∀ (s : State) (off : Int) (t : Tick), ∃ u, exec (.timeExchange ⟨off, t⟩) s = .next u ∧ u.now = max s.now t ∧
     (s.deputy = none → u.tmc = (off, max s.now t)) ∧ (s.deputy.isSome = true → u.tmc = s.tmc) ∧
     { u with now := s.now, tmc := s.tmc, mesh := s.mesh, freeCtr := s.freeCtr } = s ∧
     ∀ c, c < 8 → s.regs.lead < 8 → c ≠ s.regs.lead → s.mesh.length = 28 → (chipOf s c).active = true →
       linkFailed s s.regs.lead c = false → ∃ l, (dirOf u s.regs.lead c).sent = (dirOf s s.regs.lead c).sent ++ l ∧
         (∀ f ∈ l, f.typ = 3) ∧ ∃ f ∈ l, f.src = s.regs.lead ∧ f.dst = c) ∧
  (∀ (s : State) (c : Nat), c < s.chips.length → (chipOf s c).active = true →
     let p := chipOf s c
     let chipIs (u : State) (q : Chip) : Prop := chipOf u c = q ∧ ∀ k, k ≠ c → u.chips[k]? = s.chips[k]?
     let fault (i : Instr) (q : Chip) (after : Int) (T : Tick) : Prop :=
       (s.deputy.isSome = true → ∃ u, exec i s = .next u ∧ u.now = T ∧ chipIs u q ∧
         { u with now := s.now, chips := s.chips } = s) ∧
       (s.deputy = none → after.natAbs ≤ ticksA s 4 → ∃ u, exec i s = .next u ∧ u.now = T ∧
         chipIs u { q with counters := modNth p.counters 4 (satAdd 0xFFFF · 1) } ∧
         { u with now := s.now, chips := s.chips, totals := s.totals } = s) ∧
       (s.deputy = none → ticksA s 4 < after.natAbs → s.loss = .none → ∃ u, exec i s = .next u ∧ u.now = T ∧
         chipIs u { q with counters := modNth p.counters 7 (satAdd 0xFFFF · 1) } ∧
         u.loss = .declared [c] (T + ticksA s 1600) [] ∧
         { u with now := s.now, chips := s.chips, totals := s.totals, loss := s.loss } = s)
     (∀ (sent received answered back : Nat) (after : Int),
       let T := max s.now back
       let trip : Int := ((back : Int) - sent) - ((answered : Int) - received)
       let off : Int := (((received : Int) - sent) + ((answered : Int) - back)) / 2
       let q : Chip := { p with badExchanges := 0, offset := off, offsetAt := T }
       let i := Instr.timeRsp c ⟨sent, received⟩ ⟨answered, back⟩ after
       (trip ≤ ticksA s 1600 →
         (off.natAbs ≤ ticksA s 64 → ∃ u, exec i s = .next u ∧ u.now = T ∧ chipIs u q ∧
           { u with now := s.now, chips := s.chips } = s) ∧
         (ticksA s 64 < off.natAbs → fault i q after T)) ∧
       ((ticksA s 1600 : Int) < trip → exec i s = exec (.timeExchangeLoss c after) { s with now := T })) ∧
     (∀ after, (p.badExchanges < 15 → ∃ u, exec (.timeExchangeLoss c after) s = .next u ∧
         chipIs u { p with badExchanges := p.badExchanges + 1 } ∧ { u with chips := s.chips } = s) ∧
       (15 ≤ p.badExchanges → fault (.timeExchangeLoss c after) { p with badExchanges := 0 } after s.now)))

/-! ## Faults and recovery -/

/-- The heartbeats an active chip's core misses in a row are counted, and the fourth fences the core (R412, R413): an active one
serves no more and CORE_FENCED is set, a spare leaves the pool and the ledger; where fewer than 12 working cores would be left
the chip is lost instead (R22, R415). Fences of one chip are handled in the order of their ticks (R416; a tie: log entry 94). The
replacement is the lowest-numbered spare, else none, and the ledger has the entry (R413, R407); within a lost chip a fence is moot
(R39). A loss is declared at a fatal report, at a regulator's report unless the TMC restarts (R404), and at the tenth heartbeat in
a row that the TMC misses, or one beside three FAILED links (R418); a chip never declares itself lost, so the deputy's own report
loses nothing (R403); the fence tick lies 1,600 ticks later (R419), and a loss declared before it shares it. Reports and misses
are counted; a chip that is not active loses nothing more. -/
def Obligations.CoreHangsAndChipLosses : Prop :=
  (∀ (s : State) (c k : Nat) (co : Core), c < s.chips.length → (chipOf s c).cores[k]? = some co →
     let coreIs (u : State) (j : Nat) (x : Core) : Prop := (chipOf u c).cores[j]? = some x
     let onlyCores (u : State) (js : List Nat) : Prop := (∀ j, j ∉ js → (chipOf u c).cores[j]? = (chipOf s c).cores[j]?) ∧
       ∀ i, i ≠ c → u.chips[i]? = s.chips[i]?
     ((chipOf s c).active = true → co.role ≠ .fenced → (∀ cs f old, s.loss = .declared cs f old → c ∉ cs) → ∀ t,
       let T := max s.now t
       let n := if ∃ l, co.lastMiss = some l ∧ T ≤ l + ticksA s 16384 then co.missed + 1 else 1
       (n < 4 → ∃ u, exec (.coreHeartbeatMiss c k t) s = .next u ∧ onlyCores u [k] ∧
         coreIs u k { co with missed := n, lastMiss := some T } ∧ { u with now := s.now, chips := s.chips } = s) ∧
       (4 ≤ n → co.role = .active → 12 < workingCores s c → ∃ u, exec (.coreHeartbeatMiss c k t) s = .next u ∧
         onlyCores u [k] ∧ u.regs.eventCause.getLsbD 1 = true ∧
         coreIs u k { co with
           missed := 0, lastMiss := some T, role := .fenced, pending := some (3, T)
           counters := modNth co.counters 8 (satAdd 0xFFFF · 1) } ∧
         { u with
           now := s.now, chips := s.chips, totals := s.totals, vault := s.vault, deferredLog := s.deferredLog
           regs := s.regs, mgmt := s.mgmt } = s) ∧
       (4 ≤ n → co.role = .spare → 12 < workingCores s c → s.deputy = none →
         ∃ u, exec (.coreHeartbeatMiss c k t) s = .next u ∧ onlyCores u [k] ∧
         coreIs u k { co with
           missed := n, lastMiss := some T, role := .fenced, counters := modNth co.counters 8 (satAdd 0xFFFF · 1) } ∧
         (ledgerNow u).entries = (ledgerNow s).entries ++ [⟨2, c, k, 3, 0, 0, (ledgerNow s).bringUps⟩] ∧
         { u with
           now := s.now, chips := s.chips, totals := s.totals, vault := s.vault, ledgerWrite := s.ledgerWrite } = s) ∧
       (4 ≤ n → workingCores s c ≤ 12 → s.loss = .none → s.deputy ≠ some c →
         ∃ u, exec (.coreHeartbeatMiss c k t) s = .next u ∧ u.loss = .declared [c] (T + ticksA s 1600) [] ∧
           coreIs u k { co with
             missed := n, lastMiss := some T, counters := modNth co.counters 8 (satAdd 0xFFFF · 1) })) ∧
     (∀ origin f, co.role = .fenced → co.pending = some (origin, f) → (chipOf s c).active = true → s.deputy = none →
       let first : Prop := ∀ (j : Nat) (x : Core), (chipOf s c).cores[j]? = some x → ∀ o g, x.pending = some (o, g) →
         f < g ∨ f = g ∧ k ≤ j
       (first → ∀ j sp, (spareCores s c).head? = some j → (chipOf s c).cores[j]? = some sp →
         ∃ u, exec (.coreReplacement c k) s = .next u ∧ onlyCores u [k, j] ∧
           coreIs u k { co with pending := none, te := noFlags, sfu := noFlags } ∧
           coreIs u j { sp with role := .active, te := noFlags, sfu := noFlags } ∧
           (ledgerNow u).entries = (ledgerNow s).entries ++ [⟨1, c, k, origin, 0, j, (ledgerNow s).bringUps⟩] ∧
           { u with chips := s.chips, vault := s.vault, ledgerWrite := s.ledgerWrite } = s) ∧
       (first → spareCores s c = [] →
         ∃ u, exec (.coreReplacement c k) s = .next u ∧ onlyCores u [k] ∧
           coreIs u k { co with pending := none, te := noFlags, sfu := noFlags } ∧
           (ledgerNow u).entries = (ledgerNow s).entries ++ [⟨2, c, k, origin, 0, 0, (ledgerNow s).bringUps⟩] ∧
           { u with chips := s.chips, vault := s.vault, ledgerWrite := s.ledgerWrite } = s)) ∧
     (∀ origin f, co.pending = some (origin, f) → (∃ (j : Nat) (x : Core) (o : Nat) (g : Tick),
         (chipOf s c).cores[j]? = some x ∧ x.pending = some (o, g) ∧ g < f) →
       exec (.coreReplacement c k) s = .next s) ∧
     ((chipOf s c).active = false → exec (.coreReplacement c k) s = .next s)) ∧
  (∀ (s : State) (c : Nat) (t : Tick), c < s.chips.length →
     let T := max s.now t
     let p := chipOf s c
     let lost (l : Loss) : Prop :=
       (∀ cs f old, s.loss = .declared cs f old → c ∈ cs → l = .declared cs f old) ∧
       (∀ cs f old, s.loss = .declared cs f old → c ∉ cs → l = .declared (cs ++ [c]) f old) ∧
       (s.loss = .none → l = .declared [c] (T + ticksA s 1600) []) ∧
       (∀ old, s.loss = .recovering old → l = .declared [c] (T + ticksA s 1600) old)
     let chipIs (u : State) (q : Chip) : Prop := chipOf u c = q ∧ ∀ k, k ≠ c → u.chips[k]? = s.chips[k]?
     (p.active = false → ∀ i ∈ [Instr.fatalReport c t, .regulatorFault c t, .chipHeartbeatMiss c t],
       exec i s = .next { s with now := T }) ∧
     (p.active = true →
       (∃ u, exec (.fatalReport c t) s = .next u ∧ (s.deputy ≠ some c → lost u.loss) ∧
         (s.deputy = some c → u.loss = s.loss) ∧
         chipIs u { p with counters := modNth p.counters 7 (satAdd 0xFFFF · 1) } ∧
         { u with now := s.now, chips := s.chips, totals := s.totals, loss := s.loss } = s) ∧
       (s.deputy = none → ∃ u, exec (.regulatorFault c t) s = .next u ∧ lost u.loss ∧
         { u with now := s.now, loss := s.loss } = s) ∧
       (s.deputy.isSome = true → exec (.regulatorFault c t) s = .next { s with now := T }) ∧
       let n := if ∃ l, p.lastMiss = some l ∧ T ≤ l + ticksA s 32000 then p.missed + 1 else 1
       ∃ u, exec (.chipHeartbeatMiss c t) s = .next u ∧
         chipIs u { p with missed := n, lastMiss := some T, counters := modNth p.counters 6 (satAdd 0xFFFF · 1) } ∧
         { u with now := s.now, chips := s.chips, totals := s.totals, loss := s.loss } = s ∧
         (10 ≤ n ∨ 3 ≤ failedLinks s c → lost u.loss) ∧
         (n < 10 → failedLinks s c < 3 → u.loss = s.loss)))

/-- Before the fence tick nothing happens; on it the lost chips are no longer active and their core fences moot (R39), CHIP_LOST
and DEGRADED are set, the ledger has the loss with its count (R419); each command under way is caught as Table FLT-7 states
(R420); a stream whose home is lost has its mirror as home, and one with no copy left is closed (R230, R231); the links behind
four lost chips are down (R39); with fewer than four chips left the tray commits to a fault shutdown (R424). Relay traffic
restarts with at least four (log entry 65). The restart after a loss: where the lead is lost the lowest-numbered active chip
leads, with the tails a bridge keeps and its counter aligned to the TMC (R371), a started LAUNCH_AT whose tick has come fires
late on it (R368), and the held commands that are to be replayed start with a fresh watchdog (R421, R428). A model's re-lay gives
it its planned ranks and rows, and writes the images of what stays in overhang with their CRCs (R267, R270); with none left
RELAY_DONE is set, RELAY_ACTIVE and DEGRADED clear and a homing is performed, streams of a step in flight keeping their homes
until it ends (R230, R422). A stream with one copy gets a mirror on the next active chip by rank (R230). -/
def Obligations.LossRecoveryRuns : Prop :=
  (∀ (s : State) (lost old : List Nat) (f t : Tick), s.loss = .declared lost f old → s.chips.length = 8 →
     (t < f → exec (.fenceTick t) s = .next { s with now := max s.now t }) ∧
     (f ≤ t → ∃ u, exec (.fenceTick t) s = .next u ∧ u.now = max s.now f ∧ u.host = s.host ∧
       (∀ k, k < 8 → chipOf u k = if k ∈ lost then
           { chipOf s k with active := false, cores := (chipOf s k).cores.map fun x => { x with pending := none } }
         else chipOf s k) ∧
       (∀ l, l < 4 → (∀ i, i < 4 → (chipOf u (4 * (l / 2) + i)).active = false) → linkUp u l = false) ∧
       u.regs.degraded = true ∧ (lost ≠ [] → u.regs.eventCause.getLsbD 0 = true) ∧
       (∀ c, lost = [c] → s.deputy = none → (ledgerNow u).entries = (ledgerNow s).entries ++
         [⟨5, c, 0, 3, lossCount s c + 1, 0, (ledgerNow s).bringUps⟩]) ∧
       u.cmds = s.cmds.map (fun c =>
         if c.phase = .held ∨ isFailure c.status = true then c
         else if pktOp c ∈ [0x30, 0x31, 0x32, 0x33, 0x34, 0x40, 0x41, 0x42, 0x43, 0x44, 0x45, 0x46, 0x60, 0x61, 0x62, 0x63,
             0x64, 0x20, 0x21, 0x22, 0x23, 0x24, 0x25, 0x47, 0x50, 0x51, 0x70] then
           { c with
             phase := .held, status := 0, detail := 0, cflags := 0, commits := [], fixed := none, replayed := true
             reserved := [] }
         else if pktOp c = 0x10 then
           { c with phase := .held, status := 0, detail := 0, cflags := 0, commits := [], reserved := [] }
         else c) ∧
       (∀ sid h m, homeOf s sid = (h, some m) → h ≠ m → ¬ (h ∈ lost ∧ m ∈ lost) →
         streamOf u sid = streamOf s sid ∧
         homeOf u sid = if h ∈ lost then (m, none) else if m ∈ lost then (h, none) else (h, some m)) ∧
       (∀ sid h m, homeOf s sid = (h, m) → h ∈ lost → (∀ x, m = some x → x ∈ lost) →
         (streamOf s sid).isOpen = true → streamOf u sid = Stream.closed) ∧
       (4 ≤ (activeChips u).length → u.shutdown = s.shutdown ∧ u.regs.relayActive = true) ∧
       ((activeChips u).length < 4 → s.shutdown = .none →
         u.shutdown = .drain u.now 1 true false ∧ u.regs.saving = true ∧ u.regs.eventCause.getLsbD 4 = true))) ∧
  (∀ (s : State) (t : Tick),
     let T := max s.now t
     (∀ lost, s.loss = .recovering lost →
       let restart (c : Cmd) : Cmd := if c.phase = .held ∧ c.replayed = true ∧ s.shutdown = .none then
         { c with phase := .started, start := T, skips := [], hang := hangTicks s c } else c
       let late (c : Cmd) : Cmd := if pktOp c = 0x73 ∧ c.phase = .started ∧ pkt c 0x20 8 ≤ T then
         { c with phase := .executed, late := true, fixed := some T } else c
       let asked (q : Quiet) : Prop := q = s.quiet ∨ s.quiet = .none ∧ q = .wanted
       (s.regs.lead ∉ lost → ∃ u, exec (.chipLossRestart t) s = .next u ∧ asked u.quiet ∧
         { u with quiet := s.quiet } = { s with now := T, loss := .none, cmds := s.cmds.map restart }) ∧
       (s.regs.lead ∈ lost → ∀ k, k < 8 → (chipOf s k).active = true → ∃ l, l ≤ k ∧ (chipOf s l).active = true ∧
         (∀ j, j < l → (chipOf s j).active = false) ∧ ∃ u, exec (.chipLossRestart t) s = .next u ∧ asked u.quiet ∧
         (∀ b, workingBridge s = some b → u.rings =
           s.rings.map fun p => (p.1, { p.2 with sqTail := mapGet p.2.sqTail b.tails p.1 })) ∧
         (workingBridge s = none → u.rings = s.rings) ∧
         { u with quiet := s.quiet, rings := s.rings } =
           { s with
             now := T, loss := .none, regs.lead := l, tmc := (0, T), cmds := (s.cmds.map late).map restart })) ∧
     (s.regs.relayActive = true → s.loss = .none → (∀ p ∈ s.models, p.2.state ≠ 5) →
       ∃ u, exec (.relayDone t) s = .next u ∧ u.now = T ∧ u.regs.relayActive = false ∧ u.regs.degraded = false ∧
         u.regs.eventCause.getLsbD 5 = true ∧ u.homing = activeChips s ∧ u.audited = [] ∧
         (∀ j, j ∈ u.moving ↔ ∃ d ∈ s.cmds, isStepOp (pktOp d) = true ∧ d.began = true ∧ d.phase ≠ .held ∧
           ∃ p ∈ d.ctxs, p.1 = j) ∧
         u.homes = u.moving.map (fun j => (j, (homeOf s j).1, (homeOf s j).2)) ∧
         { u with
           now := s.now, regs := s.regs, mgmt := s.mgmt, homing := s.homing, homes := s.homes, moving := s.moving
           audited := s.audited } = s) ∧
     (s.regs.relayActive = false ∨ s.loss ≠ .none ∨ (∃ p ∈ s.models, p.2.state = 5) →
       exec (.relayDone t) s = .next { s with now := T }) ∧
     (∀ mid, (∀ m, modelOf s mid = some m → m.state ≠ 5) → exec (.modelRelayComplete mid) s = .next s) ∧
     (∀ mid m ranks r, modelOf s mid = some m → m.state = 5 → m.plan = some (ranks, r) → memoriesWf s = true →
       trainedLinks s ≠ [] →
       let placed : Model := { m with
         ranks := ranks, resident := r, plan := none, state := if r < granuleRows m.desc ranks.length then 3 else 2 }
       let images := overhangGranules placed
       let x : Model := { placed with crcs := images.map fun g => crc32c (granuleImage placed g) }
       ∃ u, exec (.modelRelayComplete mid) s = .next u ∧
         u.models = s.models.map (fun p => if p.1 = mid then (mid, x) else p) ∧
         u.vault = { s.vault with models := s.vault.models.map fun p =>
           if p.1 = mid then (mid, { p.2 with state := x.state }) else p } ∧
         sameOutside (images.map fun g => (imageAddr placed g, (granuleImage placed g).length)) s u ∧
         ((images.map fun g => (imageAddr placed g, (granuleImage placed g).length)).Pairwise
             (fun p q => p.1 + p.2 ≤ q.1 ∨ q.1 + q.2 ≤ p.1) →
           ∀ g ∈ images, hostBytes u (imageAddr placed g) (granuleImage placed g).length = granuleImage placed g) ∧
         { u with host := s.host, models := s.models, vault := s.vault } = s) ∧
     (∀ sid h m, homeOf s sid = (h, some m) → exec (.mirrorBuildComplete sid) s = .next s) ∧
     (∀ sid h, homeOf s sid = (h, none) → ∃ u, exec (.mirrorBuildComplete sid) s = .next u ∧
       { u with homes := s.homes } = s ∧ (∀ j, j ≠ sid → homeOf u j = homeOf s j) ∧
       ∀ m, m < 8 → m ≠ h → (chipOf s m).active = true → ∃ x, homeOf u sid = (h, some x) ∧ x ≠ h ∧
         (chipOf s x).active = true ∧ (h < m → h < x ∧ x ≤ m) ∧ (x < h → x ≤ m)))

/-! ## The TMC's restart, background tasks and slots -/

/-- The TMC's watchdog in service makes the lead's fault agent deputy; when the TMC resumes, the ledger entries and fault-log
entries that waited are written, with the counters (R404, R407, R432); counters saved at other times go to the vault, not
while it restarts. A lane pause and telemetry wait for nothing (R460). In FREE order a task that is due runs in the first
gap, a recalibration pausing its link (R458, R346); where the chips work it waits, as in a window or a shutdown (R446, R460).
In FIXED order, in MODE_CTRL or of a started command (R372), it asks for a quiet slot (R459). A BIST segment beyond the 512 of
its round is taken only where a fault asks for a test (R410). A bounded slot serves the overdue task, at most one in 160,000
ticks of a chip, never in FIXED order, and marks the commands with piece work BG_INTRUSION (R458). A quiet slot opens on the
release tick once every active chip has arrived and no command is started, serves at most four BIST segments, lasts at most
12,800 ticks and ends by starting what it held (R365, R381, R410). -/
def Obligations.TmcRestartsAndBackgroundTasks : Prop :=
  (∀ (s : State),
     let saved (u : State) : Prop :=
       u.vault.counters.core = s.chips.map (fun c => c.cores.map fun k => k.counters) ∧
       u.vault.counters.link = s.mesh.map (fun l => l.counters) ∧ u.vault.counters.hbm = s.chips.map (fun c => c.hbm) ∧
       u.vault.counters.chip = s.chips.map (fun c => c.counters) ∧ u.vault.counters.total = s.totals
     (s.regs.ready = true → s.deputy = none → exec .tmcWatchdog s = .next { s with deputy := some s.regs.lead }) ∧
     (s.regs.ready = false ∨ s.deputy.isSome = true → exec .tmcWatchdog s = .next s) ∧
     (s.deputy = none → exec .tmcResume s = .next s ∧
       ∃ u, exec .counterSave s = .next u ∧ saved u ∧ { u with vault.counters := s.vault.counters } = s) ∧
     (s.deputy.isSome = true → exec .counterSave s = .next s ∧
       ∃ u, exec .tmcResume s = .next u ∧ saved u ∧ u.deputy = none ∧ u.deferred = [] ∧ u.deferredLog = [] ∧
         (ledgerNow u).entries = (ledgerNow s).entries ++ s.deferred ∧
         u.vault.faultLog = (s.deferredLog.reverse ++ s.vault.faultLog).take 1024 ∧
         { u with
           deputy := s.deputy, deferred := s.deferred, deferredLog := s.deferredLog, vault := s.vault
           ledgerWrite := s.ledgerWrite } = s)) ∧
  (∀ (s : State) (t : Tick),
     let T := max s.now t
     let open_ : Prop := s.regs.ready = true ∧ s.power.window = none ∧ s.shutdown = .none ∧ s.loss = .none
     let fixed : Prop := modeFixed s.regs.modeCtrl = true ∨ ∃ c ∈ s.cmds, c.phase ≠ .held ∧ modeFixed c.modeCtrl = true
     let only (u : State) : Prop := { u with
       now := s.now, cmds := s.cmds, tasks := s.tasks, quiet := s.quiet, chips := s.chips, mesh := s.mesh, totals := s.totals
       regs := s.regs, mgmt := s.mgmt, vault := s.vault, deferred := s.deferred, deferredLog := s.deferredLog
       streams := s.streams, audited := s.audited, masks := s.masks, loss := s.loss, power := s.power, bist := s.bist
       ledgerWrite := s.ledgerWrite } = s
     let round := (T - s.bist.readyAt) / ticksUs s 21600000000
     let taken := if s.bist.round = round then s.bist.segments else 0
     (∀ kind chip arg found bad,
       let due (i : Instr) (u : State) : Prop := exec i s = .next u ∧ u.now = T ∧ u.cmds = s.cmds ∧ only u ∧
         u.bist = if kind = 4 then ⟨s.bist.readyAt, round, taken + 1⟩ else s.bist
       let i := Instr.backgroundTaskDue kind chip arg found bad t
       let task : Task := ⟨kind, chip, arg, T, found, bad⟩
       let full : Prop := kind = 4 ∧ 512 ≤ taken ∧ testWanted s = false
       (s.regs.ready = false ∨ kind = 2 ∨ 6 ≤ kind ∨ full → exec i s = .next { s with now := T }) ∧
       (s.regs.ready = true → kind ≠ 2 → kind < 6 → ¬ full →
         (fixed → ∃ u, due i u ∧ u.power.idle = 0 ∧ u.tasks = s.tasks ++ [task] ∧
           u.chips = s.chips ∧ u.mesh = s.mesh ∧ (s.quiet = .none → open_ → u.quiet = .wanted) ∧
           (s.quiet ≠ .none ∨ ¬ open_ → u.quiet = s.quiet)) ∧
         (¬ fixed → (∃ c ∈ s.cmds, c.phase = .started) ∨ ¬ open_ → ∃ u, due i u ∧ u.power.idle = 0 ∧
           u.tasks = s.tasks ++ [task] ∧ u.chips = s.chips ∧ u.mesh = s.mesh ∧ u.quiet = s.quiet) ∧
         (¬ fixed → (∀ c ∈ s.cmds, c.phase ≠ .started) → open_ → ∃ u, due i u ∧ u.power.idle = 0 ∧
           u.quiet = s.quiet ∧
           (kind = 1 → s.tasks = [] → u.tasks = [] ∧ u.chips = s.chips ∧
             exec (.linkRecalibration (nth (0, 1) linkPairs arg).1 (nth (0, 1) linkPairs arg).2) s =
               .next { s with mesh := u.mesh, totals := u.totals })))) ∧
     (∀ chip, let i := Instr.boundedSlot chip t
       let allowed : Prop := ∀ l, (chipOf s chip).lastSlot = some l → l + ticksA s 160000 ≤ T
       let overdue (k : Task) : Prop := k ∈ s.tasks ∧ k.chip = chip ∧ k.due + maxDeferral s k.kind ≤ T
       (fixed ∨ ¬ open_ ∨ ¬ allowed ∨ (∀ k, ¬ overdue k) → exec i s = .next { s with now := T }) ∧
       (¬ fixed → open_ → allowed → ∀ k, overdue k →
         ∃ u k', exec i s = .next u ∧ only u ∧ u.now = T ∧ overdue k' ∧ (k'.kind < k.kind ∨ k'.kind = k.kind ∧ k'.due ≤ k.due) ∧
           u.quiet = s.quiet ∧ (k'.kind = 1 → u.tasks = s.tasks.erase k') ∧
           u.cmds = s.cmds.map fun c =>
             if c.phase = .started ∧ (isStepOp (pktOp c) = true ∨ isTensorOp (pktOp c) = true ∨ pktOp c = 0x60) then
               { c with cflags := c.cflags ||| 64 } else c)) ∧
     (∀ arrivals : List (Nat × Tick),
       let R := max s.now (arrivals.foldl (fun m a => max m a.2) 0 + ticksA s 2048)
       let all : Prop := ∀ c, c < 8 → (chipOf s c).active = true → ∃ a ∈ arrivals, a.1 = c
       (¬ all → exec (.quietSlotStart arrivals) s = .next s) ∧
       (all → s.quiet = .wanted → open_ → (∀ c ∈ s.cmds, c.phase = .held) →
         ∃ u, exec (.quietSlotStart arrivals) s = .next u ∧ only u ∧
           u.now = R ∧ u.cmds = s.cmds ∧ u.quiet = .openUntil (R + ticksA s 12800) ∧
           ((∀ k ∈ s.tasks, k.kind = 1 ∨ k.kind = 4 ∧ k.bad = []) →
             u.tasks = (s.tasks.filter fun k => k.kind == 4).drop 4)) ∧
       (all → s.quiet ≠ .wanted ∨ ¬ open_ ∨ (∃ c ∈ s.cmds, c.phase ≠ .held) →
         exec (.quietSlotStart arrivals) s = .next { s with now := R })) ∧
     (∀ stop, s.quiet = .openUntil stop → ∃ u, exec (.quietSlotEnd t) s = .next u ∧ (u.quiet = .none ∨ u.quiet = .wanted) ∧
       { u with quiet := .none } = (s.cmds.map fun c => c.id).foldl
         (fun v id => match exec (.commandStart id v.now) v with | .next w => w | _ => v)
         { s with quiet := .none, now := max s.now (min t stop) }) ∧
     ((∀ stop, s.quiet ≠ .openUntil stop) → exec (.quietSlotEnd t) s = .next { s with now := T }))

/-! ## Power, heat and the Puffball -/

/-- A power measurement sets the level of Table PWR-1 whose threshold P / C reaches: at once upwards, and down by one step
only after 16 measurements in a row below the current level's, C being the cap, from 38 V up to 40 V at most 8.0 A times the
input (R435, R437); P counts the charging of the Puffball in, held to 10 W below 12 J at any level, above that to what Table
PWR-1 gives the level, and to nothing at E_FULL (R439). A chip at 95 °C applies level 5 at least, with THERMAL, until 5 °C below (R440); at 110 °C its regulator
powers it down and it is lost; from 60 °C the cold plate holds every chip at level 5 until below 55 °C (R488). POWER_READY is
set at 12 J, cleared below 10 J, and stays clear where the capacity is below 12 J (R442, R444); a fall below 8 J inside a
window commits to shutdown on that tick (R445); an empty Puffball without input drops the rails (R450), the vault standing but for a ledger write under way, which may be
torn and then waits with its entries for the next bring-up (R407; whether it is torn is free: log entry 93). A
capacity below 14 J raises PUFFBALL_WORN (R444). With the rails down and no input the Puffball is bled below 1 J, to a value
the manual leaves open (R490). -/
def Obligations.PowerHeatAndPuffball : Prop :=
  (∀ (s : State),
     let p := s.power
     let cap := if 38000 ≤ p.millivolts ∧ p.millivolts < 40000 then min (1000 * p.cap) (8 * p.millivolts) else 1000 * p.cap
     let th := [0, 90, 93, 96, 98, 100, 102, 105]
     (∀ load charge r,
       let limit := if 24000 ≤ p.energy then 0 else if p.energy < 12000 ∨ p.pressure ≤ 1 then 10000
         else if p.pressure = 2 then 5000 else 0
       let mw := load + min charge limit
       let q : Power := { p with milliwatts := mw, charging := min charge limit }
       r ≤ 7 → (r = 0 ∨ nth 0 th r * cap ≤ 100 * mw) → (r = 7 ∨ 100 * mw < nth 0 th (r + 1) * cap) →
       (p.pressure < r → exec (.pressureMeasurement ⟨load, charge⟩) s =
         .next { s with power := { q with pressure := r, below := 0 } }) ∧
       (p.pressure = r → exec (.pressureMeasurement ⟨load, charge⟩) s = .next { s with power := { q with below := 0 } }) ∧
       (r < p.pressure → p.below < 15 → exec (.pressureMeasurement ⟨load, charge⟩) s =
         .next { s with power := { q with below := p.below + 1 } }) ∧
       (r < p.pressure → 15 ≤ p.below → exec (.pressureMeasurement ⟨load, charge⟩) s =
         .next { s with power := { q with pressure := p.pressure - 1, below := 0 } })) ∧
     (∀ c temp t, c < s.chips.length → let T := max s.now t
       (temp < 95 ∨ (chipOf s c).active = false → exec (.thermalThrottle c temp t) s = .next { s with now := T }) ∧
       (95 ≤ temp → (chipOf s c).active = true → ∃ u, exec (.thermalThrottle c temp t) s = .next u ∧ u.now = T ∧
         chipOf u c = { chipOf s c with throttled := true } ∧ (∀ k, k ≠ c → u.chips[k]? = s.chips[k]?) ∧
         u.regs.eventCause.getLsbD 11 = true ∧ u.power = p ∧ chipPressure u c = max 5 p.pressure ∧
         (temp < 110 → { u with
           now := s.now, chips := s.chips, regs := s.regs, mgmt := s.mgmt, vault := s.vault, deferredLog := s.deferredLog } = s) ∧
         (110 ≤ temp → s.deputy = none → s.loss = .none → u.loss = .declared [c] (T + ticksA s 1600) []))) ∧
     (∀ c temp, c < s.chips.length →
       (temp ≤ 90 → ∃ u, exec (.throttleRelease c temp) s = .next u ∧ { u with chips := s.chips } = s ∧
         chipOf u c = { chipOf s c with throttled := false } ∧ (∀ k, k ≠ c → u.chips[k]? = s.chips[k]?) ∧
         (p.coldPlate = false → chipPressure u c = p.pressure)) ∧
       (90 < temp → exec (.throttleRelease c temp) s = .next s)) ∧
     (∀ temp,
       (60 ≤ temp → ∃ u, exec (.coldPlateOvertemp temp) s = .next u ∧ { u with power := s.power, regs := s.regs, mgmt := s.mgmt } = s ∧
         u.power = { p with coldPlate := true } ∧ u.regs.eventCause.getLsbD 11 = true ∧
         ∀ c, chipPressure u c = max 5 p.pressure) ∧
       (temp < 60 → exec (.coldPlateOvertemp temp) s = .next s) ∧
       (temp < 55 → exec (.coldPlateRelease temp) s = .next { s with power.coldPlate := false }) ∧
       (55 ≤ temp → exec (.coldPlateRelease temp) s = .next s))) ∧
  (∀ (s : State) (mj : Nat),
     let p := s.power
     let ready := if p.capacity < 12000 ∨ mj < 10000 then false else if 12000 ≤ mj then true else p.powerReady
     (∀ t, (∀ d, p.window = some d → t < d) →
       let T := max s.now t
       ((p.window = none ∨ 8000 ≤ mj) → (mj ≠ 0 ∨ inputPresent s = true ∨ railsUp s = false) →
         exec (.puffballMeasure mj t) s = .next { s with now := T, power.energy := mj, power.powerReady := ready }) ∧
       (p.window.isSome = true → mj < 8000 → (mj ≠ 0 ∨ inputPresent s = true) → s.boot = .serving → p.idle ≠ 4 →
         s.shutdown = .none → ∃ u, exec (.puffballMeasure mj t) s = .next u ∧ u.now = T ∧ u.shutdown = .drain T 0 false false ∧
         u.regs.saving = true ∧ u.regs.eventCause.getLsbD 4 = true ∧
         u.power = { p with energy := mj, powerReady := false, window := none } ∧
         { u with now := s.now, regs := s.regs, power := s.power, mgmt := s.mgmt, shutdown := s.shutdown } = s) ∧
       (mj = 0 → p.window = none → inputPresent s = false → railsUp s = true →
         ∃ u, exec (.puffballMeasure mj t) s = .next u ∧ u.boot = .railsDown ∧ u.regs.ready = false ∧ u.cmds = [] ∧
           u.streams = [] ∧ u.models = [] ∧ u.host = s.host ∧ u.ledgerWrite = none ∧
           let a := s.vault.ledgerA
           let b := s.vault.ledgerB
           let whole : Vault := { s.vault with torn := s.vault.torn ++ s.deferred }
           ((∀ d es, s.ledgerWrite = some (d, es) → d ≤ T) → u.vault = whole) ∧
           (∀ d es, s.ledgerWrite = some (d, es) → T < d → u.vault = whole ∨ u.vault = { s.vault with
             torn := s.vault.torn ++ es ++ s.deferred
             ledgerA := if a.seq < b.seq then a else { a with checkOk := false }
             ledgerB := if b.seq < a.seq then b else { b with checkOk := false } }))) ∧
     (p.powerReady = true → p.window = none → ∃ u, exec (.puffballCapacityMeasure mj) s = .next u ∧
       u.power = { p with capacity := mj, powerReady := decide (12000 ≤ mj) } ∧
       u.regs.events = (if mj < 14000 then [(0x06, 0, 0, s.now)] else []) ++ s.regs.events ∧
       { u with power := s.power, regs := s.regs, mgmt := s.mgmt } = s) ∧
     (p.powerReady = false ∨ p.window.isSome = true → exec (.puffballCapacityMeasure mj) s = .next s) ∧
     (s.boot = .railsDown → inputPresent s = false → ∃ u, exec .puffballBleed s = .next u ∧ u.boot = .off ∧
       u.power.energy < 1000 ∧ u.power.energy ≤ p.energy ∧ u.power.powerReady = false ∧
       { u with boot := s.boot, power := s.power, freeCtr := s.freeCtr } = s) ∧
     (s.boot ≠ .railsDown ∨ inputPresent s = true → exec .puffballBleed s = .next s))

/-! ## The input -/

/-- From 60 V up to 63 V the tray keeps operating and raises INPUT_HIGH; above, protection disconnects the busbar (R435).
PF_EARLY sets its bit in TRAY_STATUS and EVENT_CAUSE and opens the window of 5 ms; a return at or above 40 V inside it closes
it, clears PF_EARLY in TRAY_STATUS and counts BROWNOUT_RIDDEN; on D or later the tray commits on D first (R445). With the
rails down a return begins bring-up, if PRSNT_L reads mated, on a counter from 0 (R449, R492, R356). On D the tray commits to
shutdown, setting SAVING and POWER_SAVE (R445, R447); before READY, and in I4, the rails drop with no save (Table PWR-6).
Presence lost in service commits at once, SAVE_KIND 0, with no window; before READY it opens a window as PF_EARLY does
(R493). Mating again makes the input present and changes nothing else (R492). -/
def Obligations.InputDipsAndLosses : Prop :=
  (∀ (s : State) (mv : Nat) (t : Tick),
     let p := s.power
     let T := max s.now t
     let down : Prop := s.boot = .off ∨ s.boot = .railsDown
     let back (u : State) : State := { u with power.millivolts := mv, power.disconnected := false }
     (mv < 60000 → exec (.inputHigh mv t) s = .next { s with now := T }) ∧
     (60000 ≤ mv → mv ≤ 63000 → exec (.inputHigh mv t) s = .next { s with
       now := T, power.millivolts := mv, regs.events := (0x05, 0, 0, T) :: s.regs.events, mgmt.smbAlert := true }) ∧
     (63000 < mv → exec (.inputHigh mv t) s = .next { s with now := T, power.millivolts := mv, power.disconnected := true }) ∧
     (p.window = none →
       (38000 ≤ mv → p.disconnected = false → exec (.pfEarly mv t) s = .next { s with now := T }) ∧
       (mv < 38000 ∨ p.disconnected = true →
         (down → exec (.pfEarly mv t) s = .next { s with now := T, power.millivolts := mv }) ∧
         (¬ down → ∃ u, exec (.pfEarly mv t) s = .next u ∧ u.now = T ∧ u.regs.pfEarly = true ∧
           u.regs.eventCause.getLsbD 3 = true ∧ u.power.window = some (T + ticksUs s 5000) ∧ u.power.millivolts = mv ∧
           (p.idle ≠ 4 → u.power.idle = 0) ∧
           { u with now := s.now, regs := s.regs, power := s.power, mgmt := s.mgmt } = s))) ∧
     (mv < 40000 ∨ 63000 < mv ∨ p.mated = false → exec (.inputReturn mv t) s = .next s) ∧
     (40000 ≤ mv → mv ≤ 63000 → p.mated = true →
       (∀ d, p.window = some d → t < d → ∃ u, exec (.inputReturn mv t) s = .next u ∧
         u = { back s with
           now := T, regs.pfEarly := false, power.window := none, power.idleSince := T
           totals := u.totals, quiet := u.quiet } ∧ (u.quiet = s.quiet ∨ s.quiet = .none ∧ u.quiet = .wanted) ∧
         (31 < s.totals.length → nth 0 u.totals 31 = min 0xFFFFFFFF (nth 0 s.totals 31 + 1)) ∧ ∀ i, i ≠ 31 → nth 0 u.totals i = nth 0 s.totals i) ∧
       (∀ d, p.window = some d → d ≤ t → s.boot = .serving → p.idle ≠ 4 → s.shutdown = .none →
         ∃ u, exec (.inputReturn mv t) s = .next u ∧ u.shutdown = .drain (max s.now d) 0 false false ∧
           u.regs.saving = true ∧ u.regs.eventCause.getLsbD 4 = true ∧ u.power = { (back s).power with window := none }) ∧
       (p.window = none → down → exec (.inputReturn mv t) s = .next { back s with now := 0, boot := .inputCheck }) ∧
       (p.window = none → ¬ down → exec (.inputReturn mv t) s = .next { back s with now := T }))) ∧
  (∀ (s : State),
     let p := s.power
     let dropped (u : State) : Prop := u.boot = .railsDown ∧ u.regs.ready = false ∧ u.cmds = [] ∧ u.streams = [] ∧
       u.models = [] ∧ u.rings = [] ∧ u.vault = { s.vault with torn := s.vault.torn ++ s.deferred } ∧ u.host = s.host ∧
       u.mgmt = s.mgmt
     let commits (u : State) (d : Nat) : Prop := u.now = d ∧ u.shutdown = .drain d 0 false false ∧ u.regs.saving = true ∧
       u.regs.eventCause.getLsbD 4 = true ∧
       { u with now := s.now, regs := s.regs, power := s.power, mgmt := s.mgmt, shutdown := s.shutdown } = s
     (p.window = none → exec .decisionTick s = .next s) ∧
     (∀ d, p.window = some d → s.shutdown = .none → s.boot ≠ .off →
       (s.boot = .serving → p.idle ≠ 4 → ∃ u, exec .decisionTick s = .next u ∧ commits u (max s.now d) ∧
         u.power = { p with window := none }) ∧
       (s.boot ≠ .serving ∨ p.idle = 4 → ∃ u, exec .decisionTick s = .next u ∧ dropped u ∧ u.now = max s.now d)) ∧
     (∀ t, p.window = none → let T := max s.now t
       (s.boot = .off ∨ s.boot = .railsDown → exec (.presenceLost t) s = .next { s with now := T, power.mated := false }) ∧
       (bringingUp s = true → exec (.presenceLost t) s =
         .next { s with now := T, power.mated := false, power.window := some (T + ticksUs s 5000) }) ∧
       (s.boot = .serving → p.idle ≠ 4 → s.shutdown = .none → ∃ u, exec (.presenceLost t) s = .next u ∧ commits u T ∧
         u.power = { p with mated := false })) ∧
     exec .presenceMated s = .next { s with power.mated := true })

/-! ## Saves, idle states and resets -/

/-- After the commit nothing is accepted; the snapshot tick waits for started commands, at most until D + 10 ms; on it every
command still incomplete leaves, its staged commits discarded, with a record POWER_SAVE_ABORT where a link is trained, and the
slot of the lower SAVE_SEQ goes to SLOT_STATE 1 (R447, R452, R313). The save marks that slot complete: SAVE_SEQ one above the
other's, S, SETTINGS_FP, the chips, SAVE_KIND, their Ring states and the contexts of the open streams; then the rails drop, but
a fault shutdown keeps them (R424, R448, R449, R455). -/
def Obligations.SavesSnapshotAndComplete : Prop :=
  ∀ (s : State) (t : Tick),
    let T := max s.now t
    let a := decide (s.vault.slotA.seq ≤ s.vault.slotB.seq)
    let slot (u : State) (b : Bool) : Slot := if b then u.vault.slotA else u.vault.slotB
    (∀ d kind stay i5, s.shutdown = .drain d kind stay i5 →
      let last := d + ticksUs s 10000
      let x := max s.now (min t last)
      ((∃ c ∈ s.cmds, c.phase ≠ .held ∧ isFailure c.status = false) → t < last →
        exec (.snapshotTick t) s = .next { s with now := T }) ∧
      ((∀ c ∈ s.cmds, c.phase = .held ∨ isFailure c.status = true) ∨ last ≤ t →
        (∀ c ∈ s.cmds, pktOp c ≠ 0x7F ∧ (isFailure c.status = true → c.commits = [])) →
        ∃ u, exec (.snapshotTick t) s = .next u ∧ u.now = x ∧ u.cmds = [] ∧ u.shutdown = .save x kind stay i5 ∧
          u.barrierSt = none ∧ u.tasks = [] ∧ u.quiet = .none ∧ slot u a = { slot s a with state := 1, headerOk := false } ∧
          slot u (!a) = slot s (!a) ∧
          { u with
            now := s.now, cmds := s.cmds, shutdown := s.shutdown, barrierSt := s.barrierSt, tasks := s.tasks, quiet := s.quiet
            vault.slotA := s.vault.slotA, vault.slotB := s.vault.slotB, done := s.done, recent := s.recent, host := s.host
            rings := s.rings, regs.msi := s.regs.msi, regs.msixPending := s.regs.msixPending
            power.idleSince := s.power.idleSince, freeCtr := s.freeCtr, homes := s.homes, moving := s.moving } = s ∧
          (∀ c, s.cmds = [c] → c.status = 0 → pktAbortOnLate c = false → c.commits = [] → c.cq < 256 → trainedLinks s ≠ [] →
            memoriesWf s = true →
            hostBytes u (cqBase (ringOf s c.cq) + 32 * (ringOf s c.cq).cqTail) 32 =
              leBytes 4 (pktTag c) ++ leBytes 2 (fnRing s c.fn c.ring) ++ leBytes 2 c.index ++ leBytes 1 0x60 ++
              leBytes 1 (b2n (ringOf s c.cq).phase) ++ leBytes 2 (complFlags c x) ++ leBytes 4 0 ++ leBytes 8 c.accept ++
              leBytes 8 x))) ∧
    ((∀ d kind stay i5, s.shutdown ≠ .drain d kind stay i5) → exec (.snapshotTick t) s = .next { s with now := T }) ∧
    (∀ x kind stay i5, s.shutdown = .save x kind stay i5 → s.deputy = none →
      ∃ u, exec (.saveComplete t) s = .next u ∧ u.now = T ∧ u.shutdown = .none ∧ slot u (!a) = slot s (!a) ∧
        slot u a = { state := 2, seq := (slot s (!a)).seq + 1, tick := x, settings := s.regs.settings, chips := chipMask s
                     kind := kind, headerOk := true
                     lanes := (List.range 8).map fun c => if (chipOf s c).active then (chipOf s c).lanes else List.replicate 8 0
                     contexts := (s.streams.filter fun p => p.2.isOpen).map fun p => (p.1, ctxBytes p.1 p.2) } ∧
        u.vault.counters.total = s.totals ∧
        { u.vault with slotA := s.vault.slotA, slotB := s.vault.slotB, counters := s.vault.counters, torn := s.vault.torn } = s.vault ∧
        (s.deferred = [] → u.vault.torn = s.vault.torn) ∧
        u.regs.ready = false ∧
        (stay = true → u.boot = .faultShutdown ∧ u.streams = s.streams ∧ u.chips = s.chips) ∧
        (stay = false → u.boot = (if i5 then .i5 else if inputPresent s then .inputCheck else .railsDown) ∧
          u.regs.saving = false ∧ u.cmds = [] ∧ u.streams = [] ∧ u.models = [] ∧ u.rings = [])) ∧
    ((∀ x kind stay i5, s.shutdown ≠ .save x kind stay i5) → exec (.saveComplete t) s = .next { s with now := T })

/-- The idle tray, after the entry delay of Table PWR-9, enters the next state in order whose wake time WAKE_TOLERANCE
allows; I4 writes a save slot of SAVE_KIND 2 from the committed state (R454, R455). A reset action is accepted at once, and a
second before READY or I5 is refused with HTTP 409 (R485). GracefulRestart and GracefulShutdown in service commit to shutdown
with SAVE_KIND 3, the latter into I5; ForceRestart consumes every save slot and drops the rails with no save; On leaves I5
for bring-up (R455, R465). Redfish serves with its port enabled and the label's credentials changed (R483); without it
nothing happens. -/
def Obligations.IdleStatesAndResets : Prop :=
  (∀ (s : State) (n : Nat) (t : Tick),
     let T := max s.now t
     let row := nth (0, 0) [(0, 0), (2, 1), (1000, 60), (10000, 900), (1000000, 40000)] n
     let idle : Prop := s.cmds = [] ∧ s.power.window = none ∧ s.regs.ready = true ∧ s.shutdown = .none ∧ s.loss = .none ∧
       ∀ p ∈ s.rings, sqEnabled p.2 = true → p.2.sqHead = p.2.sqTail
     let enters : Prop := idle ∧ n = s.power.idle + 1 ∧ n ≤ 4 ∧ row.2 ≤ s.regs.wakeTolerance.toNat ∧
       s.power.idleSince + ticksUs s row.1 ≤ T
     (¬ enters → exec (.idleEntry n t) s = .next { s with now := T }) ∧
     (enters → n < 4 → exec (.idleEntry n t) s = .next { s with now := T, power.idle := n }) ∧
     (enters → n = 4 → ∃ u x, exec (.idleEntry n t) s = .next u ∧
       u = { s with now := T, power.idle := 4, power.i4Slot := true, vault := u.vault } ∧
       u.vault = (if s.vault.slotA.seq ≤ s.vault.slotB.seq then { s.vault with slotA := x } else { s.vault with slotB := x }) ∧
       x.state = 2 ∧ x.headerOk = true ∧ x.kind = 2 ∧ x.tick = T ∧
       x.seq = max s.vault.slotA.seq s.vault.slotB.seq + 1 ∧
       x.contexts = (s.streams.filter fun p => p.2.isOpen).map fun p => (p.1, ctxBytes p.1 p.2))) ∧
  (∀ (s : State) (t : Tick),
     let resets : List Instr := [.gracefulRestart t, .gracefulShutdown t, .forceRestart, .on]
     let after : Boot := if inputPresent s then .inputCheck else .railsDown
     let used (x : Slot) : Slot := if x.state = 0 then x else { x with state := 3 }
     (redfishUp s = false → ∀ i ∈ resets, exec i s = .next s) ∧
     (redfishUp s = true → s.mgmt.resetBusy = true → ∀ i ∈ resets,
       exec i s = .next { s with regs.readData := 1#8 :: leBytes 2 409 }) ∧
     (redfishUp s = true → s.mgmt.resetBusy = false →
       (s.boot = .serving → s.shutdown = .none → ∀ i5, ∃ u,
         exec (if i5 = true then .gracefulShutdown t else .gracefulRestart t) s = .next u ∧ u.now = max s.now t ∧
         u.shutdown = .drain (max s.now t) 3 false i5 ∧ u.regs.saving = true ∧ u.regs.eventCause.getLsbD 4 = true ∧
         u.regs.readData = [0#8] ∧ u.mgmt.resetBusy = true ∧ u.power.idle = 0 ∧
         { u with now := s.now, regs := s.regs, power := s.power, mgmt := s.mgmt, shutdown := s.shutdown
                  vault.slotA := s.vault.slotA, vault.slotB := s.vault.slotB } = s) ∧
       (∃ u, exec .forceRestart s = .next u ∧ u.boot = after ∧
         u.vault = { s.vault with
           slotA := used s.vault.slotA, slotB := used s.vault.slotB, torn := s.vault.torn ++ s.deferred } ∧ u.regs.ready = false ∧
         u.cmds = [] ∧ u.streams = [] ∧ u.models = [] ∧ u.shutdown = .none ∧ u.mgmt.resetBusy = true ∧ u.regs.readData = [0#8]) ∧
       (s.boot = .i5 → exec .on s = .next { s with boot := after, mgmt.resetBusy := true, regs.readData := [0#8] } ∧
         (s.shutdown = .none → exec (.gracefulRestart t) s =
           .next { s with now := max s.now t, boot := after, mgmt.resetBusy := true, regs.readData := [0#8] })) ∧
       (s.boot ≠ .i5 → exec .on s = .next { s with regs.readData := [0#8] })))

/-! ## Bring-up -/

/-- Step 1 runs once the input has been at 40 to 60 V, with PRSNT_L mated, and resets the registers (R461, R463, R492). Step 2
reaches E_COMMIT or raises PUFFBALL_FAULT and goes on (R461). At step 3 the boot ROM starts the active bank, else the other,
which becomes active with FW_REVERTED; so does a newly activated bank that failed three bring-ups; with neither the TMC is in
recovery mode (R466, R474). Ledger entries that a power loss cut short are written (R407). The valid configuration copy with the higher CFG_SEQ is used, else the factory defaults, with
CFG_DEFAULTED and a fault-log entry (R469, R470); each port latches HOST_LINKS (R462). -/
def Obligations.BringUpStartsFirmware : Prop :=
  ∀ (s : State),
    let m := s.mgmt
    let p := s.power
    let ready (mj : Nat) := if p.capacity < 12000 ∨ mj < 10000 then false else if 12000 ≤ mj then true else p.powerReady
    (∀ mv, let starts : Prop := (s.boot = .off ∨ s.boot = .railsDown ∨ s.boot = .inputCheck) ∧ p.mated = true ∧ 40000 ≤ mv ∧
        mv ≤ 60000 ∧ p.window = none
      (¬ starts → exec (.inputCheck mv) s = .next s) ∧
      (starts → exec (.inputCheck mv) s = .next { s with
        now := if s.boot = .inputCheck then s.now else 0, boot := .preCharge
        regs := { Regs.reset with readData := s.regs.readData, msi := s.regs.msi, events := s.regs.events }
        bridges := s.bridges.map fun b => { b with failed := false, ingress := [], tails := [] }
        power := { p with cap := 300, millivolts := mv, disconnected := false }
        mgmt.eid := 0, mgmt.spdm := 0, mgmt.transcript := [] })) ∧
    (∀ mj, let u := { s with boot := .tmcBoot, power.energy := mj, power.powerReady := ready mj }
      (s.boot ≠ .preCharge ∨ p.window ≠ none → exec (.puffballPreCharge mj) s = .next s) ∧
      (s.boot = .preCharge → p.window = none → 8000 ≤ mj → exec (.puffballPreCharge mj) s = .next u) ∧
      (s.boot = .preCharge → p.window = none → mj < 8000 → exec (.puffballPreCharge mj) s =
        .next { u with regs.events := (0x0C, 0, 0, s.now) :: s.regs.events, mgmt.smbAlert := true })) ∧
    (∀ rom : RomResult,
      (s.boot ≠ .tmcBoot ∨ p.window ≠ none → exec (.tmcBoot rom) s = .next s) ∧
      (s.boot = .tmcBoot → p.window = none → m.activeBank < 2 →
        let ok (b : Nat) : Bool := (if b = 0 then rom.bankA else rom.bankB) && (nth ⟨[], false⟩ m.banks b).valid
        let first := if m.activated = true ∧ 3 ≤ m.tries then 1 - m.activeBank else m.activeBank
        let newer := decide (fieldAt s.vault.cfgB 4 4 ≤ fieldAt s.vault.cfgA 4 4)
        let copy : Option Bool := if cfgValid s.vault.cfgA && (!cfgValid s.vault.cfgB || newer) then some true
          else if cfgValid s.vault.cfgB then some false else none
        ∃ u, exec (.tmcBoot rom) s = .next u ∧ u.mgmt.inForce = copy ∧
          (∀ a, copy = some a → u.mgmt.cfg = (if a then s.vault.cfgA else s.vault.cfgB) ∧ u.regs.cfgDefaulted = false ∧
            (s.vault.torn = [] → s.deferred = [] → u.vault = s.vault)) ∧
          (copy = none → u.mgmt.cfg = factoryBlob 0 ∧ u.regs.cfgDefaulted = true ∧ u.regs.eventCause.getLsbD 7 = true ∧
            (0x01, 0, 0, s.now) ∈ u.regs.events ∧ u.vault.cfgA = s.vault.cfgA ∧ u.vault.cfgB = s.vault.cfgB ∧
            u.vault.faultLog.head? = some ⟨s.now, 7, 0, 0, 0⟩) ∧
          (u.boot = .chipPower → s.vault.ledgerA.valid = true ∨ s.vault.ledgerB.valid = true →
            u.vault.torn = [] ∧ (ledgerNow u).entries = (ledgerNow s).entries ++ s.vault.torn ++ s.deferred) ∧
          (ok first = true → u.boot = .chipPower ∧ u.mgmt.activeBank = first ∧
            (first ≠ m.activeBank → (0x09, 0, 0, s.now) ∈ u.regs.events)) ∧
          (ok first = false → ok (1 - first) = true → u.boot = .chipPower ∧ u.mgmt.activeBank = 1 - first ∧
            u.mgmt.activated = false ∧ (0x09, 0, 0, s.now) ∈ u.regs.events) ∧
          (u.boot = .chipPower → u.mgmt.running = (nth ⟨[], false⟩ m.banks u.mgmt.activeBank).bytes ∧
            ∀ q < 2, q < s.bridges.length → let l := (nth ⟨false, 0, [], []⟩ u.bridges q).latch
              bit l q = bit (cfgField u 0x17 1) q ∧ bit l (2 + q) = bit (cfgField u 0x17 1) (2 + q)) ∧
          (ok first = false → ok (1 - first) = false → u.boot = .recovery ∧ u.bridges = s.bridges ∧
            u.regs.events.head? = some (0x0A, 0, 0, s.now)) ∧
          { u with
            boot := s.boot, mgmt := s.mgmt, regs := s.regs, vault := s.vault, bridges := s.bridges, links := s.links
            ledgerWrite := s.ledgerWrite, deputy := s.deputy, deferred := s.deferred, deferredLog := s.deferredLog } = s))

/-- Step 4 powers a chip that was lost fewer than twice, restores the counters and applies the ledger: a CORE_SPARED entry
fences the core and activates its spare, CORE_FENCED fences, ROW_SPARED spares the row (R408, R409, R425, R432); when neither
copy is valid the ledger is rebuilt, with LEDGER_REBUILT. A chip that fails BIST is not admitted, with BIST_FAIL (R411). Step
5: a chip whose HBM fails is not admitted; a link that did not train is FAILED, with LINK_FAILED; a chip with a CHIP_LOST
entry is admitted with at least three links, entered as CHIP_READMITTED, and with fewer is not (R344, R425). -/
def Obligations.BistAndTrainingAdmitChips : Prop :=
  (∀ (s : State) (found : List BistResult),
     let rebuilt := s.mgmt.rebuilt
     let es := if rebuilt then [] else (ledgerNow s).entries
     let lost (c : Nat) := (es.filter fun e => e.kind == 5 && e.chip == c).length
     let core (u : State) (c k : Nat) := nth (Core.fresh k) (chipOf u c).cores k
     (s.boot ≠ .chipPower ∨ s.power.window ≠ none → exec (.chipPowerOnBist found) s = .next s) ∧
     (s.boot = .chipPower → s.power.window = none → s.deferred = [] →
       (∃ u, exec (.chipPowerOnBist []) s = .next u ∧ u.boot = .training ∧ u.totals = s.vault.counters.total ∧
         (∀ c, c < s.chips.length → (chipOf u c).active = decide (lost c < 2) ∧
           (chipOf u c).hbm = nth (chipOf s c).hbm s.vault.counters.hbm c ∧
           (chipOf u c).counters = nth (chipOf s c).counters s.vault.counters.chip c) ∧
         (∀ e, es = [e] → e.chip < s.chips.length → e.unit < (chipOf s e.chip).cores.length →
           (e.kind = 1 → e.replacement < (chipOf s e.chip).cores.length → e.replacement ≠ e.unit →
             (core u e.chip e.unit).role = .fenced ∧ (core u e.chip e.replacement).role = .active) ∧
           (e.kind = 2 → (core u e.chip e.unit).role = .fenced) ∧
           (e.kind = 3 → (core u e.chip e.unit).spared = ((core s e.chip e.unit).spared.filter fun p => p.1 != e.element) ++
             [(e.element, e.replacement)])) ∧
         (rebuilt = false → u.vault = s.vault ∧ u.regs = s.regs) ∧
         (rebuilt = true → u.vault.ledgerA = ⟨1, true, 1, 0, []⟩ ∧ u.vault.ledgerB = ⟨1, true, 2, 0, []⟩ ∧
           u.regs.events = (0x02, 0, 0, s.now) :: s.regs.events ∧ u.regs.eventCause = s.regs.eventCause) ∧
         { u with
           boot := s.boot, chips := s.chips, mesh := s.mesh, totals := s.totals, vault := s.vault, regs := s.regs, mgmt := s.mgmt
           freeCtr := s.freeCtr, deferredLog := s.deferredLog } = s) ∧
       (∀ c ring cores rows spares, c < s.chips.length → ∃ u, exec (.chipPowerOnBist [⟨c, false, ring, cores, rows, spares⟩]) s = .next u ∧
         (chipOf u c).active = false ∧ (∀ k, k < s.chips.length → k ≠ c → (chipOf u k).active = decide (lost k < 2)) ∧
         (lost c < 2 → u.regs.eventCause.getLsbD 8 = true)))) ∧
  (∀ (s : State) (found : List TrainResult),
     let es := (ledgerNow s).entries
     let sound (l : Link) : Prop := l.failed = false ∧ 2 ≤ l.up.lanes.length ∧ 2 ≤ l.down.lanes.length
     (s.boot ≠ .training ∨ s.power.window ≠ none → exec (.hbmMycelTraining found) s = .next s) ∧
     (s.boot = .training → s.power.window = none → s.deputy = none → s.deferred = [] → s.chips.length = 8 → s.mesh.length = 28 →
       s.mgmt.rebuilt = false → (∀ q ∈ linkPairs, sound (linkOf s q.1 q.2)) →
       (es = [] → exec (.hbmMycelTraining []) s = .next { s with boot := .alignment }) ∧
       (es = [] → ∀ c, c < 8 → ∃ u, exec (.hbmMycelTraining [⟨c, false, [], []⟩]) s = .next u ∧ u.boot = .alignment ∧
         chipOf u c = { chipOf s c with active := false } ∧ (∀ k, k ≠ c → u.chips[k]? = s.chips[k]?) ∧
         { u with boot := s.boot, chips := s.chips } = s) ∧
       (es = [] → ∀ a b, a < 8 → b < 8 → a ≠ b → ∃ u, exec (.hbmMycelTraining [⟨a, true, [b], []⟩]) s = .next u ∧
         u.boot = .alignment ∧ linkFailed u a b = true ∧ u.chips = s.chips ∧
         (∀ q ∈ linkPairs, linkIndex q.1 q.2 ≠ linkIndex a b → linkOf u q.1 q.2 = linkOf s q.1 q.2) ∧
         ((chipOf s a).active = true → (chipOf s b).active = true → u.regs.eventCause.getLsbD 2 = true)) ∧
       (∀ e, es = [e] → e.kind = 5 → e.chip < 8 → (chipOf s e.chip).active = true →
         let peers := ((activeChips s).filter fun d => d != e.chip && !linkFailed s e.chip d).length
         ∃ u, exec (.hbmMycelTraining []) s = .next u ∧ u.boot = .alignment ∧ u.mesh = s.mesh ∧
           (3 ≤ peers → u.chips = s.chips ∧
             (ledgerNow u).entries = [e, ⟨6, e.chip, 0, 1, 0, 0, (ledgerNow s).bringUps⟩]) ∧
           (peers < 3 → chipOf u e.chip = { chipOf s e.chip with active := false } ∧
             (∀ k, k ≠ e.chip → u.chips[k]? = s.chips[k]?) ∧ ledgerNow u = ledgerNow s))))

/-- At step 6 every counter starts at 0, and a chip outside R357 is not admitted (R356). Step 7 takes MODE_CTRL, POWER_CAP_W and
WAKE_TOLERANCE from the configuration, the masks and the sound function images from the vault, every generation starting from 0 (R398); a resume restores the slot's
contexts whose CTX_CHECK holds, without their histories, reports the others in the fault log, restores the Ring states and
holds every vaulted model suspended (R251, R196, R273, R453); a cold start holds none, with SAVE_LOST where a slot is
incomplete (R450). -/
def Obligations.AlignmentAndApply : Prop :=
  ∀ (s : State),
    (∀ outside, (s.boot ≠ .alignment ∨ s.power.window ≠ none → exec (.trayCounterAlignment outside) s = .next s) ∧
      (s.boot = .alignment → s.power.window = none → ∃ u, exec (.trayCounterAlignment outside) s = .next u ∧
        { u with chips := s.chips } =
          { s with boot := .apply, now := 0, tmc := (0, 0), ledgerWrite := none, power.idleSince := 0 } ∧
        ∀ c, c < s.chips.length → chipOf u c =
          { chipOf s c with
            active := (chipOf s c).active && !outside.contains c, offset := 0, offsetAt := 0 })) ∧
    (s.boot ≠ .apply ∨ s.power.window ≠ none → exec .configurationApply s = .next s) ∧
    (s.boot = .apply → s.power.window = none → s.deputy = none →
      ∃ u, exec .configurationApply s = .next u ∧ u.boot = .readyStep ∧
        u.regs.modeCtrl = BitVec.ofNat 32 (cfgField s 0x10 4) ∧ u.regs.wakeTolerance = BitVec.ofNat 32 (cfgField s 0x1C 4) ∧
        u.power = { s.power with cap := cfgField s 0x14 2 } ∧ u.masks = s.vault.masks ∧
        u.modelGen = [] ∧ u.vault.maskGen = [] ∧
        (∀ p, s.vault.functions = [p] → s.functions = [] →
          u.functions = if imageCheck p.2 = fieldAt p.2 0x10 4 then [p] else []) ∧
        (resumeSlot s = none → u.models = s.models ∧ u.streams = s.streams ∧ u.vault.models = [] ∧
          (s.vault.slotA.state = 1 → (0x07, 0, 0, s.now) ∈ u.regs.events)) ∧
        (∀ a, resumeSlot s = some a →
          let x := if a then s.vault.slotA else s.vault.slotB
          (∀ p ∈ x.contexts, (x.contexts.Pairwise fun p q => p.1 ≠ q.1) →
            (crc32c (p.2.take 508) = fieldAt p.2 508 4 → streamOf u p.1 =
              { parseCtx p.2 (mapGet [] s.vault.bias p.1) [] with histValid := false, hist := [], histHead := 0 }) ∧
            (crc32c (p.2.take 508) ≠ fieldAt p.2 508 4 → streamOf u p.1 = streamOf s p.1 ∧
              (x.contexts = [p] → u.vault.faultLog.head? = some ⟨s.now, 0x40, 0, 0, p.1⟩))) ∧
          (∀ j, (∀ p ∈ x.contexts, p.1 ≠ j) → streamOf u j = streamOf s j) ∧
          (∀ c, c < 8 → c < s.chips.length → (chipOf s c).active = true → bit x.chips c = true → c < x.lanes.length →
            (chipOf u c).lanes = nth [] x.lanes c) ∧
          u.models.map (fun p => p.1) = s.vault.models.map (fun p => p.1) ∧
          (∀ p ∈ u.models, p.2.state = 4 ∧ ∃ q ∈ s.vault.models, q.1 = p.1 ∧ p.2.desc = q.2.desc ∧ p.2.priority = q.2.priority)))

/-- READY, with at least four admitted chips and the input there: the tray serves, SETTINGS_FP is that of the shipped firmware or
of the running bundle's tables, the lowest-numbered active chip leads, the slot a resume used is consumed, and the ledger counts
the bring-up (R464, R370, R453, R406); a newly activated bank is no longer on trial, and the SVN floor is at least the running
bundle's (R474); DEGRADED, models, streams and every register else stay. A reset that management asked for meanwhile is held
until then and performed: the tray commits to shutdown with SAVE_KIND 3 (Table BOOT-3). With fewer than four READY stays clear, the
rails stay up, and CHIP_NOT_ADMITTED is raised for each chip left out (R467). At any other step nothing happens. -/
def Obligations.ReadyServesTheTray : Prop :=
  ∀ (s : State),
    let m := s.mgmt
    let serves (u : State) : Prop :=
      u.boot = .serving ∧ u.regs.ready = true ∧ u.now = s.now ∧
      u.regs.settings = (if m.running = [] then 0x0201000701040000#64
        else (0x0201#16 ++ Config.bundleTables m.running ++ 0x0104#16 ++ 0#16).setWidth 64) ∧
      u.regs.lead < 8 ∧ (chipOf s u.regs.lead).active = true ∧
      (∀ k, k < 8 → (chipOf s k).active = true → u.regs.lead ≤ k) ∧
      (∀ a, resumeSlot s = some a →
        u.vault.slotA = (if a then { s.vault.slotA with state := 3 } else s.vault.slotA) ∧
        u.vault.slotB = (if a then s.vault.slotB else { s.vault.slotB with state := 3 })) ∧
      (resumeSlot s = none → u.vault.slotA = s.vault.slotA ∧ u.vault.slotB = s.vault.slotB) ∧
      (ledgerNow u).entries = (ledgerNow s).entries ∧ (ledgerNow u).seq = (ledgerNow s).seq + 1 ∧
      (ledgerNow u).bringUps = (ledgerNow s).bringUps + 1 ∧
      { u.vault with
        slotA := s.vault.slotA, slotB := s.vault.slotB, ledgerA := s.vault.ledgerA, ledgerB := s.vault.ledgerB } = s.vault ∧
      u.mgmt.activated = false ∧ u.mgmt.tries = 0 ∧ u.mgmt.heldReset = none ∧ u.mgmt.activeBank = m.activeBank ∧
      u.mgmt.svnFloor = (if m.running = [] then m.svnFloor else max m.svnFloor (Config.bundleSvn m.running).toNat) ∧
      u.power.idle = 0 ∧ ((∀ l ∈ s.mesh, l.failed = false) → u.loss = s.loss)
    (s.boot ≠ .readyStep ∨ s.power.window ≠ none → exec .ready s = .next s) ∧
    (s.boot = .readyStep → s.power.window = none → 4 ≤ (activeChips s).length → m.heldReset = none →
      ∃ u, exec .ready s = .next u ∧ serves u ∧ u.mgmt.resetBusy = false ∧
        { u.regs with ready := s.regs.ready, settings := s.regs.settings, lead := s.regs.lead } = s.regs ∧
        { u with
          boot := s.boot, regs := s.regs, vault := s.vault, mgmt := s.mgmt, power := s.power, bist := s.bist
          loss := s.loss } = s) ∧
    (∀ i5, s.boot = .readyStep → s.power.window = none → 4 ≤ (activeChips s).length → m.heldReset = some i5 →
      s.shutdown = .none → ∃ u, exec .ready s = .next u ∧ serves u ∧ u.mgmt.resetBusy = true ∧
        u.shutdown = .drain s.now 3 false i5 ∧ u.regs.saving = true ∧ u.regs.eventCause.getLsbD 4 = true ∧
        { u with
          boot := s.boot, regs := s.regs, vault := s.vault, mgmt := s.mgmt, power := s.power, bist := s.bist
          loss := s.loss, shutdown := s.shutdown } = s) ∧
    (s.boot = .readyStep → s.power.window = none → (activeChips s).length < 4 →
      ∃ u, exec .ready s = .next u ∧ u.boot = .tooFewChips ∧ u.mgmt.resetBusy = false ∧ u.mgmt.heldReset = none ∧
        (∀ e, e ∈ u.regs.events ↔ e ∈ s.regs.events ∨
          ∃ c, c < 8 ∧ (chipOf s c).active = false ∧ e = (0x0B, c, 0, s.now)) ∧
        { u.regs with events := s.regs.events } = s.regs ∧
        { u with boot := s.boot, regs := s.regs, mgmt := s.mgmt } = s)

/-! ## Host links and bridges -/

/-- A link trains at x4, x8 or its nominal width, 64 GT/s unless HOST_LINKS limits its port, links 1 and 3 under x8+x8 alone
(R494, R495), and in service none whose four chips are all lost (R39); then what waited is written, outputs before records, and rings fetch again (R311; outputs: log entry 9). A link
that goes down takes nothing else along (R498). A failed bridge's links are down, and the outputs and unreleased records of the
last 200 µs are written again with identical bytes through the other (R503). -/
def Obligations.HostLinksTrainAndFail : Prop :=
  ∀ (s : State),
    let stored (u : State) (ws : List (Nat × List Byte)) := ws.foldl (fun m w => memStore m w.1 w.2) u.host
    (∀ l width speed,
      let port := l / 2
      let latch := (nth ⟨false, 0, [], []⟩ s.bridges port).latch
      let can : Prop := l < 4 ∧ (nth ⟨false, 0, [], []⟩ s.bridges port).failed = false ∧ (bit latch port = true ∨ l % 2 = 0) ∧
        (width = 4 ∨ width = 8 ∨ (width = 16 ∧ bit latch port = false)) ∧
        (speed = 32 ∨ (speed = 64 ∧ bit latch (2 + port) = false)) ∧ s.boot ≠ .off ∧ s.boot ≠ .railsDown ∧
        ¬ (s.regs.ready = true ∧ ∀ i < 4, (chipOf s (4 * port + i)).active = false)
      (¬ can → exec (.hostLinkTrained l width speed) s = .next s) ∧
      (can → l < s.links.length → exec (.hostLinkTrained l width speed) s = .next { s with
        links := modNth s.links l fun x => { x with trained := true, width := width, speed := speed }
        host := stored s (s.unsent ++ s.unrecorded.map fun p => p.2), unsent := [], unrecorded := []
        rings := s.rings.map fun p => (p.1, { p.2 with stalled := false }) }) ∧
      (can → l < s.links.length → memoriesWf s = true → ∀ r a bs, s.unrecorded = [(r, a, bs)] →
        ∃ u, exec (.hostLinkTrained l width speed) s = .next u ∧ hostBytes u a bs.length = bs)) ∧
    (∀ l, l < s.links.length → ∃ u, exec (.hostLinkDown l) s = .next u ∧ { u with links := s.links } = s ∧
      linkUp u l = false ∧ ∀ k, k ≠ l → u.links[k]? = s.links[k]?) ∧
    (∀ b t, let T := max s.now t
      let bridge (u : State) (k : Nat) := nth ⟨true, 0, [], []⟩ u.bridges k
      let late (d : Tick) : Bool := decide (d < T ∧ T ≤ d + ticksUs s 200)
      ((bridge s b).failed = true ∨ 2 ≤ b → exec (.hostBridgeFailed b t) s = .next { s with now := T }) ∧
      ((bridge s b).failed = false → b < 2 → (∃ l, linkUp s l = true ∧ l < 4 ∧ l / 2 ≠ b) →
        ∃ u, exec (.hostBridgeFailed b t) s = .next u ∧
          { u with bridges := s.bridges, links := s.links, host := s.host } = { s with now := T } ∧
          (bridge u b).failed = true ∧ (∀ k, k ≠ b → u.bridges[k]? = s.bridges[k]?) ∧
          (∀ l, l < 4 → l < s.links.length → linkUp u l = (decide (l / 2 ≠ b) && linkUp s l)) ∧
          u.host = stored s (((s.recent.filter fun p => late p.1).flatMap fun p => p.2) ++
            s.rings.flatMap fun p => (p.2.records.filter fun r => late r.2.1).map fun r => (cqBase p.2 + 32 * r.1, r.2.2))))

/-! ## Configuration, logs and firmware -/

/-- A blob that fails R469's check is refused and changes nothing; otherwise it is stored, with CFG_SEQ one above the other
copy's and CFG_CHECK computed, in the copy with the lower CFG_SEQ, and with both copies invalid in copy A with CFG_SEQ 1 (R471;
with one copy invalid, in that one, and on a tie in A: log entry 79). Reads return both copies as stored and name the
copy in force (R472), the fault log, newest first (R434), and the ledger (R477); in recovery mode the fault log alone (R466). -/
def Obligations.ConfigurationAndLogs : Prop :=
  ∀ (s : State),
    let up : Prop := redfishUp s = true ∨ mctpUp s = true
    let answers (i : Instr) (bs : List Byte) : Prop := exec i s = .next { s with regs.readData := bs }
    let a := s.vault.cfgA
    let b := s.vault.cfgB
    let toA := decide (¬ (cfgValid a = true ∧ (cfgValid b = false ∨ fieldAt b 4 4 < fieldAt a 4 4)))
    let seq := if toA then (if cfgValid b then fieldAt b 4 4 + 1 else 1) else fieldAt a 4 4 + 1
    (¬ up → (∀ i ∈ [Instr.configRead, .faultLogRead, .ledgerRead], exec i s = .next s) ∧
      ∀ x, exec (.configWrite x) s = .next s) ∧
    (up → s.boot = .recovery → answers .configRead [1#8] ∧ answers .ledgerRead [1#8] ∧ ∀ x, answers (.configWrite x) [1#8]) ∧
    (up → answers .faultLogRead (0#8 :: s.vault.faultLog.flatMap fun e => leBytes 8 e.tick ++ leBytes 1 e.event ++
      leBytes 1 e.chip ++ leBytes 1 e.unit ++ leBytes 1 0 ++ leBytes 4 e.detail ++ leBytes 16 0)) ∧
    (up → s.boot ≠ .recovery →
      answers .configRead (0#8 :: leBytes 1 (match s.mgmt.inForce with | some true => 0 | some false => 1 | none => 2) ++
        padTo 4096 a ++ padTo 4096 b) ∧
      (∃ check, answers .ledgerRead (0#8 :: leBytes 2 (ledgerNow s).version ++ leBytes 2 (ledgerNow s).entries.length ++ leBytes 4 (ledgerNow s).seq ++
        leBytes 4 check ++ leBytes 4 (ledgerNow s).bringUps ++ leBytes 112 0 ++ (ledgerNow s).entries.flatMap fun e =>
          leBytes 1 e.kind ++ leBytes 1 e.chip ++ leBytes 1 e.unit ++ leBytes 1 e.origin ++ leBytes 4 e.element ++
          leBytes 4 e.replacement ++ leBytes 4 e.bringUp)) ∧
      ∀ x, (cfgFieldsOk x = false → answers (.configWrite x) [1#8]) ∧
        (cfgFieldsOk x = true → ∃ y, exec (.configWrite x) s = .next { s with
            regs.readData := [0#8], vault.cfgA := if toA then y else a, vault.cfgB := if toA then b else y } ∧
          cfgValid y = true ∧ fieldAt y 4 4 = seq % 2 ^ 32 ∧ y.take 4 = x.take 4 ∧ y.drop 12 = x.drop 12))

/-- A bundle is written to the inactive bank, the active one standing; a transfer that ends incomplete leaves the inactive bank
invalid; the two ways of update exclude each other, Redfish answering 409 (R475, R485). VerifyComplete accepts a whole bundle
of no lower SVN than the floor, signed by a key whose slot is not revoked and which it does not itself revoke (R473, R474), and
raises FW_STAGED; ActivateFirmware makes the staged bank active from the next bring-up and changes nothing that the vault holds
(R475, R476). -/
def Obligations.FirmwareUpdates : Prop :=
  ∀ (s : State),
    let m := s.mgmt
    let other := 1 - m.activeBank
    let held (u : State) : Prop := { u with mgmt.banks := m.banks, mgmt.update := m.update, mgmt.staged := m.staged
                                            mgmt.smbAlert := m.smbAlert, regs.readData := s.regs.readData
                                            regs.events := s.regs.events } = s
    let bank (u : State) (k : Nat) := nth ⟨[], false⟩ u.mgmt.banks k
    let b := (bank s other).bytes
    let key (k : Nat) : Prop := k ∉ m.revoked ∧ Config.sha384 (Config.bundlePart 1 b) = Config.fusedKeyHash k
    let signed (k : Nat) : Prop := key k ∧ Config.bundleRevokes b ≠ some k ∧
      Config.ecdsaVerifies (Config.bundlePart 1 b) (Config.sha384 (Config.bundlePart 0 b)) (Config.bundlePart 2 b) = true
    let good : Prop := Config.bundleWhole b = true ∧ m.svnFloor ≤ (Config.bundleSvn b).toNat ∧ (signed 0 ∨ ¬ key 0 ∧ signed 1)
    (∀ via bundle whole,
      ((if via then redfishUp s else mctpUp s) = false → exec (.firmwareTransfer via bundle whole) s = .next s) ∧
      ((if via then redfishUp s else mctpUp s) = true →
        (m.update = some (!via) → exec (.firmwareTransfer via bundle whole) s =
          .next { s with regs.readData := 1#8 :: if via then leBytes 2 409 else [] }) ∧
        (m.update ≠ some (!via) → m.activeBank < 2 → m.banks.length = 2 →
          ∃ u, exec (.firmwareTransfer via bundle whole) s = .next u ∧ held u ∧
            bank u other = ⟨if whole then bundle else [], false⟩ ∧ bank u m.activeBank = bank s m.activeBank ∧
            u.mgmt.update = (if whole then some via else none) ∧ u.mgmt.staged = false ∧
            u.regs.readData = [if whole then 0#8 else 1#8] ∧ u.regs.events = s.regs.events))) ∧
    (mgmtUp s = false → exec .verifyComplete s = .next s ∧ exec .activateFirmware s = .next s) ∧
    (mgmtUp s = true →
      (m.update = none → exec .verifyComplete s = .next { s with regs.readData := [1#8] }) ∧
      (m.update ≠ none → m.activeBank < 2 → m.banks.length = 2 → ∃ u, exec .verifyComplete s = .next u ∧ held u ∧
        u.mgmt.update = none ∧ bank u m.activeBank = bank s m.activeBank ∧
        (good → bank u other = ⟨b, true⟩ ∧ u.mgmt.staged = true ∧ u.regs.events = (0x08, 0, 0, s.now) :: s.regs.events ∧
          u.regs.readData = [0#8]) ∧
        (¬ good → bank u other = ⟨[], false⟩ ∧ u.mgmt.staged = m.staged ∧ u.regs.events = s.regs.events ∧
          u.regs.readData = [1#8])) ∧
      (m.staged = false → exec .activateFirmware s = .next { s with regs.readData := [1#8] }) ∧
      (m.staged = true → exec .activateFirmware s = .next { s with
        mgmt.activeBank := other, mgmt.staged := false, mgmt.activated := true, mgmt.tries := 0, regs.readData := [0#8] }))

/-! ## Management -/

/-- The SPDM 1.2 responder serves on either MCTP path from the end of step 3 (R477, R482): GET_VERSION starts the negotiation
anew; GET_CAPABILITIES answers CERT_CAP, CHAL_CAP and MEAS_CAP with signature; NEGOTIATE_ALGORITHMS takes ECDSA P-384, SHA-384
and DMTF measurements and refuses anything else; slot 0 alone holds a chain; a response to CHALLENGE, and to GET_MEASUREMENTS
where it asks, ends in the signature over the transcript (R480, R481). An earlier request answers with an SPDM error. Message
layouts are the standard's (log entry 12), and their unstated bytes open. -/
def Obligations.SpdmResponds : Prop :=
  ∀ (s : State) (req : List Byte),
    let up : Prop := mctpUp s = true ∧ s.boot ≠ .inputCheck ∧ s.boot ≠ .preCharge ∧ s.boot ≠ .tmcBoot
    let n := s.mgmt.spdm
    let chain := Config.certChain
    let dig (bs : List Byte) : List Byte := (leBytes 48 (Config.sha384 bs).toNat).reverse
    let requests : List (Instr × Nat) := [(.getVersion req, 0), (.getCapabilities req, 1), (.negotiateAlgorithms req, 2),
      (.getDigests req, 3), (.getCertificate req, 3), (.challenge req, 3), (.getMeasurements req, 3)]
    let error (i : Instr) : Prop := ∃ code u, exec i s = .next u ∧ u.regs.readData = [1#8, 0x12#8, 0x7F#8, code, 0#8] ∧
      { u with regs.readData := s.regs.readData, freeCtr := s.freeCtr } = s
    let reply (i : Instr) (spdm : Nat) (resp : List Byte) (old : List Byte) : Prop := ∃ u, exec i s = .next u ∧
      u.regs.readData = 0#8 :: resp ∧ u.mgmt = { s.mgmt with spdm := spdm, transcript := old ++ req ++ resp } ∧
      { u with regs.readData := s.regs.readData, mgmt := s.mgmt, freeCtr := s.freeCtr } = s
    let old := s.mgmt.transcript
    let sign (resp : List Byte) : List Byte := leBytes 96 (Config.deviceSign (Config.sha384 (old ++ req ++ resp))).toNat
    let op := fieldAt req 3 1
    let blocks := if op = 0 then [] else if op = 0xFF then measurements s else (measurements s).filter fun p => p.1 == op
    let body := blocks.flatMap fun p => p.2
    (¬ up → ∀ r ∈ requests, exec r.1 s = .next s) ∧
    (up →
      (∀ r ∈ requests, n < r.2 → error r.1) ∧
      reply (.getVersion req) 1 [0x10#8, 0x04#8, 0#8, 0#8, 0#8, 1#8, 0#8, 0x12#8] [] ∧
      (1 ≤ n → ∃ open_ : List Byte, open_.length = 4 ∧
        reply (.getCapabilities req) 2 ([0x12#8, 0x61#8, 0#8, 0#8] ++ open_ ++ leBytes 4 0x16) old) ∧
      (2 ≤ n →
        let offered : Prop := bit (fieldAt req 8 4) 7 = true ∧ bit (fieldAt req 12 4) 1 = true ∧ bit (fieldAt req 6 1) 0 = true
        (¬ offered → error (.negotiateAlgorithms req)) ∧
        (offered → reply (.negotiateAlgorithms req) 3 ([0x12#8, 0x63#8, 0#8, 0#8] ++ leBytes 2 36 ++ leBytes 1 1 ++
          leBytes 1 0 ++ leBytes 4 4 ++ leBytes 4 0x80 ++ leBytes 4 2 ++ leBytes 16 0) old)) ∧
      (3 ≤ n →
        reply (.getDigests req) n ([0x12#8, 0x01#8, 0#8, 1#8] ++ dig chain) old ∧
        (let off := fieldAt req 4 2
         let k := min (fieldAt req 6 2) (chain.length - off)
         (fieldAt req 2 1 ≠ 0 ∨ chain.length ≤ off → error (.getCertificate req)) ∧
         (fieldAt req 2 1 = 0 → off < chain.length → reply (.getCertificate req) n ([0x12#8, 0x02#8, 0#8, 0#8] ++ leBytes 2 k ++
           leBytes 2 (chain.length - off - k) ++ slice chain off k) old)) ∧
        (fieldAt req 2 1 ≠ 0 → error (.challenge req)) ∧
        (fieldAt req 2 1 = 0 → ∃ nonce : List Byte, nonce.length = 32 ∧
          let resp := [0x12#8, 0x03#8, 0#8, 1#8] ++ dig chain ++ nonce ++
            (if op = 0 then [] else dig ((measurements s).flatMap fun p => p.2)) ++ leBytes 2 0
          reply (.challenge req) n (resp ++ sign resp) old) ∧
        (op ≠ 0 → op ≠ 0xFF → blocks = [] → error (.getMeasurements req)) ∧
        (op = 0 ∨ op = 0xFF ∨ blocks ≠ [] → ∃ nonce : List Byte, nonce.length = 32 ∧
          let resp := [0x12#8, 0x60#8] ++ leBytes 1 (if op = 0 then (measurements s).length else 0) ++ leBytes 1 0 ++
            leBytes 1 blocks.length ++ leBytes 3 body.length ++ body ++ nonce ++ leBytes 2 0
          reply (.getMeasurements req) n (if bit (fieldAt req 2 1) 0 then resp ++ sign resp else resp) old))) ∧
    (s.boot = .recovery → (measurements s).map (fun p => p.1) = [1]) ∧
    (s.boot ≠ .recovery → (measurements s).map (fun p => p.1) = [1, 2, 3, 4, 5, 6, 7, 8])

/-- An endpoint id is kept as assigned (R477); a sensor answers in the unit of Table BOOT-8, one of a lost chip "unavailable"
(R478; temperatures and chip powers are open, log entry 3), a temperature with the threshold of Table PHY-3 it has reached
(R488; codes: log entry 12), and no package above 30 W (R33). The Chassis resource holds the identity of Table SCOPE-1 (R7). Redfish answers any other resource with 404 (R484), holds at most 4
event subscriptions (R484) and 8 accounts, served only once the label's credentials are changed, which the label's user alone
can do, and changed by an Administrator alone (R483). Encodings: log entry 12. -/
def Obligations.ManagementAnswers : Prop :=
  ∀ (s : State),
    let answers (i : Instr) (bs : List Byte) : Prop := exec i s = .next { s with regs.readData := bs }
    let m := s.mgmt
    (∀ msg, (mctpUp s = false → exec (.mctpControl msg) s = .next s) ∧ (mctpUp s = true →
      (fieldAt msg 1 1 = 1 → exec (.mctpControl msg) s =
        .next { s with mgmt.eid := fieldAt msg 3 1, regs.readData := 0#8 :: leBytes 1 (fieldAt msg 3 1) }) ∧
      (fieldAt msg 1 1 = 2 → answers (.mctpControl msg) (0#8 :: leBytes 1 m.eid)) ∧
      (fieldAt msg 1 1 ≠ 1 → fieldAt msg 1 1 ≠ 2 → ∃ code u, exec (.mctpControl msg) s = .next u ∧
        u.regs.readData = [1#8, code] ∧ { u with regs.readData := s.regs.readData, freeCtr := s.freeCtr } = s))) ∧
    (let up : Prop := redfishUp s = true ∨ mctpUp s = true
     let reads (id v : Nat) : Prop := answers (.getSensorReading id) (0#8 :: (leBytes 1 1 ++ leBytes 4 v))
     (¬ up → ∀ id, exec (.getSensorReading id) s = .next s) ∧
     (up → reads 1 (s.power.millivolts / 1000) ∧ reads 2 (s.power.milliwatts / 1000) ∧ reads 3 s.power.cap ∧
       reads 4 s.power.pressure ∧ reads 5 (s.power.energy / 1000) ∧ reads 6 (s.power.capacity / 1000) ∧
       reads 0x31 (trayState s) ∧
       (∀ c, c < 8 → (chipOf s c).active = false → ∀ id ∈ [0x10 + c, 0x20 + c],
         answers (.getSensorReading id) (0#8 :: (leBytes 1 0 ++ leBytes 4 0))) ∧
       (∀ c, c < 8 → (chipOf s c).active = true → ∀ id ∈ [0x10 + c, 0x20 + c, 0x18], ∃ v u,
         let threshold := if id = 0x18 then (if 60 ≤ v then 3 else if 50 ≤ v then 2 else if v ≤ 10 then 1 else 0)
           else if 110 ≤ v then 4 else if 95 ≤ v then 3 else if 90 ≤ v then 2 else 0
         exec (.getSensorReading id) s = .next u ∧ (id = 0x20 + c → v ≤ 30) ∧
         u.regs.readData = 0#8 :: (leBytes 1 1 ++ leBytes 4 v ++ if id = 0x20 + c then [] else leBytes 1 threshold) ∧
         { u with regs.readData := s.regs.readData, freeCtr := s.freeCtr } = s) ∧
       ∀ id, (id = 0 ∨ 0x33 ≤ id) → answers (.getSensorReading id) [1#8])) ∧
    (redfishUp s = false → (∀ p, exec (.redfishGet p) s = .next s) ∧ ∀ e c, exec (.eventSubscription e c) s = .next s) ∧
    (redfishUp s = true →
      (∀ p, 9 ≤ p → answers (.redfishGet p) (1#8 :: leBytes 2 404)) ∧
      (∃ sensors u, exec (.redfishGet 1) s = .next u ∧ { u with regs.readData := s.regs.readData, freeCtr := s.freeCtr } = s ∧
        u.regs.readData = 0#8 :: (leBytes 4 0x0D780192 ++ textBytes "Ohmira" ++ textBytes "Salox" ++
          textBytes "Dregophor DT-8 Sampling Tray" ++ textBytes "SX-DT8-192" ++ textBytes "Icvor IV-2" ++
          (List.replicate 8 (textBytes "B1")).flatten ++ leBytes 1 8 ++ leBytes 4 192 ++ leBytes 4 (fwVersion s).toNat ++
          slice m.cfg 0x30 64 ++ sensors)) ∧
      answers (.redfishGet 3) (0#8 :: s.vault.faultLog.flatMap logBytes) ∧
      (s.boot = .recovery → answers (.redfishGet 4) [1#8]) ∧
      (s.boot ≠ .recovery → answers (.redfishGet 4) (0#8 :: (ledgerNow s).entries.flatMap ledgerEntryBytes) ∧
        answers (.redfishGet 7) (0#8 :: m.subs.flatMap (leBytes 4)) ∧
        ∀ e, exec (.eventSubscription e false) s = .next { s with mgmt.subs := m.subs.erase e, regs.readData := [0#8] } ∧
          (e ∉ m.subs → m.subs.length < 4 →
            exec (.eventSubscription e true) s = .next { s with mgmt.subs := m.subs ++ [e], regs.readData := [0#8] }) ∧
          (e ∉ m.subs → 4 ≤ m.subs.length → answers (.eventSubscription e true) [1#8]))) ∧
    (let up : Prop := mgmtUp s = true ∧ bit (cfgField s 0x20 4) 0 = true
     let role (u : Nat) := (m.accounts.find? fun p => p.1 == u).map fun p => p.2
     (¬ up → ∀ u act arg, exec (.accountService u act arg) s = .next s) ∧
     (up → ∀ u act arg,
       (role u = none → answers (.accountService u act arg) [1#8]) ∧
       (∀ r, role u = some r →
         (act = 0 → exec (.accountService u act arg) s =
           .next { s with mgmt.labelChanged := m.labelChanged || u == 0, regs.readData := [0#8] }) ∧
         (act ≠ 0 → m.labelChanged = false ∨ r ≠ 0 → answers (.accountService u act arg) [1#8]) ∧
         (r = 0 → m.labelChanged = true → s.boot ≠ .recovery →
           (act = 1 → 8 ≤ m.accounts.length ∨ 3 ≤ arg → answers (.accountService u act arg) [1#8]) ∧
           (act = 1 → m.accounts.length < 8 → arg < 3 → ∃ k, (∀ p ∈ m.accounts, p.1 ≠ k) ∧
             exec (.accountService u act arg) s =
               .next { s with mgmt.accounts := m.accounts ++ [(k, arg)], regs.readData := 0#8 :: leBytes 1 k }) ∧
           (act = 2 → exec (.accountService u act arg) s =
             .next { s with mgmt.accounts := m.accounts.filter fun p => p.1 != arg, regs.readData := [0#8] })))))
end

