-- ==== Sys2Proof/Laws/Memory.lean ====
section
/-! SUPPORT. The laws of the sparse tables and byte memories: what a read gives after a write, and that every operation
keeps the canonical form. -/

namespace Sys2Proof.Machine

variable {α : Type} [DecidableEq α]

/-! ## Canonical form -/

theorem mapWfFrom_mono {d : α} {lo hi : Nat} {l : List (Nat × α)} (h : hi ≤ lo) (w : mapWfFrom d lo l = true) :
    mapWfFrom d hi l = true := by
  cases l with
  | nil => rfl
  | cons p rest =>
    simp only [mapWfFrom, Bool.and_eq_true, decide_eq_true_eq] at w ⊢
    exact ⟨⟨by omega, w.1.2⟩, w.2⟩

theorem mapWfFrom_del {d : α} (a : Nat) {lo : Nat} {l : List (Nat × α)} (w : mapWfFrom d lo l = true) :
    mapWfFrom d lo (mapDel l a) = true := by
  induction l generalizing lo with
  | nil => rfl
  | cons p rest ih =>
    obtain ⟨k, v⟩ := p
    simp only [mapWfFrom, Bool.and_eq_true, decide_eq_true_eq] at w
    simp only [mapDel]
    split
    · exact mapWfFrom_mono (by omega) w.2
    · split <;> simp only [mapWfFrom, Bool.and_eq_true, decide_eq_true_eq]
      · exact w
      · exact ⟨w.1, ih w.2⟩

theorem mapWfFrom_ins {d : α} {a : Nat} {x : α} (hx : x ≠ d) {lo : Nat} (ha : lo ≤ a) {l : List (Nat × α)}
    (w : mapWfFrom d lo l = true) : mapWfFrom d lo (mapIns l a x) = true := by
  induction l generalizing lo with
  | nil => simp [mapIns, mapWfFrom, hx, ha]
  | cons p rest ih =>
    obtain ⟨k, v⟩ := p
    simp only [mapWfFrom, Bool.and_eq_true, decide_eq_true_eq] at w
    simp only [mapIns]
    split
    · rename_i h1
      simp only [mapWfFrom, Bool.and_eq_true, decide_eq_true_eq]
      exact ⟨⟨ha, hx⟩, by subst h1; exact w.2⟩
    · split <;> simp only [mapWfFrom, Bool.and_eq_true, decide_eq_true_eq]
      · exact ⟨⟨ha, hx⟩, ⟨by omega, w.1.2⟩, w.2⟩
      · exact ⟨w.1, ih (by omega) w.2⟩

/-- Writing one entry keeps the canonical form. -/
theorem mapSet_wf {d : α} {l : List (Nat × α)} (w : mapWf d l = true) (a : Nat) (x : α) : mapWf d (mapSet d l a x) = true := by
  unfold mapSet
  split
  · exact mapWfFrom_del a w
  · exact mapWfFrom_ins ‹_› (Nat.zero_le a) w

theorem mapWfFrom_filter {d : α} (f : Nat × α → Bool) {lo : Nat} {l : List (Nat × α)} (w : mapWfFrom d lo l = true) :
    mapWfFrom d lo (l.filter f) = true := by
  induction l generalizing lo with
  | nil => rfl
  | cons p rest ih =>
    obtain ⟨k, v⟩ := p
    simp only [mapWfFrom, Bool.and_eq_true, decide_eq_true_eq] at w
    simp only [List.filter_cons]
    split
    · simp only [mapWfFrom, Bool.and_eq_true, decide_eq_true_eq]
      exact ⟨w.1, ih w.2⟩
    · exact mapWfFrom_mono (by omega) (ih w.2)

/-- Storing bytes keeps the canonical form of a memory. -/
theorem memStore_wf {m : List (Nat × Byte)} (w : mapWf 0#8 m = true) (a : Nat) (bs : List Byte) :
    mapWf 0#8 (memStore m a bs) = true := by
  induction bs generalizing m a with
  | nil => exact w
  | cons b bs ih => exact ih (mapSet_wf w a b) (a + 1)

/-- Storing the enabled bytes keeps the canonical form. -/
theorem memStoreEnabled_wf {m : List (Nat × Byte)} (w : mapWf 0#8 m = true) (a : Nat) (bs : List (Option Byte)) :
    mapWf 0#8 (memStoreEnabled m a bs) = true := by
  induction bs generalizing m a with
  | nil => exact w
  | cons b bs ih => cases b with
    | none => exact ih w (a + 1)
    | some b => exact ih (mapSet_wf w a b) (a + 1)

/-! ## Read after write -/

omit [DecidableEq α] in
theorem mapGet_ins (d : α) (l : List (Nat × α)) (a b : Nat) (x : α) :
    mapGet d (mapIns l a x) b = if b = a then x else mapGet d l b := by
  induction l with
  | nil => simp only [mapIns, mapGet, eq_comm]
  | cons p rest ih =>
    obtain ⟨k, v⟩ := p
    simp only [mapIns]
    split <;> rename_i h
    · subst h
      simp only [mapGet, eq_comm (a := k)]
      split <;> rfl
    · split <;> rename_i h2
      · simp only [mapGet, eq_comm (a := a)]
      · simp only [mapGet, ih]
        by_cases e : b = a
        · subst e; simp only [↓reduceIte, if_neg h]
        · simp only [if_neg e]

theorem mapGet_above {d : α} {lo a : Nat} {l : List (Nat × α)} (w : mapWfFrom d lo l = true) (h : a < lo) :
    mapGet d l a = d := by
  induction l generalizing lo with
  | nil => rfl
  | cons p rest ih =>
    obtain ⟨k, v⟩ := p
    simp only [mapWfFrom, Bool.and_eq_true, decide_eq_true_eq] at w
    simp only [mapGet]
    rw [if_neg (by omega)]
    exact ih w.2 (by omega)

theorem mapGet_del {d : α} {lo : Nat} {l : List (Nat × α)} (w : mapWfFrom d lo l = true) (a b : Nat) :
    mapGet d (mapDel l a) b = if b = a then d else mapGet d l b := by
  induction l generalizing lo with
  | nil => simp [mapDel, mapGet]
  | cons p rest ih =>
    obtain ⟨k, v⟩ := p
    simp only [mapWfFrom, Bool.and_eq_true, decide_eq_true_eq] at w
    simp only [mapDel]
    split <;> rename_i h
    · subst h
      by_cases e : b = k
      · subst e; simp [mapGet_above w.2 (Nat.lt_succ_self b)]
      · simp [mapGet, e, Ne.symm e]
    · split <;> rename_i h2
      · by_cases e : b = a
        · subst e; simp only [mapGet, if_neg h, ↓reduceIte]; exact mapGet_above w.2 (by omega)
        · simp only [if_neg e]
      · simp only [mapGet, ih w.2]
        by_cases e : b = a
        · subst e; simp only [if_neg h, ↓reduceIte]
        · simp only [if_neg e]

/-- A read after a write gives the value written; every other key reads as before. -/
theorem mapGet_set {d : α} {l : List (Nat × α)} (w : mapWf d l = true) (a b : Nat) (x : α) :
    mapGet d (mapSet d l a x) b = if b = a then x else mapGet d l b := by
  unfold mapSet
  split
  · rename_i h; rw [mapGet_del w, h]
  · exact mapGet_ins d l a b x

/-- A byte after a store: byte b - a of what was stored, if b lies in the stored range; else as before. -/
theorem memByte_store {m : List (Nat × Byte)} (w : mapWf 0#8 m = true) (a b : Nat) (bs : List Byte) :
    memByte (memStore m a bs) b = if a ≤ b ∧ b < a + bs.length then bs.getD (b - a) 0#8 else memByte m b := by
  induction bs generalizing m a with
  | nil => simp only [memStore, List.length_nil]; rw [if_neg (by omega)]
  | cons x xs ih =>
    rw [memStore, ih (mapSet_wf w a x), List.length_cons]
    by_cases h1 : b = a
    · subst h1
      rw [if_neg (by omega), if_pos (by omega)]
      simp [memByte, mapGet_set w]
    · by_cases h2 : a + 1 ≤ b ∧ b < a + 1 + xs.length
      · rw [if_pos h2, if_pos (by omega), show b - a = (b - (a + 1)) + 1 by omega, List.getD_cons_succ]
      · rw [if_neg h2, if_neg (by omega)]
        simp [memByte, mapGet_set w, h1]

/-- A store leaves every byte outside the stored range as it was. -/
theorem memByte_store_outside {m : List (Nat × Byte)} (w : mapWf 0#8 m = true) {a b : Nat} {bs : List Byte}
    (h : b < a ∨ a + bs.length ≤ b) : memByte (memStore m a bs) b = memByte m b := by
  rw [memByte_store w, if_neg (by omega)]

/-! ## Tables by position -/

omit [DecidableEq α] in
@[simp] theorem modNth_length (l : List α) (i : Nat) (f : α → α) : (modNth l i f).length = l.length := by
  induction l generalizing i with
  | nil => rfl
  | cons x xs ih => cases i <;> simp [modNth, ih]

omit [DecidableEq α] in
theorem nth_modNth (d : α) (l : List α) (i j : Nat) (f : α → α) :
    nth d (modNth l i f) j = if j = i ∧ i < l.length then f (nth d l i) else nth d l j := by
  induction l generalizing i j with
  | nil => simp [modNth, nth]
  | cons x xs ih =>
    cases i <;> cases j <;> simp_all [modNth, nth]

omit [DecidableEq α] in
@[simp] theorem withIndex_length (l : List α) : (withIndex l).length = l.length := by simp [withIndex]

end Sys2Proof.Machine
end

