-- ==== Sys2Proof/Laws/KeepsBase.lean ====
section
/-! SUPPORT. What every shared operation and every meaning keeps: the queue of waiting commands, the canonical form of
the memories, the rule of MODE_CTRL. One lemma for each function; the meanings compose them. -/

namespace Sys2Proof.Machine

/-- From s to t the queue stands, the memories keep their canonical form, and MODE_CTRL keeps its rule (R304). -/
structure Keeps (s t : State) : Prop where
  queue : t.pending = s.pending
  mem : memoriesWf s = true → memoriesWf t = true
  mode : modeWf s = true → modeWf t = true

theorem Keeps.refl (s : State) : Keeps s s := ⟨rfl, id, id⟩

/-- Keeps, memory by memory. -/
theorem Keeps.of {s t : State} (h1 : t.pending = s.pending) (h2 : Memory.wf s.host = true → Memory.wf t.host = true)
    (h3 : (s.bridges.all fun b => Memory.wf b.ingress) = true → (t.bridges.all fun b => Memory.wf b.ingress) = true)
    (h4 : Memory.wf s.regs.msixTable = true → Memory.wf t.regs.msixTable = true)
    (h5 : modeWf s = true → modeWf t = true) : Keeps s t where
  queue := h1
  mode := h5
  mem := by
    intro h
    simp only [memoriesWf, Bool.and_eq_true] at h ⊢
    exact ⟨⟨h2 h.1.1, h3 h.1.2⟩, h4 h.2⟩

theorem Keeps.same {s t : State} (h1 : t.pending = s.pending) (h2 : t.host = s.host) (h3 : t.bridges = s.bridges)
    (h4 : t.regs.msixTable = s.regs.msixTable) (h5 : t.regs.modeCtrl = s.regs.modeCtrl) (h6 : t.mgmt.cfg = s.mgmt.cfg) :
    Keeps s t :=
  .of h1 (by rw [h2]; exact id) (by rw [h3]; exact id) (by rw [h4]; exact id)
    (by unfold modeWf cfgField; rw [h5, h6]; exact id)

/-- Bridges changed in ways that keep every ingress memory canonical. -/
theorem all_map_bridges {l : List Bridge} {f : Bridge → Bridge}
    (hf : ∀ b : Bridge, Memory.wf b.ingress = true → Memory.wf (f b).ingress = true)
    (h : (l.all fun b => Memory.wf b.ingress) = true) : ((l.map f).all fun b => Memory.wf b.ingress) = true := by
  simp only [List.all_map, List.all_eq_true, Function.comp] at h ⊢
  exact fun b hb => hf b (h b hb)

theorem all_modNth_bridges {l : List Bridge} {i : Nat} {f : Bridge → Bridge}
    (hf : ∀ b : Bridge, Memory.wf b.ingress = true → Memory.wf (f b).ingress = true)
    (h : (l.all fun b => Memory.wf b.ingress) = true) : ((modNth l i f).all fun b => Memory.wf b.ingress) = true := by
  induction l generalizing i with
  | nil => exact h
  | cons b bs ih =>
    simp only [List.all_cons, Bool.and_eq_true] at h
    cases i with
    | zero => simp only [modNth, List.all_cons, Bool.and_eq_true]; exact ⟨hf b h.1, h.2⟩
    | succ n => simp only [modNth, List.all_cons, Bool.and_eq_true]; exact ⟨h.1, ih h.2⟩

/-- A record update that leaves the queue and the memories alone. -/
theorem Keeps.upd {u : State} {now : Tick} {tmc : Int × Tick} {regs : Regs} {rings : List (Nat × Ring)} {vfs : List
    Vf} {links : List HostLink} {bridges : List Bridge} {host : List (Nat × Byte)} {hostBad : List (Nat × Nat)}
    {unsent : List (Nat × List Byte)} {unrecorded : List (Nat × Nat × List Byte)} {served : List Nat} {cmds : List
    Cmd} {done : List (Nat × Nat)} {recent : List (Tick × List (Nat × List Byte))} {streams : List (Nat × Stream)}
    {homing : List Nat} {homes : List (Nat × Nat × Option Nat)} {moving : List Nat} {models : List (Nat × Model)}
    {modelGen : List (Nat × Nat)} {masks : List (Nat × Mask)} {functions : List (Nat × List Byte)} {audited : List
    Audited} {chips : List Chip} {mesh : List Link} {totals : List Nat} {loss : Loss} {barrierSt : Option
    BarrierSt} {tasks : List Task} {quiet : Quiet} {bist : Bist} {ledgerWrite : Option (Tick × List LedgerEntry)}
    {deputy : Option Nat} {deferred : List LedgerEntry} {deferredLog : List LogEntry} {vault : Vault} {boot : Boot}
    {shutdown : Shutdown} {power : Power} {mgmt : Mgmt} {freeCtr : Nat} {nextId : Nat} {pending : List Instr} (h1 :
    pending = u.pending) (h2 : host = u.host) (h3 : bridges = u.bridges) (h4 : regs.msixTable = u.regs.msixTable)
    (h5 : regs.modeCtrl = u.regs.modeCtrl) (h6 : mgmt.cfg = u.mgmt.cfg) : Keeps u ⟨now, tmc, regs, rings, vfs,
    links, bridges, host, hostBad, unsent, unrecorded, served, cmds, done, recent, streams, homing, homes, moving,
    models, modelGen, masks, functions, audited, chips, mesh, totals, loss, barrierSt, tasks, quiet, bist,
    ledgerWrite, deputy, deferred, deferredLog, vault, boot, shutdown, power, mgmt, freeCtr, nextId, pending⟩ :=
    .same h1 h2 h3 h4 h5 h6

theorem Keeps.trans {s t u : State} (a : Keeps s t) (b : Keeps t u) : Keeps s u :=
  ⟨b.queue.trans a.queue, b.mem ∘ a.mem, b.mode ∘ a.mode⟩

theorem Keeps.ite {s t u : State} {p : Prop} {d : Decidable p} (a : Keeps s t) (b : Keeps s u) :
    Keeps s (if p then t else u) := by
  cases d with
  | isTrue h => exact a
  | isFalse h => exact b

theorem foldl_keeps {α : Type} {f : State → α → State} (h : ∀ s x, Keeps s (f s x)) (l : List α) (s : State) :
    Keeps s (l.foldl f s) := by
  induction l generalizing s with
  | nil => exact .refl s
  | cons x xs ih => exact (h s x).trans (ih (f s x))

theorem stamp_keeps (s : State) (t : Tick) : Keeps s (stamp s t) where
  queue := rfl
  mem := id
  mode := id

theorem sendMsi_keeps (s : State) (fn : Nat) (vector : Nat) : Keeps s (sendMsi s fn vector) := by
  unfold sendMsi
  try dsimp only
  iterate 12 all_goals first
    | with_reducible exact Keeps.refl _
    | with_reducible split
    | with_reducible refine Keeps.trans ?_ (Keeps.upd rfl rfl rfl rfl rfl rfl)
    | skip

theorem mgmtEvent_keeps (s : State) (code : Nat) (a : Nat) (b : Nat) : Keeps s (mgmtEvent s code a b) := by
  unfold mgmtEvent
  try dsimp only
  iterate 12 all_goals first
    | with_reducible exact Keeps.refl _
    | with_reducible split
    | with_reducible refine Keeps.trans ?_ (Keeps.upd rfl rfl rfl rfl rfl rfl)
    | skip

theorem logFault_keeps (s : State) (event : Nat) (chip : Nat) (unit : Nat) (detail : Nat) : Keeps s (logFault s event
    chip unit detail) := by
  unfold logFault
  try dsimp only
  iterate 12 all_goals first
    | with_reducible exact Keeps.refl _
    | with_reducible split
    | with_reducible refine Keeps.trans ?_ (Keeps.upd rfl rfl rfl rfl rfl rfl)
    | skip

theorem raiseEvent_keeps (s : State) (b : Nat) : Keeps s (raiseEvent s b) := by
  unfold raiseEvent
  try dsimp only
  iterate 12 all_goals first
    | with_reducible exact Keeps.refl _
    | with_reducible refine Keeps.trans ?_ (sendMsi_keeps _ _ _)
    | with_reducible refine Keeps.trans ?_ (mgmtEvent_keeps _ _ _ _)
    | with_reducible split
    | with_reducible refine Keeps.trans ?_ (Keeps.upd rfl rfl rfl rfl rfl rfl)
    | skip

theorem setChip_keeps (s : State) (c : Nat) (f : Chip → Chip) : Keeps s (setChip s c f) := by
  unfold setChip
  try dsimp only
  iterate 12 all_goals first
    | with_reducible exact Keeps.refl _
    | with_reducible split
    | with_reducible refine Keeps.trans ?_ (Keeps.upd rfl rfl rfl rfl rfl rfl)
    | skip

theorem setCore_keeps (s : State) (c : Nat) (k : Nat) (f : Core → Core) : Keeps s (setCore s c k f) := by
  unfold setCore
  try dsimp only
  iterate 12 all_goals first
    | with_reducible exact Keeps.refl _
    | with_reducible refine Keeps.trans ?_ (setChip_keeps _ _ _)
    | with_reducible split
    | with_reducible refine Keeps.trans ?_ (Keeps.upd rfl rfl rfl rfl rfl rfl)
    | skip

theorem countTotal_keeps (s : State) (i : Nat) (n : Nat) : Keeps s (countTotal s i n) := by
  unfold countTotal
  try dsimp only
  iterate 12 all_goals first
    | with_reducible exact Keeps.refl _
    | with_reducible split
    | with_reducible refine Keeps.trans ?_ (Keeps.upd rfl rfl rfl rfl rfl rfl)
    | skip

theorem countCore_keeps (s : State) (c : Nat) (k : Nat) (i : Nat) (n : Nat) : Keeps s (countCore s c k i n) := by
  unfold countCore
  try dsimp only
  iterate 12 all_goals first
    | with_reducible exact Keeps.refl _
    | with_reducible refine Keeps.trans ?_ (setCore_keeps _ _ _ _)
    | with_reducible refine Keeps.trans ?_ (countTotal_keeps _ _ _)
    | with_reducible split
    | with_reducible refine Keeps.trans ?_ (Keeps.upd rfl rfl rfl rfl rfl rfl)
    | skip

theorem countHbm_keeps (s : State) (c : Nat) (i : Nat) (n : Nat) : Keeps s (countHbm s c i n) := by
  unfold countHbm
  try dsimp only
  iterate 12 all_goals first
    | with_reducible exact Keeps.refl _
    | with_reducible refine Keeps.trans ?_ (setChip_keeps _ _ _)
    | with_reducible refine Keeps.trans ?_ (countTotal_keeps _ _ _)
    | with_reducible split
    | with_reducible refine Keeps.trans ?_ (Keeps.upd rfl rfl rfl rfl rfl rfl)
    | skip

theorem countChip_keeps (s : State) (c : Nat) (i : Nat) (n : Nat) : Keeps s (countChip s c i n) := by
  unfold countChip
  try dsimp only
  iterate 12 all_goals first
    | with_reducible exact Keeps.refl _
    | with_reducible refine Keeps.trans ?_ (setChip_keeps _ _ _)
    | with_reducible refine Keeps.trans ?_ (countTotal_keeps _ _ _)
    | with_reducible split
    | with_reducible refine Keeps.trans ?_ (Keeps.upd rfl rfl rfl rfl rfl rfl)
    | skip

theorem setLink_keeps (s : State) (a : Nat) (b : Nat) (f : Link → Link) : Keeps s (setLink s a b f) := by
  unfold setLink
  try dsimp only
  iterate 12 all_goals first
    | with_reducible exact Keeps.refl _
    | with_reducible split
    | with_reducible refine Keeps.trans ?_ (Keeps.upd rfl rfl rfl rfl rfl rfl)
    | skip

theorem countLink_keeps (s : State) (a : Nat) (b : Nat) (i : Nat) (n : Nat) : Keeps s (countLink s a b i n) := by
  unfold countLink
  try dsimp only
  iterate 12 all_goals first
    | with_reducible exact Keeps.refl _
    | with_reducible refine Keeps.trans ?_ (countTotal_keeps _ _ _)
    | with_reducible refine Keeps.trans ?_ (setLink_keeps _ _ _ _)
    | with_reducible split
    | with_reducible refine Keeps.trans ?_ (Keeps.upd rfl rfl rfl rfl rfl rfl)
    | skip

theorem recordFlag_keeps (s : State) (r : FlagRec) : Keeps s (recordFlag s r) := by
  unfold recordFlag
  try dsimp only
  iterate 12 all_goals first
    | with_reducible exact Keeps.refl _
    | with_reducible refine Keeps.trans ?_ (setCore_keeps _ _ _ _)
    | with_reducible refine Keeps.trans ?_ (countCore_keeps _ _ _ _ _)
    | with_reducible split
    | with_reducible refine Keeps.trans ?_ (Keeps.upd rfl rfl rfl rfl rfl rfl)
    | skip

theorem latchSummary_keeps (s : State) (b : Word) : Keeps s (latchSummary s b) := by
  unfold latchSummary
  try dsimp only
  iterate 12 all_goals first
    | with_reducible exact Keeps.refl _
    | with_reducible refine Keeps.trans ?_ (raiseEvent_keeps _ _)
    | with_reducible split
    | with_reducible refine Keeps.trans ?_ (Keeps.upd rfl rfl rfl rfl rfl rfl)
    | skip

theorem recordFlags_keeps (s : State) (recs : List FlagRec) (clamp : Bool) : Keeps s (recordFlags s recs clamp) := by
  unfold recordFlags
  try dsimp only
  iterate 12 all_goals first
    | with_reducible exact Keeps.refl _
    | with_reducible refine Keeps.trans ?_ (recordFlag_keeps _ _)
    | with_reducible refine Keeps.trans ?_ (foldl_keeps (fun s x => recordFlag_keeps s _) _ _)
    | with_reducible refine Keeps.trans ?_ (latchSummary_keeps _ _)
    | with_reducible refine Keeps.trans ?_ (foldl_keeps (fun s x => latchSummary_keeps s _) _ _)
    | with_reducible split
    | with_reducible refine Keeps.trans ?_ (foldl_keeps (fun s x => ?_) _ _)
    | with_reducible refine Keeps.trans ?_ (Keeps.upd rfl rfl rfl rfl rfl rfl)
    | skip

theorem setRing_keeps (s : State) (r : Nat) (x : Ring) : Keeps s (setRing s r x) := by
  unfold setRing
  try dsimp only
  iterate 12 all_goals first
    | with_reducible exact Keeps.refl _
    | with_reducible split
    | with_reducible refine Keeps.trans ?_ (Keeps.upd rfl rfl rfl rfl rfl rfl)
    | skip

theorem ringError_keeps (s : State) (r : Nat) (code : Nat) : Keeps s (ringError s r code) := by
  unfold ringError
  try dsimp only
  iterate 12 all_goals first
    | with_reducible exact Keeps.refl _
    | with_reducible refine Keeps.trans ?_ (raiseEvent_keeps _ _)
    | with_reducible refine Keeps.trans ?_ (setRing_keeps _ _ _)
    | with_reducible split
    | with_reducible refine Keeps.trans ?_ (Keeps.upd rfl rfl rfl rfl rfl rfl)
    | skip

theorem hostWrite_keeps (s : State) (a : Nat) (bs : List Byte) : Keeps s (hostWrite s a bs) := by
  unfold hostWrite
  split
  · exact .upd rfl rfl rfl rfl rfl rfl
  · refine ⟨rfl, fun h => ?_, id⟩
    simp only [memoriesWf, Bool.and_eq_true] at h ⊢
    exact ⟨⟨memStore_wf h.1.1 a bs, h.1.2⟩, h.2⟩

theorem logAer_keeps (s : State) (r : Nat) : Keeps s (logAer s r) := by
  unfold logAer
  try dsimp only
  iterate 12 all_goals first
    | with_reducible exact Keeps.refl _
    | with_reducible split
    | with_reducible refine Keeps.trans ?_ (Keeps.upd rfl rfl rfl rfl rfl rfl)
    | skip

theorem setStream_keeps (s : State) (sid : Nat) (x : Stream) : Keeps s (setStream s sid x) := by
  unfold setStream
  try dsimp only
  iterate 12 all_goals first
    | with_reducible exact Keeps.refl _
    | with_reducible split
    | with_reducible refine Keeps.trans ?_ (Keeps.upd rfl rfl rfl rfl rfl rfl)
    | skip

theorem homingNow_keeps (s : State) (busy : List Nat) : Keeps s (homingNow s busy) := by
  unfold homingNow
  try dsimp only
  iterate 12 all_goals first
    | with_reducible exact Keeps.refl _
    | with_reducible refine Keeps.trans ?_ (busy_keeps _)
    | with_reducible split
    | with_reducible refine Keeps.trans ?_ (Keeps.upd rfl rfl rfl rfl rfl rfl)
    | skip

theorem writeLedger_keeps (s : State) (entries : List LedgerEntry) (bringUps : Nat) : Keeps s (writeLedger s entries
    bringUps) := by
  unfold writeLedger
  try dsimp only
  iterate 12 all_goals first
    | with_reducible exact Keeps.refl _
    | with_reducible split
    | with_reducible refine Keeps.trans ?_ (Keeps.upd rfl rfl rfl rfl rfl rfl)
    | skip

theorem markWrite_keeps (s : State) (es : List LedgerEntry) : Keeps s (markWrite s es) := by
  unfold markWrite
  try dsimp only
  iterate 12 all_goals first
    | with_reducible exact Keeps.refl _
    | with_reducible split
    | with_reducible refine Keeps.trans ?_ (Keeps.upd rfl rfl rfl rfl rfl rfl)
    | skip

theorem bothLedgers_keeps (s : State) (es : List LedgerEntry) : Keeps s (bothLedgers s es) := by
  unfold bothLedgers
  try dsimp only
  iterate 12 all_goals first
    | with_reducible exact Keeps.refl _
    | with_reducible split
    | with_reducible refine Keeps.trans ?_ (Keeps.upd rfl rfl rfl rfl rfl rfl)
    | skip

theorem writeEntries_keeps (s : State) (es : List LedgerEntry) : Keeps s (writeEntries s es) := by
  unfold writeEntries
  try dsimp only
  iterate 12 all_goals first
    | with_reducible exact Keeps.refl _
    | with_reducible refine Keeps.trans ?_ (writeLedger_keeps _ _ _)
    | with_reducible refine Keeps.trans ?_ (markWrite_keeps _ _)
    | with_reducible refine Keeps.trans ?_ (bothLedgers_keeps _ _)
    | with_reducible split
    | with_reducible refine Keeps.trans ?_ (Keeps.upd rfl rfl rfl rfl rfl rfl)
    | skip

theorem addLedger_keeps (s : State) (kind : Nat) (chip : Nat) (unit : Nat) (origin : Nat) (element : Nat)
    (replacement : Nat) : Keeps s (addLedger s kind chip unit origin element replacement) := by
  unfold addLedger
  try dsimp only
  iterate 12 all_goals first
    | with_reducible exact Keeps.refl _
    | with_reducible refine Keeps.trans ?_ (logFault_keeps _ _ _ _ _)
    | with_reducible refine Keeps.trans ?_ (writeEntries_keeps _ _)
    | with_reducible split
    | with_reducible refine Keeps.trans ?_ (Keeps.upd rfl rfl rfl rfl rfl rfl)
    | skip

theorem cutWrite_keeps (s : State) : Keeps s (cutWrite s) := by
  unfold cutWrite
  try dsimp only
  iterate 12 all_goals first
    | with_reducible exact Keeps.refl _
    | with_reducible split
    | with_reducible refine Keeps.trans ?_ (Keeps.upd rfl rfl rfl rfl rfl rfl)
    | skip

theorem writeTorn_keeps (s : State) : Keeps s (writeTorn s) := by
  unfold writeTorn
  try dsimp only
  iterate 12 all_goals first
    | with_reducible exact Keeps.refl _
    | with_reducible refine Keeps.trans ?_ (writeEntries_keeps _ _)
    | with_reducible split
    | with_reducible refine Keeps.trans ?_ (Keeps.upd rfl rfl rfl rfl rfl rfl)
    | skip

theorem setCmd_keeps (s : State) (id : Nat) (f : Cmd → Cmd) : Keeps s (setCmd s id f) := by
  unfold setCmd
  try dsimp only
  iterate 12 all_goals first
    | with_reducible exact Keeps.refl _
    | with_reducible split
    | with_reducible refine Keeps.trans ?_ (Keeps.upd rfl rfl rfl rfl rfl rfl)
    | skip

theorem endCmd_keeps (s : State) (id : Nat) (status : Nat) (detail : Nat) (fixed : Option Tick) : Keeps s (endCmd s
    id status detail fixed) := by
  unfold endCmd
  try dsimp only
  iterate 12 all_goals first
    | with_reducible exact Keeps.refl _
    | with_reducible refine Keeps.trans ?_ (setCmd_keeps _ _ _)
    | with_reducible split
    | with_reducible refine Keeps.trans ?_ (Keeps.upd rfl rfl rfl rfl rfl rfl)
    | skip

theorem finishCmd_keeps (s : State) (id : Nat) (status : Nat) (detail : Nat) (cflags : Nat) (commits : List Commit) :
    Keeps s (finishCmd s id status detail cflags commits) := by
  unfold finishCmd
  try dsimp only
  iterate 12 all_goals first
    | with_reducible exact Keeps.refl _
    | with_reducible refine Keeps.trans ?_ (setCmd_keeps _ _ _)
    | with_reducible split
    | with_reducible refine Keeps.trans ?_ (Keeps.upd rfl rfl rfl rfl rfl rfl)
    | skip

theorem nextFree_keeps (s : State) : Keeps s (nextFree s) := by
  unfold nextFree
  try dsimp only
  iterate 12 all_goals first
    | with_reducible exact Keeps.refl _
    | with_reducible split
    | with_reducible refine Keeps.trans ?_ (Keeps.upd rfl rfl rfl rfl rfl rfl)
    | skip

theorem suspendNow_keeps (s : State) (mid : Nat) : Keeps s (suspendNow s mid) := by
  unfold suspendNow
  try dsimp only
  iterate 12 all_goals first
    | with_reducible exact Keeps.refl _
    | with_reducible refine Keeps.trans ?_ (raiseEvent_keeps _ _)
    | with_reducible split
    | with_reducible refine Keeps.trans ?_ (Keeps.upd rfl rfl rfl rfl rfl rfl)
    | skip

theorem fixPlan_keeps (s : State) : Keeps s (fixPlan s) := by
  unfold fixPlan
  try dsimp only
  iterate 12 all_goals first
    | with_reducible exact Keeps.refl _
    | with_reducible refine Keeps.trans ?_ (suspendNow_keeps _ _)
    | with_reducible refine Keeps.trans ?_ (foldl_keeps (fun s x => suspendNow_keeps s _) _ _)
    | with_reducible split
    | with_reducible refine Keeps.trans ?_ (foldl_keeps (fun s x => ?_) _ _)
    | with_reducible refine Keeps.trans ?_ (Keeps.upd rfl rfl rfl rfl rfl rfl)
    | skip

theorem clearFlags_keeps (s : State) : Keeps s (clearFlags s) := by
  unfold clearFlags
  try dsimp only
  iterate 12 all_goals first
    | with_reducible exact Keeps.refl _
    | with_reducible split
    | with_reducible refine Keeps.trans ?_ (Keeps.upd rfl rfl rfl rfl rfl rfl)
    | skip

end Sys2Proof.Machine
end

