-- ==== Sys2Proof/Laws/KeepsDispatch.lean ====
section
/-! SUPPORT. Keeps (Laws/KeepsBase.lean) for the dispatcher and the host's accesses. -/

namespace Sys2Proof.Machine

theorem wake_keeps (s : State) : Keeps s (wake s) := by
  unfold wake
  try dsimp only
  iterate 12 all_goals first
    | with_reducible exact Keeps.refl _
    | with_reducible split
    | with_reducible refine Keeps.trans ?_ (Keeps.upd rfl rfl rfl rfl rfl rfl)
    | skip

theorem joinCommand_keeps (s : State) (r : Nat) (ahead : Bool) (c : Cmd) : Keeps s (joinCommand s r ahead c) := by
  unfold joinCommand
  refine Keeps.trans ?_ (wake_keeps _)
  refine Keeps.trans (Keeps.trans ?_ (setRing_keeps _ _ _)) (.upd rfl rfl rfl rfl rfl rfl)
  split
  · exact logAer_keeps _ _
  · exact .refl s

theorem stallRing_keeps (s : State) (r : Nat) : Keeps s (stallRing s r) :=
  (ringError_keeps _ _ _).trans (setRing_keeps _ _ _)

theorem takeCommand_keeps (s : State) (r : Nat) (i : Nat) (ahead : Bool) : Keeps s (takeCommand s r i ahead) := by
  unfold takeCommand
  try dsimp only
  iterate 12 all_goals first
    | with_reducible exact Keeps.refl _
    | with_reducible refine Keeps.trans ?_ (joinCommand_keeps _ _ _ _)
    | with_reducible refine Keeps.trans ?_ (stallRing_keeps _ _)
    | with_reducible split
    | with_reducible refine Keeps.trans ?_ (Keeps.upd rfl rfl rfl rfl rfl rfl)
    | skip

theorem doCommandAccept_keeps (s : State) (t : Tick) : Keeps s (doCommandAccept s t) := by
  unfold doCommandAccept
  try dsimp only
  iterate 12 all_goals first
    | with_reducible exact Keeps.refl _
    | with_reducible refine Keeps.trans ?_ (stamp_keeps _ _)
    | with_reducible refine Keeps.trans ?_ (takeCommand_keeps _ _ _ _)
    | with_reducible split
    | with_reducible refine Keeps.trans ?_ (Keeps.upd rfl rfl rfl rfl rfl rfl)
    | skip

theorem markBehind_keeps (s : State) : Keeps s (markBehind s) := by
  unfold markBehind
  try dsimp only
  iterate 12 all_goals first
    | with_reducible exact Keeps.refl _
    | with_reducible split
    | with_reducible refine Keeps.trans ?_ (Keeps.upd rfl rfl rfl rfl rfl rfl)
    | skip

theorem startCmd_keeps (s : State) (c : Cmd) (reserved : List Nat) : Keeps s (startCmd s c reserved) := by
  unfold startCmd
  try dsimp only
  iterate 12 all_goals first
    | with_reducible exact Keeps.refl _
    | with_reducible refine Keeps.trans ?_ (setCmd_keeps _ _ _)
    | with_reducible refine Keeps.trans ?_ (markBehind_keeps _)
    | with_reducible split
    | with_reducible refine Keeps.trans ?_ (Keeps.upd rfl rfl rfl rfl rfl rfl)
    | skip

theorem doCommandStart_keeps (s : State) (id : Nat) (t : Tick) : Keeps s (doCommandStart s id t) := by
  unfold doCommandStart
  try dsimp only
  iterate 12 all_goals first
    | with_reducible exact Keeps.refl _
    | with_reducible refine Keeps.trans ?_ (stamp_keeps _ _)
    | with_reducible refine Keeps.trans ?_ (setCmd_keeps _ _ _)
    | with_reducible refine Keeps.trans ?_ (endCmd_keeps _ _ _ _ _)
    | with_reducible refine Keeps.trans ?_ (startCmd_keeps _ _ _)
    | with_reducible split
    | with_reducible refine Keeps.trans ?_ (Keeps.upd rfl rfl rfl rfl rfl rfl)
    | skip

theorem clearCounterSets_keeps (s : State) (scope : Nat) (mask : Nat) : Keeps s (clearCounterSets s scope mask) := by
  unfold clearCounterSets
  try dsimp only
  iterate 12 all_goals first
    | with_reducible exact Keeps.refl _
    | with_reducible split
    | with_reducible refine Keeps.trans ?_ (Keeps.upd rfl rfl rfl rfl rfl rfl)
    | skip

theorem unaudit_keeps (s : State) (sid : Nat) : Keeps s (unaudit s sid) := by
  unfold unaudit
  try dsimp only
  iterate 12 all_goals first
    | with_reducible exact Keeps.refl _
    | with_reducible split
    | with_reducible refine Keeps.trans ?_ (Keeps.upd rfl rfl rfl rfl rfl rfl)
    | skip

theorem enterAudit_keeps (s : State) (sid : Nat) (base : Stream) (r : AuditRec) : Keeps s (enterAudit s sid base r)
    := by
  unfold enterAudit
  try dsimp only
  iterate 12 all_goals first
    | with_reducible exact Keeps.refl _
    | with_reducible split
    | with_reducible refine Keeps.trans ?_ (foldl_keeps (fun s x => ?_) _ _)
    | with_reducible refine Keeps.trans ?_ (Keeps.upd rfl rfl rfl rfl rfl rfl)
    | skip

theorem setLane_keeps (s : State) (c : Nat) (l : Nat) (v : Qword) : Keeps s (setLane s c l v) := by
  unfold setLane
  try dsimp only
  iterate 12 all_goals first
    | with_reducible exact Keeps.refl _
    | with_reducible refine Keeps.trans ?_ (setChip_keeps _ _ _)
    | with_reducible split
    | with_reducible refine Keeps.trans ?_ (Keeps.upd rfl rfl rfl rfl rfl rfl)
    | skip

theorem askQuiet_keeps (s : State) : Keeps s (askQuiet s) := by
  unfold askQuiet
  try dsimp only
  iterate 12 all_goals first
    | with_reducible exact Keeps.refl _
    | with_reducible split
    | with_reducible refine Keeps.trans ?_ (Keeps.upd rfl rfl rfl rfl rfl rfl)
    | skip

theorem newMode_order (w mask value : Word) :
    (!(newMode w mask value).getLsbD 0 || (newMode w mask value).getLsbD 1) = true := by
  unfold newMode
  dsimp only
  generalize w &&& ~~~mask ||| value &&& mask = v
  split
  · simp
  · rename_i h; exact Bool.or_eq_true _ _ ▸ .inl (by simpa using h)

/-- SET_MODE's commit, whatever becomes of the replay window. -/
theorem setMode_keeps (s : State) (mask value : Word) (p : Power) (l : List Audited) :
    Keeps s { s with regs := { s.regs with modeCtrl := newMode s.regs.modeCtrl mask value }, power := p, audited := l
        } :=
  .of rfl id id id fun h => by
    simp only [modeWf, cfgField, Bool.and_eq_true] at h ⊢
    exact ⟨newMode_order _ _ _, h.2⟩

theorem applyCommit_keeps (t : Tick) (s : State) (x : Commit) : Keeps s (applyCommit t s x) := by
  cases x <;> dsimp only [applyCommit]
  case mode mask value cap => exact (setMode_keeps s mask value _ _).trans (askQuiet_keeps _)
  case step =>
    split
    · exact .refl s
    · exact Keeps.trans (.upd rfl rfl rfl rfl rfl rfl) (setStream_keeps _ _ _)
  case openStream => exact (setStream_keeps _ _ _).trans (.upd rfl rfl rfl rfl rfl rfl)
  case setParams => exact (setStream_keeps _ _ _).trans (.upd rfl rfl rfl rfl rfl rfl)
  case closeStream =>
    exact ((setStream_keeps _ _ _).trans (unaudit_keeps _ _)).trans (.upd rfl rfl rfl rfl rfl rfl)
  case history => exact (setStream_keeps _ _ _).trans (unaudit_keeps _ _)
  case streamRing => exact setStream_keeps _ _ _
  case lane => exact setLane_keeps _ _ _ _
  case lanes => exact foldl_keeps (fun s x => setLane_keeps _ _ _ _) _ _
  case suspend => exact suspendNow_keeps _ _
  case clearCounters => exact clearCounterSets_keeps _ _ _
  case audit => exact enterAudit_keeps _ _ _ _
  case clearAudit => exact unaudit_keeps _ _
  all_goals exact .upd rfl rfl rfl rfl rfl rfl

theorem sendCq_keeps (s : State) (q : Nat) : Keeps s (sendCq s q) := by
  unfold sendCq
  try dsimp only
  iterate 12 all_goals first
    | with_reducible exact Keeps.refl _
    | with_reducible refine Keeps.trans ?_ (sendMsi_keeps _ _ _)
    | with_reducible refine Keeps.trans ?_ (setRing_keeps _ _ _)
    | with_reducible split
    | with_reducible refine Keeps.trans ?_ (Keeps.upd rfl rfl rfl rfl rfl rfl)
    | skip

theorem countRecord_keeps (s : State) (q : Nat) (suppress : Bool) (t : Tick) : Keeps s (countRecord s q suppress t)
    := by
  unfold countRecord
  try dsimp only
  iterate 12 all_goals first
    | with_reducible exact Keeps.refl _
    | with_reducible refine Keeps.trans ?_ (setRing_keeps _ _ _)
    | with_reducible refine Keeps.trans ?_ (sendCq_keeps _ _)
    | with_reducible split
    | with_reducible refine Keeps.trans ?_ (Keeps.upd rfl rfl rfl rfl rfl rfl)
    | skip

theorem writeRecord_keeps (s : State) (c : Cmd) (t : Tick) : Keeps s (writeRecord s c t) := by
  unfold writeRecord
  try dsimp only
  iterate 12 all_goals first
    | with_reducible exact Keeps.refl _
    | with_reducible refine Keeps.trans ?_ (setRing_keeps _ _ _)
    | with_reducible refine Keeps.trans ?_ (ringError_keeps _ _ _)
    | with_reducible refine Keeps.trans ?_ (hostWrite_keeps _ _ _)
    | with_reducible refine Keeps.trans ?_ (countRecord_keeps _ _ _ _)
    | with_reducible split
    | with_reducible refine Keeps.trans ?_ (Keeps.upd rfl rfl rfl rfl rfl rfl)
    | skip

theorem spoilAreas_keeps (s : State) (k : Nat) (l : List (Nat × Nat)) : Keeps s (spoilAreas s k l) := by
  induction l generalizing s k with
  | nil => exact .refl s
  | cons p rest ih => exact (hostWrite_keeps _ _ _).trans (ih _ _)

theorem spoil_keeps (s : State) (c : Cmd) : Keeps s (spoil s c) := by
  unfold spoil
  try dsimp only
  iterate 12 all_goals first
    | with_reducible exact Keeps.refl _
    | with_reducible refine Keeps.trans ?_ (nextFree_keeps _)
    | with_reducible refine Keeps.trans ?_ (spoilAreas_keeps _ _ _)
    | with_reducible split
    | with_reducible refine Keeps.trans ?_ (Keeps.upd rfl rfl rfl rfl rfl rfl)
    | skip

theorem releaseMoves_keeps (s : State) : Keeps s (releaseMoves s) := by
  unfold releaseMoves
  try dsimp only
  iterate 12 all_goals first
    | with_reducible exact Keeps.refl _
    | with_reducible split
    | with_reducible refine Keeps.trans ?_ (Keeps.upd rfl rfl rfl rfl rfl rfl)
    | skip

theorem freeFollowers_keeps (s : State) (c : Cmd) (t : Tick) : Keeps s (freeFollowers s c t) := by
  unfold freeFollowers
  try dsimp only
  iterate 12 all_goals first
    | with_reducible exact Keeps.refl _
    | with_reducible split
    | with_reducible refine Keeps.trans ?_ (Keeps.upd rfl rfl rfl rfl rfl rfl)
    | skip

theorem completeCmd_keeps (s : State) (c : Cmd) (t : Tick) : Keeps s (completeCmd s c t) := by
  unfold completeCmd
  generalize settleCmd s c t = p
  obtain ⟨c, t⟩ := p
  dsimp only
  have h : Keeps s (freeFollowers (spoil (c.commits.foldl (applyCommit t) s) c) c t) :=
    ((foldl_keeps (fun s x => applyCommit_keeps _ s _) _ _).trans (spoil_keeps _ _)).trans (freeFollowers_keeps _ _ _)
  generalize freeFollowers (spoil (c.commits.foldl (applyCommit t) s) c) c t = u at h ⊢
  refine h.trans ?_
  split
  · exact (Keeps.upd rfl rfl rfl rfl rfl rfl).trans (releaseMoves_keeps _)
  · exact ((Keeps.upd rfl rfl rfl rfl rfl rfl).trans (releaseMoves_keeps _)).trans (writeRecord_keeps _ _ _)

theorem doCompletionRecordWrite_keeps (s : State) (id : Nat) (t : Tick) : Keeps s (doCompletionRecordWrite s id t) :=
    by
  unfold doCompletionRecordWrite
  try dsimp only
  iterate 12 all_goals first
    | with_reducible exact Keeps.refl _
    | with_reducible refine Keeps.trans ?_ (stamp_keeps _ _)
    | with_reducible refine Keeps.trans ?_ (completeCmd_keeps _ _ _)
    | with_reducible split
    | with_reducible refine Keeps.trans ?_ (Keeps.upd rfl rfl rfl rfl rfl rfl)
    | skip

theorem doCqCoalesceDelay_keeps (s : State) (r : Nat) (t : Tick) : Keeps s (doCqCoalesceDelay s r t) := by
  unfold doCqCoalesceDelay
  try dsimp only
  iterate 12 all_goals first
    | with_reducible exact Keeps.refl _
    | with_reducible refine Keeps.trans ?_ (stamp_keeps _ _)
    | with_reducible refine Keeps.trans ?_ (sendCq_keeps _ _)
    | with_reducible split
    | with_reducible refine Keeps.trans ?_ (Keeps.upd rfl rfl rfl rfl rfl rfl)
    | skip

theorem dropBarrier_keeps (s : State) (gone : Nat → Bool) : Keeps s (dropBarrier s gone) := by
  unfold dropBarrier
  try dsimp only
  iterate 12 all_goals first
    | with_reducible exact Keeps.refl _
    | with_reducible split
    | with_reducible refine Keeps.trans ?_ (Keeps.upd rfl rfl rfl rfl rfl rfl)
    | skip

theorem doDeadlineExpiry_keeps (s : State) (id : Nat) : Keeps s (doDeadlineExpiry s id) := by
  unfold doDeadlineExpiry
  try dsimp only
  iterate 12 all_goals first
    | with_reducible exact Keeps.refl _
    | with_reducible refine Keeps.trans ?_ (stamp_keeps _ _)
    | with_reducible refine Keeps.trans ?_ (endCmd_keeps _ _ _ _ _)
    | with_reducible refine Keeps.trans ?_ (dropBarrier_keeps _ _)
    | with_reducible split
    | with_reducible refine Keeps.trans ?_ (Keeps.upd rfl rfl rfl rfl rfl rfl)
    | skip

theorem askTest_keeps (s : State) (p : Nat × Nat) : Keeps s (askTest s p) := by
  unfold askTest
  try dsimp only
  iterate 12 all_goals first
    | with_reducible exact Keeps.refl _
    | with_reducible refine Keeps.trans ?_ (setCore_keeps _ _ _ _)
    | with_reducible split
    | with_reducible refine Keeps.trans ?_ (Keeps.upd rfl rfl rfl rfl rfl rfl)
    | skip

theorem doWatchdogExpiry_keeps (s : State) (id : Nat) (stuck : List (Nat × Nat)) (t : Tick) : Keeps s
    (doWatchdogExpiry s id stuck t) := by
  unfold doWatchdogExpiry
  try dsimp only
  iterate 12 all_goals first
    | with_reducible exact Keeps.refl _
    | with_reducible refine Keeps.trans ?_ (stamp_keeps _ _)
    | with_reducible refine Keeps.trans ?_ (foldl_keeps (fun s x => stamp_keeps s _) _ _)
    | with_reducible refine Keeps.trans ?_ (countChip_keeps _ _ _ _)
    | with_reducible refine Keeps.trans ?_ (foldl_keeps (fun s x => countChip_keeps s _ _ _) _ _)
    | with_reducible refine Keeps.trans ?_ (endCmd_keeps _ _ _ _ _)
    | with_reducible refine Keeps.trans ?_ (foldl_keeps (fun s x => endCmd_keeps s _ _ _ _) _ _)
    | with_reducible refine Keeps.trans ?_ (askTest_keeps _ _)
    | with_reducible refine Keeps.trans ?_ (foldl_keeps (fun s x => askTest_keeps s _) _ _)
    | with_reducible split
    | with_reducible refine Keeps.trans ?_ (foldl_keeps (fun s x => ?_) _ _)
    | with_reducible refine Keeps.trans ?_ (Keeps.upd rfl rfl rfl rfl rfl rfl)
    | skip

theorem foldl_memStore_wf (l : List (Nat × List Byte)) (m : List (Nat × Byte)) (h : Memory.wf m = true) :
    Memory.wf (l.foldl (fun m p => memStore m p.1 p.2) m) = true := by
  induction l generalizing m with
  | nil => exact h
  | cons p rest ih => exact ih _ (memStore_wf h _ _)

theorem applyNews_keeps (s : State) (n : HostNews) : Keeps s (applyNews s n) :=
  .of rfl (foldl_memStore_wf _ _) id id id

theorem keepTail_keeps (s : State) (r v : Nat) : Keeps s (keepTail s r v) :=
  .of rfl id (all_map_bridges fun b h => by split <;> exact h) id id

theorem ringTail_keeps (s : State) (r : Nat) (v : Nat) : Keeps s (ringTail s r v) := by
  unfold ringTail
  try dsimp only
  iterate 12 all_goals first
    | with_reducible exact Keeps.refl _
    | with_reducible refine Keeps.trans ?_ (setRing_keeps _ _ _)
    | with_reducible refine Keeps.trans ?_ (ringError_keeps _ _ _)
    | with_reducible refine Keeps.trans ?_ (wake_keeps _)
    | with_reducible split
    | with_reducible refine Keeps.trans ?_ (Keeps.upd rfl rfl rfl rfl rfl rfl)
    | skip

theorem doSqTailDb_keeps (s : State) (link : Nat) (fn : Nat) (ring : Nat) (value : Word) (news : HostNews) : Keeps s
    (doSqTailDb s link fn ring value news) := by
  unfold doSqTailDb
  try dsimp only
  iterate 12 all_goals first
    | with_reducible exact Keeps.refl _
    | with_reducible refine Keeps.trans ?_ (applyNews_keeps _ _)
    | with_reducible refine Keeps.trans ?_ (keepTail_keeps _ _ _)
    | with_reducible refine Keeps.trans ?_ (ringTail_keeps _ _ _)
    | with_reducible split
    | with_reducible refine Keeps.trans ?_ (Keeps.upd rfl rfl rfl rfl rfl rfl)
    | skip

theorem ringHead_keeps (s : State) (r : Nat) (h : Nat) : Keeps s (ringHead s r h) := by
  unfold ringHead
  try dsimp only
  iterate 12 all_goals first
    | with_reducible exact Keeps.refl _
    | with_reducible refine Keeps.trans ?_ (setRing_keeps _ _ _)
    | with_reducible refine Keeps.trans ?_ (ringError_keeps _ _ _)
    | with_reducible refine Keeps.trans ?_ (wake_keeps _)
    | with_reducible split
    | with_reducible refine Keeps.trans ?_ (Keeps.upd rfl rfl rfl rfl rfl rfl)
    | skip

theorem doCqHeadDb_keeps (s : State) (link : Nat) (fn : Nat) (ring : Nat) (value : Word) : Keeps s (doCqHeadDb s link
    fn ring value) := by
  unfold doCqHeadDb
  try dsimp only
  iterate 12 all_goals first
    | with_reducible exact Keeps.refl _
    | with_reducible refine Keeps.trans ?_ (ringHead_keeps _ _ _)
    | with_reducible split
    | with_reducible refine Keeps.trans ?_ (Keeps.upd rfl rfl rfl rfl rfl rfl)
    | skip

theorem enableCq_keeps (s : State) (r : Nat) : Keeps s (enableCq s r) := by
  unfold enableCq
  try dsimp only
  iterate 12 all_goals first
    | with_reducible exact Keeps.refl _
    | with_reducible refine Keeps.trans ?_ (setRing_keeps _ _ _)
    | with_reducible refine Keeps.trans ?_ (ringError_keeps _ _ _)
    | with_reducible split
    | with_reducible refine Keeps.trans ?_ (Keeps.upd rfl rfl rfl rfl rfl rfl)
    | skip

theorem enableSq_keeps (s : State) (r : Nat) : Keeps s (enableSq s r) := by
  unfold enableSq
  try dsimp only
  iterate 12 all_goals first
    | with_reducible exact Keeps.refl _
    | with_reducible refine Keeps.trans ?_ (setRing_keeps _ _ _)
    | with_reducible refine Keeps.trans ?_ (ringError_keeps _ _ _)
    | with_reducible split
    | with_reducible refine Keeps.trans ?_ (Keeps.upd rfl rfl rfl rfl rfl rfl)
    | skip

theorem disableSq_keeps (s : State) (r : Nat) : Keeps s (disableSq s r) := by
  unfold disableSq
  try dsimp only
  iterate 12 all_goals first
    | with_reducible exact Keeps.refl _
    | with_reducible refine Keeps.trans ?_ (setRing_keeps _ _ _)
    | with_reducible split
    | with_reducible refine Keeps.trans ?_ (Keeps.upd rfl rfl rfl rfl rfl rfl)
    | skip

theorem disableCq_keeps (s : State) (r : Nat) : Keeps s (disableCq s r) := by
  unfold disableCq
  try dsimp only
  iterate 12 all_goals first
    | with_reducible exact Keeps.refl _
    | with_reducible refine Keeps.trans ?_ (setRing_keeps _ _ _)
    | with_reducible refine Keeps.trans ?_ (ringError_keeps _ _ _)
    | with_reducible refine Keeps.trans ?_ (busy_keeps _)
    | with_reducible split
    | with_reducible refine Keeps.trans ?_ (Keeps.upd rfl rfl rfl rfl rfl rfl)
    | skip

theorem writeRingCtrl_keeps (s : State) (r : Nat) (v : Word) : Keeps s (writeRingCtrl s r v) := by
  unfold writeRingCtrl
  try dsimp only
  iterate 12 all_goals first
    | with_reducible exact Keeps.refl _
    | with_reducible refine Keeps.trans ?_ (setRing_keeps _ _ _)
    | with_reducible refine Keeps.trans ?_ (enableCq_keeps _ _)
    | with_reducible refine Keeps.trans ?_ (enableSq_keeps _ _)
    | with_reducible refine Keeps.trans ?_ (disableSq_keeps _ _)
    | with_reducible refine Keeps.trans ?_ (disableCq_keeps _ _)
    | with_reducible split
    | with_reducible refine Keeps.trans ?_ (Keeps.upd rfl rfl rfl rfl rfl rfl)
    | skip

theorem doRingCtrl_keeps (s : State) (fn : Nat) (ring : Nat) (v : Word) : Keeps s (doRingCtrl s fn ring v) := by
  unfold doRingCtrl
  try dsimp only
  iterate 12 all_goals first
    | with_reducible exact Keeps.refl _
    | with_reducible refine Keeps.trans ?_ (writeRingCtrl_keeps _ _ _)
    | with_reducible split
    | with_reducible refine Keeps.trans ?_ (Keeps.upd rfl rfl rfl rfl rfl rfl)
    | skip

theorem doRingErrClear_keeps (s : State) (fn : Nat) (ring : Nat) (v : Word) : Keeps s (doRingErrClear s fn ring v) :=
    by
  unfold doRingErrClear
  try dsimp only
  iterate 12 all_goals first
    | with_reducible exact Keeps.refl _
    | with_reducible refine Keeps.trans ?_ (setRing_keeps _ _ _)
    | with_reducible split
    | with_reducible refine Keeps.trans ?_ (Keeps.upd rfl rfl rfl rfl rfl rfl)
    | skip

theorem doFlagSummaryClear_keeps (s : State) (v : Word) : Keeps s (doFlagSummaryClear s v) := by
  unfold doFlagSummaryClear
  try dsimp only
  iterate 12 all_goals first
    | with_reducible exact Keeps.refl _
    | with_reducible split
    | with_reducible refine Keeps.trans ?_ (Keeps.upd rfl rfl rfl rfl rfl rfl)
    | skip

theorem doEventCauseClear_keeps (s : State) (v : Word) : Keeps s (doEventCauseClear s v) := by
  unfold doEventCauseClear
  try dsimp only
  iterate 12 all_goals first
    | with_reducible exact Keeps.refl _
    | with_reducible split
    | with_reducible refine Keeps.trans ?_ (Keeps.upd rfl rfl rfl rfl rfl rfl)
    | skip

theorem flr_keeps (s : State) (fn : Nat) : Keeps s (flr s fn) := by
  unfold flr
  dsimp only
  split <;> exact .of rfl id id (mapWfFrom_filter _) id

theorem doFlr_keeps (s : State) (fn : Nat) : Keeps s (doFlr s fn) := by
  unfold doFlr
  try dsimp only
  iterate 12 all_goals first
    | with_reducible exact Keeps.refl _
    | with_reducible refine Keeps.trans ?_ (flr_keeps _ _)
    | with_reducible split
    | with_reducible refine Keeps.trans ?_ (Keeps.upd rfl rfl rfl rfl rfl rfl)
    | skip

theorem doVfEnable_keeps (s : State) (v : Nat) : Keeps s (doVfEnable s v) := by
  unfold doVfEnable
  try dsimp only
  iterate 12 all_goals first
    | with_reducible exact Keeps.refl _
    | with_reducible split
    | with_reducible refine Keeps.trans ?_ (Keeps.upd rfl rfl rfl rfl rfl rfl)
    | skip

theorem doVfDisable_keeps (s : State) (v : Nat) : Keeps s (doVfDisable s v) := by
  unfold doVfDisable
  try dsimp only
  iterate 12 all_goals first
    | with_reducible exact Keeps.refl _
    | with_reducible refine Keeps.trans ?_ (flr_keeps _ _)
    | with_reducible split
    | with_reducible refine Keeps.trans ?_ (Keeps.upd rfl rfl rfl rfl rfl rfl)
    | skip

theorem releaseSriov_keeps (s : State) : Keeps s (releaseSriov s) := by
  unfold releaseSriov
  try dsimp only
  iterate 12 all_goals first
    | with_reducible exact Keeps.refl _
    | with_reducible split
    | with_reducible refine Keeps.trans ?_ (Keeps.upd rfl rfl rfl rfl rfl rfl)
    | skip

theorem doSriov_keeps (s : State) (link : Nat) (on : Bool) : Keeps s (doSriov s link on) := by
  unfold doSriov
  split
  · exact .refl s
  split
  · split
    · exact .upd rfl rfl rfl rfl rfl rfl
    · exact .refl s
  · split
    · exact .refl s
    · exact (foldl_keeps doVfDisable_keeps _ _).trans (releaseSriov_keeps _)

theorem doTrayCountLoRead_keeps (s : State) (link : Nat) : Keeps s (doTrayCountLoRead s link) := by
  unfold doTrayCountLoRead
  try dsimp only
  iterate 12 all_goals first
    | with_reducible exact Keeps.refl _
    | with_reducible split
    | with_reducible refine Keeps.trans ?_ (Keeps.upd rfl rfl rfl rfl rfl rfl)
    | skip

theorem doIngressSyncRead_keeps (s : State) (link : Nat) : Keeps s (doIngressSyncRead s link) := by
  unfold doIngressSyncRead
  try dsimp only
  iterate 12 all_goals first
    | with_reducible exact Keeps.refl _
    | with_reducible split
    | with_reducible refine Keeps.trans ?_ (Keeps.upd rfl rfl rfl rfl rfl rfl)
    | skip

theorem doBar2Write_keeps (s : State) (fn link off : Nat) (bs : List (Option Byte)) : Keeps s (doBar2Write s fn link
    off bs) := by
  unfold doBar2Write
  split
  · exact .refl s
  · exact .of rfl id (all_map_bridges fun b h => by
      split
      · exact h
      · exact memStoreEnabled_wf h _ _) id id

theorem writeRingReg_keeps (s : State) (r : Nat) (off : Nat) (v : Word) : Keeps s (writeRingReg s r off v) := by
  unfold writeRingReg
  try dsimp only
  iterate 12 all_goals first
    | with_reducible exact Keeps.refl _
    | with_reducible refine Keeps.trans ?_ (setRing_keeps _ _ _)
    | with_reducible refine Keeps.trans ?_ (writeRingCtrl_keeps _ _ _)
    | with_reducible split
    | with_reducible refine Keeps.trans ?_ (Keeps.upd rfl rfl rfl rfl rfl rfl)
    | skip

theorem writeVfReg_keeps (s : State) (v : Nat) (off : Nat) (x : Word) : Keeps s (writeVfReg s v off x) := by
  unfold writeVfReg
  try dsimp only
  iterate 12 all_goals first
    | with_reducible exact Keeps.refl _
    | with_reducible refine Keeps.trans ?_ (doVfEnable_keeps _ _)
    | with_reducible refine Keeps.trans ?_ (doVfDisable_keeps _ _)
    | with_reducible split
    | with_reducible refine Keeps.trans ?_ (Keeps.upd rfl rfl rfl rfl rfl rfl)
    | skip

theorem putMsix_keeps (s : State) (fn off : Nat) (w : Word) : Keeps s (putMsix s fn off w) :=
  .of rfl id id (fun h => memStore_wf h _ _) id

theorem releaseMsix_keeps (s : State) (fn : Nat) (k : Nat) : Keeps s (releaseMsix s fn k) := by
  unfold releaseMsix
  try dsimp only
  iterate 12 all_goals first
    | with_reducible exact Keeps.refl _
    | with_reducible refine Keeps.trans ?_ (sendMsi_keeps _ _ _)
    | with_reducible split
    | with_reducible refine Keeps.trans ?_ (Keeps.upd rfl rfl rfl rfl rfl rfl)
    | skip

theorem writeMsix_keeps (s : State) (fn : Nat) (off : Nat) (v : Word) : Keeps s (writeMsix s fn off v) := by
  unfold writeMsix
  try dsimp only
  iterate 12 all_goals first
    | with_reducible exact Keeps.refl _
    | with_reducible refine Keeps.trans ?_ (putMsix_keeps _ _ _ _)
    | with_reducible refine Keeps.trans ?_ (releaseMsix_keeps _ _ _)
    | with_reducible split
    | with_reducible refine Keeps.trans ?_ (Keeps.upd rfl rfl rfl rfl rfl rfl)
    | skip

theorem ringRegionWrite_keeps (s : State) (fn : Nat) (off : Nat) (v : Word) : Keeps s (ringRegionWrite s fn off v) :=
    by
  unfold ringRegionWrite
  try dsimp only
  iterate 12 all_goals first
    | with_reducible exact Keeps.refl _
    | with_reducible refine Keeps.trans ?_ (writeRingReg_keeps _ _ _ _)
    | with_reducible split
    | with_reducible refine Keeps.trans ?_ (Keeps.upd rfl rfl rfl rfl rfl rfl)
    | skip

theorem doorbellWrite_keeps (s : State) (link : Nat) (fn : Nat) (off : Nat) (v : Word) : Keeps s (doorbellWrite s
    link fn off v) := by
  unfold doorbellWrite
  try dsimp only
  iterate 12 all_goals first
    | with_reducible exact Keeps.refl _
    | with_reducible refine Keeps.trans ?_ (doSqTailDb_keeps _ _ _ _ _ _)
    | with_reducible refine Keeps.trans ?_ (doCqHeadDb_keeps _ _ _ _ _)
    | with_reducible split
    | with_reducible refine Keeps.trans ?_ (Keeps.upd rfl rfl rfl rfl rfl rfl)
    | skip

theorem vfRegionWrite_keeps (s : State) (off : Nat) (v : Word) : Keeps s (vfRegionWrite s off v) := by
  unfold vfRegionWrite
  try dsimp only
  iterate 12 all_goals first
    | with_reducible exact Keeps.refl _
    | with_reducible refine Keeps.trans ?_ (writeVfReg_keeps _ _ _ _)
    | with_reducible split
    | with_reducible refine Keeps.trans ?_ (Keeps.upd rfl rfl rfl rfl rfl rfl)
    | skip

theorem statusRegionWrite_keeps (s : State) (off : Nat) (v : Word) : Keeps s (statusRegionWrite s off v) := by
  unfold statusRegionWrite
  try dsimp only
  iterate 12 all_goals first
    | with_reducible exact Keeps.refl _
    | with_reducible refine Keeps.trans ?_ (doFlagSummaryClear_keeps _ _)
    | with_reducible refine Keeps.trans ?_ (doEventCauseClear_keeps _ _)
    | with_reducible split
    | with_reducible refine Keeps.trans ?_ (Keeps.upd rfl rfl rfl rfl rfl rfl)
    | skip

theorem doRegisterWrite_keeps (s : State) (fn link off : Nat) (v : Word) : Keeps s (doRegisterWrite s fn link off v)
    := by
  unfold doRegisterWrite
  refine .ite (.refl s) (.ite (ringRegionWrite_keeps _ _ _ _) (.ite (doorbellWrite_keeps _ _ _ _ _)
    (.ite (writeMsix_keeps _ _ _ _) (.ite (.refl s) (.ite (vfRegionWrite_keeps _ _ _) (statusRegionWrite_keeps _ _
        _))))))

end Sys2Proof.Machine
end

