-- ==== Sys2Proof/Laws/State.lean ====
section
/-! SUPPORT. What each named update of the state leaves in each field: one lemma for each field of State and each update,
true by definition, so that no proof unfolds a record update. -/

namespace Sys2Proof.Machine

/-! ## stamp -/

@[simp] theorem stamp_now (s : State) (t : Tick) : (stamp s t).now = max s.now t := rfl
@[simp] theorem stamp_regs (s : State) (t : Tick) : (stamp s t).regs = s.regs := rfl
@[simp] theorem stamp_rings (s : State) (t : Tick) : (stamp s t).rings = s.rings := rfl
@[simp] theorem stamp_vfs (s : State) (t : Tick) : (stamp s t).vfs = s.vfs := rfl
@[simp] theorem stamp_links (s : State) (t : Tick) : (stamp s t).links = s.links := rfl
@[simp] theorem stamp_bridges (s : State) (t : Tick) : (stamp s t).bridges = s.bridges := rfl
@[simp] theorem stamp_host (s : State) (t : Tick) : (stamp s t).host = s.host := rfl
@[simp] theorem stamp_hostBad (s : State) (t : Tick) : (stamp s t).hostBad = s.hostBad := rfl
@[simp] theorem stamp_unsent (s : State) (t : Tick) : (stamp s t).unsent = s.unsent := rfl
@[simp] theorem stamp_unrecorded (s : State) (t : Tick) : (stamp s t).unrecorded = s.unrecorded := rfl
@[simp] theorem stamp_served (s : State) (t : Tick) : (stamp s t).served = s.served := rfl
@[simp] theorem stamp_tmc (s : State) (t : Tick) : (stamp s t).tmc = s.tmc := rfl
@[simp] theorem stamp_cmds (s : State) (t : Tick) : (stamp s t).cmds = s.cmds := rfl
@[simp] theorem stamp_done (s : State) (t : Tick) : (stamp s t).done = s.done := rfl
@[simp] theorem stamp_recent (s : State) (t : Tick) : (stamp s t).recent = s.recent := rfl
@[simp] theorem stamp_streams (s : State) (t : Tick) : (stamp s t).streams = s.streams := rfl
@[simp] theorem stamp_homing (s : State) (t : Tick) : (stamp s t).homing = s.homing := rfl
@[simp] theorem stamp_homes (s : State) (t : Tick) : (stamp s t).homes = s.homes := rfl
@[simp] theorem stamp_moving (s : State) (t : Tick) : (stamp s t).moving = s.moving := rfl
@[simp] theorem stamp_models (s : State) (t : Tick) : (stamp s t).models = s.models := rfl
@[simp] theorem stamp_modelGen (s : State) (t : Tick) : (stamp s t).modelGen = s.modelGen := rfl
@[simp] theorem stamp_masks (s : State) (t : Tick) : (stamp s t).masks = s.masks := rfl
@[simp] theorem stamp_functions (s : State) (t : Tick) : (stamp s t).functions = s.functions := rfl
@[simp] theorem stamp_audited (s : State) (t : Tick) : (stamp s t).audited = s.audited := rfl
@[simp] theorem stamp_chips (s : State) (t : Tick) : (stamp s t).chips = s.chips := rfl
@[simp] theorem stamp_mesh (s : State) (t : Tick) : (stamp s t).mesh = s.mesh := rfl
@[simp] theorem stamp_totals (s : State) (t : Tick) : (stamp s t).totals = s.totals := rfl
@[simp] theorem stamp_loss (s : State) (t : Tick) : (stamp s t).loss = s.loss := rfl
@[simp] theorem stamp_barrierSt (s : State) (t : Tick) : (stamp s t).barrierSt = s.barrierSt := rfl
@[simp] theorem stamp_tasks (s : State) (t : Tick) : (stamp s t).tasks = s.tasks := rfl
@[simp] theorem stamp_quiet (s : State) (t : Tick) : (stamp s t).quiet = s.quiet := rfl
@[simp] theorem stamp_bist (s : State) (t : Tick) : (stamp s t).bist = s.bist := rfl
@[simp] theorem stamp_ledgerWrite (s : State) (t : Tick) : (stamp s t).ledgerWrite = s.ledgerWrite := rfl
@[simp] theorem stamp_deputy (s : State) (t : Tick) : (stamp s t).deputy = s.deputy := rfl
@[simp] theorem stamp_deferred (s : State) (t : Tick) : (stamp s t).deferred = s.deferred := rfl
@[simp] theorem stamp_deferredLog (s : State) (t : Tick) : (stamp s t).deferredLog = s.deferredLog := rfl
@[simp] theorem stamp_vault (s : State) (t : Tick) : (stamp s t).vault = s.vault := rfl
@[simp] theorem stamp_boot (s : State) (t : Tick) : (stamp s t).boot = s.boot := rfl
@[simp] theorem stamp_shutdown (s : State) (t : Tick) : (stamp s t).shutdown = s.shutdown := rfl
@[simp] theorem stamp_power (s : State) (t : Tick) : (stamp s t).power = s.power := rfl
@[simp] theorem stamp_mgmt (s : State) (t : Tick) : (stamp s t).mgmt = s.mgmt := rfl
@[simp] theorem stamp_freeCtr (s : State) (t : Tick) : (stamp s t).freeCtr = s.freeCtr := rfl
@[simp] theorem stamp_nextId (s : State) (t : Tick) : (stamp s t).nextId = s.nextId := rfl
@[simp] theorem stamp_pending (s : State) (t : Tick) : (stamp s t).pending = s.pending := rfl

/-! ## nextFree -/

@[simp] theorem nextFree_now (s : State) : (nextFree s).now = s.now := rfl
@[simp] theorem nextFree_regs (s : State) : (nextFree s).regs = s.regs := rfl
@[simp] theorem nextFree_rings (s : State) : (nextFree s).rings = s.rings := rfl
@[simp] theorem nextFree_vfs (s : State) : (nextFree s).vfs = s.vfs := rfl
@[simp] theorem nextFree_links (s : State) : (nextFree s).links = s.links := rfl
@[simp] theorem nextFree_bridges (s : State) : (nextFree s).bridges = s.bridges := rfl
@[simp] theorem nextFree_host (s : State) : (nextFree s).host = s.host := rfl
@[simp] theorem nextFree_hostBad (s : State) : (nextFree s).hostBad = s.hostBad := rfl
@[simp] theorem nextFree_unsent (s : State) : (nextFree s).unsent = s.unsent := rfl
@[simp] theorem nextFree_unrecorded (s : State) : (nextFree s).unrecorded = s.unrecorded := rfl
@[simp] theorem nextFree_served (s : State) : (nextFree s).served = s.served := rfl
@[simp] theorem nextFree_tmc (s : State) : (nextFree s).tmc = s.tmc := rfl
@[simp] theorem nextFree_cmds (s : State) : (nextFree s).cmds = s.cmds := rfl
@[simp] theorem nextFree_done (s : State) : (nextFree s).done = s.done := rfl
@[simp] theorem nextFree_recent (s : State) : (nextFree s).recent = s.recent := rfl
@[simp] theorem nextFree_streams (s : State) : (nextFree s).streams = s.streams := rfl
@[simp] theorem nextFree_homing (s : State) : (nextFree s).homing = s.homing := rfl
@[simp] theorem nextFree_homes (s : State) : (nextFree s).homes = s.homes := rfl
@[simp] theorem nextFree_moving (s : State) : (nextFree s).moving = s.moving := rfl
@[simp] theorem nextFree_models (s : State) : (nextFree s).models = s.models := rfl
@[simp] theorem nextFree_modelGen (s : State) : (nextFree s).modelGen = s.modelGen := rfl
@[simp] theorem nextFree_masks (s : State) : (nextFree s).masks = s.masks := rfl
@[simp] theorem nextFree_functions (s : State) : (nextFree s).functions = s.functions := rfl
@[simp] theorem nextFree_audited (s : State) : (nextFree s).audited = s.audited := rfl
@[simp] theorem nextFree_chips (s : State) : (nextFree s).chips = s.chips := rfl
@[simp] theorem nextFree_mesh (s : State) : (nextFree s).mesh = s.mesh := rfl
@[simp] theorem nextFree_totals (s : State) : (nextFree s).totals = s.totals := rfl
@[simp] theorem nextFree_loss (s : State) : (nextFree s).loss = s.loss := rfl
@[simp] theorem nextFree_barrierSt (s : State) : (nextFree s).barrierSt = s.barrierSt := rfl
@[simp] theorem nextFree_tasks (s : State) : (nextFree s).tasks = s.tasks := rfl
@[simp] theorem nextFree_quiet (s : State) : (nextFree s).quiet = s.quiet := rfl
@[simp] theorem nextFree_bist (s : State) : (nextFree s).bist = s.bist := rfl
@[simp] theorem nextFree_ledgerWrite (s : State) : (nextFree s).ledgerWrite = s.ledgerWrite := rfl
@[simp] theorem nextFree_deputy (s : State) : (nextFree s).deputy = s.deputy := rfl
@[simp] theorem nextFree_deferred (s : State) : (nextFree s).deferred = s.deferred := rfl
@[simp] theorem nextFree_deferredLog (s : State) : (nextFree s).deferredLog = s.deferredLog := rfl
@[simp] theorem nextFree_vault (s : State) : (nextFree s).vault = s.vault := rfl
@[simp] theorem nextFree_boot (s : State) : (nextFree s).boot = s.boot := rfl
@[simp] theorem nextFree_shutdown (s : State) : (nextFree s).shutdown = s.shutdown := rfl
@[simp] theorem nextFree_power (s : State) : (nextFree s).power = s.power := rfl
@[simp] theorem nextFree_mgmt (s : State) : (nextFree s).mgmt = s.mgmt := rfl
@[simp] theorem nextFree_freeCtr (s : State) : (nextFree s).freeCtr = s.freeCtr + 1 := rfl
@[simp] theorem nextFree_nextId (s : State) : (nextFree s).nextId = s.nextId := rfl
@[simp] theorem nextFree_pending (s : State) : (nextFree s).pending = s.pending := rfl

/-! ## setRing -/

@[simp] theorem setRing_now (s : State) (r : Nat) (x : Ring) : (setRing s r x).now = s.now := rfl
@[simp] theorem setRing_regs (s : State) (r : Nat) (x : Ring) : (setRing s r x).regs = s.regs := rfl
@[simp] theorem setRing_rings (s : State) (r : Nat) (x : Ring) : (setRing s r x).rings = mapIns s.rings r x := rfl
@[simp] theorem setRing_vfs (s : State) (r : Nat) (x : Ring) : (setRing s r x).vfs = s.vfs := rfl
@[simp] theorem setRing_links (s : State) (r : Nat) (x : Ring) : (setRing s r x).links = s.links := rfl
@[simp] theorem setRing_bridges (s : State) (r : Nat) (x : Ring) : (setRing s r x).bridges = s.bridges := rfl
@[simp] theorem setRing_host (s : State) (r : Nat) (x : Ring) : (setRing s r x).host = s.host := rfl
@[simp] theorem setRing_hostBad (s : State) (r : Nat) (x : Ring) : (setRing s r x).hostBad = s.hostBad := rfl
@[simp] theorem setRing_unsent (s : State) (r : Nat) (x : Ring) : (setRing s r x).unsent = s.unsent := rfl
@[simp] theorem setRing_unrecorded (s : State) (r : Nat) (x : Ring) : (setRing s r x).unrecorded = s.unrecorded := rfl
@[simp] theorem setRing_served (s : State) (r : Nat) (x : Ring) : (setRing s r x).served = s.served := rfl
@[simp] theorem setRing_tmc (s : State) (r : Nat) (x : Ring) : (setRing s r x).tmc = s.tmc := rfl
@[simp] theorem setRing_cmds (s : State) (r : Nat) (x : Ring) : (setRing s r x).cmds = s.cmds := rfl
@[simp] theorem setRing_done (s : State) (r : Nat) (x : Ring) : (setRing s r x).done = s.done := rfl
@[simp] theorem setRing_recent (s : State) (r : Nat) (x : Ring) : (setRing s r x).recent = s.recent := rfl
@[simp] theorem setRing_streams (s : State) (r : Nat) (x : Ring) : (setRing s r x).streams = s.streams := rfl
@[simp] theorem setRing_homing (s : State) (r : Nat) (x : Ring) : (setRing s r x).homing = s.homing := rfl
@[simp] theorem setRing_homes (s : State) (r : Nat) (x : Ring) : (setRing s r x).homes = s.homes := rfl
@[simp] theorem setRing_moving (s : State) (r : Nat) (x : Ring) : (setRing s r x).moving = s.moving := rfl
@[simp] theorem setRing_models (s : State) (r : Nat) (x : Ring) : (setRing s r x).models = s.models := rfl
@[simp] theorem setRing_modelGen (s : State) (r : Nat) (x : Ring) : (setRing s r x).modelGen = s.modelGen := rfl
@[simp] theorem setRing_masks (s : State) (r : Nat) (x : Ring) : (setRing s r x).masks = s.masks := rfl
@[simp] theorem setRing_functions (s : State) (r : Nat) (x : Ring) : (setRing s r x).functions = s.functions := rfl
@[simp] theorem setRing_audited (s : State) (r : Nat) (x : Ring) : (setRing s r x).audited = s.audited := rfl
@[simp] theorem setRing_chips (s : State) (r : Nat) (x : Ring) : (setRing s r x).chips = s.chips := rfl
@[simp] theorem setRing_mesh (s : State) (r : Nat) (x : Ring) : (setRing s r x).mesh = s.mesh := rfl
@[simp] theorem setRing_totals (s : State) (r : Nat) (x : Ring) : (setRing s r x).totals = s.totals := rfl
@[simp] theorem setRing_loss (s : State) (r : Nat) (x : Ring) : (setRing s r x).loss = s.loss := rfl
@[simp] theorem setRing_barrierSt (s : State) (r : Nat) (x : Ring) : (setRing s r x).barrierSt = s.barrierSt := rfl
@[simp] theorem setRing_tasks (s : State) (r : Nat) (x : Ring) : (setRing s r x).tasks = s.tasks := rfl
@[simp] theorem setRing_quiet (s : State) (r : Nat) (x : Ring) : (setRing s r x).quiet = s.quiet := rfl
@[simp] theorem setRing_bist (s : State) (r : Nat) (x : Ring) : (setRing s r x).bist = s.bist := rfl
@[simp] theorem setRing_ledgerWrite (s : State) (r : Nat) (x : Ring) : (setRing s r x).ledgerWrite = s.ledgerWrite := rfl
@[simp] theorem setRing_deputy (s : State) (r : Nat) (x : Ring) : (setRing s r x).deputy = s.deputy := rfl
@[simp] theorem setRing_deferred (s : State) (r : Nat) (x : Ring) : (setRing s r x).deferred = s.deferred := rfl
@[simp] theorem setRing_deferredLog (s : State) (r : Nat) (x : Ring) :
    (setRing s r x).deferredLog = s.deferredLog := rfl
@[simp] theorem setRing_vault (s : State) (r : Nat) (x : Ring) : (setRing s r x).vault = s.vault := rfl
@[simp] theorem setRing_boot (s : State) (r : Nat) (x : Ring) : (setRing s r x).boot = s.boot := rfl
@[simp] theorem setRing_shutdown (s : State) (r : Nat) (x : Ring) : (setRing s r x).shutdown = s.shutdown := rfl
@[simp] theorem setRing_power (s : State) (r : Nat) (x : Ring) : (setRing s r x).power = s.power := rfl
@[simp] theorem setRing_mgmt (s : State) (r : Nat) (x : Ring) : (setRing s r x).mgmt = s.mgmt := rfl
@[simp] theorem setRing_freeCtr (s : State) (r : Nat) (x : Ring) : (setRing s r x).freeCtr = s.freeCtr := rfl
@[simp] theorem setRing_nextId (s : State) (r : Nat) (x : Ring) : (setRing s r x).nextId = s.nextId := rfl
@[simp] theorem setRing_pending (s : State) (r : Nat) (x : Ring) : (setRing s r x).pending = s.pending := rfl

/-! ## setStream -/

@[simp] theorem setStream_now (s : State) (k : Nat) (x : Stream) : (setStream s k x).now = s.now := rfl
@[simp] theorem setStream_regs (s : State) (k : Nat) (x : Stream) : (setStream s k x).regs = s.regs := rfl
@[simp] theorem setStream_rings (s : State) (k : Nat) (x : Stream) : (setStream s k x).rings = s.rings := rfl
@[simp] theorem setStream_vfs (s : State) (k : Nat) (x : Stream) : (setStream s k x).vfs = s.vfs := rfl
@[simp] theorem setStream_links (s : State) (k : Nat) (x : Stream) : (setStream s k x).links = s.links := rfl
@[simp] theorem setStream_bridges (s : State) (k : Nat) (x : Stream) : (setStream s k x).bridges = s.bridges := rfl
@[simp] theorem setStream_host (s : State) (k : Nat) (x : Stream) : (setStream s k x).host = s.host := rfl
@[simp] theorem setStream_hostBad (s : State) (k : Nat) (x : Stream) : (setStream s k x).hostBad = s.hostBad := rfl
@[simp] theorem setStream_unsent (s : State) (k : Nat) (x : Stream) : (setStream s k x).unsent = s.unsent := rfl
@[simp] theorem setStream_unrecorded (s : State) (k : Nat) (x : Stream) :
    (setStream s k x).unrecorded = s.unrecorded := rfl
@[simp] theorem setStream_served (s : State) (k : Nat) (x : Stream) : (setStream s k x).served = s.served := rfl
@[simp] theorem setStream_tmc (s : State) (k : Nat) (x : Stream) : (setStream s k x).tmc = s.tmc := rfl
@[simp] theorem setStream_cmds (s : State) (k : Nat) (x : Stream) : (setStream s k x).cmds = s.cmds := rfl
@[simp] theorem setStream_done (s : State) (k : Nat) (x : Stream) : (setStream s k x).done = s.done := rfl
@[simp] theorem setStream_recent (s : State) (k : Nat) (x : Stream) : (setStream s k x).recent = s.recent := rfl
@[simp] theorem setStream_streams (s : State) (k : Nat) (x : Stream) :
    (setStream s k x).streams = mapIns s.streams k x := rfl
@[simp] theorem setStream_homing (s : State) (k : Nat) (x : Stream) : (setStream s k x).homing = s.homing := rfl
@[simp] theorem setStream_homes (s : State) (k : Nat) (x : Stream) : (setStream s k x).homes = s.homes := rfl
@[simp] theorem setStream_moving (s : State) (k : Nat) (x : Stream) : (setStream s k x).moving = s.moving := rfl
@[simp] theorem setStream_models (s : State) (k : Nat) (x : Stream) : (setStream s k x).models = s.models := rfl
@[simp] theorem setStream_modelGen (s : State) (k : Nat) (x : Stream) : (setStream s k x).modelGen = s.modelGen := rfl
@[simp] theorem setStream_masks (s : State) (k : Nat) (x : Stream) : (setStream s k x).masks = s.masks := rfl
@[simp] theorem setStream_functions (s : State) (k : Nat) (x : Stream) :
    (setStream s k x).functions = s.functions := rfl
@[simp] theorem setStream_audited (s : State) (k : Nat) (x : Stream) : (setStream s k x).audited = s.audited := rfl
@[simp] theorem setStream_chips (s : State) (k : Nat) (x : Stream) : (setStream s k x).chips = s.chips := rfl
@[simp] theorem setStream_mesh (s : State) (k : Nat) (x : Stream) : (setStream s k x).mesh = s.mesh := rfl
@[simp] theorem setStream_totals (s : State) (k : Nat) (x : Stream) : (setStream s k x).totals = s.totals := rfl
@[simp] theorem setStream_loss (s : State) (k : Nat) (x : Stream) : (setStream s k x).loss = s.loss := rfl
@[simp] theorem setStream_barrierSt (s : State) (k : Nat) (x : Stream) :
    (setStream s k x).barrierSt = s.barrierSt := rfl
@[simp] theorem setStream_tasks (s : State) (k : Nat) (x : Stream) : (setStream s k x).tasks = s.tasks := rfl
@[simp] theorem setStream_quiet (s : State) (k : Nat) (x : Stream) : (setStream s k x).quiet = s.quiet := rfl
@[simp] theorem setStream_bist (s : State) (k : Nat) (x : Stream) : (setStream s k x).bist = s.bist := rfl
@[simp] theorem setStream_ledgerWrite (s : State) (k : Nat) (x : Stream) : (setStream s k x).ledgerWrite = s.ledgerWrite := rfl
@[simp] theorem setStream_deputy (s : State) (k : Nat) (x : Stream) : (setStream s k x).deputy = s.deputy := rfl
@[simp] theorem setStream_deferred (s : State) (k : Nat) (x : Stream) : (setStream s k x).deferred = s.deferred := rfl
@[simp] theorem setStream_deferredLog (s : State) (k : Nat) (x : Stream) :
    (setStream s k x).deferredLog = s.deferredLog := rfl
@[simp] theorem setStream_vault (s : State) (k : Nat) (x : Stream) : (setStream s k x).vault = s.vault := rfl
@[simp] theorem setStream_boot (s : State) (k : Nat) (x : Stream) : (setStream s k x).boot = s.boot := rfl
@[simp] theorem setStream_shutdown (s : State) (k : Nat) (x : Stream) : (setStream s k x).shutdown = s.shutdown := rfl
@[simp] theorem setStream_power (s : State) (k : Nat) (x : Stream) : (setStream s k x).power = s.power := rfl
@[simp] theorem setStream_mgmt (s : State) (k : Nat) (x : Stream) : (setStream s k x).mgmt = s.mgmt := rfl
@[simp] theorem setStream_freeCtr (s : State) (k : Nat) (x : Stream) : (setStream s k x).freeCtr = s.freeCtr := rfl
@[simp] theorem setStream_nextId (s : State) (k : Nat) (x : Stream) : (setStream s k x).nextId = s.nextId := rfl
@[simp] theorem setStream_pending (s : State) (k : Nat) (x : Stream) : (setStream s k x).pending = s.pending := rfl

/-! ## setCmd -/

@[simp] theorem setCmd_now (s : State) (k : Nat) (f : Cmd → Cmd) : (setCmd s k f).now = s.now := rfl
@[simp] theorem setCmd_regs (s : State) (k : Nat) (f : Cmd → Cmd) : (setCmd s k f).regs = s.regs := rfl
@[simp] theorem setCmd_rings (s : State) (k : Nat) (f : Cmd → Cmd) : (setCmd s k f).rings = s.rings := rfl
@[simp] theorem setCmd_vfs (s : State) (k : Nat) (f : Cmd → Cmd) : (setCmd s k f).vfs = s.vfs := rfl
@[simp] theorem setCmd_links (s : State) (k : Nat) (f : Cmd → Cmd) : (setCmd s k f).links = s.links := rfl
@[simp] theorem setCmd_bridges (s : State) (k : Nat) (f : Cmd → Cmd) : (setCmd s k f).bridges = s.bridges := rfl
@[simp] theorem setCmd_host (s : State) (k : Nat) (f : Cmd → Cmd) : (setCmd s k f).host = s.host := rfl
@[simp] theorem setCmd_hostBad (s : State) (k : Nat) (f : Cmd → Cmd) : (setCmd s k f).hostBad = s.hostBad := rfl
@[simp] theorem setCmd_unsent (s : State) (k : Nat) (f : Cmd → Cmd) : (setCmd s k f).unsent = s.unsent := rfl
@[simp] theorem setCmd_unrecorded (s : State) (k : Nat) (f : Cmd → Cmd) :
    (setCmd s k f).unrecorded = s.unrecorded := rfl
@[simp] theorem setCmd_served (s : State) (k : Nat) (f : Cmd → Cmd) : (setCmd s k f).served = s.served := rfl
@[simp] theorem setCmd_tmc (s : State) (k : Nat) (f : Cmd → Cmd) : (setCmd s k f).tmc = s.tmc := rfl
@[simp] theorem setCmd_cmds (s : State) (k : Nat) (f : Cmd → Cmd) :
    (setCmd s k f).cmds = s.cmds.map fun c => if c.id == k then f c else c := rfl
@[simp] theorem setCmd_done (s : State) (k : Nat) (f : Cmd → Cmd) : (setCmd s k f).done = s.done := rfl
@[simp] theorem setCmd_recent (s : State) (k : Nat) (f : Cmd → Cmd) : (setCmd s k f).recent = s.recent := rfl
@[simp] theorem setCmd_streams (s : State) (k : Nat) (f : Cmd → Cmd) : (setCmd s k f).streams = s.streams := rfl
@[simp] theorem setCmd_homing (s : State) (k : Nat) (f : Cmd → Cmd) : (setCmd s k f).homing = s.homing := rfl
@[simp] theorem setCmd_homes (s : State) (k : Nat) (f : Cmd → Cmd) : (setCmd s k f).homes = s.homes := rfl
@[simp] theorem setCmd_moving (s : State) (k : Nat) (f : Cmd → Cmd) : (setCmd s k f).moving = s.moving := rfl
@[simp] theorem setCmd_models (s : State) (k : Nat) (f : Cmd → Cmd) : (setCmd s k f).models = s.models := rfl
@[simp] theorem setCmd_modelGen (s : State) (k : Nat) (f : Cmd → Cmd) : (setCmd s k f).modelGen = s.modelGen := rfl
@[simp] theorem setCmd_masks (s : State) (k : Nat) (f : Cmd → Cmd) : (setCmd s k f).masks = s.masks := rfl
@[simp] theorem setCmd_functions (s : State) (k : Nat) (f : Cmd → Cmd) : (setCmd s k f).functions = s.functions := rfl
@[simp] theorem setCmd_audited (s : State) (k : Nat) (f : Cmd → Cmd) : (setCmd s k f).audited = s.audited := rfl
@[simp] theorem setCmd_chips (s : State) (k : Nat) (f : Cmd → Cmd) : (setCmd s k f).chips = s.chips := rfl
@[simp] theorem setCmd_mesh (s : State) (k : Nat) (f : Cmd → Cmd) : (setCmd s k f).mesh = s.mesh := rfl
@[simp] theorem setCmd_totals (s : State) (k : Nat) (f : Cmd → Cmd) : (setCmd s k f).totals = s.totals := rfl
@[simp] theorem setCmd_loss (s : State) (k : Nat) (f : Cmd → Cmd) : (setCmd s k f).loss = s.loss := rfl
@[simp] theorem setCmd_barrierSt (s : State) (k : Nat) (f : Cmd → Cmd) : (setCmd s k f).barrierSt = s.barrierSt := rfl
@[simp] theorem setCmd_tasks (s : State) (k : Nat) (f : Cmd → Cmd) : (setCmd s k f).tasks = s.tasks := rfl
@[simp] theorem setCmd_quiet (s : State) (k : Nat) (f : Cmd → Cmd) : (setCmd s k f).quiet = s.quiet := rfl
@[simp] theorem setCmd_bist (s : State) (k : Nat) (f : Cmd → Cmd) : (setCmd s k f).bist = s.bist := rfl
@[simp] theorem setCmd_ledgerWrite (s : State) (k : Nat) (f : Cmd → Cmd) : (setCmd s k f).ledgerWrite = s.ledgerWrite := rfl
@[simp] theorem setCmd_deputy (s : State) (k : Nat) (f : Cmd → Cmd) : (setCmd s k f).deputy = s.deputy := rfl
@[simp] theorem setCmd_deferred (s : State) (k : Nat) (f : Cmd → Cmd) : (setCmd s k f).deferred = s.deferred := rfl
@[simp] theorem setCmd_deferredLog (s : State) (k : Nat) (f : Cmd → Cmd) :
    (setCmd s k f).deferredLog = s.deferredLog := rfl
@[simp] theorem setCmd_vault (s : State) (k : Nat) (f : Cmd → Cmd) : (setCmd s k f).vault = s.vault := rfl
@[simp] theorem setCmd_boot (s : State) (k : Nat) (f : Cmd → Cmd) : (setCmd s k f).boot = s.boot := rfl
@[simp] theorem setCmd_shutdown (s : State) (k : Nat) (f : Cmd → Cmd) : (setCmd s k f).shutdown = s.shutdown := rfl
@[simp] theorem setCmd_power (s : State) (k : Nat) (f : Cmd → Cmd) : (setCmd s k f).power = s.power := rfl
@[simp] theorem setCmd_mgmt (s : State) (k : Nat) (f : Cmd → Cmd) : (setCmd s k f).mgmt = s.mgmt := rfl
@[simp] theorem setCmd_freeCtr (s : State) (k : Nat) (f : Cmd → Cmd) : (setCmd s k f).freeCtr = s.freeCtr := rfl
@[simp] theorem setCmd_nextId (s : State) (k : Nat) (f : Cmd → Cmd) : (setCmd s k f).nextId = s.nextId := rfl
@[simp] theorem setCmd_pending (s : State) (k : Nat) (f : Cmd → Cmd) : (setCmd s k f).pending = s.pending := rfl

/-! ## setChip -/

@[simp] theorem setChip_now (s : State) (c : Nat) (f : Chip → Chip) : (setChip s c f).now = s.now := rfl
@[simp] theorem setChip_regs (s : State) (c : Nat) (f : Chip → Chip) : (setChip s c f).regs = s.regs := rfl
@[simp] theorem setChip_rings (s : State) (c : Nat) (f : Chip → Chip) : (setChip s c f).rings = s.rings := rfl
@[simp] theorem setChip_vfs (s : State) (c : Nat) (f : Chip → Chip) : (setChip s c f).vfs = s.vfs := rfl
@[simp] theorem setChip_links (s : State) (c : Nat) (f : Chip → Chip) : (setChip s c f).links = s.links := rfl
@[simp] theorem setChip_bridges (s : State) (c : Nat) (f : Chip → Chip) : (setChip s c f).bridges = s.bridges := rfl
@[simp] theorem setChip_host (s : State) (c : Nat) (f : Chip → Chip) : (setChip s c f).host = s.host := rfl
@[simp] theorem setChip_hostBad (s : State) (c : Nat) (f : Chip → Chip) : (setChip s c f).hostBad = s.hostBad := rfl
@[simp] theorem setChip_unsent (s : State) (c : Nat) (f : Chip → Chip) : (setChip s c f).unsent = s.unsent := rfl
@[simp] theorem setChip_unrecorded (s : State) (c : Nat) (f : Chip → Chip) :
    (setChip s c f).unrecorded = s.unrecorded := rfl
@[simp] theorem setChip_served (s : State) (c : Nat) (f : Chip → Chip) : (setChip s c f).served = s.served := rfl
@[simp] theorem setChip_tmc (s : State) (c : Nat) (f : Chip → Chip) : (setChip s c f).tmc = s.tmc := rfl
@[simp] theorem setChip_cmds (s : State) (c : Nat) (f : Chip → Chip) : (setChip s c f).cmds = s.cmds := rfl
@[simp] theorem setChip_done (s : State) (c : Nat) (f : Chip → Chip) : (setChip s c f).done = s.done := rfl
@[simp] theorem setChip_recent (s : State) (c : Nat) (f : Chip → Chip) : (setChip s c f).recent = s.recent := rfl
@[simp] theorem setChip_streams (s : State) (c : Nat) (f : Chip → Chip) : (setChip s c f).streams = s.streams := rfl
@[simp] theorem setChip_homing (s : State) (c : Nat) (f : Chip → Chip) : (setChip s c f).homing = s.homing := rfl
@[simp] theorem setChip_homes (s : State) (c : Nat) (f : Chip → Chip) : (setChip s c f).homes = s.homes := rfl
@[simp] theorem setChip_moving (s : State) (c : Nat) (f : Chip → Chip) : (setChip s c f).moving = s.moving := rfl
@[simp] theorem setChip_models (s : State) (c : Nat) (f : Chip → Chip) : (setChip s c f).models = s.models := rfl
@[simp] theorem setChip_modelGen (s : State) (c : Nat) (f : Chip → Chip) :
    (setChip s c f).modelGen = s.modelGen := rfl
@[simp] theorem setChip_masks (s : State) (c : Nat) (f : Chip → Chip) : (setChip s c f).masks = s.masks := rfl
@[simp] theorem setChip_functions (s : State) (c : Nat) (f : Chip → Chip) :
    (setChip s c f).functions = s.functions := rfl
@[simp] theorem setChip_audited (s : State) (c : Nat) (f : Chip → Chip) : (setChip s c f).audited = s.audited := rfl
@[simp] theorem setChip_chips (s : State) (c : Nat) (f : Chip → Chip) :
    (setChip s c f).chips = modNth s.chips c f := rfl
@[simp] theorem setChip_mesh (s : State) (c : Nat) (f : Chip → Chip) : (setChip s c f).mesh = s.mesh := rfl
@[simp] theorem setChip_totals (s : State) (c : Nat) (f : Chip → Chip) : (setChip s c f).totals = s.totals := rfl
@[simp] theorem setChip_loss (s : State) (c : Nat) (f : Chip → Chip) : (setChip s c f).loss = s.loss := rfl
@[simp] theorem setChip_barrierSt (s : State) (c : Nat) (f : Chip → Chip) :
    (setChip s c f).barrierSt = s.barrierSt := rfl
@[simp] theorem setChip_tasks (s : State) (c : Nat) (f : Chip → Chip) : (setChip s c f).tasks = s.tasks := rfl
@[simp] theorem setChip_quiet (s : State) (c : Nat) (f : Chip → Chip) : (setChip s c f).quiet = s.quiet := rfl
@[simp] theorem setChip_bist (s : State) (c : Nat) (f : Chip → Chip) : (setChip s c f).bist = s.bist := rfl
@[simp] theorem setChip_ledgerWrite (s : State) (c : Nat) (f : Chip → Chip) : (setChip s c f).ledgerWrite = s.ledgerWrite := rfl
@[simp] theorem setChip_deputy (s : State) (c : Nat) (f : Chip → Chip) : (setChip s c f).deputy = s.deputy := rfl
@[simp] theorem setChip_deferred (s : State) (c : Nat) (f : Chip → Chip) :
    (setChip s c f).deferred = s.deferred := rfl
@[simp] theorem setChip_deferredLog (s : State) (c : Nat) (f : Chip → Chip) :
    (setChip s c f).deferredLog = s.deferredLog := rfl
@[simp] theorem setChip_vault (s : State) (c : Nat) (f : Chip → Chip) : (setChip s c f).vault = s.vault := rfl
@[simp] theorem setChip_boot (s : State) (c : Nat) (f : Chip → Chip) : (setChip s c f).boot = s.boot := rfl
@[simp] theorem setChip_shutdown (s : State) (c : Nat) (f : Chip → Chip) :
    (setChip s c f).shutdown = s.shutdown := rfl
@[simp] theorem setChip_power (s : State) (c : Nat) (f : Chip → Chip) : (setChip s c f).power = s.power := rfl
@[simp] theorem setChip_mgmt (s : State) (c : Nat) (f : Chip → Chip) : (setChip s c f).mgmt = s.mgmt := rfl
@[simp] theorem setChip_freeCtr (s : State) (c : Nat) (f : Chip → Chip) : (setChip s c f).freeCtr = s.freeCtr := rfl
@[simp] theorem setChip_nextId (s : State) (c : Nat) (f : Chip → Chip) : (setChip s c f).nextId = s.nextId := rfl
@[simp] theorem setChip_pending (s : State) (c : Nat) (f : Chip → Chip) : (setChip s c f).pending = s.pending := rfl

/-! ## setCore -/

@[simp] theorem setCore_now (s : State) (c k : Nat) (f : Core → Core) : (setCore s c k f).now = s.now := rfl
@[simp] theorem setCore_regs (s : State) (c k : Nat) (f : Core → Core) : (setCore s c k f).regs = s.regs := rfl
@[simp] theorem setCore_rings (s : State) (c k : Nat) (f : Core → Core) : (setCore s c k f).rings = s.rings := rfl
@[simp] theorem setCore_vfs (s : State) (c k : Nat) (f : Core → Core) : (setCore s c k f).vfs = s.vfs := rfl
@[simp] theorem setCore_links (s : State) (c k : Nat) (f : Core → Core) : (setCore s c k f).links = s.links := rfl
@[simp] theorem setCore_bridges (s : State) (c k : Nat) (f : Core → Core) :
    (setCore s c k f).bridges = s.bridges := rfl
@[simp] theorem setCore_host (s : State) (c k : Nat) (f : Core → Core) : (setCore s c k f).host = s.host := rfl
@[simp] theorem setCore_hostBad (s : State) (c k : Nat) (f : Core → Core) :
    (setCore s c k f).hostBad = s.hostBad := rfl
@[simp] theorem setCore_unsent (s : State) (c k : Nat) (f : Core → Core) : (setCore s c k f).unsent = s.unsent := rfl
@[simp] theorem setCore_unrecorded (s : State) (c k : Nat) (f : Core → Core) :
    (setCore s c k f).unrecorded = s.unrecorded := rfl
@[simp] theorem setCore_served (s : State) (c k : Nat) (f : Core → Core) : (setCore s c k f).served = s.served := rfl
@[simp] theorem setCore_tmc (s : State) (c k : Nat) (f : Core → Core) : (setCore s c k f).tmc = s.tmc := rfl
@[simp] theorem setCore_cmds (s : State) (c k : Nat) (f : Core → Core) : (setCore s c k f).cmds = s.cmds := rfl
@[simp] theorem setCore_done (s : State) (c k : Nat) (f : Core → Core) : (setCore s c k f).done = s.done := rfl
@[simp] theorem setCore_recent (s : State) (c k : Nat) (f : Core → Core) : (setCore s c k f).recent = s.recent := rfl
@[simp] theorem setCore_streams (s : State) (c k : Nat) (f : Core → Core) :
    (setCore s c k f).streams = s.streams := rfl
@[simp] theorem setCore_homing (s : State) (c k : Nat) (f : Core → Core) : (setCore s c k f).homing = s.homing := rfl
@[simp] theorem setCore_homes (s : State) (c k : Nat) (f : Core → Core) : (setCore s c k f).homes = s.homes := rfl
@[simp] theorem setCore_moving (s : State) (c k : Nat) (f : Core → Core) : (setCore s c k f).moving = s.moving := rfl
@[simp] theorem setCore_models (s : State) (c k : Nat) (f : Core → Core) : (setCore s c k f).models = s.models := rfl
@[simp] theorem setCore_modelGen (s : State) (c k : Nat) (f : Core → Core) :
    (setCore s c k f).modelGen = s.modelGen := rfl
@[simp] theorem setCore_masks (s : State) (c k : Nat) (f : Core → Core) : (setCore s c k f).masks = s.masks := rfl
@[simp] theorem setCore_functions (s : State) (c k : Nat) (f : Core → Core) :
    (setCore s c k f).functions = s.functions := rfl
@[simp] theorem setCore_audited (s : State) (c k : Nat) (f : Core → Core) :
    (setCore s c k f).audited = s.audited := rfl
@[simp] theorem setCore_chips (s : State) (c k : Nat) (f : Core → Core) :
    (setCore s c k f).chips = modNth s.chips c fun ch => { ch with cores := modNth ch.cores k f } := rfl
@[simp] theorem setCore_mesh (s : State) (c k : Nat) (f : Core → Core) : (setCore s c k f).mesh = s.mesh := rfl
@[simp] theorem setCore_totals (s : State) (c k : Nat) (f : Core → Core) : (setCore s c k f).totals = s.totals := rfl
@[simp] theorem setCore_loss (s : State) (c k : Nat) (f : Core → Core) : (setCore s c k f).loss = s.loss := rfl
@[simp] theorem setCore_barrierSt (s : State) (c k : Nat) (f : Core → Core) :
    (setCore s c k f).barrierSt = s.barrierSt := rfl
@[simp] theorem setCore_tasks (s : State) (c k : Nat) (f : Core → Core) : (setCore s c k f).tasks = s.tasks := rfl
@[simp] theorem setCore_quiet (s : State) (c k : Nat) (f : Core → Core) : (setCore s c k f).quiet = s.quiet := rfl
@[simp] theorem setCore_bist (s : State) (c k : Nat) (f : Core → Core) : (setCore s c k f).bist = s.bist := rfl
@[simp] theorem setCore_ledgerWrite (s : State) (c k : Nat) (f : Core → Core) : (setCore s c k f).ledgerWrite = s.ledgerWrite := rfl
@[simp] theorem setCore_deputy (s : State) (c k : Nat) (f : Core → Core) : (setCore s c k f).deputy = s.deputy := rfl
@[simp] theorem setCore_deferred (s : State) (c k : Nat) (f : Core → Core) :
    (setCore s c k f).deferred = s.deferred := rfl
@[simp] theorem setCore_deferredLog (s : State) (c k : Nat) (f : Core → Core) :
    (setCore s c k f).deferredLog = s.deferredLog := rfl
@[simp] theorem setCore_vault (s : State) (c k : Nat) (f : Core → Core) : (setCore s c k f).vault = s.vault := rfl
@[simp] theorem setCore_boot (s : State) (c k : Nat) (f : Core → Core) : (setCore s c k f).boot = s.boot := rfl
@[simp] theorem setCore_shutdown (s : State) (c k : Nat) (f : Core → Core) :
    (setCore s c k f).shutdown = s.shutdown := rfl
@[simp] theorem setCore_power (s : State) (c k : Nat) (f : Core → Core) : (setCore s c k f).power = s.power := rfl
@[simp] theorem setCore_mgmt (s : State) (c k : Nat) (f : Core → Core) : (setCore s c k f).mgmt = s.mgmt := rfl
@[simp] theorem setCore_freeCtr (s : State) (c k : Nat) (f : Core → Core) :
    (setCore s c k f).freeCtr = s.freeCtr := rfl
@[simp] theorem setCore_nextId (s : State) (c k : Nat) (f : Core → Core) : (setCore s c k f).nextId = s.nextId := rfl
@[simp] theorem setCore_pending (s : State) (c k : Nat) (f : Core → Core) :
    (setCore s c k f).pending = s.pending := rfl

/-! ## setLink -/

@[simp] theorem setLink_now (s : State) (a b : Nat) (f : Link → Link) : (setLink s a b f).now = s.now := rfl
@[simp] theorem setLink_regs (s : State) (a b : Nat) (f : Link → Link) : (setLink s a b f).regs = s.regs := rfl
@[simp] theorem setLink_rings (s : State) (a b : Nat) (f : Link → Link) : (setLink s a b f).rings = s.rings := rfl
@[simp] theorem setLink_vfs (s : State) (a b : Nat) (f : Link → Link) : (setLink s a b f).vfs = s.vfs := rfl
@[simp] theorem setLink_links (s : State) (a b : Nat) (f : Link → Link) : (setLink s a b f).links = s.links := rfl
@[simp] theorem setLink_bridges (s : State) (a b : Nat) (f : Link → Link) :
    (setLink s a b f).bridges = s.bridges := rfl
@[simp] theorem setLink_host (s : State) (a b : Nat) (f : Link → Link) : (setLink s a b f).host = s.host := rfl
@[simp] theorem setLink_hostBad (s : State) (a b : Nat) (f : Link → Link) :
    (setLink s a b f).hostBad = s.hostBad := rfl
@[simp] theorem setLink_unsent (s : State) (a b : Nat) (f : Link → Link) : (setLink s a b f).unsent = s.unsent := rfl
@[simp] theorem setLink_unrecorded (s : State) (a b : Nat) (f : Link → Link) :
    (setLink s a b f).unrecorded = s.unrecorded := rfl
@[simp] theorem setLink_served (s : State) (a b : Nat) (f : Link → Link) : (setLink s a b f).served = s.served := rfl
@[simp] theorem setLink_tmc (s : State) (a b : Nat) (f : Link → Link) : (setLink s a b f).tmc = s.tmc := rfl
@[simp] theorem setLink_cmds (s : State) (a b : Nat) (f : Link → Link) : (setLink s a b f).cmds = s.cmds := rfl
@[simp] theorem setLink_done (s : State) (a b : Nat) (f : Link → Link) : (setLink s a b f).done = s.done := rfl
@[simp] theorem setLink_recent (s : State) (a b : Nat) (f : Link → Link) : (setLink s a b f).recent = s.recent := rfl
@[simp] theorem setLink_streams (s : State) (a b : Nat) (f : Link → Link) :
    (setLink s a b f).streams = s.streams := rfl
@[simp] theorem setLink_homing (s : State) (a b : Nat) (f : Link → Link) : (setLink s a b f).homing = s.homing := rfl
@[simp] theorem setLink_homes (s : State) (a b : Nat) (f : Link → Link) : (setLink s a b f).homes = s.homes := rfl
@[simp] theorem setLink_moving (s : State) (a b : Nat) (f : Link → Link) : (setLink s a b f).moving = s.moving := rfl
@[simp] theorem setLink_models (s : State) (a b : Nat) (f : Link → Link) : (setLink s a b f).models = s.models := rfl
@[simp] theorem setLink_modelGen (s : State) (a b : Nat) (f : Link → Link) :
    (setLink s a b f).modelGen = s.modelGen := rfl
@[simp] theorem setLink_masks (s : State) (a b : Nat) (f : Link → Link) : (setLink s a b f).masks = s.masks := rfl
@[simp] theorem setLink_functions (s : State) (a b : Nat) (f : Link → Link) :
    (setLink s a b f).functions = s.functions := rfl
@[simp] theorem setLink_audited (s : State) (a b : Nat) (f : Link → Link) :
    (setLink s a b f).audited = s.audited := rfl
@[simp] theorem setLink_chips (s : State) (a b : Nat) (f : Link → Link) : (setLink s a b f).chips = s.chips := rfl
@[simp] theorem setLink_mesh (s : State) (a b : Nat) (f : Link → Link) :
    (setLink s a b f).mesh = modNth s.mesh (linkIndex a b) f := rfl
@[simp] theorem setLink_totals (s : State) (a b : Nat) (f : Link → Link) : (setLink s a b f).totals = s.totals := rfl
@[simp] theorem setLink_loss (s : State) (a b : Nat) (f : Link → Link) : (setLink s a b f).loss = s.loss := rfl
@[simp] theorem setLink_barrierSt (s : State) (a b : Nat) (f : Link → Link) :
    (setLink s a b f).barrierSt = s.barrierSt := rfl
@[simp] theorem setLink_tasks (s : State) (a b : Nat) (f : Link → Link) : (setLink s a b f).tasks = s.tasks := rfl
@[simp] theorem setLink_quiet (s : State) (a b : Nat) (f : Link → Link) : (setLink s a b f).quiet = s.quiet := rfl
@[simp] theorem setLink_bist (s : State) (a b : Nat) (f : Link → Link) : (setLink s a b f).bist = s.bist := rfl
@[simp] theorem setLink_ledgerWrite (s : State) (a b : Nat) (f : Link → Link) : (setLink s a b f).ledgerWrite = s.ledgerWrite := rfl
@[simp] theorem setLink_deputy (s : State) (a b : Nat) (f : Link → Link) : (setLink s a b f).deputy = s.deputy := rfl
@[simp] theorem setLink_deferred (s : State) (a b : Nat) (f : Link → Link) :
    (setLink s a b f).deferred = s.deferred := rfl
@[simp] theorem setLink_deferredLog (s : State) (a b : Nat) (f : Link → Link) :
    (setLink s a b f).deferredLog = s.deferredLog := rfl
@[simp] theorem setLink_vault (s : State) (a b : Nat) (f : Link → Link) : (setLink s a b f).vault = s.vault := rfl
@[simp] theorem setLink_boot (s : State) (a b : Nat) (f : Link → Link) : (setLink s a b f).boot = s.boot := rfl
@[simp] theorem setLink_shutdown (s : State) (a b : Nat) (f : Link → Link) :
    (setLink s a b f).shutdown = s.shutdown := rfl
@[simp] theorem setLink_power (s : State) (a b : Nat) (f : Link → Link) : (setLink s a b f).power = s.power := rfl
@[simp] theorem setLink_mgmt (s : State) (a b : Nat) (f : Link → Link) : (setLink s a b f).mgmt = s.mgmt := rfl
@[simp] theorem setLink_freeCtr (s : State) (a b : Nat) (f : Link → Link) :
    (setLink s a b f).freeCtr = s.freeCtr := rfl
@[simp] theorem setLink_nextId (s : State) (a b : Nat) (f : Link → Link) : (setLink s a b f).nextId = s.nextId := rfl
@[simp] theorem setLink_pending (s : State) (a b : Nat) (f : Link → Link) :
    (setLink s a b f).pending = s.pending := rfl

/-! ## countTotal -/

@[simp] theorem countTotal_now (s : State) (i n : Nat) : (countTotal s i n).now = s.now := rfl
@[simp] theorem countTotal_regs (s : State) (i n : Nat) : (countTotal s i n).regs = s.regs := rfl
@[simp] theorem countTotal_rings (s : State) (i n : Nat) : (countTotal s i n).rings = s.rings := rfl
@[simp] theorem countTotal_vfs (s : State) (i n : Nat) : (countTotal s i n).vfs = s.vfs := rfl
@[simp] theorem countTotal_links (s : State) (i n : Nat) : (countTotal s i n).links = s.links := rfl
@[simp] theorem countTotal_bridges (s : State) (i n : Nat) : (countTotal s i n).bridges = s.bridges := rfl
@[simp] theorem countTotal_host (s : State) (i n : Nat) : (countTotal s i n).host = s.host := rfl
@[simp] theorem countTotal_hostBad (s : State) (i n : Nat) : (countTotal s i n).hostBad = s.hostBad := rfl
@[simp] theorem countTotal_unsent (s : State) (i n : Nat) : (countTotal s i n).unsent = s.unsent := rfl
@[simp] theorem countTotal_unrecorded (s : State) (i n : Nat) : (countTotal s i n).unrecorded = s.unrecorded := rfl
@[simp] theorem countTotal_served (s : State) (i n : Nat) : (countTotal s i n).served = s.served := rfl
@[simp] theorem countTotal_tmc (s : State) (i n : Nat) : (countTotal s i n).tmc = s.tmc := rfl
@[simp] theorem countTotal_cmds (s : State) (i n : Nat) : (countTotal s i n).cmds = s.cmds := rfl
@[simp] theorem countTotal_done (s : State) (i n : Nat) : (countTotal s i n).done = s.done := rfl
@[simp] theorem countTotal_recent (s : State) (i n : Nat) : (countTotal s i n).recent = s.recent := rfl
@[simp] theorem countTotal_streams (s : State) (i n : Nat) : (countTotal s i n).streams = s.streams := rfl
@[simp] theorem countTotal_homing (s : State) (i n : Nat) : (countTotal s i n).homing = s.homing := rfl
@[simp] theorem countTotal_homes (s : State) (i n : Nat) : (countTotal s i n).homes = s.homes := rfl
@[simp] theorem countTotal_moving (s : State) (i n : Nat) : (countTotal s i n).moving = s.moving := rfl
@[simp] theorem countTotal_models (s : State) (i n : Nat) : (countTotal s i n).models = s.models := rfl
@[simp] theorem countTotal_modelGen (s : State) (i n : Nat) : (countTotal s i n).modelGen = s.modelGen := rfl
@[simp] theorem countTotal_masks (s : State) (i n : Nat) : (countTotal s i n).masks = s.masks := rfl
@[simp] theorem countTotal_functions (s : State) (i n : Nat) : (countTotal s i n).functions = s.functions := rfl
@[simp] theorem countTotal_audited (s : State) (i n : Nat) : (countTotal s i n).audited = s.audited := rfl
@[simp] theorem countTotal_chips (s : State) (i n : Nat) : (countTotal s i n).chips = s.chips := rfl
@[simp] theorem countTotal_mesh (s : State) (i n : Nat) : (countTotal s i n).mesh = s.mesh := rfl
@[simp] theorem countTotal_totals (s : State) (i n : Nat) :
    (countTotal s i n).totals = modNth s.totals i (satAdd 0xFFFFFFFF · n) := rfl
@[simp] theorem countTotal_loss (s : State) (i n : Nat) : (countTotal s i n).loss = s.loss := rfl
@[simp] theorem countTotal_barrierSt (s : State) (i n : Nat) : (countTotal s i n).barrierSt = s.barrierSt := rfl
@[simp] theorem countTotal_tasks (s : State) (i n : Nat) : (countTotal s i n).tasks = s.tasks := rfl
@[simp] theorem countTotal_quiet (s : State) (i n : Nat) : (countTotal s i n).quiet = s.quiet := rfl
@[simp] theorem countTotal_bist (s : State) (i n : Nat) : (countTotal s i n).bist = s.bist := rfl
@[simp] theorem countTotal_ledgerWrite (s : State) (i n : Nat) : (countTotal s i n).ledgerWrite = s.ledgerWrite := rfl
@[simp] theorem countTotal_deputy (s : State) (i n : Nat) : (countTotal s i n).deputy = s.deputy := rfl
@[simp] theorem countTotal_deferred (s : State) (i n : Nat) : (countTotal s i n).deferred = s.deferred := rfl
@[simp] theorem countTotal_deferredLog (s : State) (i n : Nat) : (countTotal s i n).deferredLog = s.deferredLog := rfl
@[simp] theorem countTotal_vault (s : State) (i n : Nat) : (countTotal s i n).vault = s.vault := rfl
@[simp] theorem countTotal_boot (s : State) (i n : Nat) : (countTotal s i n).boot = s.boot := rfl
@[simp] theorem countTotal_shutdown (s : State) (i n : Nat) : (countTotal s i n).shutdown = s.shutdown := rfl
@[simp] theorem countTotal_power (s : State) (i n : Nat) : (countTotal s i n).power = s.power := rfl
@[simp] theorem countTotal_mgmt (s : State) (i n : Nat) : (countTotal s i n).mgmt = s.mgmt := rfl
@[simp] theorem countTotal_freeCtr (s : State) (i n : Nat) : (countTotal s i n).freeCtr = s.freeCtr := rfl
@[simp] theorem countTotal_nextId (s : State) (i n : Nat) : (countTotal s i n).nextId = s.nextId := rfl
@[simp] theorem countTotal_pending (s : State) (i n : Nat) : (countTotal s i n).pending = s.pending := rfl

/-! ## mgmtEvent -/

@[simp] theorem mgmtEvent_now (s : State) (e a b : Nat) : (mgmtEvent s e a b).now = s.now := rfl
@[simp] theorem mgmtEvent_regs (s : State) (e a b : Nat) :
    (mgmtEvent s e a b).regs = { s.regs with events := (e, a, b, s.now) :: s.regs.events } := rfl
@[simp] theorem mgmtEvent_rings (s : State) (e a b : Nat) : (mgmtEvent s e a b).rings = s.rings := rfl
@[simp] theorem mgmtEvent_vfs (s : State) (e a b : Nat) : (mgmtEvent s e a b).vfs = s.vfs := rfl
@[simp] theorem mgmtEvent_links (s : State) (e a b : Nat) : (mgmtEvent s e a b).links = s.links := rfl
@[simp] theorem mgmtEvent_bridges (s : State) (e a b : Nat) : (mgmtEvent s e a b).bridges = s.bridges := rfl
@[simp] theorem mgmtEvent_host (s : State) (e a b : Nat) : (mgmtEvent s e a b).host = s.host := rfl
@[simp] theorem mgmtEvent_hostBad (s : State) (e a b : Nat) : (mgmtEvent s e a b).hostBad = s.hostBad := rfl
@[simp] theorem mgmtEvent_unsent (s : State) (e a b : Nat) : (mgmtEvent s e a b).unsent = s.unsent := rfl
@[simp] theorem mgmtEvent_unrecorded (s : State) (e a b : Nat) : (mgmtEvent s e a b).unrecorded = s.unrecorded := rfl
@[simp] theorem mgmtEvent_served (s : State) (e a b : Nat) : (mgmtEvent s e a b).served = s.served := rfl
@[simp] theorem mgmtEvent_tmc (s : State) (e a b : Nat) : (mgmtEvent s e a b).tmc = s.tmc := rfl
@[simp] theorem mgmtEvent_cmds (s : State) (e a b : Nat) : (mgmtEvent s e a b).cmds = s.cmds := rfl
@[simp] theorem mgmtEvent_done (s : State) (e a b : Nat) : (mgmtEvent s e a b).done = s.done := rfl
@[simp] theorem mgmtEvent_recent (s : State) (e a b : Nat) : (mgmtEvent s e a b).recent = s.recent := rfl
@[simp] theorem mgmtEvent_streams (s : State) (e a b : Nat) : (mgmtEvent s e a b).streams = s.streams := rfl
@[simp] theorem mgmtEvent_homing (s : State) (e a b : Nat) : (mgmtEvent s e a b).homing = s.homing := rfl
@[simp] theorem mgmtEvent_homes (s : State) (e a b : Nat) : (mgmtEvent s e a b).homes = s.homes := rfl
@[simp] theorem mgmtEvent_moving (s : State) (e a b : Nat) : (mgmtEvent s e a b).moving = s.moving := rfl
@[simp] theorem mgmtEvent_models (s : State) (e a b : Nat) : (mgmtEvent s e a b).models = s.models := rfl
@[simp] theorem mgmtEvent_modelGen (s : State) (e a b : Nat) : (mgmtEvent s e a b).modelGen = s.modelGen := rfl
@[simp] theorem mgmtEvent_masks (s : State) (e a b : Nat) : (mgmtEvent s e a b).masks = s.masks := rfl
@[simp] theorem mgmtEvent_functions (s : State) (e a b : Nat) : (mgmtEvent s e a b).functions = s.functions := rfl
@[simp] theorem mgmtEvent_audited (s : State) (e a b : Nat) : (mgmtEvent s e a b).audited = s.audited := rfl
@[simp] theorem mgmtEvent_chips (s : State) (e a b : Nat) : (mgmtEvent s e a b).chips = s.chips := rfl
@[simp] theorem mgmtEvent_mesh (s : State) (e a b : Nat) : (mgmtEvent s e a b).mesh = s.mesh := rfl
@[simp] theorem mgmtEvent_totals (s : State) (e a b : Nat) : (mgmtEvent s e a b).totals = s.totals := rfl
@[simp] theorem mgmtEvent_loss (s : State) (e a b : Nat) : (mgmtEvent s e a b).loss = s.loss := rfl
@[simp] theorem mgmtEvent_barrierSt (s : State) (e a b : Nat) : (mgmtEvent s e a b).barrierSt = s.barrierSt := rfl
@[simp] theorem mgmtEvent_tasks (s : State) (e a b : Nat) : (mgmtEvent s e a b).tasks = s.tasks := rfl
@[simp] theorem mgmtEvent_quiet (s : State) (e a b : Nat) : (mgmtEvent s e a b).quiet = s.quiet := rfl
@[simp] theorem mgmtEvent_bist (s : State) (e a b : Nat) : (mgmtEvent s e a b).bist = s.bist := rfl
@[simp] theorem mgmtEvent_ledgerWrite (s : State) (e a b : Nat) : (mgmtEvent s e a b).ledgerWrite = s.ledgerWrite := rfl
@[simp] theorem mgmtEvent_deputy (s : State) (e a b : Nat) : (mgmtEvent s e a b).deputy = s.deputy := rfl
@[simp] theorem mgmtEvent_deferred (s : State) (e a b : Nat) : (mgmtEvent s e a b).deferred = s.deferred := rfl
@[simp] theorem mgmtEvent_deferredLog (s : State) (e a b : Nat) :
    (mgmtEvent s e a b).deferredLog = s.deferredLog := rfl
@[simp] theorem mgmtEvent_vault (s : State) (e a b : Nat) : (mgmtEvent s e a b).vault = s.vault := rfl
@[simp] theorem mgmtEvent_boot (s : State) (e a b : Nat) : (mgmtEvent s e a b).boot = s.boot := rfl
@[simp] theorem mgmtEvent_shutdown (s : State) (e a b : Nat) : (mgmtEvent s e a b).shutdown = s.shutdown := rfl
@[simp] theorem mgmtEvent_power (s : State) (e a b : Nat) : (mgmtEvent s e a b).power = s.power := rfl
@[simp] theorem mgmtEvent_mgmt (s : State) (e a b : Nat) :
    (mgmtEvent s e a b).mgmt = { s.mgmt with smbAlert := true } := rfl
@[simp] theorem mgmtEvent_freeCtr (s : State) (e a b : Nat) : (mgmtEvent s e a b).freeCtr = s.freeCtr := rfl
@[simp] theorem mgmtEvent_nextId (s : State) (e a b : Nat) : (mgmtEvent s e a b).nextId = s.nextId := rfl
@[simp] theorem mgmtEvent_pending (s : State) (e a b : Nat) : (mgmtEvent s e a b).pending = s.pending := rfl

/-! ## finishCmd -/

@[simp] theorem finishCmd_now (s : State) (k st d fl : Nat) (cs : List Commit) :
    (finishCmd s k st d fl cs).now = s.now := rfl
@[simp] theorem finishCmd_regs (s : State) (k st d fl : Nat) (cs : List Commit) :
    (finishCmd s k st d fl cs).regs = s.regs := rfl
@[simp] theorem finishCmd_rings (s : State) (k st d fl : Nat) (cs : List Commit) :
    (finishCmd s k st d fl cs).rings = s.rings := rfl
@[simp] theorem finishCmd_vfs (s : State) (k st d fl : Nat) (cs : List Commit) :
    (finishCmd s k st d fl cs).vfs = s.vfs := rfl
@[simp] theorem finishCmd_links (s : State) (k st d fl : Nat) (cs : List Commit) :
    (finishCmd s k st d fl cs).links = s.links := rfl
@[simp] theorem finishCmd_bridges (s : State) (k st d fl : Nat) (cs : List Commit) :
    (finishCmd s k st d fl cs).bridges = s.bridges := rfl
@[simp] theorem finishCmd_host (s : State) (k st d fl : Nat) (cs : List Commit) :
    (finishCmd s k st d fl cs).host = s.host := rfl
@[simp] theorem finishCmd_hostBad (s : State) (k st d fl : Nat) (cs : List Commit) :
    (finishCmd s k st d fl cs).hostBad = s.hostBad := rfl
@[simp] theorem finishCmd_unsent (s : State) (k st d fl : Nat) (cs : List Commit) :
    (finishCmd s k st d fl cs).unsent = s.unsent := rfl
@[simp] theorem finishCmd_unrecorded (s : State) (k st d fl : Nat) (cs : List Commit) :
    (finishCmd s k st d fl cs).unrecorded = s.unrecorded := rfl
@[simp] theorem finishCmd_served (s : State) (k st d fl : Nat) (cs : List Commit) :
    (finishCmd s k st d fl cs).served = s.served := rfl
@[simp] theorem finishCmd_tmc (s : State) (k st d fl : Nat) (cs : List Commit) :
    (finishCmd s k st d fl cs).tmc = s.tmc := rfl
@[simp] theorem finishCmd_done (s : State) (k st d fl : Nat) (cs : List Commit) :
    (finishCmd s k st d fl cs).done = s.done := rfl
@[simp] theorem finishCmd_recent (s : State) (k st d fl : Nat) (cs : List Commit) :
    (finishCmd s k st d fl cs).recent = s.recent := rfl
@[simp] theorem finishCmd_streams (s : State) (k st d fl : Nat) (cs : List Commit) :
    (finishCmd s k st d fl cs).streams = s.streams := rfl
@[simp] theorem finishCmd_homing (s : State) (k st d fl : Nat) (cs : List Commit) :
    (finishCmd s k st d fl cs).homing = s.homing := rfl
@[simp] theorem finishCmd_homes (s : State) (k st d fl : Nat) (cs : List Commit) :
    (finishCmd s k st d fl cs).homes = s.homes := rfl
@[simp] theorem finishCmd_moving (s : State) (k st d fl : Nat) (cs : List Commit) :
    (finishCmd s k st d fl cs).moving = s.moving := rfl
@[simp] theorem finishCmd_models (s : State) (k st d fl : Nat) (cs : List Commit) :
    (finishCmd s k st d fl cs).models = s.models := rfl
@[simp] theorem finishCmd_modelGen (s : State) (k st d fl : Nat) (cs : List Commit) :
    (finishCmd s k st d fl cs).modelGen = s.modelGen := rfl
@[simp] theorem finishCmd_masks (s : State) (k st d fl : Nat) (cs : List Commit) :
    (finishCmd s k st d fl cs).masks = s.masks := rfl
@[simp] theorem finishCmd_functions (s : State) (k st d fl : Nat) (cs : List Commit) :
    (finishCmd s k st d fl cs).functions = s.functions := rfl
@[simp] theorem finishCmd_audited (s : State) (k st d fl : Nat) (cs : List Commit) :
    (finishCmd s k st d fl cs).audited = s.audited := rfl
@[simp] theorem finishCmd_chips (s : State) (k st d fl : Nat) (cs : List Commit) :
    (finishCmd s k st d fl cs).chips = s.chips := rfl
@[simp] theorem finishCmd_mesh (s : State) (k st d fl : Nat) (cs : List Commit) :
    (finishCmd s k st d fl cs).mesh = s.mesh := rfl
@[simp] theorem finishCmd_totals (s : State) (k st d fl : Nat) (cs : List Commit) :
    (finishCmd s k st d fl cs).totals = s.totals := rfl
@[simp] theorem finishCmd_loss (s : State) (k st d fl : Nat) (cs : List Commit) :
    (finishCmd s k st d fl cs).loss = s.loss := rfl
@[simp] theorem finishCmd_barrierSt (s : State) (k st d fl : Nat) (cs : List Commit) :
    (finishCmd s k st d fl cs).barrierSt = s.barrierSt := rfl
@[simp] theorem finishCmd_tasks (s : State) (k st d fl : Nat) (cs : List Commit) :
    (finishCmd s k st d fl cs).tasks = s.tasks := rfl
@[simp] theorem finishCmd_quiet (s : State) (k st d fl : Nat) (cs : List Commit) :
    (finishCmd s k st d fl cs).quiet = s.quiet := rfl
@[simp] theorem finishCmd_bist (s : State) (k st d fl : Nat) (cs : List Commit) :
    (finishCmd s k st d fl cs).bist = s.bist := rfl
@[simp] theorem finishCmd_ledgerWrite (s : State) (k st d fl : Nat) (cs : List Commit) :
    (finishCmd s k st d fl cs).ledgerWrite = s.ledgerWrite := rfl
@[simp] theorem finishCmd_deputy (s : State) (k st d fl : Nat) (cs : List Commit) :
    (finishCmd s k st d fl cs).deputy = s.deputy := rfl
@[simp] theorem finishCmd_deferred (s : State) (k st d fl : Nat) (cs : List Commit) :
    (finishCmd s k st d fl cs).deferred = s.deferred := rfl
@[simp] theorem finishCmd_deferredLog (s : State) (k st d fl : Nat) (cs : List Commit) :
    (finishCmd s k st d fl cs).deferredLog = s.deferredLog := rfl
@[simp] theorem finishCmd_vault (s : State) (k st d fl : Nat) (cs : List Commit) :
    (finishCmd s k st d fl cs).vault = s.vault := rfl
@[simp] theorem finishCmd_boot (s : State) (k st d fl : Nat) (cs : List Commit) :
    (finishCmd s k st d fl cs).boot = s.boot := rfl
@[simp] theorem finishCmd_shutdown (s : State) (k st d fl : Nat) (cs : List Commit) :
    (finishCmd s k st d fl cs).shutdown = s.shutdown := rfl
@[simp] theorem finishCmd_power (s : State) (k st d fl : Nat) (cs : List Commit) :
    (finishCmd s k st d fl cs).power = s.power := rfl
@[simp] theorem finishCmd_mgmt (s : State) (k st d fl : Nat) (cs : List Commit) :
    (finishCmd s k st d fl cs).mgmt = s.mgmt := rfl
@[simp] theorem finishCmd_freeCtr (s : State) (k st d fl : Nat) (cs : List Commit) :
    (finishCmd s k st d fl cs).freeCtr = s.freeCtr := rfl
@[simp] theorem finishCmd_nextId (s : State) (k st d fl : Nat) (cs : List Commit) :
    (finishCmd s k st d fl cs).nextId = s.nextId := rfl
@[simp] theorem finishCmd_pending (s : State) (k st d fl : Nat) (cs : List Commit) :
    (finishCmd s k st d fl cs).pending = s.pending := rfl

/-! ## endCmd -/

@[simp] theorem endCmd_now (s : State) (k st d : Nat) (f : Option Tick) : (endCmd s k st d f).now = s.now := rfl
@[simp] theorem endCmd_regs (s : State) (k st d : Nat) (f : Option Tick) : (endCmd s k st d f).regs = s.regs := rfl
@[simp] theorem endCmd_rings (s : State) (k st d : Nat) (f : Option Tick) : (endCmd s k st d f).rings = s.rings := rfl
@[simp] theorem endCmd_vfs (s : State) (k st d : Nat) (f : Option Tick) : (endCmd s k st d f).vfs = s.vfs := rfl
@[simp] theorem endCmd_links (s : State) (k st d : Nat) (f : Option Tick) : (endCmd s k st d f).links = s.links := rfl
@[simp] theorem endCmd_bridges (s : State) (k st d : Nat) (f : Option Tick) :
    (endCmd s k st d f).bridges = s.bridges := rfl
@[simp] theorem endCmd_host (s : State) (k st d : Nat) (f : Option Tick) : (endCmd s k st d f).host = s.host := rfl
@[simp] theorem endCmd_hostBad (s : State) (k st d : Nat) (f : Option Tick) :
    (endCmd s k st d f).hostBad = s.hostBad := rfl
@[simp] theorem endCmd_unsent (s : State) (k st d : Nat) (f : Option Tick) :
    (endCmd s k st d f).unsent = s.unsent := rfl
@[simp] theorem endCmd_unrecorded (s : State) (k st d : Nat) (f : Option Tick) :
    (endCmd s k st d f).unrecorded = s.unrecorded := rfl
@[simp] theorem endCmd_served (s : State) (k st d : Nat) (f : Option Tick) :
    (endCmd s k st d f).served = s.served := rfl
@[simp] theorem endCmd_tmc (s : State) (k st d : Nat) (f : Option Tick) :
    (endCmd s k st d f).tmc = s.tmc := rfl
@[simp] theorem endCmd_done (s : State) (k st d : Nat) (f : Option Tick) : (endCmd s k st d f).done = s.done := rfl
@[simp] theorem endCmd_recent (s : State) (k st d : Nat) (f : Option Tick) :
    (endCmd s k st d f).recent = s.recent := rfl
@[simp] theorem endCmd_streams (s : State) (k st d : Nat) (f : Option Tick) :
    (endCmd s k st d f).streams = s.streams := rfl
@[simp] theorem endCmd_homing (s : State) (k st d : Nat) (f : Option Tick) :
    (endCmd s k st d f).homing = s.homing := rfl
@[simp] theorem endCmd_homes (s : State) (k st d : Nat) (f : Option Tick) : (endCmd s k st d f).homes = s.homes := rfl
@[simp] theorem endCmd_moving (s : State) (k st d : Nat) (f : Option Tick) : (endCmd s k st d f).moving = s.moving := rfl
@[simp] theorem endCmd_models (s : State) (k st d : Nat) (f : Option Tick) :
    (endCmd s k st d f).models = s.models := rfl
@[simp] theorem endCmd_modelGen (s : State) (k st d : Nat) (f : Option Tick) :
    (endCmd s k st d f).modelGen = s.modelGen := rfl
@[simp] theorem endCmd_masks (s : State) (k st d : Nat) (f : Option Tick) : (endCmd s k st d f).masks = s.masks := rfl
@[simp] theorem endCmd_functions (s : State) (k st d : Nat) (f : Option Tick) :
    (endCmd s k st d f).functions = s.functions := rfl
@[simp] theorem endCmd_audited (s : State) (k st d : Nat) (f : Option Tick) :
    (endCmd s k st d f).audited = s.audited := rfl
@[simp] theorem endCmd_chips (s : State) (k st d : Nat) (f : Option Tick) : (endCmd s k st d f).chips = s.chips := rfl
@[simp] theorem endCmd_mesh (s : State) (k st d : Nat) (f : Option Tick) : (endCmd s k st d f).mesh = s.mesh := rfl
@[simp] theorem endCmd_totals (s : State) (k st d : Nat) (f : Option Tick) :
    (endCmd s k st d f).totals = s.totals := rfl
@[simp] theorem endCmd_loss (s : State) (k st d : Nat) (f : Option Tick) : (endCmd s k st d f).loss = s.loss := rfl
@[simp] theorem endCmd_barrierSt (s : State) (k st d : Nat) (f : Option Tick) :
    (endCmd s k st d f).barrierSt = s.barrierSt := rfl
@[simp] theorem endCmd_tasks (s : State) (k st d : Nat) (f : Option Tick) : (endCmd s k st d f).tasks = s.tasks := rfl
@[simp] theorem endCmd_quiet (s : State) (k st d : Nat) (f : Option Tick) : (endCmd s k st d f).quiet = s.quiet := rfl
@[simp] theorem endCmd_bist (s : State) (k st d : Nat) (f : Option Tick) : (endCmd s k st d f).bist = s.bist := rfl
@[simp] theorem endCmd_ledgerWrite (s : State) (k st d : Nat) (f : Option Tick) : (endCmd s k st d f).ledgerWrite = s.ledgerWrite := rfl
@[simp] theorem endCmd_deputy (s : State) (k st d : Nat) (f : Option Tick) :
    (endCmd s k st d f).deputy = s.deputy := rfl
@[simp] theorem endCmd_deferred (s : State) (k st d : Nat) (f : Option Tick) :
    (endCmd s k st d f).deferred = s.deferred := rfl
@[simp] theorem endCmd_deferredLog (s : State) (k st d : Nat) (f : Option Tick) :
    (endCmd s k st d f).deferredLog = s.deferredLog := rfl
@[simp] theorem endCmd_vault (s : State) (k st d : Nat) (f : Option Tick) : (endCmd s k st d f).vault = s.vault := rfl
@[simp] theorem endCmd_boot (s : State) (k st d : Nat) (f : Option Tick) : (endCmd s k st d f).boot = s.boot := rfl
@[simp] theorem endCmd_shutdown (s : State) (k st d : Nat) (f : Option Tick) :
    (endCmd s k st d f).shutdown = s.shutdown := rfl
@[simp] theorem endCmd_power (s : State) (k st d : Nat) (f : Option Tick) : (endCmd s k st d f).power = s.power := rfl
@[simp] theorem endCmd_mgmt (s : State) (k st d : Nat) (f : Option Tick) : (endCmd s k st d f).mgmt = s.mgmt := rfl
@[simp] theorem endCmd_freeCtr (s : State) (k st d : Nat) (f : Option Tick) :
    (endCmd s k st d f).freeCtr = s.freeCtr := rfl
@[simp] theorem endCmd_nextId (s : State) (k st d : Nat) (f : Option Tick) :
    (endCmd s k st d f).nextId = s.nextId := rfl
@[simp] theorem endCmd_pending (s : State) (k st d : Nat) (f : Option Tick) :
    (endCmd s k st d f).pending = s.pending := rfl

end Sys2Proof.Machine
end

