-- ==== Sys2Proof/Laws/Shared.lean ====
section
/-! SUPPORT. What each shared operation can do, said once: rings, streams and commands read after they are stored, events,
ring errors, reads of host memory, the command a packet event finds. -/

namespace Sys2Proof.Machine

/-! ## Stored and read back -/

theorem ringOf_setRing (s : State) (r q : Nat) (x : Ring) :
    ringOf (setRing s r x) q = if q = r then x else ringOf s q := mapGet_ins _ _ _ _ _

@[simp] theorem ringOf_setRing_self (s : State) (r : Nat) (x : Ring) : ringOf (setRing s r x) r = x := by
  simp [ringOf_setRing]

theorem ringOf_setRing_ne (s : State) {r q : Nat} (x : Ring) (h : q ≠ r) : ringOf (setRing s r x) q = ringOf s q := by
  simp [ringOf_setRing, h]

theorem streamOf_setStream (s : State) (k j : Nat) (x : Stream) :
    streamOf (setStream s k x) j = if j = k then x else streamOf s j := mapGet_ins _ _ _ _ _

/-- A command's number stands while a function that keeps numbers changes it. -/
theorem cmdOf_setCmd (s : State) (k j : Nat) (f : Cmd → Cmd) (hf : ∀ c, (f c).id = c.id) :
    cmdOf (setCmd s k f) j = if j = k then (cmdOf s j).map f else cmdOf s j := by
  unfold cmdOf setCmd
  generalize s.cmds = l
  induction l with
  | nil => simp
  | cons c cs ih =>
    simp only [List.map_cons, List.find?_cons]
    by_cases hk : c.id = k
    · by_cases hj : c.id = j
      · have : j = k := hj ▸ hk
        simp [hk, hf, this]
      · have hkj : k ≠ j := fun e => hj (hk.trans e)
        simp only [hk, beq_self_eq_true, if_true, hf]
        simp only [beq_eq_false_iff_ne.2 hkj]
        simpa using ih
    · by_cases hj : c.id = j
      · have : j ≠ k := fun e => hk (hj.trans e)
        simp [hj, this]
      · have := ih
        simp only [hk, hj, beq_eq_false_iff_ne.2 hk, beq_eq_false_iff_ne.2 hj, Bool.false_eq_true, if_false]
        simpa using this

/-! ## Events -/

theorem sendMsi_frame (s : State) (fn v : Nat) :
    { sendMsi s fn v with
      regs := { (sendMsi s fn v).regs with msixPending := s.regs.msixPending, msi := s.regs.msi } } = s := by
  unfold sendMsi; split <;> rfl

/-- A bit of EVENT_CAUSE set: nothing changes but EVENT_CAUSE, what is sent, and SMB_ALERT_L. -/
theorem raiseEvent_frame (s : State) (b : Nat) :
    { raiseEvent s b with
      regs := { (raiseEvent s b).regs with
        eventCause := s.regs.eventCause, msixPending := s.regs.msixPending, msi := s.regs.msi, events := s.regs.events }
      mgmt := { (raiseEvent s b).mgmt with smbAlert := s.mgmt.smbAlert } } = s := by
  unfold raiseEvent
  split
  · rfl
  · dsimp only
    split
    · unfold sendMsi; split <;> rfl
    · rfl

theorem sendMsi_cause (s : State) (fn v : Nat) : (sendMsi s fn v).regs.eventCause = s.regs.eventCause := by
  unfold sendMsi; split <;> rfl

theorem raiseEvent_cause (s : State) (b : Nat) :
    (raiseEvent s b).regs.eventCause = if s.regs.eventCause.getLsbD b then s.regs.eventCause
      else s.regs.eventCause ||| (1#32 <<< b) := by
  unfold raiseEvent
  split
  · rfl
  · dsimp only
    split
    · rw [sendMsi_cause]; rfl
    · rfl

theorem raiseEvent_sets (s : State) {b : Nat} (h : b < 32) : (raiseEvent s b).regs.eventCause.getLsbD b = true := by
  rw [raiseEvent_cause]
  split
  · assumption
  · simp [h]

theorem raiseEvent_rings (s : State) (b : Nat) : (raiseEvent s b).rings = s.rings := by
  have := congrArg State.rings (raiseEvent_frame s b); exact this
theorem raiseEvent_cmds (s : State) (b : Nat) : (raiseEvent s b).cmds = s.cmds := by
  have := congrArg State.cmds (raiseEvent_frame s b); exact this
theorem raiseEvent_host (s : State) (b : Nat) : (raiseEvent s b).host = s.host := by
  have := congrArg State.host (raiseEvent_frame s b); exact this

/-! ## Ring errors -/

/-- A ring error: the ring reports it, its first code standing, and no other ring changes. -/
theorem ringOf_ringError (s : State) (r code q : Nat) :
    ringOf (ringError s r code) q = if q = r then
      { ringOf s r with ringErr := true, errCode := if (ringOf s r).ringErr then (ringOf s r).errCode else code }
      else ringOf s q := by
  have e : ∀ u : State, ringOf (raiseEvent u evRING_ERR) q = ringOf u q := fun u => by
    unfold ringOf; rw [raiseEvent_rings]
  unfold ringError
  rw [e]
  by_cases h : (ringOf s r).ringErr
  · rw [if_pos h]
    split
    · subst q; simp [h]; cases hx : ringOf s r; rw [hx] at h; simp_all
    · rfl
  · rw [if_neg h, ringOf_setRing]
    simp [h]

theorem ringError_frame (s : State) (r code : Nat) :
    { ringError s r code with
      rings := s.rings
      regs := { (ringError s r code).regs with
        eventCause := s.regs.eventCause, msixPending := s.regs.msixPending, msi := s.regs.msi, events := s.regs.events }
      mgmt := { (ringError s r code).mgmt with smbAlert := s.mgmt.smbAlert } } = s := by
  unfold ringError
  dsimp only
  split
  · have := raiseEvent_frame s evRING_ERR
    have h2 := raiseEvent_rings s evRING_ERR
    rw [← h2]; exact this
  · have := raiseEvent_frame (setRing s r { ringOf s r with ringErr := true, errCode := code }) evRING_ERR
    exact congrArg (fun u : State => { u with rings := s.rings }) this

theorem ringError_cause (s : State) (r code : Nat) : (ringError s r code).regs.eventCause.getLsbD 9 = true :=
  raiseEvent_sets _ (by decide)

theorem ringError_host (s : State) (r code : Nat) : (ringError s r code).host = s.host := by
  have := congrArg State.host (ringError_frame s r code); exact this

theorem ringError_cmds (s : State) (r code : Nat) : (ringError s r code).cmds = s.cmds := by
  have := congrArg State.cmds (ringError_frame s r code); exact this

/-! ## Host memory and packets -/

theorem hostOk_of_fine {s : State} (h : hostFine s = true) (a n : Nat) : hostOk s a n = true := by
  simp only [hostFine, Bool.and_eq_true] at h
  simp only [hostOk, h.2, Bool.true_and, Bool.not_eq_true', List.isEmpty_iff.1 h.1, List.any_nil]

theorem hostRead_of_fine {s : State} (h : hostFine s = true) (a n : Nat) : hostRead s a n = some (hostBytes s a n) := by
  unfold hostRead
  split
  · rename_i hn; subst hn; rfl
  · rw [if_pos (hostOk_of_fine h a n)]

theorem withParams_of_fine {s : State} (h : hostFine s = true) (c : Cmd) (k : List Byte → State) :
    withParams s c k = k (paramBytes s c) := by
  unfold withParams paramBytes; rw [hostRead_of_fine h]

theorem withList_of_fine {s : State} (h : hostFine s = true) (c : Cmd) (a n : Nat) (k : List Byte → State) :
    withList s c a n k = k (hostBytes s a n) := by
  unfold withList; rw [hostRead_of_fine h]

theorem onCmd_of_started {s : State} {id op : Nat} {c : Cmd} (h : startedCmd s id op = some c) (k : Cmd → State) :
    onCmd s id op k = k c := by
  unfold onCmd; rw [h]

/-- A started command is one of the tray's, of its number and opcode, in phase started. -/
theorem startedCmd_spec {s : State} {id op : Nat} {c : Cmd} (h : startedCmd s id op = some c) :
    cmdOf s id = some c ∧ c.id = id ∧ c.phase = .started ∧ pktOp c = op := by
  unfold startedCmd at h
  split at h
  · rename_i d hd
    split at h
    · rename_i hp
      cases h
      simp only [Bool.and_eq_true, beq_iff_eq] at hp
      have := List.find?_some hd
      exact ⟨hd, by simpa using this, by simpa using hp.1, hp.2⟩
    · cases h
  · cases h

/-- A command that has run, read back. -/
theorem cmdOf_finishCmd {s : State} {id : Nat} {c : Cmd} (h : cmdOf s id = some c) (st d fl : Nat) (cs : List Commit) :
    cmdOf (finishCmd s id st d fl cs) id = some
      { c with phase := .executed, status := st, detail := d, cflags := c.cflags ||| fl, commits := cs } := by
  have := cmdOf_setCmd s id id (fun c =>
    { c with phase := .executed, status := st, detail := d, cflags := c.cflags ||| fl, commits := cs }) fun _ => rfl
  rw [if_pos rfl, h] at this
  exact this

end Sys2Proof.Machine
end

