-- ==== Sys2Proof/Laws/Dispatch.lean ====
section
/-! SUPPORT. What the dispatcher's operations can do, said once: the wake, the entry picked, staged commits, the host write
and the completion record. -/

namespace Sys2Proof.Machine

/-! ## The wake from an idle state -/

theorem wake_frame (s : State) : { wake s with power := s.power, vault := s.vault } = s := by
  unfold wake; split <;> rfl

theorem wake_idle (s : State) : (wake s).power.idle = 0 := by
  unfold wake; split
  · assumption
  · rfl

theorem ringOf_wake (s : State) (q : Nat) : ringOf (wake s) q = ringOf s q := by
  unfold wake; split <;> rfl

theorem ringOf_logAer (s : State) (r q : Nat) : ringOf (logAer s r) q = ringOf s q := by
  unfold logAer; split <;> rfl

theorem logAer_frame (s : State) (r : Nat) : { logAer s r with links := s.links } = s := by
  unfold logAer; split <;> rfl

theorem joinCommand_frame (s : State) (r : Nat) (ahead : Bool) (c : Cmd) :
    { joinCommand s r ahead c with
      cmds := s.cmds, nextId := s.nextId, rings := s.rings, served := s.served, links := s.links, power := s.power
      vault := s.vault } = s := by
  have key (u v : State) (x : Nat) (h : { u with links := s.links } = s)
      (h2 : { v with cmds := u.cmds, nextId := u.nextId, rings := u.rings, served := u.served } = u) :
      { wake v with
        cmds := s.cmds, nextId := s.nextId, rings := s.rings, served := s.served, links := s.links, power := s.power
        vault := s.vault } = s := by
    have e1 := congrArg (fun w : State => { w with
      cmds := s.cmds, nextId := s.nextId, rings := s.rings, served := s.served, links := s.links, power := s.power
      vault := s.vault }) (wake_frame v)
    have e2 := congrArg (fun w : State => { w with
      cmds := s.cmds, nextId := s.nextId, rings := s.rings, served := s.served, links := s.links, power := s.power
      vault := s.vault }) h2
    have e3 := congrArg (fun w : State => { w with
      cmds := s.cmds, nextId := s.nextId, rings := s.rings, served := s.served, links := s.links, power := s.power
      vault := s.vault }) h
    exact e1.trans (e2.trans e3)
  unfold joinCommand
  dsimp only
  split
  · exact key (logAer s r) _ 0 (logAer_frame s r) rfl
  · exact key s _ 0 rfl rfl

theorem joinCommand_cmds (s : State) (r : Nat) (ahead : Bool) (c : Cmd) : (joinCommand s r ahead c).cmds = s.cmds ++ [c] := by
  have h (v : State) : (wake v).cmds = v.cmds := by have := congrArg State.cmds (wake_frame v); exact this
  have h2 : (logAer s r).cmds = s.cmds := by have := congrArg State.cmds (logAer_frame s r); exact this
  unfold joinCommand
  dsimp only
  rw [h]
  split
  · exact congrArg (· ++ [c]) h2
  · rfl

/-! ## The entry picked -/

theorem foldl_max_le {α : Type} (f : α → Nat) (l : List α) (m : Nat) :
    m ≤ l.foldl (fun m x => max m (f x)) m ∧ ∀ x ∈ l, f x ≤ l.foldl (fun m x => max m (f x)) m := by
  induction l generalizing m with
  | nil => simp
  | cons y ys ih =>
    simp only [List.foldl_cons, List.mem_cons, forall_eq_or_imp]
    have h := ih (max m (f y))
    exact ⟨by omega, by omega, h.2⟩

theorem pickRing_mem {s : State} {o : Nat × Nat × Bool} (h : pickRing s = some o) :
    o ∈ (s.rings.filterMap fun p => (ringOffer s p.1).map fun o => (p.1, o.1, o.2)) ∧
    (o.2.2 = false → ∀ q ∈ (s.rings.filterMap fun p => (ringOffer s p.1).map fun o => (p.1, o.1, o.2)),
      ringPriority (ringOf s q.1) ≤ ringPriority (ringOf s o.1)) := by
  unfold pickRing at h
  generalize hl : (s.rings.filterMap fun p => (ringOffer s p.1).map fun o => (p.1, o.1, o.2)) = l at h ⊢
  dsimp only at h
  split at h
  · rename_i x hx
    cases h
    refine ⟨List.mem_of_find?_eq_some hx, fun hf => ?_⟩
    have := List.find?_some hx
    rw [hf] at this; cases this
  · generalize ht : l.foldl (fun m o => max m (ringPriority (ringOf s o.1))) 0 = top at h
    have hle : ∀ q ∈ l, ringPriority (ringOf s q.1) ≤ top := ht ▸ (foldl_max_le _ l 0).2
    have key : o ∈ (l.filter fun o => ringPriority (ringOf s o.1) == top) := by
      split at h
      · rename_i x hx; cases h; exact List.mem_of_find?_eq_some hx
      · exact List.mem_of_head? h
    have := List.mem_filter.1 key
    exact ⟨this.1, fun _ q hq => by have h2 := beq_iff_eq.1 this.2; rw [h2]; exact hle q hq⟩

/-- The entry picked is one its ring offers; unless it is an ABORT no ring of a higher PRIORITY offers an entry. -/
theorem pickRing_spec {s : State} {r i : Nat} {ahead : Bool} (h : pickRing s = some (r, i, ahead)) :
    ringOffer s r = some (i, ahead) ∧
    (ahead = false → ∀ p ∈ s.rings, (ringOffer s p.1).isSome = true →
      ringPriority (ringOf s p.1) ≤ ringPriority (ringOf s r)) := by
  have ⟨h1, h2⟩ := pickRing_mem h
  refine ⟨?_, fun ha p hp ho => ?_⟩
  · obtain ⟨p, _, hp⟩ := List.mem_filterMap.1 h1
    cases ho : ringOffer s p.1 with
    | none => rw [ho] at hp; cases hp
    | some o =>
      rw [ho] at hp; cases hp
      exact ho
  · obtain ⟨o, ho⟩ := Option.isSome_iff_exists.1 ho
    exact h2 ha (p.1, o.1, o.2) (List.mem_filterMap.2 ⟨p, hp, by rw [ho]; rfl⟩)

/-- A ring offers an entry only while it is enabled and its CQ has a free slot; its head only below 16 commands. -/
theorem ringOffer_spec {s : State} {r i : Nat} {ahead : Bool} (h : ringOffer s r = some (i, ahead)) :
    sqEnabled (ringOf s r) = true ∧ (∃ q, targetOf s r = some q ∧ cqFree s q ≠ 0) ∧
    (ahead = false → ringLoad s r < 16 ∧ i = (ringOf s r).sqHead) := by
  unfold ringOffer at h
  dsimp only at h
  split at h
  · cases h
  · rename_i q hq
    split at h
    · cases h
    · rename_i hc
      simp only [Bool.or_eq_true, Bool.not_eq_true', decide_eq_true_eq, not_or, Bool.not_eq_false] at hc
      refine ⟨hc.1.1, ⟨q, hq, hc.2⟩, fun ha => ?_⟩
      split at h
      · cases h; cases ha
      · split at h
        · cases h
        · rename_i hl
          simp only [Bool.or_eq_true, decide_eq_true_eq, not_or] at hl
          cases h
          exact ⟨by omega, rfl⟩

/-- With no entry taken ahead of order, taking the head moves SQ_HEAD by one. -/
theorem takeEntry_head {x : Ring} (h : x.taken = []) :
    takeEntry x x.sqHead = { x with sqHead := (x.sqHead + 1) % sqEntries x } := by
  have e (y : Ring) (n : Nat) : advanceHead y (n + 1) = if y.taken.contains y.sqHead then
      advanceHead { y with sqHead := (y.sqHead + 1) % sqEntries y, taken := y.taken.erase y.sqHead } n else y := rfl
  have e2 (y : Ring) (n : Nat) (hy : y.taken = []) : advanceHead y (n + 1) = y := by rw [e, hy]; rfl
  unfold takeEntry
  rw [show (65536 : Nat) = 65535 + 1 from rfl, e, if_pos (by simp), show (65535 : Nat) = 65534 + 1 from rfl,
    e2 _ _ (by simp [h])]
  simp only [h, List.erase_cons_head]
  cases x; subst h; rfl

/-! ## Staged commits -/

theorem askQuiet_frame (s : State) : { askQuiet s with quiet := s.quiet } = s := by
  unfold askQuiet; split <;> rfl

theorem askQuiet_parts (s : State) : (askQuiet s).regs = s.regs ∧ (askQuiet s).power = s.power ∧
    (askQuiet s).streams = s.streams ∧ (askQuiet s).audited = s.audited := by
  unfold askQuiet; split <;> exact ⟨rfl, rfl, rfl, rfl⟩

/-- What commits leave as it is: the counter, the rings, functions, links, host memory, the shutdown and the parts of BAR0
that MSI-X tables are; of the commands only held ones change, in their snapshots. -/
theorem applyCommit_frame (t : Tick) (s : State) (k : Commit) :
    { applyCommit t s k with
      streams := s.streams, vault := s.vault, models := s.models, modelGen := s.modelGen, masks := s.masks
      functions := s.functions, regs := s.regs, audited := s.audited, chips := s.chips, mesh := s.mesh, totals := s.totals
      power := s.power, mgmt := s.mgmt, cmds := s.cmds, quiet := s.quiet } = s := by
  cases k with
  | step sid base toks adv ring => simp only [applyCommit]; split <;> rfl
  | lanes l reset d =>
    simp only [applyCommit]
    have key : ∀ (cs : List Nat) (u : State), { cs.foldl (fun s c =>
        let old := if reset then laneStart c l else nth 0#128 (chipOf s c).lanes l
        setLane s c l (ringJump (ringMask l) old d)) u with
      streams := s.streams, vault := s.vault, models := s.models, modelGen := s.modelGen, masks := s.masks
      functions := s.functions, regs := s.regs, audited := s.audited, chips := s.chips, mesh := s.mesh, totals := s.totals
      power := s.power, mgmt := s.mgmt, cmds := s.cmds, quiet := s.quiet } = { u with
      streams := s.streams, vault := s.vault, models := s.models, modelGen := s.modelGen, masks := s.masks
      functions := s.functions, regs := s.regs, audited := s.audited, chips := s.chips, mesh := s.mesh, totals := s.totals
      power := s.power, mgmt := s.mgmt, cmds := s.cmds, quiet := s.quiet } := by
      intro cs
      induction cs with
      | nil => intro u; rfl
      | cons c cs ih => intro u; exact (ih _).trans rfl
    exact key _ _
  | suspend mid =>
    simp only [applyCommit, suspendNow]
    generalize hu : ({ s with
      models := s.models.map fun p => if p.1 == mid then (p.1, suspendModel p.2) else p
      vault := { s.vault with models := s.vault.models.map fun p => if p.1 == mid then (p.1, { p.2 with state := 4 }) else p } } : State) = v
    have h := raiseEvent_frame v evMODEL_SUSPENDED
    subst hu
    exact congrArg (fun u : State => { u with
      streams := s.streams, vault := s.vault, models := s.models, modelGen := s.modelGen, masks := s.masks
      functions := s.functions, regs := s.regs, audited := s.audited, chips := s.chips, mesh := s.mesh, totals := s.totals
      power := s.power, mgmt := s.mgmt, cmds := s.cmds, quiet := s.quiet }) h
  | audit => simp only [applyCommit, enterAudit]
  | mode mask value cap =>
    simp only [applyCommit]
    exact congrArg (fun u : State => { u with
      streams := s.streams, vault := s.vault, models := s.models, modelGen := s.modelGen, masks := s.masks
      functions := s.functions, regs := s.regs, audited := s.audited, chips := s.chips, mesh := s.mesh, totals := s.totals
      power := s.power, mgmt := s.mgmt, cmds := s.cmds, quiet := s.quiet }) (askQuiet_frame { s with
        regs := { s.regs with modeCtrl := newMode s.regs.modeCtrl mask value }
        power := { s.power with cap := cap.getD s.power.cap }
        audited := if modeWindow (newMode s.regs.modeCtrl mask value) then s.audited else [] })
  | _ => rfl

theorem applyCommits_frame (t : Tick) (s : State) (l : List Commit) :
    { l.foldl (applyCommit t) s with
      streams := s.streams, vault := s.vault, models := s.models, modelGen := s.modelGen, masks := s.masks
      functions := s.functions, regs := s.regs, audited := s.audited, chips := s.chips, mesh := s.mesh, totals := s.totals
      power := s.power, mgmt := s.mgmt, cmds := s.cmds, quiet := s.quiet } = s := by
  induction l generalizing s with
  | nil => rfl
  | cons k l ih =>
    exact (congrArg (fun u : State => { u with
      streams := s.streams, vault := s.vault, models := s.models, modelGen := s.modelGen, masks := s.masks
      functions := s.functions, regs := s.regs, audited := s.audited, chips := s.chips, mesh := s.mesh, totals := s.totals
      power := s.power, mgmt := s.mgmt, cmds := s.cmds, quiet := s.quiet }) (ih (applyCommit t s k))).trans (applyCommit_frame t s k)

theorem followsOnly_id : followsOnly id := fun _ => ⟨rfl, fun _ => rfl⟩

theorem followsOnly_comp {f g : Cmd → Cmd} (hf : followsOnly f) (hg : followsOnly g) : followsOnly (g ∘ f) := by
  intro d
  have h1 := hf d
  have h2 := hg (f d)
  refine ⟨h2.1.trans h1.1, fun h => ?_⟩
  have e := h1.2 h
  simp only [Function.comp]
  rw [e]; exact (hg d).2 h

theorem followStep_follows (sid step : Nat) (toks : List Nat) : followsOnly (followStep sid step toks) := by
  intro d
  unfold followStep
  split
  · rename_i h
    simp only [Bool.and_eq_true, beq_iff_eq] at h
    exact ⟨rfl, fun hp => absurd h.1 hp⟩
  · exact ⟨rfl, fun _ => rfl⟩

/-- Commits change held commands' snapshots only. -/
theorem applyCommit_cmds (t : Tick) (s : State) (k : Commit) :
    ∃ f, (applyCommit t s k).cmds = s.cmds.map f ∧ followsOnly f := by
  have same {u : State} (h : u.cmds = s.cmds) : ∃ f, u.cmds = s.cmds.map f ∧ followsOnly f :=
    ⟨id, by rw [h, List.map_id], followsOnly_id⟩
  cases k with
  | step sid base toks adv ring =>
    simp only [applyCommit]
    split
    · exact same rfl
    · exact ⟨_, rfl, followStep_follows _ _ _⟩
  | lanes l reset d =>
    refine same ?_
    simp only [applyCommit]
    have key : ∀ (cs : List Nat) (u : State), (cs.foldl (fun s c =>
        let old := if reset then laneStart c l else nth 0#128 (chipOf s c).lanes l
        setLane s c l (ringJump (ringMask l) old d)) u).cmds = u.cmds := by
      intro cs
      induction cs with
      | nil => intro u; rfl
      | cons c cs ih => intro u; exact (ih _).trans rfl
    exact key _ _
  | suspend mid => refine same ?_; simp only [applyCommit, suspendNow]; rw [raiseEvent_cmds]
  | audit => refine same ?_; simp only [applyCommit, enterAudit]
  | mode mask value cap =>
    refine same ?_
    simp only [applyCommit]
    have h := congrArg State.cmds (askQuiet_frame { s with
        regs := { s.regs with modeCtrl := newMode s.regs.modeCtrl mask value }
        power := { s.power with cap := cap.getD s.power.cap }
        audited := if modeWindow (newMode s.regs.modeCtrl mask value) then s.audited else [] })
    exact h
  | _ => exact same rfl

theorem applyCommits_cmds (t : Tick) (s : State) (l : List Commit) :
    ∃ f, (l.foldl (applyCommit t) s).cmds = s.cmds.map f ∧ followsOnly f := by
  induction l generalizing s with
  | nil => exact ⟨id, by simp, followsOnly_id⟩
  | cons k l ih =>
    obtain ⟨f, h1, h2⟩ := applyCommit_cmds t s k
    obtain ⟨g, h3, h4⟩ := ih (applyCommit t s k)
    refine ⟨g ∘ f, ?_, followsOnly_comp h2 h4⟩
    rw [List.foldl_cons, h3, h1, List.map_map]

/-- A completion frees held commands only. -/
theorem freeFollowers_cmds (s : State) (c : Cmd) (t : Tick) :
    ∃ f, (freeFollowers s c t).cmds = s.cmds.map f ∧ followsOnly f := by
  refine ⟨_, rfl, fun d => ?_⟩
  split
  · rename_i h
    simp only [Bool.and_eq_true, beq_iff_eq] at h
    exact ⟨rfl, fun hp => absurd h.1 hp⟩
  · exact ⟨rfl, fun _ => rfl⟩

theorem bare_id {f : Cmd → Cmd} (h : followsOnly f) (d : Cmd) : (f d).id = d.id := by
  have : (f d).bare.id = d.bare.id := by rw [(h d).1]
  exact this

/-! ## Host writes -/

/-- With a link trained, outputs are in host memory at once. -/
theorem hostWrite_trained {s : State} (h : trainedLinks s ≠ []) (a : Nat) (bs : List Byte) :
    hostWrite s a bs = { s with host := memStore s.host a bs } := by
  unfold hostWrite
  rw [if_neg]
  intro hh; exact h (List.isEmpty_iff.1 hh)

theorem hostWrite_frame (s : State) (a : Nat) (bs : List Byte) :
    { hostWrite s a bs with host := s.host, unsent := s.unsent } = s := by
  unfold hostWrite; split <;> rfl

/-- Bytes just stored are read back. -/
theorem memBytes_store {m : List (Nat × Byte)} (w : Memory.wf m = true) (a : Nat) (bs : List Byte) :
    memBytes (memStore m a bs) a bs.length = bs := by
  unfold memBytes
  apply List.ext_getElem
  · simp
  · intro i h1 h2
    simp only [List.getElem_map, List.getElem_range]
    rw [memByte_store w]
    have : i < bs.length := h2
    simp [this]

theorem leBytes_length (n v : Nat) : (leBytes n v).length = n := by
  induction n generalizing v with
  | zero => rfl
  | succ n ih => simp [leBytes, ih]

/-! ## The completion record -/

theorem sendCq_frame (s : State) (q : Nat) :
    { sendCq s q with
      rings := s.rings, regs := { (sendCq s q).regs with msi := s.regs.msi, msixPending := s.regs.msixPending } } = s := by
  unfold sendCq
  exact congrArg (fun u : State => { u with rings := s.rings })
    (sendMsi_frame (setRing s q { ringOf s q with coal := 0, oldest := none }) _ _)

theorem sendMsi_rings (s : State) (f v : Nat) : (sendMsi s f v).rings = s.rings := by
  unfold sendMsi; split <;> rfl

theorem ringOf_sendCq (s : State) (q p : Nat) :
    ringOf (sendCq s q) p = if p = q then { ringOf s q with coal := 0, oldest := none } else ringOf s p := by
  unfold sendCq
  have : ringOf (sendMsi (setRing s q { ringOf s q with coal := 0, oldest := none }) (ringFn s q)
      (bits (ringOf s q).vector.toNat 8 0)) p = ringOf (setRing s q { ringOf s q with coal := 0, oldest := none }) p := by
    unfold ringOf; rw [sendMsi_rings]
  exact this.trans (ringOf_setRing _ _ _ _)

theorem countRecord_frame (s : State) (q : Nat) (b : Bool) (t : Tick) :
    { countRecord s q b t with
      rings := s.rings
      regs := { (countRecord s q b t).regs with msi := s.regs.msi, msixPending := s.regs.msixPending } } = s := by
  have h1 (x : Ring) : { sendCq (setRing s q x) q with
      rings := s.rings
      regs := { (sendCq (setRing s q x) q).regs with msi := s.regs.msi, msixPending := s.regs.msixPending } } = s :=
    congrArg (fun u : State => { u with rings := s.rings }) (sendCq_frame (setRing s q x) q)
  unfold countRecord
  dsimp only
  split
  · rfl
  · split
    · split
      · rfl
      · exact h1 _
    · split
      · exact h1 _
      · rfl

theorem ringOf_countRecord (s : State) (q p : Nat) (b : Bool) (t : Tick) :
    (p ≠ q → ringOf (countRecord s q b t) p = ringOf s p) ∧
    { ringOf (countRecord s q b t) q with coal := (ringOf s q).coal, oldest := (ringOf s q).oldest } = ringOf s q := by
  have h1 (x : Ring) : (p ≠ q → ringOf (sendCq (setRing s q x) q) p = ringOf s p) ∧
      ringOf (sendCq (setRing s q x) q) q = { x with coal := 0, oldest := none } :=
    ⟨fun h => by rw [ringOf_sendCq, if_neg h, ringOf_setRing_ne _ _ h], by rw [ringOf_sendCq, if_pos rfl, ringOf_setRing_self]⟩
  have h2 (x : Ring) : (p ≠ q → ringOf (setRing s q x) p = ringOf s p) ∧ ringOf (setRing s q x) q = x :=
    ⟨fun h => ringOf_setRing_ne _ _ h, ringOf_setRing_self _ _ _⟩
  unfold countRecord
  dsimp only
  split
  · exact ⟨(h2 _).1, by rw [(h2 _).2]⟩
  · split
    · split
      · exact ⟨(h2 _).1, by rw [(h2 _).2]⟩
      · exact ⟨(h1 _).1, by rw [(h1 _).2]⟩
    · split
      · exact ⟨(h1 _).1, by rw [(h1 _).2]⟩
      · exact ⟨(h2 _).1, by rw [(h2 _).2]⟩

/-- A command whose record is due keeps its status, and its record goes out on the tick it is given. -/
theorem recordDue_completes {s : State} {id : Nat} {c : Cmd} {t : Tick} (h : recordDue s id c (max s.now t)) :
    doCompletionRecordWrite s id t = completeCmd (stamp s (max s.now t)) c (max s.now t) := by
  obtain ⟨h1, h2, h3, h4, h5, -, -, -, -, -, h6, h7, h8⟩ := h
  unfold doCompletionRecordWrite
  rw [h1]
  dsimp only
  rw [h3]
  dsimp only
  have e : max (max s.now t) c.notBefore = max s.now t := Nat.max_eq_left (Nat.le_trans h6 (Nat.le_max_left _ _))
  rw [e]
  have c1 : caughtByFence (stamp s (max s.now t)) (max s.now t) = false := by
    unfold caughtByFence; rw [stamp_loss, h4]
  have c2 : abortWaits (stamp s (max s.now t)) c (max s.now t) = false := by
    unfold abortWaits
    rw [List.any_eq_false]
    intro a ha
    rcases h5 a ha with h | h
    · simp [h]
    · simp [h]
  have c3 : snapshotDue (stamp s (max s.now t)) (max s.now t) = false := h8
  rw [c1, c2, c3, h2, h7]
  rfl

theorem settleCmd_due {s : State} {id : Nat} {c : Cmd} {T : Tick} (h : recordDue s id c T) (u : State)
    (hu : u.streams = s.streams) (t : Tick) : settleCmd u c t = (c, t) := by
  obtain ⟨-, -, -, -, -, h6, -, h8, -⟩ := h
  have hall : c.commits.all (commitHolds u) = true := by
    rw [List.all_eq_true]
    intro k hk
    have := h8 k hk
    have e : ∀ sid, streamOf u sid = streamOf s sid := fun sid => by unfold streamOf; rw [hu]
    cases k <;> simp only [commitHolds, e] at this ⊢ <;> assumption
  unfold settleCmd
  simp [h6, hall]

theorem spoil_due {s : State} {id : Nat} {c : Cmd} {T : Tick} (h : recordDue s id c T) (u : State) : spoil u c = u := by
  obtain ⟨-, -, -, -, -, -, h7, -⟩ := h
  unfold spoil; simp [h7]

/-- The state a due command's record leaves, as the commits and the record make it. -/
theorem completeCmd_due {s : State} {id : Nat} {c : Cmd} {t : Tick} (h : recordDue s id c (max s.now t)) :
    let w := c.commits.foldl (applyCommit (max s.now t)) (stamp s (max s.now t))
    ∃ (v : State) (f : Cmd → Cmd), doCompletionRecordWrite s id t = writeRecord v c (max s.now t) ∧ followsOnly f ∧
      v.cmds = (s.cmds.map f).filter (fun d => d.id != c.id) ∧
      { v with
        cmds := s.cmds, done := s.done, recent := s.recent, moving := s.moving, homes := s.homes
        power := { v.power with idleSince := w.power.idleSince } } = { w with cmds := s.cmds } := by
  intro w
  have hf := applyCommits_frame (max s.now t) (stamp s (max s.now t)) c.commits
  obtain ⟨f, f1, f2⟩ := applyCommits_cmds (max s.now t) (stamp s (max s.now t)) c.commits
  obtain ⟨g, g1, g2⟩ := freeFollowers_cmds w c (max s.now t)
  have hw : c.commits.foldl (applyCommit (max s.now t)) (stamp s (max s.now t)) = w := rfl
  clear_value w
  rw [hw] at hf f1
  have e0 : completeCmd (stamp s (max s.now t)) c (max s.now t) = writeRecord (releaseMoves { freeFollowers w c (max s.now t) with
      cmds := (freeFollowers w c (max s.now t)).cmds.filter fun d => d.id != c.id
      done := if pktOp c = 0x7F then w.done else (c.ring, pktTag c) :: w.done
      recent := keepRecent (freeFollowers w c (max s.now t)) c (max s.now t)
      power := { w.power with idleSince := max w.power.idleSince (max s.now t) } }) c (max s.now t) := by
    unfold completeCmd
    rw [settleCmd_due h (stamp s (max s.now t)) rfl]
    dsimp only
    rw [hw, spoil_due h]
    have : ¬ c.cq = 256 := by have := h.2.2.2.2.2.2.2.2.1; omega
    rw [if_neg this]
    rfl
  refine ⟨_, g ∘ f, (recordDue_completes h).trans e0, followsOnly_comp f2 g2, ?_, ?_⟩
  · unfold releaseMoves
    dsimp only
    rw [g1, f1, List.map_map]
    rfl
  · unfold releaseMoves freeFollowers
    dsimp only
    have e2 : w.done = s.done := by have := congrArg State.done hf; exact this
    have e3 : w.recent = s.recent := by have := congrArg State.recent hf; exact this
    have e4 : w.moving = s.moving := by have := congrArg State.moving hf; exact this
    have e5 : w.homes = s.homes := by have := congrArg State.homes hf; exact this
    rw [← e2, ← e3, ← e4, ← e5]

theorem recordBytes_length (s : State) (c : Cmd) (t : Tick) (p : Bool) : (recordBytes s c t p).length = 32 := by
  unfold recordBytes
  simp only [List.length_append, leBytes_length]

/-- With a link trained: the record is stored at its slot, its ring moves on, and nothing else changes but interrupts. -/
theorem writeRecord_trained {s : State} (h : trainedLinks s ≠ []) (c : Cmd) (t : Tick) :
    (writeRecord s c t).host = memStore s.host (cqBase (ringOf s c.cq) + 32 * (ringOf s c.cq).cqTail)
      (recordBytes s c t (ringOf s c.cq).phase) ∧
    (∀ q, q ≠ c.cq → ringOf (writeRecord s c t) q = ringOf s q) ∧
    { ringOf (writeRecord s c t) c.cq with coal := (ringOf s c.cq).coal, oldest := (ringOf s c.cq).oldest } =
      { ringOf s c.cq with
        cqTail := ((ringOf s c.cq).cqTail + 1) % cqEntries (ringOf s c.cq)
        phase := if ((ringOf s c.cq).cqTail + 1) % cqEntries (ringOf s c.cq) = 0 then !(ringOf s c.cq).phase else (ringOf s c.cq).phase
        written := (ringOf s c.cq).written + 1
        records := (ringOf s c.cq).records ++ [((ringOf s c.cq).cqTail, t, recordBytes s c t (ringOf s c.cq).phase)] } ∧
    { writeRecord s c t with
      rings := s.rings, host := s.host
      regs := { (writeRecord s c t).regs with msi := s.regs.msi, msixPending := s.regs.msixPending } } = s := by
  unfold writeRecord
  dsimp only
  generalize hx : ({ ringOf s c.cq with
        cqTail := ((ringOf s c.cq).cqTail + 1) % cqEntries (ringOf s c.cq)
        phase := if ((ringOf s c.cq).cqTail + 1) % cqEntries (ringOf s c.cq) = 0 then !(ringOf s c.cq).phase else (ringOf s c.cq).phase
        written := (ringOf s c.cq).written + 1
        records := (ringOf s c.cq).records ++ [((ringOf s c.cq).cqTail, t, recordBytes s c t (ringOf s c.cq).phase)] } : Ring) = x
  have hne : ¬ (trainedLinks (setRing s c.cq x)).isEmpty = true := by
    intro hh; exact h (List.isEmpty_iff.1 hh)
  rw [if_neg hne]
  generalize hu : hostWrite (setRing s c.cq x) (cqBase (ringOf s c.cq) + 32 * (ringOf s c.cq).cqTail)
      (recordBytes s c t (ringOf s c.cq).phase) = u
  have hu2 : u = { setRing s c.cq x with
      host := memStore s.host (cqBase (ringOf s c.cq) + 32 * (ringOf s c.cq).cqTail) (recordBytes s c t (ringOf s c.cq).phase) } := by
    rw [← hu]; exact hostWrite_trained (s := setRing s c.cq x) h _ _
  have hf := countRecord_frame u c.cq (pktIrqSuppress c) t
  have hr : ∀ q, ringOf u q = if q = c.cq then x else ringOf s q := by
    intro q; rw [hu2]; exact ringOf_setRing s c.cq q x
  refine ⟨?_, ?_, ?_, ?_⟩
  · have : (countRecord u c.cq (pktIrqSuppress c) t).host = u.host := by have := congrArg State.host hf; exact this
    rw [this, hu2]
  · intro q hq
    rw [(ringOf_countRecord u c.cq q _ t).1 hq, hr, if_neg hq]
  · have := (ringOf_countRecord u c.cq c.cq (pktIrqSuppress c) t).2
    rw [hr, if_pos rfl] at this
    have e : x.coal = (ringOf s c.cq).coal ∧ x.oldest = (ringOf s c.cq).oldest := by rw [← hx]; exact ⟨rfl, rfl⟩
    rw [← e.1, ← e.2, this]
  · have := congrArg (fun v : State => { v with
      rings := s.rings, host := s.host
      regs := { v.regs with msi := s.regs.msi, msixPending := s.regs.msixPending } }) hf
    refine Eq.trans ?_ (this.trans ?_)
    · rw [hu2]
    · rw [hu2]; rfl

/-- What the record of a due command leaves of its staged commits. -/
theorem recordDue_parts {s : State} {id : Nat} {c : Cmd} {t : Tick} (h : recordDue s id c (max s.now t)) :
    let w := c.commits.foldl (applyCommit (max s.now t)) (stamp s (max s.now t))
    let x := doCompletionRecordWrite s id t
    x.streams = w.streams ∧ x.vault = w.vault ∧ x.models = w.models ∧ x.masks = w.masks ∧ x.functions = w.functions ∧
    x.audited = w.audited ∧ x.chips = w.chips ∧ x.mesh = w.mesh ∧ x.totals = w.totals ∧
    x.regs.modeCtrl = w.regs.modeCtrl ∧ x.regs.wakeTolerance = w.regs.wakeTolerance ∧ x.power.cap = w.power.cap := by
  intro w x
  obtain ⟨v, f, h1, -, -, h3⟩ := completeCmd_due h
  have hf := applyCommits_frame (max s.now t) (stamp s (max s.now t)) c.commits
  have hlinks : v.links = s.links := by
    have e1 := congrArg State.links h3
    have e2 := congrArg State.links hf
    exact e1.trans e2
  have htr : trainedLinks v ≠ [] := by
    have : trainedLinks v = trainedLinks s := by unfold trainedLinks linkUp; rw [hlinks]
    rw [this]; exact h.2.2.2.2.2.2.2.2.2.1
  obtain ⟨-, -, -, w4⟩ := writeRecord_trained htr c (max s.now t)
  have hx : x = writeRecord v c (max s.now t) := h1
  rw [hx]
  refine ⟨?_, ?_, ?_, ?_, ?_, ?_, ?_, ?_, ?_, ?_, ?_, ?_⟩
  · have a := congrArg State.streams w4; have b := congrArg State.streams h3; exact a.trans b
  · have a := congrArg State.vault w4; have b := congrArg State.vault h3; exact a.trans b
  · have a := congrArg State.models w4; have b := congrArg State.models h3; exact a.trans b
  · have a := congrArg State.masks w4; have b := congrArg State.masks h3; exact a.trans b
  · have a := congrArg State.functions w4; have b := congrArg State.functions h3; exact a.trans b
  · have a := congrArg State.audited w4; have b := congrArg State.audited h3; exact a.trans b
  · have a := congrArg State.chips w4; have b := congrArg State.chips h3; exact a.trans b
  · have a := congrArg State.mesh w4; have b := congrArg State.mesh h3; exact a.trans b
  · have a := congrArg State.totals w4; have b := congrArg State.totals h3; exact a.trans b
  · have a := congrArg (fun u : State => u.regs.modeCtrl) w4
    have b := congrArg (fun u : State => u.regs.modeCtrl) h3; exact a.trans b
  · have a := congrArg (fun u : State => u.regs.wakeTolerance) w4
    have b := congrArg (fun u : State => u.regs.wakeTolerance) h3; exact a.trans b
  · have a := congrArg (fun u : State => u.power.cap) w4
    have b := congrArg (fun u : State => u.power.cap) h3; exact a.trans b

/-- A command ready for its record, once its body has run, has its record due on any later tick. -/
theorem recordDue_of_ready {s : State} {id : Nat} {c : Cmd} (h : cmdOf s id = some c) (hr : recordReady s c) (st d fl : Nat)
    (cs : List Commit) (h2 : isSecondGroup st = false) (h3 : ∀ k ∈ cs, commitHolds s k = true) (t : Tick) :
    recordDue (finishCmd s id st d fl cs) id
      { c with phase := .executed, status := st, detail := d, cflags := c.cflags ||| fl, commits := cs } t := by
  obtain ⟨r1, r2, r3, r4, r5, r6, r7, r8, r9⟩ := hr
  refine ⟨cmdOf_finishCmd h st d fl cs, rfl, r1, r2, ?_, r4, h2, ?_, r5, r6, r7, ?_, ?_⟩
  · intro a ha
    obtain ⟨b, hb, rfl⟩ := List.mem_map.1 ha
    split
    · exact .inr rfl
    · exact r3 b hb
  · intro k hk; have := h3 k hk
    cases k <;> exact this
  · unfold expired
    have : pktOp { c with phase := .executed, status := st, detail := d, cflags := c.cflags ||| fl, commits := cs } = pktOp c :=
      rfl
    rw [this, r8]; rfl
  · have : (finishCmd s id st d fl cs).shutdown = s.shutdown := rfl
    unfold snapshotDue; rw [this]
    unfold draining at r9
    split at r9 <;> simp_all

theorem newMode_bits (w mask value : Word) :
    (∀ b, b < 32 → b ≠ 1 → (newMode w mask value).getLsbD b = if mask.getLsbD b then value.getLsbD b else w.getLsbD b) ∧
    (newMode w mask value).getLsbD 1 = ((if mask.getLsbD 1 then value.getLsbD 1 else w.getLsbD 1) || (newMode w mask value).getLsbD 0) := by
  have hb1 : ∀ b, b < 32 → ((w &&& ~~~mask) ||| (value &&& mask)).getLsbD b = if mask.getLsbD b then value.getLsbD b else w.getLsbD b := by
    intro b hb
    simp only [BitVec.getLsbD_or, BitVec.getLsbD_and, BitVec.getLsbD_not, hb, decide_true, Bool.true_and]
    cases mask.getLsbD b <;> simp
  constructor
  · intro b hb hne
    have two : (2#32).getLsbD b = false := (by decide : ∀ b < 32, b ≠ 1 → (2#32).getLsbD b = false) b hb hne
    unfold newMode; dsimp only
    split
    · rw [BitVec.getLsbD_or, two, Bool.or_false, hb1 b hb]
    · exact hb1 b hb
  · unfold newMode; dsimp only
    split
    · rename_i h
      have h1 : ((w &&& ~~~mask) ||| (value &&& mask) ||| 2#32).getLsbD 1 = true := by rw [BitVec.getLsbD_or]; simp
      have h0 : ((w &&& ~~~mask) ||| (value &&& mask) ||| 2#32).getLsbD 0 = true := by rw [BitVec.getLsbD_or, h]; rfl
      rw [h1, h0, Bool.or_true]
    · rename_i h
      rw [hb1 1 (by decide)]
      simp only [Bool.not_eq_true] at h
      rw [h, Bool.or_false]

end Sys2Proof.Machine
end

