-- ==== Sys2Proof/Laws/Bytes.lean ====
section
/-! SUPPORT. Fields of byte lists read back from the bytes they were written as: little-endian values, fields one after
another, bias lists, histories and stream contexts. -/

namespace Sys2Proof.Machine

theorem leNat_leBytes (n v : Nat) : leNat (leBytes n v) = v % 256 ^ n := by
  induction n generalizing v with
  | zero => simp [leBytes, leNat, Nat.mod_one]
  | succ n ih =>
    have e : (BitVec.ofNat 8 v).toNat = v % 256 := BitVec.toNat_ofNat _ _
    rw [leBytes, leNat, ih, e, Nat.pow_succ, Nat.mul_comm (256 ^ n) 256, Nat.mod_mul]

theorem slice_append_left (xs ys : List Byte) (o n : Nat) (h : o + n ≤ xs.length) : slice (xs ++ ys) o n = slice xs o n := by
  unfold slice
  have : ((xs ++ ys).drop o).take n = (xs.drop o).take n := by
    rw [List.drop_append_of_le_length (by omega), List.take_append_of_le_length (by rw [List.length_drop]; omega)]
  rw [this]

theorem slice_append_right (xs ys : List Byte) (o n : Nat) : slice (xs ++ ys) (xs.length + o) n = slice ys o n := by
  unfold slice
  have : (xs ++ ys).drop (xs.length + o) = ys.drop o := by
    rw [List.drop_append, List.drop_eq_nil_of_le (by omega)]; simp
  rw [this]

theorem slice_all (xs ys : List Byte) : slice (xs ++ ys) 0 xs.length = xs := by
  unfold slice; simp

theorem fieldAt_left (xs ys : List Byte) (o n : Nat) (h : o + n ≤ xs.length) : fieldAt (xs ++ ys) o n = fieldAt xs o n := by
  unfold fieldAt; rw [slice_append_left _ _ _ _ h]

theorem fieldAt_right (xs ys : List Byte) (o n : Nat) : fieldAt (xs ++ ys) (xs.length + o) n = fieldAt ys o n := by
  unfold fieldAt; rw [slice_append_right]

theorem fieldAt_leBytes (n v : Nat) (ys : List Byte) : fieldAt (leBytes n v ++ ys) 0 n = v % 256 ^ n := by
  unfold fieldAt
  have := slice_all (leBytes n v) ys
  rw [leBytes_length] at this
  rw [this, leNat_leBytes]

/-- Fields one after another: widths in bytes and values. -/
def segs : List (Nat × Nat) → List Byte
  | [] => []
  | p :: l => leBytes p.1 p.2 ++ segs l

def segLen : List (Nat × Nat) → Nat
  | [] => 0
  | p :: l => p.1 + segLen l

theorem segs_length (l : List (Nat × Nat)) : (segs l).length = segLen l := by
  induction l with
  | nil => rfl
  | cons p l ih => simp [segs, segLen, leBytes_length, ih]

theorem segs_append (a b : List (Nat × Nat)) : segs (a ++ b) = segs a ++ segs b := by
  induction a with
  | nil => rfl
  | cons p l ih => simp [segs, ih]

theorem fieldAt_segs (pre post : List (Nat × Nat)) (n v o : Nat) (rest : List Byte) (ho : o = segLen pre) :
    fieldAt (segs (pre ++ (n, v) :: post) ++ rest) o n = v % 256 ^ n := by
  subst ho
  rw [segs_append, List.append_assoc, ← segs_length pre, ← Nat.add_zero (segs pre).length, fieldAt_right]
  show fieldAt (leBytes n v ++ segs post ++ rest) 0 n = _
  rw [List.append_assoc, fieldAt_leBytes]

theorem biasBytes_cons (x : Nat × Word) (xs : List (Nat × Word)) :
    biasBytes (x :: xs) = leBytes 4 x.1 ++ (leBytes 4 x.2.toNat ++ biasBytes xs) := by
  show leBytes 4 x.1 ++ leBytes 4 x.2.toNat ++ biasBytes xs = _
  rw [List.append_assoc]

theorem biasBytes_length (l : List (Nat × Word)) : (biasBytes l).length = 8 * l.length := by
  induction l with
  | nil => rfl
  | cons x xs ih => rw [biasBytes_cons]; simp only [List.length_append, leBytes_length, List.length_cons, ih]; omega

theorem parsePairs_biasBytes (l : List (Nat × Word)) (rest : List Byte) (h : ∀ p ∈ l, p.1 < 2 ^ 32) :
    parsePairs (biasBytes l ++ rest) l.length = l := by
  induction l with
  | nil => rfl
  | cons x xs ih =>
    have ih := ih fun p hp => h p (List.mem_cons_of_mem _ hp)
    have hx := h x List.mem_cons_self
    unfold parsePairs at ih ⊢
    rw [List.length_cons, List.range_succ_eq_map, List.map_cons, List.map_map]
    refine List.cons_eq_cons.2 ⟨?_, ?_⟩
    · rw [biasBytes_cons]
      simp only [Nat.mul_zero, Nat.zero_add, List.append_assoc]
      rw [fieldAt_leBytes]
      have e : fieldAt (leBytes 4 x.1 ++ (leBytes 4 x.2.toNat ++ (biasBytes xs ++ rest))) 4 4 = x.2.toNat % 256 ^ 4 := by
        have := fieldAt_right (leBytes 4 x.1) (leBytes 4 x.2.toNat ++ (biasBytes xs ++ rest)) 0 4
        rw [leBytes_length] at this
        rw [this, fieldAt_leBytes]
      rw [e]
      have h1 : x.1 % 256 ^ 4 = x.1 := Nat.mod_eq_of_lt (by omega)
      have h2 : x.2.toNat % 256 ^ 4 = x.2.toNat := Nat.mod_eq_of_lt (by have := x.2.isLt; omega)
      rw [h1, h2, BitVec.ofNat_toNat, BitVec.setWidth_eq]
    · refine Eq.trans ?_ ih
      apply List.map_congr_left
      intro i _
      have hs : ∀ o n, fieldAt (biasBytes (x :: xs) ++ rest) (8 + o) n = fieldAt (biasBytes xs ++ rest) o n := by
        intro o n
        have := fieldAt_right (leBytes 4 x.1 ++ leBytes 4 x.2.toNat) (biasBytes xs ++ rest) o n
        rw [List.length_append, leBytes_length, leBytes_length] at this
        rw [biasBytes_cons, List.append_assoc, List.append_assoc, ← List.append_assoc (leBytes 4 x.1)]
        exact this
      simp only [Function.comp]
      have e1 : 8 * (i + 1) = 8 + 8 * i := by omega
      have e2 : 8 * (i + 1) + 4 = 8 + (8 * i + 4) := by omega
      rw [e2, hs, e1, hs]

theorem histBytes_cons (x : Nat) (xs : List Nat) : (x :: xs).flatMap (leBytes 4) = leBytes 4 x ++ xs.flatMap (leBytes 4) := rfl

theorem histBytes_length (l : List Nat) : (l.flatMap (leBytes 4)).length = 4 * l.length := by
  induction l with
  | nil => rfl
  | cons x xs ih => rw [histBytes_cons]; simp only [List.length_append, leBytes_length, List.length_cons, ih]; omega

theorem tokens_histBytes (l : List Nat) (rest : List Byte) (h : ∀ t ∈ l, t < 2 ^ 32) :
    (List.range l.length).map (fun i => fieldAt (l.flatMap (leBytes 4) ++ rest) (4 * i) 4) = l := by
  induction l with
  | nil => rfl
  | cons x xs ih =>
    have ih := ih fun p hp => h p (List.mem_cons_of_mem _ hp)
    have hx := h x List.mem_cons_self
    rw [List.length_cons, List.range_succ_eq_map, List.map_cons, List.map_map]
    refine List.cons_eq_cons.2 ⟨?_, ?_⟩
    · rw [histBytes_cons, List.append_assoc, Nat.mul_zero, fieldAt_leBytes]
      exact Nat.mod_eq_of_lt (by omega)
    · refine Eq.trans ?_ ih
      apply List.map_congr_left
      intro i _
      simp only [Function.comp]
      have := fieldAt_right (leBytes 4 x) (xs.flatMap (leBytes 4) ++ rest) (4 * i) 4
      rw [leBytes_length] at this
      have e1 : 4 * (i + 1) = 4 + 4 * i := by omega
      rw [histBytes_cons, List.append_assoc, e1]
      exact this

/-! ### The context -/

def ctxSegs (sid : Nat) (st : Stream) : List (Nat × Nat) :=
  [(16, st.seed.toNat), (6, st.step), (2, sid), (1, b2n st.isOpen + 2 * b2n st.histValid + 4 * b2n st.ringBound),
   (1, st.modes), (2, st.window), (4, st.topK), (4, st.temp.toNat), (4, st.minP.toNat), (4, st.topP.toNat),
   (4, st.softCap.toNat), (4, st.rep.toNat), (4, st.pres.toNat), (4, st.freq.toNat), (2, st.bias.length),
   (2, st.hist.length), (8, st.maskSpec), (16, st.ring.toNat), (2, st.histHead), (6, 0), (8, st.userTag), (404, 0)]

theorem ctxBytes_segs (sid : Nat) (st : Stream) :
    ctxBytes sid st = segs (ctxSegs sid st) ++ leBytes 4 (crc32c (segs (ctxSegs sid st))) := by
  have : ∀ b : List Byte, (leBytes 16 st.seed.toNat ++ leBytes 6 st.step ++ leBytes 2 sid ++
    leBytes 1 (b2n st.isOpen + 2 * b2n st.histValid + 4 * b2n st.ringBound) ++ leBytes 1 st.modes ++
    leBytes 2 st.window ++ leBytes 4 st.topK ++ leBytes 4 st.temp.toNat ++ leBytes 4 st.minP.toNat ++
    leBytes 4 st.topP.toNat ++ leBytes 4 st.softCap.toNat ++ leBytes 4 st.rep.toNat ++ leBytes 4 st.pres.toNat ++
    leBytes 4 st.freq.toNat ++ leBytes 2 st.bias.length ++ leBytes 2 st.hist.length ++ leBytes 8 st.maskSpec ++
    leBytes 16 st.ring.toNat ++ leBytes 2 st.histHead ++ leBytes 6 0 ++ leBytes 8 st.userTag ++ leBytes 404 0) = segs (ctxSegs sid st) := by
    intro _
    simp only [ctxSegs, segs, List.append_assoc, List.append_nil]
  unfold ctxBytes
  dsimp only
  rw [this []]

theorem ctxSegs_length (sid : Nat) (st : Stream) : (segs (ctxSegs sid st)).length = 508 := by
  rw [segs_length]; simp only [ctxSegs, segLen]

theorem ctxBytes_length (sid : Nat) (st : Stream) : (ctxBytes sid st).length = 512 := by
  rw [ctxBytes_segs, List.length_append, ctxSegs_length, leBytes_length]

/-- A field of a context: pre are the fields before it. -/
theorem ctx_field (sid : Nat) (st : Stream) (rest : List Byte) (pre post : List (Nat × Nat)) (n v o : Nat)
    (h : ctxSegs sid st = pre ++ (n, v) :: post) (ho : o = segLen pre) : fieldAt (ctxBytes sid st ++ rest) o n = v % 256 ^ n := by
  rw [ctxBytes_segs, List.append_assoc, h]
  exact fieldAt_segs pre post n v o _ ho

theorem stream_ext {a b : Stream} (h0 : a.seed = b.seed) (h1 : a.step = b.step) (h2 : a.isOpen = b.isOpen) (h3 : a.histValid = b.histValid) (h4 : a.ringBound = b.ringBound) (h5 : a.modes = b.modes) (h6 : a.window = b.window) (h7 : a.topK = b.topK) (h8 : a.temp = b.temp) (h9 : a.minP = b.minP) (h10 : a.topP = b.topP) (h11 : a.softCap = b.softCap) (h12 : a.rep = b.rep) (h13 : a.pres = b.pres) (h14 : a.freq = b.freq) (h15 : a.bias = b.bias) (h16 : a.maskSpec = b.maskSpec) (h17 : a.ring = b.ring) (h18 : a.userTag = b.userTag) (h19 : a.hist = b.hist) (h20 : a.histHead = b.histHead) : a = b := by
  cases a; cases b; simp only at *; subst_vars; rfl

theorem ofNat_field {w k : Nat} (x : BitVec w) (h : 2 ^ w = 256 ^ k) : BitVec.ofNat w (x.toNat % 256 ^ k) = x := by
  rw [Nat.mod_eq_of_lt (by rw [← h]; exact x.isLt), BitVec.ofNat_toNat, BitVec.setWidth_eq]

theorem flagBits (a b c : Bool) : bit ((b2n a + 2 * b2n b + 4 * b2n c) % 256 ^ 1) 0 = a ∧
    bit ((b2n a + 2 * b2n b + 4 * b2n c) % 256 ^ 1) 1 = b ∧ bit ((b2n a + 2 * b2n b + 4 * b2n c) % 256 ^ 1) 2 = c ∧
    bits ((b2n a + 2 * b2n b + 4 * b2n c) % 256 ^ 1) 7 3 = 0 := by
  cases a <;> cases b <;> cases c <;> decide

/-- A context's 512 bytes read back. -/
theorem parse_ctx (sid : Nat) (st : Stream) (bias : List (Nat × Word)) (hist : List Nat)
    (h1 : st.step < 2 ^ 48) (h2 : st.modes < 256) (h3 : st.window < 65536) (h4 : st.topK < 2 ^ 32)
    (h5 : st.maskSpec < 2 ^ 64) (h6 : st.userTag < 2 ^ 64) (h7 : st.histHead < 4096) :
    parseCtx (ctxBytes sid st) bias hist = { st with bias := bias, hist := hist } := by
  have F : ∀ (pre post : List (Nat × Nat)) (n v o : Nat), ctxSegs sid st = pre ++ (n, v) :: post → o = segLen pre →
      fieldAt (ctxBytes sid st) o n = v % 256 ^ n := by
    intro pre post n v o h ho
    have := ctx_field sid st [] pre post n v o h ho
    rwa [List.append_nil] at this
  have f0 := F [] _ 16 _ 0 rfl rfl
  have f1 := F ((ctxSegs sid st).take 1) _ 6 _ 0x10 rfl (by simp only [ctxSegs, List.take, segLen])
  have f3 := F ((ctxSegs sid st).take 3) _ 1 _ 0x18 rfl (by simp only [ctxSegs, List.take, segLen])
  have f4 := F ((ctxSegs sid st).take 4) _ 1 _ 0x19 rfl (by simp only [ctxSegs, List.take, segLen])
  have f5 := F ((ctxSegs sid st).take 5) _ 2 _ 0x1A rfl (by simp only [ctxSegs, List.take, segLen])
  have f6 := F ((ctxSegs sid st).take 6) _ 4 _ 0x1C rfl (by simp only [ctxSegs, List.take, segLen])
  have f7 := F ((ctxSegs sid st).take 7) _ 4 _ 0x20 rfl (by simp only [ctxSegs, List.take, segLen])
  have f8 := F ((ctxSegs sid st).take 8) _ 4 _ 0x24 rfl (by simp only [ctxSegs, List.take, segLen])
  have f9 := F ((ctxSegs sid st).take 9) _ 4 _ 0x28 rfl (by simp only [ctxSegs, List.take, segLen])
  have f10 := F ((ctxSegs sid st).take 10) _ 4 _ 0x2C rfl (by simp only [ctxSegs, List.take, segLen])
  have f11 := F ((ctxSegs sid st).take 11) _ 4 _ 0x30 rfl (by simp only [ctxSegs, List.take, segLen])
  have f12 := F ((ctxSegs sid st).take 12) _ 4 _ 0x34 rfl (by simp only [ctxSegs, List.take, segLen])
  have f13 := F ((ctxSegs sid st).take 13) _ 4 _ 0x38 rfl (by simp only [ctxSegs, List.take, segLen])
  have f16 := F ((ctxSegs sid st).take 16) _ 8 _ 0x40 rfl (by simp only [ctxSegs, List.take, segLen])
  have f17 := F ((ctxSegs sid st).take 17) _ 16 _ 0x48 rfl (by simp only [ctxSegs, List.take, segLen])
  have f18 := F ((ctxSegs sid st).take 18) _ 2 _ 0x58 rfl (by simp only [ctxSegs, List.take, segLen])
  have f20 := F ((ctxSegs sid st).take 20) _ 8 _ 0x60 rfl (by simp only [ctxSegs, List.take, segLen])
  obtain ⟨b0, b1, b2, -⟩ := flagBits st.isOpen st.histValid st.ringBound
  unfold parseCtx qword word32
  simp only [f0, f1, f3, f4, f5, f6, f7, f8, f9, f10, f11, f12, f13, f16, f17, f18, f20, b0, b1, b2]
  apply stream_ext
  · exact ofNat_field (k := 16) st.seed rfl
  · exact Nat.mod_eq_of_lt h1
  · rfl
  · rfl
  · rfl
  · exact Nat.mod_eq_of_lt h2
  · exact Nat.mod_eq_of_lt h3
  · exact Nat.mod_eq_of_lt h4
  · exact ofNat_field (k := 4) st.temp rfl
  · exact ofNat_field (k := 4) st.minP rfl
  · exact ofNat_field (k := 4) st.topP rfl
  · exact ofNat_field (k := 4) st.softCap rfl
  · exact ofNat_field (k := 4) st.rep rfl
  · exact ofNat_field (k := 4) st.pres rfl
  · exact ofNat_field (k := 4) st.freq rfl
  · rfl
  · exact Nat.mod_eq_of_lt h5
  · exact ofNat_field (k := 16) st.ring rfl
  · exact Nat.mod_eq_of_lt h6
  · rfl
  · exact Nat.mod_eq_of_lt (by omega)

theorem padTo_length (n : Nat) (bs : List Byte) (h : bs.length ≤ n) : (padTo n bs).length = n := by
  unfold padTo
  simp only [List.length_append, List.length_replicate]
  omega

theorem slice_part (xs ys : List Byte) (o n : Nat) (h : n ≤ ys.length) : slice (xs ++ ys) (xs.length + o) n = slice ys o n :=
  slice_append_right xs ys o n

theorem slice_zeros (k o n : Nat) : ((slice (List.replicate k 0#8) o n).all fun b => b == 0#8) = true := by
  unfold slice
  rw [List.all_append, Bool.and_eq_true, List.all_eq_true, List.all_eq_true]
  constructor
  · intro x hx
    have := List.mem_of_mem_drop (List.mem_of_mem_take hx)
    rw [List.eq_of_mem_replicate this]; rfl
  · intro x hx
    rw [List.eq_of_mem_replicate hx]; rfl

theorem slice_exact (xs ys zs : List Byte) (n : Nat) (h : ys.length = n) : slice (xs ++ (ys ++ zs)) xs.length n = ys := by
  have := slice_append_right xs (ys ++ zs) 0 n
  rw [Nat.add_zero] at this
  rw [this, ← h, slice_all]

theorem leBytes_zero (n : Nat) : leBytes n 0 = List.replicate n 0#8 := by
  induction n with
  | zero => rfl
  | succ n ih => show BitVec.ofNat 8 0 :: leBytes n (0 / 256) = _; rw [Nat.zero_div, ih]; rfl

theorem slice_segs (pre post : List (Nat × Nat)) (n v o : Nat) (rest : List Byte) (ho : o = segLen pre) :
    slice (segs (pre ++ (n, v) :: post) ++ rest) o n = leBytes n v := by
  subst ho
  rw [segs_append, List.append_assoc, ← segs_length pre]
  show slice (segs pre ++ (leBytes n v ++ segs post ++ rest)) _ n = _
  rw [List.append_assoc]
  exact slice_exact _ _ _ _ (leBytes_length _ _)

theorem crcBits_lt {poly : Nat} (hp : poly < 2 ^ 32) (k c : Nat) (hc : c < 2 ^ 32) : crcBits poly k c < 2 ^ 32 := by
  induction k generalizing c with
  | zero => exact hc
  | succ k ih =>
    apply ih
    unfold crcBit
    split
    · exact Nat.xor_lt_two_pow (by omega) hp
    · omega

theorem crc32c_lt (bs : List Byte) : crc32c bs < 2 ^ 32 := by
  have : ∀ (l : List Byte) (c : Nat), c < 2 ^ 32 → crcRun 0x82F63B78 c l < 2 ^ 32 := by
    intro l
    induction l with
    | nil => intro c h; exact h
    | cons b l ih =>
      intro c h
      apply ih
      exact crcBits_lt (by decide) _ _ (Nat.xor_lt_two_pow h (by have := b.isLt; omega))
  exact Nat.xor_lt_two_pow (this bs _ (by decide)) (by decide)

theorem zeroField_of {bs : List Byte} {lo hi k : Nat} (h : slice bs lo (hi - lo) = List.replicate k 0#8) : zeroField bs lo hi = (lo, true) := by
  unfold zeroField
  rw [h]
  congr 1
  rw [List.all_eq_true]
  intro x hx
  rw [List.eq_of_mem_replicate hx]; rfl

theorem slice_replicate (k n : Nat) (h : n ≤ k) (ys : List Byte) : slice (List.replicate k 0#8 ++ ys) 0 n = List.replicate n 0#8 := by
  unfold slice
  rw [List.drop_zero, List.take_append_of_le_length (by simpa using h), List.take_replicate, Nat.min_eq_left h]
  simp

end Sys2Proof.Machine
end

