-- ==== Sys2Proof/Laws/Host.lean ====
section
/-! SUPPORT. Reads and writes of host memory that stay inside areas. -/

open Sys2Proof Sys2Proof.Machine

namespace Sys2Proof.Laws

theorem slice_memBytes (m : List (Nat × Byte)) (a n o k : Nat) (h : o + k ≤ n) : slice (memBytes m a n) o k = memBytes m (a + o) k := by
  unfold slice memBytes
  apply List.ext_getElem
  · simp <;> omega
  · intro i h1 h2
    have hi : i < k := by simpa using h2
    rw [List.getElem_append_left (by simp; omega)]
    simp [Nat.add_assoc]

/-- Writes that stay inside areas. -/
theorem hostWrite_inside {s : State} (hw : memoriesWf s = true) (ht : trainedLinks s ≠ []) {areas : List (Nat × Nat)} {p : Nat × Nat}
    (hp : p ∈ areas) (a : Nat) (bs : List Byte) (h1 : p.1 ≤ a) (h2 : a + bs.length ≤ p.1 + p.2) :
    sameOutside areas s (hostWrite s a bs) ∧ memoriesWf (hostWrite s a bs) = true ∧ trainedLinks (hostWrite s a bs) ≠ [] ∧
    { hostWrite s a bs with host := s.host } = s := by
  have hwf : Memory.wf s.host = true := by
    simp only [memoriesWf, Bool.and_eq_true] at hw; exact hw.1.1
  rw [hostWrite_trained ht]
  refine ⟨?_, ?_, ht, rfl⟩
  · intro b hb
    have hb := hb p hp
    exact memByte_store_outside hwf (by omega)
  · simp only [memoriesWf, Bool.and_eq_true] at hw ⊢
    exact ⟨⟨memStore_wf hwf _ _, hw.1.2⟩, hw.2⟩

theorem sameOutside_trans {areas : List (Nat × Nat)} {s t u : State} (h1 : sameOutside areas s t) (h2 : sameOutside areas t u) :
    sameOutside areas s u := fun a ha => (h2 a ha).trans (h1 a ha)

/-- A fold of writes that stay inside areas. -/
theorem foldWrites_inside {α : Type} (areas : List (Nat × Nat)) (addr : α → Nat) (bytes : α → List Byte) (l : List α)
    (hin : ∀ x ∈ l, ∃ p ∈ areas, p.1 ≤ addr x ∧ addr x + (bytes x).length ≤ p.1 + p.2) (s : State)
    (hw : memoriesWf s = true) (ht : trainedLinks s ≠ []) :
    sameOutside areas s (l.foldl (fun s x => hostWrite s (addr x) (bytes x)) s) ∧
    memoriesWf (l.foldl (fun s x => hostWrite s (addr x) (bytes x)) s) = true ∧
    trainedLinks (l.foldl (fun s x => hostWrite s (addr x) (bytes x)) s) ≠ [] ∧
    { l.foldl (fun s x => hostWrite s (addr x) (bytes x)) s with host := s.host } = s := by
  induction l generalizing s with
  | nil => exact ⟨fun _ _ => rfl, hw, ht, rfl⟩
  | cons x l ih =>
    obtain ⟨p, hp, h1, h2⟩ := hin x List.mem_cons_self
    obtain ⟨k1, k2, k3, k4⟩ := hostWrite_inside hw ht hp (addr x) (bytes x) h1 h2
    obtain ⟨j1, j2, j3, j4⟩ := ih (fun y hy => hin y (List.mem_cons_of_mem _ hy)) _ k2 k3
    exact ⟨sameOutside_trans k1 j1, j2, j3, (congrArg (fun u : State => { u with host := s.host }) j4).trans k4⟩

theorem trained_of_fine {s : State} (h : hostFine s = true) : trainedLinks s ≠ [] := by
  simp only [hostFine, Bool.and_eq_true, Bool.not_eq_true'] at h
  intro e; rw [e] at h; cases h.2

theorem withIf_of_fine {s : State} (h : hostFine s = true) (c : Cmd) (on : Bool) (a n : Nat) (k : List Byte → State) :
    withIf s c on a n k = k (if on then hostBytes s a n else []) := by
  unfold withIf
  cases on with
  | true => simp only [if_true]; exact withList_of_fine h _ _ _ _
  | false => rfl

theorem mem_withIndex {α : Type} {l : List α} {p : Nat × α} (h : p ∈ withIndex l) : p.1 < l.length ∧ l[p.1]? = some p.2 := by
  unfold withIndex at h
  obtain ⟨i, hi, e⟩ := List.mem_iff_getElem.1 h
  have hi' : i < l.length := by simpa using hi
  rw [List.getElem_zip, List.getElem_range] at e
  subst e
  exact ⟨hi', List.getElem?_eq_getElem hi'⟩

/-- Bytes of memory from one address on, cut at an offset. -/
theorem memBytes_part (m : List (Nat × Byte)) (a n o k : Nat) (bs : List Byte) (h : memBytes m a n = bs) (hk : o + k ≤ n) :
    memBytes m (a + o) k = slice bs o k := by
  rw [← h, slice_memBytes _ _ _ _ _ hk]

end Sys2Proof.Laws
end

