-- ==== Sys2Proof/Laws/Links.lean ====
section
/-! SUPPORT. Links and their directions read after they are changed, and what a failed link leaves. -/

open Sys2Proof Sys2Proof.Machine

namespace Sys2Proof.Laws

theorem linkIndex_pair : ∀ a < 8, ∀ b < 8, a ≠ b → linkPairs[linkIndex a b]? = some (min a b, max a b) := by decide

theorem linkIndex_lt {a b : Nat} (ha : a < 8) (hb : b < 8) (h : a ≠ b) : linkIndex a b < 28 := by
  have := linkIndex_pair a ha b hb h
  have h2 := (List.getElem?_eq_some_iff.1 this).1
  exact Nat.lt_of_lt_of_le h2 (by decide)

theorem linkIndex_comm (a b : Nat) : linkIndex a b = linkIndex b a := by
  unfold linkIndex; rw [Nat.min_comm, Nat.max_comm]

theorem linkOf_setLink (s : State) (a b : Nat) (f : Link → Link) (h : linkIndex a b < s.mesh.length) :
    linkOf (setLink s a b f) a b = f (linkOf s a b) := by
  unfold linkOf setLink
  dsimp only
  rw [nth_modNth, if_pos ⟨rfl, h⟩]

theorem modNth_other {α : Type} (l : List α) (i j : Nat) (f : α → α) (h : j ≠ i) : (modNth l i f)[j]? = l[j]? := by
  induction l generalizing i j with
  | nil => rfl
  | cons a l ih =>
    cases i with
    | zero =>
      cases j with
      | zero => exact absurd rfl h
      | succ j => rfl
    | succ i =>
      cases j with
      | zero => rfl
      | succ j => simp only [modNth, List.getElem?_cons_succ]; exact ih i j (fun e => h (by rw [e]))

/-- A change to one link: how directions read after. -/
theorem dirOf_setLink (s : State) (src dst : Nat) (f : Link → Link) (h : linkIndex src dst < s.mesh.length) :
    dirOf (setLink s src dst f) src dst = if src < dst then (f (linkOf s src dst)).up else (f (linkOf s src dst)).down := by
  unfold dirOf; rw [linkOf_setLink _ _ _ _ h]

theorem dirOf_setDir (s : State) (src dst : Nat) (f : Dir → Dir) (h : linkIndex src dst < s.mesh.length) :
    dirOf (setDir s src dst f) src dst = f (dirOf s src dst) := by
  unfold setDir
  rw [dirOf_setLink _ _ _ _ h]
  unfold dirOf
  split <;> rfl

theorem setLink_comm (s : State) (a b : Nat) (f : Link → Link) : setLink s a b f = setLink s b a f := by
  unfold setLink; rw [linkIndex_comm]

theorem linkOf_comm (s : State) (a b : Nat) (h : linkIndex a b < s.mesh.length) : linkOf s a b = linkOf s b a := by
  unfold linkOf nth
  rw [linkIndex_comm b a, List.getD_eq_getElem?_getD, List.getD_eq_getElem?_getD, List.getElem?_eq_getElem h]; rfl

theorem dirOf_setDir_back (s : State) (src dst : Nat) (f : Dir → Dir) (_hne : src ≠ dst) (h : linkIndex src dst < s.mesh.length) :
    dirOf (setDir s dst src f) src dst = dirOf s src dst := by
  unfold setDir
  rw [setLink_comm, dirOf_setLink _ _ _ _ h]
  unfold dirOf
  have h2 : linkIndex dst src < s.mesh.length := by rw [linkIndex_comm]; exact h
  dsimp only
  rcases Nat.lt_or_gt_of_ne _hne with k | k
  · have k2 : ¬ dst < src := Nat.not_lt.2 (Nat.le_of_lt k)
    rw [if_pos k, if_neg k2, if_pos k]
  · have k2 : ¬ src < dst := Nat.not_lt.2 (Nat.le_of_lt k)
    have k3 : dst < src := k
    rw [if_neg k2, if_pos k3, if_neg k2]

theorem countTotal_mesh (s : State) (i n : Nat) : (countTotal s i n).mesh = s.mesh := rfl

theorem linkOf_countLink (s : State) (a b i n : Nat) (h : linkIndex a b < s.mesh.length) :
    linkOf (countLink s a b i n) a b = { linkOf s a b with counters := modNth (linkOf s a b).counters i (satAdd 0xFFFF · n) } := by
  unfold countLink
  exact linkOf_setLink s a b _ h

theorem dirOf_countLink (s : State) (src dst i n : Nat) (h : linkIndex src dst < s.mesh.length) :
    dirOf (countLink s src dst i n) src dst = dirOf s src dst := by
  unfold dirOf; rw [linkOf_countLink _ _ _ _ _ h]

/-- A change confined to one link, its counters, the totals and the tick. -/
def nearLink (s u : State) (a b : Nat) : Prop :=
  { u with now := s.now, mesh := s.mesh, totals := s.totals } = s ∧
  (∀ i, i ≠ linkIndex a b → u.mesh[i]? = s.mesh[i]?) ∧ u.mesh.length = s.mesh.length ∧ linkFailed u a b = linkFailed s a b

theorem nearLink_refl (s : State) (a b : Nat) : nearLink s s a b := ⟨rfl, fun _ _ => rfl, rfl, rfl⟩
theorem nearLink_stamp (s : State) (t : Tick) (a b : Nat) : nearLink s (stamp s t) a b := ⟨rfl, fun _ _ => rfl, rfl, rfl⟩
theorem nearLink_trans {s t u : State} {a b : Nat} (h : nearLink s t a b) (k : nearLink t u a b) : nearLink s u a b := by
  refine ⟨?_, fun i hi => (k.2.1 i hi).trans (h.2.1 i hi), k.2.2.1.trans h.2.2.1, k.2.2.2.trans h.2.2.2⟩
  exact (congrArg (fun x : State => { x with now := s.now, mesh := s.mesh, totals := s.totals }) k.1).trans h.1

theorem nearLink_setLink (s : State) (a b : Nat) (f : Link → Link) (h : linkIndex a b < s.mesh.length)
    (hf : ∀ l, (f l).failed = l.failed) : nearLink s (setLink s a b f) a b := by
  refine ⟨rfl, fun i hi => modNth_other _ _ _ _ hi, modNth_length _ _ _, ?_⟩
  unfold linkFailed
  rw [linkOf_setLink _ _ _ _ h, hf]

theorem nearLink_setDir (s : State) (a b : Nat) (f : Dir → Dir) (h : linkIndex a b < s.mesh.length) :
    nearLink s (setDir s a b f) a b := by
  unfold setDir
  exact nearLink_setLink s a b _ h (fun l => by split <;> rfl)

theorem nearLink_setDir_back (s : State) (a b : Nat) (f : Dir → Dir) (h : linkIndex a b < s.mesh.length) :
    nearLink s (setDir s b a f) a b := by
  unfold setDir
  rw [setLink_comm]
  exact nearLink_setLink s a b _ h (fun l => by split <;> rfl)

theorem nearLink_count (s : State) (a b i n : Nat) (h : linkIndex a b < s.mesh.length) : nearLink s (countLink s a b i n) a b := by
  unfold countLink
  refine nearLink_trans (t := setLink s a b _) (nearLink_setLink s a b _ h (by intro l; rfl)) ⟨rfl, fun _ _ => rfl, rfl, rfl⟩

/-! ## A failed link -/

/-- Nothing of the mesh, the registers or the tick changes. -/
def stays (s u : State) : Prop := u.mesh = s.mesh ∧ u.regs = s.regs ∧ u.now = s.now
theorem stays_refl (s : State) : stays s s := ⟨rfl, rfl, rfl⟩
theorem stays_trans {s t u : State} (h : stays s t) (k : stays t u) : stays s u := ⟨k.1.trans h.1, k.2.1.trans h.2.1, k.2.2.trans h.2.2⟩

theorem stays_logFault (s : State) (a b c d : Nat) : stays s (logFault s a b c d) := by
  unfold logFault; dsimp only; split <;> exact ⟨rfl, rfl, rfl⟩

theorem stays_replayNow (s : State) (id : Nat) : stays s (replayNow s id) := by
  unfold replayNow
  split
  · exact stays_refl s
  · split
    · exact stays_refl s
    · exact ⟨rfl, rfl, rfl⟩

theorem stays_declareLoss (s : State) (c : Nat) : stays s (declareLoss s c) := by
  unfold declareLoss
  split
  · exact stays_refl s
  · split
    · split <;> exact ⟨rfl, rfl, rfl⟩
    · exact ⟨rfl, rfl, rfl⟩
    · exact ⟨rfl, rfl, rfl⟩

theorem stays_declareBy (s : State) (c : Nat) : stays s (declareBy s c) := by
  unfold declareBy
  split
  · exact stays_refl s
  · exact stays_declareLoss s c

theorem stays_foldl {α : Type} {f : State → α → State} (h : ∀ s x, stays s (f s x)) (l : List α) (s : State) :
    stays s (l.foldl f s) := by
  induction l generalizing s with
  | nil => exact stays_refl s
  | cons x l ih => exact stays_trans (h s x) (ih _)

theorem stays_checkLinks (s : State) (a b : Nat) : stays s (checkLinks s a b) := by
  unfold checkLinks
  have h1 : stays s (if (chipOf s a).active && (chipOf s b).active && linkFailed s a b && (relayOf s a b).isNone then
      declareBy s (unreachableLoser s a b) else s) := by
    split
    · exact stays_declareBy _ _
    · exact stays_refl s
  refine stays_trans h1 (stays_foldl (fun s c => ?_) _ _)
  split
  · exact stays_declareLoss _ _
  · exact stays_refl s

theorem stays_recheckLinks (s : State) : stays s (recheckLinks s) := by
  unfold recheckLinks
  refine stays_foldl (fun s l => ?_) _ _
  split
  · exact stays_checkLinks _ _ _
  · exact stays_refl s

/-- Link number i, the registers and the tick stand. -/
def linkStands (i : Nat) (s u : State) : Prop :=
  u.mesh[i]? = s.mesh[i]? ∧ u.mesh.length = s.mesh.length ∧ u.regs = s.regs ∧ u.now = s.now
theorem linkStands_refl (i : Nat) (s : State) : linkStands i s s := ⟨rfl, rfl, rfl, rfl⟩
theorem linkStands_trans {i : Nat} {s t u : State} (h : linkStands i s t) (k : linkStands i t u) : linkStands i s u :=
  ⟨k.1.trans h.1, k.2.1.trans h.2.1, k.2.2.1.trans h.2.2.1, k.2.2.2.trans h.2.2.2⟩
theorem linkStands_of_stays {s u : State} (i : Nat) (h : stays s u) : linkStands i s u :=
  ⟨by rw [h.1], by rw [h.1], h.2.1, h.2.2⟩

theorem linkStands_linkOf {a b : Nat} {s u : State} (h : linkStands (linkIndex a b) s u) (hi : linkIndex a b < s.mesh.length) :
    linkOf u a b = linkOf s a b := by
  unfold linkOf nth
  rw [List.getD_eq_getElem?_getD, List.getD_eq_getElem?_getD, h.1]

theorem linkStands_setDir (s : State) (x y i : Nat) (f : Dir → Dir) (h : linkIndex x y ≠ i) : linkStands i s (setDir s x y f) :=
  ⟨modNth_other _ _ _ _ (fun e => h e.symm), modNth_length _ _ _, rfl, rfl⟩

theorem linkStands_pump (s : State) (x y i n : Nat) (h : linkIndex x y ≠ i) : linkStands i s (pump s x y n) := by
  induction n generalizing s with
  | zero => exact linkStands_refl i s
  | succ n ih =>
    unfold pump
    dsimp only
    split
    · exact linkStands_refl i s
    · split
      · exact linkStands_trans (linkStands_setDir s x y i _ h) (ih _)
      · exact linkStands_refl i s

/-- The next hop is over a link that has not failed. -/
theorem hopOf_works {s : State} {x d h : Nat} (hh : hopOf s x d = some h) : linkFailed s x h = false := by
  unfold hopOf at hh
  split at hh
  · have := List.find?_some hh
    simp only [Bool.and_eq_true, Bool.not_eq_true'] at this
    exact this.1.2
  · rename_i hf
    cases hh
    simpa using hf

theorem failed_other {s : State} {a b x h : Nat} (hi : linkIndex a b < s.mesh.length) (hf : linkFailed s a b = true)
    (hw : linkFailed s x h = false) : linkIndex x h ≠ linkIndex a b := by
  intro e
  have : linkOf s x h = linkOf s a b := by
    unfold linkOf nth
    rw [e, List.getD_eq_getElem?_getD, List.getD_eq_getElem?_getD, List.getElem?_eq_getElem hi]; rfl
  unfold linkFailed at hf hw
  rw [this, hf] at hw
  cases hw

/-- Queued flits never go onto a failed link. -/
theorem linkStands_queueFlits (l : List Flit) (s : State) (c a b : Nat) (hi : linkIndex a b < s.mesh.length)
    (hf : linkFailed s a b = true) : linkStands (linkIndex a b) s (l.foldl (fun s f => queueFlit s c f) s) := by
  induction l generalizing s with
  | nil => exact linkStands_refl _ s
  | cons f l ih =>
    have h1 : linkStands (linkIndex a b) s (queueFlit s c f) := by
      unfold queueFlit sendAll
      split
      · rename_i h hh
        have hne := failed_other hi hf (hopOf_works hh)
        exact linkStands_trans (linkStands_setDir s c h _ _ hne) (linkStands_pump _ c h _ _ hne)
      · exact linkStands_refl _ s
    refine linkStands_trans h1 (ih _ (by rw [h1.2.1]; exact hi) ?_)
    unfold linkFailed at hf ⊢
    rw [linkStands_linkOf h1 hi]; exact hf

theorem closeSkips_failed (s : State) (x y : Nat) (a b : Nat) (hi : linkIndex a b < s.mesh.length) :
    linkIndex a b < (closeSkips s x y).mesh.length ∧ (closeSkips s x y).now = s.now := by
  unfold closeSkips
  dsimp only
  split
  · exact ⟨hi, rfl⟩
  · exact ⟨by show _ < (modNth _ _ _).length; rw [modNth_length]; exact hi, rfl⟩

/-- What a failed link leaves: FAILED, LINK_FAILED set, nothing kept for replay in either direction. -/
theorem failLink_spec (s : State) (a b : Nat) (_hne : a ≠ b) (h : linkIndex a b < s.mesh.length) (hf : linkFailed s a b = false) :
    let u := failLink s a b
    linkFailed u a b = true ∧ u.regs.eventCause.getLsbD 2 = true ∧ (dirOf u a b).unacked = [] ∧ (dirOf u b a).unacked = [] ∧ u.now = s.now := by
  unfold linkFailed at hf
  unfold failLink
  dsimp only
  rw [hf]
  simp only [Bool.false_eq_true, if_false]
  generalize (dirCmds s (linkOf s a b).up ++ dirCmds s (linkOf s a b).down).eraseDups = ids
  generalize (linkOf s a b).up.queue = up
  generalize (linkOf s a b).down.queue = down
  obtain ⟨i0, n0⟩ := closeSkips_failed s (min a b) (max a b) a b h
  obtain ⟨i0, n0'⟩ := closeSkips_failed _ (max a b) (min a b) a b i0
  generalize closeSkips (closeSkips s (min a b) (max a b)) (max a b) (min a b) = s0 at i0 n0'
  have n0 : s0.now = s.now := n0'.trans n0
  generalize hs1 : dropLink s0 a b = s1
  have i1 : linkIndex a b < s1.mesh.length := by rw [← hs1]; show _ < (modNth _ _ _).length; rw [modNth_length]; exact i0
  have l1 : (linkOf s1 a b).failed = true ∧ (linkOf s1 a b).up.unacked = [] ∧ (linkOf s1 a b).down.unacked = [] := by
    rw [← hs1]; unfold dropLink; rw [linkOf_setLink _ _ _ _ i0]; exact ⟨rfl, rfl, rfl⟩
  have n1 : s1.now = s.now := by rw [← hs1]; exact n0
  generalize hs2 : countLink s1 a b 5 1 = s2
  have l2 := linkOf_countLink s1 a b 5 1 i1
  rw [hs2] at l2
  have m2 : s2.mesh.length = s1.mesh.length := by rw [← hs2]; show (modNth _ _ _).length = _; rw [modNth_length]
  have n2 : s2.now = s1.now := by rw [← hs2]; rfl
  generalize hs3 : raiseEvent s2 evLINK_FAILED = s3
  have m3 : s3.mesh = s2.mesh := by have := congrArg State.mesh (raiseEvent_frame s2 evLINK_FAILED); rw [hs3] at this; exact this
  have n3 : s3.now = s2.now := by have := congrArg State.now (raiseEvent_frame s2 evLINK_FAILED); rw [hs3] at this; exact this
  have e3 : s3.regs.eventCause.getLsbD 2 = true := by rw [← hs3]; exact raiseEvent_sets s2 (by decide)
  have st4 := stays_logFault s3 evLINK_FAILED (min a b) (max a b) 5
  generalize logFault s3 evLINK_FAILED (min a b) (max a b) 5 = s4 at st4 ⊢
  have st5 : stays s4 (if (relayOf s4 a b).isSome = true then ids.foldl replayNow s4 else s4) := by
    split
    · exact stays_foldl stays_replayNow _ _
    · exact stays_refl s4
  generalize (if (relayOf s4 a b).isSome = true then ids.foldl replayNow s4 else s4) = s5 at st5 ⊢
  have k5 := linkStands_of_stays (linkIndex a b) (stays_trans st4 st5)
  have i3 : linkIndex a b < s3.mesh.length := by rw [m3, m2]; exact i1
  have i5 : linkIndex a b < s5.mesh.length := by rw [k5.2.1]; exact i3
  have l5 : linkOf s5 a b = linkOf s2 a b := (linkStands_linkOf k5 i3).trans (by unfold linkOf; rw [m3])
  have f5 : linkFailed s5 a b = true := by unfold linkFailed; rw [l5, l2]; exact l1.1
  have k6 := linkStands_queueFlits up s5 (min a b) a b i5 f5
  generalize up.foldl (fun s f => queueFlit s (min a b) f) s5 = s6 at k6
  have i6 : linkIndex a b < s6.mesh.length := by rw [k6.2.1]; exact i5
  have f6 : linkFailed s6 a b = true := by unfold linkFailed at f5 ⊢; rw [linkStands_linkOf k6 i5]; exact f5
  have k7 := linkStands_queueFlits down s6 (max a b) a b i6 f6
  generalize down.foldl (fun s f => queueFlit s (max a b) f) s6 = s7 at k7
  have k8 := linkStands_trans (linkStands_trans k6 k7) (linkStands_of_stays (linkIndex a b) (stays_recheckLinks s7))
  generalize recheckLinks s7 = u at k8
  have k := linkStands_trans k5 k8
  have hlink : linkOf u a b = linkOf s2 a b := (linkStands_linkOf k8 i5).trans l5
  have hu : linkIndex a b < u.mesh.length := by rw [k8.2.1]; exact i5
  have hlink2 : linkOf u b a = linkOf s2 a b := by
    rw [← linkOf_comm u a b hu, hlink]
  refine ⟨?_, by rw [k.2.2.1]; exact e3, ?_, ?_, by rw [k.2.2.2, n3, n2, n1]⟩
  · unfold linkFailed; rw [hlink, l2]; exact l1.1
  · unfold dirOf; rw [hlink, l2]; dsimp only; split
    · exact l1.2.1
    · exact l1.2.2
  · unfold dirOf; rw [hlink2, l2]; dsimp only; split
    · exact l1.2.1
    · exact l1.2.2

end Sys2Proof.Laws
end

