-- ==== Sys2Proof/Laws/Chips.lean ====
section
/-! SUPPORT. Chips and their cores read after they are changed and counted. -/

open Sys2Proof Sys2Proof.Machine

namespace Sys2Proof.Laws

theorem chipOf_setChip (s : State) (c : Nat) (f : Chip → Chip) (h : c < s.chips.length) :
    chipOf (setChip s c f) c = f (chipOf s c) := by
  unfold chipOf setChip
  dsimp only
  rw [nth_modNth, if_pos ⟨rfl, h⟩]

theorem chipOf_setChip_ne (s : State) {c k : Nat} (f : Chip → Chip) (h : k ≠ c) : chipOf (setChip s c f) k = chipOf s k := by
  unfold chipOf setChip nth
  rw [List.getD_eq_getElem?_getD, List.getD_eq_getElem?_getD]
  dsimp only
  rw [modNth_other _ _ _ _ h]

theorem setChip_other (s : State) {c k : Nat} (f : Chip → Chip) (h : k ≠ c) : (setChip s c f).chips[k]? = s.chips[k]? :=
  modNth_other _ _ _ _ h

@[simp] theorem setChip_length (s : State) (c : Nat) (f : Chip → Chip) : (setChip s c f).chips.length = s.chips.length :=
  modNth_length _ _ _

theorem setChip_frame (s : State) (c : Nat) (f : Chip → Chip) : { setChip s c f with chips := s.chips } = s := rfl

/-- A change confined to one chip and the totals. -/
def nearChip (s u : State) (c : Nat) : Prop :=
  { u with chips := s.chips, totals := s.totals } = s ∧ (∀ k, k ≠ c → u.chips[k]? = s.chips[k]?) ∧
    u.chips.length = s.chips.length

theorem nearChip_refl (s : State) (c : Nat) : nearChip s s c := ⟨rfl, fun _ _ => rfl, rfl⟩
theorem nearChip_trans {s t u : State} {c : Nat} (h : nearChip s t c) (k : nearChip t u c) : nearChip s u c := by
  refine ⟨?_, fun i hi => (k.2.1 i hi).trans (h.2.1 i hi), k.2.2.trans h.2.2⟩
  exact (congrArg (fun x : State => { x with chips := s.chips, totals := s.totals }) k.1).trans h.1
theorem nearChip_setChip (s : State) (c : Nat) (f : Chip → Chip) : nearChip s (setChip s c f) c :=
  ⟨rfl, fun _ h => setChip_other s f h, setChip_length s c f⟩
theorem nearChip_total (s : State) (c i n : Nat) : nearChip s (countTotal s i n) c := ⟨rfl, fun _ _ => rfl, rfl⟩
theorem nearChip_countChip (s : State) (c i n : Nat) : nearChip s (countChip s c i n) c :=
  nearChip_trans (nearChip_setChip s c _) (nearChip_total _ c _ _)
theorem nearChip_countHbm (s : State) (c i n : Nat) : nearChip s (countHbm s c i n) c :=
  nearChip_trans (nearChip_setChip s c _) (nearChip_total _ c _ _)
theorem nearChip_setCore (s : State) (c k : Nat) (f : Core → Core) : nearChip s (setCore s c k f) c := nearChip_setChip s c _
theorem nearChip_countCore (s : State) (c k i n : Nat) : nearChip s (countCore s c k i n) c :=
  nearChip_trans (nearChip_setCore s c k _) (nearChip_total _ c _ _)

theorem nearChip_chipOf {s u : State} {c k : Nat} (h : nearChip s u c) (hk : k ≠ c) : chipOf u k = chipOf s k := by
  unfold chipOf nth
  rw [List.getD_eq_getElem?_getD, List.getD_eq_getElem?_getD, h.2.1 k hk]

theorem chipOf_countChip (s : State) (c i n : Nat) (h : c < s.chips.length) :
    chipOf (countChip s c i n) c = { chipOf s c with counters := modNth (chipOf s c).counters i (satAdd 0xFFFF · n) } :=
  chipOf_setChip s c _ h

theorem chipOf_setCore (s : State) (c k : Nat) (f : Core → Core) (h : c < s.chips.length) :
    chipOf (setCore s c k f) c = { chipOf s c with cores := modNth (chipOf s c).cores k f } := chipOf_setChip s c _ h

theorem chipOf_countCore (s : State) (c k i n : Nat) (h : c < s.chips.length) :
    chipOf (countCore s c k i n) c = { chipOf s c with
      cores := modNth (chipOf s c).cores k fun co => { co with counters := modNth co.counters i (satAdd 0xFFFF · n) } } :=
  chipOf_setCore s c k _ h

theorem modNth_get {α : Type} (l : List α) (i : Nat) (f : α → α) (x : α) (h : l[i]? = some x) : (modNth l i f)[i]? = some (f x) := by
  induction l generalizing i with
  | nil => cases h
  | cons a l ih =>
    cases i with
    | zero => simp only [List.getElem?_cons_zero, Option.some.injEq] at h; subst h; rfl
    | succ i => simp only [modNth, List.getElem?_cons_succ] at *; exact ih i h

/-- Consecutive misses: those before, where the last lies within the interval, and one more. -/
theorem missCount_eq (s : State) (m : Nat) (l : Option Tick) (n : Nat) :
    missCount s m l n = if ∃ x, l = some x ∧ s.now ≤ x + ticksA s n then m + 1 else 1 := by
  unfold missCount
  cases l with
  | none => simp
  | some x => simp

/-- A change that keeps a core's role changes no list of cores by role. -/
theorem rolesKept (q : Role → Bool) (l : List Core) (i : Nat) (f : Core → Core) (hf : ∀ x, (f x).role = x.role) :
    ((withIndex (modNth l i f)).filter fun p => q p.2.role).map (fun p => p.1) =
      ((withIndex l).filter fun p => q p.2.role).map (fun p => p.1) := by
  unfold withIndex
  rw [modNth_length, List.range_eq_range']
  generalize 0 = m
  induction l generalizing i m with
  | nil => rfl
  | cons a l ih =>
    cases i with
    | zero =>
      simp only [modNth, List.length_cons, List.range'_succ, List.zip_cons_cons, List.filter_cons, hf]
      split <;> rfl
    | succ i =>
      simp only [modNth, List.length_cons, List.range'_succ, List.zip_cons_cons, List.filter_cons]
      split
      · simp only [List.map_cons]; rw [ih i (m + 1)]
      · rw [ih i (m + 1)]

theorem spareCores_setCore (s : State) (c k : Nat) (f : Core → Core) (h : c < s.chips.length) (hf : ∀ x, (f x).role = x.role) :
    spareCores (setCore s c k f) c = spareCores s c := by
  unfold spareCores
  rw [chipOf_setCore _ _ _ _ h]
  exact rolesKept (fun r => r == .spare) _ _ _ hf

theorem workingCores_setCore (s : State) (c k : Nat) (f : Core → Core) (h : c < s.chips.length) (hf : ∀ x, (f x).role = x.role) :
    workingCores (setCore s c k f) c = workingCores s c := by
  unfold workingCores
  rw [spareCores_setCore s c k f h hf]
  unfold activeCores
  rw [chipOf_setCore _ _ _ _ h, rolesKept (fun r => r == .active) _ _ _ hf]

/-- The lowest number below n that passes a test. -/
theorem find_range (p : Nat → Bool) (n k : Nat) (hk : k < n) (h : p k = true) :
    ∃ l, ((List.range n).filter p).head? = some l ∧ l ≤ k ∧ p l = true ∧ ∀ j, j < l → p j = false := by
  have hne : ∃ x ∈ List.range n, p x = true := ⟨k, List.mem_range.2 hk, h⟩
  rw [List.head?_filter]
  obtain ⟨l, hl⟩ := Option.isSome_iff_exists.1 (List.find?_isSome.2 hne)
  refine ⟨l, hl, ?_⟩
  rw [List.find?_range_eq_some] at hl
  refine ⟨?_, hl.1, ?_⟩
  · apply Classical.byContradiction
    intro hlt
    have := hl.2.2 k (by omega)
    rw [h] at this; cases this
  · intro j hj
    have := hl.2.2 j hj
    simpa using this

/-! ## Losses declared -/

/-- A chip declared lost where no loss is being handled. -/
theorem declareLoss_fresh (s : State) (c : Nat) (ha : (chipOf s c).active = true) (hl : s.loss = .none) :
    declareLoss s c = { s with loss := .declared [c] (s.now + ticksA s 1600) [] } := by
  unfold declareLoss
  rw [ha, hl]; rfl

/-- A fatal report of an active chip that is not the deputy, where no loss is being handled: counted, and the chip declared
lost. -/
theorem fatal_fresh (s : State) (c : Nat) (h : c < s.chips.length) (ha : (chipOf s c).active = true) (hd : s.deputy ≠ some c)
    (hl : s.loss = .none) :
    fatal s c = { countChip s c 7 1 with loss := .declared [c] (s.now + ticksA s 1600) [] } := by
  unfold fatal declareBy
  rw [ha]
  have : ¬ (countChip s c 7 1).deputy = some c := hd
  rw [if_neg this]
  exact declareLoss_fresh (countChip s c 7 1) c (by rw [chipOf_countChip _ _ _ _ h]; exact ha) hl

end Sys2Proof.Laws
end

