-- ==== Sys2Proof/Laws/Faults.lean ====
section
/-! SUPPORT. What the fault log, the ledger and an event leave unchanged, and how they read after. -/

open Sys2Proof Sys2Proof.Machine

namespace Sys2Proof.Laws

theorem raiseEvent_mild (s : State) (b : Nat) : { raiseEvent s b with regs := s.regs, mgmt := s.mgmt } = s := by
  exact congrArg (fun x : State => { x with regs := s.regs, mgmt := s.mgmt }) (raiseEvent_frame s b)

theorem mgmtEvent_mild (s : State) (a b c : Nat) : { mgmtEvent s a b c with regs := s.regs, mgmt := s.mgmt } = s := rfl

/-- A bit of EVENT_CAUSE that is set stays set while events are raised. -/
theorem raiseEvent_stays (s : State) (b j : Nat) (h : s.regs.eventCause.getLsbD j = true) :
    (raiseEvent s b).regs.eventCause.getLsbD j = true := by
  rw [raiseEvent_cause]
  split
  · exact h
  · rw [BitVec.getLsbD_or, h]; rfl

theorem logFault_frame (s : State) (a b c d : Nat) :
    { logFault s a b c d with vault := s.vault, deferredLog := s.deferredLog } = s := by
  unfold logFault; dsimp only; split <;> rfl

theorem logFault_quiet (s : State) (a b c d : Nat) (h : s.deputy = none) : { logFault s a b c d with vault := s.vault } = s := by
  unfold logFault
  dsimp only
  split
  · next d hd => rw [h] at hd; cases hd
  · rfl

theorem logFault_ledger (s : State) (a b c d : Nat) : ledgerNow (logFault s a b c d) = ledgerNow s := by
  unfold logFault; dsimp only; split <;> rfl

theorem ledgerNow_write (s : State) (es : List LedgerEntry) (n : Nat) :
    ledgerNow (writeLedger s es n) = ⟨1, true, (ledgerNow s).seq + 1, n, es⟩ := by
  have hv (q : Nat) (l : List LedgerEntry) : Ledger.valid ⟨1, true, q, n, l⟩ = true := rfl
  unfold writeLedger ledgerNow
  dsimp only
  generalize s.vault.ledgerA = a
  generalize s.vault.ledgerB = b
  by_cases h : (a.valid && (!b.valid || decide (b.seq ≤ a.seq))) = true
  · rw [if_pos h, if_pos h]
    dsimp only
    rw [if_neg]
    simp [hv]
  · rw [if_neg h, if_neg h]
    dsimp only
    rw [if_pos]
    simp only [hv, Bool.true_and, Bool.or_eq_true, Bool.not_eq_true', decide_eq_true_eq]
    exact Or.inr (Nat.le_succ _)

theorem writeLedger_frame (s : State) (es : List LedgerEntry) (n : Nat) : { writeLedger s es n with vault := s.vault } = s := by
  unfold writeLedger; dsimp only; split <;> rfl

theorem writeEntries_frame (s : State) (es : List LedgerEntry) :
    { writeEntries s es with vault := s.vault, ledgerWrite := s.ledgerWrite } = s := by
  unfold writeEntries
  split
  · rfl
  · exact congrArg (fun x : State => { x with ledgerWrite := s.ledgerWrite }) (writeLedger_frame (markWrite s es) _ _)

theorem addLedger_frame (s : State) (k c u o e r : Nat) :
    { addLedger s k c u o e r with
      vault := s.vault, deferred := s.deferred, deferredLog := s.deferredLog, ledgerWrite := s.ledgerWrite } = s := by
  unfold addLedger
  dsimp only
  split
  · exact congrArg (fun x : State => { x with deferred := s.deferred, ledgerWrite := s.ledgerWrite }) (logFault_frame s 0x41 c u k)
  · have h := writeEntries_frame (logFault s 0x41 c u k) [⟨k, c, u, o, e, r, (ledgerNow s).bringUps⟩]
    exact (congrArg (fun x : State => { x with
      vault := s.vault, deferred := s.deferred, deferredLog := s.deferredLog, ledgerWrite := s.ledgerWrite }) h).trans
        (congrArg (fun x : State => { x with deferred := s.deferred, ledgerWrite := s.ledgerWrite }) (logFault_frame s 0x41 c u k))

theorem addLedger_quiet (s : State) (k c u o e r : Nat) (h : s.deputy = none) :
    { addLedger s k c u o e r with vault := s.vault, ledgerWrite := s.ledgerWrite } = s := by
  have hd : (logFault s 0x41 c u k).deputy = none := by unfold logFault; rw [h]
  unfold addLedger
  dsimp only
  rw [hd]
  dsimp only
  exact (congrArg (fun x : State => { x with vault := s.vault, ledgerWrite := s.ledgerWrite })
    (writeEntries_frame (logFault s 0x41 c u k) _)).trans
      (congrArg (fun x : State => { x with ledgerWrite := s.ledgerWrite }) (logFault_quiet s 0x41 c u k h))

/-- The ledger with one entry more, SEQUENCE one higher, where no rebuild goes on. -/
theorem addLedger_entries (s : State) (k c u o e r : Nat) (h : s.deputy = none) (hr : s.mgmt.rebuilt = false) :
    ledgerNow (addLedger s k c u o e r) =
      ⟨1, true, (ledgerNow s).seq + 1, (ledgerNow s).bringUps,
        (ledgerNow s).entries ++ [⟨k, c, u, o, e, r, (ledgerNow s).bringUps⟩]⟩ := by
  have hd : (logFault s 0x41 c u k).deputy = none := by unfold logFault; rw [h]
  have hm : (logFault s 0x41 c u k).mgmt.rebuilt = false := by unfold logFault; rw [h]; exact hr
  have hl : ∀ x : State, ∀ es, ledgerNow (markWrite x es) = ledgerNow x := fun _ _ => rfl
  unfold addLedger
  dsimp only
  rw [hd]
  dsimp only
  unfold writeEntries
  rw [hm]
  simp only [Bool.false_eq_true, if_false]
  rw [ledgerNow_write, hl, logFault_ledger]

theorem mem_spareCores {s : State} {c j : Nat} (h : j ∈ spareCores s c) :
    ∃ x, (chipOf s c).cores[j]? = some x ∧ x.role = .spare := by
  unfold spareCores at h
  obtain ⟨p, hp, rfl⟩ := List.mem_map.1 h
  obtain ⟨hm, hr⟩ := List.mem_filter.1 hp
  exact ⟨p.2, (mem_withIndex hm).2, eq_of_beq hr⟩

end Sys2Proof.Laws
end

