-- ==== Sys2Proof/Laws/Losses.lean ====
section
/-! SUPPORT. What the steps of a fence tick leave unchanged: dropped chips, lost streams, the placement plan, rechecked links. -/

open Sys2Proof Sys2Proof.Machine

namespace Sys2Proof.Laws

theorem raiseEvent_regs (s : State) (b : Nat) :
    { (raiseEvent s b).regs with
      eventCause := s.regs.eventCause, msixPending := s.regs.msixPending, msi := s.regs.msi, events := s.regs.events } = s.regs :=
  by have := congrArg State.regs (raiseEvent_frame s b); exact this

/-! ## Chips dropped -/

/-- A chip that is lost: inactive, its core fences moot (R39). -/
def dropped (x : Chip) : Chip := { x with active := false, cores := x.cores.map fun k => { k with pending := none } }

theorem dropped_twice (x : Chip) : dropped (dropped x) = dropped x := by
  unfold dropped
  simp only [List.map_map]
  rfl

theorem dropChip_eq (s : State) (c : Nat) : dropChip s c =
    let n := lossCount s c + 1
    let s := addLedger (countTotal (setChip s c dropped) 29 1) 5 c 0 3 n 0
    let s := logFault (raiseEvent s evCHIP_LOST) evCHIP_LOST c 0 n
    { s with audited := s.audited.filter fun a => a.chip != c } := rfl

theorem dropChip_frame (s : State) (c : Nat) :
    { dropChip s c with
      chips := s.chips, totals := s.totals, vault := s.vault, deferred := s.deferred, deferredLog := s.deferredLog
      regs := s.regs, mgmt := s.mgmt, audited := s.audited, ledgerWrite := s.ledgerWrite } = s := by
  rw [dropChip_eq]
  dsimp only
  generalize lossCount s c + 1 = n
  generalize hs1 : countTotal (setChip s c dropped) 29 1 = s1
  have f1 : { s1 with chips := s.chips, totals := s.totals } = s := by rw [← hs1]; rfl
  have f2 := addLedger_frame s1 5 c 0 3 n 0
  generalize addLedger s1 5 c 0 3 n 0 = s2 at f2 ⊢
  have f3 := raiseEvent_mild s2 evCHIP_LOST
  generalize raiseEvent s2 evCHIP_LOST = s3 at f3 ⊢
  have f4 := logFault_frame s3 evCHIP_LOST c 0 n
  generalize logFault s3 evCHIP_LOST c 0 n = s4 at f4 ⊢
  let g (x : State) : State := { x with
      chips := s.chips, totals := s.totals, vault := s.vault, deferred := s.deferred, deferredLog := s.deferredLog
      regs := s.regs, mgmt := s.mgmt, audited := s.audited, ledgerWrite := s.ledgerWrite }
  have a4 : g s4 = g s3 := by have := congrArg g f4; exact this
  have a3 : g s3 = g s2 := by have := congrArg g f3; exact this
  have a2 : g s2 = g s1 := by have := congrArg g f2; exact this
  have a1 : g s1 = s := congrArg (fun x : State => { x with vault := s.vault, deferred := s.deferred, deferredLog := s.deferredLog, regs := s.regs, mgmt := s.mgmt, audited := s.audited, ledgerWrite := s.ledgerWrite }) f1
  exact a4.trans (a3.trans (a2.trans a1))

theorem dropChip_chips (s : State) (c : Nat) : (dropChip s c).chips = modNth s.chips c dropped := by
  rw [dropChip_eq]
  dsimp only
  generalize lossCount s c + 1 = n
  generalize hs1 : countTotal (setChip s c dropped) 29 1 = s1
  have h1 : s1.chips = modNth s.chips c dropped := by rw [← hs1]; rfl
  have f2 := addLedger_frame s1 5 c 0 3 n 0
  have h2 : (addLedger s1 5 c 0 3 n 0).chips = s1.chips := by have := congrArg State.chips f2; exact this
  generalize addLedger s1 5 c 0 3 n 0 = s2 at h2 ⊢
  have h3 : (raiseEvent s2 evCHIP_LOST).chips = s2.chips := by have := congrArg State.chips (raiseEvent_mild s2 evCHIP_LOST); exact this
  generalize raiseEvent s2 evCHIP_LOST = s3 at h3 ⊢
  have h4 : (logFault s3 evCHIP_LOST c 0 n).chips = s3.chips := by have := congrArg State.chips (logFault_frame s3 evCHIP_LOST c 0 n); exact this
  rw [h4, h3, h2, h1]

theorem dropChip_event (s : State) (c : Nat) : (dropChip s c).regs.eventCause.getLsbD 0 = true := by
  rw [dropChip_eq]
  dsimp only
  generalize lossCount s c + 1 = n
  generalize addLedger (countTotal (setChip s c dropped) 29 1) 5 c 0 3 n 0 = s2
  have h3 : (raiseEvent s2 evCHIP_LOST).regs.eventCause.getLsbD 0 = true := raiseEvent_sets s2 (by decide)
  generalize raiseEvent s2 evCHIP_LOST = s3 at h3 ⊢
  have h4 : (logFault s3 evCHIP_LOST c 0 n).regs = s3.regs := by have := congrArg State.regs (logFault_frame s3 evCHIP_LOST c 0 n); exact this
  rw [h4]; exact h3

theorem dropChip_ledger (s : State) (c : Nat) (h : s.deputy = none) (hr : s.mgmt.rebuilt = false) :
    (ledgerNow (dropChip s c)).entries =
      (ledgerNow s).entries ++ [⟨5, c, 0, 3, lossCount s c + 1, 0, (ledgerNow s).bringUps⟩] := by
  rw [dropChip_eq]
  dsimp only
  generalize lossCount s c + 1 = n
  generalize hs1 : countTotal (setChip s c dropped) 29 1 = s1
  have l1 : ledgerNow s1 = ledgerNow s := by rw [← hs1]; rfl
  have d1 : s1.deputy = none := by rw [← hs1]; exact h
  have r1 : s1.mgmt.rebuilt = false := by rw [← hs1]; exact hr
  have f2 := addLedger_entries s1 5 c 0 3 n 0 d1 r1
  generalize addLedger s1 5 c 0 3 n 0 = s2 at f2 ⊢
  have h3 : (raiseEvent s2 evCHIP_LOST).vault = s2.vault := by have := congrArg State.vault (raiseEvent_mild s2 evCHIP_LOST); exact this
  generalize raiseEvent s2 evCHIP_LOST = s3 at h3 ⊢
  have h4 := logFault_ledger s3 evCHIP_LOST c 0 n
  have h3' : ledgerNow s3 = ledgerNow s2 := by unfold ledgerNow; rw [h3]
  show (ledgerNow (logFault s3 evCHIP_LOST c 0 n)).entries = _
  rw [h4, h3', f2, l1]

theorem dropChips_frame (lost : List Nat) (s : State) :
    { lost.foldl dropChip s with
      chips := s.chips, totals := s.totals, vault := s.vault, deferred := s.deferred, deferredLog := s.deferredLog
      regs := s.regs, mgmt := s.mgmt, audited := s.audited, ledgerWrite := s.ledgerWrite } = s := by
  induction lost generalizing s with
  | nil => rfl
  | cons c l ih =>
    exact (congrArg (fun x : State => { x with
      chips := s.chips, totals := s.totals, vault := s.vault, deferred := s.deferred, deferredLog := s.deferredLog
      regs := s.regs, mgmt := s.mgmt, audited := s.audited, ledgerWrite := s.ledgerWrite }) (ih (dropChip s c))).trans (dropChip_frame s c)

theorem dropChips_length (lost : List Nat) (s : State) : (lost.foldl dropChip s).chips.length = s.chips.length := by
  induction lost generalizing s with
  | nil => rfl
  | cons c l ih => rw [List.foldl_cons, ih, dropChip_chips, modNth_length]

theorem dropChips_chipOf (lost : List Nat) (s : State) (k : Nat) (hk : k < s.chips.length) :
    chipOf (lost.foldl dropChip s) k = if lost.contains k then dropped (chipOf s k) else chipOf s k := by
  induction lost generalizing s with
  | nil => simp [List.foldl_nil]
  | cons c l ih =>
    rw [List.foldl_cons, ih (dropChip s c) (by rw [dropChip_chips, modNth_length]; exact hk)]
    have : chipOf (dropChip s c) k = if k = c then dropped (chipOf s k) else chipOf s k := by
      unfold chipOf
      rw [dropChip_chips, nth_modNth]
      by_cases h : k = c
      · subst h; rw [if_pos ⟨rfl, hk⟩, if_pos rfl]
      · rw [if_neg (fun x => h x.1), if_neg h]
    rw [this]
    by_cases h : k = c
    · subst h
      rw [if_pos rfl, dropped_twice]
      simp
    · rw [if_neg h]; simp [h]

theorem dropChips_event (lost : List Nat) (s : State) (h : lost ≠ [] ∨ s.regs.eventCause.getLsbD 0 = true) :
    (lost.foldl dropChip s).regs.eventCause.getLsbD 0 = true := by
  induction lost generalizing s with
  | nil => rcases h with h | h
           · exact absurd rfl h
           · exact h
  | cons c l ih => exact ih (dropChip s c) (Or.inr (dropChip_event s c))

/-! ## Streams closed -/

theorem loseStream_frame (s : State) (j : Nat) :
    { loseStream s j with streams := s.streams, audited := s.audited, vault := s.vault, deferredLog := s.deferredLog } = s := by
  unfold loseStream
  split
  · rfl
  · generalize (homeOf s j).1 = h
    have := logFault_frame (unaudit (setStream s j Stream.closed) j) 0x40 h 0 j
    exact (congrArg (fun x : State => { x with streams := s.streams, audited := s.audited, vault := s.vault, deferredLog := s.deferredLog }) this)

theorem loseStream_ledger (s : State) (j : Nat) : ledgerNow (loseStream s j) = ledgerNow s := by
  unfold loseStream
  split
  · rfl
  · rw [logFault_ledger]; rfl

theorem streamOf_loseStream (s : State) (j k : Nat) :
    streamOf (loseStream s j) k = if k = j ∧ (streamOf s k).isOpen = true then Stream.closed else streamOf s k := by
  unfold loseStream
  by_cases ho : (streamOf s j).isOpen = true
  · rw [ho]
    simp only [Bool.not_true, Bool.false_eq_true, if_false]
    generalize (homeOf s j).1 = h
    have hs : (logFault (unaudit (setStream s j Stream.closed) j) 0x40 h 0 j).streams = (setStream s j Stream.closed).streams := by
      have := congrArg State.streams (logFault_frame (unaudit (setStream s j Stream.closed) j) 0x40 h 0 j); exact this
    have : streamOf (logFault (unaudit (setStream s j Stream.closed) j) 0x40 h 0 j) k = streamOf (setStream s j Stream.closed) k := by
      unfold streamOf; rw [hs]
    rw [this, streamOf_setStream]
    by_cases hk : k = j
    · subst hk; rw [if_pos rfl, if_pos ⟨rfl, ho⟩]
    · rw [if_neg hk, if_neg (fun x => hk x.1)]
  · rw [Bool.not_eq_true] at ho
    rw [ho]
    simp only [Bool.not_false, if_true]
    rw [if_neg]
    rintro ⟨rfl, h⟩
    rw [ho] at h; cases h

theorem loseStreams_frame (dead : List Nat) (s : State) :
    { dead.foldl loseStream s with streams := s.streams, audited := s.audited, vault := s.vault, deferredLog := s.deferredLog } = s := by
  induction dead generalizing s with
  | nil => rfl
  | cons j l ih =>
    exact (congrArg (fun x : State => { x with streams := s.streams, audited := s.audited, vault := s.vault, deferredLog := s.deferredLog })
      (ih (loseStream s j))).trans (loseStream_frame s j)

theorem loseStreams_ledger (dead : List Nat) (s : State) : ledgerNow (dead.foldl loseStream s) = ledgerNow s := by
  induction dead generalizing s with
  | nil => rfl
  | cons j l ih => rw [List.foldl_cons, ih, loseStream_ledger]

theorem streamOf_loseStreams (dead : List Nat) (s : State) (k : Nat) :
    streamOf (dead.foldl loseStream s) k = if k ∈ dead ∧ (streamOf s k).isOpen = true then Stream.closed else streamOf s k := by
  induction dead generalizing s with
  | nil => simp
  | cons j l ih =>
    rw [List.foldl_cons, ih, streamOf_loseStream]
    by_cases hk : k = j
    · subst hk
      by_cases ho : (streamOf s k).isOpen = true
      · simp [ho]
      · simp [ho]
    · simp [hk]

/-! ## The plan and the links -/

/-- Only models, what is sent with MODEL_SUSPENDED, and the vault's models change. -/
def planStep (s u : State) : Prop :=
  { u with models := s.models, vault := s.vault, regs := s.regs, mgmt := s.mgmt } = s ∧ ledgerNow u = ledgerNow s ∧
    u.regs.degraded = s.regs.degraded ∧ u.regs.relayActive = s.regs.relayActive ∧
    ∀ j, s.regs.eventCause.getLsbD j = true → u.regs.eventCause.getLsbD j = true

theorem planStep_refl (s : State) : planStep s s := ⟨rfl, rfl, rfl, rfl, fun _ h => h⟩
theorem planStep_trans {s t u : State} (h : planStep s t) (k : planStep t u) : planStep s u := by
  refine ⟨?_, k.2.1.trans h.2.1, k.2.2.1.trans h.2.2.1, k.2.2.2.1.trans h.2.2.2.1, fun j x => k.2.2.2.2 j (h.2.2.2.2 j x)⟩
  exact (congrArg (fun x : State => { x with models := s.models, vault := s.vault, regs := s.regs, mgmt := s.mgmt }) k.1).trans h.1

theorem planStep_suspendNow (s : State) (mid : Nat) : planStep s (suspendNow s mid) := by
  unfold suspendNow
  generalize hs1 : ({ s with
      models := s.models.map fun p => if p.1 == mid then (p.1, suspendModel p.2) else p
      vault := { s.vault with models := s.vault.models.map fun p => if p.1 == mid then (p.1, { p.2 with state := 4 }) else p } } : State) = s1
  have h1 : planStep s s1 := by rw [← hs1]; exact ⟨rfl, rfl, rfl, rfl, fun _ h => h⟩
  refine planStep_trans h1 ⟨?_, ?_, ?_, ?_, fun j h => raiseEvent_stays s1 _ j h⟩
  · exact congrArg (fun x : State => { x with models := s1.models, vault := s1.vault }) (raiseEvent_mild s1 evMODEL_SUSPENDED)
  · have : (raiseEvent s1 evMODEL_SUSPENDED).vault = s1.vault := by have := congrArg State.vault (raiseEvent_mild s1 evMODEL_SUSPENDED); exact this
    unfold ledgerNow; rw [this]
  · have := congrArg Regs.degraded (raiseEvent_regs s1 evMODEL_SUSPENDED); exact this
  · have := congrArg Regs.relayActive (raiseEvent_regs s1 evMODEL_SUSPENDED); exact this

theorem planStep_foldl {α : Type} {f : State → α → State} (h : ∀ s x, planStep s (f s x)) (l : List α) (s : State) :
    planStep s (l.foldl f s) := by
  induction l generalizing s with
  | nil => exact planStep_refl s
  | cons x l ih => exact planStep_trans (h s x) (ih _)

theorem planStep_fixPlan (s : State) : planStep s (fixPlan s) := by
  unfold fixPlan
  refine planStep_trans (planStep_foldl (f := fun s p =>
    if p.2.state != 4 && parityBroken p.2 (lostRanks s p.2) then suspendNow s p.1 else s) ?_ s.models s)
    (planStep_foldl ?_ _ _)
  · intro s p
    split
    · exact planStep_suspendNow _ _
    · exact planStep_refl s
  · rintro s ⟨mid, st, r⟩
    dsimp only
    split
    · exact planStep_suspendNow _ _
    · exact ⟨rfl, rfl, rfl, rfl, fun _ h => h⟩

theorem declareLoss_frame (s : State) (c : Nat) : { declareLoss s c with loss := s.loss } = s := by
  unfold declareLoss
  split
  · rfl
  · split
    · split <;> rfl
    · rfl
    · rfl

theorem declareBy_frame (s : State) (c : Nat) : { declareBy s c with loss := s.loss } = s := by
  unfold declareBy
  split
  · rfl
  · exact declareLoss_frame s c

theorem checkLinks_frame (s : State) (a b : Nat) : { checkLinks s a b with loss := s.loss } = s := by
  have h2 : ∀ (l : List Nat) (s : State), { l.foldl (fun s c => if 3 ≤ failedLinks s c && decide (0 < (chipOf s c).missed) then declareLoss s c else s) s with loss := s.loss } = s := by
    intro l
    induction l with
    | nil => intro s; rfl
    | cons c l ih =>
      intro s
      refine (congrArg (fun x : State => { x with loss := s.loss }) (ih _)).trans ?_
      dsimp only
      split
      · exact declareLoss_frame _ _
      · rfl
  unfold checkLinks
  refine (congrArg (fun x : State => { x with loss := s.loss }) (h2 [a, b] _)).trans ?_
  split
  · exact declareBy_frame _ _
  · rfl

theorem recheckLinks_frame (s : State) : { recheckLinks s with loss := s.loss } = s := by
  unfold recheckLinks
  generalize s.mesh = l
  induction l generalizing s with
  | nil => rfl
  | cons x l ih =>
    have h1 : { (if x.failed then checkLinks s x.a x.b else s) with loss := s.loss } = s := by
      split
      · exact checkLinks_frame _ _ _
      · rfl
    exact (congrArg (fun x : State => { x with loss := s.loss }) (ih _)).trans h1

end Sys2Proof.Laws
end

