-- ==== Sys2Proof/Laws/Steady.lean ====
section
/-! SUPPORT. What faults met in service, scrubs, BIST and background tasks leave unchanged: time, commands, rings, host memory,
the homes, the shutdown, power. -/

open Sys2Proof Sys2Proof.Machine

namespace Sys2Proof.Laws

/-- Only chips, links, counters, what is sent, logged and written to the ledger, streams, masks, audits, a loss, the tasks and the
wish for a quiet slot change. -/
structure steady (s u : State) : Prop where
  same : { u with
    chips := s.chips, mesh := s.mesh, totals := s.totals, regs := s.regs, mgmt := s.mgmt, vault := s.vault
    deferred := s.deferred, deferredLog := s.deferredLog, streams := s.streams, audited := s.audited, masks := s.masks
    loss := s.loss, tasks := s.tasks, quiet := s.quiet, ledgerWrite := s.ledgerWrite } = s

theorem steady_refl (s : State) : steady s s := ⟨rfl⟩
theorem steady_trans {s t u : State} (h : steady s t) (k : steady t u) : steady s u := by
  have a := congrArg (fun x : State => { x with
    chips := s.chips, mesh := s.mesh, totals := s.totals, regs := s.regs, mgmt := s.mgmt, vault := s.vault
    deferred := s.deferred, deferredLog := s.deferredLog, streams := s.streams, audited := s.audited, masks := s.masks
    loss := s.loss, tasks := s.tasks, quiet := s.quiet, ledgerWrite := s.ledgerWrite }) k.same
  exact ⟨Eq.trans a h.same⟩

theorem steady_upd (s : State) (a : List Chip) (b : List Link) (c : List Nat) (d : Regs) (e : Mgmt) (f : Vault)
    (g : List LedgerEntry) (h : List LogEntry) (i : List (Nat × Stream)) (j : List Audited) (k : List (Nat × Mask)) (l : Loss)
    (m : List Task) (q : Quiet) : steady s { s with
      chips := a, mesh := b, totals := c, regs := d, mgmt := e, vault := f, deferred := g, deferredLog := h, streams := i
      audited := j, masks := k, loss := l, tasks := m, quiet := q } := ⟨rfl⟩

theorem steady_foldl {α : Type} {f : State → α → State} (h : ∀ s x, steady s (f s x)) (l : List α) (s : State) :
    steady s (l.foldl f s) := by
  induction l generalizing s with
  | nil => exact steady_refl s
  | cons x l ih => exact steady_trans (h s x) (ih _)

theorem steady_setChip (s : State) (c : Nat) (f : Chip → Chip) : steady s (setChip s c f) := ⟨rfl⟩
theorem steady_setCore (s : State) (c k : Nat) (f : Core → Core) : steady s (setCore s c k f) := ⟨rfl⟩
theorem steady_countTotal (s : State) (i n : Nat) : steady s (countTotal s i n) := ⟨rfl⟩
theorem steady_countCore (s : State) (c k i n : Nat) : steady s (countCore s c k i n) := ⟨rfl⟩
theorem steady_countHbm (s : State) (c i n : Nat) : steady s (countHbm s c i n) := ⟨rfl⟩
theorem steady_countChip (s : State) (c i n : Nat) : steady s (countChip s c i n) := ⟨rfl⟩
theorem steady_setLink (s : State) (a b : Nat) (f : Link → Link) : steady s (setLink s a b f) := ⟨rfl⟩
theorem steady_countLink (s : State) (a b i n : Nat) : steady s (countLink s a b i n) := ⟨rfl⟩
theorem steady_mgmtEvent (s : State) (a b c : Nat) : steady s (mgmtEvent s a b c) := ⟨rfl⟩
theorem steady_setLane (s : State) (c l : Nat) (v : Qword) : steady s (setLane s c l v) := ⟨rfl⟩
theorem steady_loseMask (s : State) (e : Nat) : steady s (loseMask s e) := ⟨rfl⟩

theorem steady_raiseEvent (s : State) (b : Nat) : steady s (raiseEvent s b) := by
  have := congrArg (fun x : State => { x with
    chips := s.chips, mesh := s.mesh, totals := s.totals, vault := s.vault
    deferred := s.deferred, deferredLog := s.deferredLog, streams := s.streams, audited := s.audited, masks := s.masks
    loss := s.loss, tasks := s.tasks, quiet := s.quiet, ledgerWrite := s.ledgerWrite }) (raiseEvent_mild s b)
  exact ⟨this⟩
theorem steady_logFault (s : State) (a b c d : Nat) : steady s (logFault s a b c d) := by
  have := congrArg (fun x : State => { x with
    chips := s.chips, mesh := s.mesh, totals := s.totals, regs := s.regs, mgmt := s.mgmt
    deferred := s.deferred, streams := s.streams, audited := s.audited, masks := s.masks
    loss := s.loss, tasks := s.tasks, quiet := s.quiet, ledgerWrite := s.ledgerWrite }) (logFault_frame s a b c d)
  exact ⟨this⟩
theorem steady_addLedger (s : State) (k c u o e r : Nat) : steady s (addLedger s k c u o e r) := by
  have := congrArg (fun x : State => { x with
    chips := s.chips, mesh := s.mesh, totals := s.totals, regs := s.regs, mgmt := s.mgmt
    streams := s.streams, audited := s.audited, masks := s.masks, loss := s.loss, tasks := s.tasks, quiet := s.quiet }) (addLedger_frame s k c u o e r)
  exact ⟨this⟩
theorem steady_declareLoss (s : State) (c : Nat) : steady s (declareLoss s c) := by
  have := congrArg (fun x : State => { x with
    chips := s.chips, mesh := s.mesh, totals := s.totals, regs := s.regs, mgmt := s.mgmt, vault := s.vault
    deferred := s.deferred, deferredLog := s.deferredLog, streams := s.streams, audited := s.audited, masks := s.masks
    tasks := s.tasks, quiet := s.quiet, ledgerWrite := s.ledgerWrite }) (declareLoss_frame s c)
  exact ⟨this⟩
theorem steady_declareBy (s : State) (c : Nat) : steady s (declareBy s c) := by
  unfold declareBy
  split
  · exact steady_refl s
  · exact steady_declareLoss s c
theorem steady_askQuiet (s : State) : steady s (askQuiet s) := by
  unfold askQuiet
  split
  · exact ⟨rfl⟩
  · exact steady_refl s
theorem steady_loseStream (s : State) (j : Nat) : steady s (loseStream s j) := by
  have := congrArg (fun x : State => { x with
    chips := s.chips, mesh := s.mesh, totals := s.totals, regs := s.regs, mgmt := s.mgmt
    deferred := s.deferred, masks := s.masks, loss := s.loss, tasks := s.tasks, quiet := s.quiet, ledgerWrite := s.ledgerWrite }) (loseStream_frame s j)
  exact ⟨this⟩

theorem steady_fatal (s : State) (c : Nat) : steady s (fatal s c) := by
  unfold fatal
  try dsimp only
  iterate 8 all_goals first
    | with_reducible exact steady_refl _
    | with_reducible refine steady_trans ?_ (steady_countChip _ _ _ _)
    | with_reducible refine steady_trans ?_ (steady_declareBy _ _)
    | with_reducible split
    | skip

theorem steady_fenceCore (s : State) (c k o : Nat) : steady s (fenceCore s c k o) := by
  unfold fenceCore
  dsimp only
  split
  · exact steady_refl s
  · split
    · exact steady_fatal _ _
    · split
      · exact steady_trans (steady_setCore _ _ _ _) (steady_addLedger _ _ _ _ _ _ _)
      · exact steady_trans (steady_setCore _ _ _ _) (steady_trans (steady_countChip _ _ _ _)
          (steady_trans (steady_raiseEvent _ _) (steady_logFault _ _ _ _ _)))

theorem steady_dropSparing (s : State) (c k r : Nat) : steady s (dropSparing s c k r) := ⟨rfl⟩

theorem steady_spareRow (s : State) (c k r o : Nat) : steady s (spareRow s c k r o) := by
  unfold spareRow
  dsimp only
  have h := steady_dropSparing s c k r
  generalize dropSparing s c k r = u at h ⊢
  split
  · exact h
  · split
    · exact steady_trans h (steady_fenceCore _ _ _ _)
    · exact steady_trans h (steady_trans (steady_setCore _ _ _ _)
        (steady_trans (steady_countCore _ _ _ _ _) (steady_addLedger _ _ _ _ _ _ _)))

theorem steady_spareFails (s : State) (c k j o : Nat) : steady s (spareFails s c k j o) := by
  unfold spareFails
  split
  · exact steady_spareRow _ _ _ _ _
  · exact steady_setCore _ _ _ _

theorem steady_ringFails (s : State) (c o : Nat) : steady s (ringFails s c o) := by
  unfold ringFails
  split
  · exact steady_refl s
  · exact steady_trans (steady_setChip _ _ _) (steady_trans (steady_raiseEvent _ _) (steady_fenceCore _ _ _ _))

theorem steady_bistFail (s : State) (c k o : Nat) : steady s (bistFail s c k o) := by
  unfold bistFail
  try dsimp only
  iterate 8 all_goals first
    | with_reducible exact steady_refl _
    | with_reducible refine steady_trans ?_ (steady_fenceCore _ _ _ _)
    | with_reducible refine steady_trans ?_ (steady_logFault _ _ _ _ _)
    | with_reducible refine steady_trans ?_ (steady_raiseEvent _ _)
    | with_reducible refine steady_trans ?_ (steady_countCore _ _ _ _ _)
    | with_reducible split
    | skip

theorem steady_hbmUe (s : State) (c i : Nat) : steady s (hbmUe s c i) := by
  unfold hbmUe
  try dsimp only
  iterate 8 all_goals first
    | with_reducible exact steady_refl _
    | with_reducible refine steady_trans ?_ (steady_fatal _ _)
    | with_reducible refine steady_trans ?_ (steady_setChip _ _ _)
    | with_reducible refine steady_trans ?_ (steady_countHbm _ _ _ _)
    | with_reducible split
    | skip

theorem steady_sramUe (s : State) (c k r : Nat) (a p : Bool) : steady s (sramUe s c k r a p) := by
  unfold sramUe
  dsimp only
  have h : steady s (if p = true then countCore (countCore s c k 1 1) c k 6 1 else countCore s c k 1 1) := by
    split
    · exact steady_trans (steady_countCore _ _ _ _ _) (steady_countCore _ _ _ _ _)
    · exact steady_countCore _ _ _ _ _
  generalize (if p = true then countCore (countCore s c k 1 1) c k 6 1 else countCore s c k 1 1) = u at h ⊢
  split
  · exact steady_trans h (steady_fenceCore _ _ _ _)
  · split
    · exact h
    · exact steady_trans h (steady_trans (t := { u with tasks := u.tasks ++ [⟨5, c, 2048 * k + r, u.now, [], []⟩] }) ⟨rfl⟩
        (steady_askQuiet _))

theorem steady_compareWords (s : State) (c sid : Nat) (h : Bool) (f g : Dword × Dword) :
    steady s (compareWords s c sid h f g) := by
  unfold compareWords
  split
  · exact steady_refl s
  · split
    · exact steady_refl s
    · dsimp only
      have h1 (a b : Nat) : steady s (countChip (countChip s a 2 1) b 2 1) :=
        steady_trans (steady_countChip _ _ _ _) (steady_countChip _ _ _ _)
      split
      · exact h1 _ _
      · exact steady_trans (h1 _ _) (steady_trans (steady_countChip _ _ _ _) (steady_trans (steady_countChip _ _ _ _)
          (steady_trans (steady_setChip _ _ _) (steady_trans (steady_setChip _ _ _)
            (steady_trans (steady_raiseEvent _ _) (steady_askQuiet _))))))

theorem steady_copiesBad (s : State) (i h m : Nat) : steady s (copiesBad s i h m) := by
  unfold copiesBad
  dsimp only
  split
  · exact steady_hbmUe _ _ _
  · exact steady_trans (steady_hbmUe _ _ _) (steady_hbmUe _ _ _)

theorem steady_dropRecord (s : State) (a b : Nat) : steady s (dropRecord s a b) := ⟨rfl⟩

theorem steady_reseedLane (s : State) (c l : Nat) : steady s (reseedLane s c l) := by
  unfold reseedLane
  try dsimp only
  iterate 8 all_goals first
    | with_reducible exact steady_refl _
    | with_reducible refine steady_trans ?_ (steady_mgmtEvent _ _ _ _)
    | with_reducible refine steady_trans ?_ (steady_countChip _ _ _ _)
    | with_reducible refine steady_trans ?_ (steady_setLane _ _ _ _)
    | with_reducible split
    | skip

theorem steady_doLinkRecalibration (s : State) (a b : Nat) : steady s (doLinkRecalibration s a b) := by
  unfold doLinkRecalibration
  try dsimp only
  iterate 8 all_goals first
    | with_reducible exact steady_refl _
    | with_reducible refine steady_trans ?_ (steady_countLink _ _ _ _ _)
    | with_reducible refine steady_trans ?_ (steady_setLink _ _ _ _)
    | with_reducible split
    | skip

theorem steady_bistResult (s : State) (o : Nat) (r : BistResult) : steady s (bistResult s o r) := by
  unfold bistResult
  split
  · exact steady_refl s
  · split
    · exact steady_trans (steady_raiseEvent _ _) (steady_trans (steady_logFault _ _ _ _ _) (steady_fatal _ _))
    · dsimp only
      have h1 : steady s (r.failedCores.foldl (fun s k => bistFail s r.chip k o) s) := steady_foldl (fun s k => steady_bistFail s _ _ _) _ _
      generalize r.failedCores.foldl (fun s k => bistFail s r.chip k o) s = s1 at h1 ⊢
      have h2 : steady s1 (r.failedRows.foldl (fun s p => spareRow s r.chip p.1 p.2 o) s1) := steady_foldl (fun s p => steady_spareRow s _ _ _ _) _ _
      generalize r.failedRows.foldl (fun s p => spareRow s r.chip p.1 p.2 o) s1 = s2 at h2 ⊢
      have h3 : steady s2 (r.failedSpares.foldl (fun s p => spareFails s r.chip p.1 p.2 o) s2) := steady_foldl (fun s p => steady_spareFails s _ _ _ _) _ _
      generalize r.failedSpares.foldl (fun s p => spareFails s r.chip p.1 p.2 o) s2 = s3 at h3 ⊢
      refine steady_trans h1 (steady_trans h2 (steady_trans h3 ?_))
      split
      · exact steady_refl _
      · exact steady_ringFails _ _ _

theorem steady_applyIncident (s : State) (l : List Incident) (i : Incident) : steady s (applyIncident s l i) := by
  unfold applyIncident
  cases i with
  | sramCe c k => exact steady_countCore _ _ _ _ _
  | sramUe c k r => exact steady_sramUe _ _ _ _ _ _
  | contextUe c k r => exact steady_sramUe _ _ _ _ _ _
  | sfuCe c k => exact steady_countCore _ _ _ _ _
  | sfuUe c k =>
    dsimp only
    split
    · exact steady_trans (steady_countCore _ _ _ _ _) (steady_fenceCore _ _ _ _)
    · exact steady_countCore _ _ _ _ _
  | hbmCe c => exact steady_countHbm _ _ _ _
  | hbmUeModel c => exact steady_hbmUe _ _ _
  | hbmUeReserved c => exact steady_hbmUe _ _ _
  | lockCheck c sid h f g => exact steady_compareWords _ _ _ _ _ _
  | laneParity c l a => exact steady_reseedLane _ _ _
  | ingressUe c l => exact steady_hbmUe _ _ _
  | overhangFail g => exact steady_refl s
  | streamLost sid => exact steady_trans (steady_loseStream _ _) (steady_copiesBad _ _ _ _)
  | maskLost e c m => exact steady_trans (steady_loseMask _ _) (steady_copiesBad _ _ _ _)
  | windowRecordLost sid st => exact steady_trans (steady_dropRecord _ _ _) (steady_hbmUe _ _ _)

theorem steady_incidents (l : List Incident) : ∀ (s : State) (seen : List Incident), steady s (applyIncidentsFrom s seen l) := by
  induction l with
  | nil => intro s seen; exact steady_refl s
  | cons i l ih => intro s seen; exact steady_trans (steady_applyIncident s seen i) (ih _ _)

theorem steady_applyScrub (s : State) (i : Incident) : steady s (applyScrub s i) := by
  unfold applyScrub
  split
  · exact steady_countHbm _ _ _ _
  · exact steady_hbmUe _ _ _
  · exact steady_hbmUe _ _ _
  · exact steady_trans (steady_loseStream _ _) (steady_copiesBad _ _ _ _)
  · exact steady_trans (steady_loseMask _ _) (steady_copiesBad _ _ _ _)
  · exact steady_trans (steady_dropRecord _ _ _) (steady_hbmUe _ _ _)
  · exact steady_applyIncident _ _ _

theorem steady_runTask (s : State) (t : Task) : steady s (runTask s t) := by
  unfold runTask
  split
  · exact steady_foldl (fun s x => steady_applyScrub s x) _ _
  · exact steady_doLinkRecalibration _ _ _
  · exact steady_foldl (fun s i => steady_applyIncident s _ _) _ _
  · exact steady_trans (t := { s with chips := s.chips.map fun c =>
      { c with test := false, cores := c.cores.map fun k => { k with test := false } } }) ⟨rfl⟩
      (steady_foldl (fun s x => steady_bistResult s 2 x) _ _)
  · exact steady_spareRow _ _ _ _ _
  · exact steady_refl s

theorem steady_runTasks (l : List Task) (s : State) : steady s (l.foldl runTask s) := steady_foldl steady_runTask l s

end Sys2Proof.Laws
end

