-- ==== Sys2Proof/Laws/Shutdown.lean ====
section
/-! SUPPORT. A shutdown's commit, and what the rails take with them. -/

open Sys2Proof Sys2Proof.Machine

namespace Sys2Proof.Laws

/-- The commit of a shutdown where none is under way. -/
theorem commit_spec (s : State) (d kind : Nat) (a b : Bool) (h : s.shutdown = .none) :
    let u := commitShutdown s d kind a b
    u.now = s.now ∧ u.shutdown = .drain d kind a b ∧ u.regs.saving = true ∧ u.regs.eventCause.getLsbD 4 = true ∧
      u.power = { s.power with window := none } ∧
      { u with regs := s.regs, power := s.power, mgmt := s.mgmt, shutdown := s.shutdown } = s := by
  intro u
  generalize hv : ({ s with
      regs := { s.regs with saving := true }
      power := { s.power with window := none }
      mgmt := { s.mgmt with
        update := none
        banks := if s.mgmt.update.isSome then modNth s.mgmt.banks (1 - s.mgmt.activeBank) fun _ => ⟨[], false⟩
          else s.mgmt.banks }
      shutdown := .drain d kind a b } : State) = v
  have hu : u = raiseEvent v evPOWER_SAVE := by dsimp only [u]; unfold commitShutdown; rw [h]; dsimp only; rw [← hv]
  clear_value u
  subst hu
  have m := raiseEvent_mild v evPOWER_SAVE
  have r := raiseEvent_regs v evPOWER_SAVE
  have e : (raiseEvent v evPOWER_SAVE).regs.eventCause.getLsbD 4 = true := raiseEvent_sets v (by decide)
  generalize raiseEvent v evPOWER_SAVE = u at m r e ⊢
  refine ⟨?_, ?_, ?_, e, ?_, ?_⟩
  · have := congrArg State.now m; exact (show _ = _ from this).trans (by rw [← hv])
  · have := congrArg State.shutdown m; exact (show _ = _ from this).trans (by rw [← hv])
  · have := congrArg Regs.saving r; exact (show _ = _ from this).trans (by rw [← hv])
  · have := congrArg State.power m; exact (show _ = _ from this).trans (by rw [← hv])
  · exact (show _ = _ from congrArg (fun x : State => { x with regs := s.regs, power := s.power, mgmt := s.mgmt, shutdown := s.shutdown }) m).trans (by rw [← hv])

/-- A loss of input decided in service commits to shutdown on that tick. -/
theorem decideLoss_serving (s : State) (hb : s.boot = .serving) (hi : s.power.idle ≠ 4) (hs : s.shutdown = .none) :
    decideLoss s = commitShutdown { s with power := { s.power with window := none } } s.now 0 false false := by
  unfold decideLoss
  dsimp only
  split
  · next h => rw [hs] at h; cases h
  · next h => rw [hs] at h; cases h
  · rw [if_neg (by rw [hb]; decide), if_pos (by rw [hb]; simpa using hi)]

/-- Decided elsewhere, with nothing to save, it drops the rails; before the input check nothing happens. -/
theorem decideLoss_drop (s : State) (hb : s.boot ≠ .off) (hs : s.shutdown = .none) (h : s.boot ≠ .serving ∨ s.power.idle = 4) :
    decideLoss s = dropRails { s with power := { s.power with window := none } } .railsDown := by
  unfold decideLoss
  dsimp only
  split
  · next h => rw [hs] at h; cases h
  · next h => rw [hs] at h; cases h
  · rw [if_neg hb, if_neg]
    simp only [Bool.and_eq_true, decide_eq_true_eq, bne_iff_ne]
    rintro ⟨a, b⟩
    rcases h with h | h
    · exact h a
    · exact b h

end Sys2Proof.Laws
end

