-- ==== Sys2Proof/Laws/Runs.lean ====
section
/-! SUPPORT. What running a command's body leaves as it is: host writes into its areas, records of flags, the count of free
values; and lengths that output bytes have. -/

open Sys2Proof Sys2Proof.Machine

namespace Sys2Proof.Laws

/-! ## onlyRan -/

theorem onlyRan_refl (s : State) : onlyRan s s := ⟨rfl, rfl⟩

theorem onlyRan_trans {s t u : State} (h : onlyRan s t) (k : onlyRan t u) : onlyRan s u := by
  refine ⟨?_, k.2.trans h.2⟩
  have e := congrArg (fun x : State => { x with host := s.host, cmds := s.cmds, freeCtr := s.freeCtr, chips := s.chips, totals := s.totals, regs := { x.regs with flagSummary := s.regs.flagSummary, eventCause := s.regs.eventCause, msixPending := s.regs.msixPending, msi := s.regs.msi, events := s.regs.events }, mgmt := { x.mgmt with smbAlert := s.mgmt.smbAlert } }) k.1
  exact e.trans h.1

theorem onlyRan_links {s t : State} (h : onlyRan s t) : t.links = s.links := by
  have := congrArg State.links h.1; exact this

theorem onlyRan_trained {s t : State} (h : onlyRan s t) (ht : trainedLinks s ≠ []) : trainedLinks t ≠ [] := by
  have : trainedLinks t = trainedLinks s := by unfold trainedLinks linkUp; rw [onlyRan_links h]
  rw [this]; exact ht

theorem onlyRan_raiseEvent (s : State) (b : Nat) : onlyRan s (raiseEvent s b) := by
  unfold raiseEvent
  split
  · exact onlyRan_refl s
  · dsimp only
    split
    · unfold sendMsi; split <;> exact ⟨rfl, rfl⟩
    · exact ⟨rfl, rfl⟩

theorem onlyRan_latch (s : State) (b : Word) : onlyRan s (latchSummary s b) := by
  unfold latchSummary
  dsimp only
  split
  · exact onlyRan_refl s
  · exact onlyRan_trans (t := { s with regs := { s.regs with flagSummary := s.regs.flagSummary ||| b } }) ⟨rfl, rfl⟩ (onlyRan_raiseEvent _ _)

theorem map_modNth_still (l : List Core) (i : Nat) (f : Core → Core)
    (h : ∀ k, ({ f k with te := noFlags, sfu := noFlags, counters := [] } : Core) = { k with te := noFlags, sfu := noFlags, counters := [] }) :
    (modNth l i f).map (fun k => ({ k with te := noFlags, sfu := noFlags, counters := [] } : Core)) =
      l.map fun k => { k with te := noFlags, sfu := noFlags, counters := [] } := by
  induction l generalizing i with
  | nil => rfl
  | cons a l ih =>
    cases i with
    | zero => simp only [modNth, List.map_cons, h]
    | succ i => simp only [modNth, List.map_cons, ih]

theorem map_modNth_chips (l : List Chip) (i : Nat) (f : Chip → Chip) (h : ∀ k, (f k).still = k.still) :
    (modNth l i f).map Chip.still = l.map Chip.still := by
  induction l generalizing i with
  | nil => rfl
  | cons a l ih =>
    cases i with
    | zero => simp only [modNth, List.map_cons, h]
    | succ i => simp only [modNth, List.map_cons, ih]

theorem onlyRan_setCore (s : State) (c k : Nat) (f : Core → Core)
    (h : ∀ k, ({ f k with te := noFlags, sfu := noFlags, counters := [] } : Core) = { k with te := noFlags, sfu := noFlags, counters := [] }) :
    onlyRan s (setCore s c k f) := by
  refine ⟨rfl, ?_⟩
  unfold setCore setChip
  apply map_modNth_chips
  intro ch
  unfold Chip.still
  dsimp only
  rw [map_modNth_still _ _ _ h]

theorem onlyRan_recordFlag (s : State) (r : FlagRec) : onlyRan s (recordFlag s r) := by
  unfold recordFlag
  have h1 : onlyRan s (if r.flags = noFlags then s else setCore s r.chip r.core fun k =>
      if r.sfu then { k with sfu := k.sfu ||| r.flags } else { k with te := k.te ||| r.flags }) := by
    split
    · exact onlyRan_refl s
    · apply onlyRan_setCore
      intro k
      cases r.sfu <;> rfl
  dsimp only
  split
  · exact h1
  · refine onlyRan_trans h1 ?_
    unfold countCore
    refine onlyRan_trans (t := setCore _ _ _ _) (onlyRan_setCore _ _ _ _ ?_) ⟨rfl, rfl⟩
    intro k; rfl

theorem recordFlag_same (s : State) (r : FlagRec) : (recordFlag s r).host = s.host ∧ (recordFlag s r).cmds = s.cmds := by
  unfold recordFlag
  dsimp only
  split <;> split <;> exact ⟨rfl, rfl⟩

theorem onlyRan_recordFlags (s : State) (recs : List FlagRec) (clamp : Bool) :
    onlyRan s (recordFlags s recs clamp) ∧ (recordFlags s recs clamp).host = s.host ∧ (recordFlags s recs clamp).cmds = s.cmds := by
  have h : ∀ (recs : List FlagRec) (s : State), onlyRan s (recs.foldl recordFlag s) ∧
      (recs.foldl recordFlag s).host = s.host ∧ (recs.foldl recordFlag s).cmds = s.cmds := by
    intro recs
    induction recs with
    | nil => intro s; exact ⟨onlyRan_refl s, rfl, rfl⟩
    | cons r recs ih =>
      intro s
      obtain ⟨h1, h2, h3⟩ := ih (recordFlag s r)
      obtain ⟨g1, g2⟩ := recordFlag_same s r
      exact ⟨onlyRan_trans (onlyRan_recordFlag s r) h1, h2.trans g1, h3.trans g2⟩
  obtain ⟨h1, h2, h3⟩ := h recs s
  unfold recordFlags
  refine ⟨onlyRan_trans h1 (onlyRan_latch _ _), ?_, ?_⟩
  · unfold latchSummary; dsimp only; split
    · exact h2
    · rw [raiseEvent_host]; exact h2
  · unfold latchSummary; dsimp only; split
    · exact h3
    · rw [raiseEvent_cmds]; exact h3

theorem onlyRan_finish {s t : State} (h : onlyRan s t) (id st d fl : Nat) (cs : List Commit) :
    onlyRan s (finishCmd (nextFree t) id st d fl cs) := onlyRan_trans h ⟨rfl, rfl⟩

/-! ## Writes into areas, followed by records -/

/-- Writes that stay inside areas, with what they leave. -/
theorem foldWrites_ran {α : Type} (areas : List (Nat × Nat)) (addr : α → Nat) (bytes : α → List Byte) (l : List α)
    (hin : ∀ x ∈ l, ∃ p ∈ areas, p.1 ≤ addr x ∧ addr x + (bytes x).length ≤ p.1 + p.2) (s : State)
    (hw : memoriesWf s = true) (ht : trainedLinks s ≠ []) :
    sameOutside areas s (l.foldl (fun s x => hostWrite s (addr x) (bytes x)) s) ∧
    memoriesWf (l.foldl (fun s x => hostWrite s (addr x) (bytes x)) s) = true ∧
    onlyRan s (l.foldl (fun s x => hostWrite s (addr x) (bytes x)) s) ∧
    (l.foldl (fun s x => hostWrite s (addr x) (bytes x)) s).cmds = s.cmds := by
  obtain ⟨h1, h2, -, h4⟩ := foldWrites_inside areas addr bytes l hin s hw ht
  refine ⟨h1, h2, ?_, ?_⟩
  · generalize l.foldl (fun s x => hostWrite s (addr x) (bytes x)) s = U at h4
    refine ⟨?_, ?_⟩
    · exact congrArg (fun x : State => { x with host := s.host, cmds := s.cmds, freeCtr := s.freeCtr, chips := s.chips, totals := s.totals, regs := { x.regs with flagSummary := s.regs.flagSummary, eventCause := s.regs.eventCause, msixPending := s.regs.msixPending, msi := s.regs.msi, events := s.regs.events }, mgmt := { x.mgmt with smbAlert := s.mgmt.smbAlert } }) h4
    · have := congrArg State.chips h4; rw [show U.chips = s.chips from this]
  · have := congrArg State.cmds h4; exact this

/-- A command's body has run where its commands are as before and it is finished. -/
theorem ranTo_finish {s t : State} (h : t.cmds = s.cmds) (id st d fl : Nat) (cs : List Commit) :
    ranTo s (finishCmd t id st d fl cs) id st d fl cs := by
  unfold ranTo finishCmd setCmd; rw [h]

end Sys2Proof.Laws
end

