-- ==== Sys2Proof/Laws/Widths.lean ====
section
/-! SUPPORT. Lengths of output bytes: result entries, their extensions, candidate records and q-lists. -/

open Sys2Proof Sys2Proof.Machine

namespace Sys2Proof.Laws

/-! ## Sorting keeps the length -/

theorem mergeBy_length {α : Type} (lt : α → α → Bool) (n : Nat) (xs ys : List α) :
    (mergeBy lt n xs ys).length = xs.length + ys.length := by
  induction n generalizing xs ys with
  | zero => simp [mergeBy]
  | succ n ih =>
    cases xs with
    | nil => simp [mergeBy]
    | cons x xs =>
      cases ys with
      | nil => simp [mergeBy]
      | cons y ys =>
        unfold mergeBy
        split
        · simp only [List.length_cons, ih]; omega
        · simp only [List.length_cons, ih]; omega

theorem sortLevels_length {α : Type} (lt : α → α → Bool) (n : Nat) (l : List α) : (sortLevels lt n l).length = l.length := by
  induction n generalizing l with
  | zero => rfl
  | succ n ih =>
    unfold sortLevels
    split
    · rfl
    · dsimp only
      rw [mergeBy_length, ih, ih, List.length_take, List.length_drop]
      omega

theorem sortBy_length {α : Type} (lt : α → α → Bool) (l : List α) : (sortBy lt l).length = l.length := sortLevels_length _ _ _
theorem byIndex_length (l : List Entry) : (byIndex l).length = l.length := sortBy_length _ _

/-! ## Blocks of one length -/

theorem flatten_length_const (l : List (List Byte)) (n : Nat) (h : ∀ r ∈ l, r.length = n) : l.flatten.length = n * l.length := by
  induction l with
  | nil => rfl
  | cons a l ih =>
    rw [List.flatten_cons, List.length_append, h a List.mem_cons_self, ih (fun x hx => h x (List.mem_cons_of_mem _ hx)), List.length_cons, Nat.mul_succ]
    omega

theorem flatMap_length_const {α β : Type} (l : List α) (f : α → List β) (n : Nat) (h : ∀ x ∈ l, (f x).length = n) :
    (l.flatMap f).length = n * l.length := by
  induction l with
  | nil => rfl
  | cons a l ih =>
    rw [List.flatMap_cons, List.length_append, h a List.mem_cons_self, ih (fun x hx => h x (List.mem_cons_of_mem _ hx)), List.length_cons, Nat.mul_succ]
    omega

/-- One block of a flatMap over a range whose blocks have one length. -/
theorem slice_blocks (f : Nat → List Byte) (n k : Nat) (h : ∀ i, (f i).length = n) (m : Nat) (hk : k < m) :
    slice ((List.range m).flatMap f) (n * k) n = f k := by
  have e : List.range m = List.range k ++ (k :: (List.range (m - k - 1)).map fun i => k + 1 + i) := by
    apply List.ext_getElem
    · simp; omega
    · intro i h1 h2
      rw [List.getElem_range, List.getElem_append]
      simp only [List.length_range]
      split
      · rw [List.getElem_range]
      · rename_i hi
        rw [List.getElem_cons]
        split
        · omega
        · simp; omega
  rw [e, List.flatMap_append, List.flatMap_cons]
  have hl : ((List.range k).flatMap f).length = n * k := by
    rw [flatMap_length_const _ _ n (fun x _ => h x), List.length_range]
  rw [← hl]
  exact slice_exact _ _ _ _ (h k)

theorem slice_getD (l : List Byte) (a n : Nat) : slice l a n = (List.range n).map fun i => l.getD (a + i) 0#8 := by
  unfold slice
  apply List.ext_getElem
  · simp <;> omega
  · intro i h1 h2
    have hi : i < n := by simpa using h2
    simp only [List.getElem_map, List.getElem_range]
    rw [List.getElem_append]
    split
    · rename_i h
      simp only [List.length_take, List.length_drop] at h
      have : a + i < l.length := by omega
      simp [this]
    · rename_i h
      simp only [List.length_take, List.length_drop] at h
      have : l.length ≤ a + i := by omega
      simp [this]

theorem slice_slice (l : List Byte) (a n o k : Nat) (h : o + k ≤ n) : slice (slice l a n) o k = slice l (a + o) k := by
  rw [slice_getD, slice_getD l (a + o), slice_getD]
  apply List.map_congr_left
  intro i hi
  have hi := List.mem_range.1 hi
  have : o + i < n := by omega
  simp [List.getD, List.getElem?_map, List.getElem?_range this, Nat.add_assoc]

/-! ## Result entries -/

theorem altBytes_length (l : List (Nat × Word)) : (altBytes l).length = 64 := by
  unfold altBytes
  rw [flatten_length_const _ 8]
  · simp
  · intro r hr
    obtain ⟨k, -, rfl⟩ := List.mem_map.1 hr
    split <;> simp [leBytes_length]

/-- The fields of an entry up to its digests. -/
def entrySegs (v : EntryVals) : List (Nat × Nat) :=
  [(4, v.token), (4, v.logprob.toNat), (4, v.keptFrac.toNat), (4, v.leftFrac.toNat), (5, v.kept.toNat), (5, v.left.toNat),
   (1, v.rowStatus), (1, v.alts.length), (2, v.sid), (2, v.flags), (6, v.step), (2, 0), (4, v.candCount), (4, 0),
   (8, v.dNorm.toNat), (8, v.dScore.toNat), (8, v.dFinal.toNat), (8, v.dCand.toNat)]

theorem entryBytes_segs (v : EntryVals) : entryBytes v = segs (entrySegs v) ++ (altBytes v.alts ++ leBytes 16 0) := by
  unfold entryBytes entrySegs
  generalize altBytes v.alts = a
  generalize leBytes 16 0 = b
  generalize v.logprob.toNat = x1
  generalize v.dNorm.toNat = y1
  generalize v.dScore.toNat = y2
  generalize v.dFinal.toNat = y3
  generalize v.dCand.toNat = y4
  generalize v.kept.toNat = y5
  generalize v.left.toNat = y6
  generalize v.keptFrac.toNat = y7
  generalize v.leftFrac.toNat = y8
  simp only [segs, List.append_assoc, List.append_nil]

theorem entryBytes_length (v : EntryVals) : (entryBytes v).length = 160 := by
  rw [entryBytes_segs, List.length_append, segs_length, List.length_append, altBytes_length, leBytes_length]
  simp only [entrySegs, segLen]

theorem entryBytes_token (v : EntryVals) : fieldAt (entryBytes v) 0 4 = v.token % 2 ^ 32 := by
  rw [entryBytes_segs]
  exact fieldAt_segs [] (entrySegs v).tail 4 v.token 0 _ rfl

theorem entryBytes_sid (v : EntryVals) : fieldAt (entryBytes v) 28 2 = v.sid % 2 ^ 16 := by
  rw [entryBytes_segs]
  exact fieldAt_segs ((entrySegs v).take 8) ((entrySegs v).drop 9) 2 v.sid 28 _ (by simp only [entrySegs, List.take, segLen])

theorem entryBytes_step (v : EntryVals) : fieldAt (entryBytes v) 32 6 = v.step % 2 ^ 48 := by
  rw [entryBytes_segs]
  exact fieldAt_segs ((entrySegs v).take 10) ((entrySegs v).drop 11) 6 v.step 32 _ (by simp only [entrySegs, List.take, segLen])

theorem posBytes_length (p : PosRec) : (posBytes p).length = 16 := by simp [posBytes, leBytes_length]
theorem verifyExt_length (n a e s : Nat) (f : Bool) (r : List PosRec) : (verifyExt n a e s f r).length = 272 := by
  unfold verifyExt
  rw [List.length_append, flatten_length_const _ 16]
  · simp [leBytes_length]
  · intro r hr; obtain ⟨k, -, rfl⟩ := List.mem_map.1 hr; exact posBytes_length _
theorem hostDrawExt_length (w : Nat) (m : Word) (o : Nat) (b : Bool) : (hostDrawExt w m o b).length = 32 := by
  simp [hostDrawExt, leBytes_length]
theorem headBytes_length (h : HeadOut) : (headBytes h).length = 16 := by simp [headBytes, leBytes_length]
theorem lookaheadExt_length (l : List HeadOut) : (lookaheadExt l).length = 80 := by
  unfold lookaheadExt
  rw [List.length_append, flatten_length_const _ 16]
  · simp [leBytes_length]
  · intro r hr; obtain ⟨k, -, rfl⟩ := List.mem_map.1 hr; exact headBytes_length _
theorem qlistBytes_length (l : List (Nat × Word)) : (qlistBytes l).length = 8 * l.length := by
  unfold qlistBytes
  exact flatMap_length_const _ _ 8 (fun p _ => by simp [leBytes_length])

end Sys2Proof.Laws
end

