-- ==== Sys2Proof/Laws/Sort.lean ====
section
/-! SUPPORT. The stable sort permutes its list and leaves it in order; the rows that TOPK and THRESHOLD_COMPACT select. -/

open Sys2Proof Sys2Proof.Machine

namespace Sys2Proof.Laws

theorem mergeBy_perm {α : Type} (lt : α → α → Bool) (n : Nat) (xs ys : List α) : (mergeBy lt n xs ys).Perm (xs ++ ys) := by
  induction n generalizing xs ys with
  | zero => exact List.Perm.refl _
  | succ n ih =>
    cases xs with
    | nil => exact List.Perm.refl _
    | cons x xs =>
      cases ys with
      | nil => simp [mergeBy]
      | cons y ys =>
        unfold mergeBy
        split
        · exact ((ih (x :: xs) ys).cons y).trans (List.perm_middle (a := y) (l₁ := x :: xs) (l₂ := ys)).symm
        · exact (ih xs (y :: ys)).cons x

theorem sortLevels_perm {α : Type} (lt : α → α → Bool) (n : Nat) (l : List α) : (sortLevels lt n l).Perm l := by
  induction n generalizing l with
  | zero => exact List.Perm.refl _
  | succ n ih =>
    unfold sortLevels
    split
    · exact List.Perm.refl _
    · dsimp only
      refine (mergeBy_perm _ _ _ _).trans ?_
      refine ((ih _).append (ih _)).trans ?_
      rw [List.take_append_drop]

theorem sortBy_perm {α : Type} (lt : α → α → Bool) (l : List α) : (sortBy lt l).Perm l := sortLevels_perm _ _ _

/-- An order test is a strict weak order. -/
def weakOrder {α : Type} (lt : α → α → Bool) : Prop :=
  (∀ a b, lt a b = true → lt b a = false) ∧ (∀ a b c, lt a c = true → lt a b = true ∨ lt b c = true)

theorem mergeBy_sorted {α : Type} {lt : α → α → Bool} (w : weakOrder lt) (n : Nat) (xs ys : List α) (hn : xs.length + ys.length ≤ n)
    (hx : xs.Pairwise fun a b => lt b a = false) (hy : ys.Pairwise fun a b => lt b a = false) :
    (mergeBy lt n xs ys).Pairwise fun a b => lt b a = false := by
  induction n generalizing xs ys with
  | zero =>
    have h1 : xs = [] := List.eq_nil_of_length_eq_zero (by omega)
    have h2 : ys = [] := List.eq_nil_of_length_eq_zero (by omega)
    subst h1; subst h2; exact List.Pairwise.nil
  | succ n ih =>
    cases xs with
    | nil => exact hy
    | cons x xs =>
      cases ys with
      | nil => exact hx
      | cons y ys =>
        have hx' := List.pairwise_cons.1 hx
        have hy' := List.pairwise_cons.1 hy
        unfold mergeBy
        split
        · rename_i h
          refine List.pairwise_cons.2 ⟨?_, ih (x :: xs) ys (by simp only [List.length_cons] at hn ⊢; omega) hx hy'.2⟩
          intro z hz
          rcases List.mem_append.1 ((mergeBy_perm _ _ _ _).mem_iff.1 hz) with hz | hz
          · rcases List.mem_cons.1 hz with rfl | hz
            · exact w.1 _ _ h
            · cases hzy : lt z y with
              | false => rfl
              | true =>
                rcases w.2 z x y hzy with k | k
                · rw [hx'.1 z hz] at k; cases k
                · have := w.1 _ _ h; rw [this] at k; cases k
          · exact hy'.1 z hz
        · rename_i h
          have h : lt y x = false := by simpa using h
          refine List.pairwise_cons.2 ⟨?_, ih xs (y :: ys) (by simp only [List.length_cons] at hn ⊢; omega) hx'.2 hy⟩
          intro z hz
          rcases List.mem_append.1 ((mergeBy_perm _ _ _ _).mem_iff.1 hz) with hz | hz
          · exact hx'.1 z hz
          · rcases List.mem_cons.1 hz with rfl | hz
            · exact h
            · cases hzx : lt z x with
              | false => rfl
              | true =>
                rcases w.2 z y x hzx with k | k
                · rw [hy'.1 z hz] at k; cases k
                · rw [h] at k; cases k

theorem sortLevels_sorted {α : Type} {lt : α → α → Bool} (w : weakOrder lt) (n : Nat) (l : List α) (hn : l.length ≤ 2 ^ n) :
    (sortLevels lt n l).Pairwise fun a b => lt b a = false := by
  induction n generalizing l with
  | zero =>
    match l, hn with
    | [], _ => exact List.Pairwise.nil
    | [a], _ => exact List.pairwise_singleton _ _
  | succ n ih =>
    unfold sortLevels
    split
    · rename_i h
      match l, h with
      | [], _ => exact List.Pairwise.nil
      | [a], _ => exact List.pairwise_singleton _ _
    · dsimp only
      rw [Nat.pow_succ] at hn
      apply mergeBy_sorted w
      · rw [sortLevels_length, sortLevels_length, List.length_take, List.length_drop]; omega
      · exact ih _ (by rw [List.length_take]; omega)
      · exact ih _ (by rw [List.length_drop]; omega)

theorem sortBy_sorted {α : Type} {lt : α → α → Bool} (w : weakOrder lt) (l : List α) :
    (sortBy lt l).Pairwise fun a b => lt b a = false := sortLevels_sorted w _ _ (Nat.le_of_lt Nat.lt_log2_self)

theorem entryBefore_weak : weakOrder entryBefore := by
  constructor
  · intro a b h
    simp only [entryBefore, decide_eq_true_eq, decide_eq_false_iff_not] at h ⊢
    omega
  · intro a b c h
    simp only [entryBefore, decide_eq_true_eq] at h ⊢
    omega

end Sys2Proof.Laws
end

