-- ==== Sys2Proof/Laws/StepResults.lean ====
section
/-! SUPPORT. What a step command leaves for one stream: the shape of its entry, its further bytes, and what it stages. -/

open Sys2Proof Sys2Proof.Machine

namespace Sys2Proof.Laws

/-- What a stream's result stages for its token (R65, R208, R218). -/
def stages (op n : Nat) (t : Nat) (toks : List Nat) (adv : Nat) (ring : Option Qword) : Prop :=
  if op = 0x32 then 1 ≤ adv ∧ adv ≤ n + 1 ∧ toks.length = adv ∧ toks.getLast? = some t ∧ ring = none
  else if op = 0x34 then adv = 1 ∧ toks = [] ∧ ring = none
  else adv = 1 ∧ toks = [t]

/-- The shape of a stream's result. -/
def resultOk (op sid step n cap : Nat) (r : StreamResult) : Prop :=
  ∃ v ext, r.entry = entryBytes v ++ ext ∧ v.sid = sid ∧ v.step = step ∧ 160 + ext.length = entryStride op ∧
    r.aux.length ≤ 16 * cap ∧ (op ≠ 0x34 → r.aux = []) ∧
    ((v.token = noToken ∧ r.advance = 0) ∨ stages op n v.token r.tokens r.advance r.ring)

theorem stepResult_shape (d : DrawCtx) (rc : RunCfg) (out : RowOut) (ring : Qword) :
    ∃ v, (stepResult d rc out ring).entry = entryBytes v ∧ v.sid = d.sid ∧ v.step = d.step ∧ (stepResult d rc out ring).aux = [] ∧
      ((v.token = noToken ∧ (stepResult d rc out ring).advance = 0) ∨
        ((stepResult d rc out ring).advance = 1 ∧ (stepResult d rc out ring).tokens = [v.token])) := by
  unfold stepResult
  split
  · exact ⟨_, rfl, rfl, rfl, rfl, .inl ⟨rfl, rfl⟩⟩
  · split
    rename_i token recs ring' _
    exact ⟨(tokenVals d out token).1, rfl, rfl, rfl, rfl, .inr ⟨rfl, rfl⟩⟩

theorem stepResult_ok (op : Nat) (hop : op = 0x30 ∨ op = 0x31) (n cap : Nat) (d : DrawCtx) (rc : RunCfg) (out : RowOut) (ring : Qword) :
    resultOk op d.sid d.step n cap (stepResult d rc out ring) := by
  have hs : 160 + ([] : List Byte).length = entryStride op := by rcases hop with rfl | rfl <;> rfl
  have h34 : op ≠ 0x34 := by rcases hop with rfl | rfl <;> decide
  have h32 : op ≠ 0x32 := by rcases hop with rfl | rfl <;> decide
  obtain ⟨v, h1, h2, h3, h4, h5⟩ := stepResult_shape d rc out ring
  refine ⟨v, [], h1.trans (List.append_nil _).symm, h2, h3, hs, by rw [h4]; exact Nat.zero_le _, fun _ => h4, ?_⟩
  rcases h5 with h5 | h5
  · exact .inl h5
  · refine .inr ?_
    unfold stages
    rw [if_neg h32, if_neg h34]
    exact h5

theorem hostDraw_ok (n k cap : Nat) (d : DrawCtx) (rc : RunCfg) (out : RowOut) :
    resultOk 0x34 d.sid d.step n cap (hostDrawResult d rc out k cap) := by
  unfold hostDrawResult
  dsimp only
  split
  · exact ⟨_, _, rfl, rfl, rfl, by rw [hostDrawExt_length]; rfl, Nat.zero_le _, fun h => absurd rfl h, .inl ⟨rfl, rfl⟩⟩
  · refine ⟨(tokenVals d out (greedyToken out)).1, _, rfl, rfl, rfl, by rw [hostDrawExt_length]; rfl, ?_, fun h => absurd rfl h, .inr ?_⟩
    · dsimp only
      rw [flatten_length_const _ 16]
      · have h := byIndex_length (out.sel.take cap)
        have h2 := List.length_take_le cap out.sel
        simp only [List.length_map]
        omega
      · intro r hr
        obtain ⟨x, hx, rfl⟩ := List.mem_map.1 hr
        obtain ⟨e, -, rfl⟩ := List.mem_map.1 hx
        simp [candRecord, leBytes_length]
    · unfold stages
      exact ⟨rfl, rfl, rfl⟩

/-- The walk over rows, one more than the drafts: where it stops lies among the rows; with a token there it emitted one, and
never more than the rows. -/
theorem verifyWalk_spec (d : DrawCtx) (rc : RunCfg) (rows : List RowOut) (drafts : List Draft) (j : Nat)
    (h : rows.length = drafts.length + 1) :
    let w := verifyWalk d rc j rows drafts
    j ≤ w.stop ∧ w.tokens.length ≤ rows.length ∧ (rowHasToken (nth rowBlank rows (w.stop - j)) = true → w.tokens ≠ []) := by
  induction rows generalizing drafts j with
  | nil => simp at h
  | cons out rest ih =>
    unfold verifyWalk
    dsimp only
    split
    · rename_i hn
      refine ⟨Nat.le_refl _, Nat.zero_le _, fun ht => ?_⟩
      rw [Nat.sub_self] at ht
      have ht : rowHasToken out = true := ht
      rw [ht] at hn; cases hn
    · cases drafts with
      | nil =>
        exact ⟨Nat.le_refl _, by simp, fun _ => by simp⟩
      | cons dr drs =>
        have hl : rest.length = drs.length + 1 := by simpa using h
        obtain ⟨i1, i2, i3⟩ := ih drs (j + 1) hl
        dsimp only
        generalize (if isGreedy d.cfg = true then decide (greedyToken out = dr.token) else _ : Bool) = ok
        cases ok with
        | true => exact ⟨by simp only [if_true]; omega, by simp only [if_true, List.length_cons]; omega, fun _ => by simp⟩
        | false => exact ⟨by simp, by simp, fun _ => by simp⟩

theorem verify_ok (cap : Nat) (d : DrawCtx) (rc : RunCfg) (outs : List RowOut) (drafts : List Draft)
    (h : outs.length = drafts.length + 1) :
    resultOk 0x32 d.sid d.step drafts.length cap (verifyResult d rc outs drafts) := by
  obtain ⟨-, w2, w3⟩ := verifyWalk_spec d rc outs drafts 0 h
  unfold verifyResult
  dsimp only
  generalize verifyWalk d rc 0 outs drafts = w at w2 w3
  rw [Nat.sub_zero] at w3
  split
  · exact ⟨_, _, rfl, rfl, rfl, by rw [verifyExt_length]; rfl, Nat.zero_le _, fun _ => rfl, .inl ⟨rfl, rfl⟩⟩
  · rename_i hn
    have hne : w.tokens ≠ [] := w3 (by simpa using hn)
    refine ⟨{ (tokenVals d (nth rowBlank outs w.stop) (w.tokens.getLast?.getD noToken)).1 with rowStatus := if w.truncSeen then 0x13 else 0 }, _, rfl, rfl, rfl, by rw [verifyExt_length]; rfl, Nat.zero_le _, fun _ => rfl, .inr ?_⟩
    unfold stages
    rw [if_pos rfl]
    refine ⟨List.length_pos_iff.2 hne, by dsimp only; omega, rfl, ?_, rfl⟩
    show w.tokens.getLast? = some (w.tokens.getLast?.getD noToken)
    rw [List.getLast?_eq_some_getLast hne]; rfl

theorem headQList_length (md : Modes) (out : RowOut) (t : Nat) : (headQList md out t).1.length ≤ 64 := by
  unfold headQList
  dsimp only
  rw [List.length_map, List.length_map, byIndex_length]
  split
  · exact List.length_take_le _ _
  · rw [List.length_append]
    have h1 : ((out.sel.take 64).take 63).length ≤ 63 := List.length_take_le _ _
    have h2 : ((out.sel.find? fun e => e.idx == t).toList).length ≤ 1 := by
      cases out.sel.find? fun e => e.idx == t <;> simp
    omega

theorem headRun_qlist (d : DrawCtx) (rc : RunCfg) (m : ScoreModel) (h : Nat) (v : CodedRow) : (headRun d rc m h v).qlist.length ≤ 64 := by
  unfold headRun
  dsimp only
  split
  · exact Nat.zero_le _
  · exact headQList_length _ _ _

theorem lookahead_ok (n cap : Nat) (d : DrawCtx) (rc : RunCfg) (m : ScoreModel) (hc : StreamCfg) (rope : List Word)
    (maps : List (List (List Byte))) (pos : Nat) (out : RowOut) :
    resultOk 0x33 d.sid d.step n cap (lookaheadResult d rc m hc rope maps pos out).1 ∧
    (lookaheadResult d rc m hc rope maps pos out).2.length ≤ maps.length ∧
    ∀ q ∈ (lookaheadResult d rc m hc rope maps pos out).2, q.length ≤ 512 := by
  obtain ⟨v, h1, h2, h3, h4, h5⟩ := stepResult_shape d rc out 0#128
  unfold lookaheadResult
  dsimp only
  split
  · refine ⟨⟨v, lookaheadExt [], by dsimp only; rw [h1], h2, h3, by rw [lookaheadExt_length]; rfl, by dsimp only; rw [h4]; exact Nat.zero_le _, fun _ => h4, ?_⟩, Nat.zero_le _, fun q hq => by cases hq⟩
    rcases h5 with h5 | h5
    · exact .inl h5
    · exact .inr h5
  · refine ⟨⟨v, lookaheadExt _, by dsimp only; rw [h1], h2, h3, by rw [lookaheadExt_length]; rfl, by dsimp only; rw [h4]; exact Nat.zero_le _, fun _ => h4, ?_⟩, by simp, ?_⟩
    · rcases h5 with h5 | h5
      · exact .inl h5
      · exact .inr h5
    · intro q hq
      obtain ⟨x, hx, rfl⟩ := List.mem_map.1 hq
      obtain ⟨p, -, rfl⟩ := List.mem_map.1 hx
      rw [qlistBytes_length]
      have := headRun_qlist { d with cfg := hc } rc m (p.1 + 1) (headVector hc rc m rope p.2 out.normVec (pos + (p.1 + 1))).1
      show 8 * (headRun { d with cfg := hc } rc m (p.1 + 1) (headVector hc rc m rope p.2 out.normVec (pos + (p.1 + 1))).1).qlist.length ≤ 512
      omega

theorem emptyExt_length (op n : Nat) (w : Word) (o : Nat) (hop : op = 0x30 ∨ op = 0x31 ∨ op = 0x32 ∨ op = 0x33 ∨ op = 0x34) :
    160 + (emptyExt op n w o).length = entryStride op := by
  rcases hop with rfl | rfl | rfl | rfl | rfl
  · rfl
  · rfl
  · show 160 + (verifyExt _ _ _ _ _ _).length = _; rw [verifyExt_length]; rfl
  · show 160 + (lookaheadExt _).length = _; rw [lookaheadExt_length]; rfl
  · show 160 + (hostDrawExt _ _ _ _).length = _; rw [hostDrawExt_length]; rfl

/-- Stages 1 to 13 of a stream, with no second mismatch. -/
theorem stepOne_ok (s : State) (c : Cmd) (v : StepEnv) (k : Nat) (e : List Byte) (op : Nat) (hp : pktOp c = op)
    (hop : op = 0x30 ∨ op = 0x31 ∨ op = 0x32 ∨ op = 0x33 ∨ op = 0x34) (hd : v.diverged = []) (hm : op = 0x33 → v.model ≠ none) :
    resultOk op (fieldAt e 0 2) (steppedStream s c (fieldAt e 0 2)).step (fieldAt e 3 1) (pkt c 0x38 4) (stepOne s c v k e).1 ∧
    (stepOne s c v k e).2.length ≤ pkt c 0x2A 1 ∧ (∀ q ∈ (stepOne s c v k e).2, q.length ≤ 512) ∧
    (op ≠ 0x33 → (stepOne s c v k e).2 = []) := by
  have hc : v.diverged.contains (fieldAt e 0 2) = false := by rw [hd]; rfl
  have hn : (entryDrafts s e).length = fieldAt e 3 1 := by simp [entryDrafts]
  unfold stepOne
  dsimp only
  rw [hp]
  generalize mainRow s c v k e = out
  generalize entryRun s c v k e = rc
  generalize steppedStream s c (fieldAt e 0 2) = st
  generalize entryDrafts s e = drafts at hn
  generalize rowCfgOf s v st (specInForce st.maskSpec (fieldAt e 0x10 8)) (fieldAt e 0x18 8) = cfg
  rw [hc]
  simp only [Bool.false_and, Bool.false_eq_true, if_false]
  generalize hdc : DrawCtx.mk (fieldAt e 0 2) st.step st.seed cfg (pkt c 0x28 1) (runBits c false) = d
  have d1 : d.sid = fieldAt e 0 2 := by rw [← hdc]
  have d2 : d.step = st.step := by rw [← hdc]
  rw [← d2, ← d1]
  split
  · refine ⟨⟨refusedVals d.sid d.step v.model.isNone, _, rfl, rfl, rfl, emptyExt_length _ _ _ _ hop, Nat.zero_le _, fun _ => rfl, .inl ⟨rfl, rfl⟩⟩, Nat.zero_le _, fun q hq => (by cases hq), fun _ => rfl⟩
  · rcases hop with rfl | rfl | rfl | rfl | rfl
    · exact ⟨stepResult_ok 0x30 (.inl rfl) _ _ _ _ _ _, Nat.zero_le _, fun q hq => (by cases hq), fun _ => rfl⟩
    · exact ⟨stepResult_ok 0x31 (.inr rfl) _ _ _ _ _ _, Nat.zero_le _, fun q hq => (by cases hq), fun _ => rfl⟩
    · refine ⟨?_, Nat.zero_le _, fun q hq => (by cases hq), fun _ => rfl⟩
      rw [← hn]
      exact verify_ok _ _ _ _ _ (by rw [List.length_map, List.length_range, hn])
    · cases hv : v.model with
      | none => exact absurd hv (hm rfl)
      | some m =>
        obtain ⟨h1, h2, h3⟩ := lookahead_ok (fieldAt e 3 1) (pkt c 0x38 4) d rc (scoreModel m)
          { cfg with mask := if bit (pkt c 0x29 1) 0 then cfg.mask else none }
          m.rope (m.heads.take (pkt c 0x2A 1)) (fieldAt e 4 4) out
        exact ⟨h1, Nat.le_trans h2 (List.length_take_le _ _), h3, fun h => absurd rfl h⟩
    · exact ⟨hostDraw_ok _ _ _ _ _ _, Nat.zero_le _, fun q hq => (by cases hq), fun _ => rfl⟩

/-! ## The final scores of a row -/

/-- The elements of a row by its input, their final scores in index order. -/
def finalRow (sc : StreamCfg) (rc : RunCfg) : RowInput → List Word
  | .hidden m v =>
    let nv := (normStage sc rc m v).1
    let x := operandVec sc.md m.fmt m.block nv
    (modelElems sc rc m x.1 x.2).map fun e => e.final
  | .scores f codes => (scoreElems sc rc f codes).map fun e => e.final

/-- The cut leaves the final scores as they are, however a row ends. -/
theorem runRow_finals (sc : StreamCfg) (rc : RunCfg) (inp : RowInput) : (runRow sc rc inp).finals = finalRow sc rc inp := by
  unfold runRow
  cases inp <;>
  · dsimp only [finalRow]
    split
    · rfl
    · split
      · rfl
      · split <;> rfl

end Sys2Proof.Laws
end

