-- ==== Sys2Proof/Laws/StepRuns.lean ====
section
/-! SUPPORT. Lists of host writes and what they read back as; a step command's writes, its commits, and the run of its rows. -/

open Sys2Proof Sys2Proof.Machine

namespace Sys2Proof.Laws

/-- A list of writes. -/
def writeAll (s : State) (ws : List (Nat × List Byte)) : State := ws.foldl (fun s p => hostWrite s p.1 p.2) s

theorem writeAll_append (s : State) (a b : List (Nat × List Byte)) : writeAll s (a ++ b) = writeAll (writeAll s a) b := List.foldl_append

theorem writeAll_ran (areas : List (Nat × Nat)) (ws : List (Nat × List Byte))
    (hin : ∀ x ∈ ws, ∃ p ∈ areas, p.1 ≤ x.1 ∧ x.1 + x.2.length ≤ p.1 + p.2) (s : State)
    (hw : memoriesWf s = true) (ht : trainedLinks s ≠ []) :
    sameOutside areas s (writeAll s ws) ∧ memoriesWf (writeAll s ws) = true ∧ onlyRan s (writeAll s ws) ∧ (writeAll s ws).cmds = s.cmds :=
  foldWrites_ran areas (fun p : Nat × List Byte => p.1) (fun p => p.2) ws hin s hw ht

/-- A block that no other write touches is read back. -/
theorem writeAll_read (ws : List (Nat × List Byte)) (p : Nat × List Byte) (hp : p ∈ ws)
    (hd : ∀ q ∈ ws, q = p ∨ q.1 + q.2.length ≤ p.1 ∨ p.1 + p.2.length ≤ q.1) (s : State)
    (hw : memoriesWf s = true) (ht : trainedLinks s ≠ []) :
    memBytes (writeAll s ws).host p.1 p.2.length = p.2 := by
  induction ws generalizing s with
  | nil => cases hp
  | cons w ws ih =>
    have hstep := writeAll_ran [(w.1, w.2.length)] [w] (fun x hx => by rw [List.mem_singleton.1 hx]; exact ⟨_, List.mem_singleton.2 rfl, Nat.le_refl _, Nat.le_refl _⟩) s hw ht
    have e : writeAll s (w :: ws) = writeAll (writeAll s [w]) ws := rfl
    rw [e]
    have hw1 := hstep.2.1
    have ht1 := onlyRan_trained hstep.2.2.1 ht
    by_cases hin : p ∈ ws
    · exact ih hin (fun q hq => hd q (List.mem_cons_of_mem _ hq)) _ hw1 ht1
    · have hpw : p = w := by
        rcases List.mem_cons.1 hp with h | h
        · exact h
        · exact absurd h hin
      subst hpw
      have hs := (writeAll_ran (ws.map fun q => (q.1, q.2.length)) ws (fun x hx => ⟨(x.1, x.2.length), List.mem_map.2 ⟨x, hx, rfl⟩, Nat.le_refl _, Nat.le_refl _⟩) (writeAll s [p]) hw1 ht1).1
      have h1 : memBytes (writeAll (writeAll s [p]) ws).host p.1 p.2.length = memBytes (writeAll s [p]).host p.1 p.2.length := by
        unfold memBytes
        apply List.map_congr_left
        intro i hi
        have hi := List.mem_range.1 hi
        apply hs
        intro q hq
        obtain ⟨x, hx, rfl⟩ := List.mem_map.1 hq
        dsimp only
        rcases hd x (List.mem_cons_of_mem _ hx) with h | h | h
        · exact absurd (h ▸ hx) hin
        · exact .inr (by omega)
        · exact .inl (by omega)
      rw [h1]
      have : (writeAll s [p]).host = memStore s.host p.1 p.2 := by
        show (hostWrite s p.1 p.2).host = _
        rw [hostWrite_trained ht]
      rw [this]
      simp only [memoriesWf, Bool.and_eq_true] at hw
      exact memBytes_store hw.1.1 _ _

/-- What a stream's result writes. -/
def stepWrites (c : Cmd) (k : Nat) (r : StreamResult) (ql : List (List Byte)) : List (Nat × List Byte) :=
  (pkt c 0x20 8 + k * entryStride (pktOp c), r.entry) ::
    ((if pktOp c = 0x34 then [(pkt c 0x30 8 + k * pkt c 0x38 4 * 16, r.aux)] else []) ++
      (withIndex ql).map fun p => (pkt c 0x30 8 + (4 * k + p.1) * 512, p.2))

theorem writeStep_eq (s : State) (c : Cmd) (k : Nat) (r : StreamResult) (ql : List (List Byte)) :
    writeStep s c k r ql = writeAll s (stepWrites c k r ql) := by
  unfold writeStep stepWrites writeAll
  dsimp only
  rw [List.foldl_cons, List.foldl_append, List.foldl_map]
  split <;> rfl

theorem withIndex_range {α : Type} (n : Nat) (f : Nat → α) : withIndex ((List.range n).map f) = (List.range n).map fun k => (k, f k) := by
  unfold withIndex
  apply List.ext_getElem
  · simp
  · intro i h1 h2; simp

theorem foldWriteSteps (c : Cmd) (R : Nat → StreamResult × List (List Byte)) (l : List Nat) (s : State) :
    l.foldl (fun s k => writeStep s c k (R k).1 (R k).2) s = writeAll s (l.flatMap fun k => stepWrites c k (R k).1 (R k).2) := by
  induction l generalizing s with
  | nil => rfl
  | cons k l ih =>
    rw [List.foldl_cons, ih, List.flatMap_cons, writeAll_append, writeStep_eq]

theorem outAreas_step (s : State) (c : Cmd) (h : isStepOp (pktOp c) = true) : outAreas s c =
    (pkt c 0x20 8, pkt c 2 2 * entryStride (pktOp c)) ::
      (if pktOp c = 0x33 then [(pkt c 0x30 8, pkt c 2 2 * 2048)] else if pktOp c = 0x34 then [(pkt c 0x30 8, pkt c 2 2 * pkt c 0x38 4 * 16)] else []) := by
  unfold outAreas
  dsimp only
  rw [if_pos h]

theorem mul_le_block {n k w : Nat} (h : k < n) : k * w + w ≤ n * w := by
  have : (k + 1) * w ≤ n * w := Nat.mul_le_mul_right _ h
  rw [Nat.succ_mul] at this; exact this

/-- A stream's writes lie in the command's areas. -/
theorem stepWrites_inside (s : State) (c : Cmd) (op n k sid step nd : Nat) (hp : pktOp c = op) (hn : pkt c 2 2 = n)
    (hop : op = 0x30 ∨ op = 0x31 ∨ op = 0x32 ∨ op = 0x33 ∨ op = 0x34) (hk : k < n) (hH : pkt c 0x2A 1 ≤ 4)
    (r : StreamResult) (ql : List (List Byte)) (hr : resultOk op sid step nd (pkt c 0x38 4) r)
    (h1 : ql.length ≤ pkt c 0x2A 1) (h2 : ∀ q ∈ ql, q.length ≤ 512) (h3 : op ≠ 0x33 → ql = []) :
    ∀ x ∈ stepWrites c k r ql, ∃ p ∈ outAreas s c, p.1 ≤ x.1 ∧ x.1 + x.2.length ≤ p.1 + p.2 := by
  have hstep : isStepOp (pktOp c) = true := by rw [hp]; rcases hop with rfl | rfl | rfl | rfl | rfl <;> rfl
  obtain ⟨v, ext, e1, -, -, e4, e5, -, -⟩ := hr
  have hlen : r.entry.length = entryStride op := by rw [e1, List.length_append, entryBytes_length]; exact e4
  rw [outAreas_step s c hstep, hn, hp]
  intro x hx
  unfold stepWrites at hx
  rw [hp] at hx
  rcases List.mem_cons.1 hx with rfl | hx
  · refine ⟨_, List.mem_cons_self, Nat.le_add_right _ _, ?_⟩
    dsimp only
    rw [hlen, Nat.add_assoc]
    exact Nat.add_le_add_left (mul_le_block hk) _
  · rcases List.mem_append.1 hx with hx | hx
    · split at hx
      · rename_i h34
        rw [List.mem_singleton.1 hx]
        have h33 : ¬ op = 0x33 := by rw [h34]; decide
        refine ⟨_, List.mem_cons_of_mem _ (by rw [if_neg h33, if_pos h34]; exact List.mem_singleton.2 rfl), Nat.le_add_right _ _, ?_⟩
        dsimp only
        have hb := mul_le_block (w := pkt c 0x38 4 * 16) hk
        rw [← Nat.mul_assoc, ← Nat.mul_assoc] at hb
        omega
      · cases hx
    · obtain ⟨p, hp2, rfl⟩ := List.mem_map.1 hx
      by_cases h33 : op = 0x33
      · refine ⟨_, List.mem_cons_of_mem _ (by rw [if_pos h33]; exact List.mem_singleton.2 rfl), Nat.le_add_right _ _, ?_⟩
        have hz := List.of_mem_zip (show (p.1, p.2) ∈ (List.range ql.length).zip ql from hp2)
        have hi := List.mem_range.1 hz.1
        have hq := h2 p.2 hz.2
        dsimp only
        omega
      · rw [h3 h33] at hp2; cases hp2

/-- An entry is apart from every other write. -/
theorem entry_apart (s : State) (c : Cmd) (op n : Nat) (hp : pktOp c = op) (hn : pkt c 2 2 = n)
    (hop : op = 0x30 ∨ op = 0x31 ∨ op = 0x32 ∨ op = 0x33 ∨ op = 0x34) (hH : pkt c 0x2A 1 ≤ 4)
    (hap : (outAreas s c).Pairwise fun p q => p.1 + p.2 ≤ q.1 ∨ q.1 + q.2 ≤ p.1)
    (R : Nat → StreamResult × List (List Byte)) (sid step nd : Nat → Nat)
    (hR : ∀ k, k < n → resultOk op (sid k) (step k) (nd k) (pkt c 0x38 4) (R k).1 ∧ (R k).2.length ≤ pkt c 0x2A 1 ∧
      (∀ q ∈ (R k).2, q.length ≤ 512) ∧ (op ≠ 0x33 → (R k).2 = [])) (j : Nat) (hj : j < n) :
    ∀ q ∈ (List.range n).flatMap fun k => stepWrites c k (R k).1 (R k).2,
      q = (pkt c 0x20 8 + j * entryStride op, (R j).1.entry) ∨ q.1 + q.2.length ≤ pkt c 0x20 8 + j * entryStride op ∨
        pkt c 0x20 8 + j * entryStride op + (R j).1.entry.length ≤ q.1 := by
  have hstep : isStepOp (pktOp c) = true := by rw [hp]; rcases hop with rfl | rfl | rfl | rfl | rfl <;> rfl
  have hlen : ∀ k, k < n → (R k).1.entry.length = entryStride op := by
    intro k hk
    obtain ⟨v, ext, e1, -, -, e4, -, -, -⟩ := (hR k hk).1
    rw [e1, List.length_append, entryBytes_length]; exact e4
  intro q hq
  obtain ⟨k, hk, hq⟩ := List.mem_flatMap.1 hq
  have hk := List.mem_range.1 hk
  have hin := stepWrites_inside s c op n k (sid k) (step k) (nd k) hp hn hop hk hH (R k).1 (R k).2 (hR k hk).1 (hR k hk).2.1 (hR k hk).2.2.1 (hR k hk).2.2.2 q hq
  unfold stepWrites at hq
  rw [hp] at hq
  rcases List.mem_cons.1 hq with rfl | hq
  · dsimp only
    rw [hlen k hk, hlen j hj]
    rcases Nat.lt_trichotomy k j with h | h | h
    · right; left
      have := mul_le_block (w := entryStride op) h
      omega
    · left; rw [h]
    · right; right
      have := mul_le_block (w := entryStride op) h
      omega
  · right
    have hb := mul_le_block (w := entryStride op) hj
    rw [hlen j hj]
    rw [outAreas_step s c hstep, hn, hp] at hap hin
    rw [List.pairwise_cons] at hap
    -- the write lies in the second area
    have haux : ∃ p ∈ (if op = 0x33 then [(pkt c 0x30 8, n * 2048)] else if op = 0x34 then [(pkt c 0x30 8, n * pkt c 0x38 4 * 16)] else [] : List (Nat × Nat)), p.1 ≤ q.1 ∧ q.1 + q.2.length ≤ p.1 + p.2 := by
      rcases List.mem_append.1 hq with hq | hq
      · split at hq
        · rename_i h34
          rw [List.mem_singleton.1 hq]
          have h33 : ¬ op = 0x33 := by rw [h34]; decide
          rw [if_neg h33, if_pos h34]
          obtain ⟨v, ext, -, -, -, -, e5, -, -⟩ := (hR k hk).1
          refine ⟨_, List.mem_singleton.2 rfl, Nat.le_add_right _ _, ?_⟩
          dsimp only
          have hb := mul_le_block (w := pkt c 0x38 4 * 16) hk
          rw [← Nat.mul_assoc, ← Nat.mul_assoc] at hb
          omega
        · cases hq
      · obtain ⟨p, hp2, rfl⟩ := List.mem_map.1 hq
        by_cases h33 : op = 0x33
        · rw [if_pos h33]
          refine ⟨_, List.mem_singleton.2 rfl, Nat.le_add_right _ _, ?_⟩
          have hz := List.of_mem_zip (show (p.1, p.2) ∈ (List.range (R k).2.length).zip (R k).2 from hp2)
          have hi := List.mem_range.1 hz.1
          have hq := (hR k hk).2.2.1 p.2 hz.2
          have := (hR k hk).2.1
          dsimp only
          omega
        · rw [(hR k hk).2.2.2 h33] at hp2; cases hp2
    obtain ⟨p, hp2, a1, a2⟩ := haux
    rcases hap.1 p hp2 with h | h
    · right; dsimp only at h; omega
    · left; dsimp only at h; omega

/-- What a stream's commits are. -/
theorem stepCommits_spec (s : State) (c : Cmd) (L : Nat) (e : List Byte) (r : StreamResult) (sid : Nat) (hs : fieldAt e 0 2 = sid) :
    (∀ x ∈ stepCommits s c L e r, match x with
      | .step j _ _ _ _ => j = sid
      | .audit j _ _ _ _ _ _ _ _ _ _ _ => j = sid
      | .clearAudit j => j = sid
      | _ => False) ∧
    (r.advance = 0 → ∀ base toks adv ring, Commit.step sid base toks adv ring ∉ stepCommits s c L e r) ∧
    (r.advance ≠ 0 → Commit.step sid (steppedStream s c sid).step r.tokens r.advance r.ring ∈ stepCommits s c L e r) := by
  subst hs
  unfold stepCommits auditCommit
  dsimp only
  refine ⟨?_, ?_, ?_⟩
  · intro x hx
    rcases List.mem_append.1 hx with hx | hx
    · rcases List.mem_append.1 hx with hx | hx
      · split at hx
        · rw [List.mem_singleton.1 hx]
        · cases hx
      · split at hx
        · rw [List.mem_singleton.1 hx]
        · cases hx
    · split at hx
      · cases hx
      · rw [List.mem_singleton.1 hx]
  · intro h0 base toks adv ring hx
    rw [if_pos h0, List.append_nil] at hx
    rcases List.mem_append.1 hx with hx | hx
    · split at hx
      · cases List.mem_singleton.1 hx
      · cases hx
    · split at hx
      · cases List.mem_singleton.1 hx
      · cases hx
  · intro h0
    rw [if_neg h0]
    exact List.mem_append_right _ (List.mem_singleton.2 rfl)

theorem runSteps_spec (s : State) (c : Cmd) (b : List Byte) (v : StepEnv) (flags : Nat) (op : Nat) (hp : pktOp c = op)
    (hop : op = 0x30 ∨ op = 0x31 ∨ op = 0x32 ∨ op = 0x33 ∨ op = 0x34) (hH : pkt c 0x2A 1 ≤ 4) (hd : v.diverged = [])
    (hm : op = 0x33 → v.model ≠ none) (hw : memoriesWf s = true) (ht : trainedLinks s ≠ [])
    (hap : (outAreas s c).Pairwise fun p q => p.1 + p.2 ≤ q.1 ∨ q.1 + q.2 ≤ p.1) :
    ∃ (u : State) (detail fl : Nat) (cs : Nat → List Commit),
      runSteps s c b v flags [] = u ∧ ranTo s u c.id 0 detail fl ((List.range (pkt c 2 2)).flatMap cs) ∧ detail ≤ pkt c 2 2 ∧
      sameOutside (outAreas s c) s u ∧ onlyRan s u ∧
      ∀ k, k < pkt c 2 2 →
        let e := hostBytes u (pkt c 0x20 8 + k * entryStride op) 160
        let sid := fieldAt (entryAt b k) 0 2
        fieldAt e 0x1C 2 = sid % 2 ^ 16 ∧ fieldAt e 0x20 6 = (steppedStream s c sid).step % 2 ^ 48 ∧
        (∀ x ∈ cs k, match x with
          | .step j _ _ _ _ => j = sid
          | .audit j _ _ _ _ _ _ _ _ _ _ _ => j = sid
          | .clearAudit j => j = sid
          | _ => False) ∧
        ((fieldAt e 0 4 = 0xFFFFFFFF ∧ ∀ base toks adv ring, Commit.step sid base toks adv ring ∉ cs k) ∨
          ∃ t toks adv ring, Commit.step sid (steppedStream s c sid).step toks adv ring ∈ cs k ∧ fieldAt e 0 4 = t % 2 ^ 32 ∧
            stages op (fieldAt (entryAt b k) 3 1) t toks adv ring) := by
  generalize hn : pkt c 2 2 = n
  generalize hRd : (fun k => stepOne s c v k (entryAt b k)) = R
  have hRk : ∀ k, R k = stepOne s c v k (entryAt b k) := by intro k; rw [← hRd]
  have hR : ∀ k, k < n → resultOk op (fieldAt (entryAt b k) 0 2) (steppedStream s c (fieldAt (entryAt b k) 0 2)).step (fieldAt (entryAt b k) 3 1) (pkt c 0x38 4) (R k).1 ∧
      (R k).2.length ≤ pkt c 0x2A 1 ∧ (∀ q ∈ (R k).2, q.length ≤ 512) ∧ (op ≠ 0x33 → (R k).2 = []) := by
    intro k _; rw [hRk]; exact stepOne_ok s c v k _ op hp hop hd hm
  generalize hws : (List.range n).flatMap (fun k => stepWrites c k (R k).1 (R k).2) = ws
  have hin : ∀ x ∈ ws, ∃ p ∈ outAreas s c, p.1 ≤ x.1 ∧ x.1 + x.2.length ≤ p.1 + p.2 := by
    intro x hx
    rw [← hws] at hx
    obtain ⟨k, hk, hx⟩ := List.mem_flatMap.1 hx
    have hk := List.mem_range.1 hk
    exact stepWrites_inside s c op n k _ _ _ hp hn hop hk hH _ _ (hR k hk).1 (hR k hk).2.1 (hR k hk).2.2.1 (hR k hk).2.2.2 x hx
  obtain ⟨w1, w2, w3, w4⟩ := writeAll_ran (outAreas s c) ws hin s hw ht
  have hes : withIndex ((List.range n).map (entryAt b)) = (List.range n).map fun k => (k, entryAt b k) := withIndex_range _ _
  have hrs : ((withIndex ((List.range n).map (entryAt b))).map fun (k, e) => (k, e, stepOne s c v k e)) = (List.range n).map fun k => (k, entryAt b k, R k) := by
    rw [hes, List.map_map]
    apply List.map_congr_left
    intro k _
    show (k, entryAt b k, stepOne s c v k (entryAt b k)) = _
    rw [hRk]
  have hfold : ((List.range n).map fun k => (k, entryAt b k, R k)).foldl (fun s x => writeStep s c x.1 x.2.2.1 x.2.2.2) s = writeAll s ws := by
    rw [List.foldl_map, ← hws]
    exact foldWriteSteps c R (List.range n) s
  generalize hcs : (fun k => stepCommits s c v.len (entryAt b k) (R k).1) = cs
  have hcommits : (((List.range n).map fun k => (k, entryAt b k, R k)).flatMap fun (_, e, r) => stepCommits s c v.len e r.1) = (List.range n).flatMap cs := by
    rw [List.flatMap_map, ← hcs]
  have hex : ∃ (recs : List FlagRec) (cl : Bool) (detail fl : Nat), detail ≤ n ∧
      runSteps s c b v flags [] = finishCmd (nextFree (recordFlags (writeAll s ws) recs cl)) c.id 0 detail fl ((List.range n).flatMap cs) := by
    unfold runSteps
    dsimp only
    rw [hn, hrs, hfold, hcommits]
    refine ⟨_, _, _, _, ?_, rfl⟩
    refine Nat.le_trans (List.length_filter_le _ _) ?_
    refine Nat.le_of_eq ?_
    rw [List.length_map, List.length_range]
  obtain ⟨recs, cl, detail, fl, hdet, hrun⟩ := hex
  obtain ⟨f1, f2, f3⟩ := onlyRan_recordFlags (writeAll s ws) recs cl
  refine ⟨_, detail, fl, cs, hrun, ?_, hdet, ?_, onlyRan_finish (onlyRan_trans w3 f1) _ _ _ _ _, ?_⟩
  · exact ranTo_finish (f3.trans w4) _ _ _ _ _
  · intro a ha
    have := w1 a ha
    show memByte (recordFlags (writeAll s ws) recs cl).host a = _
    rw [f2]; exact this
  · intro k hk e sid
    obtain ⟨v', ext, e1, e2, e3, e4, -, -, e7⟩ := (hR k hk).1
    have hmem : (pkt c 0x20 8 + k * entryStride op, (R k).1.entry) ∈ ws := by
      rw [← hws]
      refine List.mem_flatMap.2 ⟨k, List.mem_range.2 hk, ?_⟩
      unfold stepWrites
      rw [hp]
      exact List.mem_cons_self
    have hrd := writeAll_read ws _ hmem (by rw [← hws]; exact entry_apart s c op n hp hn hop hH hap R _ _ _ hR k hk) s hw ht
    dsimp only at hrd
    have hlen : (R k).1.entry.length = 160 + ext.length := by rw [e1, List.length_append, entryBytes_length]
    have he : e = entryBytes v' := by
      show memBytes (recordFlags (writeAll s ws) recs cl).host _ _ = _
      rw [f2]
      have hp0 := memBytes_part _ _ _ 0 160 _ hrd (by rw [hlen]; omega)
      rw [Nat.add_zero] at hp0
      rw [hp0, e1, ← entryBytes_length v', slice_all]
    rw [he, entryBytes_sid, entryBytes_step, entryBytes_token, e2, e3]
    obtain ⟨k1, k2, k3⟩ := stepCommits_spec s c v.len (entryAt b k) (R k).1 sid rfl
    have hck : cs k = stepCommits s c v.len (entryAt b k) (R k).1 := by rw [← hcs]
    rw [hck]
    refine ⟨rfl, rfl, k1, ?_⟩
    rcases e7 with ⟨h1, h2⟩ | h
    · left; rw [h1]; exact ⟨rfl, k2 h2⟩
    · right
      have hne : (R k).1.advance ≠ 0 := by
        unfold stages at h
        split at h
        · omega
        · split at h <;> omega
      exact ⟨v'.token, _, _, _, k3 hne, rfl, h⟩

end Sys2Proof.Laws
end

