-- ==== Sys2Proof/Laws/TensorRuns.lean ====
section
/-! SUPPORT. What the rows of a tensor operator leave: the lengths of their outputs, the writes into the output areas, and
what is read back. -/

open Sys2Proof Sys2Proof.Machine

namespace Sys2Proof.Laws

/-! ## Codes and rows -/

theorem nibbles_length (bs : List Byte) : (nibbles bs).length = 2 * bs.length := by
  induction bs with
  | nil => rfl
  | cons b bs ih => simp only [nibbles, List.length_cons, ih]; omega

theorem groupCodes_length (k n : Nat) (bs : List Byte) : (groupCodes k n bs).length = n := by
  induction n generalizing bs with
  | zero => rfl
  | succ n ih => simp only [groupCodes, List.length_cons, ih]

theorem parseRow_length (f : Fmt) (block n : Nat) (bs : List Byte) (h : rowBytes f block n ≤ bs.length) :
    (parseRow f block n bs).codes.length = n := by
  show (unpackCodes (fmtWidth f) n bs).length = n
  unfold unpackCodes
  split
  · rename_i h4
    rw [List.length_take, nibbles_length]
    unfold rowBytes ceilDiv at h
    rw [h4] at h
    omega
  · exact groupCodes_length _ _ _

theorem packNibbles_length (l : List Nat) : (packNibbles l).length = (l.length + 1) / 2 := by
  induction l using packNibbles.induct with
  | case1 => rfl
  | case2 a => simp [packNibbles]
  | case3 a b l ih => simp only [packNibbles, List.length_cons, ih]; omega

theorem packCodes_length (f : Fmt) (l : List Nat) : (packCodes (fmtWidth f) l).length = ceilDiv (l.length * fmtWidth f) 8 := by
  unfold packCodes ceilDiv
  split
  · rename_i h4
    rw [packNibbles_length, h4]; omega
  · rename_i h4
    rw [flatMap_length_const _ _ (fmtWidth f / 8) (fun x _ => leBytes_length _ _)]
    cases f
    · show 32 / 8 * _ = (_ * 32 + 8 - 1) / 8; omega
    · show 16 / 8 * _ = (_ * 16 + 8 - 1) / 8; omega
    · show 16 / 8 * _ = (_ * 16 + 8 - 1) / 8; omega
    · show 8 / 8 * _ = (_ * 8 + 8 - 1) / 8; omega
    · show 8 / 8 * _ = (_ * 8 + 8 - 1) / 8; omega
    · exact absurd rfl h4

theorem ceilDiv_mono {a b k : Nat} (h : a ≤ b) : ceilDiv a k ≤ ceilDiv b k := by
  unfold ceilDiv; exact Nat.div_le_div_right (by omega)

theorem opRowBytes_ge (code block n : Nat) : ceilDiv (n * fmtWidth (fmtAt code)) 8 ≤ opRowBytes code block n := by
  unfold opRowBytes
  split
  · rename_i h6; subst h6
    show (n * 4 + 8 - 1) / 8 ≤ 4 * n
    omega
  · unfold rowBytes; exact Nat.le_add_right _ _

theorem packed_fits (code block n : Nat) (l : List Nat) (h : l.length ≤ n) :
    (packCodes (fmtWidth (fmtAt code)) l).length ≤ opRowBytes code block n := by
  rw [packCodes_length]
  exact Nat.le_trans (ceilDiv_mono (Nat.mul_le_mul_right _ h)) (opRowBytes_ge _ _ _)

theorem tensorRow_length (s : State) (e : TEnv) (r : Nat) (hl : e.lines = []) : (tensorRow s e r).codes.length = e.hdr.len := by
  unfold tensorRow
  dsimp only
  split
  · exact parseRow_length _ _ _ _ (by unfold hostBytes memBytes; simp)
  · have : ∀ x, poison (fmtAt e.hdr.inFmt) e.hdr.inBlock (bar2Base e.fn + (e.hdr.inAddr + r * e.hdr.inStride)) e.lines x = x := by
      intro x; unfold poison; rw [hl]; rfl
    rw [this]
    exact parseRow_length _ _ _ _ (by unfold bar2Bytes; split <;> simp [memBytes])

theorem rowElems_length (block : Nat) (r : CodedRow) : (rowElems block r).length = r.codes.length := by
  unfold rowElems; simp
theorem rowF32_length (e : TEnv) (row : CodedRow) : (rowF32 e row).length = row.codes.length := by
  unfold rowF32; rw [List.length_map, rowElems_length]

/-! ## Rows encoded granule by granule -/

theorem encodeElems_length (md : Modes) (f : Fmt) (nonsat : Bool) (x : Int) (fl : Bool) (xs : List (Dec × Option Word)) :
    (encodeElems md f nonsat x fl xs).1.length = xs.length := by
  unfold encodeElems
  induction xs with
  | nil => rfl
  | cons a xs ih => simp only [List.foldr_cons, List.length_cons, ih]

theorem encodeBlock_length (md : Modes) (f : Fmt) (nonsat : Bool) (xs : List (Dec × Option Word)) :
    (encodeBlock md f nonsat xs).codes.length = xs.length := by
  have hz : ∀ (l : List (Dec × Option Word)), (l.map fun _ => 0).length = l.length := fun l => List.length_map _
  unfold encodeBlock
  dsimp only
  split
  · exact List.length_map _
  · split
    · split
      · exact List.length_map _
      · exact encodeElems_length _ _ _ _ _ _
    · split
      · exact encodeElems_length _ _ _ _ _ _
      · exact encodeElems_length _ _ _ _ _ _

theorem chunksAux_spec {α : Type} (n : Nat) (hn : 0 < n) (k : Nat) (l : List α) (hk : l.length ≤ k) :
    (chunksAux n k l).flatten = l ∧ (chunksAux n k l).length = ceilDiv l.length n := by
  induction k generalizing l with
  | zero =>
    have : l = [] := List.eq_nil_of_length_eq_zero (by omega)
    subst this
    refine ⟨rfl, ?_⟩
    show 0 = (0 + n - 1) / n
    rw [Nat.div_eq_of_lt (by omega)]
  | succ k ih =>
    unfold chunksAux
    cases l with
    | nil =>
      refine ⟨rfl, ?_⟩
      show 0 = (0 + n - 1) / n
      rw [Nat.div_eq_of_lt (by omega)]
    | cons a l =>
      simp only [List.isEmpty_cons, Bool.false_eq_true, if_false]
      obtain ⟨i1, i2⟩ := ih ((a :: l).drop n) (by rw [List.length_drop]; simp only [List.length_cons] at hk ⊢; omega)
      refine ⟨?_, ?_⟩
      · rw [List.flatten_cons, i1, List.take_append_drop]
      · rw [List.length_cons, i2, List.length_drop]
        unfold ceilDiv
        generalize hm : (a :: l).length = m
        have hm0 : 0 < m := by rw [← hm]; exact Nat.succ_pos _
        by_cases hle : m ≤ n
        · have h1 : m - n = 0 := by omega
          rw [h1]
          have h2 : (0 + n - 1) / n = 0 := Nat.div_eq_of_lt (by omega)
          have h3 : (m + n - 1) / n = 1 := by
            apply Nat.div_eq_of_lt_le <;> omega
          rw [h2, h3]
        · have h1 : m + n - 1 = (m - n + n - 1) + n := by omega
          rw [h1, Nat.add_div_right _ hn]

theorem chunks_spec {α : Type} (n : Nat) (hn : 0 < n) (l : List α) : (chunks n l).flatten = l ∧ (chunks n l).length = ceilDiv l.length n :=
  chunksAux_spec n hn _ l (Nat.le_refl _)

theorem encodeRow_length (md : Modes) (f : Fmt) (block : Nat) (nonsat : Bool) (xs : List (Dec × Option Word)) :
    (encodeRow md f block nonsat xs).1.codes.length = xs.length ∧
    (encodeRow md f block nonsat xs).1.scales.length = if blockSize block = 0 then 0 else ceilDiv xs.length (blockSize block) := by
  unfold encodeRow
  split
  · constructor
    · induction xs with
      | nil => rfl
      | cons a xs ih => simp only [List.foldr_cons, List.length_cons, ih]
    · induction xs with
      | nil => rfl
      | cons a xs ih => simp only [List.foldr_cons]; exact ih
  · rename_i hb
    obtain ⟨c1, c2⟩ := chunks_spec (blockSize block) (by omega) xs
    rw [← c2]
    have hl : xs.length = (chunks (blockSize block) xs).flatten.length := by rw [c1]
    rw [hl]
    generalize chunks (blockSize block) xs = L
    constructor
    · induction L with
      | nil => rfl
      | cons a L ih => simp only [List.foldr_cons, List.length_append, List.flatten_cons, encodeBlock_length, ih]
    · induction L with
      | nil => rfl
      | cons a L ih => simp only [List.foldr_cons, List.length_cons, ih]

theorem chunks_granules {α : Type} (n B : Nat) (hB : 0 < B) (hd : n % B = 0) (hn : 0 < n) (k : Nat) (l : List α) (hk : l.length ≤ k) :
    ((chunksAux n k l).map fun g => ceilDiv g.length B).sum = ceilDiv l.length B := by
  have hz : ceilDiv 0 B = 0 := by unfold ceilDiv; exact Nat.div_eq_of_lt (by omega)
  induction k generalizing l with
  | zero =>
    have : l = [] := List.eq_nil_of_length_eq_zero (by omega)
    subst this
    exact hz.symm
  | succ k ih =>
    unfold chunksAux
    cases l with
    | nil => exact hz.symm
    | cons a l =>
      simp only [List.isEmpty_cons, Bool.false_eq_true, if_false, List.map_cons, List.sum_cons]
      rw [ih _ (by rw [List.length_drop]; simp only [List.length_cons] at hk ⊢; omega), List.length_take, List.length_drop]
      generalize (a :: l).length = m
      by_cases hle : m ≤ n
      · rw [Nat.min_eq_right hle, Nat.sub_eq_zero_of_le hle, hz]; rfl
      · rw [Nat.min_eq_left (by omega)]
        obtain ⟨q, rfl⟩ : ∃ q, n = B * q := ⟨n / B, by have := Nat.div_add_mod n B; omega⟩
        unfold ceilDiv
        have h1 : B * q + B - 1 = (B - 1) + B * q := by omega
        have h2 : m + B - 1 = (m - B * q + B - 1) + B * q := by omega
        rw [h1, h2, Nat.add_mul_div_left _ _ hB, Nat.add_mul_div_left _ _ hB, Nat.div_eq_of_lt (show B - 1 < B by omega)]
        omega

theorem flatMap_length_sum {α β : Type} (l : List α) (f : α → List β) : (l.flatMap f).length = (l.map fun x => (f x).length).sum := by
  induction l with
  | nil => rfl
  | cons a l ih => simp [List.flatMap_cons, ih]

theorem encodeGranules_length (rc : RunCfg) (md : Modes) (f : Fmt) (block : Nat) (nonsat : Bool) (xs : List (Dec × Option Word)) :
    (encodeGranules rc md f block nonsat xs).1.length = rowBytes f block xs.length := by
  obtain ⟨c1, -⟩ := chunks_spec granuleSize (by decide) xs
  show (rowToBytes f _).length = _
  unfold rowToBytes rowBytes
  rw [List.length_append, packCodes_length, flatMap_length_const _ _ 1 (fun x _ => leBytes_length _ _), Nat.one_mul]
  dsimp only
  rw [List.flatMap_map, List.flatMap_map, flatMap_length_sum, flatMap_length_sum]
  have h1 : ((chunks granuleSize xs).map fun x => (encodeRow md f block nonsat x).1.codes.length).sum = xs.length := by
    have : ((chunks granuleSize xs).map fun x => (encodeRow md f block nonsat x).1.codes.length) = (chunks granuleSize xs).map List.length := by
      apply List.map_congr_left; intro x _; exact (encodeRow_length _ _ _ _ _).1
    rw [this, ← List.length_flatten, c1]
  rw [h1]
  congr 1
  have h2 : ((chunks granuleSize xs).map fun x => (encodeRow md f block nonsat x).1.scales.length) =
      (chunks granuleSize xs).map fun x => if blockSize block = 0 then 0 else ceilDiv x.length (blockSize block) := by
    apply List.map_congr_left; intro x _; exact (encodeRow_length _ _ _ _ _).2
  rw [h2]
  by_cases h0 : blockSize block = 0
  · simp only [h0, if_true]
    generalize chunks granuleSize xs = L
    induction L with
    | nil => rfl
    | cons a L ih => simp only [List.map_cons, List.sum_cons, ih]
  · simp only [h0, if_false]
    have hB : blockSize block = 16 ∨ blockSize block = 32 := by
      unfold blockSize at h0 ⊢
      split at h0 <;> simp_all
    apply chunks_granules granuleSize (blockSize block) (by omega) _ (by decide) _ _ (Nat.le_refl _)
    rcases hB with h | h <;> rw [h] <;> rfl

/-! ## The rows of an operator written -/

/-- A row's output fits its output area; its further bytes are the ones its operator writes. -/
def rowFits (op : Nat) (b : List Byte) (x : TRow) : Prop :=
  x.out.length ≤ opOutBytes op b ∧
  (x.aux = [] ∨ (op = 0x40 ∧ bit (parseHdr b).flags 1 = true ∧ x.aux.length = 16) ∨ (op = 0x42 ∧ x.aux.length = 8))

/-- What row r writes. -/
def rowWrites (h : THdr) (r : Nat) (x : TRow) : List (Nat × List Byte) :=
  (h.outAddr + r * h.outStride, x.out) :: if x.aux.isEmpty then [] else [(h.aux + r * x.aux.length, x.aux)]

theorem foldRows (h : THdr) (l : List (Nat × TRow)) (s : State) :
    l.foldl (fun s (r, x) =>
      let s := hostWrite s (h.outAddr + r * h.outStride) x.out
      if x.aux.isEmpty then s else hostWrite s (h.aux + r * x.aux.length) x.aux) s =
    writeAll s (l.flatMap fun p => rowWrites h p.1 p.2) := by
  induction l generalizing s with
  | nil => rfl
  | cons p l ih =>
    rw [List.foldl_cons, ih, List.flatMap_cons, writeAll_append]
    congr 1
    unfold rowWrites writeAll
    dsimp only
    split <;> rfl

theorem outAreas_tensor (s : State) (c : Cmd) (h : isTensorOp (pktOp c) = true) : outAreas s c =
    (List.range (parseHdr (paramBytes s c)).rows).map (fun r => ((parseHdr (paramBytes s c)).outAddr + r * (parseHdr (paramBytes s c)).outStride, opOutBytes (pktOp c) (paramBytes s c))) ++
      (if (pktOp c = 0x40 && bit (parseHdr (paramBytes s c)).flags 1) = true then [((parseHdr (paramBytes s c)).aux, 16 * (parseHdr (paramBytes s c)).rows)]
        else if pktOp c = 0x42 then [((parseHdr (paramBytes s c)).aux, 8 * (parseHdr (paramBytes s c)).rows)] else []) := by
  unfold outAreas
  dsimp only
  have hs : isStepOp (pktOp c) = false := by
    unfold isTensorOp isStepOp at *
    simp only [decide_eq_true_eq, decide_eq_false_iff_not] at *
    omega
  rw [hs, h]
  rfl

theorem rowWrites_inside (s : State) (c : Cmd) (h : isTensorOp (pktOp c) = true) (rows : List TRow)
    (hl : rows.length = (parseHdr (paramBytes s c)).rows) (hf : ∀ x ∈ rows, rowFits (pktOp c) (paramBytes s c) x) :
    ∀ w ∈ (withIndex rows).flatMap fun p => rowWrites (parseHdr (paramBytes s c)) p.1 p.2,
      ∃ p ∈ outAreas s c, p.1 ≤ w.1 ∧ w.1 + w.2.length ≤ p.1 + p.2 := by
  intro w hw
  obtain ⟨⟨r, x⟩, hp, hw⟩ := List.mem_flatMap.1 hw
  obtain ⟨hr, hx⟩ := mem_withIndex hp
  have hr : r < rows.length := hr
  have hx : x ∈ rows := List.mem_of_getElem? hx
  obtain ⟨f1, f2⟩ := hf x hx
  rw [outAreas_tensor s c h]
  unfold rowWrites at hw
  rcases List.mem_cons.1 hw with rfl | hw
  · refine ⟨_, List.mem_append_left _ (List.mem_map.2 ⟨r, List.mem_range.2 (hl ▸ hr), rfl⟩), Nat.le_refl _, ?_⟩
    exact Nat.add_le_add_left f1 _
  · rcases f2 with f2 | ⟨f2, f3, f4⟩ | ⟨f2, f4⟩
    · dsimp only at hw; rw [f2] at hw; cases hw
    · dsimp only at hw
      split at hw
      · cases hw
      · rw [List.mem_singleton.1 hw]
        refine ⟨_, List.mem_append_right _ (by rw [f2, f3]; exact List.mem_singleton.2 rfl), Nat.le_add_right _ _, ?_⟩
        dsimp only
        rw [f4]; omega
    · dsimp only at hw
      split at hw
      · cases hw
      · rw [List.mem_singleton.1 hw]
        refine ⟨_, List.mem_append_right _ (by rw [f2]; exact List.mem_singleton.2 rfl), Nat.le_add_right _ _, ?_⟩
        dsimp only
        rw [f4]; omega

theorem pairwise_range_map {α : Type} {R : α → α → Prop} (hs : ∀ a b, R a b → R b a) (n : Nat) (f : Nat → α)
    (h : ((List.range n).map f).Pairwise R) (i j : Nat) (hi : i < n) (hj : j < n) (hij : i ≠ j) : R (f i) (f j) := by
  rw [List.pairwise_iff_getElem] at h
  rcases Nat.lt_or_gt_of_ne hij with k | k
  · have := h i j (by simpa using hi) (by simpa using hj) k
    simpa using this
  · have := h j i (by simpa using hj) (by simpa using hi) k
    exact hs _ _ (by simpa using this)

theorem mul_apart {k w r r' : Nat} (h : r < r') (hk : w ≤ k) (hk2 : k ≤ w) : r * w + w ≤ r' * k := by
  have hkk : w = k := Nat.le_antisymm hk hk2
  subst hkk
  have : (r + 1) * w ≤ r' * w := Nat.mul_le_mul_right _ h
  rw [Nat.succ_mul] at this; exact this

/-- Rows written apart are read back. -/
theorem rowWrites_read (s : State) (c : Cmd) (h : isTensorOp (pktOp c) = true) (rows : List TRow)
    (hl : rows.length = (parseHdr (paramBytes s c)).rows) (hf : ∀ x ∈ rows, rowFits (pktOp c) (paramBytes s c) x)
    (hap : (outAreas s c).Pairwise fun p q => p.1 + p.2 ≤ q.1 ∨ q.1 + q.2 ≤ p.1)
    (hw : memoriesWf s = true) (ht : trainedLinks s ≠ []) (r : Nat) (x : TRow) (hx : rows[r]? = some x) :
    let u := writeAll s ((withIndex rows).flatMap fun p => rowWrites (parseHdr (paramBytes s c)) p.1 p.2)
    memBytes u.host ((parseHdr (paramBytes s c)).outAddr + r * (parseHdr (paramBytes s c)).outStride) x.out.length = x.out ∧
    (x.aux ≠ [] → memBytes u.host ((parseHdr (paramBytes s c)).aux + r * x.aux.length) x.aux.length = x.aux) := by
  dsimp only
  have hr : r < rows.length := (List.getElem?_eq_some_iff.1 hx).1
  have hmem : (r, x) ∈ withIndex rows := by
    unfold withIndex
    refine List.mem_iff_getElem.2 ⟨r, by simpa using hr, ?_⟩
    rw [List.getElem_zip, List.getElem_range]
    rw [List.getElem?_eq_getElem hr] at hx
    rw [Option.some.inj hx]
  have hfx := hf x (List.mem_of_getElem? hx)
  generalize hh : parseHdr (paramBytes s c) = hd at *
  have hsym : ∀ a b : Nat × Nat, (a.1 + a.2 ≤ b.1 ∨ b.1 + b.2 ≤ a.1) → (b.1 + b.2 ≤ a.1 ∨ a.1 + a.2 ≤ b.1) := fun a b k => k.symm
  rw [outAreas_tensor s c h, hh] at hap
  have hap1 := (List.pairwise_append.1 hap).1
  have hap3 := (List.pairwise_append.1 hap).2.2
  -- every other write, classified
  have hcls : ∀ w ∈ (withIndex rows).flatMap fun p => rowWrites hd p.1 p.2, ∃ r' x', rows[r']? = some x' ∧ r' < rows.length ∧ rowFits (pktOp c) (paramBytes s c) x' ∧
      (w = (hd.outAddr + r' * hd.outStride, x'.out) ∨ (x'.aux ≠ [] ∧ w = (hd.aux + r' * x'.aux.length, x'.aux))) := by
    intro w hw
    obtain ⟨⟨r', x'⟩, hp, hw⟩ := List.mem_flatMap.1 hw
    obtain ⟨hr', hx'⟩ := mem_withIndex hp
    refine ⟨r', x', hx', hr', hf x' (List.mem_of_getElem? hx'), ?_⟩
    unfold rowWrites at hw
    rcases List.mem_cons.1 hw with rfl | hw
    · exact .inl rfl
    · dsimp only at hw
      split at hw
      · cases hw
      · rename_i hne
        exact .inr ⟨fun e => hne (by rw [e]; rfl), List.mem_singleton.1 hw⟩
  have hextra : ∀ x', rowFits (pktOp c) (paramBytes s c) x' → x'.aux ≠ [] → ∀ r', r' < rows.length →
      ∃ q ∈ (if (pktOp c = 0x40 && bit hd.flags 1) = true then [(hd.aux, 16 * hd.rows)] else if pktOp c = 0x42 then [(hd.aux, 8 * hd.rows)] else [] : List (Nat × Nat)),
        q.1 ≤ hd.aux + r' * x'.aux.length ∧ hd.aux + r' * x'.aux.length + x'.aux.length ≤ q.1 + q.2 := by
    intro x' hfx' hne r' hr'
    unfold rowFits at hfx'
    rw [hh] at hfx'
    rcases hfx'.2 with f2 | ⟨f2, f3, f4⟩ | ⟨f2, f4⟩
    · exact absurd f2 hne
    · refine ⟨_, by rw [f2, f3]; exact List.mem_singleton.2 rfl, Nat.le_add_right _ _, ?_⟩
      dsimp only; rw [f4]; omega
    · refine ⟨_, by rw [f2]; exact List.mem_singleton.2 rfl, Nat.le_add_right _ _, ?_⟩
      dsimp only; rw [f4]; omega
  have hrowaux : ∀ r1 x1 r2 x2, r1 < rows.length → rowFits (pktOp c) (paramBytes s c) x1 → r2 < rows.length → rowFits (pktOp c) (paramBytes s c) x2 → x2.aux ≠ [] →
      hd.outAddr + r1 * hd.outStride + x1.out.length ≤ hd.aux + r2 * x2.aux.length ∨ hd.aux + r2 * x2.aux.length + x2.aux.length ≤ hd.outAddr + r1 * hd.outStride := by
    intro r1 x1 r2 x2 h1 hf1 h2 hf2 hne
    obtain ⟨q, hq, q1, q2⟩ := hextra x2 hf2 hne r2 h2
    have := hap3 _ (List.mem_map.2 ⟨r1, List.mem_range.2 (hl ▸ h1), rfl⟩) q hq
    have hle := hf1.1
    dsimp only at this
    omega
  constructor
  · have hin : (hd.outAddr + r * hd.outStride, x.out) ∈ (withIndex rows).flatMap fun p => rowWrites hd p.1 p.2 :=
      List.mem_flatMap.2 ⟨(r, x), hmem, List.mem_cons_self⟩
    refine writeAll_read _ _ hin ?_ s hw ht
    intro w hw'
    obtain ⟨r', x', hx', hr', hf', hw'⟩ := hcls w hw'
    rcases hw' with rfl | ⟨hne, rfl⟩
    · by_cases hrr : r' = r
      · subst hrr; rw [hx] at hx'; cases hx'; exact .inl rfl
      · right
        have := pairwise_range_map hsym _ _ hap1 r' r (hl ▸ hr') (hl ▸ hr) hrr
        have l1 := hf'.1
        have l2 := hfx.1
        dsimp only at this ⊢
        omega
    · right
      have := hrowaux r x r' x' hr hfx hr' hf' hne
      dsimp only
      omega
  · intro hne
    have hin : (hd.aux + r * x.aux.length, x.aux) ∈ (withIndex rows).flatMap fun p => rowWrites hd p.1 p.2 := by
      refine List.mem_flatMap.2 ⟨(r, x), hmem, ?_⟩
      unfold rowWrites
      rw [if_neg (by intro e; exact hne (List.isEmpty_iff.1 e))]
      exact List.mem_cons_of_mem _ (List.mem_singleton.2 rfl)
    refine writeAll_read _ _ hin ?_ s hw ht
    intro w hw'
    obtain ⟨r', x', hx', hr', hf', hw'⟩ := hcls w hw'
    rcases hw' with rfl | ⟨hne', rfl⟩
    · right
      have := hrowaux r' x' r x hr' hf' hr hfx hne
      dsimp only
      omega
    · by_cases hrr : r' = r
      · subst hrr; rw [hx] at hx'; cases hx'; exact .inl rfl
      · right
        have hlen : x'.aux.length = x.aux.length := by
          rcases hf'.2 with a | ⟨a1, -, a2⟩ | ⟨a1, a2⟩
          · exact absurd a hne'
          · rcases hfx.2 with b | ⟨b1, -, b2⟩ | ⟨b1, b2⟩
            · exact absurd b hne
            · rw [a2, b2]
            · rw [a1] at b1; cases b1
          · rcases hfx.2 with b | ⟨b1, -, b2⟩ | ⟨b1, b2⟩
            · exact absurd b hne
            · rw [a1] at b1; cases b1
            · rw [a2, b2]
        dsimp only
        rcases Nat.lt_or_gt_of_ne hrr with k | k
        · left
          have := mul_apart k (Nat.le_of_eq hlen) (Nat.le_of_eq hlen.symm)
          omega
        · right
          have := mul_apart k (Nat.le_of_eq hlen.symm) (Nat.le_of_eq hlen)
          omega

theorem spoilAreas_eq (s : State) (k : Nat) (l : List (Nat × Nat)) :
    ∃ ws : List (Nat × List Byte), spoilAreas s k l = writeAll s ws ∧ ∀ w ∈ ws, ∃ p ∈ l, w.1 = p.1 ∧ w.2.length = p.2 := by
  have : ∀ (l : List (Nat × Nat)) (k f : Nat) (s : State), s.freeCtr = f → spoilAreas s k l = writeAll s ((l.foldr (fun p (g : Nat → List (Nat × List Byte)) k => (p.1, freeBytes f k p.2) :: g (k + p.2)) (fun _ => [])) k) := by
    intro l
    induction l with
    | nil => intro k f s _; rfl
    | cons p l ih =>
      intro k f s hf
      have hc : (hostWrite s p.1 (freeBytes s.freeCtr k p.2)).freeCtr = f := by
        have := congrArg State.freeCtr (hostWrite_frame s p.1 (freeBytes s.freeCtr k p.2)); exact this.trans hf
      show spoilAreas (hostWrite s p.1 (freeBytes s.freeCtr k p.2)) (k + p.2) l = _
      rw [ih _ _ _ hc, hf]
      rfl
  refine ⟨_, this l k s.freeCtr s rfl, ?_⟩
  generalize s.freeCtr = f
  clear this
  induction l generalizing k with
  | nil => intro w hw; cases hw
  | cons p l ih =>
    intro w hw
    rcases List.mem_cons.1 hw with rfl | hw
    · exact ⟨p, List.mem_cons_self, rfl, by simp [freeBytes]⟩
    · obtain ⟨q, hq, h⟩ := ih (k + p.2) w hw
      exact ⟨q, List.mem_cons_of_mem _ hq, h⟩

/-- The rows of an undisturbed operator written and recorded. -/
theorem finishTensor_spec (s : State) (c : Cmd) (e : TEnv) (commits : List Commit) (rows : List TRow)
    (h : isTensorOp (pktOp c) = true) (he : e.hdr = parseHdr (paramBytes s c))
    (hl : rows.length = (parseHdr (paramBytes s c)).rows) (hf : ∀ x ∈ rows, rowFits (pktOp c) (paramBytes s c) x)
    (hw : memoriesWf s = true) (ht : trainedLinks s ≠ []) :
    ∃ (u : State) (fl : Nat), finishTensor s c e [] commits rows = u ∧
      ranTo s u c.id (if (rows.any fun x => x.status == 0x13) = true then 0x13 else 0)
        (if pktOp c = 0x42 then rows.foldl (fun t x => satAdd 0xFFFFFFFF t x.qualifying) 0 else 0) fl commits ∧
      sameOutside (outAreas s c) s u ∧ onlyRan s u ∧
      (outputsOverlap s c e = false → ((outAreas s c).Pairwise fun p q => p.1 + p.2 ≤ q.1 ∨ q.1 + q.2 ≤ p.1) →
        ∀ r x, rows[r]? = some x →
          memBytes u.host (e.hdr.outAddr + r * e.hdr.outStride) x.out.length = x.out ∧
          (x.aux ≠ [] → memBytes u.host (e.hdr.aux + r * x.aux.length) x.aux.length = x.aux)) := by
  have hex : ∃ ws, (∀ w ∈ ws, ∃ p ∈ outAreas s c, p.1 ≤ w.1 ∧ w.1 + w.2.length ≤ p.1 + p.2) ∧ writeRows s c e rows = writeAll s ws ∧
      (outputsOverlap s c e = false → ws = (withIndex rows).flatMap fun p => rowWrites e.hdr p.1 p.2) := by
    unfold writeRows
    split
    · rename_i ho
      obtain ⟨ws, w1, w2⟩ := spoilAreas_eq s 0 (outAreas s c)
      refine ⟨ws, ?_, w1, fun hh => by rw [ho] at hh; cases hh⟩
      intro w hw'
      obtain ⟨p, hp, a, b⟩ := w2 w hw'
      exact ⟨p, hp, by omega, by omega⟩
    · refine ⟨_, ?_, foldRows e.hdr (withIndex rows) s, fun _ => rfl⟩
      rw [he]
      exact rowWrites_inside s c h rows hl hf
  obtain ⟨ws, w1, w2, w3⟩ := hex
  obtain ⟨a1, a2, a3, a4⟩ := writeAll_ran (outAreas s c) ws w1 s hw ht
  obtain ⟨f1, f2, f3⟩ := onlyRan_recordFlags (writeAll s ws) (rows.flatMap fun x => x.recs) (rows.any fun x => x.clamped)
  refine ⟨_, 16 * b2n (rows.any fun x => x.status == 0x10 || x.status == 0x11) + 32 * b2n (rows.any fun x => x.status == 0x13) + 128 * b2n false, rfl, ?_, ?_, ?_, ?_⟩
  · unfold finishTensor
    dsimp only [divergedSids, List.filterMap_nil, List.isEmpty_nil, Bool.not_true, Bool.false_and, Bool.false_eq_true, if_false, applyIncidents, applyIncidentsFrom]
    rw [w2]
    exact ranTo_finish (f3.trans a4) _ _ _ _ _
  · intro a ha
    unfold finishTensor
    rw [w2]
    show memByte (recordFlags (writeAll s ws) _ _).host a = _
    rw [f2]; exact a1 a ha
  · unfold finishTensor
    rw [w2]
    exact onlyRan_finish (onlyRan_trans a3 f1) _ _ _ _ _
  · intro ho hap r x hx
    have := rowWrites_read s c h rows hl hf hap hw ht r x hx
    have hu : (finishTensor s c e [] commits rows).host = (writeAll s ((withIndex rows).flatMap fun p => rowWrites (parseHdr (paramBytes s c)) p.1 p.2)).host := by
      unfold finishTensor
      rw [w2, w3 ho, he] at *
      exact f2
    rw [hu, he]
    exact this

/-! ## TOPK and THRESHOLD_COMPACT -/

/-- The key of entry i of a row. -/
def keyAt (ws : List Word) (i : Nat) : Nat := (orderKey (nth 0#32 ws i)).toNat

theorem opEntries_eq (ws : List Word) : opEntries ws = (List.range ws.length).map fun i => ⟨keyAt ws i, i, nth 0#32 ws i, xwZero⟩ := by
  unfold opEntries withIndex
  apply List.ext_getElem
  · simp
  · intro i h1 h2
    have hi : i < ws.length := by simpa using h2
    simp [keyAt, nth, hi]

/-- Order of entries of a row by key, ties by index. -/
def rowBefore (K : Nat → Nat) (i j : Nat) : Prop := K j < K i ∨ (K i = K j ∧ i < j)

theorem selection_spec (ws : List Word) :
    let ids := (selectionOrder .fixed (opEntries ws)).map fun e => e.idx
    ids.Perm (List.range ws.length) ∧ ids.Pairwise (rowBefore (keyAt ws)) := by
  intro ids
  have hp : (selectionOrder .fixed (opEntries ws)).Perm (opEntries ws) := sortBy_perm _ _
  have hs : (selectionOrder .fixed (opEntries ws)).Pairwise fun a b => entryBefore b a = false := sortBy_sorted entryBefore_weak _
  have hperm : ids.Perm (List.range ws.length) := by
    have := hp.map fun e => e.idx
    rw [opEntries_eq, List.map_map] at this
    rw [show ((fun e : Entry => e.idx) ∘ fun i => (⟨keyAt ws i, i, nth 0#32 ws i, xwZero⟩ : Entry)) = id from rfl, List.map_id, ← opEntries_eq] at this
    exact this
  refine ⟨hperm, ?_⟩
  have hnd : ids.Nodup := (hperm.nodup_iff).2 List.nodup_range
  have hkey : ∀ e ∈ selectionOrder .fixed (opEntries ws), e.key = keyAt ws e.idx := by
    intro e he
    have he := hp.mem_iff.1 he
    rw [opEntries_eq] at he
    obtain ⟨i, -, rfl⟩ := List.mem_map.1 he
    rfl
  show List.Pairwise _ (List.map _ _)
  rw [List.pairwise_map]
  have hnd' : (selectionOrder .fixed (opEntries ws)).Pairwise fun a b => a.idx ≠ b.idx := by
    have : List.Pairwise _ (List.map _ _) := hnd
    rw [List.pairwise_map] at this; exact this
  refine ((hs.and hnd').imp_of_mem ?_)
  intro a b ha hb ⟨h1, h2⟩
  have ka := hkey a ha
  have kb := hkey b hb
  simp only [entryBefore, decide_eq_false_iff_not, ka, kb] at h1
  unfold rowBefore
  omega

theorem topkRow_spec (ws : List Word) (k : Nat) :
    let ids := topkRow .fixed ws k
    ids.length = min k ws.length ∧ ids.Pairwise (rowBefore (keyAt ws)) ∧ (∀ i ∈ ids, i < ws.length) ∧
    ∀ i, i < ws.length → i ∉ ids → ∀ j ∈ ids, rowBefore (keyAt ws) j i := by
  obtain ⟨p1, p2⟩ := selection_spec ws
  have hid : topkRow .fixed ws k = ((selectionOrder .fixed (opEntries ws)).map fun e => e.idx).take k := by
    unfold topkRow; rw [List.map_take]
  dsimp only
  rw [hid]
  generalize ((selectionOrder .fixed (opEntries ws)).map fun e => e.idx) = all at p1 p2
  refine ⟨?_, List.Pairwise.sublist (List.take_sublist _ _) p2, ?_, ?_⟩
  · rw [List.length_take, p1.length_eq, List.length_range]
  · intro i hi
    exact List.mem_range.1 (p1.mem_iff.1 (List.mem_of_mem_take hi))
  · intro i hi hni j hj
    have hmem : i ∈ all := p1.mem_iff.2 (List.mem_range.2 hi)
    rw [← List.take_append_drop k all] at hmem p2
    have hd : i ∈ all.drop k := (List.mem_append.1 hmem).resolve_left hni
    exact (List.pairwise_append.1 p2).2.2 j hj i hd

theorem freePermute_length {α : Type} (path : List Nat) (l : List α) : (freePermute path l).length = l.length := by
  have : ∀ (n : Nat) (l : List α), (freePermuteAux path n l).length = l.length := by
    intro n
    induction n with
    | zero => intro l; rfl
    | succ n ih =>
      intro l
      unfold freePermuteAux
      dsimp only
      generalize freeBelow (n :: path) l.length = i
      have hd := List.length_drop (i := i) (l := l)
      have ht := List.length_take (i := i) (l := l)
      cases h : l.drop i with
      | nil => rfl
      | cons x rest =>
        rw [h, List.length_cons] at hd
        dsimp only
        rw [List.length_cons, ih, List.length_append, ht]
        omega
  exact this _ _

theorem tieRuns_length (n : Nat) (l : List Entry) (h : l.length ≤ n) : ((tieRuns n l).map List.length).sum = l.length := by
  induction n generalizing l with
  | zero =>
    have : l = [] := List.eq_nil_of_length_eq_zero (by omega)
    subst this; rfl
  | succ n ih =>
    cases l with
    | nil => rfl
    | cons e rest =>
      simp only [tieRuns, List.map_cons, List.sum_cons, List.length_cons]
      have hle : (rest.takeWhile fun x => x.key == e.key).length ≤ rest.length := (List.takeWhile_sublist _).length_le
      rw [ih _ (by rw [List.length_drop]; simp only [List.length_cons] at h; omega), List.length_drop]
      omega

theorem selectionOrder_length (o : Order) (l : List Entry) : (selectionOrder o l).length = l.length := by
  unfold selectionOrder
  dsimp only
  cases o with
  | fixed => exact sortBy_length _ _
  | free p =>
    dsimp only
    rw [flatMap_length_sum]
    have : ∀ L : List (List Entry), (L.map fun run => (freePermute ((run.headD ⟨0, 0, 0#32, 0#40⟩).key :: p) run).length) = L.map List.length := by
      intro L; apply List.map_congr_left; intro r _; exact freePermute_length _ _
    rw [this, tieRuns_length _ _ (Nat.le_refl _), sortBy_length]

theorem topkRow_len (o : Order) (ws : List Word) (k : Nat) :
    (topkRow o ws k).length ≤ min k ws.length := by
  unfold topkRow
  refine Nat.le_of_eq ?_
  rw [List.length_map, List.length_take, selectionOrder_length, opEntries_eq, List.length_map, List.length_range]

theorem thresholdRow_spec (o : Order) (ws : List Word) (thr : Word) :
    let q := (List.range ws.length).filter fun i => decide ((orderKey thr).toNat ≤ keyAt ws i)
    (thresholdRow o ws thr).2 = q.length ∧ (q.length ≤ candMax → (thresholdRow o ws thr).1 = q) := by
  have hq : (opEntries ws).filter (fun e => decide ((orderKey thr).toNat ≤ e.key)) =
      ((List.range ws.length).filter fun i => decide ((orderKey thr).toNat ≤ keyAt ws i)).map fun i => (⟨keyAt ws i, i, nth 0#32 ws i, xwZero⟩ : Entry) := by
    rw [opEntries_eq, List.filter_map]; rfl
  unfold thresholdRow
  dsimp only
  rw [hq]
  constructor
  · split <;> simp
  · intro h
    rw [if_pos (by simpa using h), List.map_map]
    exact List.map_id _

theorem thresholdRow_len (o : Order) (ws : List Word) (thr : Word) : (thresholdRow o ws thr).1.length ≤ min ws.length candMax := by
  have hq := List.length_filter_le (fun e => decide ((orderKey thr).toNat ≤ e.key)) (opEntries ws)
  have hl : (opEntries ws).length = ws.length := by rw [opEntries_eq, List.length_map, List.length_range]
  unfold thresholdRow
  dsimp only
  split
  · rename_i h
    rw [List.length_map]; omega
  · rw [List.length_map, byIndex_length, List.length_take, selectionOrder_length]; omega

/-! ## Each operator's rows -/

theorem softmax_fits (e : TEnv) (rc : RunCfg) (row : CodedRow) (b : List Byte) (he : e.hdr = parseHdr b) (hl : row.codes.length = e.hdr.len) :
    rowFits 0x40 b (softmaxRow e rc row) ∧ (softmaxRow e rc row).status ≠ 0x13 := by
  have hes : ((rowF32 e row).map (softmaxScore e)).length = e.hdr.len := by rw [List.length_map, rowF32_length, hl]
  have hout : ∀ l : List Nat, l.length ≤ e.hdr.len → (packCodes (fmtWidth (fmtAt e.hdr.outFmt)) l).length ≤ opOutBytes 0x40 b := by
    intro l h
    have := packed_fits e.hdr.outFmt e.hdr.outBlock e.hdr.len l h
    rw [he] at this ⊢
    exact this
  have haux : ∀ (a m : Word) (x : Xw) (st : Nat), (if bit e.hdr.flags 1 = true then statsRecord a m x st else []) = [] ∨
      (0x40 = 0x40 ∧ bit (parseHdr b).flags 1 = true ∧ (if bit e.hdr.flags 1 = true then statsRecord a m x st else []).length = 16) ∨ (0x40 = 0x42 ∧ (if bit e.hdr.flags 1 = true then statsRecord a m x st else []).length = 8) := by
    intro a m x st
    rw [← he]
    cases h : bit e.hdr.flags 1
    · exact .inl rfl
    · exact .inr (.inl ⟨rfl, rfl, by simp [statsRecord, leBytes_length]⟩)
  unfold softmaxRow
  dsimp only
  split
  · exact ⟨⟨hout _ (Nat.le_of_eq (by rw [List.length_map, List.length_map, hes])), haux _ _ _ _⟩, by dsimp only; decide⟩
  · split
    · exact ⟨⟨hout _ (Nat.le_of_eq (by rw [List.length_map, List.length_map, hes])), haux _ _ _ _⟩, by dsimp only; decide⟩
    · have hlen : ∀ ss : List Word, (if e.compat = true then softmaxIv1 e rc (bit e.hdr.flags 0) ss else softmaxNative e rc (bit e.hdr.flags 0) ss).1.length ≤ ss.length := by
        intro ss
        split
        · show (List.map _ _).length ≤ _
          rw [List.length_map, List.length_zip]; exact Nat.min_le_left _ _
        · show (List.map _ _).length ≤ _
          rw [List.length_map, List.length_zip]; exact Nat.min_le_left _ _
      generalize hss : List.map (fun x => x.1) ((rowF32 e row).map (softmaxScore e)) = ss at *
      have hsl : ss.length = e.hdr.len := by rw [← hss, List.length_map, hes]
      exact ⟨⟨hout _ (by rw [List.length_map]; exact Nat.le_trans (hlen _) (Nat.le_of_eq hsl)), haux _ _ _ _⟩, by dsimp only; decide⟩

theorem records_length (codes : List Nat) (l : List Nat) : (l.flatMap (indexRecord codes)).length = 8 * l.length :=
  flatMap_length_const _ _ 8 (fun i _ => by simp [indexRecord, leBytes_length])

theorem topk_fits (e : TEnv) (rc : RunCfg) (row : CodedRow) (b : List Byte) (he : e.hdr = parseHdr b) (hb : e.block = b) (hl : row.codes.length = e.hdr.len) :
    rowFits 0x41 b (topkOut e rc row) := by
  refine ⟨?_, .inl rfl⟩
  show (List.flatMap _ _).length ≤ 8 * min (fieldAt b 0x40 4) (parseHdr b).len
  rw [records_length, hb, ← he]
  refine Nat.mul_le_mul_left 8 (Nat.le_trans (topkRow_len _ _ _) ?_)
  refine Nat.le_of_eq ?_
  rw [List.length_map, hl]

theorem threshold_fits (e : TEnv) (rc : RunCfg) (row : CodedRow) (b : List Byte) (he : e.hdr = parseHdr b) (hl : row.codes.length = e.hdr.len) :
    rowFits 0x42 b (thresholdOut e rc row) := by
  refine ⟨?_, .inr (.inr ⟨rfl, ?_⟩)⟩
  · show (List.flatMap _ _).length ≤ 8 * min (parseHdr b).len 65536
    rw [records_length, ← he]
    refine Nat.mul_le_mul_left 8 (Nat.le_trans (thresholdRow_len _ _ _) ?_)
    refine Nat.le_of_eq ?_
    rw [List.length_map, hl, show candMax = 65536 from rfl]
  · show (leBytes 4 _ ++ leBytes 4 _).length = 8
    simp [leBytes_length]

theorem rowstat_fits (e : TEnv) (rc : RunCfg) (row : CodedRow) (b : List Byte) :
    (rowstatRow e rc row).out.length = 16 ∧ rowFits 0x43 b (rowstatRow e rc row) := by
  have h : (rowstatRow e rc row).out.length = 16 := by
    show (leBytes 4 _ ++ leBytes 4 _ ++ leBytes 4 _ ++ leBytes 4 0).length = 16
    simp [leBytes_length]
  exact ⟨h, by rw [h]; exact Nat.le_refl _, .inl rfl⟩

theorem rowstat_tail (e : TEnv) (rc : RunCfg) (row : CodedRow) : slice (rowstatRow e rc row).out 12 4 = leBytes 4 0 := by
  have : ∀ x y z : Nat, slice (leBytes 4 x ++ leBytes 4 y ++ leBytes 4 z ++ leBytes 4 0) 12 4 = leBytes 4 0 := by
    intro x y z
    have h := slice_exact (leBytes 4 x ++ leBytes 4 y ++ leBytes 4 z) (leBytes 4 0) [] 4 (leBytes_length _ _)
    rw [List.append_nil] at h
    have hl : (leBytes 4 x ++ leBytes 4 y ++ leBytes 4 z).length = 12 := by simp [leBytes_length]
    rw [hl] at h; exact h
  exact this _ _ _

theorem opOut_else (b : List Byte) (op : Nat) (h : op = 0x44 ∨ op = 0x45 ∨ op = 0x46) :
    opOutBytes op b = opRowBytes (parseHdr b).outFmt (parseHdr b).outBlock (parseHdr b).len := by
  rcases h with rfl | rfl | rfl <;> rfl

theorem granules_fit (code block n : Nat) (rc : RunCfg) (md : Modes) (nonsat : Bool) (xs : List (Dec × Option Word)) (h : xs.length = n) :
    (encodeGranules rc md (fmtAt code) block nonsat xs).1.length ≤ opRowBytes code block n := by
  rw [encodeGranules_length, h]
  unfold opRowBytes
  split
  · rename_i h6; subst h6
    show (n * 4 + 8 - 1) / 8 + (if blockSize block = 0 then 0 else (n + blockSize block - 1) / blockSize block) ≤ 4 * n
    have hB : blockSize block = 0 ∨ blockSize block = 16 ∨ blockSize block = 32 := by
      unfold blockSize; split <;> simp
    rcases hB with hB | hB | hB
    · rw [if_pos hB]; omega
    · rw [hB]; simp only [Nat.reduceEqDiff, if_false]; omega
    · rw [hB]; simp only [Nat.reduceEqDiff, if_false]; omega
  · exact Nat.le_refl _

theorem withIndex_len {α : Type} (l : List α) : (withIndex l).length = l.length := by simp

theorem cast_fits (e : TEnv) (rc : RunCfg) (w : Nat → Option Word) (row : CodedRow) (b : List Byte) (he : e.hdr = parseHdr b) (hl : row.codes.length = e.hdr.len) :
    rowFits 0x44 b (castRow e rc w row) := by
  refine ⟨?_, .inl rfl⟩
  rw [opOut_else b _ (.inl rfl), ← he]
  show (encodeGranules rc _ _ _ _ _).1.length ≤ _
  refine granules_fit _ _ _ rc _ _ _ ?_
  rw [List.length_map, withIndex_len, List.length_map, rowElems_length, hl]

theorem apply_fits (s : State) (e : TEnv) (rc : RunCfg) (bias : List Word) (row : CodedRow) (b : List Byte) (he : e.hdr = parseHdr b) (hl : row.codes.length = e.hdr.len) :
    rowFits 0x46 b (applyRow s e rc bias row) := by
  refine ⟨?_, .inl rfl⟩
  rw [opOut_else b _ (.inr (.inr rfl)), ← he]
  show (encodeGranules rc _ _ _ _ _).1.length ≤ _
  refine granules_fit _ _ _ rc _ _ _ ?_
  rw [List.length_map, List.length_map, withIndex_len, rowF32_length, hl]

theorem random_fits (e : TEnv) (rc : RunCfg) (w : Nat → Word) (b : List Byte) (he : e.hdr = parseHdr b) (hf : (parseHdr b).outFmt = 0 ∨ (parseHdr b).outFmt = 6) :
    (randomRow e rc w).out.length = 4 * e.hdr.len ∧ rowFits 0x45 b (randomRow e rc w) := by
  have h : (randomRow e rc w).out.length = 4 * e.hdr.len := by
    show (List.flatMap _ _).length = _
    rw [flatMap_length_const _ _ 4 (fun x _ => leBytes_length _ _), List.length_map, List.length_range]
  refine ⟨h, ?_, .inl rfl⟩
  rw [h, opOut_else b _ (.inr (.inl rfl)), he]
  unfold opRowBytes
  rcases hf with hf | hf
  · rw [hf, if_neg (by decide)]
    unfold rowBytes
    refine Nat.le_trans ?_ (Nat.le_add_right _ _)
    show 4 * _ ≤ (_ * 32 + 8 - 1) / 8
    omega
  · refine Nat.le_of_eq ?_; rw [hf, if_pos rfl]

/-- One word of a filled row. -/
theorem random_word (e : TEnv) (rc : RunCfg) (w : Nat → Word) (h0 : fieldAt e.block 0x40 1 = 0) (j : Nat) (hj : j < e.hdr.len) :
    slice (randomRow e rc w).out (4 * j) 4 = leBytes 4 (w j).toNat := by
  have : (randomRow e rc w).out = (List.range e.hdr.len).flatMap fun i => leBytes 4 (w i).toNat := by
    unfold randomRow
    dsimp only
    rw [h0, List.flatMap_map]; rfl
  rw [this]
  exact slice_blocks (fun i => leBytes 4 (w i).toNat) 4 j (fun i => leBytes_length _ _) _ hj

end Sys2Proof.Laws
end

