-- ==== Sys2Proof/Laws/Saves.lean ====
section
/-! SUPPORT. What the ending of a command at the snapshot tick leaves. -/

open Sys2Proof Sys2Proof.Machine

namespace Sys2Proof.Laws

/-- What the end of a command may touch where it leaves no staged effect. -/
structure ended (s u : State) : Prop where
  same : { u with
    cmds := s.cmds, done := s.done, recent := s.recent, host := s.host, rings := s.rings, freeCtr := s.freeCtr, homes := s.homes, moving := s.moving
    regs := { u.regs with msi := s.regs.msi, msixPending := s.regs.msixPending }
    power := { u.power with idleSince := s.power.idleSince } } = s

theorem ended.refl (s : State) : ended s s := ⟨rfl⟩

/-- A field the endings leave alone. -/
theorem ended.keep {α : Type} {s u : State} (h : ended s u) (g : State → α)
    (hg : ∀ v a b c d e f h k m x p, g { v with
      cmds := a, done := b, recent := c, host := d, rings := e, freeCtr := f, homes := h, moving := k
      regs := { v.regs with msi := m, msixPending := x }, power := { v.power with idleSince := p } } = g v) : g u = g s := by
  have := congrArg g h.same
  rw [hg] at this; exact this

theorem ended.trans {s u v : State} (h : ended s u) (k : ended u v) : ended s v := by
  refine ⟨?_⟩
  have := congrArg (fun x : State => { x with
    cmds := s.cmds, done := s.done, recent := s.recent, host := s.host, rings := s.rings, freeCtr := s.freeCtr, homes := s.homes, moving := s.moving
    regs := { x.regs with msi := s.regs.msi, msixPending := s.regs.msixPending }
    power := { x.power with idleSince := s.power.idleSince } }) k.same
  exact (show _ = _ from this).trans h.same

theorem ended.trained {s u : State} (h : ended s u) : trainedLinks u = trainedLinks s :=
  h.keep trainedLinks fun _ _ _ _ _ _ _ _ _ _ _ _ => rfl

theorem writeAll_trained {s : State} (h : trainedLinks s ≠ []) (ws : List (Nat × List Byte)) :
    { writeAll s ws with host := s.host } = s := by
  induction ws generalizing s with
  | nil => rfl
  | cons w ws ih =>
    show { writeAll (hostWrite s w.1 w.2) ws with host := s.host } = s
    rw [hostWrite_trained h]
    have := ih (s := { s with host := memStore s.host w.1 w.2 }) h
    have := congrArg (fun x : State => { x with host := s.host }) this
    exact this

theorem ended_spoil {s : State} (h : trainedLinks s ≠ []) (c : Cmd) : ended s (spoil s c) := by
  unfold spoil
  split
  · exact .refl s
  · obtain ⟨ws, w1, -⟩ := spoilAreas_eq s 0 (outAreas s c)
    rw [w1]
    refine ⟨?_⟩
    have := writeAll_trained h ws
    exact congrArg (fun x : State => { x with
      cmds := s.cmds, done := s.done, recent := s.recent, host := s.host, rings := s.rings, freeCtr := s.freeCtr, homes := s.homes, moving := s.moving
      regs := { x.regs with msi := s.regs.msi, msixPending := s.regs.msixPending }
      power := { x.power with idleSince := s.power.idleSince } }) this

/-- A command that has failed for good, with nothing staged, ends. -/
theorem completeCmd_failed {s : State} (h : trainedLinks s ≠ []) (c : Cmd) (t : Tick) (hf : isFailure c.status = true)
    (hy : yieldsToAbort c.status = false) (hc : c.commits = []) :
    ended s (completeCmd s c t) ∧
    (∃ f, followsOnly f ∧ (completeCmd s c t).cmds = (s.cmds.map f).filter (fun d => d.id != c.id)) ∧
    (c.cq < 256 → memoriesWf s = true → hostBytes (completeCmd s c t) (cqBase (ringOf s c.cq) + 32 * (ringOf s c.cq).cqTail) 32 =
      recordBytes s c t (ringOf s c.cq).phase) := by
  have hs : settleCmd s c t = (c, t) := by
    have ha : canAbort c = false := by unfold canAbort; rw [hy]; rfl
    unfold settleCmd; rw [ha, hf]; rfl
  have e1 := ended_spoil h c
  have k1 := (spoil_keeps s c).mem
  generalize hw : spoil s c = w at e1 k1
  have wc : w.cmds = s.cmds := by
    rw [← hw]; unfold spoil
    split
    · rfl
    · obtain ⟨ws, w1, -⟩ := spoilAreas_eq s 0 (outAreas s c)
      rw [w1]
      have := congrArg State.cmds (writeAll_trained h ws); exact this
  have wr : w.rings = s.rings := by
    rw [← hw]; unfold spoil
    split
    · rfl
    · obtain ⟨ws, w1, -⟩ := spoilAreas_eq s 0 (outAreas s c)
      rw [w1]
      have := congrArg State.rings (writeAll_trained h ws); exact this
  obtain ⟨f, f1, f2⟩ := freeFollowers_cmds w c t
  generalize hx : freeFollowers w c t = x at f1
  generalize hv : releaseMoves { x with
    cmds := x.cmds.filter fun d => d.id != c.id
    done := if pktOp c = 0x7F then x.done else (c.ring, pktTag c) :: x.done
    recent := keepRecent x c t
    power := { x.power with idleSince := max x.power.idleSince t } } = v
  have e2 : ended s v := e1.trans ⟨by rw [← hv, ← hx]; rfl⟩
  have vc : v.cmds = (s.cmds.map f).filter fun d => d.id != c.id := by rw [← wc, ← f1, ← hv]; rfl
  have hcc : completeCmd s c t = if c.cq = 256 then v else writeRecord v c t := by
    unfold completeCmd
    rw [hs]
    dsimp only
    rw [hc, show ([] : List Commit).foldl (applyCommit t) s = s from rfl, hw, hx, ← hv]
  have vt : trainedLinks v ≠ [] := by rw [e2.trained]; exact h
  obtain ⟨w1, w2, w3, w4⟩ := writeRecord_trained vt c t
  rw [hcc]
  by_cases hq : c.cq = 256
  · rw [if_pos hq]
    exact ⟨e2, ⟨f, f2, vc⟩, fun h => absurd hq (by omega)⟩
  · rw [if_neg hq]
    have vro : ∀ q, ringOf v q = ringOf s q := fun q => by
      have : v.rings = s.rings := by rw [← hv, ← hx, ← wr]; rfl
      unfold ringOf; rw [this]
    refine ⟨?_, ⟨f, f2, ?_⟩, ?_⟩
    · refine e2.trans ⟨?_⟩
      exact congrArg (fun x : State => { x with cmds := v.cmds, done := v.done, recent := v.recent, freeCtr := v.freeCtr, power := { x.power with idleSince := v.power.idleSince }, homes := v.homes, moving := v.moving }) w4
    · have := congrArg State.cmds w4
      exact (show _ = _ from this).trans vc
    · intro _ hm
      unfold hostBytes
      rw [w1, vro]
      have hwf : Memory.wf v.host = true := by
        have := k1 hm
        simp only [memoriesWf, Bool.and_eq_true] at this
        rw [← hv, ← hx]; exact this.1.1
      have hrb : recordBytes v c t (ringOf s c.cq).phase = recordBytes s c t (ringOf s c.cq).phase := by
        have : fnRing v c.fn c.ring = fnRing s c.fn c.ring := by
          have : v.vfs = s.vfs := e2.keep State.vfs fun _ _ _ _ _ _ _ _ _ _ _ _ => rfl
          unfold fnRing vfOf; rw [this]
        unfold recordBytes; rw [this]
      rw [hrb]
      have := memBytes_store hwf (cqBase (ringOf s c.cq) + 32 * (ringOf s c.cq).cqTail) (recordBytes s c t (ringOf s c.cq).phase)
      rw [recordBytes_length] at this
      exact this

/-- A command ended on S leaves nothing but its record. -/
theorem saveAbort_spec (s : State) (c : Cmd) (t : Tick) (ha : pktOp c ≠ 0x7F) (hc : isFailure c.status = true → c.commits = []) :
    ended s (saveAbort t s c) ∧
    (∃ f, followsOnly f ∧ (saveAbort t s c).cmds = (s.cmds.map f).filter (fun d => d.id != c.id)) ∧
    (c.status = 0 → pktAbortOnLate c = false → c.commits = [] → c.cq < 256 → trainedLinks s ≠ [] → memoriesWf s = true →
      hostBytes (saveAbort t s c) (cqBase (ringOf s c.cq) + 32 * (ringOf s c.cq).cqTail) 32 =
        recordBytes s { c with status := 0x60, detail := 0 } t (ringOf s c.cq).phase) := by
  obtain ⟨c', t', hp⟩ : ∃ c' t', settleCmd s c t = (c', t') := ⟨_, _, rfl⟩
  have q : c'.id = c.id ∧ (isFailure c'.status = true → c'.commits = []) := by
    unfold settleCmd at hp
    dsimp only at hp
    split at hp
    · cases hp; exact ⟨rfl, fun _ => rfl⟩
    · split at hp
      · cases hp; exact ⟨rfl, fun _ => rfl⟩
      · cases hp; exact ⟨rfl, hc⟩
  generalize hcc : (if keepsStatus c'.status || pktOp c == 0x7F then c' else { c' with status := 0x60, detail := 0, commits := [] } : Cmd) = k
  have hk : k.id = c.id ∧ isFailure k.status = true ∧ k.commits = [] ∧ yieldsToAbort k.status = false := by
    rw [← hcc]
    split
    · next h =>
      have h : keepsStatus c'.status = true := by
        have : (pktOp c == 0x7F) = false := by simpa using ha
        rw [this, Bool.or_false] at h
        exact h
      rw [keepsStatus, Bool.and_eq_true] at h
      refine ⟨q.1, h.1, q.2 h.1, ?_⟩
      have h2 : [0x23, 0x41, 0x50].contains c'.status = false := by simpa using h.2
      unfold yieldsToAbort
      rw [h.1, h2]; rfl
    · exact ⟨q.1, rfl, rfl, rfl⟩
  have hs : saveAbort t s c = if (trainedLinks s).isEmpty then { s with cmds := s.cmds.filter fun d => d.id != c.id }
      else completeCmd s k t' := by
    unfold saveAbort
    rw [hp]
    dsimp only
    rw [hcc]
  rw [hs]
  by_cases ht : trainedLinks s = []
  · rw [if_pos (by rw [ht]; rfl)]
    exact ⟨⟨rfl⟩, ⟨id, followsOnly_id, by rw [List.map_id]⟩, fun _ _ _ _ h => absurd ht h⟩
  · rw [if_neg (by intro hh; exact ht (List.isEmpty_iff.1 hh))]
    obtain ⟨a1, a2, a3⟩ := completeCmd_failed ht k t' hk.2.1 hk.2.2.2 hk.2.2.1
    refine ⟨a1, by rw [← hk.1]; exact a2, ?_⟩
    intro h1 h2 h3 h4 _ h6
    have hset : settleCmd s c t = (c, t) := by
      unfold settleCmd
      simp [h1, h2, h3]
    rw [hset] at hp
    cases hp
    have hkk : k = { c with status := 0x60, detail := 0 } := by
      rw [← hcc, h1, if_neg (by simp [keepsStatus, isFailure, ha]), ← h3]
    rw [hkk] at a3 ⊢
    exact a3 h4 h6

/-- Every command ends. -/
theorem saveAborts_spec (l : List Cmd) (s : State) (t : Tick)
    (h : ∀ c ∈ l, pktOp c ≠ 0x7F ∧ (isFailure c.status = true → c.commits = [])) :
    ended s (l.foldl (saveAbort t) s) ∧
    ∃ f, followsOnly f ∧ (l.foldl (saveAbort t) s).cmds = (s.cmds.map f).filter (fun d => l.all fun c => d.id != c.id) := by
  induction l generalizing s with
  | nil => exact ⟨.refl s, id, followsOnly_id, by rw [List.map_id]; exact (List.filter_eq_self.2 fun _ _ => rfl).symm⟩
  | cons c l ih =>
    obtain ⟨a, ⟨f, f1, b⟩, -⟩ := saveAbort_spec s c t (h c List.mem_cons_self).1 (h c List.mem_cons_self).2
    obtain ⟨i1, g, g1, i2⟩ := ih (saveAbort t s c) fun d hd => h d (List.mem_cons_of_mem _ hd)
    refine ⟨a.trans i1, g ∘ f, followsOnly_comp f1 g1, ?_⟩
    show (l.foldl (saveAbort t) (saveAbort t s c)).cmds = _
    rw [i2, b, List.filter_map, List.filter_map, List.filter_map, List.filter_map, List.map_map, List.filter_filter]
    congr 2
    funext d
    simp [Function.comp, bare_id f1, bare_id g1, Bool.and_comm]

theorem standingAborts_none (s : State) (h : ∀ c ∈ s.cmds, pktOp c ≠ 0x7F) : standingAborts s = s := by
  unfold standingAborts
  have : (s.cmds.filter fun c => pktOp c == 0x7F && c.phase != .executed && !isFailure c.status) = [] := by
    rw [List.filter_eq_nil_iff]
    intro c hc
    have : (pktOp c == 0x7F) = false := by simpa using h c hc
    simp [this]
  rw [this]; rfl

/-- The slot of the lower SAVE_SEQ changed. -/
theorem setSlot_spec (s : State) (a : Bool) (f : Slot → Slot) :
    (if a then (setSlot s a f).vault.slotA else (setSlot s a f).vault.slotB) = f (if a then s.vault.slotA else s.vault.slotB) ∧
    (if !a then (setSlot s a f).vault.slotA else (setSlot s a f).vault.slotB) = (if !a then s.vault.slotA else s.vault.slotB) ∧
    { setSlot s a f with vault := { (setSlot s a f).vault with slotA := s.vault.slotA, slotB := s.vault.slotB } } = s := by
  cases a <;> exact ⟨rfl, rfl, rfl⟩

end Sys2Proof.Laws
end

