-- ==== Sys2Proof/Laws/BringUp.lean ====
section
/-! SUPPORT. What each step of a bring-up leaves: the firmware's start, the ledger applied, links and chips admitted, and the resume. -/

open Sys2Proof Sys2Proof.Machine

namespace Sys2Proof.Laws

structure bootFrame (s u : State) : Prop where
  same : { u with
            boot := s.boot, mgmt := s.mgmt, regs := s.regs, vault := s.vault, bridges := s.bridges, links := s.links
            deputy := s.deputy, deferred := s.deferred, deferredLog := s.deferredLog, ledgerWrite := s.ledgerWrite } = s

theorem bootFrame.trans {s u v : State} (h : bootFrame s u) (k : bootFrame u v) : bootFrame s v := by
  refine ⟨?_⟩
  have := congrArg (fun x : State => { x with
            boot := s.boot, mgmt := s.mgmt, regs := s.regs, vault := s.vault, bridges := s.bridges, links := s.links
            deputy := s.deputy, deferred := s.deferred, deferredLog := s.deferredLog, ledgerWrite := s.ledgerWrite }) k.same
  exact (show _ = _ from this).trans h.same

theorem revert_spec (s : State) :
    bootFrame s (revertBank s) ∧
    (revertBank s).mgmt.activeBank = (if s.mgmt.activated = true ∧ 3 ≤ s.mgmt.tries then 1 - s.mgmt.activeBank else s.mgmt.activeBank) ∧
    (revertBank s).mgmt.banks = s.mgmt.banks ∧ (revertBank s).vault = s.vault ∧ (revertBank s).bridges = s.bridges ∧
    (revertBank s).now = s.now ∧
    (s.mgmt.activated = true ∧ 3 ≤ s.mgmt.tries → (0x09, 0, 0, s.now) ∈ (revertBank s).regs.events) := by
  unfold revertBank
  dsimp only
  by_cases h : s.mgmt.activated = true ∧ 3 ≤ s.mgmt.tries
  · have h' : (s.mgmt.activated && decide (3 ≤ s.mgmt.tries)) = true := by simp [h.1, h.2]
    rw [if_pos h', if_pos h]
    exact ⟨⟨rfl⟩, rfl, rfl, rfl, rfl, rfl, fun _ => List.mem_cons_self⟩
  · have h' : ¬ (s.mgmt.activated && decide (3 ≤ s.mgmt.tries)) = true := by
      simp only [Bool.and_eq_true, decide_eq_true_eq]; exact h
    rw [if_neg h', if_neg h]
    exact ⟨⟨rfl⟩, rfl, rfl, rfl, rfl, rfl, fun k => absurd k h⟩

theorem raise_log (s : State) (a b : Nat) (h : s.deputy = none) :
    (logFault (raiseEvent s a) b 0 0 0).vault.faultLog.head? = some ⟨s.now, b, 0, 0, 0⟩ := by
  have m := raiseEvent_mild s a
  have d : (raiseEvent s a).deputy = none := by have := congrArg State.deputy m; exact this.trans h
  have n : (raiseEvent s a).now = s.now := by have := congrArg State.now m; exact this
  unfold logFault
  dsimp only
  rw [d]
  dsimp only
  rw [n]
  rfl

theorem raise_events (s : State) (a : Nat) (x : Nat × Nat × Nat × Tick) (h : x ∈ s.regs.events) : x ∈ (raiseEvent s a).regs.events := by
  unfold raiseEvent
  split
  · exact h
  · dsimp only
    split
    · unfold sendMsi
      split <;> exact List.mem_cons_of_mem _ h
    · exact List.mem_cons_of_mem _ h

theorem takeCfg_spec (s : State) (hd : s.deputy = none) :
    let copy := selectCfg s
    let u := takeCfg s
    bootFrame s u ∧ u.mgmt.inForce = copy ∧ u.mgmt.activeBank = s.mgmt.activeBank ∧ u.mgmt.banks = s.mgmt.banks ∧
    u.bridges = s.bridges ∧ (∀ x ∈ s.regs.events, x ∈ u.regs.events) ∧
    (∀ a, copy = some a → u.mgmt.cfg = (if a then s.vault.cfgA else s.vault.cfgB) ∧ u.regs.cfgDefaulted = false ∧ u.vault = s.vault) ∧
    (copy = none → u.mgmt.cfg = factoryBlob 0 ∧ u.regs.cfgDefaulted = true ∧ u.regs.eventCause.getLsbD 7 = true ∧
            (0x01, 0, 0, s.now) ∈ u.regs.events ∧ u.vault.cfgA = s.vault.cfgA ∧ u.vault.cfgB = s.vault.cfgB ∧
            u.vault.faultLog.head? = some ⟨s.now, 7, 0, 0, 0⟩) := by
  intro copy u
  cases hc : selectCfg s with
  | some a =>
    have hu : u = { s with
      mgmt := { s.mgmt with inForce := some a, cfg := if a then s.vault.cfgA else s.vault.cfgB }
      regs := { s.regs with cfgDefaulted := false } } := by
      dsimp only [u]; unfold takeCfg; rw [hc]
    rw [hu]
    refine ⟨⟨rfl⟩, hc.symm, rfl, rfl, rfl, fun x h => h, ?_, ?_⟩
    · intro b hb; rw [show copy = some a from hc] at hb; cases hb; exact ⟨rfl, rfl, rfl⟩
    · intro hb; rw [show copy = some a from hc] at hb; cases hb
  | none =>
    generalize hv : mgmtEvent { s with
      mgmt := { s.mgmt with inForce := none, cfg := factoryBlob 0 }
      regs := { s.regs with cfgDefaulted := true } } 0x01 0 0 = v
    have hu : u = logFault (raiseEvent v evCFG_DEFAULTED) evCFG_DEFAULTED 0 0 0 := by
      dsimp only [u]; unfold takeCfg; rw [hc]; dsimp only; rw [← hv]
    have vd : v.deputy = none := by rw [← hv]; exact hd
    have m := raiseEvent_mild v evCFG_DEFAULTED
    have r := raiseEvent_regs v evCFG_DEFAULTED
    have ev : (raiseEvent v evCFG_DEFAULTED).regs.eventCause.getLsbD 7 = true := raiseEvent_sets v (by decide)
    have hl := raise_log v evCFG_DEFAULTED evCFG_DEFAULTED vd
    have he := raise_events v evCFG_DEFAULTED
    rw [← hu] at hl
    have mm : (raiseEvent v evCFG_DEFAULTED).mgmt = { v.mgmt with smbAlert := true } ∨ (raiseEvent v evCFG_DEFAULTED).mgmt = v.mgmt := by
      unfold raiseEvent
      split
      · exact .inr rfl
      · dsimp only
        split
        · unfold sendMsi; split <;> exact .inl rfl
        · exact .inl rfl
    generalize hw : raiseEvent v evCFG_DEFAULTED = w at hu m r ev he mm
    have wd : w.deputy = none := by have := congrArg State.deputy m; exact this.trans vd
    have q := logFault_quiet w evCFG_DEFAULTED 0 0 0 wd
    have hv2 : u.vault.cfgA = w.vault.cfgA ∧ u.vault.cfgB = w.vault.cfgB := by
      rw [hu]; unfold logFault; dsimp only; rw [wd]; exact ⟨rfl, rfl⟩
    rw [← hu] at q
    have wm : w.mgmt.inForce = none ∧ w.mgmt.cfg = factoryBlob 0 ∧ w.mgmt.activeBank = s.mgmt.activeBank ∧ w.mgmt.banks = s.mgmt.banks := by
      rcases mm with k | k
      · rw [k, ← hv]; exact ⟨rfl, rfl, rfl, rfl⟩
      · rw [k, ← hv]; exact ⟨rfl, rfl, rfl, rfl⟩
    have um : u.mgmt = w.mgmt := by have := congrArg State.mgmt q; exact this
    have ur : u.regs = w.regs := by have := congrArg State.regs q; exact this
    have wv : w.vault = s.vault := by have := congrArg State.vault m; exact this.trans (by rw [← hv]; rfl)
    refine ⟨?_, by rw [um, wm.1]; exact hc.symm, by rw [um]; exact wm.2.2.1, by rw [um]; exact wm.2.2.2, ?_, ?_, ?_, ?_⟩
    · refine ⟨?_⟩
      have e1 := congrArg (fun x : State => { x with
            boot := s.boot, mgmt := s.mgmt, regs := s.regs, vault := s.vault, bridges := s.bridges, links := s.links
            deputy := s.deputy, deferred := s.deferred, deferredLog := s.deferredLog, ledgerWrite := s.ledgerWrite }) q
      have e2 := congrArg (fun x : State => { x with
            boot := s.boot, mgmt := s.mgmt, regs := s.regs, vault := s.vault, bridges := s.bridges, links := s.links
            deputy := s.deputy, deferred := s.deferred, deferredLog := s.deferredLog, ledgerWrite := s.ledgerWrite }) m
      refine (show _ = _ from e1).trans ((show _ = _ from e2).trans ?_)
      rw [← hv]; rfl
    · have e1 := congrArg State.bridges q
      have e2 := congrArg State.bridges m
      refine (show _ = _ from e1).trans ((show _ = _ from e2).trans ?_)
      rw [← hv]; rfl
    · intro x hx
      rw [ur]
      refine he x ?_
      rw [← hv]; exact List.mem_cons_of_mem _ hx
    · intro a ha; rw [show copy = none from hc] at ha; cases ha
    · intro _
      refine ⟨by rw [um]; exact wm.2.1, ?_, by rw [ur]; exact ev, ?_, by rw [hv2.1, wv], by rw [hv2.2, wv], ?_⟩
      · rw [ur]; have := congrArg Regs.cfgDefaulted r; exact (show _ = _ from this).trans (by rw [← hv]; rfl)
      · rw [ur]; refine he _ ?_; rw [← hv]; exact List.mem_cons_self
      · rw [hl, ← hv]; rfl

theorem latchPort_spec (s : State) (p : Nat) :
    bootFrame s (latchPort s p) ∧ (latchPort s p).mgmt = s.mgmt ∧ (latchPort s p).regs = s.regs ∧ (latchPort s p).vault = s.vault ∧
    (latchPort s p).boot = s.boot ∧
    (latchPort s p).bridges.length = s.bridges.length ∧
    (∀ q, q ≠ p → nth ⟨false, 0, [], []⟩ (latchPort s p).bridges q = nth ⟨false, 0, [], []⟩ s.bridges q) ∧
    (p < s.bridges.length →
      bit (nth ⟨false, 0, [], []⟩ (latchPort s p).bridges p).latch p = bit (cfgField s 0x17 1) p ∧
      bit (nth ⟨false, 0, [], []⟩ (latchPort s p).bridges p).latch (2 + p) = bit (cfgField s 0x17 1) (2 + p)) := by
  unfold latchPort
  dsimp only
  split
  · next h =>
    simp only [Bool.and_eq_true, beq_iff_eq] at h
    exact ⟨⟨rfl⟩, rfl, rfl, rfl, rfl, rfl, fun _ _ => rfl, fun _ => h⟩
  · refine ⟨⟨rfl⟩, rfl, rfl, rfl, rfl, modNth_length _ _ _, ?_, ?_⟩
    · intro q hq
      show nth _ (modNth s.bridges p _) q = _
      rw [nth_modNth, if_neg (by rintro ⟨a, -⟩; exact hq a)]
    · intro hp
      have : nth ⟨false, 0, [], []⟩ (modNth s.bridges p fun b => { b with latch := cfgField s 0x17 1 }) p =
          { nth ⟨false, 0, [], []⟩ s.bridges p with latch := cfgField s 0x17 1 } := by
        rw [nth_modNth, if_pos ⟨rfl, hp⟩]
      show bit (nth ⟨false, 0, [], []⟩ (modNth s.bridges p fun b => { b with latch := cfgField s 0x17 1 }) p).latch p = _ ∧
        bit (nth ⟨false, 0, [], []⟩ (modNth s.bridges p fun b => { b with latch := cfgField s 0x17 1 }) p).latch (2 + p) = _
      rw [this]
      exact ⟨rfl, rfl⟩

/-- What writing the entries of a cut ledger write leaves: only the ledger copies, the note of it, and the write under way. -/
theorem writeTorn_spec (s : State) :
    { writeTorn s with vault := s.vault, ledgerWrite := s.ledgerWrite } = s ∧
    { (writeTorn s).vault with ledgerA := s.vault.ledgerA, ledgerB := s.vault.ledgerB, torn := s.vault.torn } = s.vault ∧
    (s.vault.torn = [] → writeTorn s = s) := by
  unfold writeTorn
  by_cases h : s.vault.torn.isEmpty = true
  · rw [if_pos h]; exact ⟨rfl, rfl, fun _ => rfl⟩
  · rw [if_neg h]
    have f := writeEntries_frame { s with vault := { s.vault with torn := [] } } s.vault.torn
    refine ⟨?_, ?_, fun k => absurd (by rw [k]; rfl) h⟩
    · exact congrArg (fun x : State => { x with vault := s.vault }) f
    · unfold writeEntries bothLedgers writeLedger markWrite
      split
      · rfl
      · dsimp only
        split <;> rfl

theorem bootBank_spec (s : State) :
    let u := bootBank s
    bootFrame s u ∧ u.boot = .chipPower ∧ u.regs = s.regs ∧ (s.vault.torn = [] → u.vault = s.vault) ∧
    { u.vault with ledgerA := s.vault.ledgerA, ledgerB := s.vault.ledgerB, torn := s.vault.torn } = s.vault ∧
    u.mgmt.inForce = s.mgmt.inForce ∧ u.mgmt.cfg = s.mgmt.cfg ∧ u.mgmt.activeBank = s.mgmt.activeBank ∧ u.mgmt.activated = s.mgmt.activated ∧
    u.mgmt.running = (nth ⟨[], false⟩ s.mgmt.banks s.mgmt.activeBank).bytes ∧
    ∀ q < 2, q < s.bridges.length → let l := (nth ⟨false, 0, [], []⟩ u.bridges q).latch
      bit l q = bit (cfgField u 0x17 1) q ∧ bit l (2 + q) = bit (cfgField u 0x17 1) (2 + q) := by
  intro u
  generalize hs : ({ s with
    boot := .chipPower
    mgmt := { s.mgmt with
      running := (nth ⟨[], false⟩ s.mgmt.banks s.mgmt.activeBank).bytes
      rebuilt := !s.vault.ledgerA.valid && !s.vault.ledgerB.valid } } : State) = o
  have ov : o.vault = s.vault := by rw [← hs]
  have om : o.mgmt = { s.mgmt with
      running := (nth ⟨[], false⟩ s.mgmt.banks s.mgmt.activeBank).bytes
      rebuilt := !s.vault.ledgerA.valid && !s.vault.ledgerB.valid } := by rw [← hs]
  have oo : { o with boot := s.boot, mgmt := s.mgmt } = s := by rw [← hs]
  generalize hv : (if (!s.vault.ledgerA.valid && !s.vault.ledgerB.valid) = true then o else writeTorn o) = v
  have t1 : { v with vault := o.vault, ledgerWrite := o.ledgerWrite } = o := by
    rw [← hv]; split
    · rfl
    · exact (writeTorn_spec o).1
  have t2 : { v.vault with ledgerA := s.vault.ledgerA, ledgerB := s.vault.ledgerB, torn := s.vault.torn } = s.vault := by
    rw [← hv, ← ov]; split
    · rfl
    · exact (writeTorn_spec o).2.1
  have t3 : s.vault.torn = [] → v.vault = s.vault := by
    intro h
    rw [← hv, ← ov]; split
    · rfl
    · rw [(writeTorn_spec o).2.2 (by rw [ov]; exact h)]
  have vm : v.mgmt = o.mgmt := by have := congrArg State.mgmt t1; exact this
  have vr : v.regs = s.regs := by have := congrArg State.regs (t1.trans hs.symm); exact this
  have vb : v.boot = .chipPower := by have := congrArg State.boot (t1.trans hs.symm); exact this
  have hb : v.bridges = s.bridges := by have := congrArg State.bridges (t1.trans hs.symm); exact this
  have hu : u = latchPort (latchPort v 0) 1 := by dsimp only [u]; unfold bootBank; dsimp only; rw [hs, hv]
  obtain ⟨a1, a2, a3, a4, a5, a6, a7, a8⟩ := latchPort_spec v 0
  generalize latchPort v 0 = w at a1 a2 a3 a4 a5 a6 a7 a8 hu
  obtain ⟨b1, b2, b3, b4, b5, b6, b7, b8⟩ := latchPort_spec w 1
  rw [← hu] at b1 b2 b3 b4 b5 b6 b7 b8
  have um : u.mgmt = o.mgmt := (b2.trans a2).trans vm
  have uv : u.vault = v.vault := b4.trans a4
  have f0 : bootFrame s v := by
    refine ⟨?_⟩
    exact (congrArg (fun y : State => { y with
            boot := s.boot, mgmt := s.mgmt, regs := s.regs, vault := s.vault, bridges := s.bridges, links := s.links
            deputy := s.deputy, deferred := s.deferred, deferredLog := s.deferredLog, ledgerWrite := s.ledgerWrite })
      t1).trans (congrArg (fun y : State => { y with
            regs := s.regs, vault := s.vault, bridges := s.bridges, links := s.links
            deputy := s.deputy, deferred := s.deferred, deferredLog := s.deferredLog, ledgerWrite := s.ledgerWrite }) oo)
  refine ⟨f0.trans (a1.trans b1), ?_, ?_, ?_, ?_, ?_, ?_, ?_, ?_, ?_, ?_⟩
  · rw [b5, a5]; exact vb
  · rw [b3, a3]; exact vr
  · intro h; rw [uv, t3 h]
  · rw [uv]; exact t2
  · rw [um, om]
  · rw [um, om]
  · rw [um, om]
  · rw [um, om]
  · rw [um, om]
  · intro q hq hl l
    have hw : cfgField w 0x17 1 = cfgField u 0x17 1 := by unfold cfgField; rw [b2]
    have hv' : cfgField v 0x17 1 = cfgField u 0x17 1 := by unfold cfgField; rw [um, vm]
    rcases Nat.lt_or_ge 0 q with h0 | h0
    · have : q = 1 := by omega
      subst this
      have := b8 (by rw [a6, hb]; exact hl)
      rw [hw] at this; exact this
    · have : q = 0 := by omega
      subst this
      have := a8 (by rw [hb]; exact hl)
      rw [hv', ← b7 0 (by decide)] at this; exact this

theorem withIndex_get {α : Type} (l : List α) (i : Nat) (x : α) (h : l[i]? = some x) : (withIndex l)[i]? = some (i, x) := by
  unfold withIndex
  rw [List.getElem?_zip_eq_some]
  have hi : i < l.length := by
    rw [List.getElem?_eq_some_iff] at h; exact h.1
  exact ⟨by rw [List.getElem?_range hi], h⟩

theorem chipOf_mapped (s : State) (f : Nat × Chip → Chip) (c : Nat) (h : c < s.chips.length) :
    nth (Chip.fresh c) ((withIndex s.chips).map f) c = f (c, chipOf s c) := by
  have hc : s.chips[c]? = some (chipOf s c) := by
    unfold chipOf nth
    rw [List.getD_eq_getElem?_getD]
    have : s.chips[c]? = some s.chips[c] := List.getElem?_eq_getElem h
    rw [this]; rfl
  unfold nth
  rw [List.getD_eq_getElem?_getD, List.getElem?_map, withIndex_get _ _ _ hc]; rfl

/-- What applying the ledger changes of a chip. -/
theorem applyEntry_spec (s : State) (e : LedgerEntry) :
    { applyEntry s e with chips := s.chips } = s ∧ (applyEntry s e).chips.length = s.chips.length ∧
    ∀ c, c < s.chips.length → (chipOf (applyEntry s e) c).active = (chipOf s c).active ∧
      (chipOf (applyEntry s e) c).hbm = (chipOf s c).hbm ∧ (chipOf (applyEntry s e) c).counters = (chipOf s c).counters := by
  have one : ∀ (s : State) (a k : Nat) (f : Core → Core) (c : Nat), c < s.chips.length →
      (chipOf (setCore s a k f) c).active = (chipOf s c).active ∧
      (chipOf (setCore s a k f) c).hbm = (chipOf s c).hbm ∧ (chipOf (setCore s a k f) c).counters = (chipOf s c).counters := by
    intro s a k f c hc
    by_cases h : c = a
    · subst h; rw [chipOf_setCore s c k f hc]; exact ⟨rfl, rfl, rfl⟩
    · unfold setCore; rw [chipOf_setChip_ne s _ h]; exact ⟨rfl, rfl, rfl⟩
  unfold applyEntry
  split
  · refine ⟨rfl, ?_, ?_⟩
    · unfold setCore; rw [setChip_length, setChip_length]
    · intro c hc
      have h1 := one s e.chip e.unit (fun x => { x with role := .fenced }) c hc
      have h2 := one (setCore s e.chip e.unit fun x => { x with role := .fenced }) e.chip e.replacement (fun x => { x with role := .active }) c (by unfold setCore; rw [setChip_length]; exact hc)
      exact ⟨h2.1.trans h1.1, h2.2.1.trans h1.2.1, h2.2.2.trans h1.2.2⟩
  · exact ⟨rfl, by unfold setCore; rw [setChip_length], fun c hc => one s _ _ _ c hc⟩
  · exact ⟨rfl, by unfold setCore; rw [setChip_length], fun c hc => one s _ _ _ c hc⟩
  · exact ⟨rfl, rfl, fun _ _ => ⟨rfl, rfl, rfl⟩⟩

theorem applyAll_spec (es : List LedgerEntry) (s : State) :
    { es.foldl applyEntry s with chips := s.chips } = s ∧ (es.foldl applyEntry s).chips.length = s.chips.length ∧
    ∀ c, c < s.chips.length → (chipOf (es.foldl applyEntry s) c).active = (chipOf s c).active ∧
      (chipOf (es.foldl applyEntry s) c).hbm = (chipOf s c).hbm ∧ (chipOf (es.foldl applyEntry s) c).counters = (chipOf s c).counters := by
  induction es generalizing s with
  | nil => exact ⟨rfl, rfl, fun _ _ => ⟨rfl, rfl, rfl⟩⟩
  | cons e es ih =>
    obtain ⟨a, b, c⟩ := applyEntry_spec s e
    obtain ⟨i1, i2, i3⟩ := ih (applyEntry s e)
    refine ⟨?_, i2.trans b, ?_⟩
    · have := congrArg (fun x : State => { x with chips := s.chips }) i1
      exact (show _ = _ from this).trans a
    · intro k hk
      obtain ⟨j1, j2, j3⟩ := i3 k (by rw [b]; exact hk)
      obtain ⟨c1, c2, c3⟩ := c k hk
      exact ⟨j1.trans c1, j2.trans c2, j3.trans c3⟩

/-- The core of a chip after a change of one core. -/
theorem core_setCore (s : State) (c k j : Nat) (f : Core → Core) (h : c < s.chips.length) (hk : k < (chipOf s c).cores.length) :
    nth (Core.fresh j) (chipOf (setCore s c k f) c).cores j = if j = k then f (nth (Core.fresh j) (chipOf s c).cores j) else nth (Core.fresh j) (chipOf s c).cores j := by
  rw [chipOf_setCore s c k f h]
  show nth _ (modNth _ k f) j = _
  rw [nth_modNth]
  by_cases hj : j = k
  · subst hj; rw [if_pos ⟨rfl, hk⟩, if_pos rfl]
  · rw [if_neg (by rintro ⟨a, -⟩; exact hj a), if_neg hj]

/-- The tray before power-up BIST. -/
def poweredUp (s : State) : State :=
  let s := if s.mgmt.rebuilt then
      { s with vault := { s.vault with ledgerA := ⟨1, true, 1, 0, []⟩, ledgerB := ⟨1, true, 2, 0, []⟩ } } else s
  let s := { s with chips := (withIndex s.chips).map fun (c, x) => { x with active := lossCount s c < 2 } }
  (ledgerNow s).entries.foldl applyEntry (restoreCounters s s.vault.counters)

theorem poweredUp_spec (s : State) (hd : s.deferred = []) :
    let es := if s.mgmt.rebuilt then [] else (ledgerNow s).entries
    let lost (c : Nat) := (es.filter fun e => e.kind == 5 && e.chip == c).length
    let u := poweredUp s
    { u with chips := s.chips, mesh := s.mesh, totals := s.totals, vault := s.vault } = s ∧ u.chips.length = s.chips.length ∧
    u.totals = s.vault.counters.total ∧
    u.vault = (if s.mgmt.rebuilt then { s.vault with ledgerA := ⟨1, true, 1, 0, []⟩, ledgerB := ⟨1, true, 2, 0, []⟩ } else s.vault) ∧
    (∀ c, c < s.chips.length → (chipOf u c).active = decide (lost c < 2) ∧
          (chipOf u c).hbm = nth (chipOf s c).hbm s.vault.counters.hbm c ∧
          (chipOf u c).counters = nth (chipOf s c).counters s.vault.counters.chip c) ∧
    ∃ w : State, u = es.foldl applyEntry w ∧ w.chips.length = s.chips.length ∧ ∀ c, c < s.chips.length →
      (chipOf w c).cores.length = (chipOf s c).cores.length ∧
      ∀ k, k < (chipOf s c).cores.length → (nth (Core.fresh k) (chipOf w c).cores k).spared = (nth (Core.fresh k) (chipOf s c).cores k).spared := by
  intro es lost u
  generalize h0 : (if s.mgmt.rebuilt then
      { s with vault := { s.vault with ledgerA := ⟨1, true, 1, 0, []⟩, ledgerB := ⟨1, true, 2, 0, []⟩ } } else s : State) = s0
  generalize h1 : ({ s0 with chips := (withIndex s0.chips).map fun p => { p.2 with active := lossCount s0 p.1 < 2 } } : State) = s1
  have hu : u = (ledgerNow s1).entries.foldl applyEntry (restoreCounters s1 s1.vault.counters) := by
    dsimp only [u]; unfold poweredUp; dsimp only; rw [h0, ← h1]
  have e0 : { s0 with vault := s.vault } = s ∧ (ledgerNow s0).entries = es ∧ s0.vault.counters = s.vault.counters ∧
      s0.vault = (if s.mgmt.rebuilt then { s.vault with ledgerA := ⟨1, true, 1, 0, []⟩, ledgerB := ⟨1, true, 2, 0, []⟩ } else s.vault) := by
    rw [← h0]
    cases hr : s.mgmt.rebuilt
    · exact ⟨rfl, by dsimp only [es]; rw [hr]; rfl, rfl, rfl⟩
    · exact ⟨rfl, by dsimp only [es]; rw [hr]; rfl, rfl, rfl⟩
  obtain ⟨e1, e2, e3, e4⟩ := e0
  have c0 : s0.chips = s.chips := by have := congrArg State.chips e1; exact this
  have d0 : s0.deferred = [] := by have := congrArg State.deferred e1; exact this.trans hd
  have hl : ∀ c, lossCount s0 c = lost c := by
    intro c; unfold lossCount; rw [e2, d0, List.append_nil]
  have l1 : (ledgerNow s1).entries = es := by rw [← h1]; exact e2
  rw [l1] at hu
  obtain ⟨a1, a2, a3⟩ := applyAll_spec es (restoreCounters s1 s1.vault.counters)
  rw [← hu] at a1 a2 a3
  have len1 : s1.chips.length = s.chips.length := by rw [← h1]; simp [c0]
  have lenr : (restoreCounters s1 s1.vault.counters).chips.length = s.chips.length := by
    show ((withIndex s1.chips).map _).length = _
    simp [len1]
  have ch1 : ∀ c, c < s.chips.length → chipOf s1 c = { chipOf s c with active := decide (lost c < 2) } := by
    intro c hc
    rw [← h1]
    show nth (Chip.fresh c) ((withIndex s0.chips).map _) c = _
    rw [chipOf_mapped s0 _ c (by rw [c0]; exact hc)]
    dsimp only
    rw [hl]
    have : chipOf s0 c = chipOf s c := by unfold chipOf; rw [c0]
    rw [this]
  have chr : ∀ c, c < s.chips.length → chipOf (restoreCounters s1 s1.vault.counters) c =
      { chipOf s1 c with
        cores := (withIndex (chipOf s1 c).cores).map fun p => { p.2 with counters := nth p.2.counters (nth [] s1.vault.counters.core c) p.1 }
        hbm := nth (chipOf s1 c).hbm s1.vault.counters.hbm c, counters := nth (chipOf s1 c).counters s1.vault.counters.chip c } := by
    intro c hc
    show nth (Chip.fresh c) ((withIndex s1.chips).map _) c = _
    rw [chipOf_mapped s1 _ c (by rw [len1]; exact hc)]
  have v1 : s1.vault.counters = s.vault.counters := by rw [← h1]; exact e3
  refine ⟨?_, a2.trans lenr, ?_, ?_, ?_, restoreCounters s1 s1.vault.counters, hu, lenr, ?_⟩
  · have q := congrArg (fun x : State => { x with chips := s.chips, mesh := s.mesh, totals := s.totals, vault := s.vault }) a1
    refine (show _ = _ from q).trans ?_
    rw [← h1]
    have q := congrArg (fun x : State => { x with chips := s.chips, mesh := s.mesh, totals := s.totals }) e1
    exact q
  · have q := congrArg State.totals a1
    refine (show _ = _ from q).trans ?_
    show s1.vault.counters.total = _
    rw [v1]
  · have q := congrArg State.vault a1
    refine (show _ = _ from q).trans ?_
    rw [← h1]; exact e4
  · intro c hc
    obtain ⟨b1, b2, b3⟩ := a3 c (by rw [lenr]; exact hc)
    rw [chr c hc, ch1 c hc, v1] at b1 b2 b3
    exact ⟨b1, b2, b3⟩
  · intro c hc
    rw [chr c hc, ch1 c hc]
    refine ⟨by simp, ?_⟩
    intro k hk
    have hg : (chipOf s c).cores[k]? = some (nth (Core.fresh k) (chipOf s c).cores k) := by
      unfold nth
      rw [List.getD_eq_getElem?_getD, List.getElem?_eq_getElem hk]; rfl
    show (nth (Core.fresh k) ((withIndex (chipOf s c).cores).map _) k).spared = _
    have : nth (Core.fresh k) ((withIndex (chipOf s c).cores).map fun p => { p.2 with counters := nth p.2.counters (nth [] s1.vault.counters.core c) p.1 }) k =
        { nth (Core.fresh k) (chipOf s c).cores k with counters := nth (nth (Core.fresh k) (chipOf s c).cores k).counters (nth [] s1.vault.counters.core c) k } := by
      conv => lhs; unfold nth
      rw [List.getD_eq_getElem?_getD, List.getElem?_map, withIndex_get _ _ _ hg]; rfl
    rw [this]

theorem logOther_spec (s : State) :
    { logOther s with vault := s.vault, deferredLog := s.deferredLog, freeCtr := s.freeCtr } = s ∧
    { (logOther s).vault with faultLog := s.vault.faultLog } = s.vault := by
  unfold logOther logFault
  dsimp only
  split <;> exact ⟨rfl, rfl⟩

theorem fold_still {α β : Type} (f : β → α → β) (l : List α) (s : β) (h : ∀ x ∈ l, f s x = s) : l.foldl f s = s := by
  induction l with
  | nil => rfl
  | cons x l ih =>
    rw [List.foldl_cons, h x List.mem_cons_self]
    exact ih fun y hy => h y (List.mem_cons_of_mem _ hy)

theorem fold_inv {α β : Type} (f : β → α → β) (P : β → Prop) (l : List α) (s : β) (h0 : P s) (h : ∀ u x, x ∈ l → P u → P (f u x)) :
    P (l.foldl f s) := by
  induction l generalizing s with
  | nil => exact h0
  | cons x l ih => exact ih _ (h s x List.mem_cons_self h0) fun u y hy => h u y (List.mem_cons_of_mem _ hy)

theorem mem_bound : ∀ q ∈ linkPairs, q.1 < q.2 ∧ q.2 < 8 := by decide

theorem bootLink_sound (s : State) (p : Nat × Nat) (h : (linkOf s p.1 p.2).failed = false ∧ 2 ≤ (linkOf s p.1 p.2).up.lanes.length ∧ 2 ≤ (linkOf s p.1 p.2).down.lanes.length) :
    bootLink s p = s := by
  unfold bootLink
  dsimp only
  rw [if_pos]
  rw [h.1]
  simp only [Bool.false_or, Bool.or_eq_true, Bool.not_eq_true', decide_eq_false_iff_not]
  left; left; omega

theorem readmit_none (s : State) (c : Nat) (h : lossCount s c = 0) : readmit s c = s := by
  unfold readmit
  rw [if_pos (by simp [h])]

/-- What acting on a failed link leaves. -/
theorem bootLink_spec (s : State) (p : Nat × Nat) (hp : linkIndex p.1 p.2 < s.mesh.length) :
    (bootLink s p).chips = s.chips ∧ (bootLink s p).mesh.length = s.mesh.length ∧ (bootLink s p).boot = s.boot ∧
    (∀ i, i ≠ linkIndex p.1 p.2 → (bootLink s p).mesh[i]? = s.mesh[i]?) ∧
    ((linkOf s p.1 p.2).failed = true → (linkOf (bootLink s p) p.1 p.2).failed = true) ∧
    (∀ j, s.regs.eventCause.getLsbD j = true → (bootLink s p).regs.eventCause.getLsbD j = true) ∧
    ((linkOf s p.1 p.2).failed = true → (chipOf s p.1).active = true → (chipOf s p.2).active = true →
      (bootLink s p).regs.eventCause.getLsbD 2 = true) := by
  generalize hw : countLink (setLink s p.1 p.2 fun l => { l with failed := true }) p.1 p.2 5 1 = w
  generalize hv : logFault (raiseEvent w evLINK_FAILED) evLINK_FAILED p.1 p.2 5 = v
  have hb : bootLink s p = if (!((linkOf s p.1 p.2).failed || decide ((linkOf s p.1 p.2).up.lanes.length < 2 ∨ (linkOf s p.1 p.2).down.lanes.length < 2)) || !(chipOf s p.1).active || !(chipOf s p.2).active) then s else v := by
    unfold bootLink; dsimp only; rw [hw, hv]
  have e1 := logFault_frame (raiseEvent w evLINK_FAILED) evLINK_FAILED p.1 p.2 5
  have e2 := raiseEvent_mild w evLINK_FAILED
  rw [hv] at e1
  have vc : v.chips = s.chips := by
    have a := congrArg State.chips e1
    have b := congrArg State.chips e2
    exact (show _ = _ from a).trans ((show _ = _ from b).trans (by rw [← hw]; rfl))
  have vb : v.boot = s.boot := by
    have a := congrArg State.boot e1
    have b := congrArg State.boot e2
    exact (show _ = _ from a).trans ((show _ = _ from b).trans (by rw [← hw]; rfl))
  have vm : v.mesh = w.mesh := by
    have a := congrArg State.mesh e1
    have b := congrArg State.mesh e2
    exact (show _ = _ from a).trans (show _ = _ from b)
  have vr : v.regs = (raiseEvent w evLINK_FAILED).regs := by
    have a := congrArg State.regs e1; exact a
  have wl : w.mesh.length = s.mesh.length := by
    rw [← hw]; show (modNth (modNth _ _ _) _ _).length = _; rw [modNth_length, modNth_length]
  rw [hb]
  split
  · next h => exact ⟨rfl, rfl, rfl, fun _ _ => rfl, id, fun _ h => h, fun h1 h2 h3 => by rw [h1, h2, h3] at h; simp at h⟩
  · refine ⟨vc, by rw [vm, wl], vb, ?_, ?_, ?_, ?_⟩
    · intro i hi
      rw [vm, ← hw]
      show (modNth (modNth s.mesh _ _) _ _)[i]? = _
      rw [modNth_other _ _ _ _ hi, modNth_other _ _ _ _ hi]
    · intro _
      have : linkOf v p.1 p.2 = linkOf w p.1 p.2 := by unfold linkOf; rw [vm]
      rw [this, ← hw, linkOf_countLink _ _ _ _ _ (by show _ < (modNth _ _ _).length; rw [modNth_length]; exact hp), linkOf_setLink _ _ _ _ hp]
    · intro j hj
      rw [vr]
      refine raiseEvent_stays w _ j ?_
      rw [← hw]; exact hj
    · intro _ _ _
      rw [vr]; exact raiseEvent_sets w (by decide)

theorem align_spec (out : List Nat) (s : State) :
    { out.foldl (fun s c => setChip s c fun x => { x with active := false }) s with chips := s.chips } = s ∧
    (out.foldl (fun s c => setChip s c fun x => { x with active := false }) s).chips.length = s.chips.length ∧
    ∀ c, c < s.chips.length → chipOf (out.foldl (fun s c => setChip s c fun x => { x with active := false }) s) c =
      if c ∈ out then { chipOf s c with active := false } else chipOf s c := by
  induction out generalizing s with
  | nil => exact ⟨rfl, rfl, fun c _ => by simp⟩
  | cons k out ih =>
    obtain ⟨a, b, h⟩ := ih (setChip s k fun x => { x with active := false })
    rw [setChip_length] at b h
    refine ⟨?_, b, ?_⟩
    · have := congrArg (fun x : State => { x with chips := s.chips }) a
      exact this
    · intro c hc
      rw [List.foldl_cons, h c hc]
      by_cases hk : c = k
      · subst hk
        rw [chipOf_setChip s c _ hc, if_pos List.mem_cons_self]
        split <;> rfl
      · rw [chipOf_setChip_ne s _ hk]
        simp only [List.mem_cons, hk, false_or]

theorem resumeContext_frame (s : State) (p : Nat × List Byte) (h : s.deputy = none) :
    { resumeContext s p with streams := s.streams, vault := s.vault } = s ∧
    { (resumeContext s p).vault with faultLog := s.vault.faultLog } = s.vault ∧
    (∀ j, streamOf (resumeContext s p) j = if j = p.1 ∧ crc32c (p.2.take 508) = fieldAt p.2 508 4 then
      { parseCtx p.2 (mapGet [] s.vault.bias p.1) [] with histValid := false, hist := [], histHead := 0 } else streamOf s j) ∧
    (crc32c (p.2.take 508) ≠ fieldAt p.2 508 4 → (resumeContext s p).vault.faultLog.head? = some ⟨s.now, 0x40, 0, 0, p.1⟩) := by
  unfold resumeContext
  by_cases hc : crc32c (p.2.take 508) = fieldAt p.2 508 4
  · rw [if_pos hc]
    refine ⟨rfl, rfl, ?_, fun k => absurd hc k⟩
    intro j
    dsimp only
    rw [streamOf_setStream]
    by_cases hj : j = p.1
    · rw [if_pos hj, if_pos ⟨hj, hc⟩]
    · rw [if_neg hj, if_neg (fun k => hj k.1)]
  · rw [if_neg hc]
    have q : ∃ l, logFault s 0x40 0 0 p.1 = { s with vault := { s.vault with faultLog := (⟨s.now, 0x40, 0, 0, p.1⟩ :: l : List LogEntry) } } := by
      unfold logFault
      dsimp only
      rw [h]
      exact ⟨_, rfl⟩
    obtain ⟨l, q⟩ := q
    rw [q]
    exact ⟨rfl, rfl, fun j => (if_neg (fun k => hc k.2)).symm, fun _ => rfl⟩

theorem resumeContexts_spec (cs : List (Nat × List Byte)) (s : State) (h : s.deputy = none) :
    let u := cs.foldl resumeContext s
    { u with streams := s.streams, vault := s.vault } = s ∧ { u.vault with faultLog := s.vault.faultLog } = s.vault ∧
    (∀ j, (∀ p ∈ cs, p.1 ≠ j) → streamOf u j = streamOf s j) ∧
    (∀ p ∈ cs, (cs.Pairwise fun p q => p.1 ≠ q.1) → streamOf u p.1 = if crc32c (p.2.take 508) = fieldAt p.2 508 4 then
      { parseCtx p.2 (mapGet [] s.vault.bias p.1) [] with histValid := false, hist := [], histHead := 0 } else streamOf s p.1) := by
  induction cs generalizing s with
  | nil => exact ⟨rfl, rfl, fun _ _ => rfl, fun p hp => by cases hp⟩
  | cons c cs ih =>
    obtain ⟨a1, a2, a3, -⟩ := resumeContext_frame s c h
    have hd : (resumeContext s c).deputy = none := by have := congrArg State.deputy a1; exact (show _ = _ from this).trans h
    obtain ⟨i1, i2, i3, i4⟩ := ih (resumeContext s c) hd
    have hb : (resumeContext s c).vault.bias = s.vault.bias := by have := congrArg Vault.bias a2; exact this
    refine ⟨?_, ?_, ?_, ?_⟩
    · have := congrArg (fun x : State => { x with streams := s.streams, vault := s.vault }) i1
      exact (show _ = _ from this).trans a1
    · have := congrArg (fun x : Vault => { x with faultLog := s.vault.faultLog }) i2
      exact (show _ = _ from this).trans a2
    · intro j hj
      have := i3 j fun p hp => hj p (List.mem_cons_of_mem _ hp)
      refine this.trans ?_
      rw [a3, if_neg (fun k => hj c List.mem_cons_self k.1.symm)]
    · intro p hp hpw
      rw [List.pairwise_cons] at hpw
      rcases List.mem_cons.1 hp with rfl | hp
      · refine (i3 p.1 fun q hq => (hpw.1 q hq).symm).trans ?_
        rw [a3]
        by_cases hc : crc32c (p.2.take 508) = fieldAt p.2 508 4
        · rw [if_pos ⟨rfl, hc⟩, if_pos hc]
        · rw [if_neg (fun k => hc k.2), if_neg hc]
      · refine (i4 p hp hpw.2).trans ?_
        rw [hb, a3, if_neg (fun k : p.1 = c.1 ∧ _ => hpw.1 p hp k.1.symm)]

theorem resumeLanes_spec (x : Slot) (cs : List Nat) (s : State) (hnd : cs.Nodup) :
    let u := cs.foldl (resumeLanes x) s
    { u with chips := s.chips } = s ∧ u.chips.length = s.chips.length ∧ (∀ c, c ∉ cs → chipOf u c = chipOf s c) ∧
    (∀ c ∈ cs, c < s.chips.length → (chipOf s c).active = true → bit x.chips c = true → c < x.lanes.length →
            (chipOf u c).lanes = nth [] x.lanes c) := by
  induction cs generalizing s with
  | nil => exact ⟨rfl, rfl, fun _ _ => rfl, fun c hc => by cases hc⟩
  | cons k cs ih =>
    rw [List.nodup_cons] at hnd
    obtain ⟨i1, i2, i3, i4⟩ := ih (resumeLanes x s k) hnd.2
    have f : { resumeLanes x s k with chips := s.chips } = s ∧ (resumeLanes x s k).chips.length = s.chips.length ∧
        ∀ c, c ≠ k → chipOf (resumeLanes x s k) c = chipOf s c := by
      unfold resumeLanes
      split
      · exact ⟨rfl, rfl, fun _ _ => rfl⟩
      · exact ⟨rfl, setChip_length _ _ _, fun c hc => chipOf_setChip_ne s _ hc⟩
    refine ⟨?_, i2.trans f.2.1, ?_, ?_⟩
    · have := congrArg (fun y : State => { y with chips := s.chips }) i1
      exact (show _ = _ from this).trans f.1
    · intro c hc
      rw [List.mem_cons, not_or] at hc
      exact (i3 c hc.2).trans (f.2.2 c hc.1)
    · intro c hc hl ha hb hx
      rcases List.mem_cons.1 hc with rfl | hc
      · rw [List.foldl_cons, i3 c hnd.1]
        unfold resumeLanes
        rw [if_neg (by rw [ha]; decide)]
        dsimp only
        rw [chipOf_setChip s c _ hl, if_pos hb]
        show nth _ x.lanes c = _
        unfold nth
        rw [List.getD_eq_getElem?_getD, List.getD_eq_getElem?_getD, List.getElem?_eq_getElem hx]; rfl
      · have hne : c ≠ k := fun h => hnd.1 (h ▸ hc)
        exact i4 c hc (by rw [f.2.1]; exact hl) (by rw [f.2.2 c hne]; exact ha) hb hx

theorem reinstall_frame (s : State) (p : Nat × List Byte) :
    { reinstall s p with functions := s.functions, regs := s.regs, mgmt := s.mgmt } = s ∧
    { (reinstall s p).regs with events := s.regs.events } = s.regs := by
  unfold reinstall; split <;> exact ⟨rfl, rfl⟩

theorem reinstalls_frame (l : List (Nat × List Byte)) (s : State) :
    { l.foldl reinstall s with functions := s.functions, regs := s.regs, mgmt := s.mgmt } = s ∧
    { (l.foldl reinstall s).regs with events := s.regs.events } = s.regs := by
  induction l generalizing s with
  | nil => exact ⟨rfl, rfl⟩
  | cons p l ih =>
    obtain ⟨a, b⟩ := reinstall_frame s p
    obtain ⟨i, j⟩ := ih (reinstall s p)
    have q1 := congrArg (fun y : State => { y with functions := s.functions, regs := s.regs, mgmt := s.mgmt }) i
    have q2 := congrArg (fun y : Regs => { y with events := s.regs.events }) j
    exact ⟨(show _ = _ from q1).trans a, (show _ = _ from q2).trans b⟩

end Sys2Proof.Laws
end

