-- ==== Sys2Proof/Laws/KeepsSteps.lean ====
section
/-! SUPPORT. Keeps (Laws/KeepsBase.lean) for repairs, stream, model and step commands. -/

namespace Sys2Proof.Machine

theorem declareLoss_keeps (s : State) (c : Nat) : Keeps s (declareLoss s c) := by
  unfold declareLoss
  try dsimp only
  iterate 12 all_goals first
    | with_reducible exact Keeps.refl _
    | with_reducible split
    | with_reducible refine Keeps.trans ?_ (Keeps.upd rfl rfl rfl rfl rfl rfl)
    | skip

theorem declareBy_keeps (s : State) (c : Nat) : Keeps s (declareBy s c) := by
  unfold declareBy
  try dsimp only
  iterate 12 all_goals first
    | with_reducible exact Keeps.refl _
    | with_reducible refine Keeps.trans ?_ (declareLoss_keeps _ _)
    | with_reducible split
    | with_reducible refine Keeps.trans ?_ (Keeps.upd rfl rfl rfl rfl rfl rfl)
    | skip

theorem fatal_keeps (s : State) (c : Nat) : Keeps s (fatal s c) := by
  unfold fatal
  try dsimp only
  iterate 12 all_goals first
    | with_reducible exact Keeps.refl _
    | with_reducible refine Keeps.trans ?_ (countChip_keeps _ _ _ _)
    | with_reducible refine Keeps.trans ?_ (declareBy_keeps _ _)
    | with_reducible split
    | with_reducible refine Keeps.trans ?_ (Keeps.upd rfl rfl rfl rfl rfl rfl)
    | skip

theorem fenceCore_keeps (s : State) (c k origin : Nat) : Keeps s (fenceCore s c k origin) := by
  unfold fenceCore
  dsimp only
  exact .ite (.refl s) (.ite (fatal_keeps _ _) (.ite ((setCore_keeps _ _ _ _).trans (addLedger_keeps _ _ _ _ _ _ _))
    ((((setCore_keeps _ _ _ _).trans (countChip_keeps _ _ _ _)).trans (raiseEvent_keeps _ _)).trans
      (logFault_keeps _ _ _ _ _))))

theorem replaceCore_keeps (s : State) (c : Nat) (k : Nat) : Keeps s (replaceCore s c k) := by
  unfold replaceCore
  try dsimp only
  iterate 12 all_goals first
    | with_reducible exact Keeps.refl _
    | with_reducible refine Keeps.trans ?_ (setCore_keeps _ _ _ _)
    | with_reducible refine Keeps.trans ?_ (addLedger_keeps _ _ _ _ _ _ _)
    | with_reducible split
    | with_reducible refine Keeps.trans ?_ (Keeps.upd rfl rfl rfl rfl rfl rfl)
    | skip

theorem dropSparing_keeps (s : State) (c : Nat) (k : Nat) (row : Nat) : Keeps s (dropSparing s c k row) := by
  unfold dropSparing
  try dsimp only
  iterate 12 all_goals first
    | with_reducible exact Keeps.refl _
    | with_reducible split
    | with_reducible refine Keeps.trans ?_ (Keeps.upd rfl rfl rfl rfl rfl rfl)
    | skip

theorem spareRow_keeps (s : State) (c : Nat) (k : Nat) (row : Nat) (origin : Nat) : Keeps s (spareRow s c k row
    origin) := by
  unfold spareRow
  try dsimp only
  iterate 12 all_goals first
    | with_reducible exact Keeps.refl _
    | with_reducible refine Keeps.trans ?_ (setCore_keeps _ _ _ _)
    | with_reducible refine Keeps.trans ?_ (countCore_keeps _ _ _ _ _)
    | with_reducible refine Keeps.trans ?_ (addLedger_keeps _ _ _ _ _ _ _)
    | with_reducible refine Keeps.trans ?_ (fenceCore_keeps _ _ _ _)
    | with_reducible refine Keeps.trans ?_ (dropSparing_keeps _ _ _ _)
    | with_reducible split
    | with_reducible refine Keeps.trans ?_ (Keeps.upd rfl rfl rfl rfl rfl rfl)
    | skip

theorem spareFails_keeps (s : State) (c : Nat) (k : Nat) (j : Nat) (origin : Nat) : Keeps s (spareFails s c k j
    origin) := by
  unfold spareFails
  try dsimp only
  iterate 12 all_goals first
    | with_reducible exact Keeps.refl _
    | with_reducible refine Keeps.trans ?_ (setCore_keeps _ _ _ _)
    | with_reducible refine Keeps.trans ?_ (spareRow_keeps _ _ _ _ _)
    | with_reducible split
    | with_reducible refine Keeps.trans ?_ (Keeps.upd rfl rfl rfl rfl rfl rfl)
    | skip

theorem ringFails_keeps (s : State) (c : Nat) (origin : Nat) : Keeps s (ringFails s c origin) := by
  unfold ringFails
  try dsimp only
  iterate 12 all_goals first
    | with_reducible exact Keeps.refl _
    | with_reducible refine Keeps.trans ?_ (raiseEvent_keeps _ _)
    | with_reducible refine Keeps.trans ?_ (setChip_keeps _ _ _)
    | with_reducible refine Keeps.trans ?_ (fenceCore_keeps _ _ _ _)
    | with_reducible split
    | with_reducible refine Keeps.trans ?_ (Keeps.upd rfl rfl rfl rfl rfl rfl)
    | skip

theorem bistFail_keeps (s : State) (c : Nat) (k : Nat) (origin : Nat) : Keeps s (bistFail s c k origin) := by
  unfold bistFail
  try dsimp only
  iterate 12 all_goals first
    | with_reducible exact Keeps.refl _
    | with_reducible refine Keeps.trans ?_ (logFault_keeps _ _ _ _ _)
    | with_reducible refine Keeps.trans ?_ (raiseEvent_keeps _ _)
    | with_reducible refine Keeps.trans ?_ (countCore_keeps _ _ _ _ _)
    | with_reducible refine Keeps.trans ?_ (fenceCore_keeps _ _ _ _)
    | with_reducible split
    | with_reducible refine Keeps.trans ?_ (Keeps.upd rfl rfl rfl rfl rfl rfl)
    | skip

theorem bistResult_keeps (s : State) (origin : Nat) (r : BistResult) : Keeps s (bistResult s origin r) := by
  unfold bistResult
  dsimp only
  have h := ((foldl_keeps (fun s k => bistFail_keeps s r.chip k origin) r.failedCores s).trans
    (foldl_keeps (fun s (p : Nat × Nat) => spareRow_keeps s r.chip p.1 p.2 origin) r.failedRows _)).trans
    (foldl_keeps (fun s (p : Nat × Nat) => spareFails_keeps s r.chip p.1 p.2 origin) r.failedSpares _)
  exact .ite (.refl s) (.ite (((raiseEvent_keeps _ _).trans (logFault_keeps _ _ _ _ _)).trans (fatal_keeps _ _))
    (.ite h (h.trans (ringFails_keeps _ _ _))))

theorem loseStream_keeps (s : State) (sid : Nat) : Keeps s (loseStream s sid) := by
  unfold loseStream
  try dsimp only
  iterate 12 all_goals first
    | with_reducible exact Keeps.refl _
    | with_reducible refine Keeps.trans ?_ (logFault_keeps _ _ _ _ _)
    | with_reducible refine Keeps.trans ?_ (setStream_keeps _ _ _)
    | with_reducible refine Keeps.trans ?_ (unaudit_keeps _ _)
    | with_reducible split
    | with_reducible refine Keeps.trans ?_ (Keeps.upd rfl rfl rfl rfl rfl rfl)
    | skip

theorem loseMask_keeps (s : State) (e : Nat) : Keeps s (loseMask s e) := by
  unfold loseMask
  try dsimp only
  iterate 12 all_goals first
    | with_reducible exact Keeps.refl _
    | with_reducible split
    | with_reducible refine Keeps.trans ?_ (Keeps.upd rfl rfl rfl rfl rfl rfl)
    | skip

theorem hbmUe_keeps (s : State) (c : Nat) (i : Nat) : Keeps s (hbmUe s c i) := by
  unfold hbmUe
  try dsimp only
  iterate 12 all_goals first
    | with_reducible exact Keeps.refl _
    | with_reducible refine Keeps.trans ?_ (setChip_keeps _ _ _)
    | with_reducible refine Keeps.trans ?_ (countHbm_keeps _ _ _ _)
    | with_reducible refine Keeps.trans ?_ (fatal_keeps _ _)
    | with_reducible split
    | with_reducible refine Keeps.trans ?_ (Keeps.upd rfl rfl rfl rfl rfl rfl)
    | skip

theorem sramUe_keeps (s : State) (c : Nat) (k : Nat) (row : Nat) (again : Bool) (piece : Bool) : Keeps s (sramUe s c
    k row again piece) := by
  unfold sramUe
  try dsimp only
  iterate 12 all_goals first
    | with_reducible exact Keeps.refl _
    | with_reducible refine Keeps.trans ?_ (countCore_keeps _ _ _ _ _)
    | with_reducible refine Keeps.trans ?_ (askQuiet_keeps _)
    | with_reducible refine Keeps.trans ?_ (fenceCore_keeps _ _ _ _)
    | with_reducible split
    | with_reducible refine Keeps.trans ?_ (Keeps.upd rfl rfl rfl rfl rfl rfl)
    | skip

theorem compareWords_keeps (s : State) (c : Nat) (sid : Nat) (atHome : Bool) (first : Dword × Dword) (again : Dword ×
    Dword) : Keeps s (compareWords s c sid atHome first again) := by
  unfold compareWords
  try dsimp only
  iterate 12 all_goals first
    | with_reducible exact Keeps.refl _
    | with_reducible refine Keeps.trans ?_ (raiseEvent_keeps _ _)
    | with_reducible refine Keeps.trans ?_ (setChip_keeps _ _ _)
    | with_reducible refine Keeps.trans ?_ (countChip_keeps _ _ _ _)
    | with_reducible refine Keeps.trans ?_ (askQuiet_keeps _)
    | with_reducible split
    | with_reducible refine Keeps.trans ?_ (Keeps.upd rfl rfl rfl rfl rfl rfl)
    | skip

theorem reseedLane_keeps (s : State) (c : Nat) (l : Nat) : Keeps s (reseedLane s c l) := by
  unfold reseedLane
  try dsimp only
  iterate 12 all_goals first
    | with_reducible exact Keeps.refl _
    | with_reducible refine Keeps.trans ?_ (mgmtEvent_keeps _ _ _ _)
    | with_reducible refine Keeps.trans ?_ (countChip_keeps _ _ _ _)
    | with_reducible refine Keeps.trans ?_ (setLane_keeps _ _ _ _)
    | with_reducible split
    | with_reducible refine Keeps.trans ?_ (Keeps.upd rfl rfl rfl rfl rfl rfl)
    | skip

theorem copiesBad_keeps (s : State) (i : Nat) (home : Nat) (mirror : Nat) : Keeps s (copiesBad s i home mirror) := by
  unfold copiesBad
  try dsimp only
  iterate 12 all_goals first
    | with_reducible exact Keeps.refl _
    | with_reducible refine Keeps.trans ?_ (hbmUe_keeps _ _ _)
    | with_reducible split
    | with_reducible refine Keeps.trans ?_ (Keeps.upd rfl rfl rfl rfl rfl rfl)
    | skip

theorem dropRecord_keeps (s : State) (sid : Nat) (st : Nat) : Keeps s (dropRecord s sid st) := by
  unfold dropRecord
  try dsimp only
  iterate 12 all_goals first
    | with_reducible exact Keeps.refl _
    | with_reducible split
    | with_reducible refine Keeps.trans ?_ (Keeps.upd rfl rfl rfl rfl rfl rfl)
    | skip

theorem applyIncident_keeps (s : State) (seen : List Incident) (i : Incident) : Keeps s (applyIncident s seen i) := by
  cases i <;> dsimp only [applyIncident]
  case sramCe => exact countCore_keeps _ _ _ _ _
  case sramUe => exact sramUe_keeps _ _ _ _ _ _
  case contextUe => exact sramUe_keeps _ _ _ _ _ _
  case sfuCe => exact countCore_keeps _ _ _ _ _
  case sfuUe => exact .ite ((countCore_keeps _ _ _ _ _).trans (fenceCore_keeps _ _ _ _)) (countCore_keeps _ _ _ _ _)
  case hbmCe => exact countHbm_keeps _ _ _ _
  case hbmUeModel => exact hbmUe_keeps _ _ _
  case hbmUeReserved => exact hbmUe_keeps _ _ _
  case lockCheck => exact compareWords_keeps _ _ _ _ _ _
  case laneParity => exact reseedLane_keeps _ _ _
  case ingressUe => exact hbmUe_keeps _ _ _
  case overhangFail => exact .refl s
  case streamLost => exact (loseStream_keeps _ _).trans (copiesBad_keeps _ _ _ _)
  case maskLost => exact (loseMask_keeps _ _).trans (copiesBad_keeps _ _ _ _)
  case windowRecordLost => exact (dropRecord_keeps _ _ _).trans (hbmUe_keeps _ _ _)

theorem applyIncidentsFrom_keeps (l seen : List Incident) (s : State) : Keeps s (applyIncidentsFrom s seen l) := by
  induction l generalizing s seen with
  | nil => exact .refl s
  | cons i rest ih => exact (applyIncident_keeps _ _ _).trans (ih _ _)

theorem applyIncidents_keeps (s : State) (l : List Incident) : Keeps s (applyIncidents s l) :=
  applyIncidentsFrom_keeps l [] s

theorem applyScrub_keeps (s : State) (i : Incident) : Keeps s (applyScrub s i) := by
  unfold applyScrub
  try dsimp only
  iterate 12 all_goals first
    | with_reducible exact Keeps.refl _
    | with_reducible refine Keeps.trans ?_ (countHbm_keeps _ _ _ _)
    | with_reducible refine Keeps.trans ?_ (loseStream_keeps _ _)
    | with_reducible refine Keeps.trans ?_ (loseMask_keeps _ _)
    | with_reducible refine Keeps.trans ?_ (hbmUe_keeps _ _ _)
    | with_reducible refine Keeps.trans ?_ (copiesBad_keeps _ _ _ _)
    | with_reducible refine Keeps.trans ?_ (dropRecord_keeps _ _ _)
    | with_reducible refine Keeps.trans ?_ (applyIncident_keeps _ _ _)
    | with_reducible split
    | with_reducible refine Keeps.trans ?_ (Keeps.upd rfl rfl rfl rfl rfl rfl)
    | skip

theorem commitShutdown_keeps (s : State) (d : Nat) (kind : Nat) (railsStay : Bool) (toI5 : Bool) : Keeps s
    (commitShutdown s d kind railsStay toI5) := by
  unfold commitShutdown
  try dsimp only
  iterate 12 all_goals first
    | with_reducible exact Keeps.refl _
    | with_reducible refine Keeps.trans ?_ (raiseEvent_keeps _ _)
    | with_reducible split
    | with_reducible refine Keeps.trans ?_ (Keeps.upd rfl rfl rfl rfl rfl rfl)
    | skip

theorem readFault_keeps (s : State) (c : Cmd) (list : Bool) (a : Nat) (o : Nat) (n : Nat) : Keeps s (readFault s c
    list a o n) := by
  unfold readFault
  try dsimp only
  iterate 12 all_goals first
    | with_reducible exact Keeps.refl _
    | with_reducible refine Keeps.trans ?_ (logAer_keeps _ _)
    | with_reducible refine Keeps.trans ?_ (finishCmd_keeps _ _ _ _ _ _)
    | with_reducible split
    | with_reducible refine Keeps.trans ?_ (Keeps.upd rfl rfl rfl rfl rfl rfl)
    | skip

theorem lateBad_keeps (s : State) (c : Cmd) (detail : Nat) : Keeps s (lateBad s c detail) := by
  unfold lateBad
  try dsimp only
  iterate 12 all_goals first
    | with_reducible exact Keeps.refl _
    | with_reducible refine Keeps.trans ?_ (finishCmd_keeps _ _ _ _ _ _)
    | with_reducible split
    | with_reducible refine Keeps.trans ?_ (Keeps.upd rfl rfl rfl rfl rfl rfl)
    | skip

theorem doneCmd_keeps (s : State) (c : Cmd) (commits : List Commit) : Keeps s (doneCmd s c commits) := by
  unfold doneCmd
  try dsimp only
  iterate 12 all_goals first
    | with_reducible exact Keeps.refl _
    | with_reducible refine Keeps.trans ?_ (finishCmd_keeps _ _ _ _ _ _)
    | with_reducible split
    | with_reducible refine Keeps.trans ?_ (Keeps.upd rfl rfl rfl rfl rfl rfl)
    | skip

theorem withParams_keeps (s : State) (c : Cmd) (k : List Byte → State) (h : ∀ b, Keeps s (k b)) :
    Keeps s (withParams s c k) := by
  unfold withParams
  split
  · exact readFault_keeps _ _ _ _ _ _
  · exact h _

theorem withList_keeps (s : State) (c : Cmd) (a n : Nat) (k : List Byte → State) (h : ∀ b, Keeps s (k b)) :
    Keeps s (withList s c a n k) := by
  unfold withList
  split
  · exact readFault_keeps _ _ _ _ _ _
  · exact h _

theorem onCmd_keeps (s : State) (id op : Nat) (k : Cmd → State) (h : ∀ c, Keeps s (k c)) : Keeps s (onCmd s id op k)
    := by
  unfold onCmd
  split
  · exact h _
  · exact .refl s

theorem withBias_keeps (s : State) (c : Cmd) (b : List Byte) (set : Bool) (k : List (Nat × Word) → State)
    (h : ∀ l, Keeps s (k l)) : Keeps s (withBias s c b set k) := by
  unfold withBias
  dsimp only
  split
  · exact withList_keeps _ _ _ _ _ fun _ => h _
  · exact h _

theorem doOpenStream_keeps (s : State) (id : Nat) : Keeps s (doOpenStream s id) := by
  unfold doOpenStream
  try dsimp only
  iterate 12 all_goals first
    | with_reducible exact Keeps.refl _
    | with_reducible refine Keeps.trans ?_ (lateBad_keeps _ _ _)
    | with_reducible refine Keeps.trans ?_ (doneCmd_keeps _ _ _)
    | with_reducible refine onCmd_keeps _ _ _ _ (fun c => ?_)
    | with_reducible refine withParams_keeps _ _ _ (fun b => ?_)
    | with_reducible refine withBias_keeps _ _ _ _ _ (fun b => ?_)
    | with_reducible split
    | with_reducible refine Keeps.trans ?_ (Keeps.upd rfl rfl rfl rfl rfl rfl)
    | skip

theorem doSetStreamParams_keeps (s : State) (id : Nat) : Keeps s (doSetStreamParams s id) := by
  unfold doSetStreamParams
  try dsimp only
  iterate 12 all_goals first
    | with_reducible exact Keeps.refl _
    | with_reducible refine Keeps.trans ?_ (lateBad_keeps _ _ _)
    | with_reducible refine Keeps.trans ?_ (doneCmd_keeps _ _ _)
    | with_reducible refine onCmd_keeps _ _ _ _ (fun c => ?_)
    | with_reducible refine withParams_keeps _ _ _ (fun b => ?_)
    | with_reducible refine withBias_keeps _ _ _ _ _ (fun b => ?_)
    | with_reducible split
    | with_reducible refine Keeps.trans ?_ (Keeps.upd rfl rfl rfl rfl rfl rfl)
    | skip

theorem doCloseStream_keeps (s : State) (id : Nat) : Keeps s (doCloseStream s id) := by
  unfold doCloseStream
  try dsimp only
  iterate 12 all_goals first
    | with_reducible exact Keeps.refl _
    | with_reducible refine Keeps.trans ?_ (lateBad_keeps _ _ _)
    | with_reducible refine Keeps.trans ?_ (doneCmd_keeps _ _ _)
    | with_reducible refine onCmd_keeps _ _ _ _ (fun c => ?_)
    | with_reducible split
    | with_reducible refine Keeps.trans ?_ (Keeps.upd rfl rfl rfl rfl rfl rfl)
    | skip

theorem doRebuildHistory_keeps (s : State) (id : Nat) : Keeps s (doRebuildHistory s id) := by
  unfold doRebuildHistory
  try dsimp only
  iterate 12 all_goals first
    | with_reducible exact Keeps.refl _
    | with_reducible refine Keeps.trans ?_ (lateBad_keeps _ _ _)
    | with_reducible refine Keeps.trans ?_ (doneCmd_keeps _ _ _)
    | with_reducible refine onCmd_keeps _ _ _ _ (fun c => ?_)
    | with_reducible refine withParams_keeps _ _ _ (fun b => ?_)
    | with_reducible split
    | with_reducible refine Keeps.trans ?_ (Keeps.upd rfl rfl rfl rfl rfl rfl)
    | skip

theorem doSaveStream_keeps (s : State) (id : Nat) : Keeps s (doSaveStream s id) := by
  unfold doSaveStream
  try dsimp only
  iterate 12 all_goals first
    | with_reducible exact Keeps.refl _
    | with_reducible refine Keeps.trans ?_ (hostWrite_keeps _ _ _)
    | with_reducible refine Keeps.trans ?_ (lateBad_keeps _ _ _)
    | with_reducible refine Keeps.trans ?_ (doneCmd_keeps _ _ _)
    | with_reducible refine onCmd_keeps _ _ _ _ (fun c => ?_)
    | with_reducible split
    | with_reducible refine Keeps.trans ?_ (Keeps.upd rfl rfl rfl rfl rfl rfl)
    | skip

theorem doRestoreStream_keeps (s : State) (id : Nat) : Keeps s (doRestoreStream s id) := by
  unfold doRestoreStream
  try dsimp only
  iterate 12 all_goals first
    | with_reducible exact Keeps.refl _
    | with_reducible refine Keeps.trans ?_ (lateBad_keeps _ _ _)
    | with_reducible refine Keeps.trans ?_ (doneCmd_keeps _ _ _)
    | with_reducible refine onCmd_keeps _ _ _ _ (fun c => ?_)
    | with_reducible refine withParams_keeps _ _ _ (fun b => ?_)
    | with_reducible split
    | with_reducible refine Keeps.trans ?_ (Keeps.upd rfl rfl rfl rfl rfl rfl)
    | skip

theorem withIf_keeps (s : State) (c : Cmd) (on : Bool) (a n : Nat) (k : List Byte → State) (h : ∀ b, Keeps s (k b)) :
    Keeps s (withIf s c on a n k) := by
  unfold withIf
  split
  · exact withList_keeps _ _ _ _ _ h
  · exact h _

theorem writeOverhang_keeps (s : State) (m : Model) : Keeps s (writeOverhang s m).1 :=
  foldl_keeps (fun _ _ => hostWrite_keeps _ _ _) _ _

theorem doLoadModel_keeps (s : State) (id : Nat) : Keeps s (doLoadModel s id) := by
  unfold doLoadModel
  refine onCmd_keeps _ _ _ _ fun c => withParams_keeps _ _ _ fun d => withList_keeps _ _ _ _ _ fun matrix =>
    withIf_keeps _ _ _ _ _ _ fun bias => withIf_keeps _ _ _ _ _ _ fun normW => withIf_keeps _ _ _ _ _ _ fun heads =>
    withIf_keeps _ _ _ _ _ _ fun rope => ?_
  exact .ite ((writeOverhang_keeps _ _).trans (finishCmd_keeps _ _ _ _ _ _))
    ((writeOverhang_keeps _ _).trans (doneCmd_keeps _ _ _))

theorem onModel_keeps (s : State) (c : Cmd) (k : Model → State) (h : ∀ m, Keeps s (k m)) : Keeps s (onModel s c k) :=
    by
  unfold onModel
  split
  · exact lateBad_keeps _ _ _
  · split
    · exact finishCmd_keeps _ _ _ _ _ _
    · exact h _

theorem doUnloadModel_keeps (s : State) (id : Nat) : Keeps s (doUnloadModel s id) := by
  unfold doUnloadModel
  try dsimp only
  iterate 12 all_goals first
    | with_reducible exact Keeps.refl _
    | with_reducible refine Keeps.trans ?_ (doneCmd_keeps _ _ _)
    | with_reducible refine onCmd_keeps _ _ _ _ (fun c => ?_)
    | with_reducible refine onModel_keeps _ _ _ (fun m => ?_)
    | with_reducible split
    | with_reducible refine Keeps.trans ?_ (Keeps.upd rfl rfl rfl rfl rfl rfl)
    | skip

theorem doSetModelPriority_keeps (s : State) (id : Nat) : Keeps s (doSetModelPriority s id) := by
  unfold doSetModelPriority
  try dsimp only
  iterate 12 all_goals first
    | with_reducible exact Keeps.refl _
    | with_reducible refine Keeps.trans ?_ (doneCmd_keeps _ _ _)
    | with_reducible refine onCmd_keeps _ _ _ _ (fun c => ?_)
    | with_reducible refine onModel_keeps _ _ _ (fun m => ?_)
    | with_reducible split
    | with_reducible refine Keeps.trans ?_ (Keeps.upd rfl rfl rfl rfl rfl rfl)
    | skip

theorem writeStep_keeps (s : State) (c : Cmd) (k : Nat) (r : StreamResult) (ql : List (List Byte)) : Keeps s
    (writeStep s c k r ql) := by
  unfold writeStep
  try dsimp only
  iterate 12 all_goals first
    | with_reducible exact Keeps.refl _
    | with_reducible refine Keeps.trans ?_ (hostWrite_keeps _ _ _)
    | with_reducible refine Keeps.trans ?_ (foldl_keeps (fun s x => hostWrite_keeps s _ _) _ _)
    | with_reducible split
    | with_reducible refine Keeps.trans ?_ (foldl_keeps (fun s x => ?_) _ _)
    | with_reducible refine Keeps.trans ?_ (Keeps.upd rfl rfl rfl rfl rfl rfl)
    | skip

theorem runSteps_keeps (s : State) (c : Cmd) (b : List Byte) (v : StepEnv) (flags : Nat) (inc : List Incident) :
    Keeps s (runSteps s c b v flags inc) := by
  unfold runSteps
  try dsimp only
  iterate 12 all_goals first
    | with_reducible exact Keeps.refl _
    | with_reducible refine Keeps.trans ?_ (recordFlags_keeps _ _ _)
    | with_reducible refine Keeps.trans ?_ (foldl_keeps (fun s x => recordFlags_keeps s _ _) _ _)
    | with_reducible refine Keeps.trans ?_ (finishCmd_keeps _ _ _ _ _ _)
    | with_reducible refine Keeps.trans ?_ (foldl_keeps (fun s x => finishCmd_keeps s _ _ _ _ _) _ _)
    | with_reducible refine Keeps.trans ?_ (nextFree_keeps _)
    | with_reducible refine Keeps.trans ?_ (foldl_keeps (fun s x => nextFree_keeps s) _ _)
    | with_reducible refine Keeps.trans ?_ (applyIncidents_keeps _ _)
    | with_reducible refine Keeps.trans ?_ (foldl_keeps (fun s x => applyIncidents_keeps s _) _ _)
    | with_reducible refine Keeps.trans ?_ (writeStep_keeps _ _ _ _ _)
    | with_reducible refine Keeps.trans ?_ (foldl_keeps (fun s x => writeStep_keeps s _ _ _ _) _ _)
    | with_reducible split
    | with_reducible refine Keeps.trans ?_ (foldl_keeps (fun s x => ?_) _ _)
    | with_reducible refine Keeps.trans ?_ (Keeps.upd rfl rfl rfl rfl rfl rfl)
    | skip

theorem stepModel_keeps (s : State) (c : Cmd) (b : List Byte) (inc : List Incident) (m : Model) :
    Keeps s (stepModel s c b inc m) :=
  .ite (finishCmd_keeps _ _ _ _ _ _) (.ite ((applyIncidents_keeps _ _).trans (finishCmd_keeps _ _ _ _ _ _))
    (runSteps_keeps _ _ _ _ _ _))

theorem cacheStream_keeps (s : State) (sid : Nat) : Keeps s (cacheStream s sid) := by
  unfold cacheStream
  try dsimp only
  iterate 12 all_goals first
    | with_reducible exact Keeps.refl _
    | with_reducible refine Keeps.trans ?_ (setChip_keeps _ _ _)
    | with_reducible split
    | with_reducible refine Keeps.trans ?_ (Keeps.upd rfl rfl rfl rfl rfl rfl)
    | skip

theorem doStepOp_keeps (s : State) (id op : Nat) (inc : List Incident) : Keeps s (doStepOp s id op inc) := by
  unfold doStepOp
  refine onCmd_keeps _ _ _ _ (fun c => withParams_keeps _ _ _ (fun b => ?_))
  dsimp only
  have h := foldl_keeps (fun s (e : List Byte) => cacheStream_keeps s (fieldAt e 0 2))
    ((List.range (pkt c 2 2)).map (entryAt b)) s
  generalize (((List.range (pkt c 2 2)).map (entryAt b)).foldl (fun s e => cacheStream s (fieldAt e 0 2)) s) = u at h ⊢
  refine h.trans ?_
  split
  · exact readFault_keeps _ _ _ _ _ _
  · refine .ite (lateBad_keeps _ _ _) (.ite (lateBad_keeps _ _ _) (.ite (runSteps_keeps _ _ _ _ _ _) ?_))
    split
    · exact lateBad_keeps _ _ _
    · exact stepModel_keeps _ _ _ _ _

end Sys2Proof.Machine
end

