-- ==== Sys2Proof/Laws/KeepsTensor.lean ====
section
/-! SUPPORT. Keeps (Laws/KeepsBase.lean) for tensor, load, audit and control commands. -/

namespace Sys2Proof.Machine

theorem writeRows_keeps (s : State) (c : Cmd) (e : TEnv) (rows : List TRow) : Keeps s (writeRows s c e rows) := by
  unfold writeRows
  try dsimp only
  iterate 12 all_goals first
    | with_reducible exact Keeps.refl _
    | with_reducible refine Keeps.trans ?_ (hostWrite_keeps _ _ _)
    | with_reducible refine Keeps.trans ?_ (foldl_keeps (fun s x => hostWrite_keeps s _ _) _ _)
    | with_reducible refine Keeps.trans ?_ (spoilAreas_keeps _ _ _)
    | with_reducible refine Keeps.trans ?_ (foldl_keeps (fun s x => spoilAreas_keeps s _ _) _ _)
    | with_reducible split
    | with_reducible refine Keeps.trans ?_ (foldl_keeps (fun s x => ?_) _ _)
    | with_reducible refine Keeps.trans ?_ (Keeps.upd rfl rfl rfl rfl rfl rfl)
    | skip

theorem finishTensor_keeps (s : State) (c : Cmd) (e : TEnv) (inc : List Incident) (commits : List Commit) (rows :
    List TRow) : Keeps s (finishTensor s c e inc commits rows) := by
  unfold finishTensor
  try dsimp only
  iterate 12 all_goals first
    | with_reducible exact Keeps.refl _
    | with_reducible refine Keeps.trans ?_ (recordFlags_keeps _ _ _)
    | with_reducible refine Keeps.trans ?_ (foldl_keeps (fun s x => recordFlags_keeps s _ _) _ _)
    | with_reducible refine Keeps.trans ?_ (finishCmd_keeps _ _ _ _ _ _)
    | with_reducible refine Keeps.trans ?_ (foldl_keeps (fun s x => finishCmd_keeps s _ _ _ _ _) _ _)
    | with_reducible refine Keeps.trans ?_ (nextFree_keeps _)
    | with_reducible refine Keeps.trans ?_ (foldl_keeps (fun s x => nextFree_keeps s) _ _)
    | with_reducible refine Keeps.trans ?_ (applyIncidents_keeps _ _)
    | with_reducible refine Keeps.trans ?_ (foldl_keeps (fun s x => applyIncidents_keeps s _) _ _)
    | with_reducible refine Keeps.trans ?_ (writeRows_keeps _ _ _ _)
    | with_reducible refine Keeps.trans ?_ (foldl_keeps (fun s x => writeRows_keeps s _ _ _) _ _)
    | with_reducible split
    | with_reducible refine Keeps.trans ?_ (foldl_keeps (fun s x => ?_) _ _)
    | with_reducible refine Keeps.trans ?_ (Keeps.upd rfl rfl rfl rfl rfl rfl)
    | skip

theorem doTensor_keeps (s : State) (id op : Nat) (inc : List Incident) (k : Cmd → TEnv → List TRow × List Commit) :
    Keeps s (doTensor s id op inc k) := by
  unfold doTensor
  refine onCmd_keeps _ _ _ _ fun c => withParams_keeps _ _ _ fun b => ?_
  dsimp only
  split
  · exact (logAer_keeps _ _).trans (finishCmd_keeps _ _ _ _ _ _)
  · exact finishTensor_keeps _ _ _ _ _ _

theorem doSoftmax_keeps (s : State) (id : Nat) (inc : List Incident) : Keeps s (doSoftmax s id inc) := by
  unfold doSoftmax
  try dsimp only
  iterate 12 all_goals first
    | with_reducible exact Keeps.refl _
    | with_reducible refine Keeps.trans ?_ (doTensor_keeps _ _ _ _ _)
    | with_reducible exact doTensor_keeps _ _ _ _ _
    | with_reducible split
    | with_reducible refine Keeps.trans ?_ (Keeps.upd rfl rfl rfl rfl rfl rfl)
    | skip

theorem doTopk_keeps (s : State) (id : Nat) (inc : List Incident) : Keeps s (doTopk s id inc) := by
  unfold doTopk
  try dsimp only
  iterate 12 all_goals first
    | with_reducible exact Keeps.refl _
    | with_reducible refine Keeps.trans ?_ (doTensor_keeps _ _ _ _ _)
    | with_reducible exact doTensor_keeps _ _ _ _ _
    | with_reducible split
    | with_reducible refine Keeps.trans ?_ (Keeps.upd rfl rfl rfl rfl rfl rfl)
    | skip

theorem doThresholdCompact_keeps (s : State) (id : Nat) (inc : List Incident) : Keeps s (doThresholdCompact s id inc)
    := by
  unfold doThresholdCompact
  try dsimp only
  iterate 12 all_goals first
    | with_reducible exact Keeps.refl _
    | with_reducible refine Keeps.trans ?_ (doTensor_keeps _ _ _ _ _)
    | with_reducible exact doTensor_keeps _ _ _ _ _
    | with_reducible split
    | with_reducible refine Keeps.trans ?_ (Keeps.upd rfl rfl rfl rfl rfl rfl)
    | skip

theorem doRowstat_keeps (s : State) (id : Nat) (inc : List Incident) : Keeps s (doRowstat s id inc) := by
  unfold doRowstat
  try dsimp only
  iterate 12 all_goals first
    | with_reducible exact Keeps.refl _
    | with_reducible refine Keeps.trans ?_ (doTensor_keeps _ _ _ _ _)
    | with_reducible exact doTensor_keeps _ _ _ _ _
    | with_reducible split
    | with_reducible refine Keeps.trans ?_ (Keeps.upd rfl rfl rfl rfl rfl rfl)
    | skip

theorem doCast_keeps (s : State) (id : Nat) (inc : List Incident) : Keeps s (doCast s id inc) := by
  unfold doCast
  try dsimp only
  iterate 12 all_goals first
    | with_reducible exact Keeps.refl _
    | with_reducible refine Keeps.trans ?_ (doTensor_keeps _ _ _ _ _)
    | with_reducible exact doTensor_keeps _ _ _ _ _
    | with_reducible split
    | with_reducible refine Keeps.trans ?_ (Keeps.upd rfl rfl rfl rfl rfl rfl)
    | skip

theorem doRandomFill_keeps (s : State) (id : Nat) (inc : List Incident) : Keeps s (doRandomFill s id inc) := by
  unfold doRandomFill
  try dsimp only
  iterate 12 all_goals first
    | with_reducible exact Keeps.refl _
    | with_reducible refine Keeps.trans ?_ (doTensor_keeps _ _ _ _ _)
    | with_reducible exact doTensor_keeps _ _ _ _ _
    | with_reducible split
    | with_reducible refine Keeps.trans ?_ (Keeps.upd rfl rfl rfl rfl rfl rfl)
    | skip

theorem doApplyFunction_keeps (s : State) (id : Nat) (inc : List Incident) : Keeps s (doApplyFunction s id inc) := by
  unfold doApplyFunction
  try dsimp only
  iterate 12 all_goals first
    | with_reducible exact Keeps.refl _
    | with_reducible refine Keeps.trans ?_ (doTensor_keeps _ _ _ _ _)
    | with_reducible exact doTensor_keeps _ _ _ _ _
    | with_reducible split
    | with_reducible refine Keeps.trans ?_ (Keeps.upd rfl rfl rfl rfl rfl rfl)
    | skip

theorem doRingJump_keeps (s : State) (id : Nat) : Keeps s (doRingJump s id) := by
  unfold doRingJump
  try dsimp only
  iterate 12 all_goals first
    | with_reducible exact Keeps.refl _
    | with_reducible refine Keeps.trans ?_ (lateBad_keeps _ _ _)
    | with_reducible refine Keeps.trans ?_ (doneCmd_keeps _ _ _)
    | with_reducible refine onCmd_keeps _ _ _ _ (fun c => ?_)
    | with_reducible refine withParams_keeps _ _ _ (fun b => ?_)
    | with_reducible split
    | with_reducible refine Keeps.trans ?_ (Keeps.upd rfl rfl rfl rfl rfl rfl)
    | skip

theorem doLoadFunction_keeps (s : State) (id : Nat) (inc : List Incident) : Keeps s (doLoadFunction s id inc) := by
  unfold doLoadFunction
  try dsimp only
  iterate 12 all_goals first
    | with_reducible exact Keeps.refl _
    | with_reducible refine Keeps.trans ?_ (hostWrite_keeps _ _ _)
    | with_reducible refine Keeps.trans ?_ (finishCmd_keeps _ _ _ _ _ _)
    | with_reducible refine Keeps.trans ?_ (applyIncidents_keeps _ _)
    | with_reducible refine Keeps.trans ?_ (doneCmd_keeps _ _ _)
    | with_reducible refine onCmd_keeps _ _ _ _ (fun c => ?_)
    | with_reducible refine withParams_keeps _ _ _ (fun b => ?_)
    | with_reducible split
    | with_reducible refine Keeps.trans ?_ (Keeps.upd rfl rfl rfl rfl rfl rfl)
    | skip

theorem doLoadMask_keeps (s : State) (id : Nat) : Keeps s (doLoadMask s id) := by
  unfold doLoadMask
  try dsimp only
  iterate 12 all_goals first
    | with_reducible exact Keeps.refl _
    | with_reducible refine Keeps.trans ?_ (finishCmd_keeps _ _ _ _ _ _)
    | with_reducible refine Keeps.trans ?_ (doneCmd_keeps _ _ _)
    | with_reducible refine onCmd_keeps _ _ _ _ (fun c => ?_)
    | with_reducible refine withParams_keeps _ _ _ (fun b => ?_)
    | with_reducible refine withList_keeps _ _ _ _ _ (fun b => ?_)
    | with_reducible split
    | with_reducible refine Keeps.trans ?_ (Keeps.upd rfl rfl rfl rfl rfl rfl)
    | skip

theorem writeSections_keeps (l : List (Nat × List Byte)) (s : State) (a : Nat) : Keeps s (writeSections s a l) := by
  induction l generalizing s a with
  | nil => exact .refl s
  | cons p rest ih => exact (hostWrite_keeps _ _ _).trans (ih _ _)

theorem finishReplay_keeps (s : State) (c : Cmd) (a : Nat) (head : List Byte) (l : List (Nat × List Byte)) (x :
    ReplaySrc)
    (inc : List Incident) : Keeps s (finishReplay s c a head l x inc) :=
  (((hostWrite_keeps _ _ _).trans (writeSections_keeps _ _ _)).trans
    ((applyIncidents_keeps _ _).trans (nextFree_keeps _))).trans (finishCmd_keeps _ _ _ _ _ _)

theorem runReplay_keeps (s : State) (c : Cmd) (b : List Byte) (x : ReplaySrc) (inc : List Incident) :
    Keeps s (runReplay s c b x inc) :=
  finishReplay_keeps _ _ _ _ _ _ _

theorem replayModel_keeps (s : State) (c : Cmd) (b : List Byte) (x : ReplaySrc) (inc : List Incident) :
    Keeps s (replayModel s c b x inc) := by
  unfold replayModel
  split
  · exact runReplay_keeps _ _ _ _ _
  · exact .ite (finishCmd_keeps _ _ _ _ _ _) (.ite ((applyIncidents_keeps _ _).trans (finishCmd_keeps _ _ _ _ _ _))
      (runReplay_keeps _ _ _ _ _))

theorem doReplay_keeps (s : State) (id : Nat) (inc : List Incident) : Keeps s (doReplay s id inc) := by
  unfold doReplay
  try dsimp only
  iterate 12 all_goals first
    | with_reducible exact Keeps.refl _
    | with_reducible refine Keeps.trans ?_ (readFault_keeps _ _ _ _ _ _)
    | with_reducible refine Keeps.trans ?_ (lateBad_keeps _ _ _)
    | with_reducible refine Keeps.trans ?_ (replayModel_keeps _ _ _ _ _)
    | with_reducible refine onCmd_keeps _ _ _ _ (fun c => ?_)
    | with_reducible refine withParams_keeps _ _ _ (fun b => ?_)
    | with_reducible refine withList_keeps _ _ _ _ _ (fun b => ?_)
    | with_reducible split
    | with_reducible refine Keeps.trans ?_ (Keeps.upd rfl rfl rfl rfl rfl rfl)
    | skip

theorem doReadDigests_keeps (s : State) (id : Nat) : Keeps s (doReadDigests s id) := by
  unfold doReadDigests
  try dsimp only
  iterate 12 all_goals first
    | with_reducible exact Keeps.refl _
    | with_reducible refine Keeps.trans ?_ (hostWrite_keeps _ _ _)
    | with_reducible refine Keeps.trans ?_ (readFault_keeps _ _ _ _ _ _)
    | with_reducible refine Keeps.trans ?_ (doneCmd_keeps _ _ _)
    | with_reducible refine onCmd_keeps _ _ _ _ (fun c => ?_)
    | with_reducible refine withParams_keeps _ _ _ (fun b => ?_)
    | with_reducible refine withList_keeps _ _ _ _ _ (fun b => ?_)
    | with_reducible split
    | with_reducible refine Keeps.trans ?_ (Keeps.upd rfl rfl rfl rfl rfl rfl)
    | skip

theorem doReadFlags_keeps (s : State) (id : Nat) (t : Tick) : Keeps s (doReadFlags s id t) := by
  unfold doReadFlags
  try dsimp only
  iterate 12 all_goals first
    | with_reducible exact Keeps.refl _
    | with_reducible refine Keeps.trans ?_ (stamp_keeps _ _)
    | with_reducible refine Keeps.trans ?_ (hostWrite_keeps _ _ _)
    | with_reducible refine Keeps.trans ?_ (clearFlags_keeps _)
    | with_reducible refine Keeps.trans ?_ (doneCmd_keeps _ _ _)
    | with_reducible refine onCmd_keeps _ _ _ _ (fun c => ?_)
    | with_reducible refine withParams_keeps _ _ _ (fun b => ?_)
    | with_reducible split
    | with_reducible refine Keeps.trans ?_ (Keeps.upd rfl rfl rfl rfl rfl rfl)
    | skip

theorem doReadCounters_keeps (s : State) (id : Nat) (t : Tick) : Keeps s (doReadCounters s id t) := by
  unfold doReadCounters
  try dsimp only
  iterate 12 all_goals first
    | with_reducible exact Keeps.refl _
    | with_reducible refine Keeps.trans ?_ (stamp_keeps _ _)
    | with_reducible refine Keeps.trans ?_ (hostWrite_keeps _ _ _)
    | with_reducible refine Keeps.trans ?_ (doneCmd_keeps _ _ _)
    | with_reducible refine onCmd_keeps _ _ _ _ (fun c => ?_)
    | with_reducible refine withParams_keeps _ _ _ (fun b => ?_)
    | with_reducible split
    | with_reducible refine Keeps.trans ?_ (Keeps.upd rfl rfl rfl rfl rfl rfl)
    | skip

theorem doClearCounters_keeps (s : State) (id : Nat) : Keeps s (doClearCounters s id) := by
  unfold doClearCounters
  try dsimp only
  iterate 12 all_goals first
    | with_reducible exact Keeps.refl _
    | with_reducible refine Keeps.trans ?_ (doneCmd_keeps _ _ _)
    | with_reducible refine onCmd_keeps _ _ _ _ (fun c => ?_)
    | with_reducible refine withParams_keeps _ _ _ (fun b => ?_)
    | with_reducible split
    | with_reducible refine Keeps.trans ?_ (Keeps.upd rfl rfl rfl rfl rfl rfl)
    | skip

theorem doNop_keeps (s : State) (id : Nat) : Keeps s (doNop s id) := by
  unfold doNop
  try dsimp only
  iterate 12 all_goals first
    | with_reducible exact Keeps.refl _
    | with_reducible refine Keeps.trans ?_ (doneCmd_keeps _ _ _)
    | with_reducible refine onCmd_keeps _ _ _ _ (fun c => ?_)
    | with_reducible split
    | with_reducible refine Keeps.trans ?_ (Keeps.upd rfl rfl rfl rfl rfl rfl)
    | skip

theorem doFence_keeps (s : State) (id : Nat) : Keeps s (doFence s id) := by
  unfold doFence
  try dsimp only
  iterate 12 all_goals first
    | with_reducible exact Keeps.refl _
    | with_reducible refine Keeps.trans ?_ (doneCmd_keeps _ _ _)
    | with_reducible refine onCmd_keeps _ _ _ _ (fun c => ?_)
    | with_reducible split
    | with_reducible refine Keeps.trans ?_ (Keeps.upd rfl rfl rfl rfl rfl rfl)
    | skip

theorem doSetMode_keeps (s : State) (id : Nat) : Keeps s (doSetMode s id) := by
  unfold doSetMode
  try dsimp only
  iterate 12 all_goals first
    | with_reducible exact Keeps.refl _
    | with_reducible refine Keeps.trans ?_ (lateBad_keeps _ _ _)
    | with_reducible refine Keeps.trans ?_ (doneCmd_keeps _ _ _)
    | with_reducible refine onCmd_keeps _ _ _ _ (fun c => ?_)
    | with_reducible split
    | with_reducible refine Keeps.trans ?_ (Keeps.upd rfl rfl rfl rfl rfl rfl)
    | skip

theorem doSetWakeTolerance_keeps (s : State) (id : Nat) : Keeps s (doSetWakeTolerance s id) := by
  unfold doSetWakeTolerance
  try dsimp only
  iterate 12 all_goals first
    | with_reducible exact Keeps.refl _
    | with_reducible refine Keeps.trans ?_ (wake_keeps _)
    | with_reducible refine Keeps.trans ?_ (doneCmd_keeps _ _ _)
    | with_reducible refine onCmd_keeps _ _ _ _ (fun c => ?_)
    | with_reducible split
    | with_reducible refine Keeps.trans ?_ (Keeps.upd rfl rfl rfl rfl rfl rfl)
    | skip

theorem doBarrier_keeps (s : State) (id : Nat) (t : Tick) : Keeps s (doBarrier s id t) := by
  refine (stamp_keeps s t).trans (onCmd_keeps _ _ _ _ fun c => ?_)
  split
  · exact .refl _
  · exact .upd rfl rfl rfl rfl rfl rfl

theorem doBarrierArrival_keeps (s : State) (id : Nat) (chip : Nat) (t : Tick) : Keeps s (doBarrierArrival s id chip
    t) := by
  unfold doBarrierArrival
  try dsimp only
  iterate 12 all_goals first
    | with_reducible exact Keeps.refl _
    | with_reducible refine Keeps.trans ?_ (stamp_keeps _ _)
    | with_reducible split
    | with_reducible refine Keeps.trans ?_ (Keeps.upd rfl rfl rfl rfl rfl rfl)
    | skip

theorem doBarrierRelease_keeps (s : State) (id : Nat) : Keeps s (doBarrierRelease s id) := by
  unfold doBarrierRelease
  split
  · exact .refl s
  split
  · exact .refl s
  · exact .ite (.refl s) (((Keeps.trans (stamp_keeps s _) (.upd rfl rfl rfl rfl rfl rfl)).trans (setCmd_keeps _ _
      _)).trans
      (onCmd_keeps _ _ _ _ fun _ => doneCmd_keeps _ _ _))

theorem doLaunchAt_keeps (s : State) (id : Nat) : Keeps s (doLaunchAt s id) := by
  unfold doLaunchAt
  try dsimp only
  iterate 12 all_goals first
    | with_reducible exact Keeps.refl _
    | with_reducible refine Keeps.trans ?_ (doneCmd_keeps _ _ _)
    | with_reducible refine onCmd_keeps _ _ _ _ (fun c => ?_)
    | with_reducible split
    | with_reducible refine Keeps.trans ?_ (Keeps.upd rfl rfl rfl rfl rfl rfl)
    | skip

theorem doLaunchTick_keeps (s : State) (id : Nat) : Keeps s (doLaunchTick s id) := by
  unfold doLaunchTick
  try dsimp only
  iterate 12 all_goals first
    | with_reducible exact Keeps.refl _
    | with_reducible refine Keeps.trans ?_ (stamp_keeps _ _)
    | with_reducible refine Keeps.trans ?_ (setCmd_keeps _ _ _)
    | with_reducible refine Keeps.trans ?_ (doCommandStart_keeps _ _ _)
    | with_reducible refine Keeps.trans ?_ (doneCmd_keeps _ _ _)
    | with_reducible refine onCmd_keeps _ _ _ _ (fun c => ?_)
    | with_reducible split
    | with_reducible refine Keeps.trans ?_ (Keeps.upd rfl rfl rfl rfl rfl rfl)
    | skip

theorem abortOne_keeps (detail : Nat) (stampTick : Nat) (s : State) (d : Cmd) : Keeps s (abortOne detail stampTick s
    d) := by
  unfold abortOne
  try dsimp only
  iterate 12 all_goals first
    | with_reducible exact Keeps.refl _
    | with_reducible refine Keeps.trans ?_ (setCmd_keeps _ _ _)
    | with_reducible refine Keeps.trans ?_ (endCmd_keeps _ _ _ _ _)
    | with_reducible split
    | with_reducible refine Keeps.trans ?_ (Keeps.upd rfl rfl rfl rfl rfl rfl)
    | skip

theorem doAbort_keeps (s : State) (id : Nat) : Keeps s (doAbort s id) := by
  unfold doAbort
  try dsimp only
  iterate 12 all_goals first
    | with_reducible exact Keeps.refl _
    | with_reducible refine Keeps.trans ?_ (finishCmd_keeps _ _ _ _ _ _)
    | with_reducible refine Keeps.trans ?_ (foldl_keeps (fun s x => finishCmd_keeps s _ _ _ _ _) _ _)
    | with_reducible refine Keeps.trans ?_ (dropBarrier_keeps _ _)
    | with_reducible refine Keeps.trans ?_ (foldl_keeps (fun s x => dropBarrier_keeps s _) _ _)
    | with_reducible refine Keeps.trans ?_ (abortOne_keeps _ _ _ _)
    | with_reducible refine Keeps.trans ?_ (foldl_keeps (fun s x => abortOne_keeps _ _ s _) _ _)
    | with_reducible refine Keeps.trans ?_ (busy_keeps _)
    | with_reducible refine Keeps.trans ?_ (foldl_keeps (fun s x => busy_keeps s) _ _)
    | with_reducible refine onCmd_keeps _ _ _ _ (fun c => ?_)
    | with_reducible split
    | with_reducible refine Keeps.trans ?_ (foldl_keeps (fun s x => ?_) _ _)
    | with_reducible refine Keeps.trans ?_ (Keeps.upd rfl rfl rfl rfl rfl rfl)
    | skip

end Sys2Proof.Machine
end

