-- ==== Sys2Proof/Laws/KeepsFabric.lean ====
section
/-! SUPPORT. Keeps (Laws/KeepsBase.lean) for the fabric, recovery and background tasks. -/

namespace Sys2Proof.Machine

theorem setDir_keeps (s : State) (src : Nat) (dst : Nat) (f : Dir → Dir) : Keeps s (setDir s src dst f) := by
  unfold setDir
  try dsimp only
  iterate 12 all_goals first
    | with_reducible exact Keeps.refl _
    | with_reducible refine Keeps.trans ?_ (setLink_keeps _ _ _ _)
    | with_reducible split
    | with_reducible refine Keeps.trans ?_ (Keeps.upd rfl rfl rfl rfl rfl rfl)
    | skip

theorem pump_keeps (s : State) (src dst n : Nat) : Keeps s (pump s src dst n) := by
  induction n generalizing s with
  | zero => exact .refl s
  | succ n ih =>
    unfold pump
    dsimp only
    split
    · exact .refl s
    · split
      · exact (setDir_keeps _ _ _ _).trans (ih _)
      · exact .refl s

theorem sendAll_keeps (s : State) (src : Nat) (dst : Nat) : Keeps s (sendAll s src dst) := by
  unfold sendAll
  try dsimp only
  iterate 12 all_goals first
    | with_reducible exact Keeps.refl _
    | with_reducible refine Keeps.trans ?_ (pump_keeps _ _ _ _)
    | with_reducible split
    | with_reducible refine Keeps.trans ?_ (Keeps.upd rfl rfl rfl rfl rfl rfl)
    | skip

theorem queueFlit_keeps (s : State) (chip : Nat) (f : Flit) : Keeps s (queueFlit s chip f) := by
  unfold queueFlit
  try dsimp only
  iterate 12 all_goals first
    | with_reducible exact Keeps.refl _
    | with_reducible refine Keeps.trans ?_ (setDir_keeps _ _ _ _)
    | with_reducible refine Keeps.trans ?_ (sendAll_keeps _ _ _)
    | with_reducible split
    | with_reducible refine Keeps.trans ?_ (Keeps.upd rfl rfl rfl rfl rfl rfl)
    | skip

theorem sendLocal_keeps (s : State) (chip : Nat) (f : Flit) : Keeps s (sendLocal s chip f) := by
  unfold sendLocal
  try dsimp only
  iterate 12 all_goals first
    | with_reducible exact Keeps.refl _
    | with_reducible refine Keeps.trans ?_ (setDir_keeps _ _ _ _)
    | with_reducible split
    | with_reducible refine Keeps.trans ?_ (Keeps.upd rfl rfl rfl rfl rfl rfl)
    | skip

theorem checkLinks_keeps (s : State) (a : Nat) (b : Nat) : Keeps s (checkLinks s a b) := by
  unfold checkLinks
  try dsimp only
  iterate 12 all_goals first
    | with_reducible exact Keeps.refl _
    | with_reducible refine Keeps.trans ?_ (declareLoss_keeps _ _)
    | with_reducible refine Keeps.trans ?_ (foldl_keeps (fun s x => declareLoss_keeps s _) _ _)
    | with_reducible refine Keeps.trans ?_ (declareBy_keeps _ _)
    | with_reducible refine Keeps.trans ?_ (foldl_keeps (fun s x => declareBy_keeps s _) _ _)
    | with_reducible split
    | with_reducible refine Keeps.trans ?_ (foldl_keeps (fun s x => ?_) _ _)
    | with_reducible refine Keeps.trans ?_ (Keeps.upd rfl rfl rfl rfl rfl rfl)
    | skip

theorem recheckLinks_keeps (s : State) : Keeps s (recheckLinks s) :=
  foldl_keeps (fun s _ => .ite (checkLinks_keeps _ _ _) (.refl s)) _ _

theorem replayNow_keeps (s : State) (id : Nat) : Keeps s (replayNow s id) := by
  unfold replayNow
  try dsimp only
  iterate 12 all_goals first
    | with_reducible exact Keeps.refl _
    | with_reducible refine Keeps.trans ?_ (countTotal_keeps _ _ _)
    | with_reducible refine Keeps.trans ?_ (setCmd_keeps _ _ _)
    | with_reducible split
    | with_reducible refine Keeps.trans ?_ (Keeps.upd rfl rfl rfl rfl rfl rfl)
    | skip

theorem closeSkips_keeps (s : State) (src : Nat) (dst : Nat) : Keeps s (closeSkips s src dst) := by
  unfold closeSkips
  try dsimp only
  iterate 12 all_goals first
    | with_reducible exact Keeps.refl _
    | with_reducible refine Keeps.trans ?_ (setDir_keeps _ _ _ _)
    | with_reducible split
    | with_reducible refine Keeps.trans ?_ (Keeps.upd rfl rfl rfl rfl rfl rfl)
    | skip

theorem dropLink_keeps (s : State) (a : Nat) (b : Nat) : Keeps s (dropLink s a b) := by
  unfold dropLink
  try dsimp only
  iterate 12 all_goals first
    | with_reducible exact Keeps.refl _
    | with_reducible refine Keeps.trans ?_ (setLink_keeps _ _ _ _)
    | with_reducible split
    | with_reducible refine Keeps.trans ?_ (Keeps.upd rfl rfl rfl rfl rfl rfl)
    | skip

theorem failLink_keeps (s : State) (a b : Nat) : Keeps s (failLink s a b) := by
  have h := ((closeSkips_keeps s (min a b) (max a b)).trans (closeSkips_keeps _ (max a b) (min a b))).trans
    (dropLink_keeps _ a b)
  have h := h.trans ((countLink_keeps _ a b 5 1).trans (raiseEvent_keeps _ evLINK_FAILED))
  have h := h.trans (logFault_keeps _ evLINK_FAILED (min a b) (max a b) 5)
  refine .ite (.refl s) (Keeps.trans ?_ (recheckLinks_keeps _))
  refine Keeps.trans (Keeps.trans ?_ (foldl_keeps (fun s f => queueFlit_keeps s _ f) _ _))
    (foldl_keeps (fun s f => queueFlit_keeps s _ f) _ _)
  exact .ite (h.trans (foldl_keeps replayNow_keeps _ _)) h

theorem startAttempt_keeps (s : State) (src : Nat) (dst : Nat) (fails : Nat) (entered : Tick) (told : Bool) : Keeps s
    (startAttempt s src dst fails entered told) := by
  unfold startAttempt
  try dsimp only
  iterate 12 all_goals first
    | with_reducible exact Keeps.refl _
    | with_reducible refine Keeps.trans ?_ (countLink_keeps _ _ _ _ _)
    | with_reducible refine Keeps.trans ?_ (setDir_keeps _ _ _ _)
    | with_reducible split
    | with_reducible refine Keeps.trans ?_ (Keeps.upd rfl rfl rfl rfl rfl rfl)
    | skip

theorem failAttempt_keeps (s : State) (src dst : Nat) (r : Retry) : Keeps s (failAttempt s src dst r) :=
  .ite ((countLink_keeps _ _ _ _ _).trans (failLink_keeps _ _ _))
    ((countLink_keeps _ _ _ _ _).trans (startAttempt_keeps _ _ _ _ _ _))

theorem retryEvent_keeps (s : State) (src dst : Nat) : Keeps s (retryEvent s src dst) := by
  unfold retryEvent
  split
  · exact (countLink_keeps _ _ _ _ _).trans (startAttempt_keeps _ _ _ _ _ _)
  · exact .ite (failAttempt_keeps _ _ _ _) (startAttempt_keeps _ _ _ _ _ _)

theorem acknowledge_keeps (s : State) (src dst ack : Nat) : Keeps s (acknowledge s src dst ack) :=
  ((closeSkips_keeps _ _ _).trans (setDir_keeps _ _ _ _)).trans (sendAll_keeps _ _ _)

theorem doNackReceive_keeps (s : State) (src dst ack : Nat) (t : Tick) : Keeps s (doNackReceive s src dst ack t) :=
  .ite (stamp_keeps _ _) (.ite (((stamp_keeps _ _).trans (setDir_keeps _ _ _ _)).trans (acknowledge_keeps _ _ _ _))
    ((((stamp_keeps _ _).trans (closeSkips_keeps _ _ _)).trans (setDir_keeps _ _ _ _)).trans (retryEvent_keeps _ _ _)))

theorem doAckTimeout_keeps (s : State) (src dst seq context : Nat) (t : Tick) :
    Keeps s (doAckTimeout s src dst seq context t) := by
  unfold doAckTimeout
  dsimp only
  have h := stamp_keeps s t
  generalize stamp s t = u at h ⊢
  refine .ite h ?_
  have h2 := h.trans (setDir_keeps u src dst
    fun d => noteSent d ⟨1, src, dst, seq % 4096, none, 0, false, 0, context, []⟩)
  generalize (setDir u src dst fun d => noteSent d ⟨1, src, dst, seq % 4096, none, 0, false, 0, context, []⟩) = v at h2 ⊢
  split
  · exact h2
  · exact h2.trans (retryEvent_keeps _ _ _)

theorem doRetryAttemptTimeout_keeps (s : State) (src : Nat) (dst : Nat) (t : Tick) : Keeps s (doRetryAttemptTimeout s
    src dst t) := by
  unfold doRetryAttemptTimeout
  try dsimp only
  iterate 12 all_goals first
    | with_reducible exact Keeps.refl _
    | with_reducible refine Keeps.trans ?_ (stamp_keeps _ _)
    | with_reducible refine Keeps.trans ?_ (closeSkips_keeps _ _ _)
    | with_reducible refine Keeps.trans ?_ (failAttempt_keeps _ _ _ _)
    | with_reducible split
    | with_reducible refine Keeps.trans ?_ (Keeps.upd rfl rfl rfl rfl rfl rfl)
    | skip

theorem doRetryWindowExpiry_keeps (s : State) (src : Nat) (dst : Nat) : Keeps s (doRetryWindowExpiry s src dst) := by
  unfold doRetryWindowExpiry
  try dsimp only
  iterate 12 all_goals first
    | with_reducible exact Keeps.refl _
    | with_reducible refine Keeps.trans ?_ (stamp_keeps _ _)
    | with_reducible refine Keeps.trans ?_ (failLink_keeps _ _ _)
    | with_reducible split
    | with_reducible refine Keeps.trans ?_ (Keeps.upd rfl rfl rfl rfl rfl rfl)
    | skip

theorem sendNack_keeps (s : State) (src : Nat) (dst : Nat) : Keeps s (sendNack s src dst) := by
  unfold sendNack
  try dsimp only
  iterate 12 all_goals first
    | with_reducible exact Keeps.refl _
    | with_reducible refine Keeps.trans ?_ (setDir_keeps _ _ _ _)
    | with_reducible split
    | with_reducible refine Keeps.trans ?_ (Keeps.upd rfl rfl rfl rfl rfl rfl)
    | skip

theorem badFlit_keeps (s : State) (src dst : Nat) : Keeps s (badFlit s src dst) := by
  unfold badFlit
  dsimp only
  refine Keeps.trans ?_ (sendNack_keeps _ _ _)
  have h := countLink_keeps s src dst 0 1
  generalize countLink s src dst 0 1 = u at h ⊢
  split
  · exact .ite ((h.trans (closeSkips_keeps _ _ _)).trans (startAttempt_keeps _ _ _ _ _ _)) h
  · exact h

theorem goodRun_keeps (s : State) (src dst : Nat) : Keeps s (goodRun s src dst) := by
  unfold goodRun
  split
  · split
    · exact .ite ((closeSkips_keeps _ _ _).trans (setDir_keeps _ _ _ _)) (setDir_keeps _ _ _ _)
    · exact .refl s
  · exact .refl s

theorem dataFlit_keeps (s : State) (src : Nat) (dst : Nat) (f : Flit) : Keeps s (dataFlit s src dst f) := by
  unfold dataFlit
  try dsimp only
  iterate 12 all_goals first
    | with_reducible exact Keeps.refl _
    | with_reducible refine Keeps.trans ?_ (setDir_keeps _ _ _ _)
    | with_reducible refine Keeps.trans ?_ (queueFlit_keeps _ _ _)
    | with_reducible refine Keeps.trans ?_ (sendNack_keeps _ _ _)
    | with_reducible split
    | with_reducible refine Keeps.trans ?_ (Keeps.upd rfl rfl rfl rfl rfl rfl)
    | skip

theorem timeFlit_keeps (s : State) (dst : Nat) (f : Flit) : Keeps s (timeFlit s dst f) := by
  unfold timeFlit
  try dsimp only
  iterate 12 all_goals first
    | with_reducible exact Keeps.refl _
    | with_reducible refine Keeps.trans ?_ (nextFree_keeps _)
    | with_reducible refine Keeps.trans ?_ (sendLocal_keeps _ _ _)
    | with_reducible split
    | with_reducible refine Keeps.trans ?_ (Keeps.upd rfl rfl rfl rfl rfl rfl)
    | skip

theorem goodFlit_keeps (s : State) (src dst : Nat) (f : Flit) (t : Tick) : Keeps s (goodFlit s src dst f t) := by
  have ha (u : State) (h : Keeps s u) :
      Keeps s (match f.ack with | some a => if f.typ = 2 then u else acknowledge u dst src a | none => u) := by
    split
    · exact .ite h (h.trans (acknowledge_keeps _ _ _ _))
    · exact h
  have hb (v : State) (h : Keeps s v) : Keeps s (match f.typ with
      | 2 => doNackReceive v dst src (f.ack.getD 0) t
      | 3 | 4 => timeFlit v dst f
      | _ => v) := by
    split
    · exact h.trans (doNackReceive_keeps _ _ _ _ _)
    · exact h.trans (timeFlit_keeps _ _ _)
    · exact h.trans (timeFlit_keeps _ _ _)
    · exact h
  have h := (ha _ (goodRun_keeps s src dst)).trans ((setDir_keeps _ dst src fun d => { d with
    credits := modNth d.credits (bits f.credits 1 0 + 4 * b2n f.relay) (· + bits f.credits 7 2) }).trans
      (sendAll_keeps _ dst src))
  exact .ite (h.trans ((setDir_keeps _ src dst fun d => noteSent d f).trans (dataFlit_keeps _ src dst f)))
    (hb _ (h.trans (setDir_keeps _ src dst fun d => { d with nacked := false })))

theorem doFlitReceive_keeps (s : State) (src dst : Nat) (f : List Byte) (t : Tick) : Keeps s (doFlitReceive s src dst
    f t) :=
  .ite (stamp_keeps _ _) (.ite ((stamp_keeps _ _).trans (goodFlit_keeps _ _ _ _ _))
    ((stamp_keeps _ _).trans (badFlit_keeps _ _ _)))

theorem doLaneRetire_keeps (s : State) (src : Nat) (dst : Nat) (lane : Nat) (lostLock : Bool) (errors : Nat) (t :
    Tick) : Keeps s (doLaneRetire s src dst lane lostLock errors t) := by
  unfold doLaneRetire
  try dsimp only
  iterate 12 all_goals first
    | with_reducible exact Keeps.refl _
    | with_reducible refine Keeps.trans ?_ (stamp_keeps _ _)
    | with_reducible refine Keeps.trans ?_ (countLink_keeps _ _ _ _ _)
    | with_reducible refine Keeps.trans ?_ (setDir_keeps _ _ _ _)
    | with_reducible refine Keeps.trans ?_ (failLink_keeps _ _ _)
    | with_reducible split
    | with_reducible refine Keeps.trans ?_ (Keeps.upd rfl rfl rfl rfl rfl rfl)
    | skip

theorem doLinkRecalibration_keeps (s : State) (a : Nat) (b : Nat) : Keeps s (doLinkRecalibration s a b) := by
  unfold doLinkRecalibration
  try dsimp only
  iterate 12 all_goals first
    | with_reducible exact Keeps.refl _
    | with_reducible refine Keeps.trans ?_ (setLink_keeps _ _ _ _)
    | with_reducible refine Keeps.trans ?_ (countLink_keeps _ _ _ _ _)
    | with_reducible split
    | with_reducible refine Keeps.trans ?_ (Keeps.upd rfl rfl rfl rfl rfl rfl)
    | skip

theorem doTimeExchange_keeps (s : State) (tmcOffset : Int) (t : Tick) : Keeps s (doTimeExchange s tmcOffset t) := by
  unfold doTimeExchange
  try dsimp only
  iterate 12 all_goals first
    | with_reducible exact Keeps.refl _
    | with_reducible refine Keeps.trans ?_ (stamp_keeps _ _)
    | with_reducible refine Keeps.trans ?_ (foldl_keeps (fun s x => stamp_keeps s _) _ _)
    | with_reducible refine Keeps.trans ?_ (nextFree_keeps _)
    | with_reducible refine Keeps.trans ?_ (foldl_keeps (fun s x => nextFree_keeps s) _ _)
    | with_reducible refine Keeps.trans ?_ (sendLocal_keeps _ _ _)
    | with_reducible refine Keeps.trans ?_ (foldl_keeps (fun s x => sendLocal_keeps s _ _) _ _)
    | with_reducible split
    | with_reducible refine Keeps.trans ?_ (foldl_keeps (fun s x => ?_) _ _)
    | with_reducible refine Keeps.trans ?_ (Keeps.upd rfl rfl rfl rfl rfl rfl)
    | skip

theorem timeFault_keeps (s : State) (c : Nat) (after : Int) : Keeps s (timeFault s c after) := by
  unfold timeFault
  try dsimp only
  iterate 12 all_goals first
    | with_reducible exact Keeps.refl _
    | with_reducible refine Keeps.trans ?_ (countChip_keeps _ _ _ _)
    | with_reducible refine Keeps.trans ?_ (fatal_keeps _ _)
    | with_reducible split
    | with_reducible refine Keeps.trans ?_ (Keeps.upd rfl rfl rfl rfl rfl rfl)
    | skip

theorem doTimeExchangeLoss_keeps (s : State) (c : Nat) (after : Int) : Keeps s (doTimeExchangeLoss s c after) := by
  unfold doTimeExchangeLoss
  try dsimp only
  iterate 12 all_goals first
    | with_reducible exact Keeps.refl _
    | with_reducible refine Keeps.trans ?_ (setChip_keeps _ _ _)
    | with_reducible refine Keeps.trans ?_ (timeFault_keeps _ _ _)
    | with_reducible split
    | with_reducible refine Keeps.trans ?_ (Keeps.upd rfl rfl rfl rfl rfl rfl)
    | skip

theorem doTimeRsp_keeps (s : State) (c : Nat) (sent : Nat) (received : Nat) (answered : Nat) (back : Nat) (after :
    Int) : Keeps s (doTimeRsp s c sent received answered back after) := by
  unfold doTimeRsp
  try dsimp only
  iterate 12 all_goals first
    | with_reducible exact Keeps.refl _
    | with_reducible refine Keeps.trans ?_ (stamp_keeps _ _)
    | with_reducible refine Keeps.trans ?_ (setChip_keeps _ _ _)
    | with_reducible refine Keeps.trans ?_ (timeFault_keeps _ _ _)
    | with_reducible refine Keeps.trans ?_ (doTimeExchangeLoss_keeps _ _ _)
    | with_reducible split
    | with_reducible refine Keeps.trans ?_ (Keeps.upd rfl rfl rfl rfl rfl rfl)
    | skip

theorem doCoreHeartbeatMiss_keeps (s : State) (c : Nat) (k : Nat) (t : Tick) : Keeps s (doCoreHeartbeatMiss s c k t)
    := by
  unfold doCoreHeartbeatMiss
  try dsimp only
  iterate 12 all_goals first
    | with_reducible exact Keeps.refl _
    | with_reducible refine Keeps.trans ?_ (stamp_keeps _ _)
    | with_reducible refine Keeps.trans ?_ (setCore_keeps _ _ _ _)
    | with_reducible refine Keeps.trans ?_ (countCore_keeps _ _ _ _ _)
    | with_reducible refine Keeps.trans ?_ (fenceCore_keeps _ _ _ _)
    | with_reducible split
    | with_reducible refine Keeps.trans ?_ (Keeps.upd rfl rfl rfl rfl rfl rfl)
    | skip

theorem doCoreReplacement_keeps (s : State) (c : Nat) (k : Nat) : Keeps s (doCoreReplacement s c k) := by
  unfold doCoreReplacement
  try dsimp only
  iterate 12 all_goals first
    | with_reducible exact Keeps.refl _
    | with_reducible refine Keeps.trans ?_ (replaceCore_keeps _ _ _)
    | with_reducible split
    | with_reducible refine Keeps.trans ?_ (Keeps.upd rfl rfl rfl rfl rfl rfl)
    | skip

theorem doChipHeartbeatMiss_keeps (s : State) (c : Nat) (t : Tick) : Keeps s (doChipHeartbeatMiss s c t) := by
  unfold doChipHeartbeatMiss
  try dsimp only
  iterate 12 all_goals first
    | with_reducible exact Keeps.refl _
    | with_reducible refine Keeps.trans ?_ (stamp_keeps _ _)
    | with_reducible refine Keeps.trans ?_ (setChip_keeps _ _ _)
    | with_reducible refine Keeps.trans ?_ (countChip_keeps _ _ _ _)
    | with_reducible refine Keeps.trans ?_ (declareLoss_keeps _ _)
    | with_reducible split
    | with_reducible refine Keeps.trans ?_ (Keeps.upd rfl rfl rfl rfl rfl rfl)
    | skip

theorem doFatalReport_keeps (s : State) (c : Nat) (t : Tick) : Keeps s (doFatalReport s c t) := by
  unfold doFatalReport
  try dsimp only
  iterate 12 all_goals first
    | with_reducible exact Keeps.refl _
    | with_reducible refine Keeps.trans ?_ (stamp_keeps _ _)
    | with_reducible refine Keeps.trans ?_ (fatal_keeps _ _)
    | with_reducible split
    | with_reducible refine Keeps.trans ?_ (Keeps.upd rfl rfl rfl rfl rfl rfl)
    | skip

theorem doRegulatorFault_keeps (s : State) (c : Nat) (t : Tick) : Keeps s (doRegulatorFault s c t) := by
  unfold doRegulatorFault
  try dsimp only
  iterate 12 all_goals first
    | with_reducible exact Keeps.refl _
    | with_reducible refine Keeps.trans ?_ (stamp_keeps _ _)
    | with_reducible refine Keeps.trans ?_ (declareBy_keeps _ _)
    | with_reducible split
    | with_reducible refine Keeps.trans ?_ (Keeps.upd rfl rfl rfl rfl rfl rfl)
    | skip

theorem dropChip_keeps (s : State) (c : Nat) : Keeps s (dropChip s c) := by
  unfold dropChip
  try dsimp only
  iterate 12 all_goals first
    | with_reducible exact Keeps.refl _
    | with_reducible refine Keeps.trans ?_ (logFault_keeps _ _ _ _ _)
    | with_reducible refine Keeps.trans ?_ (raiseEvent_keeps _ _)
    | with_reducible refine Keeps.trans ?_ (setChip_keeps _ _ _)
    | with_reducible refine Keeps.trans ?_ (countTotal_keeps _ _ _)
    | with_reducible refine Keeps.trans ?_ (addLedger_keeps _ _ _ _ _ _ _)
    | with_reducible split
    | with_reducible refine Keeps.trans ?_ (Keeps.upd rfl rfl rfl rfl rfl rfl)
    | skip

theorem promoteHomes_keeps (before s : State) (lost : List Nat) : Keeps s (promoteHomes before s lost) :=
  Keeps.trans (.upd rfl rfl rfl rfl rfl rfl) (foldl_keeps loseStream_keeps _ _)

theorem fenceMarks_keeps (s : State) (lost : List Nat) : Keeps s (fenceMarks s lost) := by
  unfold fenceMarks
  try dsimp only
  iterate 12 all_goals first
    | with_reducible exact Keeps.refl _
    | with_reducible split
    | with_reducible refine Keeps.trans ?_ (Keeps.upd rfl rfl rfl rfl rfl rfl)
    | skip

theorem catchCommands_keeps (s : State) (lost : List Nat) : Keeps s (catchCommands s lost) := by
  unfold catchCommands
  try dsimp only
  iterate 12 all_goals first
    | with_reducible exact Keeps.refl _
    | with_reducible refine Keeps.trans ?_ (countTotal_keeps _ _ _)
    | with_reducible split
    | with_reducible refine Keeps.trans ?_ (Keeps.upd rfl rfl rfl rfl rfl rfl)
    | skip

theorem fewChips_keeps (s : State) : Keeps s (fewChips s) := by
  unfold fewChips
  try dsimp only
  iterate 12 all_goals first
    | with_reducible exact Keeps.refl _
    | with_reducible refine Keeps.trans ?_ (mgmtEvent_keeps _ _ _ _)
    | with_reducible refine Keeps.trans ?_ (commitShutdown_keeps _ _ _ _ _)
    | with_reducible split
    | with_reducible refine Keeps.trans ?_ (Keeps.upd rfl rfl rfl rfl rfl rfl)
    | skip

theorem portsDown_keeps (s : State) : Keeps s (portsDown s) :=
  foldl_keeps (fun s _ => .ite (.refl s) (.upd rfl rfl rfl rfl rfl rfl)) _ _

theorem fenceNow_keeps (before : State) (lost earlier : List Nat) : Keeps before (fenceNow before lost earlier) :=
  ((((((foldl_keeps dropChip_keeps lost before).trans (catchCommands_keeps _ (earlier ++ lost))).trans
    (promoteHomes_keeps _ _ _)).trans ((fenceMarks_keeps _ _).trans (fixPlan_keeps _))).trans
    (recheckLinks_keeps _)).trans (portsDown_keeps _)).trans (fewChips_keeps _)

theorem doFenceTick_keeps (s : State) (t : Tick) : Keeps s (doFenceTick s t) := by
  unfold doFenceTick
  split
  · exact .ite (stamp_keeps _ _) ((stamp_keeps _ _).trans (fenceNow_keeps _ _ _))
  · exact stamp_keeps _ _

theorem readTails_keeps (s : State) : Keeps s (readTails s) := by
  unfold readTails
  try dsimp only
  iterate 12 all_goals first
    | with_reducible exact Keeps.refl _
    | with_reducible split
    | with_reducible refine Keeps.trans ?_ (Keeps.upd rfl rfl rfl rfl rfl rfl)
    | skip

theorem moveLead_keeps (s : State) : Keeps s (moveLead s) := by
  unfold moveLead
  try dsimp only
  iterate 12 all_goals first
    | with_reducible exact Keeps.refl _
    | with_reducible refine Keeps.trans ?_ (readTails_keeps _)
    | with_reducible split
    | with_reducible refine Keeps.trans ?_ (Keeps.upd rfl rfl rfl rfl rfl rfl)
    | skip

theorem doChipLossRestart_keeps (s : State) (t : Tick) : Keeps s (doChipLossRestart s t) := by
  unfold doChipLossRestart
  try dsimp only
  iterate 12 all_goals first
    | with_reducible exact Keeps.refl _
    | with_reducible refine Keeps.trans ?_ (stamp_keeps _ _)
    | with_reducible refine Keeps.trans ?_ (askQuiet_keeps _)
    | with_reducible refine Keeps.trans ?_ (moveLead_keeps _)
    | with_reducible split
    | with_reducible refine Keeps.trans ?_ (Keeps.upd rfl rfl rfl rfl rfl rfl)
    | skip

theorem doModelRelayComplete_keeps (s : State) (mid : Nat) : Keeps s (doModelRelayComplete s mid) := by
  unfold doModelRelayComplete
  dsimp only
  split
  · exact .refl s
  · exact .ite (.refl s) ((writeOverhang_keeps _ _).trans (.upd rfl rfl rfl rfl rfl rfl))

theorem doRelayDone_keeps (s : State) (t : Tick) : Keeps s (doRelayDone s t) := by
  unfold doRelayDone
  try dsimp only
  iterate 12 all_goals first
    | with_reducible exact Keeps.refl _
    | with_reducible refine Keeps.trans ?_ (stamp_keeps _ _)
    | with_reducible refine Keeps.trans ?_ (raiseEvent_keeps _ _)
    | with_reducible refine Keeps.trans ?_ (homingNow_keeps _ _)
    | with_reducible split
    | with_reducible refine Keeps.trans ?_ (Keeps.upd rfl rfl rfl rfl rfl rfl)
    | skip

theorem doMirrorBuildComplete_keeps (s : State) (sid : Nat) : Keeps s (doMirrorBuildComplete s sid) := by
  unfold doMirrorBuildComplete
  try dsimp only
  iterate 12 all_goals first
    | with_reducible exact Keeps.refl _
    | with_reducible split
    | with_reducible refine Keeps.trans ?_ (Keeps.upd rfl rfl rfl rfl rfl rfl)
    | skip

theorem restoreCounters_keeps (s : State) (x : CounterSet) : Keeps s (restoreCounters s x) := by
  unfold restoreCounters
  try dsimp only
  iterate 12 all_goals first
    | with_reducible exact Keeps.refl _
    | with_reducible split
    | with_reducible refine Keeps.trans ?_ (Keeps.upd rfl rfl rfl rfl rfl rfl)
    | skip

theorem doTmcWatchdog_keeps (s : State) : Keeps s (doTmcWatchdog s) := by
  unfold doTmcWatchdog
  try dsimp only
  iterate 12 all_goals first
    | with_reducible exact Keeps.refl _
    | with_reducible split
    | with_reducible refine Keeps.trans ?_ (Keeps.upd rfl rfl rfl rfl rfl rfl)
    | skip

theorem doTmcResume_keeps (s : State) : Keeps s (doTmcResume s) := by
  unfold doTmcResume
  try dsimp only
  iterate 12 all_goals first
    | with_reducible exact Keeps.refl _
    | with_reducible refine Keeps.trans ?_ (writeEntries_keeps _ _)
    | with_reducible refine Keeps.trans ?_ (foldl_keeps (fun s x => writeEntries_keeps s _) _ _)
    | with_reducible split
    | with_reducible refine Keeps.trans ?_ (foldl_keeps (fun s x => ?_) _ _)
    | with_reducible refine Keeps.trans ?_ (Keeps.upd rfl rfl rfl rfl rfl rfl)
    | skip

theorem doCounterSave_keeps (s : State) : Keeps s (doCounterSave s) := by
  unfold doCounterSave
  try dsimp only
  iterate 12 all_goals first
    | with_reducible exact Keeps.refl _
    | with_reducible split
    | with_reducible refine Keeps.trans ?_ (Keeps.upd rfl rfl rfl rfl rfl rfl)
    | skip

theorem runTask_keeps (s : State) (t : Task) : Keeps s (runTask s t) := by
  unfold runTask
  try dsimp only
  iterate 12 all_goals first
    | with_reducible exact Keeps.refl _
    | with_reducible refine Keeps.trans ?_ (spareRow_keeps _ _ _ _ _)
    | with_reducible refine Keeps.trans ?_ (foldl_keeps (fun s x => spareRow_keeps s _ _ _ _) _ _)
    | with_reducible refine Keeps.trans ?_ (bistResult_keeps _ _ _)
    | with_reducible refine Keeps.trans ?_ (foldl_keeps (fun s x => bistResult_keeps s _ _) _ _)
    | with_reducible refine Keeps.trans ?_ (applyIncident_keeps _ _ _)
    | with_reducible refine Keeps.trans ?_ (foldl_keeps (fun s x => applyIncident_keeps s _ _) _ _)
    | with_reducible refine Keeps.trans ?_ (applyScrub_keeps _ _)
    | with_reducible refine Keeps.trans ?_ (foldl_keeps (fun s x => applyScrub_keeps s _) _ _)
    | with_reducible refine Keeps.trans ?_ (doLinkRecalibration_keeps _ _ _)
    | with_reducible refine Keeps.trans ?_ (foldl_keeps (fun s x => doLinkRecalibration_keeps s _ _) _ _)
    | with_reducible split
    | with_reducible refine Keeps.trans ?_ (foldl_keeps (fun s x => ?_) _ _)
    | with_reducible refine Keeps.trans ?_ (Keeps.upd rfl rfl rfl rfl rfl rfl)
    | skip

theorem runGapTasks_keeps (s : State) : Keeps s (runGapTasks s) := by
  unfold runGapTasks
  try dsimp only
  iterate 12 all_goals first
    | with_reducible exact Keeps.refl _
    | with_reducible refine Keeps.trans ?_ (runTask_keeps _ _)
    | with_reducible refine Keeps.trans ?_ (foldl_keeps (fun s x => runTask_keeps s _) _ _)
    | with_reducible split
    | with_reducible refine Keeps.trans ?_ (foldl_keeps (fun s x => ?_) _ _)
    | with_reducible refine Keeps.trans ?_ (Keeps.upd rfl rfl rfl rfl rfl rfl)
    | skip

theorem countSegment_keeps (s : State) : Keeps s (countSegment s) := by
  unfold countSegment
  try dsimp only
  iterate 12 all_goals first
    | with_reducible exact Keeps.refl _
    | with_reducible split
    | with_reducible refine Keeps.trans ?_ (Keeps.upd rfl rfl rfl rfl rfl rfl)
    | skip

theorem doBackgroundTaskDue_keeps (s : State) (kind : Nat) (chip : Nat) (arg : Nat) (found : List Incident) (bad :
    List BistResult) (t : Tick) : Keeps s (doBackgroundTaskDue s kind chip arg found bad t) := by
  unfold doBackgroundTaskDue
  try dsimp only
  iterate 12 all_goals first
    | with_reducible exact Keeps.refl _
    | with_reducible refine Keeps.trans ?_ (stamp_keeps _ _)
    | with_reducible refine Keeps.trans ?_ (wake_keeps _)
    | with_reducible refine Keeps.trans ?_ (askQuiet_keeps _)
    | with_reducible refine Keeps.trans ?_ (runTask_keeps _ _)
    | with_reducible refine Keeps.trans ?_ (runGapTasks_keeps _)
    | with_reducible refine Keeps.trans ?_ (countSegment_keeps _)
    | with_reducible split
    | with_reducible refine Keeps.trans ?_ (Keeps.upd rfl rfl rfl rfl rfl rfl)
    | skip

theorem doBoundedSlot_keeps (s : State) (chip : Nat) (t : Tick) : Keeps s (doBoundedSlot s chip t) := by
  unfold doBoundedSlot
  try dsimp only
  iterate 12 all_goals first
    | with_reducible exact Keeps.refl _
    | with_reducible refine Keeps.trans ?_ (stamp_keeps _ _)
    | with_reducible refine Keeps.trans ?_ (setChip_keeps _ _ _)
    | with_reducible refine Keeps.trans ?_ (runTask_keeps _ _)
    | with_reducible split
    | with_reducible refine Keeps.trans ?_ (Keeps.upd rfl rfl rfl rfl rfl rfl)
    | skip

theorem doQuietSlotStart_keeps (s : State) (arrivals : List (Nat × Tick)) : Keeps s (doQuietSlotStart s arrivals) :=
    by
  unfold doQuietSlotStart
  try dsimp only
  iterate 12 all_goals first
    | with_reducible exact Keeps.refl _
    | with_reducible refine Keeps.trans ?_ (stamp_keeps _ _)
    | with_reducible refine Keeps.trans ?_ (foldl_keeps (fun s x => stamp_keeps s _) _ _)
    | with_reducible refine Keeps.trans ?_ (runTask_keeps _ _)
    | with_reducible refine Keeps.trans ?_ (foldl_keeps (fun s x => runTask_keeps s _) _ _)
    | with_reducible split
    | with_reducible refine Keeps.trans ?_ (foldl_keeps (fun s x => ?_) _ _)
    | with_reducible refine Keeps.trans ?_ (Keeps.upd rfl rfl rfl rfl rfl rfl)
    | skip

theorem doQuietSlotEnd_keeps (s : State) (t : Tick) : Keeps s (doQuietSlotEnd s t) := by
  unfold doQuietSlotEnd
  try dsimp only
  iterate 12 all_goals first
    | with_reducible exact Keeps.refl _
    | with_reducible refine Keeps.trans ?_ (stamp_keeps _ _)
    | with_reducible refine Keeps.trans ?_ (foldl_keeps (fun s x => stamp_keeps s _) _ _)
    | with_reducible refine Keeps.trans ?_ (doCommandStart_keeps _ _ _)
    | with_reducible refine Keeps.trans ?_ (foldl_keeps (fun s x => doCommandStart_keeps s _ _) _ _)
    | with_reducible refine Keeps.trans ?_ (askQuiet_keeps _)
    | with_reducible refine Keeps.trans ?_ (foldl_keeps (fun s x => askQuiet_keeps s) _ _)
    | with_reducible split
    | with_reducible refine Keeps.trans ?_ (foldl_keeps (fun s x => ?_) _ _)
    | with_reducible refine Keeps.trans ?_ (Keeps.upd rfl rfl rfl rfl rfl rfl)
    | skip

theorem idleTick_keeps (s : State) : Keeps s (idleTick s) := by
  unfold idleTick
  try dsimp only
  iterate 12 all_goals first
    | with_reducible exact Keeps.refl _
    | with_reducible refine Keeps.trans ?_ (runGapTasks_keeps _)
    | with_reducible split
    | with_reducible refine Keeps.trans ?_ (Keeps.upd rfl rfl rfl rfl rfl rfl)
    | skip

end Sys2Proof.Machine
end

