-- ==== Sys2Proof/Laws/KeepsPower.lean ====
section
/-! SUPPORT. Keeps (Laws/KeepsBase.lean) for power, bring-up and host links. -/

namespace Sys2Proof.Machine

theorem doPressureMeasurement_keeps (s : State) (load : Nat) (charge : Nat) : Keeps s (doPressureMeasurement s load
    charge) := by
  unfold doPressureMeasurement
  try dsimp only
  iterate 12 all_goals first
    | with_reducible exact Keeps.refl _
    | with_reducible split
    | with_reducible refine Keeps.trans ?_ (Keeps.upd rfl rfl rfl rfl rfl rfl)
    | skip

theorem doThermalThrottle_keeps (s : State) (c : Nat) (temp : Nat) (t : Tick) : Keeps s (doThermalThrottle s c temp
    t) := by
  unfold doThermalThrottle
  try dsimp only
  iterate 12 all_goals first
    | with_reducible exact Keeps.refl _
    | with_reducible refine Keeps.trans ?_ (stamp_keeps _ _)
    | with_reducible refine Keeps.trans ?_ (logFault_keeps _ _ _ _ _)
    | with_reducible refine Keeps.trans ?_ (raiseEvent_keeps _ _)
    | with_reducible refine Keeps.trans ?_ (setChip_keeps _ _ _)
    | with_reducible refine Keeps.trans ?_ (doRegulatorFault_keeps _ _ _)
    | with_reducible split
    | with_reducible refine Keeps.trans ?_ (Keeps.upd rfl rfl rfl rfl rfl rfl)
    | skip

theorem doThrottleRelease_keeps (s : State) (c : Nat) (temp : Nat) : Keeps s (doThrottleRelease s c temp) := by
  unfold doThrottleRelease
  try dsimp only
  iterate 12 all_goals first
    | with_reducible exact Keeps.refl _
    | with_reducible refine Keeps.trans ?_ (setChip_keeps _ _ _)
    | with_reducible split
    | with_reducible refine Keeps.trans ?_ (Keeps.upd rfl rfl rfl rfl rfl rfl)
    | skip

theorem doColdPlateOvertemp_keeps (s : State) (temp : Nat) : Keeps s (doColdPlateOvertemp s temp) := by
  unfold doColdPlateOvertemp
  try dsimp only
  iterate 12 all_goals first
    | with_reducible exact Keeps.refl _
    | with_reducible refine Keeps.trans ?_ (raiseEvent_keeps _ _)
    | with_reducible split
    | with_reducible refine Keeps.trans ?_ (Keeps.upd rfl rfl rfl rfl rfl rfl)
    | skip

theorem doColdPlateRelease_keeps (s : State) (temp : Nat) : Keeps s (doColdPlateRelease s temp) := by
  unfold doColdPlateRelease
  try dsimp only
  iterate 12 all_goals first
    | with_reducible exact Keeps.refl _
    | with_reducible split
    | with_reducible refine Keeps.trans ?_ (Keeps.upd rfl rfl rfl rfl rfl rfl)
    | skip

theorem setSlot_keeps (s : State) (a : Bool) (f : Slot → Slot) : Keeps s (setSlot s a f) := by
  unfold setSlot
  try dsimp only
  iterate 12 all_goals first
    | with_reducible exact Keeps.refl _
    | with_reducible split
    | with_reducible refine Keeps.trans ?_ (Keeps.upd rfl rfl rfl rfl rfl rfl)
    | skip

theorem beginSlot_keeps (s : State) : Keeps s (beginSlot s) := by
  unfold beginSlot
  try dsimp only
  iterate 12 all_goals first
    | with_reducible exact Keeps.refl _
    | with_reducible refine Keeps.trans ?_ (setSlot_keeps _ _ _)
    | with_reducible split
    | with_reducible refine Keeps.trans ?_ (Keeps.upd rfl rfl rfl rfl rfl rfl)
    | skip

theorem writeSlot_keeps (s : State) (t : Nat) (kind : Nat) : Keeps s (writeSlot s t kind) := by
  unfold writeSlot
  try dsimp only
  iterate 12 all_goals first
    | with_reducible exact Keeps.refl _
    | with_reducible refine Keeps.trans ?_ (setSlot_keeps _ _ _)
    | with_reducible split
    | with_reducible refine Keeps.trans ?_ (Keeps.upd rfl rfl rfl rfl rfl rfl)
    | skip

theorem consumeAll_keeps (s : State) : Keeps s (consumeAll s) := by
  unfold consumeAll
  try dsimp only
  iterate 12 all_goals first
    | with_reducible exact Keeps.refl _
    | with_reducible refine Keeps.trans ?_ (setSlot_keeps _ _ _)
    | with_reducible split
    | with_reducible refine Keeps.trans ?_ (Keeps.upd rfl rfl rfl rfl rfl rfl)
    | skip

theorem dropRails_keeps (s : State) (b : Boot) : Keeps s (dropRails s b) := by
  unfold dropRails
  try dsimp only
  iterate 12 all_goals first
    | with_reducible exact Keeps.refl _
    | with_reducible split
    | with_reducible refine Keeps.trans ?_ (Keeps.upd rfl rfl rfl rfl rfl rfl)
    | skip

theorem decideLoss_keeps (s : State) : Keeps s (decideLoss s) := by
  unfold decideLoss
  try dsimp only
  iterate 12 all_goals first
    | with_reducible exact Keeps.refl _
    | with_reducible refine Keeps.trans ?_ (commitShutdown_keeps _ _ _ _ _)
    | with_reducible refine Keeps.trans ?_ (dropRails_keeps _ _)
    | with_reducible split
    | with_reducible refine Keeps.trans ?_ (Keeps.upd rfl rfl rfl rfl rfl rfl)
    | skip

theorem doDecisionTick_keeps (s : State) : Keeps s (doDecisionTick s) := by
  unfold doDecisionTick
  try dsimp only
  iterate 12 all_goals first
    | with_reducible exact Keeps.refl _
    | with_reducible refine Keeps.trans ?_ (stamp_keeps _ _)
    | with_reducible refine Keeps.trans ?_ (decideLoss_keeps _)
    | with_reducible split
    | with_reducible refine Keeps.trans ?_ (Keeps.upd rfl rfl rfl rfl rfl rfl)
    | skip

theorem doPuffballMeasure_keeps (s : State) (mj : Nat) (t : Tick) : Keeps s (doPuffballMeasure s mj t) := by
  unfold doPuffballMeasure
  try dsimp only
  iterate 12 all_goals first
    | with_reducible exact Keeps.refl _
    | with_reducible refine Keeps.trans ?_ (stamp_keeps _ _)
    | with_reducible refine Keeps.trans ?_ (cutWrite_keeps _)
    | with_reducible refine Keeps.trans ?_ (dropRails_keeps _ _)
    | with_reducible refine Keeps.trans ?_ (decideLoss_keeps _)
    | with_reducible refine Keeps.trans ?_ (doDecisionTick_keeps _)
    | with_reducible split
    | with_reducible refine Keeps.trans ?_ (Keeps.upd rfl rfl rfl rfl rfl rfl)
    | skip

theorem doPuffballCapacityMeasure_keeps (s : State) (mj : Nat) : Keeps s (doPuffballCapacityMeasure s mj) := by
  unfold doPuffballCapacityMeasure
  try dsimp only
  iterate 12 all_goals first
    | with_reducible exact Keeps.refl _
    | with_reducible refine Keeps.trans ?_ (mgmtEvent_keeps _ _ _ _)
    | with_reducible split
    | with_reducible refine Keeps.trans ?_ (Keeps.upd rfl rfl rfl rfl rfl rfl)
    | skip

theorem doPuffballBleed_keeps (s : State) : Keeps s (doPuffballBleed s) := by
  unfold doPuffballBleed
  try dsimp only
  iterate 12 all_goals first
    | with_reducible exact Keeps.refl _
    | with_reducible refine Keeps.trans ?_ (nextFree_keeps _)
    | with_reducible split
    | with_reducible refine Keeps.trans ?_ (Keeps.upd rfl rfl rfl rfl rfl rfl)
    | skip

theorem doInputHigh_keeps (s : State) (mv : Nat) (t : Tick) : Keeps s (doInputHigh s mv t) := by
  unfold doInputHigh
  try dsimp only
  iterate 12 all_goals first
    | with_reducible exact Keeps.refl _
    | with_reducible refine Keeps.trans ?_ (stamp_keeps _ _)
    | with_reducible refine Keeps.trans ?_ (mgmtEvent_keeps _ _ _ _)
    | with_reducible split
    | with_reducible refine Keeps.trans ?_ (Keeps.upd rfl rfl rfl rfl rfl rfl)
    | skip

theorem doPfEarly_keeps (s : State) (mv : Nat) (t : Tick) : Keeps s (doPfEarly s mv t) := by
  unfold doPfEarly
  try dsimp only
  iterate 12 all_goals first
    | with_reducible exact Keeps.refl _
    | with_reducible refine Keeps.trans ?_ (stamp_keeps _ _)
    | with_reducible refine Keeps.trans ?_ (raiseEvent_keeps _ _)
    | with_reducible refine Keeps.trans ?_ (wake_keeps _)
    | with_reducible refine Keeps.trans ?_ (doDecisionTick_keeps _)
    | with_reducible split
    | with_reducible refine Keeps.trans ?_ (Keeps.upd rfl rfl rfl rfl rfl rfl)
    | skip

theorem doInputReturn_keeps (s : State) (mv : Nat) (t : Tick) : Keeps s (doInputReturn s mv t) := by
  unfold doInputReturn
  try dsimp only
  iterate 12 all_goals first
    | with_reducible exact Keeps.refl _
    | with_reducible refine Keeps.trans ?_ (stamp_keeps _ _)
    | with_reducible refine Keeps.trans ?_ (countTotal_keeps _ _ _)
    | with_reducible refine Keeps.trans ?_ (askQuiet_keeps _)
    | with_reducible refine Keeps.trans ?_ (doDecisionTick_keeps _)
    | with_reducible split
    | with_reducible refine Keeps.trans ?_ (Keeps.upd rfl rfl rfl rfl rfl rfl)
    | skip

theorem doPresenceLost_keeps (s : State) (t : Tick) : Keeps s (doPresenceLost s t) := by
  unfold doPresenceLost
  try dsimp only
  iterate 12 all_goals first
    | with_reducible exact Keeps.refl _
    | with_reducible refine Keeps.trans ?_ (stamp_keeps _ _)
    | with_reducible refine Keeps.trans ?_ (decideLoss_keeps _)
    | with_reducible refine Keeps.trans ?_ (doDecisionTick_keeps _)
    | with_reducible split
    | with_reducible refine Keeps.trans ?_ (Keeps.upd rfl rfl rfl rfl rfl rfl)
    | skip

theorem doPresenceMated_keeps (s : State) : Keeps s (doPresenceMated s) := by
  unfold doPresenceMated
  try dsimp only
  iterate 12 all_goals first
    | with_reducible exact Keeps.refl _
    | with_reducible split
    | with_reducible refine Keeps.trans ?_ (Keeps.upd rfl rfl rfl rfl rfl rfl)
    | skip

theorem standingAborts_keeps (s : State) : Keeps s (standingAborts s) := by
  unfold standingAborts
  try dsimp only
  iterate 12 all_goals first
    | with_reducible exact Keeps.refl _
    | with_reducible refine Keeps.trans ?_ (setCmd_keeps _ _ _)
    | with_reducible refine Keeps.trans ?_ (foldl_keeps (fun s x => setCmd_keeps s _ _) _ _)
    | with_reducible refine Keeps.trans ?_ (doAbort_keeps _ _)
    | with_reducible refine Keeps.trans ?_ (foldl_keeps (fun s x => doAbort_keeps s _) _ _)
    | with_reducible split
    | with_reducible refine Keeps.trans ?_ (foldl_keeps (fun s x => ?_) _ _)
    | with_reducible refine Keeps.trans ?_ (Keeps.upd rfl rfl rfl rfl rfl rfl)
    | skip

theorem saveAbort_keeps (t : Tick) (s : State) (c : Cmd) : Keeps s (saveAbort t s c) := by
  unfold saveAbort
  try dsimp only
  iterate 12 all_goals first
    | with_reducible exact Keeps.refl _
    | with_reducible refine Keeps.trans ?_ (completeCmd_keeps _ _ _)
    | with_reducible split
    | with_reducible refine Keeps.trans ?_ (Keeps.upd rfl rfl rfl rfl rfl rfl)
    | skip

theorem doSnapshotTick_keeps (s : State) (t : Tick) : Keeps s (doSnapshotTick s t) := by
  unfold doSnapshotTick
  try dsimp only
  iterate 12 all_goals first
    | with_reducible exact Keeps.refl _
    | with_reducible refine Keeps.trans ?_ (stamp_keeps _ _)
    | with_reducible refine Keeps.trans ?_ (foldl_keeps (fun s x => stamp_keeps s _) _ _)
    | with_reducible refine Keeps.trans ?_ (beginSlot_keeps _)
    | with_reducible refine Keeps.trans ?_ (foldl_keeps (fun s x => beginSlot_keeps s) _ _)
    | with_reducible refine Keeps.trans ?_ (standingAborts_keeps _)
    | with_reducible refine Keeps.trans ?_ (foldl_keeps (fun s x => standingAborts_keeps s) _ _)
    | with_reducible refine Keeps.trans ?_ (saveAbort_keeps _ _ _)
    | with_reducible refine Keeps.trans ?_ (foldl_keeps (fun s x => saveAbort_keeps _ s _) _ _)
    | with_reducible split
    | with_reducible refine Keeps.trans ?_ (foldl_keeps (fun s x => ?_) _ _)
    | with_reducible refine Keeps.trans ?_ (Keeps.upd rfl rfl rfl rfl rfl rfl)
    | skip

theorem doSaveComplete_keeps (s : State) (t : Tick) : Keeps s (doSaveComplete s t) := by
  unfold doSaveComplete
  try dsimp only
  iterate 12 all_goals first
    | with_reducible exact Keeps.refl _
    | with_reducible refine Keeps.trans ?_ (stamp_keeps _ _)
    | with_reducible refine Keeps.trans ?_ (doTmcResume_keeps _)
    | with_reducible refine Keeps.trans ?_ (writeSlot_keeps _ _ _)
    | with_reducible refine Keeps.trans ?_ (dropRails_keeps _ _)
    | with_reducible split
    | with_reducible refine Keeps.trans ?_ (Keeps.upd rfl rfl rfl rfl rfl rfl)
    | skip

theorem doIdleEntry_keeps (s : State) (n : Nat) (t : Tick) : Keeps s (doIdleEntry s n t) := by
  unfold doIdleEntry
  try dsimp only
  iterate 12 all_goals first
    | with_reducible exact Keeps.refl _
    | with_reducible refine Keeps.trans ?_ (stamp_keeps _ _)
    | with_reducible refine Keeps.trans ?_ (writeSlot_keeps _ _ _)
    | with_reducible split
    | with_reducible refine Keeps.trans ?_ (Keeps.upd rfl rfl rfl rfl rfl rfl)
    | skip

theorem onStep_keeps (s : State) (b : Boot) (k : State → State) (h : ∀ s, Keeps s (k s)) :
    Keeps s (onStep s b k) := by
  unfold onStep
  split
  · exact h _
  · exact .refl s

theorem logOther_keeps (s : State) : Keeps s (logOther s) := by
  unfold logOther
  try dsimp only
  iterate 12 all_goals first
    | with_reducible exact Keeps.refl _
    | with_reducible refine Keeps.trans ?_ (logFault_keeps _ _ _ _ _)
    | with_reducible refine Keeps.trans ?_ (nextFree_keeps _)
    | with_reducible split
    | with_reducible refine Keeps.trans ?_ (Keeps.upd rfl rfl rfl rfl rfl rfl)
    | skip

theorem resetRegs_keeps (s : State) : Keeps s (resetRegs s) :=
  .of rfl id (all_map_bridges fun _ _ => rfl) (fun _ => rfl) fun h => by
    simp only [modeWf, cfgField, Bool.and_eq_true] at h ⊢
    exact ⟨by simp [resetRegs, Regs.reset], h.2⟩

theorem doInputCheck_keeps (s : State) (mv : Nat) : Keeps s (doInputCheck s mv) := by
  unfold doInputCheck
  try dsimp only
  iterate 12 all_goals first
    | with_reducible exact Keeps.refl _
    | with_reducible refine Keeps.trans ?_ (resetRegs_keeps _)
    | with_reducible split
    | with_reducible refine Keeps.trans ?_ (Keeps.upd rfl rfl rfl rfl rfl rfl)
    | skip

theorem doPuffballPreCharge_keeps (s : State) (mj : Nat) : Keeps s (doPuffballPreCharge s mj) := by
  unfold doPuffballPreCharge
  try dsimp only
  iterate 12 all_goals first
    | with_reducible exact Keeps.refl _
    | with_reducible refine Keeps.trans ?_ (mgmtEvent_keeps _ _ _ _)
    | with_reducible refine onStep_keeps _ _ _ (fun s => ?_)
    | with_reducible split
    | with_reducible refine Keeps.trans ?_ (Keeps.upd rfl rfl rfl rfl rfl rfl)
    | skip

theorem fieldAt_append (a b : List Byte) (off n : Nat) (h : off + n ≤ a.length) : fieldAt (a ++ b) off n = fieldAt a
    off n := by
  have e : ((a ++ b).drop off).take n = (a.drop off).take n := by
    rw [List.drop_append_of_le_length (by omega), List.take_append_of_le_length (by simp; omega)]
  simp [fieldAt, slice, e]

theorem factoryBlob_mode (seq : Nat) : fieldAt (factoryBlob seq) 0x10 4 = 0 := by
  unfold factoryBlob
  lift_lets
  extract_lets pre post check
  have : ∀ c, fieldAt (pre ++ leBytes 4 c ++ post) 0x10 4 = 0 := fun c => by
    have e : pre ++ leBytes 4 c ++ post = (pre ++ leBytes 4 c ++ (leBytes 4 0 ++ leBytes 4 0)) ++ (leBytes 2 300 ++
        leBytes 1 1 ++ leBytes 1 0 ++ leBytes 1 16 ++
    leBytes 1 0x4E ++ leBytes 2 3 ++ leBytes 4 0 ++ leBytes 4 3 ++ List.replicate 4060 0#8) := by simp only [post,
        List.append_assoc]
    rw [e, fieldAt_append _ _ _ _ (by simp [pre, leBytes])]
    simp [pre, leBytes, fieldAt, slice, leNat]
  exact this _

theorem cfgValid_order {b : List Byte} (h : cfgValid b = true) :
    (!bit (fieldAt b 0x10 4) 0 || bit (fieldAt b 0x10 4) 1) = true := by
  simp only [cfgValid, cfgFieldsOk, Bool.and_eq_true] at h
  exact h.1.1.1.1.1.1.2

theorem selectCfg_valid {s : State} {a : Bool} (h : selectCfg s = some a) :
    cfgValid (if a then s.vault.cfgA else s.vault.cfgB) = true := by
  unfold selectCfg at h
  dsimp only at h
  split at h
  · rename_i c; cases h; simp only [Bool.and_eq_true] at c; exact c.1
  · split at h
    · rename_i c; cases h; exact c
    · cases h

theorem takeCfg_keeps (s : State) : Keeps s (takeCfg s) := by
  unfold takeCfg
  split
  · rename_i a e
    refine .of rfl id id id fun h => ?_
    simp only [modeWf, cfgField, Bool.and_eq_true] at h ⊢
    exact ⟨h.1, cfgValid_order (selectCfg_valid e)⟩
  · have k : Keeps s { s with
        mgmt := { s.mgmt with inForce := none, cfg := factoryBlob 0 }, regs := { s.regs with cfgDefaulted := true } }
            := by
      refine .of rfl id id id fun h => ?_
      simp only [modeWf, cfgField, factoryBlob_mode, Bool.and_eq_true] at h ⊢
      exact ⟨h.1, rfl⟩
    exact ((k.trans (mgmtEvent_keeps _ _ _ _)).trans (raiseEvent_keeps _ _)).trans (logFault_keeps _ _ _ _ _)

theorem latchPort_keeps (s : State) (p : Nat) : Keeps s (latchPort s p) :=
  .ite (.refl s) (.of rfl id (all_modNth_bridges fun _ h => h) id id)

theorem revertBank_keeps (s : State) : Keeps s (revertBank s) := by
  unfold revertBank
  try dsimp only
  iterate 12 all_goals first
    | with_reducible exact Keeps.refl _
    | with_reducible refine Keeps.trans ?_ (mgmtEvent_keeps _ _ _ _)
    | with_reducible split
    | with_reducible refine Keeps.trans ?_ (Keeps.upd rfl rfl rfl rfl rfl rfl)
    | skip

theorem romTake_keeps (s : State) (b : Nat) : Keeps s (romTake s b) := by
  unfold romTake
  try dsimp only
  iterate 12 all_goals first
    | with_reducible exact Keeps.refl _
    | with_reducible refine Keeps.trans ?_ (mgmtEvent_keeps _ _ _ _)
    | with_reducible split
    | with_reducible refine Keeps.trans ?_ (Keeps.upd rfl rfl rfl rfl rfl rfl)
    | skip

theorem enterRecovery_keeps (s : State) : Keeps s (enterRecovery s) := by
  unfold enterRecovery
  try dsimp only
  iterate 12 all_goals first
    | with_reducible exact Keeps.refl _
    | with_reducible refine Keeps.trans ?_ (mgmtEvent_keeps _ _ _ _)
    | with_reducible split
    | with_reducible refine Keeps.trans ?_ (Keeps.upd rfl rfl rfl rfl rfl rfl)
    | skip

theorem bootBank_keeps (s : State) : Keeps s (bootBank s) := by
  unfold bootBank
  try dsimp only
  iterate 12 all_goals first
    | with_reducible exact Keeps.refl _
    | with_reducible refine Keeps.trans ?_ (writeTorn_keeps _)
    | with_reducible refine Keeps.trans ?_ (latchPort_keeps _ _)
    | with_reducible split
    | with_reducible refine Keeps.trans ?_ (Keeps.upd rfl rfl rfl rfl rfl rfl)
    | skip

theorem doTmcBoot_keeps (s : State) (rom : RomResult) : Keeps s (doTmcBoot s rom) := by
  refine onStep_keeps _ _ _ fun s => ?_
  have h := revertBank_keeps s
  generalize revertBank s = r at h ⊢
  have h := (h.trans (.upd (u := r) rfl rfl rfl rfl rfl rfl)).trans (takeCfg_keeps { r with
    deputy := none, deferred := [], deferredLog := [], vault := { r.vault with torn := r.vault.torn ++ r.deferred } })
  dsimp only
  split
  · exact h.trans ((romTake_keeps _ _).trans (bootBank_keeps _))
  · exact h.trans (enterRecovery_keeps _)

theorem applyEntry_keeps (s : State) (e : LedgerEntry) : Keeps s (applyEntry s e) := by
  unfold applyEntry
  try dsimp only
  iterate 12 all_goals first
    | with_reducible exact Keeps.refl _
    | with_reducible refine Keeps.trans ?_ (setCore_keeps _ _ _ _)
    | with_reducible split
    | with_reducible refine Keeps.trans ?_ (Keeps.upd rfl rfl rfl rfl rfl rfl)
    | skip

theorem coverChip_keeps (s : State) (c : Nat) : Keeps s (coverChip s c) := by
  refine foldl_keeps (fun s _ => ?_) _ _
  split
  · exact replaceCore_keeps _ _ _
  · exact .refl _

theorem leaveOut_keeps (s : State) (c : Nat) : Keeps s (leaveOut s c) := by
  unfold leaveOut
  try dsimp only
  iterate 12 all_goals first
    | with_reducible exact Keeps.refl _
    | with_reducible refine Keeps.trans ?_ (setChip_keeps _ _ _)
    | with_reducible split
    | with_reducible refine Keeps.trans ?_ (Keeps.upd rfl rfl rfl rfl rfl rfl)
    | skip

theorem settleBoot_keeps (s : State) : Keeps s (settleBoot s) := by
  refine (foldl_keeps coverChip_keeps (List.range 8) s).trans ?_
  unfold settleBoot
  dsimp only
  split
  · exact Keeps.trans (.upd rfl rfl rfl rfl rfl rfl) (foldl_keeps leaveOut_keeps _ _)
  · exact .refl _

theorem bootBist_keeps (s : State) (r : BistResult) : Keeps s (bootBist s r) :=
  .ite (.refl s) (.ite (((raiseEvent_keeps _ _).trans (logFault_keeps _ _ _ _ _)).trans (leaveOut_keeps _ _))
    ((bistResult_keeps _ _ _).trans (settleBoot_keeps _)))

theorem doChipPowerOnBist_keeps (s : State) (found : List BistResult) : Keeps s (doChipPowerOnBist s found) := by
  unfold doChipPowerOnBist
  try dsimp only
  iterate 12 all_goals first
    | with_reducible exact Keeps.refl _
    | with_reducible refine Keeps.trans ?_ (mgmtEvent_keeps _ _ _ _)
    | with_reducible refine Keeps.trans ?_ (foldl_keeps (fun s x => mgmtEvent_keeps s _ _ _) _ _)
    | with_reducible refine Keeps.trans ?_ (restoreCounters_keeps _ _)
    | with_reducible refine Keeps.trans ?_ (foldl_keeps (fun s x => restoreCounters_keeps s _) _ _)
    | with_reducible refine Keeps.trans ?_ (logOther_keeps _)
    | with_reducible refine Keeps.trans ?_ (foldl_keeps (fun s x => logOther_keeps s) _ _)
    | with_reducible refine Keeps.trans ?_ (applyEntry_keeps _ _)
    | with_reducible refine Keeps.trans ?_ (foldl_keeps (fun s x => applyEntry_keeps s _) _ _)
    | with_reducible refine Keeps.trans ?_ (bootBist_keeps _ _)
    | with_reducible refine Keeps.trans ?_ (foldl_keeps (fun s x => bootBist_keeps s _) _ _)
    | with_reducible refine onStep_keeps _ _ _ (fun s => ?_)
    | with_reducible split
    | with_reducible refine Keeps.trans ?_ (foldl_keeps (fun s x => ?_) _ _)
    | with_reducible refine Keeps.trans ?_ (Keeps.upd rfl rfl rfl rfl rfl rfl)
    | skip

theorem bootLane_keeps (s : State) (src : Nat) (dst : Nat) (lane : Nat) : Keeps s (bootLane s src dst lane) := by
  unfold bootLane
  try dsimp only
  iterate 12 all_goals first
    | with_reducible exact Keeps.refl _
    | with_reducible refine Keeps.trans ?_ (setDir_keeps _ _ _ _)
    | with_reducible split
    | with_reducible refine Keeps.trans ?_ (Keeps.upd rfl rfl rfl rfl rfl rfl)
    | skip

theorem ledgerLane_keeps (s : State) (e : LedgerEntry) : Keeps s (ledgerLane s e) := by
  unfold ledgerLane
  try dsimp only
  iterate 12 all_goals first
    | with_reducible exact Keeps.refl _
    | with_reducible refine Keeps.trans ?_ (bootLane_keeps _ _ _ _)
    | with_reducible split
    | with_reducible refine Keeps.trans ?_ (Keeps.upd rfl rfl rfl rfl rfl rfl)
    | skip

theorem bootTrain_keeps (s : State) (r : TrainResult) : Keeps s (bootTrain s r) := by
  unfold bootTrain
  try dsimp only
  iterate 12 all_goals first
    | with_reducible exact Keeps.refl _
    | with_reducible refine Keeps.trans ?_ (setChip_keeps _ _ _)
    | with_reducible refine Keeps.trans ?_ (foldl_keeps (fun s x => setChip_keeps s _ _) _ _)
    | with_reducible refine Keeps.trans ?_ (setLink_keeps _ _ _ _)
    | with_reducible refine Keeps.trans ?_ (foldl_keeps (fun s x => setLink_keeps s _ _ _) _ _)
    | with_reducible refine Keeps.trans ?_ (countLink_keeps _ _ _ _ _)
    | with_reducible refine Keeps.trans ?_ (foldl_keeps (fun s x => countLink_keeps s _ _ _ _) _ _)
    | with_reducible refine Keeps.trans ?_ (addLedger_keeps _ _ _ _ _ _ _)
    | with_reducible refine Keeps.trans ?_ (foldl_keeps (fun s x => addLedger_keeps s _ _ _ _ _ _) _ _)
    | with_reducible refine Keeps.trans ?_ (bootLane_keeps _ _ _ _)
    | with_reducible refine Keeps.trans ?_ (foldl_keeps (fun s x => bootLane_keeps s _ _ _) _ _)
    | with_reducible split
    | with_reducible refine Keeps.trans ?_ (foldl_keeps (fun s x => ?_) _ _)
    | with_reducible refine Keeps.trans ?_ (Keeps.upd rfl rfl rfl rfl rfl rfl)
    | skip

theorem bootLink_keeps (s : State) (p : Nat × Nat) : Keeps s (bootLink s p) := by
  unfold bootLink
  try dsimp only
  iterate 12 all_goals first
    | with_reducible exact Keeps.refl _
    | with_reducible refine Keeps.trans ?_ (logFault_keeps _ _ _ _ _)
    | with_reducible refine Keeps.trans ?_ (raiseEvent_keeps _ _)
    | with_reducible refine Keeps.trans ?_ (setLink_keeps _ _ _ _)
    | with_reducible refine Keeps.trans ?_ (countLink_keeps _ _ _ _ _)
    | with_reducible split
    | with_reducible refine Keeps.trans ?_ (Keeps.upd rfl rfl rfl rfl rfl rfl)
    | skip

theorem readmit_keeps (s : State) (c : Nat) : Keeps s (readmit s c) := by
  unfold readmit
  try dsimp only
  iterate 12 all_goals first
    | with_reducible exact Keeps.refl _
    | with_reducible refine Keeps.trans ?_ (setChip_keeps _ _ _)
    | with_reducible refine Keeps.trans ?_ (addLedger_keeps _ _ _ _ _ _ _)
    | with_reducible split
    | with_reducible refine Keeps.trans ?_ (Keeps.upd rfl rfl rfl rfl rfl rfl)
    | skip

theorem trainNow_keeps (s : State) (found : List TrainResult) : Keeps s (trainNow s found) :=
  (((foldl_keeps ledgerLane_keeps _ s).trans (foldl_keeps bootTrain_keeps _ _)).trans
    (foldl_keeps readmit_keeps _ _)).trans (foldl_keeps bootLink_keeps _ _)

theorem doHbmMycelTraining_keeps (s : State) (found : List TrainResult) : Keeps s (doHbmMycelTraining s found) :=
  onStep_keeps _ _ _ fun s => (trainNow_keeps s found).trans (.upd rfl rfl rfl rfl rfl rfl)

theorem doTrayCounterAlignment_keeps (s : State) (outside : List Nat) : Keeps s (doTrayCounterAlignment s outside) :=
    by
  unfold doTrayCounterAlignment
  try dsimp only
  iterate 12 all_goals first
    | with_reducible exact Keeps.refl _
    | with_reducible refine Keeps.trans ?_ (setChip_keeps _ _ _)
    | with_reducible refine Keeps.trans ?_ (foldl_keeps (fun s x => setChip_keeps s _ _) _ _)
    | with_reducible refine onStep_keeps _ _ _ (fun s => ?_)
    | with_reducible split
    | with_reducible refine Keeps.trans ?_ (foldl_keeps (fun s x => ?_) _ _)
    | with_reducible refine Keeps.trans ?_ (Keeps.upd rfl rfl rfl rfl rfl rfl)
    | skip

theorem reinstall_keeps (s : State) (p : Nat × List Byte) : Keeps s (reinstall s p) := by
  unfold reinstall
  try dsimp only
  iterate 12 all_goals first
    | with_reducible exact Keeps.refl _
    | with_reducible refine Keeps.trans ?_ (mgmtEvent_keeps _ _ _ _)
    | with_reducible split
    | with_reducible refine Keeps.trans ?_ (Keeps.upd rfl rfl rfl rfl rfl rfl)
    | skip

theorem resumeContext_keeps (s : State) (p : Nat × List Byte) : Keeps s (resumeContext s p) := by
  unfold resumeContext
  try dsimp only
  iterate 12 all_goals first
    | with_reducible exact Keeps.refl _
    | with_reducible refine Keeps.trans ?_ (logFault_keeps _ _ _ _ _)
    | with_reducible refine Keeps.trans ?_ (setStream_keeps _ _ _)
    | with_reducible split
    | with_reducible refine Keeps.trans ?_ (Keeps.upd rfl rfl rfl rfl rfl rfl)
    | skip

theorem resumeLanes_keeps (x : Slot) (s : State) (c : Nat) : Keeps s (resumeLanes x s c) := by
  unfold resumeLanes
  try dsimp only
  iterate 12 all_goals first
    | with_reducible exact Keeps.refl _
    | with_reducible refine Keeps.trans ?_ (setChip_keeps _ _ _)
    | with_reducible split
    | with_reducible refine Keeps.trans ?_ (Keeps.upd rfl rfl rfl rfl rfl rfl)
    | skip

theorem suspendVaulted_keeps (s : State) : Keeps s (suspendVaulted s) := by
  unfold suspendVaulted
  try dsimp only
  iterate 12 all_goals first
    | with_reducible exact Keeps.refl _
    | with_reducible split
    | with_reducible refine Keeps.trans ?_ (Keeps.upd rfl rfl rfl rfl rfl rfl)
    | skip

theorem resumeFrom_keeps (s : State) (x : Slot) : Keeps s (resumeFrom s x) :=
  ((foldl_keeps resumeContext_keeps _ s).trans (foldl_keeps (resumeLanes_keeps x) _ _)).trans (suspendVaulted_keeps _)

theorem coldStart_keeps (s : State) : Keeps s (coldStart s) := by
  unfold coldStart
  try dsimp only
  iterate 12 all_goals first
    | with_reducible exact Keeps.refl _
    | with_reducible refine Keeps.trans ?_ (mgmtEvent_keeps _ _ _ _)
    | with_reducible refine Keeps.trans ?_ (logOther_keeps _)
    | with_reducible split
    | with_reducible refine Keeps.trans ?_ (Keeps.upd rfl rfl rfl rfl rfl rfl)
    | skip

theorem applyCfg_keeps (s : State) : Keeps s (applyCfg s) := by
  refine .of rfl id id id fun h => ?_
  simp only [modeWf, cfgField, applyCfg, Bool.and_eq_true, BitVec.getLsbD_ofNat] at h ⊢
  exact ⟨by simpa [bit, Nat.testBit, Nat.shiftRight_eq_div_pow, Nat.one_and_eq_mod_two] using h.2, h.2⟩

theorem resumeOrCold_keeps (s : State) : Keeps s (resumeOrCold s) := by
  unfold resumeOrCold
  split
  · exact resumeFrom_keeps _ _
  · exact resumeFrom_keeps _ _
  · exact coldStart_keeps _

theorem doConfigurationApply_keeps (s : State) : Keeps s (doConfigurationApply s) :=
  onStep_keeps _ _ _ fun s => ((((applyCfg_keeps s).trans (foldl_keeps reinstall_keeps _ _)).trans
    (homingNow_keeps _ _)).trans (resumeOrCold_keeps _)).trans (.upd rfl rfl rfl rfl rfl rfl)

theorem mgmtReset_keeps (s : State) (toI5 : Bool) : Keeps s (mgmtReset s toI5) := by
  unfold mgmtReset
  try dsimp only
  iterate 12 all_goals first
    | with_reducible exact Keeps.refl _
    | with_reducible refine Keeps.trans ?_ (wake_keeps _)
    | with_reducible refine Keeps.trans ?_ (commitShutdown_keeps _ _ _ _ _)
    | with_reducible split
    | with_reducible refine Keeps.trans ?_ (Keeps.upd rfl rfl rfl rfl rfl rfl)
    | skip

theorem consumeResumed_keeps (s : State) : Keeps s (consumeResumed s) := by
  unfold consumeResumed
  try dsimp only
  iterate 12 all_goals first
    | with_reducible exact Keeps.refl _
    | with_reducible refine Keeps.trans ?_ (setSlot_keeps _ _ _)
    | with_reducible split
    | with_reducible refine Keeps.trans ?_ (Keeps.upd rfl rfl rfl rfl rfl rfl)
    | skip

theorem stayDown_keeps (s : State) : Keeps s (stayDown s) := by
  unfold stayDown
  try dsimp only
  iterate 12 all_goals first
    | with_reducible exact Keeps.refl _
    | with_reducible refine Keeps.trans ?_ (mgmtEvent_keeps _ _ _ _)
    | with_reducible refine Keeps.trans ?_ (foldl_keeps (fun s x => mgmtEvent_keeps s _ _ _) _ _)
    | with_reducible split
    | with_reducible refine Keeps.trans ?_ (foldl_keeps (fun s x => ?_) _ _)
    | with_reducible refine Keeps.trans ?_ (Keeps.upd rfl rfl rfl rfl rfl rfl)
    | skip

theorem firmwareReady_cfg (m : Mgmt) : (firmwareReady m).cfg = m.cfg := by
  unfold firmwareReady
  dsimp only
  split <;> rfl

theorem readyMarks_keeps (s : State) (held : Option Bool) : Keeps s (readyMarks s held) :=
  .same rfl rfl rfl rfl rfl (firmwareReady_cfg _)

theorem readyNow_keeps (s : State) (held : Option Bool) : Keeps s (readyNow s held) :=
  (((consumeResumed_keeps s).trans (writeLedger_keeps _ _ _)).trans (readyMarks_keeps _ held)).trans
      (recheckLinks_keeps _)

theorem doReady_keeps (s : State) : Keeps s (doReady s) := by
  refine onStep_keeps _ _ _ fun s => .ite (stayDown_keeps _) ?_
  split
  · exact (readyNow_keeps _ _).trans (mgmtReset_keeps _ _)
  · exact readyNow_keeps _ _

theorem flushWaiting_keeps (s : State) : Keeps s (flushWaiting s) := by
  unfold flushWaiting
  try dsimp only
  iterate 12 all_goals first
    | with_reducible exact Keeps.refl _
    | with_reducible refine Keeps.trans ?_ (hostWrite_keeps _ _ _)
    | with_reducible refine Keeps.trans ?_ (foldl_keeps (fun s x => hostWrite_keeps s _ _) _ _)
    | with_reducible split
    | with_reducible refine Keeps.trans ?_ (foldl_keeps (fun s x => ?_) _ _)
    | with_reducible refine Keeps.trans ?_ (Keeps.upd rfl rfl rfl rfl rfl rfl)
    | skip

theorem doHostLinkTrained_keeps (s : State) (l : Nat) (width : Nat) (speed : Nat) : Keeps s (doHostLinkTrained s l
    width speed) := by
  unfold doHostLinkTrained
  try dsimp only
  iterate 12 all_goals first
    | with_reducible exact Keeps.refl _
    | with_reducible refine Keeps.trans ?_ (flushWaiting_keeps _)
    | with_reducible split
    | with_reducible refine Keeps.trans ?_ (Keeps.upd rfl rfl rfl rfl rfl rfl)
    | skip

theorem doHostLinkDown_keeps (s : State) (l : Nat) : Keeps s (doHostLinkDown s l) := by
  unfold doHostLinkDown
  try dsimp only
  iterate 12 all_goals first
    | with_reducible exact Keeps.refl _
    | with_reducible split
    | with_reducible refine Keeps.trans ?_ (Keeps.upd rfl rfl rfl rfl rfl rfl)
    | skip

theorem rewriteRecords_keeps (s : State) (p : Nat × Ring) : Keeps s (rewriteRecords s p) := by
  unfold rewriteRecords
  try dsimp only
  iterate 12 all_goals first
    | with_reducible exact Keeps.refl _
    | with_reducible refine Keeps.trans ?_ (hostWrite_keeps _ _ _)
    | with_reducible refine Keeps.trans ?_ (foldl_keeps (fun s x => hostWrite_keeps s _ _) _ _)
    | with_reducible split
    | with_reducible refine Keeps.trans ?_ (foldl_keeps (fun s x => ?_) _ _)
    | with_reducible refine Keeps.trans ?_ (Keeps.upd rfl rfl rfl rfl rfl rfl)
    | skip

theorem failBridge_keeps (s : State) (b : Nat) : Keeps s (failBridge s b) :=
  .of rfl id (all_modNth_bridges fun _ h => h) id id

theorem rewriteRecent_keeps (s : State) : Keeps s (rewriteRecent s) :=
  foldl_keeps (fun _ _ => foldl_keeps (fun _ _ => hostWrite_keeps _ _ _) _ _) _ _

theorem doHostBridgeFailed_keeps (s : State) (b : Nat) (t : Tick) : Keeps s (doHostBridgeFailed s b t) :=
  .ite (stamp_keeps _ _) (((stamp_keeps s t).trans (failBridge_keeps _ b)).trans ((rewriteRecent_keeps _).trans
    (foldl_keeps rewriteRecords_keeps _ _)))

end Sys2Proof.Machine
end

