-- ==== Sys2Proof/Laws/KeepsMgmt.lean ====
section
/-! SUPPORT. Keeps (Laws/KeepsBase.lean) for management. -/

namespace Sys2Proof.Machine

theorem answer_keeps (s : State) (ok : Bool) (payload : List Byte) : Keeps s (answer s ok payload) := by
  unfold answer
  try dsimp only
  iterate 12 all_goals first
    | with_reducible exact Keeps.refl _
    | with_reducible split
    | with_reducible refine Keeps.trans ?_ (Keeps.upd rfl rfl rfl rfl rfl rfl)
    | skip

theorem refuseHttp_keeps (s : State) (code : Nat) : Keeps s (refuseHttp s code) := by
  unfold refuseHttp
  try dsimp only
  iterate 12 all_goals first
    | with_reducible exact Keeps.refl _
    | with_reducible refine Keeps.trans ?_ (answer_keeps _ _ _)
    | with_reducible split
    | with_reducible refine Keeps.trans ?_ (Keeps.upd rfl rfl rfl rfl rfl rfl)
    | skip

theorem onMgmt_keeps (s : State) (r : Bool) (k : State → State) (h : ∀ s, Keeps s (k s)) : Keeps s (onMgmt s r k) :=
    by
  unfold onMgmt
  split
  · exact .refl s
  · split
    · exact answer_keeps _ _ _
    · exact h _

theorem onReset_keeps (s : State) (k : State → State) (h : ∀ s, Keeps s (k s)) : Keeps s (onReset s k) := by
  unfold onReset
  split
  · exact .refl s
  · split
    · exact refuseHttp_keeps _ _
    · exact (answer_keeps _ _ _).trans (h _)

theorem busy_keeps (s : State) : Keeps s (busy s) := by
  unfold busy
  try dsimp only
  iterate 12 all_goals first
    | with_reducible exact Keeps.refl _
    | with_reducible split
    | with_reducible refine Keeps.trans ?_ (Keeps.upd rfl rfl rfl rfl rfl rfl)
    | skip

theorem gracefulReset_keeps (s : State) (toI5 : Bool) (t : Tick) : Keeps s (gracefulReset s toI5 t) := by
  unfold gracefulReset
  try dsimp only
  iterate 12 all_goals first
    | with_reducible exact Keeps.refl _
    | with_reducible refine Keeps.trans ?_ (stamp_keeps _ _)
    | with_reducible refine Keeps.trans ?_ (dropRails_keeps _ _)
    | with_reducible refine Keeps.trans ?_ (mgmtReset_keeps _ _)
    | with_reducible refine Keeps.trans ?_ (answer_keeps _ _ _)
    | with_reducible refine Keeps.trans ?_ (busy_keeps _)
    | with_reducible split
    | with_reducible refine Keeps.trans ?_ (Keeps.upd rfl rfl rfl rfl rfl rfl)
    | skip

theorem doGracefulRestart_keeps (s : State) (t : Tick) : Keeps s (doGracefulRestart s t) := by
  unfold doGracefulRestart
  try dsimp only
  iterate 12 all_goals first
    | with_reducible exact Keeps.refl _
    | with_reducible refine Keeps.trans ?_ (gracefulReset_keeps _ _ _)
    | with_reducible refine onReset_keeps _ _ (fun s => ?_)
    | with_reducible split
    | with_reducible refine Keeps.trans ?_ (Keeps.upd rfl rfl rfl rfl rfl rfl)
    | skip

theorem doForceRestart_keeps (s : State) : Keeps s (doForceRestart s) := by
  unfold doForceRestart
  try dsimp only
  iterate 12 all_goals first
    | with_reducible exact Keeps.refl _
    | with_reducible refine Keeps.trans ?_ (consumeAll_keeps _)
    | with_reducible refine Keeps.trans ?_ (dropRails_keeps _ _)
    | with_reducible refine Keeps.trans ?_ (busy_keeps _)
    | with_reducible refine onReset_keeps _ _ (fun s => ?_)
    | with_reducible split
    | with_reducible refine Keeps.trans ?_ (Keeps.upd rfl rfl rfl rfl rfl rfl)
    | skip

theorem doGracefulShutdown_keeps (s : State) (t : Tick) : Keeps s (doGracefulShutdown s t) := by
  unfold doGracefulShutdown
  try dsimp only
  iterate 12 all_goals first
    | with_reducible exact Keeps.refl _
    | with_reducible refine Keeps.trans ?_ (gracefulReset_keeps _ _ _)
    | with_reducible refine onReset_keeps _ _ (fun s => ?_)
    | with_reducible split
    | with_reducible refine Keeps.trans ?_ (Keeps.upd rfl rfl rfl rfl rfl rfl)
    | skip

theorem doOn_keeps (s : State) : Keeps s (doOn s) := by
  unfold doOn
  try dsimp only
  iterate 12 all_goals first
    | with_reducible exact Keeps.refl _
    | with_reducible refine Keeps.trans ?_ (busy_keeps _)
    | with_reducible refine onReset_keeps _ _ (fun s => ?_)
    | with_reducible split
    | with_reducible refine Keeps.trans ?_ (Keeps.upd rfl rfl rfl rfl rfl rfl)
    | skip

theorem storeCfg_keeps (s : State) (b : List Byte) : Keeps s (storeCfg s b) := by
  unfold storeCfg
  try dsimp only
  iterate 12 all_goals first
    | with_reducible exact Keeps.refl _
    | with_reducible split
    | with_reducible refine Keeps.trans ?_ (Keeps.upd rfl rfl rfl rfl rfl rfl)
    | skip

theorem doConfigWrite_keeps (s : State) (b : List Byte) : Keeps s (doConfigWrite s b) := by
  unfold doConfigWrite
  try dsimp only
  iterate 12 all_goals first
    | with_reducible exact Keeps.refl _
    | with_reducible refine Keeps.trans ?_ (answer_keeps _ _ _)
    | with_reducible refine Keeps.trans ?_ (storeCfg_keeps _ _)
    | with_reducible refine onMgmt_keeps _ _ _ (fun s => ?_)
    | with_reducible split
    | with_reducible refine Keeps.trans ?_ (Keeps.upd rfl rfl rfl rfl rfl rfl)
    | skip

theorem doConfigRead_keeps (s : State) : Keeps s (doConfigRead s) := by
  unfold doConfigRead
  try dsimp only
  iterate 12 all_goals first
    | with_reducible exact Keeps.refl _
    | with_reducible refine Keeps.trans ?_ (answer_keeps _ _ _)
    | with_reducible refine onMgmt_keeps _ _ _ (fun s => ?_)
    | with_reducible split
    | with_reducible refine Keeps.trans ?_ (Keeps.upd rfl rfl rfl rfl rfl rfl)
    | skip

theorem doFaultLogRead_keeps (s : State) : Keeps s (doFaultLogRead s) := by
  unfold doFaultLogRead
  try dsimp only
  iterate 12 all_goals first
    | with_reducible exact Keeps.refl _
    | with_reducible refine Keeps.trans ?_ (answer_keeps _ _ _)
    | with_reducible refine onMgmt_keeps _ _ _ (fun s => ?_)
    | with_reducible split
    | with_reducible refine Keeps.trans ?_ (Keeps.upd rfl rfl rfl rfl rfl rfl)
    | skip

theorem doLedgerRead_keeps (s : State) : Keeps s (doLedgerRead s) := by
  unfold doLedgerRead
  try dsimp only
  iterate 12 all_goals first
    | with_reducible exact Keeps.refl _
    | with_reducible refine Keeps.trans ?_ (answer_keeps _ _ _)
    | with_reducible refine onMgmt_keeps _ _ _ (fun s => ?_)
    | with_reducible split
    | with_reducible refine Keeps.trans ?_ (Keeps.upd rfl rfl rfl rfl rfl rfl)
    | skip

theorem doFirmwareTransfer_keeps (s : State) (viaRedfish : Bool) (bundle : List Byte) (whole : Bool) : Keeps s
    (doFirmwareTransfer s viaRedfish bundle whole) := by
  unfold doFirmwareTransfer
  try dsimp only
  iterate 12 all_goals first
    | with_reducible exact Keeps.refl _
    | with_reducible refine Keeps.trans ?_ (answer_keeps _ _ _)
    | with_reducible refine Keeps.trans ?_ (refuseHttp_keeps _ _)
    | with_reducible split
    | with_reducible refine Keeps.trans ?_ (Keeps.upd rfl rfl rfl rfl rfl rfl)
    | skip

theorem doVerifyComplete_keeps (s : State) : Keeps s (doVerifyComplete s) := by
  unfold doVerifyComplete
  try dsimp only
  iterate 12 all_goals first
    | with_reducible exact Keeps.refl _
    | with_reducible refine Keeps.trans ?_ (mgmtEvent_keeps _ _ _ _)
    | with_reducible refine Keeps.trans ?_ (answer_keeps _ _ _)
    | with_reducible split
    | with_reducible refine Keeps.trans ?_ (Keeps.upd rfl rfl rfl rfl rfl rfl)
    | skip

theorem doActivateFirmware_keeps (s : State) : Keeps s (doActivateFirmware s) := by
  unfold doActivateFirmware
  try dsimp only
  iterate 12 all_goals first
    | with_reducible exact Keeps.refl _
    | with_reducible refine Keeps.trans ?_ (answer_keeps _ _ _)
    | with_reducible split
    | with_reducible refine Keeps.trans ?_ (Keeps.upd rfl rfl rfl rfl rfl rfl)
    | skip

theorem doMctpControl_keeps (s : State) (m : List Byte) : Keeps s (doMctpControl s m) := by
  unfold doMctpControl
  try dsimp only
  iterate 12 all_goals first
    | with_reducible exact Keeps.refl _
    | with_reducible refine Keeps.trans ?_ (nextFree_keeps _)
    | with_reducible refine Keeps.trans ?_ (answer_keeps _ _ _)
    | with_reducible split
    | with_reducible refine Keeps.trans ?_ (Keeps.upd rfl rfl rfl rfl rfl rfl)
    | skip

theorem doGetSensorReading_keeps (s : State) (id : Nat) : Keeps s (doGetSensorReading s id) := by
  unfold doGetSensorReading
  try dsimp only
  iterate 12 all_goals first
    | with_reducible exact Keeps.refl _
    | with_reducible refine Keeps.trans ?_ (nextFree_keeps _)
    | with_reducible refine Keeps.trans ?_ (answer_keeps _ _ _)
    | with_reducible refine onMgmt_keeps _ _ _ (fun s => ?_)
    | with_reducible split
    | with_reducible refine Keeps.trans ?_ (Keeps.upd rfl rfl rfl rfl rfl rfl)
    | skip

theorem spdmAnswer_keeps (s : State) (req : List Byte) (resp : List Byte) : Keeps s (spdmAnswer s req resp) := by
  unfold spdmAnswer
  try dsimp only
  iterate 12 all_goals first
    | with_reducible exact Keeps.refl _
    | with_reducible refine Keeps.trans ?_ (answer_keeps _ _ _)
    | with_reducible split
    | with_reducible refine Keeps.trans ?_ (Keeps.upd rfl rfl rfl rfl rfl rfl)
    | skip

theorem spdmError_keeps (s : State) : Keeps s (spdmError s) := by
  unfold spdmError
  try dsimp only
  iterate 12 all_goals first
    | with_reducible exact Keeps.refl _
    | with_reducible refine Keeps.trans ?_ (nextFree_keeps _)
    | with_reducible refine Keeps.trans ?_ (answer_keeps _ _ _)
    | with_reducible split
    | with_reducible refine Keeps.trans ?_ (Keeps.upd rfl rfl rfl rfl rfl rfl)
    | skip

theorem onSpdm_keeps (s : State) (n : Nat) (k : State → State) (h : ∀ s, Keeps s (k s)) : Keeps s (onSpdm s n k) := by
  unfold onSpdm
  split
  · exact .refl s
  · split
    · exact spdmError_keeps _
    · exact h _

theorem doGetVersion_keeps (s : State) (req : List Byte) : Keeps s (doGetVersion s req) := by
  unfold doGetVersion
  try dsimp only
  iterate 12 all_goals first
    | with_reducible exact Keeps.refl _
    | with_reducible refine Keeps.trans ?_ (spdmAnswer_keeps _ _ _)
    | with_reducible refine onSpdm_keeps _ _ _ (fun s => ?_)
    | with_reducible split
    | with_reducible refine Keeps.trans ?_ (Keeps.upd rfl rfl rfl rfl rfl rfl)
    | skip

theorem doGetCapabilities_keeps (s : State) (req : List Byte) : Keeps s (doGetCapabilities s req) := by
  unfold doGetCapabilities
  try dsimp only
  iterate 12 all_goals first
    | with_reducible exact Keeps.refl _
    | with_reducible refine Keeps.trans ?_ (nextFree_keeps _)
    | with_reducible refine Keeps.trans ?_ (spdmAnswer_keeps _ _ _)
    | with_reducible refine onSpdm_keeps _ _ _ (fun s => ?_)
    | with_reducible split
    | with_reducible refine Keeps.trans ?_ (Keeps.upd rfl rfl rfl rfl rfl rfl)
    | skip

theorem doNegotiateAlgorithms_keeps (s : State) (req : List Byte) : Keeps s (doNegotiateAlgorithms s req) := by
  unfold doNegotiateAlgorithms
  try dsimp only
  iterate 12 all_goals first
    | with_reducible exact Keeps.refl _
    | with_reducible refine Keeps.trans ?_ (spdmAnswer_keeps _ _ _)
    | with_reducible refine Keeps.trans ?_ (spdmError_keeps _)
    | with_reducible refine onSpdm_keeps _ _ _ (fun s => ?_)
    | with_reducible split
    | with_reducible refine Keeps.trans ?_ (Keeps.upd rfl rfl rfl rfl rfl rfl)
    | skip

theorem doGetDigests_keeps (s : State) (req : List Byte) : Keeps s (doGetDigests s req) := by
  unfold doGetDigests
  try dsimp only
  iterate 12 all_goals first
    | with_reducible exact Keeps.refl _
    | with_reducible refine Keeps.trans ?_ (spdmAnswer_keeps _ _ _)
    | with_reducible refine onSpdm_keeps _ _ _ (fun s => ?_)
    | with_reducible split
    | with_reducible refine Keeps.trans ?_ (Keeps.upd rfl rfl rfl rfl rfl rfl)
    | skip

theorem doGetCertificate_keeps (s : State) (req : List Byte) : Keeps s (doGetCertificate s req) := by
  unfold doGetCertificate
  try dsimp only
  iterate 12 all_goals first
    | with_reducible exact Keeps.refl _
    | with_reducible refine Keeps.trans ?_ (spdmAnswer_keeps _ _ _)
    | with_reducible refine Keeps.trans ?_ (spdmError_keeps _)
    | with_reducible refine onSpdm_keeps _ _ _ (fun s => ?_)
    | with_reducible split
    | with_reducible refine Keeps.trans ?_ (Keeps.upd rfl rfl rfl rfl rfl rfl)
    | skip

theorem doChallenge_keeps (s : State) (req : List Byte) : Keeps s (doChallenge s req) := by
  unfold doChallenge
  try dsimp only
  iterate 12 all_goals first
    | with_reducible exact Keeps.refl _
    | with_reducible refine Keeps.trans ?_ (spdmError_keeps _)
    | with_reducible refine Keeps.trans ?_ (nextFree_keeps _)
    | with_reducible refine Keeps.trans ?_ (spdmAnswer_keeps _ _ _)
    | with_reducible refine onSpdm_keeps _ _ _ (fun s => ?_)
    | with_reducible split
    | with_reducible refine Keeps.trans ?_ (Keeps.upd rfl rfl rfl rfl rfl rfl)
    | skip

theorem doGetMeasurements_keeps (s : State) (req : List Byte) : Keeps s (doGetMeasurements s req) := by
  unfold doGetMeasurements
  try dsimp only
  iterate 12 all_goals first
    | with_reducible exact Keeps.refl _
    | with_reducible refine Keeps.trans ?_ (spdmError_keeps _)
    | with_reducible refine Keeps.trans ?_ (nextFree_keeps _)
    | with_reducible refine Keeps.trans ?_ (spdmAnswer_keeps _ _ _)
    | with_reducible refine onSpdm_keeps _ _ _ (fun s => ?_)
    | with_reducible split
    | with_reducible refine Keeps.trans ?_ (Keeps.upd rfl rfl rfl rfl rfl rfl)
    | skip

theorem doRedfishGet_keeps (s : State) (path : Nat) : Keeps s (doRedfishGet s path) := by
  unfold doRedfishGet
  try dsimp only
  iterate 12 all_goals first
    | with_reducible exact Keeps.refl _
    | with_reducible refine Keeps.trans ?_ (nextFree_keeps _)
    | with_reducible refine Keeps.trans ?_ (answer_keeps _ _ _)
    | with_reducible refine Keeps.trans ?_ (refuseHttp_keeps _ _)
    | with_reducible split
    | with_reducible refine Keeps.trans ?_ (Keeps.upd rfl rfl rfl rfl rfl rfl)
    | skip

theorem doEventSubscription_keeps (s : State) (endpoint : Nat) (create : Bool) : Keeps s (doEventSubscription s
    endpoint create) := by
  unfold doEventSubscription
  try dsimp only
  iterate 12 all_goals first
    | with_reducible exact Keeps.refl _
    | with_reducible refine Keeps.trans ?_ (answer_keeps _ _ _)
    | with_reducible split
    | with_reducible refine Keeps.trans ?_ (Keeps.upd rfl rfl rfl rfl rfl rfl)
    | skip

theorem doAccountService_keeps (s : State) (user : Nat) (act : Nat) (arg : Nat) : Keeps s (doAccountService s user
    act arg) := by
  unfold doAccountService
  try dsimp only
  iterate 12 all_goals first
    | with_reducible exact Keeps.refl _
    | with_reducible refine Keeps.trans ?_ (answer_keeps _ _ _)
    | with_reducible split
    | with_reducible refine Keeps.trans ?_ (Keeps.upd rfl rfl rfl rfl rfl rfl)
    | skip

end Sys2Proof.Machine
end

