-- ==== Sys2Proof/Laws/Mgmt.lean ====
section
/-! SUPPORT. Writes through a trained link in order, a sealed configuration blob, banks and account numbers. -/

open Sys2Proof Sys2Proof.Machine

namespace Sys2Proof.Laws

/-- Writes with a link trained, in order. -/
theorem foldWrites_trained {α : Type} (f : α → Nat × List Byte) (l : List α) (s : State) (h : trainedLinks s ≠ []) :
    l.foldl (fun s x => hostWrite s (f x).1 (f x).2) s =
      { s with host := (l.map f).foldl (fun m w => memStore m w.1 w.2) s.host } := by
  induction l generalizing s with
  | nil => rfl
  | cons x l ih =>
    rw [List.foldl_cons, hostWrite_trained h]
    exact ih _ h

theorem foldGroups_trained {α : Type} (f : α → List (Nat × List Byte)) (l : List α) (s : State) (h : trainedLinks s ≠ []) :
    l.foldl (fun s x => (f x).foldl (fun s o => hostWrite s o.1 o.2) s) s =
      { s with host := (l.flatMap f).foldl (fun m w => memStore m w.1 w.2) s.host } := by
  induction l generalizing s with
  | nil => rfl
  | cons x l ih =>
    rw [List.foldl_cons, foldWrites_trained (fun o => o) (f x) s h]
    refine (ih { s with host := (((f x).map fun o => o).foldl (fun m w => memStore m w.1 w.2) s.host) } h).trans ?_
    rw [List.flatMap_cons, List.foldl_append, List.map_id']

theorem linkUp_mod (s : State) (l k : Nat) (f : HostLink → HostLink) (h : l < s.links.length) :
    linkUp { s with links := modNth s.links l f } k = if k = l then (f (nth HostLink.down s.links l)).trained else linkUp s k := by
  unfold linkUp
  dsimp only
  rw [nth_modNth]
  by_cases hk : k = l
  · subst hk; rw [if_pos ⟨rfl, h⟩, if_pos rfl]
  · rw [if_neg (by rintro ⟨a, -⟩; exact hk a), if_neg hk]

theorem fieldAt_splice (b mid : List Byte) (o n : Nat) (hb : 12 ≤ b.length) (hm : mid.length = 8) (h : o + n ≤ 4 ∨ 12 ≤ o) :
    fieldAt (b.take 4 ++ (mid ++ b.drop 12)) o n = fieldAt b o n := by
  rcases h with h | h
  · rw [fieldAt_left _ _ _ _ (by rw [List.length_take]; omega)]
    conv => rhs; rw [← List.take_append_drop 4 b]
    rw [fieldAt_left _ _ _ _ (by rw [List.length_take]; omega)]
  · have h1 : o = (b.take 4).length + (mid.length + (o - 12)) := by rw [List.length_take]; omega
    have h2 : o = (b.take 12).length + (o - 12) := by rw [List.length_take]; omega
    conv => lhs; rw [h1]
    rw [fieldAt_right, fieldAt_right]
    conv => rhs; rw [← List.take_append_drop 12 b, h2]
    rw [fieldAt_right]

theorem slice_splice (b mid : List Byte) (o n : Nat) (hb : 12 ≤ b.length) (hm : mid.length = 8) (h : 12 ≤ o) :
    slice (b.take 4 ++ (mid ++ b.drop 12)) o n = slice b o n := by
  have h1 : o = (b.take 4).length + (mid.length + (o - 12)) := by rw [List.length_take]; omega
  have h2 : o = (b.take 12).length + (o - 12) := by rw [List.length_take]; omega
  conv => lhs; rw [h1]
  rw [slice_append_right, slice_append_right]
  conv => rhs; rw [h2]
  have : slice (b.take 12 ++ b.drop 12) ((b.take 12).length + (o - 12)) n = slice (b.drop 12) (o - 12) n := slice_append_right _ _ _ _
  rw [List.take_append_drop] at this
  exact this.symm

/-- The stored blob. -/
theorem sealBlob_eq (b : List Byte) (seq : Nat) (h : b.length = 4096) :
    ∃ c, sealBlob b seq = b.take 4 ++ ((leBytes 4 seq ++ leBytes 4 c) ++ b.drop 12) ∧ c < 2 ^ 32 ∧
      cfgCheck (b.take 4 ++ ((leBytes 4 seq ++ leBytes 4 c) ++ b.drop 12)) = c := by
  have h4 : (b.take 4).length = 4 := by rw [List.length_take]; omega
  refine ⟨cfgCheck (b.take 4 ++ leBytes 4 seq ++ b.drop 8), ?_, crc32c_lt _, ?_⟩
  · unfold sealBlob
    dsimp only
    generalize cfgCheck (b.take 4 ++ leBytes 4 seq ++ b.drop 8) = c
    have t8 : (b.take 4 ++ leBytes 4 seq ++ b.drop 8).take 8 = b.take 4 ++ leBytes 4 seq := by
      rw [List.take_append_of_le_length (by simp [leBytes_length, h4])]
      exact List.take_of_length_le (by simp [leBytes_length, h4])
    have d12 : (b.take 4 ++ leBytes 4 seq ++ b.drop 8).drop 12 = b.drop 12 := by
      rw [List.drop_append, List.drop_eq_nil_of_le (by simp [leBytes_length, h4]), List.nil_append, List.drop_drop]
      simp [leBytes_length, h4]
    rw [t8, d12]; simp
  · have t8 : ∀ x ys : List Byte, x.length = 4 → (b.take 4 ++ ((leBytes 4 seq ++ x) ++ ys)).take 8 = b.take 4 ++ leBytes 4 seq := by
      intro x ys hx
      have : b.take 4 ++ ((leBytes 4 seq ++ x) ++ ys) = (b.take 4 ++ leBytes 4 seq) ++ (x ++ ys) := by simp
      rw [this, List.take_append_of_le_length (by simp [leBytes_length, h4])]
      exact List.take_of_length_le (by simp [leBytes_length, h4])
    have d12 : ∀ x ys : List Byte, x.length = 4 → (b.take 4 ++ ((leBytes 4 seq ++ x) ++ ys)).drop 12 = ys := by
      intro x ys hx
      have : b.take 4 ++ ((leBytes 4 seq ++ x) ++ ys) = (b.take 4 ++ leBytes 4 seq ++ x) ++ ys := by simp
      rw [this, List.drop_append, List.drop_eq_nil_of_le (by simp [leBytes_length, h4, hx]), List.nil_append]
      have : (b.take 4 ++ leBytes 4 seq ++ x).length = 12 := by simp [leBytes_length, h4, hx]
      rw [this]; rfl
    generalize hc : cfgCheck (b.take 4 ++ leBytes 4 seq ++ b.drop 8) = c
    unfold cfgCheck at hc ⊢
    rw [t8 _ _ (by simp [leBytes_length]), d12 _ _ (by simp [leBytes_length])]
    rw [← hc]
    congr 1
    have t8' : (b.take 4 ++ leBytes 4 seq ++ b.drop 8).take 8 = b.take 4 ++ leBytes 4 seq := by
      rw [List.take_append_of_le_length (by simp [leBytes_length, h4])]
      exact List.take_of_length_le (by simp [leBytes_length, h4])
    have d12' : (b.take 4 ++ leBytes 4 seq ++ b.drop 8).drop 12 = b.drop 12 := by
      rw [List.drop_append, List.drop_eq_nil_of_le (by simp [leBytes_length, h4]), List.nil_append, List.drop_drop]
      simp [leBytes_length, h4]
    rw [t8', d12']

theorem cfgFields_splice (b mid : List Byte) (hb : b.length = 4096) (hm : mid.length = 8) :
    cfgFieldsOk (b.take 4 ++ (mid ++ b.drop 12)) = cfgFieldsOk b := by
  have hl : (b.take 4 ++ (mid ++ b.drop 12)).length = b.length := by
    simp only [List.length_append, List.length_take, List.length_drop, hm]; omega
  have fa : ∀ o n, o + n ≤ 4 ∨ 12 ≤ o → fieldAt (b.take 4 ++ (mid ++ b.drop 12)) o n = fieldAt b o n :=
    fun o n h => fieldAt_splice b mid o n (by omega) hm h
  have dr : (b.take 4 ++ (mid ++ b.drop 12)).drop 0x70 = b.drop 0x70 := by
    have : b.take 4 ++ (mid ++ b.drop 12) = (b.take 4 ++ mid) ++ b.drop 12 := by simp
    have h12 : (b.take 4 ++ mid).length = 12 := by rw [List.length_append, List.length_take, hm]; omega
    rw [this, List.drop_append, List.drop_eq_nil_of_le (by omega), List.nil_append, List.drop_drop, h12]
  unfold cfgFieldsOk
  dsimp only
  rw [hl, dr, slice_splice b mid 0x30 64 (by omega) hm (by omega), fa 0 2 (by omega), fa 2 2 (by omega), fa 0x0C 4 (by omega),
    fa 0x10 4 (by omega), fa 0x14 2 (by omega), fa 0x16 1 (by omega), fa 0x17 1 (by omega), fa 0x18 1 (by omega),
    fa 0x19 1 (by omega), fa 0x1A 2 (by omega), fa 0x20 4 (by omega)]

theorem sealBlob_spec (b : List Byte) (seq : Nat) (h : cfgFieldsOk b = true) :
    cfgValid (sealBlob b seq) = true ∧ fieldAt (sealBlob b seq) 4 4 = seq % 2 ^ 32 ∧ (sealBlob b seq).take 4 = b.take 4 ∧
      (sealBlob b seq).drop 12 = b.drop 12 := by
  have hb : b.length = 4096 := by
    unfold cfgFieldsOk at h
    simp only [Bool.and_eq_true, beq_iff_eq] at h
    exact h.1.1.1.1.1.1.1.1.1.1.1.1.1.1.1
  obtain ⟨c, h1, h2, h3⟩ := sealBlob_eq b seq hb
  have h4 : (b.take 4).length = 4 := by rw [List.length_take]; omega
  rw [h1]
  refine ⟨?_, ?_, ?_, ?_⟩
  · unfold cfgValid
    rw [h3, cfgFields_splice b _ hb (by simp [leBytes_length]), h, Bool.true_and, beq_iff_eq]
    have : b.take 4 ++ ((leBytes 4 seq ++ leBytes 4 c) ++ b.drop 12) = (b.take 4 ++ leBytes 4 seq) ++ (leBytes 4 c ++ b.drop 12) := by simp
    have e8 : (8 : Nat) = (b.take 4 ++ leBytes 4 seq).length + 0 := by simp [leBytes_length, h4]
    rw [this]
    conv => lhs; arg 2; rw [e8]
    rw [fieldAt_right, fieldAt_leBytes]
    exact Nat.mod_eq_of_lt h2
  · have e4 : (4 : Nat) = (b.take 4).length + 0 := by simp [leBytes_length, h4]
    conv => lhs; arg 2; rw [e4]
    rw [fieldAt_right, List.append_assoc, fieldAt_leBytes, show 256 ^ 4 = 2 ^ 32 from rfl]
  · rw [List.take_append_of_le_length (by omega)]
    exact List.take_of_length_le (by omega)
  · have : b.take 4 ++ ((leBytes 4 seq ++ leBytes 4 c) ++ b.drop 12) = (b.take 4 ++ (leBytes 4 seq ++ leBytes 4 c)) ++ b.drop 12 := by simp
    have hl : (b.take 4 ++ (leBytes 4 seq ++ leBytes 4 c)).length = 12 := by simp [leBytes_length, h4]
    rw [this, List.drop_append, List.drop_eq_nil_of_le (by omega), List.nil_append, hl]; rfl

theorem setBank_get (l : List Bank) (k j : Nat) (x : Bank) (h : k < l.length) :
    nth ⟨[], false⟩ (modNth l k fun _ => x) j = if j = k then x else nth ⟨[], false⟩ l j := by
  rw [nth_modNth]
  by_cases hj : j = k
  · subst hj; rw [if_pos ⟨rfl, h⟩, if_pos rfl]
  · rw [if_neg (by rintro ⟨a, -⟩; exact hj a), if_neg hj]

/-- Fewer entries than numbers leave a number free. -/
theorem some_free (n : Nat) (l : List (Nat × Nat)) (h : l.length < n) : ∃ k, k < n ∧ ∀ p ∈ l, p.1 ≠ k := by
  induction n generalizing l with
  | zero => exact absurd h (Nat.not_lt_zero _)
  | succ n ih =>
    by_cases hn : ∃ p ∈ l, p.1 = n
    · obtain ⟨p, hp, hpn⟩ := hn
      have hlen : (l.erase p).length < n := by
        have := List.length_pos_of_mem hp
        rw [List.length_erase_of_mem hp]; omega
      obtain ⟨k, hk, hf⟩ := ih (l.erase p) hlen
      refine ⟨k, by omega, fun q hq hqk => ?_⟩
      by_cases hqp : q = p
      · rw [hqp, hpn] at hqk; omega
      · exact hf q ((List.mem_erase_of_ne hqp).2 hq) hqk
    · exact ⟨n, Nat.lt_succ_self _, fun p hp hpn => hn ⟨p, hp, hpn⟩⟩

theorem free_unused (s : State) (h : s.mgmt.accounts.length < 8) : ∀ p ∈ s.mgmt.accounts, p.1 ≠ freeAccount s := by
  obtain ⟨k, hk, hf⟩ := some_free 9 s.mgmt.accounts (by omega)
  unfold freeAccount
  cases hfind : (List.range 9).find? fun k => !(s.mgmt.accounts.any fun p => p.1 == k) with
  | none =>
    have := List.find?_eq_none.1 hfind k (List.mem_range.2 hk)
    exact absurd (by
      rw [Bool.not_eq_true', List.any_eq_false]
      intro p hp; simpa using hf p hp) this
  | some j =>
    have := List.find?_some hfind
    rw [Bool.not_eq_true', List.any_eq_false] at this
    intro p hp
    have := this p hp
    simpa using this

end Sys2Proof.Laws
end

