-- ==== Sys2Proof/Laws/PerInstr.lean ====
section
/-! SUPPORT. Family NamesChips: a well-formed command names chips of the tray only. One lemma for each command. -/

namespace Sys2Proof

/-- The chips that an event met while a command runs names. -/
def Incident.chips : Incident → List Nat
  | .sramCe c _ | .sramUe c _ _ | .sfuCe c _ | .sfuUe c _ | .hbmCe c | .hbmUeModel c | .hbmUeReserved c
  | .contextUe c _ _ | .lockCheck c _ _ _ _ | .laneParity c _ _ | .ingressUe c _ => [c]
  | .maskLost _ c m => [c, m]
  | .overhangFail _ | .streamLost _ | .windowRecordLost _ _ => []

/-- The chips that a command names. -/
def Instr.chips : Instr → List Nat
  | .stepCmd _ inc => (inc.flatMap Incident.chips)
  | .stepScores _ inc => (inc.flatMap Incident.chips)
  | .verify _ inc => (inc.flatMap Incident.chips)
  | .lookahead _ inc => (inc.flatMap Incident.chips)
  | .hostDraw _ inc => (inc.flatMap Incident.chips)
  | .softmax _ inc => (inc.flatMap Incident.chips)
  | .topk _ inc => (inc.flatMap Incident.chips)
  | .thresholdCompact _ inc => (inc.flatMap Incident.chips)
  | .rowstat _ inc => (inc.flatMap Incident.chips)
  | .castOp _ inc => (inc.flatMap Incident.chips)
  | .randomFill _ inc => (inc.flatMap Incident.chips)
  | .applyFunction _ inc => (inc.flatMap Incident.chips)
  | .replay _ inc => (inc.flatMap Incident.chips)
  | .loadFunction run => (run.inc.flatMap Incident.chips)
  | .quietSlotStart arrivals => (arrivals.map fun p => p.1)
  | .barrierArrival _ chip _ => [chip]
  | .watchdogExpiry _ stuck _ => (stuck.map fun p => p.1)
  | .flitReceive src dst _ _ => [src, dst]
  | .nackReceive src dst _ _ => [src, dst]
  | .ackTimeout src dst _ _ _ => [src, dst]
  | .retryAttemptTimeout src dst _ => [src, dst]
  | .retryWindowExpiry src dst => [src, dst]
  | .laneRetire src dst _ => [src, dst]
  | .linkRecalibration a b => [a, b]
  | .timeRsp chip _ _ _ => [chip]
  | .timeExchangeLoss chip _ => [chip]
  | .coreHeartbeatMiss chip _ _ => [chip]
  | .coreReplacement chip _ => [chip]
  | .chipHeartbeatMiss chip _ => [chip]
  | .fatalReport chip _ => [chip]
  | .regulatorFault chip _ => [chip]
  | .backgroundTaskDue _ chip _ found bad _ => [chip] ++ (found.flatMap Incident.chips) ++ (bad.map fun r => r.chip)
  | .boundedSlot chip _ => [chip]
  | .thermalThrottle chip _ _ => [chip]
  | .chipPowerOnBist found => (found.map fun r => r.chip)
  | .hbmMycelTraining found => (found.map fun r => r.chip)
  | .trayCounterAlignment outside => outside
  | .throttleRelease chip _ => [chip]
  | .nop _ | .fence _ | .loadModel _ | .unloadModel _ | .setModelPriority _ | .openStream _ | .setStreamParams _
  | .closeStream _ | .rebuildHistory _ | .saveStream _ | .restoreStream _ | .ringJump _
  | .loadMask _ | .readDigests _ | .readFlags _ _ | .readCounters _ _ | .clearCounters _ | .setMode _
  | .setWakeTolerance _ | .barrier _ _ | .barrierRelease _ | .launchAt _ | .launchTick _ | .abort _
  | .sqTailDb _ _ _ _ _ | .cqHeadDb _ _ _ _ | .sqEnable _ _ _ | .sqDisable _ _ _ | .cqEnable _ _ _
  | .cqDisable _ _ _ | .ringErrClear _ _ _ | .flagSummaryClear _ | .eventCauseClear _ | .vfEnable _
  | .vfDisable _ | .sriovVfEnable _ _ | .trayCountLoRead _ | .ingressSyncRead _ | .bar2Write _ _ _ _
  | .registerWrite _ _ _ _ | .functionLevelReset _ | .commandAccept _ | .commandStart _ _
  | .completionRecordWrite _ _ | .cqCoalesceDelay _ _ | .deadlineExpiry _ | .timeExchange _ | .fenceTick _
  | .chipLossRestart _ | .relayDone _ | .tmcWatchdog | .tmcResume | .counterSave
  | .quietSlotEnd _ | .pressureMeasurement _ | .puffballMeasure _ _ | .puffballCapacityMeasure _
  | .coldPlateOvertemp _ | .inputHigh _ _ | .pfEarly _ _ | .inputReturn _ _ | .decisionTick | .snapshotTick _
  | .saveComplete _ | .presenceLost _ | .presenceMated | .puffballBleed | .idleEntry _ _ | .inputCheck _
  | .puffballPreCharge _ | .tmcBoot _ | .configurationApply | .ready | .hostLinkTrained _ _ _ | .hostLinkDown _
  | .hostBridgeFailed _ _ | .gracefulRestart _ | .forceRestart | .gracefulShutdown _ | .on | .configWrite _
  | .configRead | .faultLogRead | .ledgerRead | .firmwareTransfer _ _ _ | .verifyComplete | .activateFirmware
  | .mctpControl _ | .getSensorReading _ | .getVersion _ | .getCapabilities _ | .negotiateAlgorithms _
  | .getDigests _ | .getCertificate _ | .challenge _ | .getMeasurements _ | .redfishGet _
  | .eventSubscription _ _ | .accountService _ _ _ | .mirrorBuildComplete _ | .modelRelayComplete _
  | .coldPlateRelease _ => []

/-- A well-formed command names chips 0 to 7 only. -/
def Laws.NamesChips.Statement (i : Instr) : Prop := i.wf = true → ∀ c ∈ i.chips, c < 8

theorem Incident.chips_lt (i : Incident) (h : i.wf = true) : ∀ c ∈ i.chips, c < 8 := by
  cases i <;> simp_all [Incident.wf, Incident.chips, chipWf, coreWf, pairWf]

theorem incidents_lt (l : List Incident) (h : l.all Incident.wf = true) : ∀ c ∈ l.flatMap Incident.chips, c < 8 := by
  intro c hc
  obtain ⟨i, hi, hm⟩ := List.mem_flatMap.1 hc
  exact i.chips_lt (List.all_eq_true.1 h i hi) c hm

theorem Laws.NamesChips.of_none {i : Instr} (h : i.chips = []) : Laws.NamesChips.Statement i := by
  intro _ c hc; rw [h] at hc; cases hc

theorem Laws.NamesChips.of_one {i : Instr} {x : Nat} (h : i.chips = [x]) (hx : i.wf = true → x < 8) :
    Laws.NamesChips.Statement i := by
  intro w c hc
  rw [h] at hc
  cases List.mem_singleton.1 hc
  exact hx w

theorem Laws.NamesChips.of_two {i : Instr} {x y : Nat} (h : i.chips = [x, y]) (hx : i.wf = true → x < 8 ∧ y < 8) :
    Laws.NamesChips.Statement i := by
  intro w c hc
  rw [h] at hc
  rcases List.mem_cons.1 hc with rfl | hc
  · exact (hx w).1
  · cases List.mem_singleton.1 hc
    exact (hx w).2

theorem lt_of_chipWf {c : Nat} (h : chipWf c = true) : c < 8 := of_decide_eq_true h

theorem lt_of_coreWf {c k : Nat} (h : coreWf c k = true) : c < 8 := (of_decide_eq_true h).1

theorem lt_of_pairWf {a b : Nat} (h : pairWf a b = true) : a < 8 ∧ b < 8 :=
  ⟨(of_decide_eq_true h).1, (of_decide_eq_true h).2.1⟩

theorem left_of_and {a b : Bool} (h : (a && b) = true) : a = true := by cases a <;> simp_all

namespace Laws.NamesChips

theorem nop (id : Nat) : Statement (.nop id) := of_none rfl
theorem fence (id : Nat) : Statement (.fence id) := of_none rfl
theorem loadModel (id : Nat) : Statement (.loadModel id) := of_none rfl
theorem unloadModel (id : Nat) : Statement (.unloadModel id) := of_none rfl
theorem setModelPriority (id : Nat) : Statement (.setModelPriority id) := of_none rfl
theorem openStream (id : Nat) : Statement (.openStream id) := of_none rfl
theorem setStreamParams (id : Nat) : Statement (.setStreamParams id) := of_none rfl
theorem closeStream (id : Nat) : Statement (.closeStream id) := of_none rfl
theorem rebuildHistory (id : Nat) : Statement (.rebuildHistory id) := of_none rfl
theorem saveStream (id : Nat) : Statement (.saveStream id) := of_none rfl
theorem restoreStream (id : Nat) : Statement (.restoreStream id) := of_none rfl
theorem stepCmd (id : Nat) (inc : List Incident) : Statement (.stepCmd id inc) := fun h => incidents_lt inc h
theorem stepScores (id : Nat) (inc : List Incident) : Statement (.stepScores id inc) := fun h => incidents_lt inc h
theorem verify (id : Nat) (inc : List Incident) : Statement (.verify id inc) := fun h => incidents_lt inc h
theorem lookahead (id : Nat) (inc : List Incident) : Statement (.lookahead id inc) := fun h => incidents_lt inc h
theorem hostDraw (id : Nat) (inc : List Incident) : Statement (.hostDraw id inc) := fun h => incidents_lt inc h
theorem softmax (id : Nat) (inc : List Incident) : Statement (.softmax id inc) := fun h => incidents_lt inc h
theorem topk (id : Nat) (inc : List Incident) : Statement (.topk id inc) := fun h => incidents_lt inc h
theorem thresholdCompact (id : Nat) (inc : List Incident) :
    Statement (.thresholdCompact id inc) := fun h => incidents_lt inc h
theorem rowstat (id : Nat) (inc : List Incident) : Statement (.rowstat id inc) := fun h => incidents_lt inc h
theorem castOp (id : Nat) (inc : List Incident) : Statement (.castOp id inc) := fun h => incidents_lt inc h
theorem randomFill (id : Nat) (inc : List Incident) : Statement (.randomFill id inc) := fun h => incidents_lt inc h
theorem applyFunction (id : Nat) (inc : List Incident) :
    Statement (.applyFunction id inc) := fun h => incidents_lt inc h
theorem ringJump (id : Nat) : Statement (.ringJump id) := of_none rfl
theorem loadFunction (run : LoadRun) : Statement (.loadFunction run) := fun h => incidents_lt run.inc h
theorem loadMask (id : Nat) : Statement (.loadMask id) := of_none rfl
theorem replay (id : Nat) (inc : List Incident) : Statement (.replay id inc) := fun h => incidents_lt inc h
theorem readDigests (id : Nat) : Statement (.readDigests id) := of_none rfl
theorem readFlags (id : Nat) (tick : Tick) : Statement (.readFlags id tick) := of_none rfl
theorem readCounters (id : Nat) (tick : Tick) : Statement (.readCounters id tick) := of_none rfl
theorem clearCounters (id : Nat) : Statement (.clearCounters id) := of_none rfl
theorem setMode (id : Nat) : Statement (.setMode id) := of_none rfl
theorem setWakeTolerance (id : Nat) : Statement (.setWakeTolerance id) := of_none rfl
theorem barrier (id : Nat) (tick : Tick) : Statement (.barrier id tick) := of_none rfl
theorem barrierArrival (id : Nat) (chip : Nat) (tick : Tick) :
    Statement (.barrierArrival id chip tick) := of_one rfl lt_of_chipWf
theorem barrierRelease (id : Nat) : Statement (.barrierRelease id) := of_none rfl
theorem launchAt (id : Nat) : Statement (.launchAt id) := of_none rfl
theorem launchTick (id : Nat) : Statement (.launchTick id) := of_none rfl
theorem abort (id : Nat) : Statement (.abort id) := of_none rfl
theorem sqTailDb (link : Nat) (fn : Nat) (ring : Nat) (value : Word) (news : HostNews) :
    Statement (.sqTailDb link fn ring value news) := of_none rfl
theorem cqHeadDb (link : Nat) (fn : Nat) (ring : Nat) (value : Word) :
    Statement (.cqHeadDb link fn ring value) := of_none rfl
theorem sqEnable (fn : Nat) (ring : Nat) (value : Word) : Statement (.sqEnable fn ring value) := of_none rfl
theorem sqDisable (fn : Nat) (ring : Nat) (value : Word) : Statement (.sqDisable fn ring value) := of_none rfl
theorem cqEnable (fn : Nat) (ring : Nat) (value : Word) : Statement (.cqEnable fn ring value) := of_none rfl
theorem cqDisable (fn : Nat) (ring : Nat) (value : Word) : Statement (.cqDisable fn ring value) := of_none rfl
theorem ringErrClear (fn : Nat) (ring : Nat) (value : Word) : Statement (.ringErrClear fn ring value) := of_none rfl
theorem flagSummaryClear (value : Word) : Statement (.flagSummaryClear value) := of_none rfl
theorem eventCauseClear (value : Word) : Statement (.eventCauseClear value) := of_none rfl
theorem vfEnable (vf : Nat) : Statement (.vfEnable vf) := of_none rfl
theorem vfDisable (vf : Nat) : Statement (.vfDisable vf) := of_none rfl
theorem sriovVfEnable (link : Nat) (on : Bool) : Statement (.sriovVfEnable link on) := of_none rfl
theorem trayCountLoRead (link : Nat) : Statement (.trayCountLoRead link) := of_none rfl
theorem ingressSyncRead (link : Nat) : Statement (.ingressSyncRead link) := of_none rfl
theorem bar2Write (fn : Nat) (link : Nat) (offset : Nat) (bytes : List (Option Byte)) :
    Statement (.bar2Write fn link offset bytes) := of_none rfl
theorem registerWrite (fn : Nat) (link : Nat) (offset : Nat) (value : Word) :
    Statement (.registerWrite fn link offset value) := of_none rfl
theorem functionLevelReset (fn : Nat) : Statement (.functionLevelReset fn) := of_none rfl
theorem commandAccept (tick : Tick) : Statement (.commandAccept tick) := of_none rfl
theorem commandStart (id : Nat) (tick : Tick) : Statement (.commandStart id tick) := of_none rfl
theorem completionRecordWrite (id : Nat) (tick : Tick) : Statement (.completionRecordWrite id tick) := of_none rfl
theorem cqCoalesceDelay (ring : Nat) (tick : Tick) : Statement (.cqCoalesceDelay ring tick) := of_none rfl
theorem deadlineExpiry (id : Nat) : Statement (.deadlineExpiry id) := of_none rfl
theorem watchdogExpiry (id : Nat) (stuck : List (Nat × Nat)) (tick : Tick) :
    Statement (.watchdogExpiry id stuck tick) := by
  intro h c hc
  obtain ⟨p, hp, rfl⟩ := List.mem_map.1 hc
  exact lt_of_coreWf (List.all_eq_true.1 h p hp)
theorem flitReceive (src : Nat) (dst : Nat) (flit : List Byte) (tick : Tick) :
    Statement (.flitReceive src dst flit tick) := of_two rfl fun h => lt_of_pairWf (left_of_and h)
theorem nackReceive (src : Nat) (dst : Nat) (ackSeq : Nat) (tick : Tick) :
    Statement (.nackReceive src dst ackSeq tick) := of_two rfl fun h => lt_of_pairWf (left_of_and h)
theorem ackTimeout (src : Nat) (dst : Nat) (seq : Nat) (context : Nat) (tick : Tick) :
    Statement (.ackTimeout src dst seq context tick) := of_two rfl fun h => lt_of_pairWf (left_of_and h)
theorem retryAttemptTimeout (src : Nat) (dst : Nat) (tick : Tick) :
    Statement (.retryAttemptTimeout src dst tick) := of_two rfl lt_of_pairWf
theorem retryWindowExpiry (src : Nat) (dst : Nat) : Statement (.retryWindowExpiry src dst) := of_two rfl lt_of_pairWf
theorem laneRetire (src dst : Nat) (report : LaneReport) : Statement (.laneRetire src dst report) :=
  of_two rfl fun h => lt_of_pairWf (left_of_and h)
theorem linkRecalibration (a : Nat) (b : Nat) : Statement (.linkRecalibration a b) := of_two rfl lt_of_pairWf
theorem timeExchange (start : ExchangeStart) : Statement (.timeExchange start) := of_none rfl
theorem timeRsp (chip : Nat) (req rsp : TimeLeg) (after : Int) : Statement (.timeRsp chip req rsp after) :=
  of_one rfl lt_of_chipWf
theorem timeExchangeLoss (chip : Nat) (after : Int) :
    Statement (.timeExchangeLoss chip after) := of_one rfl lt_of_chipWf
theorem coreHeartbeatMiss (chip : Nat) (core : Nat) (tick : Tick) :
    Statement (.coreHeartbeatMiss chip core tick) := of_one rfl lt_of_coreWf
theorem coreReplacement (chip : Nat) (core : Nat) : Statement (.coreReplacement chip core) := of_one rfl lt_of_coreWf
theorem chipHeartbeatMiss (chip : Nat) (tick : Tick) :
    Statement (.chipHeartbeatMiss chip tick) := of_one rfl lt_of_chipWf
theorem fatalReport (chip : Nat) (tick : Tick) : Statement (.fatalReport chip tick) := of_one rfl lt_of_chipWf
theorem regulatorFault (chip : Nat) (tick : Tick) : Statement (.regulatorFault chip tick) := of_one rfl lt_of_chipWf
theorem fenceTick (tick : Tick) : Statement (.fenceTick tick) := of_none rfl
theorem chipLossRestart (tick : Tick) : Statement (.chipLossRestart tick) := of_none rfl
theorem relayDone (tick : Tick) : Statement (.relayDone tick) := of_none rfl
theorem tmcWatchdog : Statement .tmcWatchdog := of_none rfl
theorem tmcResume : Statement .tmcResume := of_none rfl
theorem counterSave : Statement .counterSave := of_none rfl
theorem backgroundTaskDue (task : Nat) (chip : Nat) (arg : Nat) (found : List Incident) (bad : List BistResult) (tick : Tick) :
    Statement (.backgroundTaskDue task chip arg found bad tick) := by
  intro h c hc
  simp only [Instr.wf, Instr.chips, Bool.and_eq_true, List.mem_append] at h hc
  rcases hc with (hc | hc) | hc
  · simp_all [chipWf]
  · exact incidents_lt found h.1.2 c hc
  · obtain ⟨r, hr, rfl⟩ := List.mem_map.1 hc
    have := List.all_eq_true.1 h.2 r hr
    simp_all [BistResult.wf, chipWf]
theorem boundedSlot (chip : Nat) (tick : Tick) : Statement (.boundedSlot chip tick) := of_one rfl lt_of_chipWf
theorem quietSlotStart (arrivals : List (Nat × Tick)) : Statement (.quietSlotStart arrivals) := by
  intro h c hc
  obtain ⟨p, hp, rfl⟩ := List.mem_map.1 hc
  exact lt_of_chipWf (List.all_eq_true.1 h p hp)
theorem quietSlotEnd (tick : Tick) : Statement (.quietSlotEnd tick) := of_none rfl
theorem pressureMeasurement (reading : PowerReading) : Statement (.pressureMeasurement reading) := of_none rfl
theorem puffballMeasure (millijoules : Nat) (tick : Tick) :
    Statement (.puffballMeasure millijoules tick) := of_none rfl
theorem puffballCapacityMeasure (millijoules : Nat) : Statement (.puffballCapacityMeasure millijoules) := of_none rfl
theorem thermalThrottle (chip : Nat) (temp : Nat) (tick : Tick) :
    Statement (.thermalThrottle chip temp tick) := of_one rfl fun h => lt_of_chipWf (left_of_and h)
theorem coldPlateOvertemp (temp : Nat) : Statement (.coldPlateOvertemp temp) := of_none rfl
theorem inputHigh (millivolts : Nat) (tick : Tick) : Statement (.inputHigh millivolts tick) := of_none rfl
theorem pfEarly (millivolts : Nat) (tick : Tick) : Statement (.pfEarly millivolts tick) := of_none rfl
theorem inputReturn (millivolts : Nat) (tick : Tick) : Statement (.inputReturn millivolts tick) := of_none rfl
theorem decisionTick : Statement .decisionTick := of_none rfl
theorem snapshotTick (tick : Tick) : Statement (.snapshotTick tick) := of_none rfl
theorem saveComplete (tick : Tick) : Statement (.saveComplete tick) := of_none rfl
theorem presenceLost (tick : Tick) : Statement (.presenceLost tick) := of_none rfl
theorem presenceMated : Statement .presenceMated := of_none rfl
theorem puffballBleed : Statement .puffballBleed := of_none rfl
theorem idleEntry (state : Nat) (tick : Tick) : Statement (.idleEntry state tick) := of_none rfl
theorem inputCheck (millivolts : Nat) : Statement (.inputCheck millivolts) := of_none rfl
theorem puffballPreCharge (millijoules : Nat) : Statement (.puffballPreCharge millijoules) := of_none rfl
theorem tmcBoot (rom : RomResult) : Statement (.tmcBoot rom) := of_none rfl
theorem chipPowerOnBist (found : List BistResult) : Statement (.chipPowerOnBist found) := by
  intro h c hc
  obtain ⟨r, hr, rfl⟩ := List.mem_map.1 hc
  have := List.all_eq_true.1 h r hr
  simp_all [BistResult.wf, chipWf]
theorem hbmMycelTraining (found : List TrainResult) : Statement (.hbmMycelTraining found) := by
  intro h c hc
  obtain ⟨r, hr, rfl⟩ := List.mem_map.1 hc
  have := List.all_eq_true.1 h r hr
  simp_all [TrainResult.wf, chipWf]
theorem trayCounterAlignment (outside : List Nat) :
    Statement (.trayCounterAlignment outside) := fun h c hc => lt_of_chipWf (List.all_eq_true.1 h c hc)
theorem configurationApply : Statement .configurationApply := of_none rfl
theorem ready : Statement .ready := of_none rfl
theorem hostLinkTrained (link : Nat) (width : Nat) (speed : Nat) :
    Statement (.hostLinkTrained link width speed) := of_none rfl
theorem hostLinkDown (link : Nat) : Statement (.hostLinkDown link) := of_none rfl
theorem hostBridgeFailed (bridge : Nat) (tick : Tick) : Statement (.hostBridgeFailed bridge tick) := of_none rfl
theorem gracefulRestart (tick : Tick) : Statement (.gracefulRestart tick) := of_none rfl
theorem forceRestart : Statement .forceRestart := of_none rfl
theorem gracefulShutdown (tick : Tick) : Statement (.gracefulShutdown tick) := of_none rfl
theorem on : Statement .on := of_none rfl
theorem configWrite (blob : List Byte) : Statement (.configWrite blob) := of_none rfl
theorem configRead : Statement .configRead := of_none rfl
theorem faultLogRead : Statement .faultLogRead := of_none rfl
theorem ledgerRead : Statement .ledgerRead := of_none rfl
theorem firmwareTransfer (viaRedfish : Bool) (bundle : List Byte) (whole : Bool) :
    Statement (.firmwareTransfer viaRedfish bundle whole) := of_none rfl
theorem verifyComplete : Statement .verifyComplete := of_none rfl
theorem activateFirmware : Statement .activateFirmware := of_none rfl
theorem mctpControl (message : List Byte) : Statement (.mctpControl message) := of_none rfl
theorem getSensorReading (sensor : Nat) : Statement (.getSensorReading sensor) := of_none rfl
theorem getVersion (request : List Byte) : Statement (.getVersion request) := of_none rfl
theorem getCapabilities (request : List Byte) : Statement (.getCapabilities request) := of_none rfl
theorem negotiateAlgorithms (request : List Byte) : Statement (.negotiateAlgorithms request) := of_none rfl
theorem getDigests (request : List Byte) : Statement (.getDigests request) := of_none rfl
theorem getCertificate (request : List Byte) : Statement (.getCertificate request) := of_none rfl
theorem challenge (request : List Byte) : Statement (.challenge request) := of_none rfl
theorem getMeasurements (request : List Byte) : Statement (.getMeasurements request) := of_none rfl
theorem redfishGet (path : Nat) : Statement (.redfishGet path) := of_none rfl
theorem eventSubscription (endpoint : Nat) (create : Bool) :
    Statement (.eventSubscription endpoint create) := of_none rfl
theorem accountService (user : Nat) (action : Nat) (arg : Nat) :
    Statement (.accountService user action arg) := of_none rfl
theorem mirrorBuildComplete (sid : Nat) : Statement (.mirrorBuildComplete sid) := of_none rfl
theorem modelRelayComplete (mid : Nat) : Statement (.modelRelayComplete mid) := of_none rfl
theorem throttleRelease (chip : Nat) (temp : Nat) :
    Statement (.throttleRelease chip temp) := of_one rfl fun h => lt_of_chipWf (left_of_and h)
theorem coldPlateRelease (temp : Nat) : Statement (.coldPlateRelease temp) := of_none rfl

end Laws.NamesChips

end Sys2Proof
end

