-- ==== Sys2Proof/Tests/Slice0.lean ====
section
/-! SUPPORT. The model's own tests: ill-formed operands refused, one step checked against the manual's numbers, and for each
statement with hypotheses a state and operands that meet them, clause by clause, at the edges of their ranges. -/

namespace Sys2Proof.Tests

open Sys2Proof.Machine

/-! ## Ill-formed operands are refused, those at the edge of their range are not -/

/-- An incident of each kind out of range (R21: 8 chips, 18 cores; 1,536 SRAM rows; 65,536 streams; 4,096 mask entries). -/
theorem test_wf_incidents :
    ([Incident.sramCe 8 0, .sramCe 0 18, .sramUe 0 0 1536, .sramUe 0 18 0, .sfuCe 0 18, .sfuUe 8 0, .hbmCe 8, .hbmUeModel 8, .hbmUeReserved 8,
      .contextUe 0 0 1536, .lockCheck 8 0 true (0#64, 0#64) (0#64, 0#64), .lockCheck 0 65536 false (0#64, 0#64) (0#64, 0#64), .laneParity 0 8 0, .laneParity 8 0 0, .ingressUe 8 0, .streamLost 65536,
      .maskLost 4096 0 1, .maskLost 0 7 7, .windowRecordLost 65536 0].all fun x => !x.wf && !(Instr.stepCmd 0 [x]).wf) = true ∧
    ([Incident.sramCe 7 17, .sramUe 7 17 1535, .sfuCe 7 17, .sfuUe 7 17, .hbmCe 7, .hbmUeModel 7, .hbmUeReserved 7, .contextUe 7 17 1535,
      .lockCheck 7 65535 true (0#64, 1#64) (0#64, 1#64),
      .laneParity 7 7 0, .ingressUe 7 0, .overhangFail 0, .streamLost 65535, .maskLost 4095 6 7, .windowRecordLost 65535 0].all
        Incident.wf) = true := by decide

/-- The commands that carry incidents check them. -/
theorem test_wf_commands_with_incidents :
    ([Instr.stepScores 0 [.hbmCe 8], .verify 0 [.hbmCe 8], .lookahead 0 [.hbmCe 8], .hostDraw 0 [.hbmCe 8], .softmax 0 [.hbmCe 8], .topk 0 [.hbmCe 8],
      .thresholdCompact 0 [.hbmCe 8], .rowstat 0 [.hbmCe 8], .castOp 0 [.hbmCe 8], .randomFill 0 [.hbmCe 8], .applyFunction 0 [.hbmCe 8],
      .replay 0 [.hbmCe 8], .loadFunction ⟨0, [.hbmCe 8]⟩].all fun i => !i.wf) = true := by decide

/-- BIST and training results out of range. -/
theorem test_wf_results :
    ([BistResult.mk 8 true true [] [] [], ⟨0, true, true, [18], [], []⟩, ⟨0, true, true, [], [(18, 0)], []⟩, ⟨0, true, true, [], [(0, 1536)], []⟩,
      ⟨0, true, true, [], [], [(18, 0)]⟩, ⟨0, true, true, [], [], [(0, 24)]⟩].all
      fun r => !r.wf && !(Instr.chipPowerOnBist [r]).wf) = true ∧
    ([TrainResult.mk 8 true [] [], ⟨0, true, [0], []⟩, ⟨0, true, [8], []⟩, ⟨0, true, [], [(1, 5)]⟩, ⟨0, true, [], [(0, 1)]⟩].all
      fun r => !r.wf && !(Instr.hbmMycelTraining [r]).wf) = true ∧
    (BistResult.mk 7 true true [17] [(17, 1535)] [(17, 23)]).wf = true ∧ (TrainResult.mk 7 true [0] [(6, 4)]).wf = true := by decide

/-- Registers, rings and functions: 4 links, 256 rings, 16 VFs, the enable bit each command writes, windows of BAR0 and BAR2. -/
theorem test_wf_host_accesses :
    ([Instr.sqTailDb 4 0 0 0#32 ⟨[], []⟩, .sqTailDb 0 17 0 0#32 ⟨[], []⟩, .sqTailDb 0 0 256 0#32 ⟨[], []⟩, .cqHeadDb 4 0 0 0#32, .cqHeadDb 0 0 256 0#32,
      .sqEnable 0 0 0#32, .sqEnable 0 256 1#32, .sqDisable 0 0 1#32, .sqDisable 17 0 0#32, .cqEnable 0 0 1#32, .cqEnable 0 256 2#32,
      .cqDisable 0 0 2#32, .cqDisable 17 0 0#32, .ringErrClear 0 256 2#32, .vfEnable 16, .vfDisable 16, .sriovVfEnable 4 true, .trayCountLoRead 4,
      .ingressSyncRead 4, .bar2Write 0 0 (2 ^ 36) [none], .bar2Write 1 0 (2 ^ 32) [none], .bar2Write 17 0 0 [], .bar2Write 0 4 0 [],
      .registerWrite 0 0 2 0#32, .registerWrite 0 0 (2 ^ 24) 0#32, .registerWrite 1 0 (2 ^ 22) 0#32, .registerWrite 17 0 0 0#32, .registerWrite 0 4 0 0#32,
      .functionLevelReset 17, .barrierArrival 0 8 0].all fun i => !i.wf) = true ∧
    ([Instr.sqTailDb 3 16 255 0#32 ⟨[], []⟩, .sqEnable 16 255 1#32, .sqDisable 0 0 2#32, .cqEnable 0 0 2#32, .cqDisable 0 0 1#32, .vfEnable 15,
      .bar2Write 0 3 (2 ^ 36 - 1) [none], .bar2Write 16 3 (2 ^ 32 - 1) [none], .registerWrite 0 3 (2 ^ 24 - 4) 0#32,
      .registerWrite 1 3 (2 ^ 22 - 4) 0#32, .functionLevelReset 16, .barrierArrival 0 7 0].all Instr.wf) = true := by decide

/-- The dispatcher, the fabric, faults and background work. -/
theorem test_wf_fabric_and_faults :
    ([Instr.cqCoalesceDelay 256 0, .watchdogExpiry 0 [(8, 0)] 0, .flitReceive 0 0 (List.replicate 256 0#8) 0, .flitReceive 0 1 [0#8] 0, .nackReceive 0 8 0 0,
      .nackReceive 0 1 4096 0, .ackTimeout 0 1 4096 0 0, .ackTimeout 8 1 0 0 0, .retryAttemptTimeout 3 3 0, .retryWindowExpiry 0 8, .laneRetire 0 1 ⟨5, true, 0, 0⟩,
      .laneRetire 1 1 ⟨0, true, 0, 0⟩, .linkRecalibration 2 2, .timeRsp 8 ⟨0, 0⟩ ⟨0, 0⟩ 0, .quietSlotStart [(8, 0)], .timeExchangeLoss 8 0, .coreHeartbeatMiss 0 18 0, .coreReplacement 8 0,
      .chipHeartbeatMiss 8 0, .fatalReport 8 0, .regulatorFault 8 0, .backgroundTaskDue 7 0 0 [] [] 0, .backgroundTaskDue 0 8 0 [] [] 0,
      .backgroundTaskDue 0 0 0 [.hbmCe 8] [] 0, .backgroundTaskDue 4 0 0 [] [⟨8, true, true, [], [], []⟩] 0, .boundedSlot 8 0, .mirrorBuildComplete 65536,
      .modelRelayComplete 256, .trayCounterAlignment [8]].all fun i => !i.wf) = true ∧
    ([Instr.cqCoalesceDelay 255 0, .flitReceive 7 0 (List.replicate 256 0#8) 0, .nackReceive 0 7 4095 0, .ackTimeout 7 6 4095 0 0, .laneRetire 0 1 ⟨4, false, 1, 0⟩, .quietSlotStart [(7, 0)],
      .backgroundTaskDue 6 7 0 [] [] 0, .boundedSlot 7 0, .mirrorBuildComplete 65535, .modelRelayComplete 255,
      .trayCounterAlignment [7]].all Instr.wf) = true := by decide +kernel

/-- Thresholds of heat and input (R440, R488, R435), idle states, host links, bridges, blobs. -/
theorem test_wf_power_and_management :
    ([Instr.thermalThrottle 0 94 0, .thermalThrottle 8 95 0, .throttleRelease 0 91, .throttleRelease 8 0, .coldPlateOvertemp 59, .coldPlateRelease 55,
      .inputHigh 59999 0, .pfEarly 38000 0, .pfEarly 63000 0, .inputReturn 39999 0, .inputReturn 63001 0, .idleEntry 0 0, .idleEntry 5 0,
      .inputCheck 39999, .inputCheck 60001, .hostLinkTrained 4 16 64, .hostLinkTrained 0 2 64, .hostLinkTrained 0 16 16, .hostLinkDown 4, .hostBridgeFailed 2 0,
      .configWrite [0#8]].all fun i => !i.wf) = true ∧
    ([Instr.thermalThrottle 7 95 0, .throttleRelease 7 90, .coldPlateOvertemp 60, .coldPlateRelease 54, .inputHigh 60000 0, .pfEarly 37999 0, .pfEarly 63001 0,
      .inputReturn 40000 0, .inputReturn 63000 0, .idleEntry 1 0, .idleEntry 4 0, .inputCheck 40000, .inputCheck 60000, .hostLinkTrained 3 4 32,
      .hostLinkTrained 0 16 64, .hostLinkDown 3, .hostBridgeFailed 1 0].all Instr.wf) = true := by decide

/-! ## States -/

/-- A trained x16 link. -/
def up : HostLink := ⟨true, 16, 64, 0#32, 0⟩

/-- READY, links 0 and 2 trained, every chip active, the Puffball charged, management served. -/
def srv : State :=
  { State.reset with
    boot := .serving
    regs := { Regs.reset with ready := true }
    links := [up, .down, up, .down]
    chips := (List.range 8).map fun c => { Chip.fresh c with active := true }
    homing := List.range 8
    power := { Power.reset with millivolts := 54000, mated := true, energy := 20000, powerReady := true }
    mgmt := { Mgmt.reset with cfg := List.replicate 26 0#8 ++ [3#8, 0#8, 0#8, 0#8, 0#8, 0#8, 1#8, 0#8, 0#8, 0#8], labelChanged := true } }

/-- 64 bytes of a packet, or a longer block: fields (offset, size, value) over zeros. -/
def block (n : Nat) (fields : List (Nat × Nat × Nat)) : List Byte :=
  fields.foldl (fun bs f => bs.take f.1 ++ leBytes f.2.1 f.2.2 ++ bs.drop (f.1 + f.2.1)) (List.replicate n 0#8)

/-- A command of ring 0 with its packet's fields. -/
def cmd (id : Nat) (ph : Phase) (fields : List (Nat × Nat × Nat)) : Cmd :=
  ⟨id, 0, 0, 0, 0, block 64 fields, 10, 20, ph, 0, 0, 0, false, 0#32, [], [], none, 0, [], false, [],
    decide (ph ≠ .held), none, 0, 0⟩

/-- Host memory with a block at an address. -/
def withBlock (s : State) (a : Nat) (bs : List Byte) : State := { s with host := memStore s.host a bs }

/-- One started command. -/
def run (fields : List (Nat × Nat × Nat)) : State := { srv with cmds := [cmd 0 .started fields] }

/-- One started command with its parameter block at 0x1000. -/
def runWith (op : Nat) (fields : List (Nat × Nat × Nat)) (b : List Byte) : State :=
  withBlock (run ([(0, 1, op), (0x10, 8, 0x1000), (0x18, 4, b.length)] ++ fields)) 0x1000 b

/-- Ring 0 with both halves enabled, its SQ naming its own CQ, 4 records in the CQ. -/
def ringed : State := setRing srv 0 { Ring.reset with ctrl := 3#32, written := 4, cqTail := 4 }

/-- Ring 1 with its CQ enabled. -/
def cqOnly : State := setRing srv 1 { Ring.reset with ctrl := 2#32 }

/-- VF 15 enabled with ring 7, or disabled. -/
def withVf (b : Bool) : State :=
  { srv with vfs := modNth srv.vfs 15 fun v => { v with rings := 0x107#32, vectors := 512#32, enabled := b } }

/-! ## Witnesses: the machine, rings, registers, functions -/

/-- Of IdleStepAdvancesCounter and StepKeepsInvariants. -/
theorem test_met_idle_and_invariants :
    (State.reset.pending = [] ∧ State.reset.boot = .off) ∧ (srv.pending = [] ∧ srv.boot ≠ .off ∧ srv.tasks = []) ∧
    (Inv (withBlock srv 0x40 [1#8]) = true ∧ ∃ t, step (withBlock srv 0x40 [1#8]) = .next t) ∧
    (Inv { srv with regs := { srv.regs with modeCtrl := 3#32 } } = true) :=
  ⟨by decide, by decide, ⟨by decide, _, rfl⟩, by decide⟩

/-- Of ResetRegisterValues, at the last link, ring, VF and model (Tables CMD-9, CMD-16, CMD-18). -/
theorem test_met_reset_values :
    readRegister State.reset 0 3 (0x10000 + 64 * 255 + 0x10) = 0x00000808#32 ∧
    readRegister State.reset 0 3 (0x300000 + 32 * 15 + 0x10) = 0#32 ∧ readRegister State.reset 0 3 (0x1000 + 4 * 255) = 0#32 ∧
    readRegister State.reset 0 3 0x2C = 300#32 := by decide

/-- Of SqTailDoorbellStoresTail (255 of 256 entries), CqHeadDoorbellReleasesSlots (all 4 slots) and the four clauses of
DoorbellRangeErrors (256; a fifth slot). -/
theorem test_met_doorbells :
    (ringed.regs.ready = true ∧ linkUp ringed 0 = true ∧ trayRing ringed 0 0 = some 0 ∧ sqEnabled (ringOf ringed 0) = true ∧
      cqEnabled (ringOf ringed 0) = true ∧ sqEntries (ringOf ringed 0) = 256 ∧ cqEntries (ringOf ringed 0) = 256) ∧
    bits (255#32).toNat 15 0 < 256 ∧ bits (4#32).toNat 15 0 < 256 ∧ (4 + 256 - (ringOf ringed 0).cqHead) % 256 ≤ (ringOf ringed 0).written ∧
    256 ≤ bits (256#32).toNat 15 0 ∧ (ringOf ringed 0).written < (bits (5#32).toNat 15 0 + 256 - (ringOf ringed 0).cqHead) % 256 ∧
    (trayRing srv 0 255 = some 255 ∧ sqEnabled (ringOf srv 255) = false ∧ cqEnabled (ringOf srv 255) = false) := by decide

/-- Of RingEnableRestartsHalf: a CQ of 256 that nothing names; an SQ of 256 that names a CQ of 256; both, the SQ naming its own CQ. -/
theorem test_met_ring_enable :
    (cqOnly.regs.ready = true ∧ trayRing cqOnly 0 0 = some 0 ∧ sqEnabled (ringOf cqOnly 0) = false ∧ cqEnabled (ringOf cqOnly 0) = false) ∧
    ((2#32).getLsbD 1 = true ∧ (2#32).getLsbD 0 = false ∧ sizeOk (bits (ringOf cqOnly 0).size.toNat 12 8) = true ∧
      targeting (setRing cqOnly 0 { ringOf cqOnly 0 with ctrl := 2#32 &&& 0x31FFC#32 }) 0 ≤ cqEntries (ringOf cqOnly 0)) ∧
    ((0x11#32).getLsbD 0 = true ∧ (0x11#32).getLsbD 1 = false ∧ sizeOk (bits (ringOf cqOnly 0).size.toNat 4 0) = true ∧
      trayRing cqOnly (ringFn cqOnly 0) (bits (0x11#32).toNat 11 4) = some 1 ∧ cqEnabled (ringOf cqOnly 1) = true ∧
      targeting (setRing cqOnly 0 { ringOf cqOnly 0 with ctrl := 0x11#32 &&& 0x31FFC#32 }) 1 + sqEntries (ringOf cqOnly 0) ≤
        cqEntries (ringOf cqOnly 1)) ∧
    ((3#32).getLsbD 0 = true ∧ (3#32).getLsbD 1 = true ∧ trayRing cqOnly (ringFn cqOnly 0) (bits (3#32).toNat 11 4) = some 0 ∧
      targeting (setRing cqOnly 0 { ringOf cqOnly 0 with ctrl := 3#32 &&& 0x31FFC#32 }) 0 + sqEntries (ringOf cqOnly 0) ≤
        cqEntries (ringOf cqOnly 0)) := by decide

/-- Of EnabledRingTakesOnlyClears: a write, an SQ cleared, a CQ cleared that nothing names, one that an SQ or a command names;
of DisabledRingStoresRegisters. -/
theorem test_met_ring_clears :
    (sqEnabled (ringOf ringed 0) = true ∧ (2#32).getLsbD 0 = false ∧ (2#32).getLsbD 1 = true ∧ (3#32).getLsbD 0 = true ∧ (3#32).getLsbD 1 = true) ∧
    (cqOnly.regs.ready = true ∧ trayRing cqOnly 0 1 = some 1 ∧ cqEnabled (ringOf cqOnly 1) = true ∧ (0#32).getLsbD 1 = false ∧
      sqEnabled (ringOf cqOnly 1) = false ∧ (cqOnly.rings.any fun p => sqEnabled p.2 && targetOf cqOnly p.1 == some 1) = false ∧
      ∀ c ∈ cqOnly.cmds, c.cq ≠ 1) ∧
    (let s := setRing cqOnly 0 { Ring.reset with ctrl := 0x11#32 }
     sqEnabled (ringOf s 1) = false ∧ cqEnabled (ringOf s 1) = true ∧
       (s.rings.any fun p => sqEnabled p.2 && targetOf s p.1 == some 1) = true) ∧
    (∃ c ∈ [cmd 0 .held [(0, 1, 1)]], c.cq = 0) ∧
    (srv.regs.ready = true ∧ linkUp srv 2 = true ∧ trayRing srv 0 255 = some 255 ∧ sqEnabled (ringOf srv 255) = false ∧
      cqEnabled (ringOf srv 255) = false) := by decide

/-- Of ErrorAndCauseBitsClear and StatusRegisterWrites, and of EffectfulReadsAnswer: a trained link and one that is not, READY
and before step 6. -/
theorem test_met_registers :
    (srv.regs.ready = true ∧ trayRing srv 0 0 = some 0 ∧ (2#32).getLsbD 1 = true ∧ (1#32).getLsbD 1 = false) ∧ linkUp srv 0 = true ∧
    (3 < srv.links.length ∧ linkUp srv 2 = true ∧ linkUp srv 3 = false ∧ srv.boot = .serving ∧
      { srv with boot := .alignment }.boot = .alignment) := by decide

/-- EVENT_CAUSE clears where it is written 1 and stays where it is written 0 (Table CMD-16). -/
theorem test_event_cause_clears :
    (match exec (.eventCauseClear 0x200#32) { srv with regs := { srv.regs with eventCause := 0x201#32 } } with
      | .next t => t.regs.eventCause == 1#32
      | _ => false) = true := by decide

/-- Of VirtualFunctionsAndTheirOwner (VF 15; no owner, another, itself) and FunctionResetDropsCommands (the PF, VF 15). -/
theorem test_met_functions :
    (srv.regs.ready = true ∧ srv.vfs.length = 16 ∧ (vfOf (withVf false) 15).enabled = false ∧ (vfOf (withVf true) 15).enabled = true ∧
      vfOk (withVf false) 15 = true ∧
      vfOk { srv with vfs := modNth srv.vfs 15 fun v => { v with rings := 0x107#32, vectors := 513#32 } } 15 = false) ∧
    (linkUp srv 0 = true ∧ srv.regs.sriovOwner = none ∧ { srv.regs with sriovOwner := some 2 }.sriovOwner = some 2 ∧ (2 : Nat) ≠ 0 ∧
      { srv.regs with sriovOwner := some 0 }.sriovOwner = some 0) ∧
    ((0 : Nat) = 0 ∨ (vfOf srv 0).enabled = true) ∧ ((16 : Nat) = 0 ∨ (vfOf (withVf true) (16 - 1)).enabled = true) := by decide

/-- VF 15 with 1 ring and 512 vectors enables beside nothing; ring 7 is then its ring 0 (R306). -/
theorem test_vf_enable :
    (match exec (.vfEnable 15) (withVf false) with
      | .next t => (vfOf t 15).enabled && trayRing t 16 0 == some 7 && trayRing t 0 7 == none
      | _ => false) = true := by decide

/-- Of Bar2WriteStoresEnabledBytes: the last two bytes of the window of VF 0. -/
theorem test_met_bar2 : memoriesWf srv = true ∧ linkUp srv 0 = true ∧ (2 ^ 32 - 2) + [none, some 5#8].length ≤ bar2Size 1 := by decide

/-- The last byte of VF 1's window lies at PF offset 8 GiB - 1, in both bridges (R500, R501). -/
theorem test_bar2_last_byte :
    (match exec (.bar2Write 2 0 (2 ^ 32 - 1) [some 5#8]) srv with
      | .next t => t.bridges.all fun b => memByte b.ingress (2 ^ 33 - 1) == 5#8
      | _ => false) = true := by decide

/-! ## Witnesses: the dispatcher -/

/-- Ring 0 offers one packet at its SQ base, address 0. -/
def offered (fields : List (Nat × Nat × Nat)) : State :=
  withBlock (setRing srv 0 { Ring.reset with ctrl := 3#32, sqTail := 1 }) 0 (block 64 fields)

/-- What acceptance on tick 5 finds in the packet offered. -/
def verdict (fields : List (Nat × Nat × Nat)) : Nat × Nat :=
  validate (stamp (offered fields) 5) ⟨0, 0, hostBytes (offered fields) 0 64, 0#32⟩

/-- Of AcceptedEntryBecomesCommand: not accepting; a NOP that validates, one with a reserved opcode, one whose DEADLINE has passed
under ABORT_ON_LATE, one that cannot be read, an ABORT. -/
theorem test_met_accept :
    accepting State.reset = false ∧
    (accepting (offered [(0, 1, 1)]) = true ∧ pickRing (stamp (offered [(0, 1, 1)]) 5) = some (0, 0, false) ∧
      hostOk (offered [(0, 1, 1)]) (sqBase (ringOf (offered [(0, 1, 1)]) 0) + 64 * 0) 64 = true ∧ (verdict [(0, 1, 1)]).1 = 0) ∧
    ((verdict [(0, 1, 0xFF)]).1 = 0x21) ∧
    ((verdict [(0, 1, 1), (1, 1, 1), (8, 8, 5)]).1 = 0 ∧ pktAbortOnLate (cmd 0 .held [(0, 1, 1), (1, 1, 1), (8, 8, 5)]) = true ∧
      pktDeadline (cmd 0 .held [(0, 1, 1), (1, 1, 1), (8, 8, 5)]) = 5) ∧
    (let s := { offered [(0, 1, 1)] with hostBad := [(63, 1)] }
     pickRing (stamp s 5) = some (0, 0, false) ∧ hostOk s (sqBase (ringOf s 0) + 64 * 0) 64 = false) ∧
    pickRing (stamp (offered [(0, 1, 0x7F)]) 5) = some (0, 0, true) := by decide

/-- A reserved opcode is BAD_OPCODE, a nonzero reserved field BAD_PARAM (R13, R14). -/
theorem test_accept_verdicts : (verdict [(0, 1, 0xFF)]).1 = 0x21 ∧ (verdict [(0, 1, 1), (0x3F, 1, 1)]).1 = 0x20 := by decide

/-- One command held alone. -/
def held (fields : List (Nat × Nat × Nat)) : State := { srv with cmds := [cmd 0 .held fields] }

/-- A LOAD_MODEL held, its descriptor at 0x1000: FP32, 64 columns, `rows` rows. -/
def loading (ph : Phase) (rows : Nat) : State :=
  withBlock { srv with cmds := [cmd 0 ph [(0, 1, 0x10), (0x10, 8, 0x1000), (0x18, 4, 128)]] } 0x1000 (block 128 [(4, 4, 64), (8, 4, rows), (0x18, 8, 0x2000)])

/-- Of HeldCommandStarts: a NOP alone; LOAD_MODEL that fits, and with 64 models held one that does not; a NOP behind a FENCE, a
LAUNCH_AT, a BARRIER, a SET_MODE; a SET_MODE behind a NOP; a step with two in flight, the older first or second, one that waits for
the older, one that shares a stream; a CLOSE_STREAM of a stream in flight; a DEADLINE that has come. -/
theorem test_met_start :
    (cmdOf (held [(0, 1, 1)]) 0 = some (cmd 0 .held [(0, 1, 1)]) ∧ (held [(0, 1, 1)]).regs.ready = true ∧
      mayStart (held [(0, 1, 1)]) (cmd 0 .held [(0, 1, 1)]) = true) ∧
    (mayStart (loading .held 1) (cmd 0 .held [(0, 1, 0x10), (0x10, 8, 0x1000), (0x18, 4, 128)]) = true ∧
      (reserveLoad (loading .held 1) (hostBytes (loading .held 1) 0x1000 128) 0).isSome = true) ∧
    (let m : Model := ⟨block 128 [(4, 4, 64), (8, 4, 1)], 2, 0, [], none, none, [], [], [], 0, [], none⟩
     let s := { loading .held 1 with models := (List.range 64).map fun i => (i + 1, m) }
     mayStart s (cmd 0 .held [(0, 1, 0x10), (0x10, 8, 0x1000), (0x18, 4, 128)]) = true ∧
       reserveLoad s (hostBytes s 0x1000 128) 0 = none) ∧
    ([0x02, 0x73, 0x72, 0x70].all fun op =>
      !mayStart { srv with cmds := [cmd 0 .started [(0, 1, op)], cmd 1 .held [(0, 1, 1)]] } (cmd 1 .held [(0, 1, 1)])) = true ∧
    mayStart { srv with cmds := [cmd 0 .started [(0, 1, 1)], cmd 1 .held [(0, 1, 0x70)]] } (cmd 1 .held [(0, 1, 0x70)]) = false ∧
    (let c := cmd 2 .held [(0, 1, 0x31)]
     let a := cmd 0 .started [(0, 1, 0x31)]
     let b := cmd 1 .started [(0, 1, 0x31)]
     let s := { srv with cmds := [a, b, c] }
     isStepOp (pktOp c) = true ∧ 2 ≤ (s.cmds.filter fun d => isStepOp (pktOp d) && d.began && d.phase != .held).length ∧
       stepsFlying s = [a, b] ∧ a.start ≤ b.start ∧ stepsFlying { s with cmds := [a, { b with start := 19 }] } = [a, { b with start := 19 }] ∧
       ({ c with behind := some 0 }.behind = some 0 ∧ ∃ d ∈ s.cmds, d.id = 0) ∧
       mayStart { srv with cmds := [a, c] } c = true ∧ stepsInFlight { srv with cmds := [a] } < 2) ∧
    (let d := { cmd 0 .started [(0, 1, 0x31)] with ctxs := [(7, Stream.closed)] }
     let c := cmd 1 .held [(0, 1, 0x21), (0x20, 2, 7)]
     isStepOp (pktOp d) = true ∧ d.began = true ∧ d.phase ≠ .held ∧ holdsForStep (pktOp c) = true ∧
       ∃ p ∈ d.ctxs, p.1 ∈ cmdStreams { srv with cmds := [d, c] } c) ∧
    (let c := cmd 0 .held [(0, 1, 1), (1, 1, 1), (8, 8, 50)]
     c.phase = .held ∧ canAbort c = true ∧ pktAbortOnLate c = true ∧ pktDeadline c ≠ 0 ∧ pktDeadline c ≤ max srv.now 50) ∧
    (let d := { cmd 0 .started [(0, 1, 0x31)] with ctxs := [(7, Stream.closed)] }
     let c := { cmd 1 .held [(0, 1, 0x31)] with ctxs := [(7, Stream.closed)] }
     d.id < c.id ∧ isStepOp (pktOp d) = true ∧ isStepOp (pktOp c) = true ∧ ∃ p ∈ c.ctxs, ∃ q ∈ d.ctxs, p.1 = q.1) := by decide +kernel

/-- One executed command with staged effects. -/
def executed (ks : List Commit) : State := { srv with cmds := [{ cmd 0 .executed [(0, 1, 1), (4, 4, 7)] with commits := ks }] }

/-- An open stream with a valid history. -/
def opened : Machine.Stream := { Machine.Stream.closed with isOpen := true, histValid := true, hist := [11, 12], histHead := 2 }

/-- With stream 65,535 open. -/
def withStream (s : State) : State := { s with streams := [(65535, opened)] }

/-- Of CompletionRecordWritten and RecordAppliesStagedEffect: a command whose record is due, with nothing staged and with each
kind of effect that the statement names. -/
theorem test_met_record :
    (memoriesWf (executed []) = true ∧ recordDue (executed []) 0 { cmd 0 .executed [(0, 1, 1), (4, 4, 7)] with commits := [] } 20) ∧
    (∀ k ∈ [Commit.openStream 65535 opened, .mode 3#32 2#32 (some 200), .wake 900#32, .priority 1 15, .unloadModel 1, .mask 4095 (some ⟨8, 255⟩),
        .function 3 [1#8]],
      recordDue (executed [k]) 0 { cmd 0 .executed [(0, 1, 1), (4, 4, 7)] with commits := [k] } 20) ∧
    (∀ k ∈ [Commit.step 65535 0 [13] 1 none, .closeStream 65535, .history 65535 0 [1, 2]],
      recordDue (withStream (executed [k])) 0 { cmd 0 .executed [(0, 1, 1), (4, 4, 7)] with commits := [k] } 20) ∧
    ((streamOf (withStream srv) 65535).isOpen = true ∧ (streamOf (withStream srv) 65535).histValid = true ∧
      (streamOf (withStream srv) 65535).hist.length + [13].length ≤ 4096) := by
  unfold Machine.recordDue
  decide

/-- The record's bytes: TAG 7, STATUS 0, PHASE 1 (Table CMD-6). -/
theorem test_record_bytes :
    (match exec (.completionRecordWrite 0 20) (setRing (executed []) 0 { Ring.reset with ctrl := 2#32 }) with
      | .next t => hostBytes t 0 10 == [7#8, 0#8, 0#8, 0#8, 0#8, 0#8, 0#8, 0#8, 0#8, 1#8] && t.cmds.isEmpty && (ringOf t 0).cqTail == 1
      | _ => false) = true := by decide

/-- A ring with coalescing: its oldest record on tick 100, DELAY µs. -/
def coalescing (delay : Nat) : State :=
  setRing srv 0 { Ring.reset with ctrl := 0x1002#32, vector := 5#32, coalesce := BitVec.ofNat 32 (65536 * delay), oldest := some 100 }

/-- Of CoalescedInterruptGoesOut: DELAY 1 µs is 1,600 ticks: on tick 1,700, and on 1,699; vector 5 masked as at reset, and not. -/
theorem test_met_coalesce :
    ((ringOf (coalescing 1) 0).oldest = some 100 ∧ ringIrq (ringOf (coalescing 1) 0) = true ∧
      bits (ringOf (coalescing 1) 0).coalesce.toNat 31 16 = 1 ∧ 100 + ticksUs (coalescing 1) 1 ≤ max (coalescing 1).now 1700 ∧
      max (coalescing 1).now 1699 < 100 + ticksUs (coalescing 1) 1) ∧
    bits (ringOf (coalescing 0) 0).coalesce.toNat 31 16 = 0 ∧
    msixMasked (coalescing 1) (ringFn (coalescing 1) 0) 5 = true ∧
    (let s := { coalescing 1 with regs := { (coalescing 1).regs with msixTable := [(16 * 5 + 12, 1#8)] } }
     msixMasked s (ringFn s 0) 5 = false) := by decide

/-- Of DeadlineAndWatchdogEndCommands: a held and a started command, one that R301 lets run, one without ABORT_ON_LATE; a watched
TOPK at its budget and one tick before. -/
theorem test_met_deadline :
    (let c := cmd 0 .started [(0, 1, 0x31), (1, 1, 1), (8, 8, 50)]
     cmdOf { srv with cmds := [c] } 0 = some c ∧ isFailure c.status = false ∧ pktAbortOnLate c = true ∧ pktDeadline c ≠ 0 ∧
       onlyHeldAbort (pktOp c) = false) ∧
    (let c := cmd 0 .started [(0, 1, 0x20), (1, 1, 1), (8, 8, 50)]
     c.began = true ∧ onlyHeldAbort (pktOp c) = true ∧ (cmd 0 .held [(0, 1, 0x20)]).began = false) ∧
    pktAbortOnLate (cmd 0 .started [(0, 1, 1)]) = false ∧
    (let c := cmd 0 .started [(0, 1, 0x31)]
     let s := { srv with cmds := [c] }
     watched (pktOp c) = true ∧ c.phase ≠ .held ∧ s.loss = .none ∧
       c.start + watchdogBudget s c + skipTicks (stamp s (20 + watchdogBudget s c)) c ≤ max s.now (20 + watchdogBudget s c) ∧
       max s.now (19 + watchdogBudget s c) < c.start + watchdogBudget s c + skipTicks (stamp s (19 + watchdogBudget s c)) c ∧
       (7 < s.chips.length ∧ 17 < (chipOf s 7).cores.length)) := by decide

/-! ## Witnesses: ordering and mode commands, streams, models -/

/-- Of NopFenceAndWakeToleranceRun: a FENCE of a ring alone, and behind a command of its ring, and of its function. -/
theorem test_met_nop_fence :
    (startedCmd (run [(0, 1, 0x01)]) 0 0x01 = some (cmd 0 .started [(0, 1, 0x01)])) ∧
    (startedCmd (run [(0, 1, 0x71), (0x20, 4, 900)]) 0 0x71 = some (cmd 0 .started [(0, 1, 0x71), (0x20, 4, 900)])) ∧
    (let c := cmd 1 .started [(0, 1, 0x02)]
     startedCmd { srv with cmds := [c] } 1 0x02 = some c ∧
       (∀ d ∈ [c], d.id < c.id → ¬ (if pkt c 0x20 1 = 0 then d.ring = c.ring else d.fn = c.fn)) ∧
       ∃ d ∈ [cmd 0 .executed [(0, 1, 1)], c], d.id < c.id ∧ (if pkt c 0x20 1 = 0 then d.ring = c.ring else d.fn = c.fn)) ∧
    (let c := cmd 1 .started [(0, 1, 0x02), (0x20, 1, 1)]
     ∃ d ∈ [{ cmd 0 .executed [(0, 1, 1)] with ring := 9 }, c],
       d.id < c.id ∧ (if pkt c 0x20 1 = 0 then d.ring = c.ring else d.fn = c.fn)) := by decide

/-- A model held: 64 columns of FP32, one row, resident on every chip. -/
def model : Model :=
  ⟨block 128 [(4, 4, 64), (8, 4, 1)], 2, 0, [List.replicate 256 0#8], none, none, [], [], (List.range 8).map fun c => [c], 1, [], none⟩

/-- Of SetModeChangesSelectedBits: SET_MODE behind a command; one that sets DETERMINISTIC, one that sets LOCKSTEP over a model, one
that leaves STRICT with FLUSH ON, LOCKSTEP without FIXED order, and a code 3 that one bit completes. -/
theorem test_met_set_mode :
    (let c := cmd 1 .held [(0, 1, 0x70)]
     modeWf srv = true ∧ pktOp c = 0x70 ∧ ∃ d ∈ [cmd 0 .held [(0, 1, 1)]], d.id < c.id) ∧
    (let c := cmd 0 .started [(0, 1, 0x70), (0x20, 4, 1), (0x24, 4, 1)]
     startedCmd { srv with cmds := [c] } 0 0x70 = some c ∧ recordReady { srv with cmds := [c] } c ∧ srv.models = [] ∧
       modeLock (newMode 0#32 1#32 1#32) = false ∧ ¬ (modeNum (newMode 0#32 1#32 1#32) = 1 ∧ modeFlush (newMode 0#32 1#32 1#32) = 2)) ∧
    (let s := { srv with models := [(0, model)] }
     modeLock (newMode s.regs.modeCtrl 6#32 6#32) ≠ modeLock s.regs.modeCtrl ∧ s.models ≠ []) ∧
    (modeNum (newMode 0#32 0x70#32 0x50#32) = 1 ∧ modeFlush (newMode 0#32 0x70#32 0x50#32) = 2) ∧
    (let v := newMode 0#32 1#32 1#32
     ¬ (modeLock v = true ∧ v.getLsbD 1 = false) ∧ modeFlush v ≠ 3 ∧ modeNz v ≠ 3 ∧ modeProfile v ≠ 3) ∧
    (modeLock (newMode 0#32 6#32 4#32) = true ∧ (newMode 0#32 6#32 4#32).getLsbD 1 = false) ∧
    (modeFlush (newMode 0x20#32 0x40#32 0x40#32) = 3 ∧ modeNz (newMode 0x80#32 0x100#32 0x100#32) = 3 ∧
      modeProfile (newMode 0x400#32 0x800#32 0x800#32) = 3) := by
  unfold Machine.recordReady
  decide

/-- The eight chips' arrivals, chip c on tick 100 + c. -/
def arrivals : List (Nat × Tick) := (List.range 8).map fun c => (c, 100 + c)

/-- Of BarrierReleasesOnOneTick: started; the first arrival and the last; released. -/
theorem test_met_barrier :
    (let s := run [(0, 1, 0x72)]
     startedCmd s 0 0x72 = some (cmd 0 .started [(0, 1, 0x72)]) ∧ s.barrierSt = none) ∧
    (let s := { run [(0, 1, 0x72)] with barrierSt := some ⟨0, [], none⟩ }
     s.barrierSt = some ⟨0, [], none⟩ ∧ (chipOf s 7).active = true ∧ (∀ d ∈ s.cmds, d.id < 0 → d.phase = .executed) ∧
       ∃ c, c < 8 ∧ (chipOf s c).active = true ∧ ∀ a ∈ ([] ++ [(7, 100)] : List (Nat × Tick)), a.1 ≠ c) ∧
    (let s := { run [(0, 1, 0x72)] with barrierSt := some ⟨0, arrivals.take 7, none⟩ }
     (∀ a ∈ arrivals.take 7, a.1 ≠ 7) ∧ ∀ c, c < 8 → (chipOf s c).active = true → ∃ a ∈ arrivals.take 7 ++ [(7, 107)], a.1 = c) ∧
    (let s := { run [(0, 1, 0x72)] with barrierSt := some ⟨0, arrivals, some 2155⟩ }
     startedCmd s 0 0x72 = some (cmd 0 .started [(0, 1, 0x72)]) ∧ ∀ d ∈ s.cmds, ¬ d.id < 0) := by
  refine ⟨by decide, ⟨by decide, by decide, by decide, 0, by decide⟩, by decide, by decide⟩

/-- The release tick is the largest arrival stamp plus 2,048 (R365). -/
theorem test_barrier_release :
    (match exec (.barrierArrival 0 7 107) { run [(0, 1, 0x72)] with barrierSt := some ⟨0, arrivals.take 7, none⟩ } with
      | .next t => t.barrierSt == some ⟨0, arrivals, some 2155⟩
      | _ => false) = true := by decide

/-- Of LaunchFiresOnItsTick: before its tick 500, on it, alone in its ring and with a command behind it, which was accepted on tick
10 and is free for 4,800 ticks on tick 4,810 and not on tick 4,809 (R366). -/
theorem test_met_launch :
    (let c := cmd 0 .started [(0, 1, 0x73), (0x20, 8, 500)]
     let d := cmd 1 .held [(0, 1, 1)]
     startedCmd { srv with cmds := [c, d] } 0 0x73 = some c ∧ srv.now < pkt c 0x20 8 ∧ pkt c 0x20 8 ≤ { srv with now := 500 }.now ∧
       (∀ d ∈ [c], d.ring = c.ring → d.id ≤ c.id) ∧
       (([c, d].filter fun d => d.ring == c.ring).find? fun d => decide (c.id < d.id)) = some d ∧ landing srv 500 = 500 ∧
       max d.accept d.freed + ticksA srv 4800 ≤ max srv.now (landing srv 4810) ∧
       max srv.now (landing srv 4809) < max d.accept d.freed + ticksA srv 4800) := by decide

/-- An ABORT by tag 7 of ring 0, beside one command. -/
def aborting (d : Cmd) : State := { srv with cmds := [d, { cmd 1 .started [(0, 1, 0x7F), (0x24, 4, 7)] with accept := 30 }] }

/-- Of AbortEndsItsTargets: it ends a held command (outcome 0); a started OPEN_STREAM it cannot end (3); a command that failed, or
one in the history of tags (1); none (2). -/
theorem test_met_abort :
    (let a := { cmd 1 .started [(0, 1, 0x7F), (0x24, 4, 7)] with accept := 30 }
     let named (s : State) (d : Cmd) : Bool := d.fn == a.fn && pktOp d != 0x7F && decide (d.accept < a.accept) && abortReaches s a d.ring (pktTag d)
     let came (s : State) (d : Cmd) : Bool := boundaryCame s d a.accept
     let hit (s : State) := s.cmds.filter fun d =>
       named s d && (yieldsToAbort d.status && (!d.began || !onlyHeldAbort (pktOp d)) && !came s d)
     let ran := cmd 0 .held [(0, 1, 1), (4, 4, 7)]
     let opening := cmd 0 .started [(0, 1, 0x20), (4, 4, 7)]
     let failed := { cmd 0 .executed [(0, 1, 0x20), (4, 4, 7)] with status := 0x20 }
     let other := cmd 0 .held [(0, 1, 1), (4, 4, 8)]
     startedCmd (aborting ran) 1 0x7F = some a ∧ hit (aborting ran) ≠ [] ∧
       (hit (aborting opening) = [] ∧ ∃ d ∈ (aborting opening).cmds, named (aborting opening) d = true ∧ isFailure d.status = false ∧
         came (aborting opening) d = false) ∧
       (hit (aborting failed) = [] ∧ (∀ d ∈ (aborting failed).cmds, named (aborting failed) d = true →
         isFailure d.status = true ∨ came (aborting failed) d = true) ∧
         ∃ d ∈ (aborting failed).cmds, named (aborting failed) d = true) ∧
       (∃ p ∈ [(0, 7)], abortReaches (aborting other) a p.1 p.2 = true) ∧
       (hit (aborting other) = [] ∧ (∀ d ∈ (aborting other).cmds, named (aborting other) d = false) ∧
         ∀ p ∈ (aborting other).done, abortReaches (aborting other) a p.1 p.2 = false)) := by decide

/-- With a started command that names stream 65,535 and a parameter block of 128 bytes. -/
def onStream (op : Nat) (fields : List (Nat × Nat × Nat)) (b : List Byte) : State := runWith op ([(0x20, 2, 65535)] ++ fields) b

/-- The command of `onStream` and `runWith`. -/
def opCmd (op : Nat) (fields : List (Nat × Nat × Nat)) (n : Nat) : Cmd :=
  cmd 0 .started ([(0, 1, op), (0x10, 8, 0x1000), (0x18, 4, n)] ++ fields)

/-- Of OpenAndSetParamsStageContext: OPEN_STREAM of a closed stream and of an open one; SET_STREAM_PARAMS of every field the statement
names, on an open stream. -/
theorem test_met_open :
    (let s := onStream 0x20 [] (block 128 [(0x1A, 2, 64)])
     hostFine s = true ∧ startedCmd s 0 0x20 = some (opCmd 0x20 [(0x20, 2, 65535)] 128) ∧
       pkt (opCmd 0x20 [(0x20, 2, 65535)] 128) 0x20 2 = 65535 ∧ (streamOf s 65535).isOpen = false ∧
       (streamOf (withStream s) 65535).isOpen = true) ∧
    (let b := block 128 [(0x1A, 2, 64), (0x68, 4, 0x76B)]
     let s := withStream (onStream 0x22 [] b)
     startedCmd s 0 0x22 = some (opCmd 0x22 [(0x20, 2, 65535)] 128) ∧ hostBytes s 0x1000 128 = b ∧ modesCompat (fieldAt b 0x19 1) = false ∧
       bit (fieldAt b 0x68 4) 2 = false ∧ bit (fieldAt b 0x68 4) 4 = false ∧ bit (fieldAt b 0x68 4) 7 = false ∧
       ∀ p ∈ limitChecks (applyParams (streamOf s 65535) b (bit (fieldAt b 0x68 4)) 0#32 []) (bit (fieldAt b 0x68 4)), p.2 = true) := by
  decide +kernel

/-- Of CloseStreamClearsContext, on an open stream and a closed one, and RebuildAndRestoreStageHistory: REPLACE, APPEND on a valid
history and on one that is not; RESTORE_STREAM of zeros, which fails. -/
theorem test_met_close_rebuild :
    (let s := onStream 0x21 [] []
     let c := opCmd 0x21 [(0x20, 2, 65535)] 0
     startedCmd s 0 0x21 = some c ∧ recordReady s c ∧ pkt c 0x20 2 = 65535 ∧ (streamOf s 65535).isOpen = false ∧
       (streamOf (withStream s) 65535).isOpen = true) ∧
    (let s := withStream (onStream 0x23 [(0x22, 1, 1), (0x24, 4, 2)] (block 8 [(0, 4, 21), (4, 4, 22)]))
     let c := opCmd 0x23 [(0x20, 2, 65535), (0x22, 1, 1), (0x24, 4, 2)] 8
     hostFine s = true ∧ startedCmd s 0 0x23 = some c ∧ (streamOf s 65535).isOpen = true ∧ pkt c 0x22 1 = 1 ∧
       (streamOf s 65535).histValid = true ∧ { opened with histValid := false }.histValid = false ∧
       pkt (opCmd 0x23 [(0x20, 2, 65535)] 8) 0x22 1 ≠ 1) ∧
    (let s := onStream 0x25 [] (block 64 [])
     startedCmd s 0 0x25 = some (opCmd 0x25 [(0x20, 2, 65535)] 64) ∧ (streamOf s 65535).isOpen = false ∧
       ∃ p ∈ imageChecks (hostBytes s 0x1000 64), p.2 = false) := by
  unfold Machine.recordReady
  decide +kernel

/-- A stream whose parameters pass every check. -/
def sound : Machine.Stream := { opened with window := 64, topP := 0x3F800000#32, rep := 0x3F800000#32 }

/-- Its image. -/
def img : List Byte := imageBytes 65535 sound true

/-- A CRC stored behind what it covers is read back. -/
theorem crc_field (a r : List Byte) (n : Nat) (h : a.length = n) :
    fieldAt (a ++ leBytes 4 (crc32c a) ++ r) n 4 = crc32c ((a ++ leBytes 4 (crc32c a) ++ r).take n) := by
  subst h
  rw [List.append_assoc]
  have := fieldAt_right a (leBytes 4 (crc32c a) ++ r) 0 4
  rw [Nat.add_zero, fieldAt_leBytes] at this
  rw [this, List.take_left']
  · exact Nat.mod_eq_of_lt (crc32c_lt _)
  · rfl

/-- Of RebuildAndRestoreStageHistory and SavedImageRestoresContext: a stream in range, and an image that passes every check. -/
theorem test_met_restore :
    ((65535 < 65536) ∧ sound.isOpen = true ∧ sound.step < 2 ^ 48 ∧ sound.modes < 256 ∧ sound.window < 65536 ∧ sound.topK < 2 ^ 32 ∧
      sound.maskSpec < 2 ^ 64 ∧ sound.userTag < 2 ^ 64 ∧ sound.bias.length ≤ 256 ∧ (∀ p ∈ sound.bias, p.1 < 2 ^ 32) ∧
      sound.hist.length ≤ 4096 ∧ (∀ t ∈ sound.hist, t < 2 ^ 32) ∧ (∀ p ∈ paramChecks (ctxBytes 65535 sound) (fun _ => true), p.2 = true) ∧
      (∀ p ∈ limitChecks sound (fun _ => true), p.2 = true) ∧ biasBad sound.bias = none) ∧
    ∀ p ∈ imageChecks img, p.2 = true := by
  refine ⟨by decide, ?_⟩
  have k2 : fieldAt img 0x4A00 4 = crc32c (img.take 0x4A00) := crc_field _ _ _ (by decide +kernel)
  have k1 : fieldAt img 0x1FC 4 = crc32c (img.take 0x1FC) := by
    obtain ⟨r, hr⟩ : ∃ r, img = ctxBytes 65535 { sound with histHead := sound.hist.length % 4096 } ++ r :=
      ⟨_, by unfold img imageBytes; simp only [if_true, List.append_assoc]; rfl⟩
    rw [hr, ctxBytes_segs]
    exact crc_field _ _ _ (ctxSegs_length _ _)
  unfold imageChecks
  rw [k1, k2]
  simp only [beq_self_eq_true]
  decide +kernel

/-- Of SaveStreamWritesImage. -/
theorem test_met_save :
    (let s := withStream (run [(0, 1, 0x24), (0x10, 8, 0x1000), (0x20, 2, 65535), (0x22, 1, 1)])
     let c := cmd 0 .started [(0, 1, 0x24), (0x10, 8, 0x1000), (0x20, 2, 65535), (0x22, 1, 1)]
     memoriesWf s = true ∧ trainedLinks s ≠ [] ∧ startedCmd s 0 0x24 = some c ∧ (streamOf s (pkt c 0x20 2)).isOpen = true ∧
       (streamOf s (pkt c 0x20 2)).bias.length ≤ 256 ∧ (streamOf s (pkt c 0x20 2)).hist.length ≤ 4096) := by decide

/-- Of ModelCommandsStage: model 255 held, suspended, not held; LOAD_MODEL with its placement reserved, without biases and with. -/
theorem test_met_models :
    (let s (op : Nat) := { run [(0, 1, op), (0x1C, 1, 255)] with models := [(255, model)] }
     modelOf (s 0x11) (pkt (cmd 0 .started [(0, 1, 0x11), (0x1C, 1, 255)]) 0x1C 1) = some model ∧ model.state ≠ 4 ∧
       startedCmd (s 0x11) 0 0x11 = some (cmd 0 .started [(0, 1, 0x11), (0x1C, 1, 255)]) ∧
       startedCmd (s 0x12) 0 0x12 = some (cmd 0 .started [(0, 1, 0x12), (0x1C, 1, 255)]) ∧ { model with state := 4 }.state = 4 ∧
       modelOf { s 0x11 with models := [] } 255 = none) ∧
    (let s := loading .started 1
     let r := { cmd 0 .started [(0, 1, 0x10), (0x10, 8, 0x1000), (0x18, 4, 128)] with reserved := [2, 1, 2048] }
     hostFine s = true ∧ memoriesWf s = true ∧ startedCmd { s with cmds := [r] } 0 0x10 = some r ∧ r.reserved.length = 3 ∧
       dHasBias (hostBytes s 0x1000 128) = false ∧ dHasBias (block 128 [(0x15, 1, 1)]) = true ∧ model.state ≠ 3 ∧ { model with state := 3 }.state = 3) := by
  decide +kernel

/-- Of RingJumpMovesLanesAndStreams: lane 7 of every chip, with RESET; stream 65,535. -/
theorem test_met_ring_jump :
    (let b := block 32 [(1, 1, 1), (2, 1, 7), (0x10, 8, 5)]
     let s := runWith 0x47 [] b
     hostFine s = true ∧ startedCmd s 0 0x47 = some (opCmd 0x47 [] 32) ∧ recordReady s (opCmd 0x47 [] 32) ∧ hostBytes s 0x1000 32 = b ∧
       fieldAt b 0 1 = 0 ∧ 7 < (chipOf s 7).lanes.length ∧ 7 < s.chips.length) ∧
    (let b := block 32 [(0, 1, 1), (4, 2, 65535), (0x10, 8, 5)]
     let s := withStream (runWith 0x47 [] b)
     startedCmd s 0 0x47 = some (opCmd 0x47 [] 32) ∧ hostBytes s 0x1000 32 = b ∧ fieldAt b 0 1 ≠ 0 ∧
       (streamOf s (fieldAt b 4 2)).isOpen = true) := by
  unfold Machine.recordReady
  decide

/-- Of LoadMaskFunctionAndClearCounters: an entry freed, one that fits, one that does not with the bank at 134,217,728 bytes; every
scope; a LOAD_FUNCTION. -/
theorem test_met_loads :
    (let s (n : Nat) := runWith 0x51 [] (block 32 [(0, 2, 4095), (4, 4, n), (8, 8, 0x3000)])
     hostFine (s 0) = true ∧ startedCmd (s 0) 0 0x51 = some (opCmd 0x51 [] 32) ∧ fieldAt (hostBytes (s 0) 0x1000 32) 4 4 = 0 ∧
       (fieldAt (hostBytes (s 1) 0x1000 32) 4 4 ≠ 0 ∧
         maskBytes (s 1) (fieldAt (hostBytes (s 1) 0x1000 32) 0 2) + ceilDiv (fieldAt (hostBytes (s 1) 0x1000 32) 4 4) 8 ≤ 134217728) ∧
       134217728 < maskBytes { s 1 with masks := [(0, ⟨1073741824, 0⟩)] } 4095 + ceilDiv 1 8) ∧
    (let s := runWith 0x64 [] (block 16 [(0, 1, 31)])
     startedCmd s 0 0x64 = some (opCmd 0x64 [] 16) ∧ recordReady s (opCmd 0x64 [] 16)) ∧
    (let s := runWith 0x50 [] (block 64 [])
     startedCmd s 0 0x50 = some (opCmd 0x50 [] 64) ∧ memoriesWf s = true) := by
  unfold Machine.recordReady
  decide

/-- Of AuditReadsWriteTheirAreas: with CLEAR and without, a lost chip, a spare core; READ_COUNTERS; READ_DIGESTS of one pair. -/
theorem test_met_audit :
    (let s := runWith 0x62 [] (block 16 [(0, 8, 0x4000), (8, 1, 1)])
     hostFine s = true ∧ memoriesWf s = true ∧ startedCmd s 0 0x62 = some (opCmd 0x62 [] 16) ∧ bit (fieldAt (hostBytes s 0x1000 16) 8 1) 0 = true ∧
       bit (fieldAt (block 16 [(0, 8, 0x4000)]) 8 1) 0 = false ∧ (chipOf s 7).active = true ∧
       (nth (Core.fresh 17) (chipOf s 7).cores 17).role = .spare ∧ (nth (Core.fresh 15) (chipOf s 7).cores 15).role = .active) ∧
    (startedCmd (runWith 0x63 [] (block 32 [(0, 1, 31), (8, 8, 0x4000)])) 0 0x63 = some (opCmd 0x63 [] 32)) ∧
    (let s := runWith 0x61 [] (block 64 [(4, 4, 1), (0x10, 8, 0x3000), (0x20, 8, 0x4000)])
     startedCmd s 0 0x61 = some (opCmd 0x61 [] 64) ∧ fieldAt (hostBytes s 0x1000 64) 0 1 = 0 ∧ fieldAt (hostBytes s 0x1000 64) 4 4 = 1) := by
  decide

/-- A step command of one stream, 65,535, its results at 0x8000. -/
def stepping (op : Nat) : State :=
  withStream { runWith op [(2, 2, 1), (0x20, 8, 0x8000), (0x2C, 4, 1), (0x30, 8, 0xA000), (0x38, 4, 1)] (block 64 [(0, 2, 65535)]) with models := [(0, model)] }

/-- Its command. -/
def stepOf (op : Nat) : Cmd := opCmd op [(2, 2, 1), (0x20, 8, 0x8000), (0x2C, 4, 1), (0x30, 8, 0xA000), (0x38, 4, 1)] 64

/-- Of StepCommandsWriteAndStage: each of the five, the stream open, the model resident with no overhang or score rows given. -/
theorem test_met_steps :
    ∀ op ∈ [0x30, 0x31, 0x32, 0x33, 0x34],
      startedCmd (stepping op) 0 op = some (stepOf op) ∧ hostFine (stepping op) = true ∧ memoriesWf (stepping op) = true ∧
      pkt (stepOf op) 2 2 = 1 ∧ fieldAt (hostBytes (stepping op) (pktParam (stepOf op)) (pktParamLen (stepOf op))) 0 2 = 65535 ∧
      (streamOf (stepping op) 65535).isOpen = true ∧
      (∀ spec ∈ entrySpecs (stepping op) (stepOf op) (entryAt (hostBytes (stepping op) 0x1000 64) 0), banksHeld (stepping op) spec = true) ∧
      ((outAreas (stepping op) (stepOf op)).Pairwise fun p q => p.1 + p.2 ≤ q.1 ∨ q.1 + q.2 ≤ p.1) ∧ pkt (stepOf op) 0x2A 1 ≤ 4 ∧
      (takesScores ⟨0, 0, (stepOf op).packet, 0#32⟩ = true ∨
        modelOf (stepping op) (pktModel (stepOf op)) = some model ∧ model.state ≠ 4 ∧ overhangGranules model = []) := by decide

/-- The environment of the command of `stepping op`, and its entry. -/
def stepAt (op : Nat) : State × StepEnv × List Byte :=
  let s := withContexts (stepping op) [65535]
  (s, stepEnvOf s (stepOf op), entryAt (hostBytes (stepping op) 0x1000 64) 0)

/-- Of StepCommandsDrawTokens: the row of each of the five is one 0: a score row of STEP_SCORES, and the model's row of zeros; the counter
is not exhausted. -/
theorem test_met_draws :
    (∀ op ∈ [0x30, 0x31, 0x33, 0x34],
      (mainRow (stepAt op).1 (stepOf op) (stepAt op).2.1 0 (stepAt op).2.2).finals = [0#32]) ∧
    (fieldAt (hostBytes (stepping 0x32) 0x1000 64) 3 1 = 0 ∧
      (verifyRow (stepAt 0x32).1 (stepOf 0x32) (stepAt 0x32).2.1 0 (stepAt 0x32).2.2 0).finals = [0#32]) ∧
    isNan32 0#32 = false ∧ (0#32 : Word) ≠ ninf32 ∧
    (∀ op ∈ [0x30, 0x31, 0x32, 0x33, 0x34], (mapGet (streamOf (stepping op) 65535) (stepOf op).ctxs 65535).step + 1 < 2 ^ 48) := by
  refine ⟨?_, ⟨by decide +kernel, ?_⟩, by decide, by decide, by decide⟩
  · intro op h
    unfold mainRow
    rw [Laws.runRow_finals]
    revert op
    decide +kernel
  · unfold verifyRow
    rw [Laws.runRow_finals]
    decide +kernel

/-- A tensor operator on 2 rows of 4 FP32 elements: input at 0x3000, output at 0x8000 (row stride 64), counts at 0xA000. -/
def tensorBlock (fields : List (Nat × Nat × Nat)) : List Byte :=
  block 128 ([(0, 4, 2), (4, 4, 4), (0x10, 8, 0x3000), (0x18, 8, 64), (0x20, 8, 0x8000), (0x28, 8, 64), (0x30, 8, 0xA000)] ++ fields)

/-- Of TensorCommandsWriteRows: each operator runs; TOPK of 2 with its areas apart in FIXED order; THRESHOLD_COMPACT that keeps few
elements; CAST with no lane bound; RANDOM_FILL of U32 from Spore, and of FP32. -/
theorem test_met_tensor :
    (∀ op ∈ [0x40, 0x41, 0x42, 0x43, 0x44, 0x45, 0x46],
      let s := runWith op [] (tensorBlock [(0x40, 4, 2)])
      hostFine s = true ∧ memoriesWf s = true ∧ startedCmd s 0 op = some (opCmd op [] 128)) ∧
    (let s := { runWith 0x41 [] (tensorBlock [(0x40, 4, 2)]) with regs := { srv.regs with modeCtrl := 2#32 } }
     let c := { opCmd 0x41 [] 128 with modeCtrl := 2#32 }
     let e := tensorEnv s c (tensorBlock [(0x40, 4, 2)]) []
     outputsOverlap s c e = false ∧ ((outAreas s c).Pairwise fun p q => p.1 + p.2 ≤ q.1 ∨ q.1 + q.2 ≤ p.1) ∧ e.order = .fixed ∧
       1 < (parseHdr e.block).rows) ∧
    ((List.range (parseHdr (tensorBlock [])).len).length ≤ 65536) ∧
    fieldAt (tensorBlock []) 0x40 1 = 0 ∧ fieldAt (tensorBlock [(0x42, 1, 1)]) 0x42 1 = 1 ∧
    (parseHdr (tensorBlock [])).outFmt = 0 ∧ (parseHdr (tensorBlock [(0xA, 1, 6)])).outFmt = 6 := by decide +kernel

/-- Of ReplayDumpsAndCommitsNothing: a record of the window; score rows from the host; a model's row from the host. -/
theorem test_met_replay :
    (let r : AuditRec := ⟨3, ctxBytes 65535 opened, block 64 [(0, 2, 65535)], block 64 [(4, 4, 1)], block 160 [], [], List.replicate 64 0#8, false, none, [], none, 7⟩
     let s := { runWith 0x60 [] (block 64 [(0, 2, 65535), (8, 6, 3), (0x28, 8, 0x8000)]) with audited := [⟨65535, 7, [], 0, [r]⟩] }
     hostFine s = true ∧ memoriesWf s = true ∧ startedCmd s 0 0x60 = some (opCmd 0x60 [] 64) ∧ fieldAt (hostBytes s 0x1000 64) 2 1 = 0 ∧
       ∃ x, windowSrc s (fieldAt (hostBytes s 0x1000 64) 0 2) (fieldAt (hostBytes s 0x1000 64) 8 6) = some x ∧
         x.model = none ∧ x.fmt ≤ 4) ∧
    (let b := block 64 [(2, 1, 1), (4, 1, 1), (0x10, 8, 0x10000), (0x18, 8, 0x3000), (0x20, 4, 8), (0x28, 8, 0x8000)]
     let s := runWith 0x60 [] b
     startedCmd s 0 0x60 = some (opCmd 0x60 [] 64) ∧ hostBytes s 0x1000 64 = b ∧ fieldAt b 2 1 ≠ 0 ∧ fieldAt b 4 1 = 1) ∧
    (let b := block 64 [(2, 1, 1), (0x10, 8, 0x10000), (0x18, 8, 0x3000), (0x28, 8, 0x8000)]
     let s := { runWith 0x60 [] b with models := [(0, model)] }
     startedCmd s 0 0x60 = some (opCmd 0x60 [] 64) ∧ hostBytes s 0x1000 64 = b ∧ fieldAt b 2 1 ≠ 0 ∧ fieldAt b 4 1 ≠ 1 ∧
       modelOf s (pktModel (opCmd 0x60 [] 64)) = some model ∧ model.state ≠ 4 ∧ overhangGranules model = []) := by
  refine ⟨⟨by decide, by decide, by decide, by decide, _, rfl, by decide, by decide⟩, by decide, by decide⟩

/-! ## Witnesses: the fabric, faults and recovery, background work -/

/-- A direction of link 6-7 in a state. -/
def withDir (f : Dir → Dir) : State := setDir srv 7 6 f

/-- The body of a DATA flit with sequence number 0. -/
def flitBody : List Byte := block 248 [(0, 1, 1), (8, 1, 234)]

/-- A DATA flit 4,095 of command 3. -/
def dataFlit4095 : Flit := ⟨1, 7, 6, 4095, none, 0, false, 0, 3, []⟩

/-- Of LinkFlitsAndRetries: a flit from a lost chip, one whose CRC fails, one in order that passes; a NACK with no attempt running, with one
told of its failure and one not; an unacknowledged flit 4,095; an attempt 4,800 ticks old after 6 failures and after 7; a flit in the
clean run, the 255th and the 256th; RETRY at the end of its window. -/
theorem test_met_flits :
    (srv.mesh.length = 28 ∧ linkFailed srv 7 6 = false ∧ flitGood (block 256 [(0, 1, 1)]) = false ∧ (dirOf srv 7 6).retry = none ∧
      (chipOf srv 7).active = true ∧
      ¬ (srv.regs.ready = false ∨ (chipOf (setChip srv 7 fun c => { c with active := false }) 7).active = true) ∧
      (linkOf srv 7 6).counters ≠ []) ∧
    (flitGood (flitBody ++ leBytes 8 (crc64 flitBody)) = true ∧ fieldAt (flitBody ++ leBytes 8 (crc64 flitBody)) 0 1 = 1 ∧
      bits (fieldAt flitBody 2 2) 11 0 = ((dirOf srv 7 6).accepted + 1) % 4096 ∧
      bits (fieldAt flitBody 2 2) 11 0 ≠ ((dirOf (withDir fun d => { d with accepted := 0 }) 7 6).accepted + 1) % 4096) ∧
    (let s := withDir fun d => { d with unacked := [dataFlit4095] }
     (dirOf s 7 6).retry = none ∧ ∃ p ∈ (dirOf s 7 6).unacked, p.seq < 4096) ∧
    (∀ n ∈ [6, 7], ∀ told ∈ [true, false], let x : Retry := ⟨10, 100, [4095], n, none, told, 100⟩
      let s := withDir fun d => { d with unacked := [dataFlit4095], retry := some x }
      (dirOf s 7 6).retry = some x ∧ x.good = none ∧ x.told = told ∧ 100 + ticksA s 4800 ≤ max s.now 4900) ∧
    (∀ n ∈ [254, 255], let x : Retry := ⟨10, 100, [], 0, some n, false, 100⟩
      let s := withDir fun d => { d with retry := some x }
      (dirOf s 7 6).retry = some x ∧ (256 ≤ n + 1 ↔ n = 255) ∧ max s.now 4900 < 10 + ticksA s 320000) := by
  refine ⟨by set_option maxRecDepth 20000 in decide +kernel, ⟨?_, by decide +kernel, by decide, by decide⟩, by decide, by decide, by decide⟩
  set_option maxRecDepth 20000 in decide +kernel

/-- Of LanesAndTimeExchanges: lock lost, 64 and 65 symbol errors; an active lane and the spare retired, a lane retired already, a lane with
the spare used and with 2 lanes left; an exchange of the lead; a chip's at its edges: offset 64 and 65, round trip 1,600 and 1,601,
the fifteenth loss and the sixteenth, 4 ticks left and 5, the TMC restarting. -/
theorem test_met_lanes_time :
    (let d := dirOf srv 7 6
     linkFailed srv 7 6 = false ∧ 3 ∈ d.lanes ∧ d.spare = some 4 ∧ (4 : Nat) ≠ 3 ∧ 2 ≤ d.lanes.length ∧ (linkOf srv 7 6).recal % 4 < d.lanes.length ∧
       (∀ n, n = 64 ∨ n = 65 →
         (64 < ((((d.errors.filter fun (e : Nat × Tick × Nat) => decide (max srv.now 5 < e.2.1 + ticksA srv 1600000)) ++
           [(3, 5, n)]).filter fun (e : Nat × Tick × Nat) => e.1 == 3).map fun (e : Nat × Tick × Nat) => e.2.2).sum ↔ n = 65))) ∧
    (let d := dirOf (withDir fun d => { d with lanes := [0, 1, 2], spare := none }) 7 6
     2 ∈ d.lanes ∧ 3 ∉ d.lanes ∧ d.spare ≠ some 3 ∧ d.spare = none ∧ 2 ≤ (d.lanes.filter fun l => l != 2).length) ∧
    (let d := dirOf (withDir fun d => { d with lanes := [0, 1], spare := none }) 7 6
     1 ∈ d.lanes ∧ d.spare = none ∧ (d.lanes.filter fun l => l != 1).length < 2) ∧
    (7 < 8 ∧ srv.regs.lead < 8 ∧ 7 ≠ srv.regs.lead ∧ linkFailed srv srv.regs.lead 7 = false) ∧
    (7 < srv.chips.length ∧ (chipOf srv 7).active = true ∧
      (((1800 : Int) - 0) - ((1000 : Int) - 800) ≤ ticksA srv 1600 ∧ (ticksA srv 1600 : Int) < ((1801 : Int) - 0) - ((1000 : Int) - 800)) ∧
      ((((1064 : Int) - 0) + ((1064 : Int) - 2000)) / 2).natAbs ≤ ticksA srv 64 ∧
      ticksA srv 64 < ((((1065 : Int) - 0) + ((1065 : Int) - 2000)) / 2).natAbs ∧
      (chipOf srv 7).badExchanges < 15 ∧ 15 ≤ (chipOf (setChip srv 7 fun c => { c with badExchanges := 15 }) 7).badExchanges ∧
      srv.deputy = none ∧ { srv with deputy := some 0 }.deputy.isSome = true ∧ (-4 : Int).natAbs ≤ ticksA srv 4 ∧ ticksA srv 4 < (5 : Int).natAbs ∧
      srv.loss = .none) := by
  refine ⟨⟨by decide, by decide, by decide, by decide, by decide, by decide, ?_⟩, by decide, by decide, by decide, by decide⟩
  rintro n (rfl | rfl) <;> decide

/-- The first lane retired of link 6-7 leaves its place to the spare (R345). -/
theorem test_lane_retire :
    (match exec (.laneRetire 7 6 ⟨3, true, 0, 5⟩) srv with
      | .next t => (dirOf t 7 6).lanes == [0, 1, 2, 4] && (dirOf t 6 7).lanes == [0, 1, 2, 3]
      | _ => false) = true := by decide

/-- Core k of chip 7 changed. -/
def withCore (k : Nat) (f : Core → Core) : State := setChip srv 7 fun c => { c with cores := modNth c.cores k f }

/-- Of CoreHangsAndChipLosses, its cores: a first miss, a fourth with 13 working cores and with 12, a spare that takes over, none left. -/
theorem test_met_cores :
    (7 < srv.chips.length ∧ (chipOf srv 7).cores[15]? = some (Core.fresh 15) ∧ (chipOf srv 7).active = true ∧ (Core.fresh 15).role ≠ .fenced ∧
      (if ∃ l, (Core.fresh 15).lastMiss = some l ∧ 100 ≤ l + ticksA srv 16384 then (Core.fresh 15).missed + 1 else 1) < 4) ∧
    (let co := { Core.fresh 15 with missed := 3, lastMiss := some 100 }
     let s := withCore 15 fun _ => co
     (chipOf s 7).cores[15]? = some co ∧ co.role = .active ∧ 12 < workingCores s 7 ∧ s.loss = .none ∧
       srv.deputy ≠ some 7 ∧ 4 ≤ (if ∃ l, co.lastMiss = some l ∧ 16484 ≤ l + ticksA s 16384 then co.missed + 1 else 1)) ∧
    (let s := setChip srv 7 fun c => { c with cores := c.cores.take 12 }
     workingCores s 7 ≤ 12 ∧ (chipOf s 7).cores[11]? = some (Core.fresh 11)) ∧
    (let co := { Core.fresh 15 with role := .fenced, pending := some (3, 100) }
     let s := withCore 15 fun _ => co
     (chipOf s 7).cores[15]? = some co ∧ s.deputy = none ∧ (chipOf s 7).active = true ∧
       (∀ p ∈ withIndex (chipOf s 7).cores, p.2.pending.isSome = true → p.1 = 15) ∧ (spareCores s 7).head? = some 16 ∧
       (chipOf s 7).cores[16]? = some (Core.fresh 16)) ∧
    (let s := withCore 15 fun x => { x with role := .fenced, pending := some (3, 100) }
     let s := setChip s 7 fun c => { c with cores := modNth c.cores 14 fun x => { x with role := .fenced, pending := some (3, 99) } }
     ((chipOf s 7).cores[15]?.bind fun x => x.pending) = some (3, 100) ∧ ((chipOf s 7).cores[14]?.bind fun x => x.pending) = some (3, 99) ∧ 99 < 100) ∧
    (let s := setChip srv 7 fun c => { c with cores := (modNth c.cores 15 fun k => { k with role := .fenced, pending := some (3, 100) }).take 16 }
     spareCores s 7 = [] ∧ ∃ co, (chipOf s 7).cores[15]? = some co ∧ co.role = .fenced ∧ co.pending = some (3, 100)) := by
  refine ⟨⟨by decide, by decide, by decide, by decide, ?_⟩, ?_, by decide, by decide, by decide, ⟨by decide, _, rfl, by decide, by decide⟩⟩
  · rw [if_neg (by decide +revert)] <;> decide
  · refine ⟨by decide, by decide, by decide, by decide, by decide, ?_⟩
    rw [if_pos ⟨100, rfl, by decide⟩] <;> decide

/-- Of CoreHangsAndChipLosses, its chips: an inactive chip, an active one with no loss declared, one beside it and itself; the TMC
restarting; the ninth heartbeat missed and the tenth; three FAILED links. -/
theorem test_met_chips :
    (chipOf State.reset 7).active = false ∧ (chipOf srv 7).active = true ∧ srv.loss = .none ∧
    (let s := { srv with loss := .declared [3] 1600 [] }
     s.loss = .declared [3] 1600 [] ∧ 3 ∈ [3] ∧ 7 ∉ [3]) ∧ { srv with loss := .recovering [3] }.loss = .recovering [3] ∧
    { srv with deputy := some 7 }.deputy = some 7 ∧ srv.deputy = none ∧ { srv with deputy := some 0 }.deputy.isSome = true ∧
    (∀ n ∈ [8, 9], (chipOf (setChip srv 7 fun c => { c with missed := n, lastMiss := some 0 }) 7).missed = n) ∧ 32000 ≤ 0 + ticksA srv 32000 ∧
    3 ≤ failedLinks { srv with mesh := srv.mesh.map fun l => if l.b = 7 ∧ l.a < 3 then { l with failed := true } else l } 7 ∧
    failedLinks srv 7 < 3 := by decide

/-- Of LossRecoveryRuns, its fence: chip 7 declared lost; before the tick and on it; a home, a mirror and both lost; four chips left
and three. -/
theorem test_met_fence :
    (let s := { srv with loss := .declared [7] 1600 [] }
     s.loss = .declared [7] 1600 [] ∧ s.chips.length = 8 ∧ (1599 : Nat) < 1600 ∧ s.deputy = none ∧ homeOf s 7 = (7, some 0) ∧ homeOf s 6 = (6, some 7) ∧
       homeOf s 0 = (0, some 1) ∧ ¬ (7 ∈ [7] ∧ (0 : Nat) ∈ [7])) ∧
    (let s := withStream { srv with loss := .declared [7, 0] 1600 [] }
     homeOf s 65535 = (7, some 0) ∧ 7 ∈ [7, 0] ∧ (∀ x, some 0 = some x → x ∈ [7, 0]) ∧ (streamOf s 65535).isOpen = true) ∧
    (∀ lost ∈ [[4, 5, 6, 7], [3, 4, 5, 6, 7]], ∃ t, exec (.fenceTick 1600) { srv with loss := .declared lost 1600 [] } = .next t ∧
      (if lost.length = 4 then 4 ≤ (activeChips t).length else (activeChips t).length < 4)) := by
  refine ⟨by decide, ?_, ?_⟩
  · refine ⟨by decide, by decide, ?_, by decide⟩
    intro x h
    cases h
    decide
  · intro lost h
    refine ⟨_, rfl, ?_⟩
    revert lost
    decide

/-- A model whose re-lay is planned over chips 0 and 1. -/
def relaying : Model := { model with state := 5, plan := some ([[0], [1]], 1) }

/-- Of LossRecoveryRuns, what follows: the lead kept and the lead lost, a held replayed command, a LAUNCH_AT whose tick has come; the
re-lay under way and done; a stream with its mirror and without. -/
theorem test_met_recovery :
    (let s := { srv with loss := .recovering [7] }
     s.loss = .recovering [7] ∧ s.regs.lead ∉ [7] ∧
       ({ cmd 0 .held [(0, 1, 0x31)] with replayed := true }.phase = .held ∧ { cmd 0 .held [(0, 1, 0x31)] with replayed := true }.replayed = true ∧
         s.shutdown = .none)) ∧
    (let s := setChip { srv with loss := .recovering [0] } 0 fun c => { c with active := false }
     s.regs.lead ∈ [0] ∧ (chipOf s 1).active = true ∧ pktOp (cmd 0 .started [(0, 1, 0x73)]) = 0x73 ∧ pkt (cmd 0 .started [(0, 1, 0x73)]) 0x20 8 ≤ s.now) ∧
    (let s := { srv with regs := { srv.regs with relayActive := true }, models := [(255, relaying)] }
     s.regs.relayActive = true ∧ s.loss = .none ∧ (∃ p ∈ s.models, p.2.state = 5) ∧ (∀ p ∈ [(255, model)], p.2.state ≠ 5) ∧
       s.models[0]? = some (255, relaying) ∧ relaying.plan = some ([[0], [1]], 1) ∧ srv.regs.relayActive = false ∧ modelOf s 255 = some relaying ∧
       memoriesWf s = true ∧ trainedLinks s ≠ [] ∧ workingBridge s ≠ none ∧ s.moving = [] ∧
       workingBridge { s with bridges := s.bridges.map fun b => { b with failed := true } } = none) ∧
    (homeOf srv 7 = (7, some 0) ∧ homeOf { srv with homes := [(65535, 7, none)] } 65535 = (7, none) ∧ (0 : Nat) ≠ 7 ∧ (chipOf srv 0).active = true) := by
  decide

/-- Of TmcRestartsAndBackgroundTasks: the TMC restarting and not; a task in FREE order with the chips at work and idle, in FIXED order,
out of service; a bounded slot for a task overdue; a quiet slot asked for, opened, ended. -/
theorem test_met_background :
    (srv.regs.ready = true ∧ srv.deputy = none ∧ State.reset.regs.ready = false ∧ { srv with deputy := some 0 }.deputy.isSome = true) ∧
    (modeFixed srv.regs.modeCtrl = false ∧ modeFixed 2#32 = true ∧ (∀ c ∈ srv.cmds, c.phase ≠ .started) ∧ (∃ c ∈ (run [(0, 1, 1)]).cmds, c.phase = .started) ∧
      srv.power.window = none ∧ srv.shutdown = .none ∧ srv.loss = .none ∧ srv.tasks = [] ∧ (2 = 2 ∨ 6 ≤ 2) ∧ ((1 : Nat) ≠ 2 ∧ 1 < 6)) ∧
    (let s := { srv with tasks := [⟨1, 7, 27, 0, [], []⟩] }
     (∀ l, (chipOf s 7).lastSlot = some l → l + ticksA s 160000 ≤ maxDeferral s 1) ∧
       ∃ k, k ∈ s.tasks ∧ k.chip = 7 ∧ k.due + maxDeferral s k.kind ≤ max s.now (maxDeferral s 1)) ∧
    (let s := { srv with quiet := .wanted, tasks := [⟨1, 7, 27, 0, [], []⟩] }
     s.quiet = .wanted ∧ (∀ c ∈ s.cmds, c.phase = .held) ∧ ∀ k ∈ s.tasks, k.kind = 1) ∧
    ((∃ c ∈ (run [(0, 1, 1)]).cmds, c.phase ≠ .held) ∧ { srv with quiet := .openUntil 12800 }.quiet = .openUntil 12800 ∧
      ∀ stop, srv.quiet ≠ .openUntil stop) ∧
    (let s := { srv with bist := ⟨0, 0, 512⟩ }
     s.bist.round = (max s.now 5 - s.bist.readyAt) / ticksUs s 21600000000 ∧ 512 ≤ s.bist.segments ∧ testWanted s = false) ∧
    (∃ c ∈ [{ cmd 0 .started [(0, 1, 0x31)] with modeCtrl := 2#32 }], c.phase ≠ .held ∧ modeFixed c.modeCtrl = true) ∧
    ((∀ c, c < 8 → (chipOf srv c).active = true → ∃ a ∈ arrivals, a.1 = c) ∧
      ∃ c, c < 8 ∧ (chipOf srv c).active = true ∧ ∀ a ∈ arrivals.take 7, a.1 ≠ c) := by
  refine ⟨by decide, by decide, ⟨?_, _, List.mem_cons_self, rfl, by decide⟩, by decide, ⟨by decide, rfl, ?_⟩, by decide, by decide,
    by decide, 7, by decide⟩
  · intro l h
    cases h
  · intro stop h
    cases h

/-! ## Witnesses: power, saves, bring-up -/

/-- The power state changed. -/
def pow (f : Power → Power) : State := { srv with power := f srv.power }

/-- Of PowerHeatAndPuffball: level 1 exactly at 90 % of 300 W, level 7 at 105 %; levels above, at and below; the fifteenth measurement
below and the sixteenth; charging below 12 J, at E_FULL, and at levels 1, 2 and 3; 95 °C, 110 °C; at 39 V the cap is 8.0 A times the
input. -/
theorem test_met_pressure :
    (let cap := 300000
     let th := [0, 90, 93, 96, 98, 100, 102, 105]
     srv.power.cap = 300 ∧ ¬ (38000 ≤ srv.power.millivolts ∧ srv.power.millivolts < 40000) ∧
       (nth 0 th 1 * cap ≤ 100 * 270000 ∧ 100 * 270000 < nth 0 th 2 * cap) ∧ nth 0 th 7 * cap ≤ 100 * 315000 ∧
       100 * 269999 < nth 0 th 1 * cap) ∧
    (38000 ≤ (pow fun p => { p with millivolts := 38000 }).power.millivolts ∧ (pow fun p => { p with millivolts := 38000 }).power.millivolts < 40000) ∧
    ((let p := (pow fun p => { p with energy := 11999, pressure := 7 }).power
      p.energy < 24000 ∧ p.energy < 12000) ∧ 24000 ≤ (pow fun p => { p with energy := 24000 }).power.energy ∧
      (∀ n ∈ [1, 2, 3], ¬ (pow fun p => { p with pressure := n }).power.energy < 12000 ∧ (pow fun p => { p with pressure := n }).power.pressure = n)) ∧
    (srv.power.pressure < 1 ∧ (pow fun p => { p with pressure := 1 }).power.pressure = 1 ∧ 1 < (pow fun p => { p with pressure := 2, below := 14 }).power.pressure ∧
      (pow fun p => { p with pressure := 2, below := 14 }).power.below < 15 ∧ 15 ≤ (pow fun p => { p with pressure := 2, below := 15 }).power.below) ∧
    (7 < srv.chips.length ∧ (chipOf srv 7).active = true ∧ (chipOf State.reset 7).active = false ∧ srv.deputy = none ∧ srv.loss = .none ∧
      srv.power.coldPlate = false) ∧ (95 ≤ 95 ∧ 95 < 110 ∧ 110 ≤ 110 ∧ 94 < 95 ∧ 90 ≤ 90 ∧ 90 < 91 ∧ 60 ≤ 60 ∧ 59 < 60 ∧ 54 < 55 ∧ 55 ≤ 55) := by
  decide

/-- At level 2 the Puffball charges at 5 W at most, below 12 J at 10 W at any level, and P counts it in (R439, Table PWR-1). -/
theorem test_charge_limit :
    (match exec (.pressureMeasurement ⟨1000, 60000⟩) (pow fun p => { p with pressure := 2 }) with
      | .next t => t.power.charging == 5000 && t.power.milliwatts == 6000
      | _ => false) = true ∧
    (match exec (.pressureMeasurement ⟨1000, 60000⟩) (pow fun p => { p with pressure := 7, energy := 11999 }) with
      | .next t => t.power.charging == 10000 && t.power.milliwatts == 11000
      | _ => false) = true := by decide

/-- The level rises at once to 7 at 105 % of the cap, and falls by one step at the sixteenth measurement below (R437). -/
theorem test_pressure_levels :
    (match exec (.pressureMeasurement ⟨315000, 0⟩) srv with | .next t => t.power.pressure == 7 | _ => false) = true ∧
    (match exec (.pressureMeasurement ⟨0, 0⟩) (pow fun p => { p with pressure := 7, below := 15 }) with
      | .next t => t.power.pressure == 6 && t.power.below == 0
      | _ => false) = true := by decide

/-- Of PowerHeatAndPuffball, the Puffball: no window; in a window at 7,999 mJ in service; empty without input; the capacity measured
and not; bled. -/
theorem test_met_puffball :
    (srv.power.window = none ∧ (∀ d, srv.power.window = some d → 10 < d) ∧ inputPresent srv = true) ∧
    (let s := pow fun p => { p with window := some 100 }
     s.power.window.isSome = true ∧ (∀ d, s.power.window = some d → 99 < d) ∧ s.boot = .serving ∧ s.power.idle ≠ 4 ∧ s.shutdown = .none) ∧
    (let s := pow fun p => { p with millivolts := 0 }
     inputPresent s = false ∧ railsUp s = true ∧ s.power.window = none ∧ (∀ d es, s.ledgerWrite = some (d, es) → d ≤ max s.now 10) ∧
       { s with ledgerWrite := some (8000000, []) }.ledgerWrite = some (8000000, []) ∧ max s.now 10 < 8000000) ∧
    (srv.power.powerReady = true ∧ (pow fun p => { p with powerReady := false }).power.powerReady = false) ∧
    (({ pow fun p => { p with millivolts := 0 } with boot := .railsDown }).boot = .railsDown ∧
      inputPresent { pow fun p => { p with millivolts := 0 } with boot := .railsDown } = false ∧ srv.boot ≠ .railsDown) := by
  refine ⟨⟨by decide, ?_, by decide⟩, ⟨by decide, ?_, by decide, by decide, by decide⟩, ⟨by decide, by decide, by decide, ?_, by decide, by decide⟩,
    by decide, by decide⟩
  · intro d h; cases h
  · intro d h; cases h; decide
  · intro d es h; cases h

/-- Of InputDipsAndLosses: no window with the input sound, lost and disconnected, the rails down; a window before its tick and on it,
in service and in I4; presence. -/
theorem test_met_input :
    (srv.power.window = none ∧ srv.power.disconnected = false ∧ srv.power.mated = true ∧ ¬ (srv.boot = .off ∨ srv.boot = .railsDown) ∧
      srv.boot = .serving ∧ srv.power.idle ≠ 4 ∧ srv.shutdown = .none) ∧
    ((pow fun p => { p with disconnected := true }).power.disconnected = true ∧ State.reset.boot = .off ∧ State.reset.power.mated = false) ∧
    (let s := pow fun p => { p with window := some 8000000, millivolts := 37999 }
     s.power.window = some 8000000 ∧ (7999999 < 8000000) ∧ (8000000 ≤ 8000000) ∧ s.shutdown = .none ∧ s.boot ≠ .off ∧ 31 < s.totals.length ∧
       (pow fun p => { p with window := some 8000000, idle := 4 }).power.idle = 4) ∧
    ({ srv with boot := .railsDown }.boot = .railsDown ∧ { srv with boot := .railsDown }.power.window = none ∧ bringingUp { srv with boot := .training } = true ∧
      (59999 < 60000 ∧ 60000 ≤ 63000 ∧ 63000 < 63001 ∧ 38000 ≤ 38000 ∧ 37999 < 38000 ∧ 40000 ≤ 40000)) := by decide

/-- The input lost for less than 5 ms: the window closes, BROWNOUT_RIDDEN counts it (R445). -/
theorem test_brownout :
    (match exec (.pfEarly 37999 0) srv with
      | .next t => t.power.window == some 8000000 && t.regs.pfEarly && (match exec (.inputReturn 40000 7999999) t with
        | .next u => u.power.window == none && !u.regs.pfEarly && nth 0 u.totals 31 == 1
        | _ => false)
      | _ => false) = true := by decide

/-- Of SavesSnapshotAndComplete: a drain with a command started, before its last tick and on it, with one held, with one complete whose
record is the only one; no drain; a save that keeps the rails and one that drops them, into I5 or not. -/
theorem test_met_saves :
    (let s := { run [(0, 1, 0x31)] with shutdown := .drain 100 0 false false }
     s.shutdown = .drain 100 0 false false ∧ (∃ c ∈ s.cmds, c.phase ≠ .held ∧ isFailure c.status = false) ∧ 100 + ticksUs s 10000 = 16000100 ∧
       ∀ c ∈ s.cmds, pktOp c ≠ 0x7F ∧ (isFailure c.status = true → c.commits = [])) ∧
    (let c := cmd 0 .held [(0, 1, 0x31)]
     let s := { srv with cmds := [c], shutdown := .drain 100 0 false false }
     (∀ c ∈ s.cmds, c.phase = .held ∨ isFailure c.status = true) ∧ s.cmds = [c] ∧ c.status = 0 ∧ pktAbortOnLate c = false ∧ c.commits = [] ∧
       c.cq < 256 ∧ trainedLinks s ≠ [] ∧ memoriesWf s = true) ∧
    (∀ d kind stay i5, srv.shutdown ≠ .drain d kind stay i5) ∧ (∀ x kind stay i5, srv.shutdown ≠ .save x kind stay i5) ∧
    (∀ p ∈ [(true, false), (false, true), (false, false)],
      let s := { srv with shutdown := .save 100 1 p.1 p.2 }
      s.shutdown = .save 100 1 p.1 p.2 ∧ s.deputy = none) := by
  refine ⟨by decide, by decide, ?_, ?_, by decide⟩
  · intro d kind stay i5 h; cases h
  · intro d kind stay i5 h; cases h

/-- An idle tray that has waited for I1, or in idle state n for the next. -/
def idling (n : Nat) : State := { pow fun p => { p with idle := n } with regs := { srv.regs with wakeTolerance := 40000#32 } }

/-- Of IdleStatesAndResets: I1 entered after 2 µs, and I4 after 1 s from I3; a stop one tick early; reset actions in service, in I5,
with one under way, with Redfish not serving. -/
theorem test_met_idle :
    (let s := idling 0
     s.cmds = [] ∧ s.power.window = none ∧ s.regs.ready = true ∧ s.shutdown = .none ∧ s.loss = .none ∧
       (∀ p ∈ s.rings, sqEnabled p.2 = true → p.2.sqHead = p.2.sqTail) ∧ 1 = s.power.idle + 1 ∧ 1 ≤ s.regs.wakeTolerance.toNat ∧
       s.power.idleSince + ticksUs s 2 ≤ max s.now 3200 ∧ ¬ s.power.idleSince + ticksUs s 2 ≤ max s.now 3199) ∧
    (let s := idling 3
     4 = s.power.idle + 1 ∧ 40000 ≤ s.regs.wakeTolerance.toNat ∧ s.power.idleSince + ticksUs s 1000000 ≤ max s.now 1600000000) ∧
    (redfishUp srv = true ∧ srv.mgmt.resetBusy = false ∧ srv.boot = .serving ∧ srv.shutdown = .none ∧
      { srv.mgmt with resetBusy := true }.resetBusy = true ∧ redfishUp { srv with boot := .i5 } = true ∧ redfishUp State.reset = false) := by decide

/-- The tray before a step of bring-up, nothing in the way. -/
def atStep (b : Boot) : State := { srv with boot := b }

/-- Chips 4 to 7 lost. -/
def dead (s : State) : State := { s with chips := withIndex s.chips |>.map fun p => { p.2 with active := decide (p.1 < 4) } }

/-- Of BringUpStartsFirmware: step 1 at 40 V and 60 V, and with no presence; step 2 at 8 J and below; step 3 with the active bank sound, with
the other alone, with neither, after three failures of a new bank, with a valid configuration copy and with none. -/
theorem test_met_firmware :
    (let s := atStep .inputCheck
     (s.boot = .off ∨ s.boot = .railsDown ∨ s.boot = .inputCheck) ∧ s.power.mated = true ∧ 40000 ≤ 40000 ∧ 60000 ≤ 60000 ∧ s.power.window = none) ∧
    State.reset.power.mated = false ∧ (atStep .preCharge).boot = .preCharge ∧ (8000 ≤ 8000 ∧ 7999 < 8000) ∧
    ((atStep .tmcBoot).vault.torn = [] ∧ (atStep .tmcBoot).deferred = [] ∧ (atStep .tmcBoot).vault.ledgerA.valid = true) ∧
    (let s := atStep .tmcBoot
     let ok (rom : RomResult) (b : Nat) : Bool := (if b = 0 then rom.bankA else rom.bankB) && (nth ⟨[], false⟩ s.mgmt.banks b).valid
     let both := { s.mgmt with banks := [⟨[], true⟩, ⟨[], true⟩] }
     s.boot = .tmcBoot ∧ s.power.window = none ∧ s.mgmt.activeBank < 2 ∧ ok ⟨true, true⟩ 0 = true ∧ ok ⟨false, true⟩ 0 = false ∧
       ok ⟨false, true⟩ 1 = false ∧ (nth ⟨[], false⟩ both.banks 1).valid = true ∧
       ({ both with activated := true, tries := 3 }.activated = true ∧ 3 ≤ { both with activated := true, tries := 3 }.tries) ∧
       2 ≤ s.bridges.length ∧ cfgValid (List.replicate 4096 0#8) = false) := by decide +kernel

/-- Of BistAndTrainingAdmitChips: step 4 with an empty ledger, with an entry of each kind, with the ledger rebuilt, a chip lost once; step 5
with every link sound and no entry; with a CHIP_LOST entry and 7 peers, and 2. -/
theorem test_met_admission :
    (let s := atStep .chipPower
     s.boot = .chipPower ∧ s.power.window = none ∧ s.deferred = [] ∧ s.mgmt.rebuilt = false ∧ (ledgerNow s).entries = [] ∧ 7 < s.chips.length) ∧
    (∀ e ∈ [LedgerEntry.mk 1 7 15 3 0 17 0, ⟨2, 7, 15, 3, 0, 0, 0⟩, ⟨3, 7, 15, 0, 1535, 1, 0⟩, ⟨5, 7, 0, 3, 1, 0, 0⟩],
      let s := { atStep .chipPower with vault := { Vault.shipped with ledgerA := ⟨1, true, 1, 0, [e]⟩ } }
      (ledgerNow s).entries = [e] ∧ e.chip < s.chips.length ∧ e.unit < (chipOf s e.chip).cores.length ∧
        (e.kind = 1 → e.replacement < (chipOf s e.chip).cores.length ∧ e.replacement ≠ e.unit) ∧
        ([e].filter fun e => e.kind == 5 && e.chip == 7).length < 2) ∧
    { (atStep .chipPower).mgmt with rebuilt := true }.rebuilt = true ∧
    (let s := atStep .training
     s.boot = .training ∧ s.power.window = none ∧ s.deputy = none ∧ s.deferred = [] ∧ s.chips.length = 8 ∧ s.mesh.length = 28 ∧
       s.mgmt.rebuilt = false ∧ (∀ q ∈ linkPairs, (linkOf s q.1 q.2).failed = false ∧ 2 ≤ (linkOf s q.1 q.2).up.lanes.length ∧ 2 ≤ (linkOf s q.1 q.2).down.lanes.length) ∧
       (ledgerNow s).entries = []) ∧
    (let e : LedgerEntry := ⟨5, 7, 0, 3, 1, 0, 0⟩
     let s := { atStep .training with vault := { Vault.shipped with ledgerA := ⟨1, true, 1, 0, [e]⟩ } }
     (ledgerNow s).entries = [e] ∧ e.kind = 5 ∧ e.chip < 8 ∧ (chipOf s e.chip).active = true ∧
       3 ≤ ((activeChips s).filter fun d => d != e.chip && !linkFailed s e.chip d).length ∧
       (let s := { s with chips := withIndex s.chips |>.map fun p => { p.2 with active := decide (p.1 < 2 ∨ p.1 = 7) } }
        (chipOf s 7).active = true ∧ ((activeChips s).filter fun d => d != 7 && !linkFailed s 7 d).length < 3)) := by decide +kernel

/-- Of AlignmentAndApply: step 6; step 7 with no slot, with a slot left incomplete, with a slot whose one context is sound and one whose
is not. -/
theorem test_met_apply :
    ((atStep .alignment).boot = .alignment ∧ (atStep .alignment).power.window = none ∧ 7 < (atStep .alignment).chips.length) ∧
    (let s := atStep .apply
     s.boot = .apply ∧ s.power.window = none ∧ s.deputy = none ∧ resumeSlot s = none ∧ s.functions = [] ∧
       (∃ p, [((3 : Nat), [1#8])] = [p]) ∧ { Slot.empty with state := 1 }.state = 1) ∧
    (let x : Slot := { Slot.empty with state := 2, headerOk := true, chips := 255, lanes := List.replicate 8 (List.replicate 8 5#128), contexts := [(65535, ctxBytes 65535 opened)] }
     let s := { atStep .apply with vault := { Vault.shipped with slotA := x } }
     resumeSlot s = some true ∧ (x.contexts.Pairwise fun p q => p.1 ≠ q.1) ∧ (∀ p ∈ x.contexts, p.1 ≠ 0) ∧
       (chipOf s 7).active = true ∧ bit x.chips 7 = true ∧ 7 < x.lanes.length) ∧
    crc32c ((List.replicate 512 0#8).take 508) ≠ fieldAt (List.replicate 512 0#8) 508 4 := by
  refine ⟨by decide, ⟨by decide, by decide, by decide, by decide, by decide, ⟨_, rfl⟩, by decide⟩, by decide, ?_⟩
  set_option maxRecDepth 40000 in decide +kernel

/-- Of AlignmentAndApply: the context that SAVE_STREAM and a save write is sound. -/
theorem test_met_sound_context : crc32c ((ctxBytes 65535 opened).take 508) = fieldAt (ctxBytes 65535 opened) 508 4 := by
  rw [ctxBytes_segs]
  have := crc_field (segs (ctxSegs 65535 opened)) [] 508 (ctxSegs_length _ _)
  rw [List.append_nil] at this
  exact this.symm

/-- Of ReadyServesTheTray: four chips and three, a reset held and none, a slot resumed and none, a bundle running and the shipped
firmware. -/
theorem test_met_ready :
    (let s := dead (atStep .readyStep)
     s.boot = .readyStep ∧ s.power.window = none ∧ 4 ≤ (activeChips s).length ∧ s.mgmt.heldReset = none ∧ s.shutdown = .none ∧
       resumeSlot s = none ∧ s.mgmt.running = [] ∧ (∀ l ∈ s.mesh, l.failed = false) ∧
       { s.mgmt with heldReset := some true }.heldReset = some true ∧ { s.mgmt with running := [1#8] }.running ≠ [] ∧
       (activeChips (setChip s 0 fun c => { c with active := false })).length < 4) ∧
    resumeSlot { srv with vault := { Vault.shipped with slotB := { Slot.empty with state := 2, headerOk := true } } } = some false ∧
    srv.boot ≠ .readyStep := by decide

/-- READY with four chips: chip 0 leads, and the ledger counts the bring-up (R464). -/
theorem test_ready :
    (match exec .ready (dead (atStep .readyStep)) with
      | .next t => t.regs.ready && t.regs.lead == 0 && (ledgerNow t).bringUps == (ledgerNow srv).bringUps + 1 && t.boot == .serving
      | _ => false) = true := by decide

/-! ## Witnesses: host links and management -/

/-- Of HostLinksTrainAndFail: link 2 at x16 and 64 GT/s with port 1 whole; link 3 under x8+x8; no link 1 while port 0 is whole; a record
that waited; no link of a port whose four chips are lost; links up and down; a bridge failing with the other's link up, 320,000 ticks
after an output, one tick later, and on its tick. -/
theorem test_met_links :
    (let port := 2 / 2
     let latch := (nth ⟨false, 0, [], []⟩ srv.bridges port).latch
     2 < 4 ∧ (nth ⟨false, 0, [], []⟩ srv.bridges port).failed = false ∧ 2 % 2 = 0 ∧ bit latch port = false ∧ bit latch (2 + port) = false ∧
       srv.boot ≠ .off ∧ srv.boot ≠ .railsDown ∧ 2 < srv.links.length ∧ memoriesWf srv = true) ∧
    (let s := { srv with bridges := modNth srv.bridges 1 fun b => { b with latch := 2 } }
     bit (nth ⟨false, 0, [], []⟩ s.bridges (3 / 2)).latch (3 / 2) = true) ∧
    ¬ (bit (nth ⟨false, 0, [], []⟩ srv.bridges (1 / 2)).latch (1 / 2) = true ∨ 1 % 2 = 0) ∧
    { srv with unrecorded := [(0, 0x9000, leBytes 32 1)] }.unrecorded = [(0, 0x9000, leBytes 32 1)] ∧
    (3 < srv.links.length ∧ (nth ⟨true, 0, [], []⟩ srv.bridges 0).failed = false ∧ linkUp srv 2 = true ∧ 2 / 2 ≠ 0 ∧
      decide ((0 : Tick) < 320000 ∧ 320000 ≤ 0 + ticksUs srv 200) = true ∧ decide ((0 : Tick) < 320001 ∧ 320001 ≤ 0 + ticksUs srv 200) = false ∧
      decide ((5 : Tick) < 5 ∧ 5 ≤ 5 + ticksUs srv 200) = false) ∧
    (srv.regs.ready = true ∧ (∀ i < 4, (chipOf (dead srv) (4 * 1 + i)).active = false) ∧ ¬ ∀ i < 4, (chipOf srv (4 * 1 + i)).active = false) ∧
    (nth ⟨true, 0, [], []⟩ (modNth srv.bridges 0 fun b => { b with failed := true }) 0).failed = true := by decide

/-- A blob whose fields lie in Table BOOT-4, at the lowest POWER_CAP and the lowest MCTP address. -/
def blob : List Byte := block 4096 [(0, 2, 1), (0x14, 2, 150), (0x19, 1, 8)]

/-- Of ConfigurationAndLogs: management up and not, in recovery mode, a blob of the table and one below its POWER_CAP; both copies
invalid. -/
theorem test_met_configuration :
    (redfishUp srv = true ∧ srv.boot ≠ .recovery ∧ mctpUp srv = true) ∧ ¬ (redfishUp State.reset = true ∨ mctpUp State.reset = true) ∧
    (redfishUp { srv with boot := .recovery } = true) ∧ cfgFieldsOk blob = true ∧ cfgFieldsOk (block 4096 [(0, 2, 1), (0x14, 2, 149), (0x19, 1, 8)]) = false ∧
    (cfgValid [] = false) := by set_option maxRecDepth 40000 in decide +kernel

/-- Of FirmwareUpdates: either path up and down; the other path's update under way; a transfer to verify, none; a bundle staged, none.
Whether a bundle verifies rests on open values (log entry 3), so `good` and its negation stand open, one of them true. -/
theorem test_met_update :
    ((if true then redfishUp srv else mctpUp srv) = true ∧ (if false then redfishUp srv else mctpUp srv) = true ∧
      (if true then redfishUp State.reset else mctpUp State.reset) = false) ∧
    ({ srv.mgmt with update := some false }.update = some (!true) ∧ srv.mgmt.update ≠ some (!true) ∧ srv.mgmt.activeBank < 2 ∧ srv.mgmt.banks.length = 2) ∧
    (mgmtUp srv = true ∧ mgmtUp State.reset = false ∧ srv.mgmt.update = none ∧ { srv.mgmt with update := some true }.update ≠ none ∧
      srv.mgmt.staged = false ∧ { srv.mgmt with staged := true }.staged = true) := by decide

/-- Of SpdmResponds: up and down; every stage of the negotiation; algorithms offered and not; slot 0 and slot 1; all measurements, block 4,
block 9, which is none. How long the certificate chain is stands open (log entry 3). -/
theorem test_met_spdm :
    (mctpUp srv = true ∧ srv.boot ≠ .inputCheck ∧ srv.boot ≠ .preCharge ∧ srv.boot ≠ .tmcBoot ∧ mctpUp State.reset = false ∧
      (atStep .recovery).boot = .recovery ∧ srv.boot ≠ .recovery) ∧
    (∀ n ∈ [0, 1, 2, 3], { srv.mgmt with spdm := n }.spdm = n) ∧
    (let req := block 32 [(6, 1, 1), (8, 4, 0x80), (12, 4, 2)]
     bit (fieldAt req 8 4) 7 = true ∧ bit (fieldAt req 12 4) 1 = true ∧ bit (fieldAt req 6 1) 0 = true ∧ ¬ bit (fieldAt (block 32 []) 8 4) 7 = true) ∧
    (fieldAt (block 8 []) 2 1 = 0 ∧ fieldAt (block 8 [(2, 1, 1)]) 2 1 ≠ 0) ∧
    (fieldAt (block 8 [(3, 1, 0xFF)]) 3 1 = 0xFF ∧ fieldAt (block 8 []) 3 1 = 0) ∧
    (fieldAt (block 8 [(3, 1, 4)]) 3 1 = 4 ∧ ((measurements srv).filter fun p => p.1 == 4) ≠ []) ∧
    (fieldAt (block 8 [(3, 1, 9)]) 3 1 = 9 ∧ ((measurements srv).filter fun p => p.1 == 9) = []) := by
  refine ⟨by decide, by decide, by decide, by decide, by decide, ⟨by decide, ?_⟩, ⟨by decide, ?_⟩⟩
  · intro h
    cases h
  · rfl

/-- Of ManagementAnswers: endpoint ids set, read, another message; each threshold of Table PHY-3; a lost chip and an active one; Redfish up and down; a subscription new,
a fifth; accounts: the label's user, none, one with its password unchanged, a ninth, a role that is none. -/
theorem test_met_management :
    (mctpUp srv = true ∧ mctpUp State.reset = false ∧ fieldAt (block 8 [(1, 1, 1)]) 1 1 = 1 ∧ fieldAt (block 8 [(1, 1, 2)]) 1 1 = 2 ∧
      fieldAt (block 8 [(1, 1, 3)]) 1 1 ≠ 1 ∧ fieldAt (block 8 [(1, 1, 3)]) 1 1 ≠ 2) ∧
    ((chipOf srv 7).active = true ∧ (chipOf (setChip srv 7 fun c => { c with active := false }) 7).active = false ∧
      redfishUp (setChip srv 7 fun c => { c with active := false }) = true) ∧
    (redfishUp srv = true ∧ redfishUp State.reset = false ∧ srv.boot ≠ .recovery ∧ 4 ∉ srv.mgmt.subs ∧ srv.mgmt.subs.length < 4 ∧
      (4 ∉ [0, 1, 2, 3] ∧ 4 ≤ [0, 1, 2, 3].length) ∧ redfishUp { srv with boot := .recovery } = true) ∧
    (mgmtUp srv = true ∧ bit (cfgField srv 0x20 4) 0 = true ∧ ((srv.mgmt.accounts.find? fun p => p.1 == 0).map fun p => p.2) = some 0 ∧
      ((srv.mgmt.accounts.find? fun p => p.1 == 5).map fun p => p.2) = none ∧ srv.mgmt.labelChanged = true ∧ Mgmt.reset.labelChanged = false ∧
      srv.mgmt.accounts.length < 8 ∧ 8 ≤ ((List.range 8).map fun i => (i, 0)).length ∧ 2 < 3) := by decide

/-! ## The manual's own vectors -/

/-- Table RNG-5. -/
theorem test_spore_vectors :
    sporeMix 0#128 0#128 = 0xA9428B62F0D8F3B5#64 ∧ sporeMix 0#128 0x002500000000_04B4_0000000000000000#128 = 0x248C11F83D7F5AC3#64 ∧
    sporeMix 0x0123456789ABCDEF0000000000000000#128 (sporeBlock 37 1204 0 0 117 0) = 0x16D14C69E7D11694#64 ∧
    uniform32 0x3D7F5AC3#32 = 0x3E75FD6A#32 := by decide +kernel

/-- Table RNG-10. -/
theorem test_ring_vectors :
    (ringDrawN (ringMask 0) 5 0x80000000000000000000000000000000#128).1 = [0x80000000#32, 0#32, 0#32, 0x43#32, 0x80000000#32] ∧
    ringJump (ringMask 0) 1#128 128#128 = 0x87#128 ∧ ringJump (ringMask 0) 1#128 160#128 = 0x8700000000#128 := by decide +kernel

/-- The block of 03_number_formats.md's worked example: 1,000.0, 0.001, 0.5, -3.25 and 28 zeros into FP8-E4M3; INX and UNF, a crush. -/
theorem test_block_example :
    (let b := encodeBlock (resolveModes 0 0 0) .e4m3 false (([0x447A0000#32, 0x3A83126F#32, 0x3F000000#32, 0xC0500000#32] ++ List.replicate 28 0#32).map fun w =>
      (f32Dec w, none))
     b.scale = 0x81 ∧ b.codes = [0x78, 0x00, 0x20, 0xB5] ++ List.replicate 28 0 ∧ b.flags = 0x06#5 ∧ b.crushed = true) := by decide +kernel

/-- The Ring-rounded CAST of 07_spore_and_ring.md's worked example: 1 + 2^-8 into BF16 with the lane's first two words. -/
theorem test_stochastic_example :
    (encodeWith .bf16 false true (some 0x80000000#32) ⟨false, 257, 1, -8⟩).1 = 0x3F81 ∧
    (encodeWith .bf16 false true (some 0#32) ⟨false, 257, 1, -8⟩).1 = 0x3F80 := by decide +kernel

/-- 14_determinism_and_replay.md's worked example: four tile sums in the fixed tree give 1.0, with INX. -/
theorem test_tree_example :
    treeT (fadd (resolveModes 0 0 0)) 0#32 [0x4B800000#32, 0x3F800000#32, 0x3F800000#32, 0xCB800000#32] = (0x3F800000#32, 0x04#5) := by decide +kernel

/-- The ABORT of a held command, and the record of one (R300): ended ABORTED, DETAIL 0. -/
theorem test_abort_ends_held :
    (match exec (.abort 1) (aborting (cmd 0 .held [(0, 1, 1), (4, 4, 7)])) with
      | .next t => t.cmds.map (fun d => (d.status, d.detail)) == [(0x40, 0), (0, 1)]
      | _ => false) = true := by decide

/-- TOPK of 2 over [1.0, 3.0, 3.0, 2.0] in FIXED order: indices 1 and 2, the tie by index (R171). -/
theorem test_topk_ties : topkRow .fixed [0x3F800000#32, 0x40400000#32, 0x40400000#32, 0x40000000#32] 2 = [1, 2] := by decide +kernel

/-- 5 ms is 8,000,000 ticks at PLAN_A (00_scope.md). -/
theorem test_duration : ticksUs srv 5000 = 0x7A1200 := by decide

end Sys2Proof.Tests
end

section
/-! SUPPORT. What a completion record leaves of one staged commit (R64, R239). -/

open Sys2Proof Sys2Proof.Machine

namespace Sys2Proof.Laws

/-- An entry reads back as it was put in. -/
theorem mapGet_mapIns_self {α : Type} (d : α) (l : List (Nat × α)) (a : Nat) (x : α) : mapGet d (mapIns l a x) a = x := by
  rw [mapGet_ins, if_pos rfl]

/-- One stream stored: it reads back, and every other stream reads as before. -/
theorem streamOf_of_mapIns {s u : State} {sid : Nat} {x : Stream} (h : u.streams = mapIns s.streams sid x) :
    streamOf u sid = x ∧ ∀ j, j ≠ sid → streamOf u j = streamOf s j := by
  unfold streamOf
  rw [h]
  exact ⟨mapGet_mapIns_self _ _ _ _, fun j hj => by rw [mapGet_ins, if_neg hj]⟩

/-- Tokens appended to a valid history that stays within 4,096 drop nothing (R242). -/
theorem appendTokens_within {st : Stream} {toks : List Nat} (hv : st.histValid = true) (hl : st.hist.length + toks.length ≤ 4096) :
    appendTokens st toks = { st with hist := st.hist ++ toks, histHead := (st.histHead + toks.length) % 4096 } := by
  have hdrop : (st.hist ++ toks).length - min (st.hist ++ toks).length 4096 = 0 := by rw [List.length_append]; omega
  unfold appendTokens
  dsimp only
  rw [hv, hdrop]
  rfl

/-- A step's commit on an open stream with a valid history: its counter set, its tokens appended (R65, R218). -/
theorem applyCommit_step_streams (t : Tick) {s : State} {sid base adv : Nat} {toks : List Nat} (ho : (streamOf s sid).isOpen = true)
    (hv : (streamOf s sid).histValid = true) (hl : (streamOf s sid).hist.length + toks.length ≤ 4096) :
    (applyCommit t s (.step sid base toks adv none)).streams = mapIns s.streams sid { streamOf s sid with
      step := base + adv, hist := (streamOf s sid).hist ++ toks, histHead := ((streamOf s sid).histHead + toks.length) % 4096 } := by
  unfold applyCommit
  dsimp only
  rw [if_neg (by rw [ho]; decide)]
  exact congrArg (mapIns s.streams sid) (appendTokens_within (st := { streamOf s sid with step := base + adv }) hv hl)

/-- The contexts of a cleared save slot are those of other streams (R238). -/
theorem clearSlot_contexts {sid : Nat} {x : Slot} {p} (h : p ∈ (clearSlot sid x).contexts) : p.1 ≠ sid := by
  simpa using (List.mem_filter.1 h).2

/-- A SET_MODE's commit: MODE_CTRL, the cap, and no stream (R304, R341). -/
theorem applyCommit_mode (t : Tick) (s : State) (mask value : Word) (cap : Option Nat) :
    let u := applyCommit t s (.mode mask value cap)
    u.regs.modeCtrl = newMode s.regs.modeCtrl mask value ∧ u.power.cap = cap.getD s.power.cap ∧ u.streams = s.streams := by
  obtain ⟨hregs, hpower, hstreams, -⟩ := askQuiet_parts { s with
    regs := { s.regs with modeCtrl := newMode s.regs.modeCtrl mask value }
    power := { s.power with cap := cap.getD s.power.cap }
    audited := if modeWindow (newMode s.regs.modeCtrl mask value) then s.audited else [] }
  exact ⟨congrArg Regs.modeCtrl hregs, congrArg Power.cap hpower, hstreams⟩

/-- Settles O22: the record of a due command leaves what its one staged commit made (`recordDue_parts`), kind by kind. -/
theorem recordAppliesStagedEffect : Obligations.RecordAppliesStagedEffect := by
  unfold Obligations.RecordAppliesStagedEffect
  intro s id c t k hdue hk
  obtain ⟨hstreams, hvault, hmodels, hmasks, hfunctions, haudited, -, -, -, hmode, hwake, hcap⟩ := recordDue_parts hdue
  rw [hk] at hstreams hvault hmodels hmasks hfunctions haudited hmode hwake hcap
  simp only [List.foldl_cons, List.foldl_nil] at hstreams hvault hmodels hmasks hfunctions haudited hmode hwake hcap
  refine ⟨doCompletionRecordWrite s id t, rfl, ?step, ?openStream, ?closeStream, ?history, ?mode, ?wake, ?priority, ?unloadModel,
    ?mask, ?function⟩
  case step =>
    rintro sid base toks adv rfl ho hv hl
    exact streamOf_of_mapIns (hstreams.trans (applyCommit_step_streams (s := stamp s (max s.now t)) _ ho hv hl))
  case openStream =>
    rintro sid st rfl
    obtain ⟨hself, hother⟩ := streamOf_of_mapIns (s := s) hstreams
    exact ⟨hself, by rw [hvault]; exact mapGet_mapIns_self _ _ _ _, hother⟩
  case closeStream =>
    rintro sid rfl
    obtain ⟨hself, hother⟩ := streamOf_of_mapIns (s := s) hstreams
    refine ⟨hself, by rw [hvault]; exact mapGet_mapIns_self _ _ _ _, ?_, ?_, hother⟩
    · intro p hp
      rw [hvault] at hp
      exact (List.mem_append.1 hp).elim clearSlot_contexts clearSlot_contexts
    · intro r hr
      rw [haudited] at hr
      simpa using (List.mem_filter.1 hr).2
  case history =>
    rintro sid toks rfl
    exact streamOf_of_mapIns (s := s) hstreams
  case mode =>
    rintro mask value cap rfl
    obtain ⟨happlied, hcapped, hsame⟩ := applyCommit_mode (max s.now t) (stamp s (max s.now t)) mask value cap
    obtain ⟨hbits, hbit1⟩ := newMode_bits s.regs.modeCtrl mask value
    rw [hmode, happlied]
    exact ⟨hbits, hbit1, hcap.trans hcapped, hstreams.trans hsame⟩
  case wake =>
    rintro us rfl
    exact ⟨hwake, hstreams⟩
  case priority =>
    rintro mid p rfl
    exact ⟨hmodels, hstreams⟩
  case unloadModel =>
    rintro mid rfl
    exact ⟨hmodels, by rw [hvault]; rfl, hstreams⟩
  case mask =>
    rintro e m rfl
    refine ⟨by rw [hmasks]; exact mapGet_mapIns_self _ _ _ _, by rw [hvault]; exact mapGet_mapIns_self _ _ _ _, fun j hj => ?_, hstreams⟩
    rw [hmasks]
    exact (mapGet_ins _ _ _ _ _).trans (if_neg hj)
  case function =>
    rintro slot im rfl
    exact ⟨by rw [hfunctions]; exact mapGet_mapIns_self _ _ _ _, by rw [hvault]; exact mapGet_mapIns_self _ _ _ _, hstreams⟩

end Sys2Proof.Laws
end

section
/-! SUPPORT. A step command that runs undisturbed: from its start to the run of its rows. -/

open Sys2Proof Sys2Proof.Machine

namespace Sys2Proof.Laws

/-- A field of a stream's entry is a field of the parameter block (Table CMD-12). -/
theorem entryAt_field (b : List Byte) (k o n : Nat) (h : o + n ≤ 64) : fieldAt (entryAt b k) o n = fieldAt b (64 * k + o) n := by
  unfold fieldAt entryAt
  rw [slice_slice _ _ _ _ _ h]

theorem entryAt_sid (b : List Byte) (k : Nat) : fieldAt (entryAt b k) 0 2 = fieldAt b (64 * k) 2 := entryAt_field b k 0 2 (by decide)

theorem leNat_lt (bs : List Byte) : leNat bs < 256 ^ bs.length := by
  induction bs with
  | nil => exact Nat.one_pos
  | cons x xs ih =>
    have hx := x.isLt
    rw [leNat, List.length_cons, Nat.pow_succ]
    omega

theorem fieldAt_lt (b : List Byte) (o n : Nat) : fieldAt b o n < 256 ^ n := by
  have h := leNat_lt (slice b o n)
  have hl : (slice b o n).length = n := by rw [slice_getD]; simp
  rwa [hl] at h

/-- Reading contexts into SRAM changes nothing but chips (R227). -/
theorem withContexts_chips (s : State) (sids : List Nat) : ∃ chips, withContexts s sids = { s with chips := chips } := by
  induction sids generalizing s with
  | nil => exact ⟨s.chips, rfl⟩
  | cons sid sids ih =>
    obtain ⟨chips, h⟩ := ih (cacheStream s sid)
    exact ⟨chips, h⟩

/-- What keeps a step command undisturbed once it has started: its host memory reads, its streams open, its bank entries loaded,
its output areas apart, its input there. -/
structure StepReady (s : State) (c : Cmd) : Prop where
  fine : hostFine s = true
  wf : memoriesWf s = true
  opened : ∀ k, k < pkt c 2 2 → (streamOf s (fieldAt (paramBytes s c) (64 * k) 2)).isOpen = true
  banks : ∀ k, k < pkt c 2 2 → ∀ spec ∈ entrySpecs s c (entryAt (paramBytes s c) k), banksHeld s spec = true
  apart : (outAreas s c).Pairwise fun p q => p.1 + p.2 ≤ q.1 ∨ q.1 + q.2 ≤ p.1
  heads : pkt c 0x2A 1 ≤ 4
  input : takesScores ⟨c.fn, c.ring, c.packet, c.modeCtrl⟩ = true ∨
    ∃ m, modelOf s (pktModel c) = some m ∧ m.state ≠ 4 ∧ overhangGranules m = []

/-- The state in which a step command's rows run: its streams' contexts read in (R227). -/
def steppingState (s : State) (c : Cmd) : State :=
  withContexts s ((List.range (pkt c 2 2)).map fun k => fieldAt (paramBytes s c) (64 * k) 2)

theorem steppingState_chips (s : State) (c : Cmd) : ∃ chips, steppingState s c = { s with chips := chips } := withContexts_chips _ _

/-- The contexts are read in the order of the entries. -/
theorem foldl_cacheStream (s : State) (c : Cmd) :
    ((List.range (pkt c 2 2)).map (entryAt (paramBytes s c))).foldl (fun s e => cacheStream s (fieldAt e 0 2)) s = steppingState s c := by
  unfold steppingState withContexts
  rw [List.foldl_map, List.foldl_map]
  simp only [entryAt_sid]

/-- The rows of a step command with its model held run in the environment of the model, or of its score rows. -/
theorem doStepOp_run {s : State} {id op : Nat} {c : Cmd} (hc : startedCmd s id op = some c) (h : StepReady s c) :
    ∃ flags, doStepOp s id op [] =
      runSteps (steppingState s c) c (paramBytes s c) (stepEnvOf (steppingState s c) c) flags [] := by
  obtain ⟨chips, hs1⟩ := steppingState_chips s c
  have hfine : hostFine (steppingState s c) = true := by rw [hs1]; exact h.fine
  have hopen : (((List.range (pkt c 2 2)).map (entryAt (paramBytes s c))).any fun e =>
      !(streamOf (steppingState s c) (fieldAt e 0 2)).isOpen) = false := by
    rw [List.any_eq_false]
    intro e he
    obtain ⟨k, hk, rfl⟩ := List.mem_map.1 he
    rw [entryAt_sid, hs1]
    have : (streamOf { s with chips := chips } (fieldAt (paramBytes s c) (64 * k) 2)).isOpen = true :=
      h.opened k (List.mem_range.1 hk)
    rw [this]
    decide
  have hbanks : (((List.range (pkt c 2 2)).map (entryAt (paramBytes s c))).any fun e =>
      (entrySpecs (steppingState s c) c e).any fun spec => !banksHeld (steppingState s c) spec) = false := by
    rw [List.any_eq_false]
    intro e he
    obtain ⟨k, hk, rfl⟩ := List.mem_map.1 he
    rw [Bool.not_eq_true, List.any_eq_false]
    intro spec hspec
    rw [hs1] at hspec ⊢
    have : banksHeld { s with chips := chips } spec = true := h.banks k (List.mem_range.1 hk) spec hspec
    rw [this]
    decide
  have hreads : ∀ l : List (Nat × Nat × Nat),
      (l.find? fun p => p.2.2 != 0 && !hostOk (steppingState s c) (p.1 + p.2.1) p.2.2) = none := by
    intro l
    rw [List.find?_eq_none]
    intro p _
    rw [hostOk_of_fine hfine]
    simp
  unfold doStepOp
  rw [onCmd_of_started hc, withParams_of_fine h.fine]
  dsimp only
  rw [foldl_cacheStream, hreads]
  dsimp only
  rw [if_neg (by rw [hopen]; decide), if_neg (by rw [hbanks]; decide)]
  unfold stepEnvOf
  dsimp only
  split
  · exact ⟨0, rfl⟩
  · rename_i hscores
    obtain ⟨m, hm, hstate, hover⟩ := h.input.resolve_left hscores
    have hm1 : modelOf (steppingState s c) (pktModel c) = some m := by rw [hs1]; exact hm
    rw [hm1]
    dsimp only
    unfold stepModel
    rw [if_neg hstate, hover]
    exact ⟨_, rfl⟩

/-- LOOKAHEAD takes no score rows: it has a model (R219). -/
theorem stepEnvOf_model {s : State} {c : Cmd} (h : StepReady s c) (hp : pktOp c = 0x33) :
    (stepEnvOf (steppingState s c) c).model ≠ none := by
  obtain ⟨chips, hs1⟩ := steppingState_chips s c
  have hscores : takesScores ⟨c.fn, c.ring, c.packet, c.modeCtrl⟩ = false := by
    have : (Req.mk c.fn c.ring c.packet c.modeCtrl).op = 0x33 := hp
    unfold takesScores
    rw [this]
    rfl
  obtain ⟨m, hm, -, -⟩ := h.input.resolve_left (by rw [hscores]; decide)
  have hm1 : modelOf (steppingState s c) (pktModel c) = some m := by rw [hs1]; exact hm
  unfold stepEnvOf
  dsimp only
  rw [hscores, if_neg (by decide), hm1]
  exact Option.some_ne_none m

theorem stepEnvOf_diverged (s : State) (c : Cmd) : (stepEnvOf s c).diverged = [] := by
  unfold stepEnvOf
  dsimp only
  split
  · rfl
  · split <;> rfl

end Sys2Proof.Laws
end

section
/-! SUPPORT. The token that a row gets: it is a candidate where the row has candidates (R63, R203 to R209). -/

open Sys2Proof Sys2Proof.Machine

namespace Sys2Proof.Laws

/-! ## Draws among candidates -/

/-- A token is a candidate of a row that has candidates. -/
def tokenFound (out : RowOut) (t : Nat) : Prop := out.sel ≠ [] → ∃ x ∈ out.sel, x.idx = t

theorem greedyToken_found (out : RowOut) : tokenFound out (greedyToken out) := by
  unfold tokenFound greedyToken
  intro h
  cases hs : out.sel with
  | nil => exact absurd hs h
  | cons e rest => exact ⟨e, List.mem_cons_self, rfl⟩

/-- One step of the search for the runner with the largest key. -/
def raceStep (b : Option Runner) (r : Runner) : Option Runner :=
  match b with
  | none => some r
  | some x => if dyLt x.key r.key then some r else b

theorem foldl_raceStep_mem (l : List Runner) (x : Runner) :
    ∃ y, l.foldl raceStep (some x) = some y ∧ y ∈ x :: l := by
  induction l generalizing x with
  | nil => exact ⟨x, rfl, List.mem_cons_self⟩
  | cons r l ih =>
    rw [List.foldl_cons]
    by_cases hlt : dyLt x.key r.key = true
    · rw [show raceStep (some x) r = some r from if_pos hlt]
      obtain ⟨y, hy, hmem⟩ := ih r
      exact ⟨y, hy, List.mem_cons_of_mem _ hmem⟩
    · rw [show raceStep (some x) r = some x from if_neg hlt]
      obtain ⟨y, hy, hmem⟩ := ih x
      refine ⟨y, hy, ?_⟩
      rcases List.mem_cons.1 hmem with rfl | hmem
      · exact List.mem_cons_self
      · exact List.mem_cons_of_mem _ (List.mem_cons_of_mem _ hmem)

theorem foldl_min_mem (l : List Nat) (a : Nat) : l.foldl min a ∈ a :: l := by
  induction l generalizing a with
  | nil => exact List.mem_cons_self
  | cons x l ih =>
    rw [List.foldl_cons]
    rcases List.mem_cons.1 (ih (min a x)) with h | h
    · rw [h]
      rcases Nat.le_total a x with hax | hxa
      · rw [Nat.min_eq_left hax]; exact List.mem_cons_self
      · rw [Nat.min_eq_right hxa]; exact List.mem_cons_of_mem _ List.mem_cons_self
    · exact List.mem_cons_of_mem _ (List.mem_cons_of_mem _ h)

theorem nth_mem_cons {α : Type} (d : α) (l : List α) (i : Nat) : nth d l i ∈ d :: l := by
  unfold nth
  rw [List.getD_eq_getElem?_getD]
  cases h : l[i]? with
  | none => exact List.mem_cons_self
  | some x => exact List.mem_cons_of_mem _ (List.mem_of_getElem? h)

/-- The winner of a race is one of its runners, in either order (R205). -/
theorem raceWinner_mem (o : Order) (l : List Runner) (h : l ≠ []) : ∃ r ∈ l, r.idx = raceWinner o l := by
  cases l with
  | nil => exact absurd rfl h
  | cons x rest =>
    obtain ⟨best, hbest, hmem⟩ := foldl_raceStep_mem rest x
    generalize hl : x :: rest = l at hmem
    have hfold : l.foldl raceStep none = some best := by rw [← hl]; exact hbest
    generalize htied : ((l.filter fun r => !dyLt r.key best.key).map fun r => r.idx) = tied
    have hwin : raceWinner o l ∈ best.idx :: tied := by
      unfold raceWinner
      change (match l.foldl raceStep none with | none => _ | some b => _) ∈ _
      rw [hfold]
      dsimp only
      rw [htied]
      cases o with
      | fixed => exact foldl_min_mem _ _
      | free p => exact nth_mem_cons _ _ _
    rcases List.mem_cons.1 hwin with hw | hw
    · exact ⟨best, hmem, hw.symm⟩
    · rw [← htied] at hw
      obtain ⟨r, hr, hidx⟩ := List.mem_map.1 hw
      exact ⟨r, (List.mem_filter.1 hr).1, hidx⟩

/-- A race over candidates is won by one of them (R203). -/
theorem race_mem (o : Order) (rc : RunCfg) (md : Modes) (seed : Qword) (sid step draft purpose : Nat) (cands : List (Nat × Word))
    (h : cands ≠ []) : ∃ p ∈ cands, p.1 = (race o rc md seed sid step draft purpose cands).1 := by
  unfold race
  dsimp only
  obtain ⟨r, hr, hwin⟩ := raceWinner_mem o _ (fun e => h (List.map_eq_nil_iff.1 (List.map_eq_nil_iff.1 e)))
  rw [← hwin]
  obtain ⟨x, hx, rfl⟩ := List.mem_map.1 hr
  obtain ⟨p, hp, rfl⟩ := List.mem_map.1 hx
  exact ⟨p, hp, rfl⟩

theorem cdfWalk_mem (target : Word) (last : Nat) (c : Word) (l : List (Nat × Word)) :
    cdfWalk target last c l ∈ last :: l.map fun p => p.1 := by
  induction l generalizing c with
  | nil => exact List.mem_cons_self
  | cons p l ih =>
    obtain ⟨i, w⟩ := p
    unfold cdfWalk
    dsimp only
    split
    · exact List.mem_cons_of_mem _ List.mem_cons_self
    · rcases List.mem_cons.1 (ih (fadd iv1Modes c w).1) with h | h
      · rw [h]; exact List.mem_cons_self
      · exact List.mem_cons_of_mem _ (List.mem_cons_of_mem _ h)

/-- The IV-1 walk ends at one of its candidates, the last where the target is not reached (R209). -/
theorem iv1Draw_mem (word : Word) (cands : List (Nat × Word)) (h : cands ≠ []) : ∃ p ∈ cands, p.1 = (iv1Draw word cands).1 := by
  unfold iv1Draw
  dsimp only
  rw [List.getLast?_eq_some_getLast h]
  rcases List.mem_cons.1 (cdfWalk_mem _ _ 0#32 cands) with hw | hw
  · exact ⟨cands.getLast h, List.getLast_mem h, hw.symm⟩
  · obtain ⟨p, hp, hidx⟩ := List.mem_map.1 hw
    exact ⟨p, hp, hidx⟩

/-! ## Rows that carry a token -/

/-- A row without NaN and with a score above −inf reaches its cut (R63, R68). -/
theorem runRow_reaches_cut {sc : StreamCfg} {rc : RunCfg} {inp : RowInput} (h : drawsToken (runRow sc rc inp)) :
    ∃ out, runRow sc rc inp = if sc.compat then cutStageIv1 sc rc out else cutStage sc rc out := by
  have hfinals := runRow_finals sc rc inp
  obtain ⟨hnan, w, hw, hne⟩ := h
  rw [hfinals] at hnan hw
  have hany : (finalRow sc rc inp).any isNan32 = false := by
    rw [List.any_eq_false]
    intro x hx
    rw [hnan x hx]
    decide
  have hall : ((finalRow sc rc inp).all fun x => x == ninf32) = false := by
    rw [List.all_eq_false]
    exact ⟨w, hw, by simpa using hne⟩
  unfold runRow
  cases inp <;>
  · dsimp only [finalRow] at hany hall ⊢
    rw [if_neg (by rw [hany]; decide), if_neg (by rw [hall]; decide)]
    exact ⟨_, rfl⟩

theorem cutStage_status (sc : StreamCfg) (rc : RunCfg) (out : RowOut) :
    (cutStage sc rc out).status = 0 ∨ (cutStage sc rc out).status = 0x13 := by
  unfold cutStage
  dsimp only
  split
  · exact .inr rfl
  · exact .inl rfl

/-- Under IV1_COMPAT the weights of a row are those of its candidates (R401). -/
theorem cutStageIv1_weights (sc : StreamCfg) (rc : RunCfg) (out : RowOut) :
    ((cutStageIv1 sc rc out).weights.map fun p => p.1) = (cutStageIv1 sc rc out).sel.map fun e => e.idx := by
  unfold cutStageIv1
  dsimp only
  rw [List.map_map, List.map_map]
  rfl

/-- What a row that draws leaves for stage 12: status OK or CAND_TRUNC, under IV1_COMPAT one weight for each candidate. -/
structure RowDraws (sc : StreamCfg) (out : RowOut) : Prop where
  status : out.status = 0 ∨ out.status = 0x13
  weights : sc.compat = true → (out.weights.map fun p => p.1) = out.sel.map fun e => e.idx

theorem runRow_draws {sc : StreamCfg} {rc : RunCfg} {inp : RowInput} (h : drawsToken (runRow sc rc inp)) :
    RowDraws sc (runRow sc rc inp) := by
  obtain ⟨out, hrow⟩ := runRow_reaches_cut h
  rw [hrow]
  cases hcompat : sc.compat with
  | true => exact ⟨.inl rfl, fun _ => cutStageIv1_weights sc rc out⟩
  | false => exact ⟨cutStage_status sc rc out, fun h => by cases h.symm.trans hcompat⟩

theorem RowDraws.hasToken {sc : StreamCfg} {out : RowOut} (h : RowDraws sc out) : rowHasToken out = true := by
  unfold rowHasToken
  rcases h.status with h | h <;> rw [h] <;> rfl

/-- A list of pairs whose first parts are the candidates' indices, in some order: what is picked from it is found. -/
theorem tokenFound_of_perm {out : RowOut} {cands : List (Nat × Word)} {t : Nat}
    (hp : (cands.map fun p => p.1).Perm (out.sel.map fun e => e.idx)) (ht : cands ≠ [] → ∃ p ∈ cands, p.1 = t) : tokenFound out t := by
  intro hsel
  have hne : cands ≠ [] := by
    intro e
    rw [e] at hp
    exact hsel (List.map_eq_nil_iff.1 hp.symm.eq_nil)
  obtain ⟨p, hmem, rfl⟩ := ht hne
  exact List.mem_map.1 (hp.mem_iff.1 (List.mem_map.2 ⟨p, hmem, rfl⟩))

theorem candScores_perm (out : RowOut) : ((candScores out).map fun p => p.1).Perm (out.sel.map fun e => e.idx) := by
  unfold candScores
  rw [List.map_map]
  exact (sortBy_perm _ _).map _

/-! ## Results that carry a token -/

/-- A stream's result carries a token: ROW_STATUS OK or CAND_TRUNC in its entry, and its token, its history tokens and its
advance as a rule says. -/
def resultDraws (rule : Nat → List Nat → Nat → Prop) (r : StreamResult) : Prop :=
  ∃ v ext, r.entry = entryBytes v ++ ext ∧ (v.rowStatus = 0 ∨ v.rowStatus = 0x13) ∧ r.advance ≠ 0 ∧ rule v.token r.tokens r.advance

/-- A STEP appends its one token, a candidate of its row. -/
def stepRule (out : RowOut) (t : Nat) (toks : List Nat) (adv : Nat) : Prop := toks = [t] ∧ adv = 1 ∧ tokenFound out t

/-- A HOST_DRAW only advances; its token is a candidate of its row. -/
def hostRule (out : RowOut) (t : Nat) (toks : List Nat) (adv : Nat) : Prop := toks = [] ∧ adv = 1 ∧ tokenFound out t

/-- A VERIFY appends tokens that end in its token. -/
def verifyRule (t : Nat) (toks : List Nat) (adv : Nat) : Prop := toks.getLast? = some t ∧ toks.length = adv ∧ 1 ≤ adv

theorem stepResult_draws {d : DrawCtx} {out : RowOut} (rc : RunCfg) (ring : Qword) (h : RowDraws d.cfg out) :
    resultDraws (stepRule out) (stepResult d rc out ring) := by
  unfold stepResult
  rw [if_neg (by rw [h.hasToken]; decide)]
  split
  rename_i token recs ring' hdraw
  refine ⟨(tokenVals d out token).1, [], (List.append_nil _).symm, h.status, Nat.one_ne_zero, rfl, rfl, ?_⟩
  split at hdraw
  · cases hdraw
    exact greedyToken_found out
  · split at hdraw
    · rename_i hcompat
      cases hdraw
      refine tokenFound_of_perm ?_ (iv1Draw_mem _ _)
      exact ((sortBy_perm _ _).map _).trans (by rw [h.weights hcompat])
    · cases hdraw
      exact tokenFound_of_perm (candScores_perm out) (race_mem _ _ _ _ _ _ _ _ _)

theorem hostDrawResult_draws {d : DrawCtx} {out : RowOut} (rc : RunCfg) (k cap : Nat) (h : RowDraws d.cfg out) :
    resultDraws (hostRule out) (hostDrawResult d rc out k cap) := by
  unfold hostDrawResult
  dsimp only
  rw [if_neg (by rw [h.hasToken]; decide)]
  exact ⟨(tokenVals d out (greedyToken out)).1, _, rfl, h.status, Nat.one_ne_zero, rfl, rfl, greedyToken_found out⟩

/-- A LOOKAHEAD's main row is drawn as a STEP's (R219). -/
theorem lookaheadResult_draws {d : DrawCtx} {out : RowOut} (rc : RunCfg) (m : ScoreModel) (hc : StreamCfg) (rope : List Word)
    (maps : List (List (List Byte))) (pos : Nat) (h : RowDraws d.cfg out) :
    resultDraws (stepRule out) (lookaheadResult d rc m hc rope maps pos out).1 := by
  obtain ⟨v, ext, hentry, hstatus, hadv, hrule⟩ := stepResult_draws rc 0#128 h
  unfold lookaheadResult
  dsimp only
  rw [if_neg (by rw [h.hasToken]; decide)]
  exact ⟨v, ext ++ _, by dsimp only; rw [hentry, List.append_assoc], hstatus, hadv, hrule⟩

/-- The walk stops at one of its rows (R217). -/
theorem verifyWalk_stop_lt (d : DrawCtx) (rc : RunCfg) (rows : List RowOut) (drafts : List Draft) (j : Nat)
    (h : rows.length = drafts.length + 1) : (verifyWalk d rc j rows drafts).stop < j + rows.length := by
  induction rows generalizing drafts j with
  | nil => simp at h
  | cons out rest ih =>
    unfold verifyWalk
    dsimp only
    split
    · simp
    · cases drafts with
      | nil => simp
      | cons dr drs =>
        have hl : rest.length = drs.length + 1 := by simpa using h
        have hrest := ih drs (j + 1) hl
        dsimp only
        generalize (if isGreedy d.cfg = true then decide (greedyToken out = dr.token) else _ : Bool) = ok
        rw [List.length_cons]
        cases ok with
        | true => simp only [if_true]; omega
        | false => simp

theorem verifyResult_draws (d : DrawCtx) (rc : RunCfg) (outs : List RowOut) (drafts : List Draft)
    (hlen : outs.length = drafts.length + 1) (h : ∀ out ∈ outs, rowHasToken out = true) :
    resultDraws verifyRule (verifyResult d rc outs drafts) := by
  have hstop := verifyWalk_stop_lt d rc outs drafts 0 hlen
  obtain ⟨-, -, hne⟩ := verifyWalk_spec d rc outs drafts 0 hlen
  unfold verifyResult
  dsimp only
  generalize verifyWalk d rc 0 outs drafts = w at hstop hne ⊢
  rw [Nat.zero_add] at hstop
  have htoken : rowHasToken (nth rowBlank outs w.stop) = true := by
    unfold nth
    rw [List.getD_eq_getElem?_getD, List.getElem?_eq_getElem hstop, Option.getD_some]
    exact h _ (List.getElem_mem hstop)
  have hne : w.tokens ≠ [] := hne htoken
  rw [if_neg (by rw [htoken]; decide)]
  have hpos := List.length_pos_iff.2 hne
  refine ⟨{ (tokenVals d (nth rowBlank outs w.stop) (w.tokens.getLast?.getD noToken)).1 with
    rowStatus := if w.truncSeen then 0x13 else 0 }, _, rfl, ?_, Nat.ne_of_gt hpos, ?_, rfl, hpos⟩
  · dsimp only
    split
    · exact .inr rfl
    · exact .inl rfl
  · show w.tokens.getLast? = some (w.tokens.getLast?.getD noToken)
    rw [List.getLast?_eq_some_getLast hne]
    rfl

end Sys2Proof.Laws
end

section
/-! SUPPORT. The results of a step command's streams: which carry a token, what they write and what they stage (R59, R63, R65). -/

open Sys2Proof Sys2Proof.Machine

namespace Sys2Proof.Laws

/-- The opcodes of the step commands. -/
abbrev stepOps (op : Nat) : Prop := op = 0x30 ∨ op = 0x31 ∨ op = 0x32 ∨ op = 0x33 ∨ op = 0x34

theorem isStepOp_of_stepOps {op : Nat} (h : stepOps op) : isStepOp op = true := by
  rcases h with rfl | rfl | rfl | rfl | rfl <;> rfl

/-! ## One stream -/

/-- The configuration of the row of entry e, with its own mask specification. -/
def mainCfg (s : State) (c : Cmd) (v : StepEnv) (e : List Byte) : StreamCfg :=
  let st := steppedStream s c (fieldAt e 0 2)
  rowCfgOf s v st (specInForce st.maskSpec (fieldAt e 0x10 8)) (fieldAt e 0x18 8)

theorem mainRow_draws {s : State} {c : Cmd} {v : StepEnv} {k : Nat} {e : List Byte} (h : drawsToken (mainRow s c v k e)) :
    RowDraws (mainCfg s c v e) (mainRow s c v k e) := runRow_draws h

/-- The rule by which a stream of an opcode draws its token from its row. -/
def drawRule (op : Nat) (out : RowOut) : Nat → List Nat → Nat → Prop :=
  if op = 0x32 then verifyRule else if op = 0x34 then hostRule out else stepRule out

/-- The rows of an entry have a token to draw: its main row, for VERIFY the rows of all its positions (R63, R212). -/
def entryDraws (s : State) (c : Cmd) (v : StepEnv) (k : Nat) (e : List Byte) : Prop :=
  if pktOp c = 0x32 then ∀ j, j ≤ fieldAt e 3 1 → drawsToken (verifyRow s c v k e j) else drawsToken (mainRow s c v k e)

/-- A stream whose counter is not exhausted and whose rows have a token to draw gets one. -/
theorem stepOne_draws {s : State} {c : Cmd} {v : StepEnv} {k op : Nat} {e : List Byte} (hp : pktOp c = op) (hop : stepOps op)
    (hd : v.diverged = []) (hm : op = 0x33 → v.model ≠ none)
    (hx : stepExhausted op (steppedStream s c (fieldAt e 0 2)) (fieldAt e 3 1) = false) (hdraw : entryDraws s c v k e) :
    resultDraws (drawRule op (mainRow s c v k e)) (stepOne s c v k e).1 := by
  have hdiv : v.diverged.contains (fieldAt e 0 2) = false := by rw [hd]; rfl
  have hrow : op ≠ 0x32 → RowDraws (mainCfg s c v e) (mainRow s c v k e) := fun h => by
    rw [entryDraws, hp, if_neg h] at hdraw
    exact mainRow_draws hdraw
  have hrows : op = 0x32 → ∀ out ∈ (List.range (fieldAt e 3 1 + 1)).map (verifyRow s c v k e), rowHasToken out = true := by
    intro h out hout
    rw [entryDraws, hp, if_pos h] at hdraw
    obtain ⟨j, hj, rfl⟩ := List.mem_map.1 hout
    exact (runRow_draws (hdraw j (Nat.le_of_lt_succ (List.mem_range.1 hj)))).hasToken
  unfold mainCfg at hrow
  unfold stepOne
  dsimp only at hrow ⊢
  rw [hp, hx, hdiv]
  generalize mainRow s c v k e = out at hrow ⊢
  generalize entryRun s c v k e = rc
  generalize rowCfgOf s v _ _ (fieldAt e 0x18 8) = cfg at hrow ⊢
  simp only [Bool.false_and, Bool.false_eq_true, if_false]
  generalize hdc : DrawCtx.mk _ _ _ cfg (pkt c 0x28 1) (runBits c false) = d
  have hcfg : op ≠ 0x32 → RowDraws d.cfg out := by rw [← hdc]; exact hrow
  rcases hop with rfl | rfl | rfl | rfl | rfl
  · exact stepResult_draws rc _ (hcfg (by decide))
  · exact stepResult_draws rc _ (hcfg (by decide))
  · exact verifyResult_draws _ rc _ _ (by simp [entryDrafts]) (hrows rfl)
  · obtain ⟨m, hv⟩ := Option.ne_none_iff_exists'.1 (hm rfl)
    rw [hv]
    exact lookaheadResult_draws rc (scoreModel m) { cfg with mask := if bit (pkt c 0x29 1) 0 then cfg.mask else none }
      m.rope (m.heads.take (pkt c 0x2A 1)) (fieldAt e 4 4) (hcfg (by decide))
  · exact hostDrawResult_draws rc _ _ (hcfg (by decide))

/-! ## The whole command -/

/-- All that the streams of a step command write. -/
def stepAllWrites (s : State) (c : Cmd) (b : List Byte) (v : StepEnv) : List (Nat × List Byte) :=
  (List.range (pkt c 2 2)).flatMap fun k => stepWrites c k (stepOne s c v k (entryAt b k)).1 (stepOne s c v k (entryAt b k)).2

/-- What stream k of a step command stages. -/
def stepStaged (s : State) (c : Cmd) (b : List Byte) (v : StepEnv) (k : Nat) : List Commit :=
  stepCommits s c v.len (entryAt b k) (stepOne s c v k (entryAt b k)).1

/-- A run of the rows writes, records flags and finishes its command with what the streams stage. -/
theorem runSteps_eq (s : State) (c : Cmd) (b : List Byte) (v : StepEnv) (flags : Nat) : ∃ recs clamp detail fl, detail ≤ pkt c 2 2 ∧
    runSteps s c b v flags [] = finishCmd (nextFree (recordFlags (writeAll s (stepAllWrites s c b v)) recs clamp)) c.id 0 detail fl
      ((List.range (pkt c 2 2)).flatMap (stepStaged s c b v)) := by
  have hrows : ((withIndex ((List.range (pkt c 2 2)).map (entryAt b))).map fun (k, e) => (k, e, stepOne s c v k e)) =
      (List.range (pkt c 2 2)).map fun k => (k, entryAt b k, stepOne s c v k (entryAt b k)) := by
    rw [withIndex_range, List.map_map]
    rfl
  unfold runSteps
  dsimp only
  rw [hrows, List.foldl_map, foldWriteSteps c (fun k => stepOne s c v k (entryAt b k)) (List.range (pkt c 2 2)) s, List.flatMap_map, List.flatMap_map]
  refine ⟨_, _, _, _, ?_, rfl⟩
  calc _ ≤ _ := List.length_filter_le _ _
    _ = pkt c 2 2 := by rw [List.length_map, List.length_range]

/-- The run of an undisturbed command's rows: it writes in its areas, stages what its streams stage, and each entry in host memory
is as its stream's result has it. -/
theorem runSteps_results {s : State} {c : Cmd} {b : List Byte} {v : StepEnv} (flags : Nat) (hop : stepOps (pktOp c))
    (hheads : pkt c 0x2A 1 ≤ 4) (hd : v.diverged = []) (hm : pktOp c = 0x33 → v.model ≠ none) (hw : memoriesWf s = true)
    (ht : trainedLinks s ≠ []) (hap : (outAreas s c).Pairwise fun p q => p.1 + p.2 ≤ q.1 ∨ q.1 + q.2 ≤ p.1) :
    ∃ detail fl, detail ≤ pkt c 2 2 ∧
      ranTo s (runSteps s c b v flags []) c.id 0 detail fl ((List.range (pkt c 2 2)).flatMap (stepStaged s c b v)) ∧
      sameOutside (outAreas s c) s (runSteps s c b v flags []) ∧ onlyRan s (runSteps s c b v flags []) ∧
      ∀ k, k < pkt c 2 2 → ∀ w ext, (stepOne s c v k (entryAt b k)).1.entry = entryBytes w ++ ext →
        hostBytes (runSteps s c b v flags []) (pkt c 0x20 8 + k * entryStride (pktOp c)) 160 = entryBytes w := by
  have hok := fun k (_ : k < pkt c 2 2) => stepOne_ok s c v k (entryAt b k) _ rfl hop hd hm
  have hin : ∀ x ∈ stepAllWrites s c b v, ∃ p ∈ outAreas s c, p.1 ≤ x.1 ∧ x.1 + x.2.length ≤ p.1 + p.2 := by
    intro x hx
    obtain ⟨k, hk, hx⟩ := List.mem_flatMap.1 hx
    obtain ⟨hres, hcount, hlen, hnone⟩ := hok k (List.mem_range.1 hk)
    exact stepWrites_inside s c _ _ k _ _ _ rfl rfl hop (List.mem_range.1 hk) hheads _ _ hres hcount hlen hnone x hx
  obtain ⟨hsame, -, honly, hcmds⟩ := writeAll_ran (outAreas s c) (stepAllWrites s c b v) hin s hw ht
  obtain ⟨recs, clamp, detail, fl, hdetail, hrun⟩ := runSteps_eq s c b v flags
  obtain ⟨honlyFlags, hhost, hcmdsFlags⟩ := onlyRan_recordFlags (writeAll s (stepAllWrites s c b v)) recs clamp
  have hhostRun : (runSteps s c b v flags []).host = (writeAll s (stepAllWrites s c b v)).host := by rw [hrun]; exact hhost
  refine ⟨detail, fl, hdetail, ?_, fun a ha => ?_, ?_, fun k hk w ext hentry => ?_⟩
  · rw [hrun]
    exact ranTo_finish (hcmdsFlags.trans hcmds) _ _ _ _ _
  · rw [hhostRun]
    exact hsame a ha
  · rw [hrun]
    exact onlyRan_finish (onlyRan_trans honly honlyFlags) _ _ _ _ _
  · have hmem : (pkt c 0x20 8 + k * entryStride (pktOp c), (stepOne s c v k (entryAt b k)).1.entry) ∈ stepAllWrites s c b v :=
      List.mem_flatMap.2 ⟨k, List.mem_range.2 hk, List.mem_cons_self⟩
    have hread := writeAll_read _ _ hmem
      (entry_apart s c _ _ rfl rfl hop hheads hap (fun k => stepOne s c v k (entryAt b k)) _ _ _ hok k hk) s hw ht
    have hpart := memBytes_part _ _ _ 0 160 _ hread (by rw [hentry, List.length_append, entryBytes_length]; omega)
    unfold hostBytes
    rw [hhostRun]
    refine hpart.trans ?_
    rw [hentry, ← entryBytes_length w, slice_all]

/-- A staged step counts from the counter its stream had when it ran (R65, R218). -/
theorem stepStaged_base {s : State} {c : Cmd} {b : List Byte} {v : StepEnv} {k j base adv : Nat} {toks : List Nat} {ring : Option Qword}
    (h : Commit.step j base toks adv ring ∈ stepStaged s c b v k) :
    base = (steppedStream s c (fieldAt (entryAt b k) 0 2)).step := by
  unfold stepStaged stepCommits auditCommit at h
  dsimp only at h
  rcases List.mem_append.1 h with h | h
  · rcases List.mem_append.1 h with h | h <;>
    · split at h
      · cases List.mem_singleton.1 h
      · cases h
  · split at h
    · cases h
    · cases List.mem_singleton.1 h
      rfl

/-- ROW_STATUS of an entry (Table PIPE-4). -/
theorem entryBytes_status (v : EntryVals) : fieldAt (entryBytes v) 26 1 = v.rowStatus % 2 ^ 8 := by
  rw [entryBytes_segs]
  exact fieldAt_segs ((entrySegs v).take 6) ((entrySegs v).drop 7) 1 v.rowStatus 26 _ (by simp only [entrySegs, List.take, segLen])

end Sys2Proof.Laws
end

section
/-! The five step commands settled: what they write and stage, and that they draw (02_step_pipeline.md). -/

open Sys2Proof Sys2Proof.Machine

namespace Sys2Proof.Laws

/-- What the rows of a ready command need of the state they run in. -/
theorem steppingState_ready {s : State} {c : Cmd} (h : StepReady s c) (hop : stepOps (pktOp c)) :
    memoriesWf (steppingState s c) = true ∧ trainedLinks (steppingState s c) ≠ [] ∧
    outAreas (steppingState s c) c = outAreas s c := by
  obtain ⟨chips, hs1⟩ := steppingState_chips s c
  have hstep := isStepOp_of_stepOps hop
  rw [outAreas_step _ _ hstep, outAreas_step _ _ hstep, hs1]
  exact ⟨h.wf, trained_of_fine h.fine, rfl⟩

/-- The context of a stream as its rows see it: as at acceptance, with what earlier steps have committed since (R36, R45). -/
theorem steppedStream_step (s : State) (c : Cmd) (b : List Byte) (k : Nat) :
    (steppedStream (steppingState s c) c (fieldAt (entryAt b k) 0 2)).step =
      (mapGet (streamOf s (fieldAt b (64 * k) 2)) c.ctxs (fieldAt b (64 * k) 2)).step := by
  obtain ⟨chips, hs1⟩ := steppingState_chips s c
  rw [hs1, entryAt_sid]
  rfl

/-- Stream k of a ready command: its result and what it stages. -/
def readyResult (s : State) (c : Cmd) (k : Nat) : StreamResult :=
  (stepOne (steppingState s c) c (stepEnvOf (steppingState s c) c) k (entryAt (paramBytes s c) k)).1

def readyStaged (s : State) (c : Cmd) (k : Nat) : List Commit :=
  stepStaged (steppingState s c) c (paramBytes s c) (stepEnvOf (steppingState s c) c) k

/-- A ready step command: it ends OK with its streams' commits staged, writes in its areas, and each entry in host memory is as its
stream's result has it. -/
theorem doStepOp_results {s : State} {id : Nat} {c : Cmd} (hc : startedCmd s id (pktOp c) = some c) (hop : stepOps (pktOp c))
    (h : StepReady s c) :
    ∃ u detail fl, doStepOp s id (pktOp c) [] = u ∧ detail ≤ pkt c 2 2 ∧
      ranTo s u id 0 detail fl ((List.range (pkt c 2 2)).flatMap (readyStaged s c)) ∧
      sameOutside (outAreas s c) s u ∧ onlyRan (steppingState s c) u ∧
      ∀ k, k < pkt c 2 2 → ∀ w ext, (readyResult s c k).entry = entryBytes w ++ ext →
        hostBytes u (pkt c 0x20 8 + k * entryStride (pktOp c)) 160 = entryBytes w := by
  obtain ⟨-, rfl, -, -⟩ := startedCmd_spec hc
  obtain ⟨chips, hs1⟩ := steppingState_chips s c
  obtain ⟨hwf, htrained, hareas⟩ := steppingState_ready h hop
  obtain ⟨flags, hrun⟩ := doStepOp_run hc h
  obtain ⟨detail, fl, hdetail, hran, hsame, honly, hentries⟩ := runSteps_results (b := paramBytes s c) flags hop h.heads
    (stepEnvOf_diverged _ c) (stepEnvOf_model h) hwf htrained (hareas ▸ h.apart)
  refine ⟨_, detail, fl, hrun, hdetail, ?_, ?_, honly, hentries⟩
  · have hcmds : (steppingState s c).cmds = s.cmds := by rw [hs1]
    unfold ranTo at hran ⊢
    rw [hcmds] at hran
    exact hran
  · have hhost : (steppingState s c).host = s.host := by rw [hs1]
    unfold sameOutside at hsame ⊢
    rw [hareas, hhost] at hsame
    exact hsame

/-- What stream k of a ready command stages: its own steps, counted from its S0, and audit marks (R65, R218). -/
theorem readyStaged_kinds (s : State) (c : Cmd) (k : Nat) : ∀ x ∈ readyStaged s c k,
    match x with
    | .step j base _ _ _ => j = fieldAt (paramBytes s c) (64 * k) 2 ∧
        base = (mapGet (streamOf s (fieldAt (paramBytes s c) (64 * k) 2)) c.ctxs (fieldAt (paramBytes s c) (64 * k) 2)).step
    | .audit j _ _ _ _ _ _ _ _ _ _ _ => j = fieldAt (paramBytes s c) (64 * k) 2
    | .clearAudit j => j = fieldAt (paramBytes s c) (64 * k) 2
    | _ => False := by
  intro x hx
  have hkind := (stepCommits_spec _ _ _ _ _ _ (entryAt_sid (paramBytes s c) k)).1 x hx
  cases x
  case step => exact ⟨hkind, (stepStaged_base hx).trans (steppedStream_step s c _ k)⟩
  all_goals exact hkind

/-- A stream that advances stages its tokens from its S0; one that does not stages no step. -/
theorem readyStaged_step (s : State) (c : Cmd) (k : Nat) :
    ((readyResult s c k).advance = 0 →
      ∀ base toks adv ring, Commit.step (fieldAt (paramBytes s c) (64 * k) 2) base toks adv ring ∉ readyStaged s c k) ∧
    ((readyResult s c k).advance ≠ 0 →
      Commit.step (fieldAt (paramBytes s c) (64 * k) 2)
        (mapGet (streamOf s (fieldAt (paramBytes s c) (64 * k) 2)) c.ctxs (fieldAt (paramBytes s c) (64 * k) 2)).step
        (readyResult s c k).tokens (readyResult s c k).advance (readyResult s c k).ring ∈ readyStaged s c k) := by
  obtain ⟨-, hnone, hsome⟩ := stepCommits_spec (steppingState s c) c (stepEnvOf (steppingState s c) c).len
    (entryAt (paramBytes s c) k) (readyResult s c k) _ (entryAt_sid (paramBytes s c) k)
  rw [← entryAt_sid, steppedStream_step, entryAt_sid] at hsome
  exact ⟨hnone, hsome⟩

/-- A stream that stages a token advances. -/
theorem stages_advance {op n t adv : Nat} {toks : List Nat} {ring : Option Qword} (h : stages op n t toks adv ring) : adv ≠ 0 := by
  unfold stages at h
  split at h
  · omega
  · split at h <;> omega

/-- Settles O39: each stream's entry and commits are those of its result (`doStepOp_results`), whose shape `stepOne_ok` gives. -/
theorem stepCommandsWriteAndStage : Obligations.StepCommandsWriteAndStage := by
  unfold Obligations.StepCommandsWriteAndStage
  intro s id c n b sid S0 runs hfine hwf hopen hbanks hap hheads hinput
  have hready : StepReady s c := ⟨hfine, hwf, hopen, hbanks, hap, hheads, hinput⟩
  have key : ∀ i op stride rule, startedCmd s id op = some c → stepOps op → stride = entryStride op → exec i s = .next (doStepOp s id op []) →
      (∀ d t toks adv ring, stages op d t toks adv ring → rule d t toks adv ring) → runs i stride rule := by
    rintro i op stride rule hc hop rfl hexec hrule
    obtain ⟨-, -, -, rfl⟩ := startedCmd_spec hc
    obtain ⟨u, detail, fl, rfl, hdetail, hran, hsame, honly, hentries⟩ := doStepOp_results hc hop hready
    refine ⟨_, detail, fl, _, hexec, hran, hdetail, hsame, honly, fun k hk => ?_⟩
    obtain ⟨⟨w, ext, hentry, hsid, hstep, -, -, -, htoken⟩, -⟩ :=
      stepOne_ok (steppingState s c) c (stepEnvOf (steppingState s c) c) k (entryAt b k) _ rfl hop (stepEnvOf_diverged _ c)
        (stepEnvOf_model hready)
    obtain ⟨hnone, hsome⟩ := readyStaged_step s c k
    dsimp only
    rw [hentries k hk w ext hentry]
    refine ⟨?_, ?_, readyStaged_kinds s c k, ?_⟩
    · rw [entryBytes_sid, hsid, entryAt_sid]
      exact Nat.mod_eq_of_lt (fieldAt_lt b (64 * k) 2)
    · rw [entryBytes_step, hstep, steppedStream_step]
    · rcases htoken with ⟨hnoToken, hadvance⟩ | hstages
      · exact .inl ⟨by rw [entryBytes_token, hnoToken]; rfl, hnone hadvance⟩
      · rw [entryAt_field b k 3 1 (by decide)] at hstages
        exact .inr ⟨w.token, _, _, _, hsome (stages_advance hstages), entryBytes_token w, hrule _ _ _ _ _ hstages⟩
  clear_value runs
  refine ⟨fun hc => ?step, fun hc => ?scores, fun hc => ?verify, fun hc => ?lookahead, fun hc => ?hostDraw⟩
  case step => exact key (.stepCmd id []) 0x30 160 _ hc (by decide) rfl rfl fun _ _ _ _ _ ⟨hadv, htoks⟩ => ⟨htoks, hadv⟩
  case scores => exact key (.stepScores id []) 0x31 160 _ hc (by decide) rfl rfl fun _ _ _ _ _ ⟨hadv, htoks⟩ => ⟨htoks, hadv⟩
  case verify =>
    exact key (.verify id []) 0x32 432 _ hc (by decide) rfl rfl fun _ _ _ _ _ ⟨hpos, hmax, hlen, hlast, hring⟩ =>
      ⟨hlast, hlen, hpos, hmax, hring⟩
  case lookahead => exact key (.lookahead id []) 0x33 240 _ hc (by decide) rfl rfl fun _ _ _ _ _ ⟨hadv, htoks⟩ => ⟨htoks, hadv⟩
  case hostDraw =>
    exact key (.hostDraw id []) 0x34 192 _ hc (by decide) rfl rfl fun _ _ _ _ _ ⟨hadv, htoks, hring⟩ => ⟨htoks, hadv, hring⟩

/-- Settles O59: every stream of a ready step command draws from its rows (`stepOne_draws`), and its entry and commits are those of
its result (`doStepOp_results`). -/
theorem stepCommandsDrawTokens : Obligations.StepCommandsDrawTokens := by
  unfold Obligations.StepCommandsDrawTokens
  intro s id c n b sid S0 s1 row posRow draws found hfine hwf hopen hbanks hap hheads hinput hcount hmain hpositions
  have hready : StepReady s c := ⟨hfine, hwf, hopen, hbanks, hap, hheads, hinput⟩
  have key : ∀ i op stride rule, startedCmd s id op = some c → stepOps op → stride = entryStride op → exec i s = .next (doStepOp s id op []) →
      (∀ k t toks adv, drawRule op (row k) t toks adv → rule k t toks adv) → draws i stride rule := by
    rintro i op stride rule hc hop rfl hexec hrule
    obtain ⟨-, -, -, rfl⟩ := startedCmd_spec hc
    obtain ⟨u, detail, fl, rfl, -, hran, -, -, hentries⟩ := doStepOp_results hc hop hready
    refine ⟨_, detail, fl, _, hexec, hran, fun k hk => ?_⟩
    have hdepth : fieldAt (entryAt b k) 3 1 = fieldAt b (64 * k + 3) 1 := entryAt_field b k 3 1 (by decide)
    have hlive : stepExhausted (pktOp c) (steppedStream s1 c (fieldAt (entryAt b k) 0 2)) (fieldAt (entryAt b k) 3 1) = false := by
      have hstep : (steppedStream s1 c (fieldAt (entryAt b k) 0 2)).step = S0 k := steppedStream_step s c b k
      have := hcount k hk
      rw [stepExhausted, hstep, hdepth, decide_eq_false_iff_not]
      omega
    have hdraw : entryDraws s1 c (stepEnvOf s1 c) k (entryAt b k) := by
      unfold entryDraws
      split
      · rename_i hverify
        rw [hdepth]
        exact hpositions hverify k hk
      · rename_i hother
        exact hmain hother k hk
    obtain ⟨w, ext, hentry, hstatus, hadvance, htoken⟩ := stepOne_draws (s := s1) rfl hop (stepEnvOf_diverged _ c)
      (stepEnvOf_model hready) hlive hdraw
    dsimp only
    rw [hentries k hk w ext hentry, entryBytes_token, entryBytes_status]
    refine ⟨w.token, _, _, _, (readyStaged_step s c k).2 hadvance, rfl, ?_, hrule _ _ _ _ htoken⟩
    rcases hstatus with h | h <;> rw [h]
    · exact .inl rfl
    · exact .inr rfl
  exact ⟨fun hc => key (.stepCmd id []) 0x30 160 _ hc (by decide) rfl rfl fun _ _ _ _ h => h,
    fun hc => key (.stepScores id []) 0x31 160 _ hc (by decide) rfl rfl fun _ _ _ _ h => h,
    fun hc => key (.verify id []) 0x32 432 _ hc (by decide) rfl rfl fun _ _ _ _ h => h,
    fun hc => key (.lookahead id []) 0x33 240 _ hc (by decide) rfl rfl fun _ _ _ _ h => h,
    fun hc => key (.hostDraw id []) 0x34 192 _ hc (by decide) rfl rfl fun _ _ _ _ h => h⟩

end Sys2Proof.Laws
end

section
/-! SUPPORT. One block of bytes written to host memory while a link is trained: what reads back of it and what it leaves. -/

open Sys2Proof Sys2Proof.Machine

namespace Sys2Proof.Laws

/-- A memory that holds a block at an address and is as before outside of it. -/
structure BlockWritten (before after : List (Nat × Byte)) (a : Nat) (bs : List Byte) : Prop where
  whole : memBytes after a bs.length = bs
  outside : ∀ x, x < a ∨ a + bs.length ≤ x → memByte after x = memByte before x

/-- A write puts its block into host memory and changes nothing else of the state. -/
theorem hostWrite_block {s : State} (hw : memoriesWf s = true) (ht : trainedLinks s ≠ []) (a : Nat) (bs : List Byte) :
    ∃ m, hostWrite s a bs = { s with host := m } ∧ BlockWritten s.host m a bs := by
  simp only [memoriesWf, Bool.and_eq_true] at hw
  obtain ⟨⟨hhost, -⟩, -⟩ := hw
  exact ⟨_, hostWrite_trained ht a bs, memBytes_store hhost a bs, fun _ hx => memByte_store_outside hhost hx⟩

/-- A written block reads back part by part. -/
theorem BlockWritten.part {before after : List (Nat × Byte)} {a n o k : Nat} {bs : List Byte} (h : BlockWritten before after a bs)
    (hn : bs.length = n) (hk : o + k ≤ n) : memBytes after (a + o) k = slice bs o k :=
  memBytes_part _ _ _ _ _ _ h.whole (hn ▸ hk)

/-- No byte outside the block's area changes. -/
theorem BlockWritten.sameOutside {s u : State} {a n : Nat} {bs : List Byte} (h : BlockWritten s.host u.host a bs) (hn : bs.length = n) :
    sameOutside [(a, n)] s u :=
  fun x hx => h.outside x (hn ▸ hx (a, n) List.mem_cons_self)

end Sys2Proof.Laws
end

section
/-! SUPPORT. What READ_FLAGS, READ_COUNTERS and READ_DIGESTS put into their areas (R107, R337 to R339). -/

open Sys2Proof Sys2Proof.Machine

namespace Sys2Proof.Laws

/-! ## READ_FLAGS -/

/-- The two bytes of a core (Table OPS-11). -/
theorem coreFlagBytes_eq (s : State) (k j : Nat) : coreFlagBytes s k j =
    if (chipOf s k).active = false ∨ (nth (Core.fresh j) (chipOf s k).cores j).role = .fenced then [0x80#8, 0x80#8]
    else if (nth (Core.fresh j) (chipOf s k).cores j).role = .spare then [0x40#8, 0x40#8]
    else [(nth (Core.fresh j) (chipOf s k).cores j).te.setWidth 8, (nth (Core.fresh j) (chipOf s k).cores j).sfu.setWidth 8] := by
  simp only [coreFlagBytes, Bool.or_eq_true, Bool.not_eq_true', beq_iff_eq]

theorem coreFlagBytes_length (s : State) (k j : Nat) : (coreFlagBytes s k j).length = 2 := by
  rw [coreFlagBytes_eq]
  split
  · rfl
  · split <;> rfl

/-- The 36 bytes of a chip. -/
theorem chipFlagBytes_length (s : State) (k : Nat) : ((List.range 18).flatMap (coreFlagBytes s k)).length = 36 :=
  flatMap_length_const _ _ 2 fun j _ => coreFlagBytes_length s k j

/-- The header of a snapshot: the tick, FLAG_SUMMARY and 4 zeros. -/
def flagHead (s : State) (t : Tick) : List Byte := leBytes 8 t ++ leBytes 4 s.regs.flagSummary.toNat ++ leBytes 4 0

theorem flagHead_length (s : State) (t : Tick) : (flagHead s t).length = 16 := by
  simp only [flagHead, List.length_append, leBytes_length]

theorem flagSnapshot_eq (s : State) (t : Tick) : flagSnapshot s t =
    flagHead s t ++ (List.range 8).flatMap fun k => (List.range 18).flatMap (coreFlagBytes s k) := rfl

theorem flagSnapshot_length (s : State) (t : Tick) : (flagSnapshot s t).length = 304 := by
  rw [flagSnapshot_eq, List.length_append, flagHead_length, flatMap_length_const _ _ 36 fun k _ => chipFlagBytes_length s k,
    List.length_range]

theorem slice_flagSnapshot_head (s : State) (t : Tick) : slice (flagSnapshot s t) 0 16 = flagHead s t := by
  rw [flagSnapshot_eq, ← flagHead_length s t, slice_all]

theorem slice_flagSnapshot_core (s : State) (t : Tick) {k j : Nat} (hk : k < 8) (hj : j < 18) :
    slice (flagSnapshot s t) (16 + 36 * k + 2 * j) 2 = coreFlagBytes s k j := by
  have hchip := slice_blocks (fun k => (List.range 18).flatMap (coreFlagBytes s k)) 36 k (chipFlagBytes_length s) 8 hk
  have hcore := slice_blocks (coreFlagBytes s k) 2 j (coreFlagBytes_length s k) 18 hj
  rw [flagSnapshot_eq, ← flagHead_length s t, Nat.add_assoc, slice_append_right, ← slice_slice _ (36 * k) 36 _ _ (by omega), hchip,
    hcore]

/-- After CLEAR the serving engines hold no flag (R107). -/
theorem clearFlags_serving (s : State) : ∀ k ∈ (clearFlags s).chips, k.active = true → ∀ co ∈ k.cores, co.role = .active →
    co.te = noFlags ∧ co.sfu = noFlags := by
  intro k hk hactive co hco hrole
  obtain ⟨k, -, rfl⟩ := List.mem_map.1 hk
  obtain ⟨co, -, rfl⟩ := List.mem_map.1 hco
  split
  · exact ⟨rfl, rfl⟩
  · rename_i hserves
    rw [if_neg hserves] at hrole
    exact absurd (by rw [hactive, hrole]; rfl) hserves

/-- CLEAR or not, nothing but chips changes: with it the serving engines hold no flag, without it not even chips do. -/
theorem clearIf_chips (on : Bool) (s : State) : ∃ chips, (if on then clearFlags s else s) = { s with chips := chips } ∧
    (on = false → chips = s.chips) ∧
    (on = true → ∀ k ∈ chips, k.active = true → ∀ co ∈ k.cores, co.role = .active → co.te = noFlags ∧ co.sfu = noFlags) := by
  cases on
  · exact ⟨s.chips, rfl, fun _ => rfl, nofun⟩
  · exact ⟨(clearFlags s).chips, rfl, nofun, fun _ => clearFlags_serving s⟩

/-! ## READ_COUNTERS -/

theorem counterRecords_length {kind chip unit : Nat} {l : List Nat} : ∀ r ∈ counterRecords kind chip unit l, r.length = 8 := by
  intro r hr
  obtain ⟨p, -, rfl⟩ := List.mem_map.1 hr
  simp only [List.length_append, leBytes_length]

/-- Every record has 8 bytes, of whichever kind of unit it is. -/
theorem allRecords_length (s : State) (scope : Nat) : ∀ r ∈ allRecords s scope, r.length = 8 := by
  have hsel {on : Bool} {l : List (List Byte)} (h : ∀ r ∈ l, r.length = 8) : ∀ r ∈ (if on then l else []), r.length = 8 := by
    cases on
    · exact nofun
    · exact h
  simp only [allRecords, List.forall_mem_append]
  refine ⟨⟨⟨⟨hsel ?core, hsel ?link⟩, hsel ?hbm⟩, hsel ?chip⟩, hsel counterRecords_length⟩
  case core => exact List.forall_mem_flatMap.2 fun _ _ => List.forall_mem_flatMap.2 fun _ _ => counterRecords_length
  all_goals exact List.forall_mem_flatMap.2 fun _ _ => counterRecords_length

/-- What READ_COUNTERS writes: the tick, the number of records, 4 zeros and the records (R339). -/
def counterArea (t : Tick) (rs : List (List Byte)) : List Byte := leBytes 8 t ++ leBytes 4 rs.length ++ leBytes 4 0 ++ rs.flatten

theorem counterArea_length (t : Tick) {rs : List (List Byte)} (h : ∀ r ∈ rs, r.length = 8) :
    (counterArea t rs).length = 16 + 8 * rs.length := by
  simp only [counterArea, List.length_append, leBytes_length, flatten_length_const rs 8 h]

/-! ## READ_DIGESTS -/

/-- The 40 bytes of a pair (R337): its digests with a 1 where the window has it, else zeros. -/
theorem digestRecord_eq (s : State) (sid step : Nat) : digestRecord s sid step =
    match auditRec s sid step with
    | some (_, r) => slice r.result 0x30 32 ++ leBytes 1 1 ++ leBytes 7 0
    | none => List.replicate 40 0#8 := by
  rw [← leBytes_zero]
  rfl

theorem digestRecord_length (s : State) (sid step : Nat) : (digestRecord s sid step).length = 40 := by
  unfold digestRecord
  split
  · simp only [List.length_append, slice_getD, List.length_map, List.length_range, leBytes_length]
  · exact leBytes_length 40 0

/-- The record of the pair at position j of a list of (stream, step) pairs (Table OPS-10). -/
def digestAt (s : State) (src j : Nat) : List Byte :=
  digestRecord s (leNat (hostBytes s (src + 8 * j) 2)) (leNat (hostBytes s (src + 8 * j + 2) 6))

theorem digestAt_length (s : State) (src j : Nat) : (digestAt s src j).length = 40 := digestRecord_length _ _ _

theorem digestArea_length (s : State) (src n : Nat) : ((List.range n).flatMap (digestAt s src)).length = 40 * n := by
  rw [flatMap_length_const _ _ 40 fun j _ => digestAt_length s src j, List.length_range]

/-- A field of a list read from host memory is the field at its own address. -/
theorem fieldAt_hostBytes (s : State) (a : Nat) {n o k : Nat} (h : o + k ≤ n) :
    fieldAt (hostBytes s a n) o k = leNat (hostBytes s (a + o) k) := congrArg leNat (slice_memBytes _ _ _ _ _ h)

/-- The records of a list of n pairs read from host memory, pair by pair. -/
theorem digestRecords_of_list (s : State) (src n : Nat) :
    ((List.range n).flatMap fun j =>
      digestRecord s (fieldAt (hostBytes s src (8 * n)) (8 * j) 2) (fieldAt (hostBytes s src (8 * n)) (8 * j + 2) 6)) =
    (List.range n).flatMap (digestAt s src) := by
  rw [List.flatMap_def, List.flatMap_def]
  refine congrArg List.flatten (List.map_congr_left fun j hj => ?_)
  have hj := List.mem_range.1 hj
  rw [fieldAt_hostBytes s _ (by omega), fieldAt_hostBytes s _ (by omega)]
  rfl

/-! ## The three bodies -/

variable {s : State} {id : Nat} {c : Cmd}

/-- READ_FLAGS writes its snapshot, and with CLEAR then clears the serving engines. -/
theorem doReadFlags_of_fine (hf : hostFine s = true) (hw : memoriesWf s = true) (hc : startedCmd s id 0x62 = some c) (t : Tick) :
    let b := paramBytes s c
    ∃ m chips, doReadFlags s id t = finishCmd { stamp s t with host := m, chips := chips } id 0 0 0 [] ∧
      BlockWritten s.host m (fieldAt b 0 8) (flagSnapshot s (max s.now t)) ∧
      (bit (fieldAt b 8 1) 0 = false → chips = s.chips) ∧
      (bit (fieldAt b 8 1) 0 = true → ∀ k ∈ chips, k.active = true → ∀ co ∈ k.cores, co.role = .active →
        co.te = noFlags ∧ co.sfu = noFlags) := by
  obtain ⟨-, rfl, -, -⟩ := startedCmd_spec hc
  intro b
  obtain ⟨m, hm, hblock⟩ := hostWrite_block (s := stamp s t) hw (trained_of_fine hf) (fieldAt b 0 8) (flagSnapshot s (max s.now t))
  obtain ⟨chips, hchips, hkept, hcleared⟩ := clearIf_chips (bit (fieldAt b 8 1) 0) { stamp s t with host := m }
  refine ⟨m, chips, ?_, hblock, hkept, hcleared⟩
  have hrun : doReadFlags s c.id t = doneCmd (if bit (fieldAt b 8 1) 0
      then clearFlags (hostWrite (stamp s t) (fieldAt b 0 8) (flagSnapshot s (max s.now t)))
      else hostWrite (stamp s t) (fieldAt b 0 8) (flagSnapshot s (max s.now t))) c [] := by
    unfold doReadFlags
    rw [onCmd_of_started hc, withParams_of_fine hf]
    rfl
  rw [hrun, hm, hchips]
  rfl

/-- READ_COUNTERS writes its header and records. -/
theorem doReadCounters_of_fine (hf : hostFine s = true) (hw : memoriesWf s = true) (hc : startedCmd s id 0x63 = some c) (t : Tick) :
    let b := paramBytes s c
    ∃ m, doReadCounters s id t = finishCmd { stamp s t with host := m } id 0 0 0 [] ∧
      BlockWritten s.host m (fieldAt b 8 8) (counterArea (max s.now t) (allRecords s (fieldAt b 0 1))) := by
  obtain ⟨-, rfl, -, -⟩ := startedCmd_spec hc
  intro b
  obtain ⟨m, hm, hblock⟩ := hostWrite_block (s := stamp s t) hw (trained_of_fine hf) (fieldAt b 8 8)
    (counterArea (max s.now t) (allRecords s (fieldAt b 0 1)))
  refine ⟨m, ?_, hblock⟩
  unfold doReadCounters
  rw [onCmd_of_started hc, withParams_of_fine hf]
  exact congrArg (doneCmd · c []) hm

/-- READ_DIGESTS from the window writes one record for each pair of its list. -/
theorem doReadDigests_of_window (hf : hostFine s = true) (hw : memoriesWf s = true) (hc : startedCmd s id 0x61 = some c) :
    let b := paramBytes s c
    fieldAt b 0 1 = 0 → ∃ m, doReadDigests s id = finishCmd { s with host := m } id 0 0 0 [] ∧
      BlockWritten s.host m (fieldAt b 0x20 8) ((List.range (fieldAt b 4 4)).flatMap (digestAt s (fieldAt b 0x10 8))) := by
  obtain ⟨-, rfl, -, -⟩ := startedCmd_spec hc
  intro b hsource
  obtain ⟨m, hm, hblock⟩ := hostWrite_block hw (trained_of_fine hf) (fieldAt b 0x20 8)
    ((List.range (fieldAt b 4 4)).flatMap (digestAt s (fieldAt b 0x10 8)))
  refine ⟨m, ?_, hblock⟩
  rw [← digestRecords_of_list] at hm
  unfold doReadDigests
  rw [onCmd_of_started hc, withParams_of_fine hf]
  dsimp only
  rw [if_pos hsource, withList_of_fine hf]
  exact congrArg (doneCmd · c []) hm

end Sys2Proof.Laws
end

section
/-! The audit commands settled: READ_FLAGS, READ_COUNTERS and READ_DIGESTS (R107, R337 to R339; 03_number_formats.md). -/

open Sys2Proof Sys2Proof.Machine

namespace Sys2Proof.Laws

/-- Settles O38: each body writes one block (`doReadFlags_of_fine`, `doReadCounters_of_fine`, `doReadDigests_of_window`), which reads
back part by part (`BlockWritten.part`) and leaves every other byte (`BlockWritten.sameOutside`). -/
theorem auditReadsWriteTheirAreas : Obligations.AuditReadsWriteTheirAreas := by
  unfold Obligations.AuditReadsWriteTheirAreas
  intro s id c t hfine hwf b T
  refine ⟨fun hc => ?flags, fun hc => ?counters, fun hc hsource => ?digests⟩
  case flags =>
    obtain ⟨m, chips, hrun, hblock, hkept, hcleared⟩ := doReadFlags_of_fine hfine hwf hc t
    have hlen := flagSnapshot_length s T
    refine ⟨_, congrArg Host.Outcome.next hrun, rfl, ?head, fun k j hk hj => ?core, hblock.sameOutside hlen, hkept, hcleared, rfl⟩
    case head => exact (hblock.part hlen (o := 0) (by decide)).trans (slice_flagSnapshot_head s T)
    case core =>
      rw [Nat.add_assoc, Nat.add_assoc, ← Nat.add_assoc 16]
      refine (hblock.part hlen (by omega)).trans ?_
      rw [slice_flagSnapshot_core s T hk hj]
      exact coreFlagBytes_eq s k j
  case counters =>
    obtain ⟨m, hrun, hblock⟩ := doReadCounters_of_fine hfine hwf hc t
    have hrecords := allRecords_length s (fieldAt b 0 1)
    have hlen := counterArea_length T hrecords
    exact ⟨_, _, congrArg Host.Outcome.next hrun, rfl, rfl, hrecords, hlen ▸ hblock.whole, hblock.sameOutside hlen, rfl⟩
  case digests =>
    obtain ⟨m, hrun, hblock⟩ := doReadDigests_of_window hfine hwf hc hsource
    have hlen := digestArea_length s (fieldAt b 0x10 8) (fieldAt b 4 4)
    refine ⟨_, congrArg Host.Outcome.next hrun, rfl, fun j hj => ?_, hblock.sameOutside hlen, rfl⟩
    exact ((hblock.part hlen (by omega)).trans (slice_blocks _ 40 j (digestAt_length s _) _ hj)).trans (digestRecord_eq s _ _)

end Sys2Proof.Laws
end

section
/-! SUPPORT. A tensor operator that runs undisturbed: how it ends, what it leaves as it is, and what its rows read back as. -/

open Sys2Proof Sys2Proof.Machine

namespace Sys2Proof.Laws

/-! ## From the start to the end of an operator -/

/-- An operator's output areas lie apart from its inputs and from each other (R319). -/
def areasApart (s : State) (c : Cmd) (e : TEnv) : Prop :=
  outputsOverlap s c e = false ∧ (outAreas s c).Pairwise fun p q => p.1 + p.2 ≤ q.1 ∨ q.1 + q.2 ≤ p.1

/-- What an operator leaves whose row r gives `row r` and which stages `cs`. -/
structure TensorRan (s : State) (id : Nat) (c : Cmd) (e : TEnv) (row : Nat → TRow) (cs : List Commit) (u : State) : Prop where
  ended : ∃ fl, ranTo s u id (if ((List.range e.hdr.rows).any fun r => (row r).status == 0x13) = true then 0x13 else 0)
    (if pktOp c = 0x42 then ((List.range e.hdr.rows).map fun r => (row r).qualifying).foldl (satAdd 0xFFFFFFFF) 0 else 0) fl cs
  outside : sameOutside (outAreas s c) s u
  only : onlyRan s u
  out : areasApart s c e → ∀ r, r < e.hdr.rows →
    hostBytes u (e.hdr.outAddr + r * e.hdr.outStride) (row r).out.length = (row r).out
  aux : areasApart s c e → ∀ r, r < e.hdr.rows → (row r).aux ≠ [] →
    hostBytes u (e.hdr.aux + r * (row r).aux.length) (row r).aux.length = (row r).aux

/-- No read of an operator fails where every read of host memory succeeds (R312). -/
theorem tensorFault_of_fine {s : State} (hf : hostFine s = true) (c : Cmd) (e : TEnv) : tensorFault s c e = none := by
  have hreads (l : List (Nat × Nat × Nat)) : (l.find? fun p => !hostOk s p.2.1 p.2.2) = none :=
    List.find?_eq_none.2 fun p _ => by rw [hostOk_of_fine hf]; decide
  exact congrArg (Option.map _) (hreads _)

/-- A started operator whose rows fit their areas runs to its end. -/
theorem doTensor_of_fine {s : State} {id op : Nat} {c : Cmd} {k : Cmd → TEnv → List TRow × List Commit} {row : Nat → TRow}
    {cs : List Commit} (hf : hostFine s = true) (hw : memoriesWf s = true) (hc : startedCmd s id op = some c)
    (hop : isTensorOp op = true) :
    let e := tensorEnv s c (paramBytes s c) []
    k c e = ((List.range e.hdr.rows).map row, cs) → (∀ r, rowFits op (paramBytes s c) (row r)) →
      TensorRan s id c e row cs (doTensor s id op [] k) := by
  intro e hk hfits
  obtain ⟨-, rfl, -, rfl⟩ := startedCmd_spec hc
  have hrun : doTensor s c.id (pktOp c) [] k = finishTensor s c e [] cs ((List.range e.hdr.rows).map row) := by
    unfold doTensor
    rw [onCmd_of_started hc, withParams_of_fine hf]
    dsimp only
    rw [tensorFault_of_fine hf]
    dsimp only
    rw [hk]
  obtain ⟨u, fl, hu, hended, houtside, honly, hread⟩ := finishTensor_spec s c e cs ((List.range e.hdr.rows).map row) hop rfl
    (by rw [List.length_map, List.length_range]; rfl) (List.forall_mem_map.2 fun r _ => hfits r) hw (trained_of_fine hf)
  rw [hrun, hu]
  have hrow {r : Nat} (hr : r < e.hdr.rows) : ((List.range e.hdr.rows).map row)[r]? = some (row r) := by
    rw [List.getElem?_map, List.getElem?_range hr]
    rfl
  exact ⟨⟨fl, by simpa only [List.any_map, List.foldl_map, Function.comp_def] using hended⟩, houtside, honly,
    fun h r hr => (hread h.1 h.2 r _ (hrow hr)).1, fun h r hr => (hread h.1 h.2 r _ (hrow hr)).2⟩

section
variable {s u : State} {id : Nat} {c : Cmd} {e : TEnv} {row : Nat → TRow} {cs : List Commit}

/-- An operator whose rows all have room for their output ends with status 0 (R324). -/
theorem TensorRan.status_zero (h : TensorRan s id c e row cs u) (hst : ∀ r, r < e.hdr.rows → (row r).status ≠ 0x13) :
    ∃ fl, ranTo s u id 0
      (if pktOp c = 0x42 then ((List.range e.hdr.rows).map fun r => (row r).qualifying).foldl (satAdd 0xFFFFFFFF) 0 else 0) fl cs := by
  have hnone : ((List.range e.hdr.rows).any fun r => (row r).status == 0x13) = false :=
    List.any_eq_false.2 fun r hr => by rw [beq_iff_eq]; exact hst r (List.mem_range.1 hr)
  have := h.ended
  rwa [hnone] at this

/-- Only THRESHOLD_COMPACT counts in DETAIL: every other operator completes with status 0 and DETAIL 0. -/
theorem TensorRan.completes {op : Nat} (h : TensorRan s id c e row cs u) (hc : startedCmd s id op = some c) (hop : op ≠ 0x42)
    (hst : ∀ r, (row r).status ≠ 0x13) : ∃ fl, ranTo s u id 0 0 fl cs := by
  obtain ⟨-, -, -, rfl⟩ := startedCmd_spec hc
  have := h.status_zero fun r _ => hst r
  rwa [if_neg hop] at this

/-- A row's output reads back part by part. -/
theorem TensorRan.out_part (h : TensorRan s id c e row cs u) (ha : areasApart s c e) {r o k n : Nat} (hr : r < e.hdr.rows)
    (hn : (row r).out.length = n) (hk : o + k ≤ n) :
    hostBytes u (e.hdr.outAddr + r * e.hdr.outStride + o) k = slice (row r).out o k :=
  memBytes_part _ _ _ _ _ _ (h.out ha r hr) (hn ▸ hk)

end

/-! ## Keys, and the records of TOPK and THRESHOLD_COMPACT -/

/-- The order key of element i of a row of codes (R171). -/
def codeKey (f : Fmt) (codes : List Nat) (i : Nat) : Nat := (orderKey (widen f (nth 0 codes i))).toNat

theorem keyAt_widen (f : Fmt) {codes : List Nat} {i : Nat} (hi : i < codes.length) :
    keyAt (codes.map (widen f)) i = codeKey f codes i := by
  simp [keyAt, codeKey, nth, hi]

/-- Entries of a row stand by key alike under keys that agree on the row. -/
theorem rowBefore_congr {K K' : Nat → Nat} {i j : Nat} (hi : K i = K' i) (hj : K j = K' j) (h : rowBefore K i j) :
    rowBefore K' i j := by
  unfold rowBefore at h ⊢
  rwa [← hi, ← hj]

/-- The rows of an operator in FIXED order run in FIXED order. -/
theorem tensorCfg_fixed (s : State) {e : TEnv} (h : e.order = .fixed) (r : Nat) : (tensorCfg s e r).order = .fixed :=
  congrArg (orderSub · r) h

/-- A row of TOPK in FIXED order: the records of its K highest keys, ties by index (R171). -/
theorem topkOut_fixed (e : TEnv) {rc : RunCfg} (ho : rc.order = .fixed) (row : CodedRow) :
    let key := codeKey (fmtAt e.hdr.inFmt) row.codes
    ∃ ids : List Nat, (topkOut e rc row).out = ids.flatMap (indexRecord row.codes) ∧
      ids.length = min (fieldAt e.block 0x40 4) row.codes.length ∧ ids.Pairwise (rowBefore key) ∧
      (∀ i ∈ ids, i < row.codes.length) ∧ ∀ i, i < row.codes.length → i ∉ ids → ∀ j ∈ ids, rowBefore key j i := by
  intro key
  obtain ⟨hlen, hsorted, hin, hrest⟩ := topkRow_spec (row.codes.map (widen (fmtAt e.hdr.inFmt))) (fieldAt e.block 0x40 4)
  rw [List.length_map] at hlen hin hrest
  have hkey {i : Nat} (hi : i < row.codes.length) := keyAt_widen (fmtAt e.hdr.inFmt) hi
  refine ⟨_, ?_, hlen, ?_, hin, ?_⟩
  · unfold topkOut
    rw [ho]
    rfl
  · exact hsorted.imp_of_mem fun hi hj h => rowBefore_congr (hkey (hin _ hi)) (hkey (hin _ hj)) h
  · exact fun i hi hnot j hj => rowBefore_congr (hkey (hin j hj)) (hkey hi) (hrest i hi hnot j hj)

/-- The entries of a row of n codes with a key at least a threshold's, by index (R172). -/
def keptEntries (f : Fmt) (codes : List Nat) (thr n : Nat) : List Nat :=
  (List.range n).filter fun i => decide ((orderKey (widen f thr)).toNat ≤ codeKey f codes i)

/-- What the entries that THRESHOLD_COMPACT selects make of a row (R324). -/
theorem thresholdOut_eq (e : TEnv) (rc : RunCfg) (row : CodedRow) :
    let f := fmtAt e.hdr.inFmt
    let sel := thresholdRow (orderSub rc.order 0) (row.codes.map (widen f)) (widen f (fieldAt e.block 0x40 4))
    thresholdOut e rc row = ⟨sel.1.flatMap (indexRecord row.codes), leBytes 4 sel.2 ++ leBytes 4 sel.1.length,
      if candMax < sel.2 then 0x13 else 0, sel.2, [], false⟩ := rfl

/-- A row of THRESHOLD_COMPACT counts the entries it keeps; where they do not pass 65,536, it writes the record of each and its
counts (R172, R324). -/
theorem thresholdOut_kept (e : TEnv) (rc : RunCfg) (row : CodedRow) :
    let kept := keptEntries (fmtAt e.hdr.inFmt) row.codes (fieldAt e.block 0x40 4) row.codes.length
    (thresholdOut e rc row).qualifying = kept.length ∧
    (kept.length ≤ 65536 → thresholdOut e rc row =
      ⟨kept.flatMap (indexRecord row.codes), leBytes 4 kept.length ++ leBytes 4 kept.length, 0, kept.length, [], false⟩) := by
  intro kept
  obtain ⟨hcount, hall⟩ := thresholdRow_spec (orderSub rc.order 0) (row.codes.map (widen (fmtAt e.hdr.inFmt)))
    (widen (fmtAt e.hdr.inFmt) (fieldAt e.block 0x40 4))
  have hkept : ((List.range (row.codes.map (widen (fmtAt e.hdr.inFmt))).length).filter fun i =>
      decide ((orderKey (widen (fmtAt e.hdr.inFmt) (fieldAt e.block 0x40 4))).toNat ≤
        keyAt (row.codes.map (widen (fmtAt e.hdr.inFmt))) i)) = kept := by
    rw [List.length_map]
    refine List.filter_congr fun i hi => ?_
    rw [keyAt_widen _ (List.mem_range.1 hi)]
  rw [hkept] at hcount hall
  refine ⟨hcount, fun hfew => ?_⟩
  rw [thresholdOut_eq, hcount, hall hfew, if_neg (show ¬ candMax < kept.length from Nat.not_lt.2 hfew)]

section
variable {s u : State} {id : Nat} {c : Cmd} {e : TEnv} {cs : List Commit}

/-- TOPK in FIXED order: the records of each row's K highest keys in host memory, ties by index (R171). -/
theorem TensorRan.selects (h : TensorRan s id c e (fun r => topkOut e (tensorCfg s e r) (tensorRow s e r)) cs u)
    (hl : e.lines = []) (ha : areasApart s c e) (ho : e.order = .fixed) {r : Nat} (hr : r < e.hdr.rows) :
    let key := codeKey (fmtAt e.hdr.inFmt) (tensorRow s e r).codes
    ∃ ids : List Nat, ids.length = min (fieldAt e.block 0x40 4) e.hdr.len ∧
      hostBytes u (e.hdr.outAddr + r * e.hdr.outStride) (8 * ids.length) = ids.flatMap (indexRecord (tensorRow s e r).codes) ∧
      ids.Pairwise (rowBefore key) ∧ (∀ i ∈ ids, i < e.hdr.len) ∧ ∀ i, i < e.hdr.len → i ∉ ids → ∀ j ∈ ids, rowBefore key j i := by
  intro key
  obtain ⟨ids, hout, hlen, hsorted, hin, hrest⟩ := topkOut_fixed e (tensorCfg_fixed s ho r) (tensorRow s e r)
  have hread := h.out ha r hr
  rw [hout, records_length] at hread
  rw [tensorRow_length s e r hl] at hlen hin hrest
  exact ⟨ids, hlen, hread, hsorted, hin, hrest⟩

/-- THRESHOLD_COMPACT with no row that keeps more than 65,536 entries: status 0, the entries kept counted in DETAIL, and in host
memory their records and counts. -/
theorem TensorRan.compacts (hc : startedCmd s id 0x42 = some c)
    (h : TensorRan s id c e (fun r => thresholdOut e (tensorCfg s e r) (tensorRow s e r)) cs u) (hl : e.lines = []) :
    let kept (r : Nat) := keptEntries (fmtAt e.hdr.inFmt) (tensorRow s e r).codes (fieldAt e.block 0x40 4) e.hdr.len
    (∀ r, r < e.hdr.rows → (kept r).length ≤ 65536) →
      (∃ fl, ranTo s u id 0 (((List.range e.hdr.rows).map fun r => (kept r).length).foldl (satAdd 0xFFFFFFFF) 0) fl cs) ∧
      (areasApart s c e → ∀ r, r < e.hdr.rows →
        hostBytes u (e.hdr.outAddr + r * e.hdr.outStride) (8 * (kept r).length) =
          (kept r).flatMap (indexRecord (tensorRow s e r).codes) ∧
        hostBytes u (e.hdr.aux + 8 * r) 8 = leBytes 4 (kept r).length ++ leBytes 4 (kept r).length) := by
  intro kept hfew
  obtain ⟨-, -, -, hop⟩ := startedCmd_spec hc
  have hrow (r : Nat) := thresholdOut_kept e (tensorCfg s e r) (tensorRow s e r)
  simp only [tensorRow_length s e _ hl] at hrow
  constructor
  · obtain ⟨fl, hended⟩ := h.status_zero fun r hr => by
      rw [(hrow r).2 (hfew r hr)]
      nofun
    rw [if_pos hop] at hended
    simp only [(hrow _).1] at hended
    exact ⟨fl, hended⟩
  · intro hapart r hr
    have hrecords := h.out hapart r hr
    have hcounts := h.aux hapart r hr
    rw [(hrow r).2 (hfew r hr)] at hrecords hcounts
    dsimp only at hrecords hcounts
    rw [records_length] at hrecords
    have hlen : (leBytes 4 (kept r).length ++ leBytes 4 (kept r).length).length = 8 := by
      rw [List.length_append, leBytes_length]
    rw [hlen, Nat.mul_comm r] at hcounts
    exact ⟨hrecords, hcounts (List.ne_nil_of_length_pos (by rw [hlen]; decide))⟩

theorem randomRow_length (e : TEnv) (rc : RunCfg) (w : Nat → Word) : (randomRow e rc w).out.length = 4 * e.hdr.len := by
  unfold randomRow
  rw [flatMap_length_const _ _ 4 fun _ _ => leBytes_length _ _, List.length_map, List.length_range]

/-- ROWSTAT: the last 4 of a row's 16 bytes are zeros (R325). -/
theorem TensorRan.pads (h : TensorRan s id c e (fun r => rowstatRow e (tensorCfg s e r) (tensorRow s e r)) cs u)
    (ha : areasApart s c e) {r : Nat} (hr : r < e.hdr.rows) :
    hostBytes u (e.hdr.outAddr + r * e.hdr.outStride + 12) 4 = leBytes 4 0 :=
  (h.out_part ha hr (rowstat_fits e _ _ []).1 (by decide)).trans (rowstat_tail _ _ _)

/-- RANDOM_FILL of BITS32: each element of a row is its random word (R201). -/
theorem TensorRan.fills {w : Nat → Word}
    (h : TensorRan s id c e (fun r => randomRow e (tensorCfg s e r) fun i => w (r * e.hdr.len + i)) cs u)
    (ha : areasApart s c e) (hbits : fieldAt e.block 0x40 1 = 0) {r j : Nat} (hr : r < e.hdr.rows) (hj : j < e.hdr.len) :
    hostBytes u (e.hdr.outAddr + r * e.hdr.outStride + 4 * j) 4 = leBytes 4 (w (r * e.hdr.len + j)).toNat :=
  (h.out_part ha hr (randomRow_length e _ _) (by omega)).trans (random_word e _ _ hbits j hj)

end

/-! ## Ring lanes -/

/-- Random words from Spore stage nothing (R184). -/
theorem operatorWords_spore (s : State) {e : TEnv} (purpose : Nat) (inc : List Incident) (h : fieldAt e.block 0x42 1 = 1) :
    operatorWords s e purpose inc = (sporeElem (qword e.block 0x50) (fieldAt e.block 0x48 6) purpose, []) := if_pos h

/-- Random words stage no more than states of the lane that the operator is bound to (R191). -/
theorem operatorWords_lane (s : State) (e : TEnv) (purpose : Nat) (inc : List Incident) :
    ∀ x ∈ (operatorWords s e purpose inc).2, ∃ chip st, x = .lane chip (fieldAt e.block 0x43 1) st := by
  by_cases hspore : fieldAt e.block 0x42 1 = 1
  · rw [operatorWords_spore s purpose inc hspore]
    exact nofun
  · unfold operatorWords
    rw [if_neg hspore]
    exact List.forall_mem_map.2 fun _ _ => ⟨_, _, rfl⟩

/-! ## Each operator -/

/-- An undisturbed operator reads its rows whole. -/
theorem tensorRow_whole (s : State) (c : Cmd) (b : List Byte) (r : Nat) :
    (tensorRow s (tensorEnv s c b []) r).codes.length = (parseHdr b).len := tensorRow_length _ _ _ rfl

section
variable {s : State} {id : Nat} {c : Cmd} (hf : hostFine s = true) (hw : memoriesWf s = true)
include hf hw

theorem doSoftmax_of_fine (hc : startedCmd s id 0x40 = some c) :
    let e := tensorEnv s c (paramBytes s c) []
    TensorRan s id c e (fun r => softmaxRow e (tensorCfg s e r) (tensorRow s e r)) [] (doSoftmax s id []) :=
  doTensor_of_fine hf hw hc rfl rfl fun r => (softmax_fits _ _ _ _ rfl (tensorRow_whole s c _ r)).1

theorem doTopk_of_fine (hc : startedCmd s id 0x41 = some c) :
    let e := tensorEnv s c (paramBytes s c) []
    TensorRan s id c e (fun r => topkOut e (tensorCfg s e r) (tensorRow s e r)) [] (doTopk s id []) :=
  doTensor_of_fine hf hw hc rfl rfl fun r => topk_fits _ _ _ _ rfl rfl (tensorRow_whole s c _ r)

theorem doThresholdCompact_of_fine (hc : startedCmd s id 0x42 = some c) :
    let e := tensorEnv s c (paramBytes s c) []
    TensorRan s id c e (fun r => thresholdOut e (tensorCfg s e r) (tensorRow s e r)) [] (doThresholdCompact s id []) :=
  doTensor_of_fine hf hw hc rfl rfl fun r => threshold_fits _ _ _ _ rfl (tensorRow_whole s c _ r)

theorem doRowstat_of_fine (hc : startedCmd s id 0x43 = some c) :
    let e := tensorEnv s c (paramBytes s c) []
    TensorRan s id c e (fun r => rowstatRow e (tensorCfg s e r) (tensorRow s e r)) [] (doRowstat s id []) :=
  doTensor_of_fine hf hw hc rfl rfl fun _ => (rowstat_fits _ _ _ _).2

/-- CAST stages nothing where it rounds to nearest, and else what its random words stage (R94, R191). -/
theorem doCast_of_fine (hc : startedCmd s id 0x44 = some c) :
    let e := tensorEnv s c (paramBytes s c) []
    ∃ w : Nat → Nat → Option Word, TensorRan s id c e (fun r => castRow e (tensorCfg s e r) (w r) (tensorRow s e r))
      (if fieldAt e.block 0x40 1 = 0 then [] else (operatorWords s e 3 []).2) (doCast s id []) := by
  intro e
  by_cases hnearest : fieldAt e.block 0x40 1 = 0
  · refine ⟨fun _ _ => none, ?_⟩
    rw [if_pos hnearest]
    exact doTensor_of_fine hf hw hc rfl (if_pos hnearest) fun r => cast_fits _ _ _ _ _ rfl (tensorRow_whole s c _ r)
  · refine ⟨fun r i => some ((operatorWords s e 3 []).1 (r * e.hdr.len + i)), ?_⟩
    rw [if_neg hnearest]
    exact doTensor_of_fine hf hw hc rfl (if_neg hnearest) fun r => cast_fits _ _ _ _ _ rfl (tensorRow_whole s c _ r)

theorem doRandomFill_of_fine (hc : startedCmd s id 0x45 = some c) :
    let e := tensorEnv s c (paramBytes s c) []
    e.hdr.outFmt = 0 ∨ e.hdr.outFmt = 6 →
      TensorRan s id c e (fun r => randomRow e (tensorCfg s e r) fun i => (operatorWords s e 4 []).1 (r * e.hdr.len + i))
        (operatorWords s e 4 []).2 (doRandomFill s id []) :=
  fun hfmt => doTensor_of_fine hf hw hc rfl rfl fun _ => (random_fits _ _ _ _ rfl hfmt).2

theorem doApplyFunction_of_fine (hc : startedCmd s id 0x46 = some c) :
    let e := tensorEnv s c (paramBytes s c) []
    ∃ bias, TensorRan s id c e (fun r => applyRow s e (tensorCfg s e r) bias (tensorRow s e r)) [] (doApplyFunction s id []) :=
  ⟨_, doTensor_of_fine hf hw hc rfl rfl fun r => apply_fits _ _ _ _ _ _ rfl (tensorRow_whole s c _ r)⟩

end

end Sys2Proof.Laws
end

section
/-! The seven tensor operators settled: what they write, stage and leave (06_gill_selection.md). -/

open Sys2Proof Sys2Proof.Machine

namespace Sys2Proof.Laws

/-- Settles O40: each operator runs to its end (`doTensor_of_fine`), and what its rows leave reads back where the areas lie apart. -/
theorem tensorCommandsWriteRows : Obligations.TensorCommandsWriteRows := by
  unfold Obligations.TensorCommandsWriteRows
  intro s id c b h e ran apart plain lane code key rec8 before kept hf hw
  have hrow (r : Nat) : (tensorRow s e r).codes.length = h.len := tensorRow_whole s c b r
  have hlane (purpose : Nat) : ∀ x ∈ (operatorWords s e purpose []).2, lane x := by
    intro x hx
    obtain ⟨chip, st, rfl⟩ := operatorWords_lane s e purpose [] x hx
    rfl
  have hspore (purpose : Nat) (hsrc : fieldAt b 0x42 1 = 1) := operatorWords_spore s (e := e) purpose [] hsrc
  refine ⟨fun hc => ?softmax, fun hc => ?topk, fun hc => ?threshold, fun hc => ?rowstat, fun hc => ?cast, fun hc hfmt => ?random,
    fun hc => ?apply⟩
  case softmax =>
    have hran := doSoftmax_of_fine hf hw hc
    obtain ⟨fl, hended⟩ := hran.completes hc (by decide) fun r => (softmax_fits e _ _ b rfl (hrow r)).2
    exact ⟨_, 0, 0, fl, [], rfl, hended, hran.outside, hran.only, rfl, rfl, rfl⟩
  case topk =>
    have hran := doTopk_of_fine hf hw hc
    obtain ⟨fl, hended⟩ := hran.completes hc (by decide) fun _ => nofun
    exact ⟨_, 0, 0, fl, [], rfl, hended, hran.outside, hran.only, ⟨rfl, rfl, rfl⟩, fun hapart hfixed _ hr =>
      hran.selects rfl hapart hfixed hr⟩
  case threshold =>
    have hran := doThresholdCompact_of_fine hf hw hc
    by_cases hfew : ∀ r, r < h.rows → (kept r).length ≤ 65536
    · obtain ⟨⟨fl, hended⟩, hread⟩ := hran.compacts hc rfl hfew
      exact ⟨_, 0, _, fl, [], rfl, hended, hran.outside, hran.only, rfl, .inl rfl, fun _ => ⟨rfl, rfl, hread⟩⟩
    · obtain ⟨fl, hended⟩ := hran.ended
      refine ⟨_, _, _, fl, [], rfl, hended, hran.outside, hran.only, rfl, ?_, fun hall => absurd hall hfew⟩
      split
      · exact .inr rfl
      · exact .inl rfl
  case rowstat =>
    have hran := doRowstat_of_fine hf hw hc
    obtain ⟨fl, hended⟩ := hran.completes hc (by decide) fun _ => nofun
    exact ⟨_, 0, 0, fl, [], rfl, hended, hran.outside, hran.only, ⟨rfl, rfl, rfl⟩, fun hapart _ hr => hran.pads hapart hr⟩
  case cast =>
    obtain ⟨w, hran⟩ := doCast_of_fine hf hw hc
    obtain ⟨fl, hended⟩ := hran.completes hc (by decide) fun _ => nofun
    refine ⟨_, 0, 0, fl, _, rfl, hended, hran.outside, hran.only, rfl, rfl, ?_, ?_⟩
    · split
      · exact nofun
      · exact hlane 3
    · rintro (hnearest | hsrc)
      · exact if_pos hnearest
      · exact (ite_congr rfl (fun _ => rfl) fun _ => congrArg Prod.snd (hspore 3 hsrc)).trans (ite_self _)
  case random =>
    have hran := doRandomFill_of_fine hf hw hc hfmt
    obtain ⟨fl, hended⟩ := hran.completes hc (by decide) fun _ => nofun
    refine ⟨_, 0, 0, fl, _, rfl, hended, hran.outside, hran.only, rfl, rfl, hlane 4, fun hsrc =>
      ⟨congrArg Prod.snd (hspore 4 hsrc), fun hapart hbits r hr j hj => ?_⟩⟩
    refine (hran.fills hapart hbits hr hj).trans ?_
    exact congrArg (fun p : (Nat → Word) × List Commit => leBytes 4 (p.1 (r * h.len + j)).toNat) (hspore 4 hsrc)
  case apply =>
    obtain ⟨bias, hran⟩ := doApplyFunction_of_fine hf hw hc
    obtain ⟨fl, hended⟩ := hran.completes hc (by decide) fun _ => nofun
    exact ⟨_, 0, 0, fl, [], rfl, hended, hran.outside, hran.only, rfl, rfl, rfl⟩

end Sys2Proof.Laws
end

section
/-! SUPPORT. RING_JUMP: the Ring lanes and the stream that its record moves (07_spore_and_ring.md, R189, R195). -/

open Sys2Proof Sys2Proof.Machine

namespace Sys2Proof.Laws

/-! ## A command whose body stages one commit -/

/-- The record of a command that ended with one staged commit leaves the streams and the chips that commit makes. -/
theorem doneCmd_record {s : State} {id op : Nat} {c : Cmd} {k : Commit} (hc : startedCmd s id op = some c) (hr : recordReady s c)
    (hk : commitHolds s k = true) (t : Tick) :
    let x := doCompletionRecordWrite (doneCmd s c [k]) id t
    let w := applyCommit (max s.now t) (stamp (doneCmd s c [k]) (max s.now t)) k
    x.streams = w.streams ∧ x.chips = w.chips := by
  obtain ⟨hcmd, rfl, -, -⟩ := startedCmd_spec hc
  have hdue := recordDue_of_ready hcmd hr 0 0 0 [k] rfl (List.forall_mem_singleton.2 hk) (max s.now t)
  obtain ⟨hstreams, -, -, -, -, -, hchips, -⟩ := recordDue_parts hdue
  exact ⟨hstreams, hchips⟩

/-! ## One lane of every active chip -/

theorem chipOf_congr {s u : State} (h : u.chips = s.chips) (k : Nat) : chipOf u k = chipOf s k :=
  congrArg (nth (Chip.fresh k) · k) h

/-- Lane `l` of chip `k` moved by x^`d`, from where it stands or from its start (R189, R195). -/
def jumpChip (l : Nat) (reset : Bool) (d : Qword) (k : Nat) (ch : Chip) : Chip :=
  { ch with lanes := modNth ch.lanes l fun _ => ringJump (ringMask l) (if reset then laneStart k l else nth 0#128 ch.lanes l) d }

theorem jumpChip_lane (l : Nat) (reset : Bool) (d : Qword) (k : Nat) (ch : Chip) {j : Nat} (hj : j < ch.lanes.length) :
    nth 0#128 (jumpChip l reset d k ch).lanes j =
      if j = l then ringJump (ringMask j) (if reset then laneStart k j else nth 0#128 ch.lanes j) d else nth 0#128 ch.lanes j := by
  refine (nth_modNth _ _ _ _ _).trans ?_
  by_cases h : j = l
  · subst h
    rw [if_pos ⟨rfl, hj⟩, if_pos rfl]
  · rw [if_neg fun ⟨hjl, _⟩ => h hjl, if_neg h]

/-- The lane of one chip set, as the commit of RING_JUMP sets it. -/
def jumpLane (l : Nat) (reset : Bool) (d : Qword) (s : State) (k : Nat) : State :=
  setLane s k l (ringJump (ringMask l) (if reset then laneStart k l else nth 0#128 (chipOf s k).lanes l) d)

theorem applyCommit_lanes (t : Tick) (s : State) (l : Nat) (reset : Bool) (d : Qword) :
    applyCommit t s (.lanes l reset d) = (activeChips s).foldl (jumpLane l reset d) s := rfl

theorem chipOf_jumpLane (l : Nat) (reset : Bool) (d : Qword) (s : State) {k : Nat} (h : k < s.chips.length) :
    chipOf (jumpLane l reset d s k) k = jumpChip l reset d k (chipOf s k) := chipOf_setChip s k _ h

theorem chipOf_jumpLane_ne (l : Nat) (reset : Bool) (d : Qword) (s : State) {c k : Nat} (h : k ≠ c) :
    chipOf (jumpLane l reset d s c) k = chipOf s k := chipOf_setChip_ne s _ h

@[simp] theorem jumpLane_length (l : Nat) (reset : Bool) (d : Qword) (s : State) (c : Nat) :
    (jumpLane l reset d s c).chips.length = s.chips.length := setChip_length s c _

@[simp] theorem jumpLane_streams (l : Nat) (reset : Bool) (d : Qword) (s : State) (c : Nat) :
    (jumpLane l reset d s c).streams = s.streams := rfl

theorem foldl_jumpLane_streams (l : Nat) (reset : Bool) (d : Qword) (cs : List Nat) (s : State) :
    (cs.foldl (jumpLane l reset d) s).streams = s.streams := by
  induction cs generalizing s with
  | nil => rfl
  | cons c cs ih => exact (ih _).trans (jumpLane_streams ..)

/-- Each chip of a list without repeats has its own lane moved once, and no other chip changes. -/
theorem chipOf_foldl_jumpLane (l : Nat) (reset : Bool) (d : Qword) {cs : List Nat} (hcs : cs.Nodup) {s : State} {k : Nat}
    (hk : k < s.chips.length) :
    chipOf (cs.foldl (jumpLane l reset d) s) k = if k ∈ cs then jumpChip l reset d k (chipOf s k) else chipOf s k := by
  induction cs generalizing s with
  | nil => rfl
  | cons c cs ih =>
    obtain ⟨hnotin, hrest⟩ := List.nodup_cons.1 hcs
    rw [List.foldl_cons, ih hrest (by rwa [jumpLane_length])]
    by_cases h : k = c
    · subst h
      rw [if_neg hnotin, if_pos List.mem_cons_self, chipOf_jumpLane l reset d s hk]
    · simp only [List.mem_cons, h, false_or, chipOf_jumpLane_ne l reset d s h]

theorem activeChips_nodup (s : State) : (activeChips s).Nodup := List.nodup_range.filter _

theorem mem_activeChips {s : State} {k : Nat} (hk : k < 8) : k ∈ activeChips s ↔ (chipOf s k).active = true := by
  simp [activeChips, hk]

/-- A lane after the commit of RING_JUMP: moved where its chip is active and it is the lane named, as before elsewhere. -/
theorem applyCommit_lanes_lane (t : Tick) (s : State) (l : Nat) (reset : Bool) (d : Qword) {k j : Nat} (hk : k < 8)
    (hchip : k < s.chips.length) (hj : j < (chipOf s k).lanes.length) :
    nth 0#128 (chipOf (applyCommit t s (.lanes l reset d)) k).lanes j =
      if (chipOf s k).active = true ∧ j = l then
        ringJump (ringMask j) (if reset then laneStart k j else nth 0#128 (chipOf s k).lanes j) d
      else nth 0#128 (chipOf s k).lanes j := by
  rw [applyCommit_lanes, chipOf_foldl_jumpLane l reset d (activeChips_nodup s) hchip]
  by_cases ha : (chipOf s k).active = true
  · rw [if_pos ((mem_activeChips hk).2 ha), jumpChip_lane l reset d k _ hj]
    simp only [ha, true_and]
  · rw [if_neg fun h => ha ((mem_activeChips hk).1 h), if_neg fun h => ha h.1]

/-! ## The command -/

section
variable {s : State} {id : Nat} {c : Cmd} (hf : hostFine s = true) (hc : startedCmd s id 0x47 = some c)
include hf hc

/-- RING_JUMP with target 0 stages a lane of every active chip. -/
theorem doRingJump_lane (ht : fieldAt (paramBytes s c) 0 1 = 0) : doRingJump s id = doneCmd s c
    [.lanes (fieldAt (paramBytes s c) 2 1) (bit (fieldAt (paramBytes s c) 1 1) 0) (qword (paramBytes s c) 0x10)] := by
  unfold doRingJump
  rw [onCmd_of_started hc, withParams_of_fine hf]
  exact if_pos ht

/-- RING_JUMP with another target stages the stream it names, where that is open. -/
theorem doRingJump_stream (ht : fieldAt (paramBytes s c) 0 1 ≠ 0)
    (ho : (streamOf s (fieldAt (paramBytes s c) 4 2)).isOpen = true) : doRingJump s id = doneCmd s c
    [.streamRing (fieldAt (paramBytes s c) 4 2) (bit (fieldAt (paramBytes s c) 1 1) 0) (qword (paramBytes s c) 0x10)] := by
  unfold doRingJump
  rw [onCmd_of_started hc, withParams_of_fine hf]
  exact (if_neg ht).trans (if_neg (by rw [ho]; decide))

end

/-- The state a stream jumps from: its starting value where RESET is set or RING_BOUND clear (R193, R195). -/
theorem jumpStream_eq (st : Stream) (reset : Bool) (d : Qword) :
    jumpStream st reset d = { st with
      ringBound := true
      ring := ringJump (ringMask 0) (if reset = true ∨ st.ringBound = false then
        (if st.seed = 0#128 then ringBase 0 else st.seed) else st.ring) d } := by
  simp only [jumpStream, streamRingStart, Bool.or_eq_true, Bool.not_eq_true']

/-- Settles O36: the body stages one commit (`doRingJump_lane`, `doRingJump_stream`), and the record leaves what it makes of the
lanes (`applyCommit_lanes_lane`) or of the stream (`jumpStream_eq`). -/
theorem ringJumpMovesLanesAndStreams : Obligations.RingJumpMovesLanesAndStreams := by
  unfold Obligations.RingJumpMovesLanesAndStreams
  intro s id c hf hc hr b d reset
  refine ⟨fun ht => ?lane, fun ht ho => ?stream⟩
  case lane =>
    refine ⟨_, congrArg Host.Outcome.next (doRingJump_lane hf hc ht), rfl, fun t => ⟨_, rfl, ?_⟩⟩
    obtain ⟨hstreams, hchips⟩ := doneCmd_record (k := .lanes (fieldAt b 2 1) reset d) hc hr rfl t
    refine ⟨hstreams.trans (foldl_jumpLane_streams ..), fun k hk l hl hlen => ?_⟩
    have hmoved := applyCommit_lanes_lane (max s.now t) (stamp (doneCmd s c [.lanes (fieldAt b 2 1) reset d]) (max s.now t))
      (fieldAt b 2 1) reset d hk hlen hl
    rw [← chipOf_congr hchips] at hmoved
    exact hmoved
  case stream =>
    refine ⟨_, congrArg Host.Outcome.next (doRingJump_stream hf hc ht ho), rfl, fun t => ⟨_, rfl, ?_⟩⟩
    obtain ⟨hstreams, hchips⟩ := doneCmd_record (k := .streamRing (fieldAt b 4 2) reset d) hc hr ho t
    obtain ⟨hself, hother⟩ := streamOf_of_mapIns (s := s) hstreams
    exact ⟨hchips, hself.trans (jumpStream_eq _ reset d), hother⟩

end Sys2Proof.Laws
end

section
/-! SUPPORT. LOAD_MODEL, UNLOAD_MODEL and SET_MODEL_PRIORITY: what each stages and writes (10_models_and_placement.md). -/

open Sys2Proof Sys2Proof.Machine

namespace Sys2Proof.Laws

/-! ## A body that only stages -/

/-- An event that ends its command with a status, a DETAIL and staged commits, and changes nothing else. -/
def endsStaging (s : State) (i : Instr) (id status detail : Nat) (commits : List Commit) : Prop :=
  ∃ u, exec i s = .next u ∧ ranTo s u id status detail 0 commits ∧ { u with cmds := s.cmds } = s

theorem endsStaging_of_finish {s v : State} {i : Instr} {id op status detail : Nat} {c : Cmd} {commits : List Commit}
    (hc : startedCmd s id op = some c) (hi : exec i s = .next v) (hv : v = finishCmd s c.id status detail 0 commits) :
    endsStaging s i id status detail commits := by
  obtain ⟨-, rfl, -, -⟩ := startedCmd_spec hc
  exact ⟨_, hi, hv ▸ ranTo_finish rfl _ _ _ _ _, hv ▸ rfl⟩

/-! ## Commands on a held model -/

theorem onModel_held {s : State} {c : Cmd} {m : Model} (hm : modelOf s (pktModel c) = some m) (hst : m.state ≠ 4) (k : Model → State) :
    onModel s c k = k m := by
  rw [onModel, hm]
  exact if_neg hst

theorem onModel_suspended {s : State} {c : Cmd} {m : Model} (hm : modelOf s (pktModel c) = some m) (hst : m.state = 4)
    (k : Model → State) : onModel s c k = finishCmd s c.id 0x31 0 0 [] := by
  rw [onModel, hm]
  exact if_pos hst

theorem onModel_absent {s : State} {c : Cmd} (hm : modelOf s (pktModel c) = none) (k : Model → State) :
    onModel s c k = lateBad s c 0x1C := by
  rw [onModel, hm]

theorem exec_unloadModel_of_started {s : State} {id : Nat} {c : Cmd} (hc : startedCmd s id 0x11 = some c) :
    exec (.unloadModel id) s = .next (onModel s c fun _ => doneCmd s c [.unloadModel (pktModel c)]) :=
  congrArg Host.Outcome.next (onCmd_of_started hc _)

theorem exec_setModelPriority_of_started {s : State} {id : Nat} {c : Cmd} (hc : startedCmd s id 0x12 = some c) :
    exec (.setModelPriority id) s = .next (onModel s c fun _ => doneCmd s c [.priority (pktModel c) (pkt c 0x20 1)]) :=
  congrArg Host.Outcome.next (onCmd_of_started hc _)

/-! ## The model that LOAD_MODEL builds -/

/-- Rows read as one block are the rows read one by one (R254). -/
theorem rowsOf_hostBytes (s : State) (a size n : Nat) :
    rowsOf (hostBytes s a (n * size)) size n = (List.range n).map fun i => hostBytes s (a + size * i) size := by
  refine List.map_congr_left fun i hi => slice_memBytes _ _ _ _ _ ?_
  calc size * i + size = size * (i + 1) := (Nat.mul_succ size i).symm
    _ ≤ size * n := Nat.mul_le_mul_left size (List.mem_range.1 hi)
    _ = n * size := Nat.mul_comm size n

/-- Words read as one block are the words read one by one. -/
theorem wordsAt_hostBytes (s : State) (a n : Nat) :
    wordsAt (hostBytes s a (4 * n)) n = (List.range n).map fun i => BitVec.ofNat 32 (leNat (hostBytes s (a + 4 * i) 4)) := by
  refine List.map_congr_left fun i hi => ?_
  have hin : 4 * i + 4 ≤ 4 * n := by have := List.mem_range.1 hi; omega
  exact congrArg (BitVec.ofNat 32) (fieldAt_hostBytes s a hin)

/-- The model a LOAD_MODEL builds where every read succeeds, before its overhang images are written. -/
def loadedModel (s : State) (c : Cmd) : Model :=
  let d := paramBytes s c
  let part (on : Bool) (o n : Nat) : List Byte := if on then hostBytes s (fieldAt d o 8) n else []
  builtModel s d (hostBytes s (fieldAt d 0x18 8) (dVocab d * dRowBytes d))
    (part (dHasBias d) 0x20 (4 * dVocab d)) (part (dHasNormW d) 0x28 (4 * dHidden d))
    (part (dHeads d != 0) 0x30 (dHeads d * dHidden d * dRowBytes d)) (part (dHeads d != 0) 0x38 (2 * dHidden d))
    (nth 2 c.reserved 0) (nth 0 c.reserved 1)

theorem loadedModel_rows (s : State) (c : Cmd) :
    let d := paramBytes s c
    (loadedModel s c).rows =
      (List.range (dVocab d)).map fun i => hostBytes s (fieldAt d 0x18 8 + dRowBytes d * i) (dRowBytes d) :=
  rowsOf_hostBytes _ _ _ _

theorem loadedModel_bias_none {s : State} {c : Cmd} (hb : dHasBias (paramBytes s c) = false) : (loadedModel s c).bias = none :=
  if_neg (by rw [hb]; decide)

theorem loadedModel_bias_some {s : State} {c : Cmd} (hb : dHasBias (paramBytes s c) = true) :
    let d := paramBytes s c
    (loadedModel s c).bias =
      some ((List.range (dVocab d)).map fun i => BitVec.ofNat 32 (leNat (hostBytes s (fieldAt d 0x20 8 + 4 * i) 4))) := by
  simp only [loadedModel, builtModel, if_pos hb, wordsAt_hostBytes]

/-- The MODEL_STATE and the resident rows are those reserved when the load started (R263). -/
theorem loadedModel_placed {s : State} {c : Cmd} (hr : c.reserved.length = 3) :
    some (loadedModel s c).state = c.reserved[0]? ∧ some (loadedModel s c).resident = c.reserved[1]? := by
  have hlt {i : Nat} (hi : i < 3) (k : Nat) : some (nth k c.reserved i) = c.reserved[i]? := by
    rw [nth, List.getD_eq_getElem?_getD, List.getElem?_eq_getElem (hr ▸ hi), Option.getD_some]
  exact ⟨hlt (by decide) 2, hlt (by decide) 0⟩

/-! ## Its overhang, and its end -/

/-- Where the images of a model's overhang granules lie in its buffer (R267). -/
def overhangAreas (m : Model) : List (Nat × Nat) := (overhangGranules m).map fun g => (imageAddr m g, (granuleImage m g).length)

/-- Writing a model's overhang changes host memory alone, and that only in the images' areas. -/
theorem writeOverhang_host {s : State} (hw : memoriesWf s = true) (ht : trainedLinks s ≠ []) (m : Model) :
    ∃ host, (writeOverhang s m).1 = { s with host := host } ∧
      sameOutside (overhangAreas (writeOverhang s m).2) s { s with host := host } := by
  obtain ⟨houtside, -, -, hrest⟩ := foldWrites_inside (overhangAreas m) (imageAddr m) (granuleImage m) (overhangGranules m)
    (fun g hg => ⟨_, List.mem_map_of_mem hg, Nat.le_refl _, Nat.le_refl _⟩) s hw ht
  exact ⟨_, congrArg (fun x : State => { x with host := (writeOverhang s m).1.host }) hrest, houtside⟩

/-- LOAD_MODEL where every read succeeds: the overhang written, and the model staged with it. -/
theorem doLoadModel_of_fine {s : State} {id : Nat} {c : Cmd} (hf : hostFine s = true) (hc : startedCmd s id 0x10 = some c) :
    let p := writeOverhang s (loadedModel s c)
    doLoadModel s id = if p.2.state = 3 then finishCmd p.1 c.id 0x04 (overhangGranules p.2).length 8 [.loadModel (pktModel c) p.2]
      else doneCmd p.1 c [.loadModel (pktModel c) p.2] := by
  unfold doLoadModel
  rw [onCmd_of_started hc, withParams_of_fine hf]
  simp only [withList_of_fine hf, withIf_of_fine hf]
  rfl

end Sys2Proof.Laws
end

section
/-! The model commands settled: LOAD_MODEL, UNLOAD_MODEL and SET_MODEL_PRIORITY (10_models_and_placement.md). -/

open Sys2Proof Sys2Proof.Machine

namespace Sys2Proof.Laws

/-- The clause of ModelCommandsStage about LOAD_MODEL: `loadedModel` is what it stages, once its overhang is written. -/
theorem loadModel_stages {s : State} {id : Nat} {c : Cmd} (hf : hostFine s = true) (hw : memoriesWf s = true)
    (hc : startedCmd s id 0x10 = some c) :
    let m := (writeOverhang s (loadedModel s c)).2
    ∃ u, exec (.loadModel id) s = .next u ∧
      (m.state ≠ 3 → ranTo s u id 0 0 0 [.loadModel (pktModel c) m]) ∧
      (m.state = 3 → ranTo s u id 0x04 (overhangGranules m).length 8 [.loadModel (pktModel c) m]) ∧
      sameOutside (overhangAreas m) s u ∧ { u with host := s.host, cmds := s.cmds } = s := by
  intro m
  obtain ⟨host, hwritten, houtside⟩ := writeOverhang_host hw (trained_of_fine hf) (loadedModel s c)
  have hrun := doLoadModel_of_fine hf hc
  obtain ⟨-, rfl, -, -⟩ := startedCmd_spec hc
  dsimp only at hrun
  rw [hwritten] at hrun
  by_cases hst : m.state = 3
  · exact ⟨_, congrArg Host.Outcome.next (hrun.trans (if_pos hst)), fun hne => absurd hst hne,
      fun _ => ranTo_finish rfl _ _ _ _ _, houtside, rfl⟩
  · exact ⟨_, congrArg Host.Outcome.next (hrun.trans (if_neg hst)), fun _ => ranTo_finish rfl _ _ _ _ _,
      fun he => absurd he hst, houtside, rfl⟩

/-- Settles O35: UNLOAD_MODEL and SET_MODEL_PRIORITY end by how the model they name stands (`onModel_held`, `onModel_suspended`,
`onModel_absent`), and LOAD_MODEL stages `loadedModel`, made of what host memory holds (`loadModel_stages`). -/
theorem modelCommandsStage : Obligations.ModelCommandsStage := by
  unfold Obligations.ModelCommandsStage
  intro s id c mid
  refine ⟨fun m hm hst => ⟨fun hc => ?_, fun hc => ?_⟩, fun m hm hst => ⟨fun hc => ?_, fun hc => ?_⟩,
    fun hm => ⟨fun hc => ?_, fun hc => ?_⟩, fun hf hw hc hr => ?load⟩
  · exact endsStaging_of_finish hc (exec_unloadModel_of_started hc) (onModel_held hm hst _)
  · exact endsStaging_of_finish hc (exec_setModelPriority_of_started hc) (onModel_held hm hst _)
  · exact endsStaging_of_finish hc (exec_unloadModel_of_started hc) (onModel_suspended hm hst _)
  · exact endsStaging_of_finish hc (exec_setModelPriority_of_started hc) (onModel_suspended hm hst _)
  · exact endsStaging_of_finish hc (exec_unloadModel_of_started hc) (onModel_absent hm _)
  · exact endsStaging_of_finish hc (exec_setModelPriority_of_started hc) (onModel_absent hm _)
  case load =>
    obtain ⟨u, hrun, hresident, hoverhang, houtside, hkept⟩ := loadModel_stages hf hw hc
    obtain ⟨hstate, hrows⟩ := loadedModel_placed (s := s) hr
    exact ⟨u, _, hrun, hresident, hoverhang, rfl, hstate, hrows, rfl, loadedModel_rows s c, loadedModel_bias_none,
      loadedModel_bias_some, rfl, houtside, hkept⟩

end Sys2Proof.Laws
end

section
/-! SUPPORT. NOP, FENCE, SET_WAKE_TOLERANCE and SET_MODE: how each ends, and the MODE_CTRL that a SET_MODE's record leaves (R341, R342,
Table CMD-13). -/

open Sys2Proof Sys2Proof.Machine

namespace Sys2Proof.Laws

/-! ## Ordering commands -/

section
variable {s : State} {id : Nat} {c : Cmd}

theorem exec_nop_of_started (hc : startedCmd s id 0x01 = some c) : exec (.nop id) s = .next (doneCmd s c []) :=
  congrArg Host.Outcome.next (onCmd_of_started hc _)

theorem exec_setWakeTolerance_of_started (hc : startedCmd s id 0x71 = some c) :
    exec (.setWakeTolerance id) s = .next (doneCmd s c [.wake (BitVec.ofNat 32 (pkt c 0x20 4))]) :=
  congrArg Host.Outcome.next (onCmd_of_started hc _)

theorem exec_fence_of_started (hc : startedCmd s id 0x02 = some c) :
    exec (.fence id) s = .next (if fenceReady s c then doneCmd s c [] else s) :=
  congrArg Host.Outcome.next (onCmd_of_started hc _)

end

/-- A command of a FENCE's scope: of its ring with scope 0, of its function otherwise (Table CMD-13). -/
def inFenceScope (c d : Cmd) : Prop := if pkt c 0x20 1 = 0 then d.ring = c.ring else d.fn = c.fn

/-- A FENCE may end where no earlier command of its scope is left. -/
theorem fenceReady_iff (s : State) (c : Cmd) :
    fenceReady s c = true ↔ ∀ d ∈ s.cmds, d.id < c.id → ¬ inFenceScope c d := by
  simp only [fenceReady, List.all_eq_true, Bool.or_eq_true, Bool.not_eq_true', decide_eq_false_iff_not, inFenceScope]
  refine forall₂_congr fun d _ => ?_
  split <;>
  · rw [beq_eq_false_iff_ne]
    exact Decidable.imp_iff_not_or.symm

/-- An earlier command of its scope holds a FENCE. -/
theorem fenceReady_eq_false {s : State} {c d : Cmd} (hd : d ∈ s.cmds) (hid : d.id < c.id) (hscope : inFenceScope c d) :
    fenceReady s c = false :=
  Bool.eq_false_iff.2 fun h => (fenceReady_iff s c).1 h d hd hid hscope

/-! ## SET_MODE -/

/-- Any earlier command holds a SET_MODE back (R341). -/
theorem mayStart_setMode_behind {s : State} {c d : Cmd} (hop : pktOp c = 0x70) (hd : d ∈ s.cmds) (hid : d.id < c.id) :
    mayStart s c = false := by
  have hheld : holdsBack s d c = true := by
    unfold holdsBack
    rw [hop]
    exact Bool.or_true _
  have hall : (s.cmds.all fun d => !decide (d.id < c.id) || !holdsBack s d c) = false :=
    List.all_eq_false.2 ⟨d, hd, by rw [hheld, decide_eq_true hid]; decide⟩
  unfold mayStart
  simp only [hop, hall, Bool.false_and, Bool.or_false]
  exact Bool.and_false _

/-- What R341, R390 and the reserved codes of Table CMD-19 (R14) refuse. -/
theorem modeRefused_iff (s : State) (mask value : Word) :
    let v := newMode s.regs.modeCtrl mask value
    modeRefused s mask value = true ↔
      (modeLock v ≠ modeLock s.regs.modeCtrl ∧ s.models ≠ []) ∨ (modeNum v = 1 ∧ modeFlush v = 2) ∨
        (modeLock v = true ∧ v.getLsbD 1 = false) ∨ modeFlush v = 3 ∨ modeNz v = 3 ∨ modeProfile v = 3 := by
  intro v
  simp only [modeRefused, Bool.or_eq_true, Bool.and_eq_true, bne_iff_ne, beq_iff_eq, Bool.not_eq_true', List.isEmpty_eq_false_iff, or_assoc, v]
  exact or_congr Iff.rfl or_left_comm

section
variable {s : State} {id : Nat} {c : Cmd} (hc : startedCmd s id 0x70 = some c)
include hc

theorem exec_setMode_refused (h : modeRefused s (BitVec.ofNat 32 (pkt c 0x20 4)) (BitVec.ofNat 32 (pkt c 0x24 4)) = true) :
    exec (.setMode id) s = .next (lateBad s c 0x24) :=
  congrArg Host.Outcome.next ((onCmd_of_started hc _).trans (if_pos h))

theorem exec_setMode_staged (h : ¬ modeRefused s (BitVec.ofNat 32 (pkt c 0x20 4)) (BitVec.ofNat 32 (pkt c 0x24 4)) = true) :
    exec (.setMode id) s = .next (doneCmd s c [.mode (BitVec.ofNat 32 (pkt c 0x20 4)) (BitVec.ofNat 32 (pkt c 0x24 4))
      (if bit (pkt c 0x2A 1) 0 then some (pkt c 0x28 2) else none)]) :=
  congrArg Host.Outcome.next ((onCmd_of_started hc _).trans (if_neg h))

/-- The record of a SET_MODE leaves the MODE_CTRL and the cap that it staged. -/
theorem setMode_record (hr : recordReady s c) (mask value : Word) (cap : Option Nat) (t : Tick) :
    let x := doCompletionRecordWrite (doneCmd s c [.mode mask value cap]) id t
    x.regs.modeCtrl = newMode s.regs.modeCtrl mask value ∧ x.power.cap = cap.getD s.power.cap := by
  obtain ⟨hcmd, rfl, -, -⟩ := startedCmd_spec hc
  have hdue := recordDue_of_ready hcmd hr 0 0 0 [.mode mask value cap] rfl (List.forall_mem_singleton.2 rfl) (max s.now t)
  obtain ⟨-, -, -, -, -, -, -, -, -, hmode, -, hcap⟩ := recordDue_parts hdue
  obtain ⟨happlied, hcapped, -⟩ :=
    applyCommit_mode (max s.now t) (stamp (doneCmd s c [.mode mask value cap]) (max s.now t)) mask value cap
  exact ⟨hmode.trans happlied, hcap.trans hcapped⟩

end

/-- With DETERMINISTIC set, ORDER_MODE is FIXED (R304). -/
theorem order_of_modeWf {s : State} (h : modeWf s = true) (hdet : s.regs.modeCtrl.getLsbD 0 = true) :
    s.regs.modeCtrl.getLsbD 1 = true := by
  simp only [modeWf, hdet, Bool.not_true, Bool.false_or, Bool.and_eq_true] at h
  exact h.1

/-- ORDER_MODE 1 stays where the mask leaves it out. -/
theorem newMode_order_kept {w mask : Word} (value : Word) (hw : w.getLsbD 1 = true) (hm : mask.getLsbD 1 = false) :
    (newMode w mask value).getLsbD 1 = true := by
  rw [(newMode_bits w mask value).2, hm, hw]
  rfl

/-- A mask of no bits leaves a MODE_CTRL whose ORDER_MODE is FIXED under DETERMINISTIC. -/
theorem newMode_zero {w : Word} (value : Word) (hw : w.getLsbD 0 = true → w.getLsbD 1 = true) : newMode w 0#32 value = w := by
  obtain ⟨hbits, hbit1⟩ := newMode_bits w 0#32 value
  simp only [BitVec.getLsbD_zero, Bool.false_eq_true, if_false] at hbits hbit1
  rw [hbits 0 (by decide) (by decide)] at hbit1
  refine BitVec.eq_of_getLsbD_eq fun b hb => ?_
  by_cases hb1 : b = 1
  · subst hb1
    cases hdet : w.getLsbD 0 with
    | false => rw [hbit1, hdet, Bool.or_false]
    | true => rw [hbit1, hw hdet, Bool.true_or]
  · exact hbits b hb hb1

end Sys2Proof.Laws
end

section
/-! The ordering and mode commands settled: NOP, FENCE, SET_WAKE_TOLERANCE and SET_MODE (12_operator_reference.md). -/

open Sys2Proof Sys2Proof.Machine

namespace Sys2Proof.Laws

/-- Settles O25: NOP and SET_WAKE_TOLERANCE end at once, and FENCE by whether an earlier command of its scope is left
(`fenceReady_iff`). -/
theorem nopFenceAndWakeToleranceRun : Obligations.NopFenceAndWakeToleranceRun := by
  unfold Obligations.NopFenceAndWakeToleranceRun
  intro s id c
  refine ⟨fun hc => ?nop, fun hc => ?wake, fun hc => ⟨fun hnone => ?fenceEnds, fun ⟨d, hd, hid, hscope⟩ => ?fenceWaits⟩⟩
  case nop => exact endsStaging_of_finish hc (exec_nop_of_started hc) rfl
  case wake => exact endsStaging_of_finish hc (exec_setWakeTolerance_of_started hc) rfl
  case fenceEnds => exact endsStaging_of_finish hc (exec_fence_of_started hc) (if_pos ((fenceReady_iff s c).2 hnone))
  case fenceWaits =>
    have hheld := fenceReady_eq_false hd hid hscope
    rw [exec_fence_of_started hc, hheld]
    rfl

/-- Settles O26: a SET_MODE is held by any earlier command (`mayStart_setMode_behind`), refused by `modeRefused_iff`, and otherwise its
record leaves `newMode` and the cap (`setMode_record`), bit by bit as `newMode_bits` says. -/
theorem setModeChangesSelectedBits : Obligations.SetModeChangesSelectedBits := by
  unfold Obligations.SetModeChangesSelectedBits
  intro s id c hwf
  refine ⟨fun hop ⟨d, hd, hid⟩ => mayStart_setMode_behind hop hd hid, fun hc hr => ?_⟩
  intro mask value w v refused
  have hiff : modeRefused s mask value = true ↔ refused := modeRefused_iff s mask value
  refine ⟨fun hbad => ?refuses, fun hgood => ?stages⟩
  case refuses => exact endsStaging_of_finish hc (exec_setMode_refused hc (hiff.2 hbad)) rfl
  case stages =>
    refine ⟨_, exec_setMode_staged hc (mt hiff.1 hgood), rfl, rfl, fun t => ⟨_, rfl, ?_⟩⟩
    obtain ⟨hmode, hcap⟩ := setMode_record hc hr mask value (if bit (pkt c 0x2A 1) 0 then some (pkt c 0x28 2) else none) t
    obtain ⟨hbits, hbit1⟩ := newMode_bits w mask value
    have horder : w.getLsbD 0 = true → w.getLsbD 1 = true := order_of_modeWf hwf
    rw [hmode, hcap]
    refine ⟨hbits, hbit1, fun hdet hm => newMode_order_kept value (horder hdet) hm, ?zero, ?cap⟩
    case zero =>
      intro hm
      rw [hm]
      exact newMode_zero value horder
    case cap =>
      by_cases hset : pkt c 0x2A 1 % 2 = 1
      · rw [if_pos hset, if_pos (by simpa [bit] using hset)]
        rfl
      · rw [if_neg hset, if_neg (by simpa [bit] using hset)]
        rfl

end Sys2Proof.Laws
end

section
/-! SUPPORT. The dump of a REPLAY: its header, its sections, and what writing it leaves of host memory (R335, Table OPS-9). -/

open Sys2Proof Sys2Proof.Machine

namespace Sys2Proof.Laws

/-! ## The header -/

/-- What the header of a dump holds (Table OPS-9). -/
structure DumpHead where
  sid : Nat
  mask : Nat
  len : Nat
  step : Nat
  summary : Nat
  crush : Nat
  matched : Nat
  entry : EntryVals

/-- The fields of a header before its result entry: widths in bytes and values. -/
def DumpHead.fields (h : DumpHead) : List (Nat × Nat) :=
  [(2, h.sid), (1, h.mask), (1, 0), (4, h.len), (6, h.step), (2, 0), (4, h.summary), (2, h.crush), (1, h.matched), (9, 0)]

/-- The 0x100 bytes of a header. -/
def DumpHead.bytes (h : DumpHead) : List Byte := segs h.fields ++ (entryBytes h.entry ++ leBytes 64 0)

theorem DumpHead.fields_length (h : DumpHead) : (segs h.fields).length = 0x20 := by
  rw [segs_length]
  rfl

theorem DumpHead.bytes_length (h : DumpHead) : h.bytes.length = 0x100 := by
  rw [DumpHead.bytes, List.length_append, h.fields_length, List.length_append, entryBytes_length, leBytes_length]

/-- A field of the header reads back at its offset. -/
theorem DumpHead.bytes_field {h : DumpHead} {pre post : List (Nat × Nat)} {n v : Nat} (hf : h.fields = pre ++ (n, v) :: post) :
    fieldAt h.bytes (segLen pre) n = v % 256 ^ n := by
  rw [DumpHead.bytes, hf]
  exact fieldAt_segs pre post n v _ _ rfl

theorem DumpHead.bytes_sid (h : DumpHead) : fieldAt h.bytes 0 2 = h.sid % 2 ^ 16 := bytes_field (pre := h.fields.take 0) rfl
theorem DumpHead.bytes_mask (h : DumpHead) : fieldAt h.bytes 2 1 = h.mask % 2 ^ 8 := bytes_field (pre := h.fields.take 1) rfl
theorem DumpHead.bytes_len (h : DumpHead) : fieldAt h.bytes 4 4 = h.len % 2 ^ 32 := bytes_field (pre := h.fields.take 3) rfl
theorem DumpHead.bytes_step (h : DumpHead) : fieldAt h.bytes 8 6 = h.step % 2 ^ 48 := bytes_field (pre := h.fields.take 4) rfl
theorem DumpHead.bytes_matched (h : DumpHead) : fieldAt h.bytes 0x16 1 = h.matched % 2 ^ 8 :=
  bytes_field (pre := h.fields.take 8) rfl

/-- A field of the result entry reads back from 0x20 on. -/
theorem DumpHead.bytes_entry (h : DumpHead) {o n : Nat} (hin : o + n ≤ 160) :
    fieldAt h.bytes (0x20 + o) n = fieldAt (entryBytes h.entry) o n := by
  rw [DumpHead.bytes, ← h.fields_length, fieldAt_right]
  exact fieldAt_left _ _ _ _ (by rwa [entryBytes_length])

/-! ## The sections -/

/-- The writes of sections that lie one after another from an address on. -/
def sectionWrites : Nat → List (Nat × List Byte) → List (Nat × List Byte)
  | _, [] => []
  | a, (n, bs) :: rest => (a, bs) :: sectionWrites (a + n) rest

theorem writeSections_eq (s : State) (a : Nat) (l : List (Nat × List Byte)) :
    writeSections s a l = writeAll s (sectionWrites a l) := by
  induction l generalizing s a with
  | nil => rfl
  | cons p l ih => exact ih _ _

theorem le_of_mem_sectionWrites {a : Nat} {l : List (Nat × List Byte)} {w : Nat × List Byte} (h : w ∈ sectionWrites a l) :
    a ≤ w.1 := by
  induction l generalizing a with
  | nil => cases h
  | cons p l ih =>
    rcases List.mem_cons.1 h with rfl | h
    · exact Nat.le_refl _
    · exact Nat.le_trans (Nat.le_add_right _ _) (ih h)

/-- Sections that fit what is reserved for them end with it. -/
theorem sectionWrites_end {a : Nat} {l : List (Nat × List Byte)} (hfit : ∀ p ∈ l, p.2.length ≤ p.1) {w : Nat × List Byte}
    (h : w ∈ sectionWrites a l) : w.1 + w.2.length ≤ a + (l.map Prod.fst).sum := by
  induction l generalizing a with
  | nil => cases h
  | cons p l ih =>
    obtain ⟨hp, hl⟩ := List.forall_mem_cons.1 hfit
    rw [List.map_cons, List.sum_cons]
    rcases List.mem_cons.1 h with rfl | h
    · exact Nat.add_le_add_left (Nat.le_trans hp (Nat.le_add_right _ _)) _
    · rw [← Nat.add_assoc]
      exact ih hl h

/-! ## Writing the dump -/

/-- What a REPLAY writes: the header, and behind its 0x100 bytes the sections. -/
def dumpWrites (a : Nat) (h : DumpHead) (sections : List (Nat × List Byte)) : List (Nat × List Byte) :=
  (a, h.bytes) :: sectionWrites (a + 0x100) sections

/-- Every write of the dump lies at or behind its address, and inside what its sections reserve where they fit it. -/
theorem dumpWrites_bounds {a : Nat} {h : DumpHead} {sections : List (Nat × List Byte)} {w : Nat × List Byte}
    (hw : w ∈ dumpWrites a h sections) : a ≤ w.1 ∧
      ((∀ p ∈ sections, p.2.length ≤ p.1) → w.1 + w.2.length ≤ a + (0x100 + (sections.map Prod.fst).sum)) := by
  rcases List.mem_cons.1 hw with rfl | hw
  · refine ⟨Nat.le_refl _, fun _ => ?_⟩
    dsimp only
    rw [h.bytes_length]
    omega
  · refine ⟨Nat.le_trans (Nat.le_add_right _ _) (le_of_mem_sectionWrites hw), fun hfit => ?_⟩
    rw [← Nat.add_assoc]
    exact sectionWrites_end hfit hw

section
variable {s : State} (hw : memoriesWf s = true) (ht : trainedLinks s ≠ [])
include hw ht

/-- A byte that no write covers stays. -/
theorem writeAll_untouched {ws : List (Nat × List Byte)} {q : Nat} (hq : ∀ w ∈ ws, q < w.1 ∨ w.1 + w.2.length ≤ q) :
    memByte (writeAll s ws).host q = memByte s.host q := by
  have hareas := (writeAll_ran (ws.map fun w => (w.1, w.2.length)) ws
    (fun w hmem => ⟨_, List.mem_map_of_mem hmem, Nat.le_refl _, Nat.le_refl _⟩) s hw ht).1
  exact hareas q (List.forall_mem_map.2 hq)

/-- Writes change nothing but host memory. -/
theorem writeAll_onlyHost (ws : List (Nat × List Byte)) : ∃ m, writeAll s ws = { s with host := m } := by
  obtain ⟨-, -, -, hrest⟩ := foldWrites_inside (ws.map fun w => (w.1, w.2.length)) (fun w => w.1) (fun w => w.2) ws
    (fun w hmem => ⟨_, List.mem_map_of_mem hmem, Nat.le_refl _, Nat.le_refl _⟩) s hw ht
  exact ⟨_, congrArg (fun u : State => { u with host := (writeAll s ws).host }) hrest⟩

/-- The header of a dump that is written reads back. -/
theorem writeAll_dumpHead (a : Nat) (h : DumpHead) (sections : List (Nat × List Byte)) :
    memBytes (writeAll s (dumpWrites a h sections)).host a 0x100 = h.bytes := by
  have hread := writeAll_read (dumpWrites a h sections) (a, h.bytes) List.mem_cons_self (fun w hmem => ?apart) s hw ht
  · rwa [h.bytes_length] at hread
  case apart =>
    rcases List.mem_cons.1 hmem with rfl | hmem
    · exact .inl rfl
    · refine .inr (.inr ?_)
      rw [h.bytes_length]
      exact le_of_mem_sectionWrites hmem

end

end Sys2Proof.Laws
end

section
/-! SUPPORT. A REPLAY that runs undisturbed: the row it runs, and the dump it writes (R334 to R336). -/

open Sys2Proof Sys2Proof.Machine

namespace Sys2Proof.Laws

/-! ## Lengths of a replayed row -/

theorem parseRow_length_le (f : Fmt) (block n : Nat) (bs : List Byte) : (parseRow f block n bs).codes.length ≤ n := by
  show (unpackCodes (fmtWidth f) n bs).length ≤ n
  unfold unpackCodes
  split
  · exact List.length_take_le _ _
  · exact Nat.le_of_eq (groupCodes_length _ _ _)

/-- The number of indices of a row by its input. -/
def inputLength : RowInput → Nat
  | .hidden m _ => m.rows.length
  | .scores _ codes => codes.length

/-- The elements of a row by its input, in index order. -/
def inputElems (sc : StreamCfg) (rc : RunCfg) : RowInput → List Elem
  | .hidden m v =>
    let x := operandVec sc.md m.fmt m.block (normStage sc rc m v).1
    modelElems sc rc m x.1 x.2
  | .scores f codes => scoreElems sc rc f codes

theorem inputElems_length (sc : StreamCfg) (rc : RunCfg) (inp : RowInput) : (inputElems sc rc inp).length = inputLength inp := by
  cases inp <;>
  · dsimp only [inputElems, modelElems, scoreElems, inputLength]
    rw [List.length_map, withIndex_length]

/-- The cut leaves the scores as they are, however a row ends. -/
theorem runRow_scores (sc : StreamCfg) (rc : RunCfg) (inp : RowInput) :
    (runRow sc rc inp).scores = (inputElems sc rc inp).map fun e => e.score := by
  unfold runRow
  cases inp <;>
  · dsimp only [inputElems]
    split
    · rfl
    · split
      · rfl
      · split <;> rfl

theorem finalRow_eq (sc : StreamCfg) (rc : RunCfg) (inp : RowInput) :
    finalRow sc rc inp = (inputElems sc rc inp).map fun e => e.final := by
  cases inp <;> rfl

/-- A row has a score and a final score for every index. -/
theorem runRow_lengths (sc : StreamCfg) (rc : RunCfg) (inp : RowInput) :
    (runRow sc rc inp).scores.length = inputLength inp ∧ (runRow sc rc inp).finals.length = inputLength inp := by
  rw [runRow_scores, runRow_finals, finalRow_eq, List.length_map, List.length_map]
  exact ⟨inputElems_length sc rc inp, inputElems_length sc rc inp⟩

/-- Without bad lines a replay's row has no more indices than its length says. -/
theorem replayInput_length {x : ReplaySrc} (hm : ∀ p, x.model = some p → p.2.rows.length = x.len) :
    inputLength (replayInput x []) ≤ x.len := by
  unfold replayInput
  cases hmodel : x.model with
  | some p => exact Nat.le_of_eq (hm p hmodel)
  | none =>
    dsimp only [inputLength]
    split
    · exact parseRow_length_le _ _ _ _
    · exact parseRow_length_le _ _ _ _

theorem wordBytes_length (l : List Word) : (wordBytes l).length = 4 * l.length :=
  flatMap_length_const _ _ 4 fun _ _ => leBytes_length _ _

theorem le_roundUp_64 (v : Nat) : v ≤ roundUp v 64 := by
  unfold roundUp
  omega

/-- The sections of a dump with neither NORM vector nor candidates. -/
theorem dumpSections_rows {mask : Nat} (h0 : bit mask 0 = false) (h3 : bit mask 3 = false) (x : ReplaySrc) (out : RowOut) :
    dumpSections mask x out = (if bit mask 1 then [(roundUp (4 * x.len) 64, wordBytes out.scores)] else []) ++
      if bit mask 2 then [(roundUp (4 * x.len) 64, wordBytes out.finals)] else [] := by
  unfold dumpSections
  rw [h0, h3]
  exact List.append_nil _

/-- Score and final rows reserve what the size of their dump counts for them. -/
theorem dumpSections_size {mask : Nat} (h0 : bit mask 0 = false) (h3 : bit mask 3 = false) (x : ReplaySrc) (out : RowOut) :
    0x100 + ((dumpSections mask x out).map Prod.fst).sum = dumpSize mask x.len 0 := by
  rw [dumpSections_rows h0 h3]
  unfold dumpSize
  rw [h0, h3]
  cases bit mask 1 <;> cases bit mask 2 <;> simp [Nat.add_assoc]

/-- Score and final rows fit what their dump reserves for them. -/
theorem dumpSections_fit {mask : Nat} (h0 : bit mask 0 = false) (h3 : bit mask 3 = false) {x : ReplaySrc} {out : RowOut}
    (hs : out.scores.length ≤ x.len) (hf : out.finals.length ≤ x.len) : ∀ p ∈ dumpSections mask x out, p.2.length ≤ p.1 := by
  have hwords {l : List Word} (hl : l.length ≤ x.len) : (wordBytes l).length ≤ roundUp (4 * x.len) 64 := by
    rw [wordBytes_length]
    exact Nat.le_trans (Nat.mul_le_mul_left 4 hl) (le_roundUp_64 _)
  have hone {on : Bool} {l : List Word} (hl : l.length ≤ x.len) :
      ∀ p ∈ (if on then [(roundUp (4 * x.len) 64, wordBytes l)] else []), p.2.length ≤ p.1 := by
    cases on
    · exact nofun
    · exact List.forall_mem_singleton.2 (hwords hl)
  rw [dumpSections_rows h0 h3]
  exact List.forall_mem_append.2 ⟨hone hs, hone hf⟩

/-! ## The source of the row -/

/-- What a REPLAY runs: a record of the window, or what the host gives with the score row or the model it names (R334). -/
def replaysFrom (s : State) (c : Cmd) (x : ReplaySrc) : Prop :=
  let b := paramBytes s c
  let st := imageStream (hostBytes s (fieldAt b 0x10 8) 18960)
  let e := hostBytes s (fieldAt b 0x18 8) 64
  fieldAt b 2 1 = 0 ∧ windowSrc s (fieldAt b 0 2) (fieldAt b 8 6) = some x ∨
    fieldAt b 2 1 ≠ 0 ∧ fieldAt b 4 1 = 1 ∧ x = hostSrc s c b e st none ∨
    fieldAt b 2 1 ≠ 0 ∧ fieldAt b 4 1 ≠ 1 ∧ ∃ m, modelOf s (pktModel c) = some m ∧
      x = hostSrc s c b e st (some (pktModel c, m))

/-- A replay against no model, or one that is held whole, runs its row. -/
theorem replayModel_held {s : State} {c : Cmd} {b : List Byte} {x : ReplaySrc} {inc : List Incident}
    (h : ∀ p, x.model = some p → p.2.state ≠ 4 ∧ overhangGranules p.2 = []) :
    replayModel s c b x inc = runReplay s c b x inc := by
  unfold replayModel
  split
  · rfl
  · rename_i mid m hmodel
    obtain ⟨hstate, hover⟩ := h _ hmodel
    rw [if_neg hstate, hover]
    rfl

/-- A started REPLAY whose reads succeed runs its source. -/
theorem doReplay_of_fine {s : State} {id : Nat} {c : Cmd} {x : ReplaySrc} (hf : hostFine s = true)
    (hc : startedCmd s id 0x60 = some c) (hx : replaysFrom s c x) : doReplay s id [] = replayModel s c (paramBytes s c) x [] := by
  have hreads (l : List (Nat × Nat)) : (l.find? fun p => p.2 != 0 && !hostOk s p.1 p.2) = none :=
    List.find?_eq_none.2 fun p _ => by rw [hostOk_of_fine hf]; simp
  unfold doReplay
  rw [onCmd_of_started hc, withParams_of_fine hf]
  dsimp only
  rcases hx with ⟨hwindow, hsrc⟩ | ⟨hhost, hscores, rfl⟩ | ⟨hhost, hmodel, m, hm, rfl⟩
  · rw [if_pos hwindow, hsrc]
  · rw [if_neg hhost, withList_of_fine hf, withList_of_fine hf, if_pos hscores, hreads]
  · rw [if_neg hhost, withList_of_fine hf, withList_of_fine hf, if_neg hmodel, hm]
    dsimp only
    rw [hreads]

/-! ## The run -/

/-- The sections a replay dumps: a score row has no NORM vector. -/
def dumpMask (b : List Byte) (x : ReplaySrc) : Nat := if x.model.isNone then fieldAt b 3 1 / 2 * 2 else fieldAt b 3 1

/-- The header a replay of `x` writes, but for what its row decides. -/
structure DumpOf (b : List Byte) (x : ReplaySrc) (h : DumpHead) : Prop where
  sid : h.sid = fieldAt b 0 2
  mask : h.mask = dumpMask b x
  len : h.len = x.len
  step : h.step = x.st.step
  unmatched : x.recorded = none → h.matched = 0
  entrySid : h.entry.sid = fieldAt b 0 2
  entryStep : h.entry.step = x.st.step

/-- The bytes of a header, field by field. -/
theorem DumpHead.bytes_eq (h : DumpHead) : h.bytes =
    leBytes 2 h.sid ++ leBytes 1 h.mask ++ leBytes 1 0 ++ leBytes 4 h.len ++ leBytes 6 h.step ++ leBytes 2 0 ++ leBytes 4 h.summary ++
      leBytes 2 h.crush ++ leBytes 1 h.matched ++ leBytes 9 0 ++ entryBytes h.entry ++ leBytes 64 0 := by
  simp only [DumpHead.bytes, DumpHead.fields, segs, List.append_assoc, List.append_nil]

/-- An undisturbed replay ends OK, its dump written. -/
theorem finishReplay_eq (s : State) (c : Cmd) (a : Nat) (h : DumpHead) (sections : List (Nat × List Byte)) (x : ReplaySrc) :
    ∃ fl, finishReplay s c a h.bytes sections x [] =
      finishCmd (nextFree (writeAll s (dumpWrites a h sections))) c.id 0 0 fl [] := by
  unfold finishReplay
  rw [writeSections_eq]
  exact ⟨_, rfl⟩

/-- A replay ends OK with a dump of its header and of these sections written, and nothing else. -/
def dumps (s : State) (c : Cmd) (b : List Byte) (x : ReplaySrc) (sections : List (Nat × List Byte)) : Prop :=
  ∃ h fl, DumpOf b x h ∧ runReplay s c b x [] =
    finishCmd (nextFree (writeAll s (dumpWrites (fieldAt b 0x28 8) h sections))) c.id 0 0 fl []

theorem matchBits_unrecorded {recorded : Option (List Byte)} (out : RowOut) (h : recorded = none) : matchBits recorded out = 0 := by
  rw [h]
  rfl

/-- A stream whose counter is exhausted is dumped without a section (R66). -/
theorem runReplay_exhausted {s : State} {c : Cmd} {b : List Byte} {x : ReplaySrc} (hx : stepExhausted 0x30 x.st 0 = true) :
    dumps s c b x [] := by
  let head : DumpHead := ⟨fieldAt b 0 2, dumpMask b x, x.len, x.st.step, (summaryBits [] rowBlank.clamped).toNat, 0,
    matchBits x.recorded rowBlank, refusedVals (fieldAt b 0 2) x.st.step x.model.isNone⟩
  obtain ⟨fl, hrun⟩ := finishReplay_eq s c (fieldAt b 0x28 8) head [] x
  rw [head.bytes_eq] at hrun
  refine ⟨head, fl, ⟨rfl, rfl, rfl, rfl, matchBits_unrecorded _, rfl, rfl⟩, ?_⟩
  unfold runReplay
  dsimp only
  rw [hx]
  exact hrun

/-- Any other stream is dumped with the sections of its row. -/
theorem runReplay_row {s : State} {c : Cmd} {b : List Byte} {x : ReplaySrc} (hx : stepExhausted 0x30 x.st 0 = false) :
    ∃ sc rc, dumps s c b x (dumpSections (dumpMask b x) x (runRow sc rc (replayInput x []))) := by
  let rc := runCfg s c.modeCtrl (modesCompat x.st.modes) (replayParts s (modeLock c.modeCtrl) x).1
    (replayParts s (modeLock c.modeCtrl) x).2 (fieldAt b 0 2) 0
  let d : DrawCtx := ⟨fieldAt b 0 2, x.st.step, x.st.seed, streamCfg x.st x.mask, fieldAt b 6 1, runBits c false⟩
  let out := runRow (streamCfg x.st x.mask) rc (replayInput x [])
  let res := stepResult d rc out (if x.st.ringBound then x.st.ring else streamRingStart x.st.seed)
  obtain ⟨v, hentry, hsid, hstep, -⟩ :=
    stepResult_shape d rc out (if x.st.ringBound then x.st.ring else streamRingStart x.st.seed)
  let head : DumpHead := ⟨fieldAt b 0 2, dumpMask b x, x.len, x.st.step, (summaryBits res.recs out.clamped).toNat,
    res.recs.foldl (fun t r => satAdd 0xFFFF t r.crush) 0, matchBits x.recorded out, v⟩
  obtain ⟨fl, hrun⟩ := finishReplay_eq s c (fieldAt b 0x28 8) head (dumpSections (dumpMask b x) x out) x
  rw [head.bytes_eq, ← hentry] at hrun
  refine ⟨streamCfg x.st x.mask, rc, head, fl, ⟨rfl, rfl, rfl, rfl, matchBits_unrecorded _, hsid, hstep⟩, ?_⟩
  unfold runReplay
  dsimp only
  rw [hx]
  exact hrun

/-- An undisturbed replay dumps its header and sections that, score and final rows alone, fit what is reserved for them. -/
theorem runReplay_dumps (s : State) (c : Cmd) (b : List Byte) (x : ReplaySrc) : ∃ sections, dumps s c b x sections ∧
    (bit (dumpMask b x) 0 = false → bit (dumpMask b x) 3 = false → (∀ p, x.model = some p → p.2.rows.length = x.len) →
      (∀ p ∈ sections, p.2.length ≤ p.1) ∧ 0x100 + (sections.map Prod.fst).sum ≤ dumpSize (dumpMask b x) x.len 0) := by
  cases hx : stepExhausted 0x30 x.st 0 with
  | true =>
    refine ⟨[], runReplay_exhausted hx, fun _ _ _ => ⟨nofun, ?_⟩⟩
    unfold dumpSize
    simp only [List.map_nil, List.sum_nil]
    omega
  | false =>
    obtain ⟨sc, rc, hdumps⟩ := runReplay_row (s := s) (c := c) (b := b) hx
    refine ⟨_, hdumps, fun h0 h3 hm => ⟨?_, Nat.le_of_eq (dumpSections_size h0 h3 x _)⟩⟩
    obtain ⟨hscores, hfinals⟩ := runRow_lengths sc rc (replayInput x [])
    have hlen := replayInput_length hm
    exact dumpSections_fit h0 h3 (hscores ▸ hlen) (hfinals ▸ hlen)

/-! ## What reads back -/

theorem dumpMask_lt (b : List Byte) (x : ReplaySrc) : dumpMask b x < 2 ^ 8 := by
  have hlt := fieldAt_lt b 3 1
  unfold dumpMask
  split <;> omega

theorem fieldAt_slice (bs : List Byte) {k o n : Nat} (h : o + n ≤ k) : fieldAt (slice bs 0 k) o n = fieldAt bs o n := by
  unfold fieldAt
  rw [slice_slice _ _ _ _ _ h, Nat.zero_add]

/-- The header of a replay's dump and its result entry name the stream and the step, and hold the sections, the length and MATCH 0
where nothing was recorded (Table OPS-9). -/
theorem DumpOf.reads {b : List Byte} {x : ReplaySrc} {h : DumpHead} (hd : DumpOf b x h) :
    let r := slice h.bytes 0 0xC0
    fieldAt r 0 2 = fieldAt b 0 2 ∧ fieldAt r 2 1 = dumpMask b x ∧ fieldAt r 4 4 = x.len % 2 ^ 32 ∧
      fieldAt r 8 6 = x.st.step % 2 ^ 48 ∧ (x.recorded = none → fieldAt r 0x16 1 = 0) ∧
      fieldAt r (0x20 + 0x1C) 2 = fieldAt b 0 2 ∧ fieldAt r (0x20 + 0x20) 6 = x.st.step % 2 ^ 48 := by
  have hsid : fieldAt b 0 2 % 2 ^ 16 = fieldAt b 0 2 := Nat.mod_eq_of_lt (fieldAt_lt b 0 2)
  intro r
  refine ⟨?sid, ?mask, ?len, ?step, fun hnone => ?matched, ?entrySid, ?entryStep⟩ <;> rw [fieldAt_slice _ (by decide)]
  case sid => rw [h.bytes_sid, hd.sid, hsid]
  case mask => rw [h.bytes_mask, hd.mask, Nat.mod_eq_of_lt (dumpMask_lt b x)]
  case len => rw [h.bytes_len, hd.len]
  case step => rw [h.bytes_step, hd.step]
  case matched => rw [h.bytes_matched, hd.unmatched hnone, Nat.zero_mod]
  case entrySid => rw [h.bytes_entry (by decide), entryBytes_sid, hd.entrySid, hsid]
  case entryStep => rw [h.bytes_entry (by decide), entryBytes_step, hd.entryStep]

end Sys2Proof.Laws
end

section
/-! REPLAY settled (R334 to R336; 12_operator_reference.md). -/

open Sys2Proof Sys2Proof.Machine

namespace Sys2Proof.Laws

/-- Settles O41: the replay runs its source (`doReplay_of_fine`, `replayModel_held`) and writes its dump alone (`runReplay_dumps`), whose
header reads back (`writeAll_dumpHead`, `DumpOf.reads`) and whose writes lie inside its bounds (`dumpWrites_bounds`). -/
theorem replayDumpsAndCommitsNothing : Obligations.ReplayDumpsAndCommitsNothing := by
  unfold Obligations.ReplayDumpsAndCommitsNothing
  intro s id c x b a st e mask hf hwf hc hx hheld
  have ht := trained_of_fine hf
  obtain ⟨-, rfl, -, -⟩ := startedCmd_spec hc
  obtain ⟨sections, ⟨h, fl, hdump, hrun⟩, hsize⟩ := runReplay_dumps s c b x
  have hexec : exec (.replay c.id []) s = .next (runReplay s c b x []) :=
    congrArg Host.Outcome.next ((doReplay_of_fine hf hc hx).trans (replayModel_held hheld))
  obtain ⟨m, hm⟩ := writeAll_onlyHost hwf ht (dumpWrites a h sections)
  have hkept {q : Nat} := writeAll_untouched hwf ht (ws := dumpWrites a h sections) (q := q)
  have hhead := writeAll_dumpHead hwf ht a h sections
  rw [hm] at hrun hkept hhead
  refine ⟨_, fl, hexec.trans (congrArg _ hrun), ranTo_finish rfl _ _ _ _ _, rfl, fun q hq => ?below, fun h0 h3 _ hrows q hq => ?beyond,
    ?header⟩
  case below => exact hkept fun w hw => .inl (Nat.lt_of_lt_of_le hq (dumpWrites_bounds hw).1)
  case beyond =>
    obtain ⟨hfit, hsum⟩ := hsize h0 h3 hrows
    refine hkept fun w hw => ?_
    obtain ⟨hfrom, hto⟩ := dumpWrites_bounds hw
    rcases hq (a, dumpSize mask x.len 0) List.mem_cons_self with hq | hq
    · exact .inl (Nat.lt_of_lt_of_le hq hfrom)
    · exact .inr (Nat.le_trans (hto hfit) (Nat.le_trans (Nat.add_le_add_left hsum a) hq))
  case header =>
    have hread : hostBytes (finishCmd (nextFree { s with host := m }) c.id 0 0 fl []) a 0xC0 = slice h.bytes 0 0xC0 :=
      memBytes_part m a _ 0 0xC0 _ hhead (by decide)
    dsimp only
    rw [hread]
    exact hdump.reads

end Sys2Proof.Laws
end

section
/-! SUPPORT. What background tasks leave of the wish for a quiet slot: no task asks for one while FREE order is in force or a quiet slot
is already asked for or open (R381, R459). -/

open Sys2Proof Sys2Proof.Machine

namespace Sys2Proof.Laws

/-! ## What the wish for a quiet slot turns on -/

/-- The commands, MODE_CTRL and the quiet slot. -/
def slotView (s : State) : List Cmd × Word × Quiet := (s.cmds, s.regs.modeCtrl, s.quiet)

/-- No new wish for a quiet slot can arise: there is one, or FIXED order is not in force. -/
def wishSettled (v : List Cmd × Word × Quiet) : Prop :=
  v.2.2 ≠ .none ∨ (modeFixed v.2.1 || v.1.any fun c => c.phase != .held && modeFixed c.modeCtrl) = false

theorem slotView_askQuiet {s : State} (h : wishSettled (slotView s)) : slotView (askQuiet s) = slotView s := by
  unfold askQuiet
  split
  · rename_i hask
    simp only [Bool.and_eq_true, beq_iff_eq] at hask
    obtain ⟨⟨⟨hnone, -⟩, hfixed⟩, -⟩ := hask
    rcases h with hquiet | hfree
    · exact absurd hnone hquiet
    · exact absurd (hfixed.symm.trans hfree) (by decide)
  · rfl

/-- A task's parts may each rest on the settled wish, which the parts before it have kept. -/
theorem slotView_foldl {α : Type} {f : State → α → State} (hf : ∀ s x, wishSettled (slotView s) → slotView (f s x) = slotView s)
    (l : List α) {s : State} (h : wishSettled (slotView s)) : slotView (l.foldl f s) = slotView s := by
  induction l generalizing s with
  | nil => rfl
  | cons x l ih =>
    have hx := hf s x h
    exact (ih (hx ▸ h)).trans hx

/-! ## Operations that never ask for a slot -/

@[simp] theorem slotView_setChip (s : State) (c : Nat) (f : Chip → Chip) : slotView (setChip s c f) = slotView s := rfl
@[simp] theorem slotView_setCore (s : State) (c k : Nat) (f : Core → Core) : slotView (setCore s c k f) = slotView s := rfl
@[simp] theorem slotView_countCore (s : State) (c k i n : Nat) : slotView (countCore s c k i n) = slotView s := rfl
@[simp] theorem slotView_countChip (s : State) (c i n : Nat) : slotView (countChip s c i n) = slotView s := rfl
@[simp] theorem slotView_countHbm (s : State) (c i n : Nat) : slotView (countHbm s c i n) = slotView s := rfl
@[simp] theorem slotView_loseMask (s : State) (e : Nat) : slotView (loseMask s e) = slotView s := rfl
@[simp] theorem slotView_dropSparing (s : State) (c k r : Nat) : slotView (dropSparing s c k r) = slotView s := rfl
@[simp] theorem slotView_dropRecord (s : State) (sid st : Nat) : slotView (dropRecord s sid st) = slotView s := rfl
@[simp] theorem slotView_reseedLane (s : State) (c l : Nat) : slotView (reseedLane s c l) = slotView s := rfl

@[simp] theorem slotView_raiseEvent (s : State) (b : Nat) : slotView (raiseEvent s b) = slotView s :=
  (congrArg slotView (raiseEvent_frame s b) :)
@[simp] theorem slotView_logFault (s : State) (e c u d : Nat) : slotView (logFault s e c u d) = slotView s :=
  (congrArg slotView (logFault_frame s e c u d) :)
@[simp] theorem slotView_addLedger (s : State) (k c u o e r : Nat) : slotView (addLedger s k c u o e r) = slotView s :=
  (congrArg slotView (addLedger_frame s k c u o e r) :)
@[simp] theorem slotView_declareBy (s : State) (c : Nat) : slotView (declareBy s c) = slotView s :=
  (congrArg slotView (declareBy_frame s c) :)
@[simp] theorem slotView_loseStream (s : State) (sid : Nat) : slotView (loseStream s sid) = slotView s :=
  (congrArg slotView (loseStream_frame s sid) :)

@[simp] theorem slotView_doLinkRecalibration (s : State) (a b : Nat) : slotView (doLinkRecalibration s a b) = slotView s := by
  unfold doLinkRecalibration
  split <;> rfl

@[simp] theorem slotView_fatal (s : State) (c : Nat) : slotView (fatal s c) = slotView s := by
  unfold fatal
  split <;> simp

@[simp] theorem slotView_fenceCore (s : State) (c k origin : Nat) : slotView (fenceCore s c k origin) = slotView s := by
  simp only [fenceCore, apply_ite slotView, slotView_fatal, slotView_addLedger, slotView_setCore, slotView_logFault,
    slotView_raiseEvent, slotView_countChip, ite_self]

@[simp] theorem slotView_spareRow (s : State) (c k row origin : Nat) : slotView (spareRow s c k row origin) = slotView s := by
  unfold spareRow
  dsimp only
  split
  · exact slotView_dropSparing s c k row
  · split <;> simp

@[simp] theorem slotView_spareFails (s : State) (c k j origin : Nat) : slotView (spareFails s c k j origin) = slotView s := by
  unfold spareFails
  split <;> simp

@[simp] theorem slotView_ringFails (s : State) (c origin : Nat) : slotView (ringFails s c origin) = slotView s := by
  unfold ringFails
  split <;> simp

@[simp] theorem slotView_bistFail (s : State) (c k origin : Nat) : slotView (bistFail s c k origin) = slotView s := by
  simp [bistFail]

@[simp] theorem slotView_hbmUe (s : State) (c i : Nat) : slotView (hbmUe s c i) = slotView s := by
  unfold hbmUe
  dsimp only
  split <;> simp

@[simp] theorem slotView_copiesBad (s : State) (i home mirror : Nat) : slotView (copiesBad s i home mirror) = slotView s := by
  unfold copiesBad
  dsimp only
  split <;> simp

/-! ## Tasks -/

/-- A failed row becomes a task of its own, which asks for a slot only as `askQuiet` may. -/
theorem slotView_sramUe {s : State} (h : wishSettled (slotView s)) (c k row : Nat) (again piece : Bool) :
    slotView (sramUe s c k row again piece) = slotView s := by
  have hcount : slotView (if piece then countCore (countCore s c k 1 1) c k 6 1 else countCore s c k 1 1) = slotView s := by
    split <;> rfl
  unfold sramUe
  dsimp only
  generalize (if piece then countCore (countCore s c k 1 1) c k 6 1 else countCore s c k 1 1) = v at hcount ⊢
  split
  · rw [slotView_fenceCore, hcount]
  · split
    · exact hcount
    · exact (slotView_askQuiet (s := { v with tasks := v.tasks ++ [⟨5, c, 2048 * k + row, v.now, [], []⟩] }) (hcount ▸ h)).trans
        hcount

/-- A divergence asks for a BIST of both chips, and for a slot only as `askQuiet` may (R394). -/
theorem slotView_compareWords {s : State} (h : wishSettled (slotView s)) (c sid : Nat) (atHome : Bool) (first again : Dword × Dword) :
    slotView (compareWords s c sid atHome first again) = slotView s := by
  unfold compareWords
  split
  · rfl
  · split
    · rfl
    · dsimp only
      split
      · rfl
      · exact (slotView_askQuiet (by simpa using h)).trans (by simp)

theorem slotView_applyIncident {s : State} (h : wishSettled (slotView s)) (seen : List Incident) (i : Incident) :
    slotView (applyIncident s seen i) = slotView s := by
  cases i with
  | sramUe c k row => exact slotView_sramUe h _ _ _ _ _
  | contextUe c k row => exact slotView_sramUe h _ _ _ _ _
  | lockCheck c sid atHome first again => exact slotView_compareWords h _ _ _ _ _
  | sfuUe c k =>
    simp only [applyIncident]
    split <;> simp
  | _ => simp [applyIncident]

theorem slotView_applyScrub {s : State} (h : wishSettled (slotView s)) (i : Incident) : slotView (applyScrub s i) = slotView s := by
  unfold applyScrub
  split
  case h_7 => exact slotView_applyIncident h _ _
  all_goals simp

theorem slotView_bistResult {s : State} (h : wishSettled (slotView s)) (origin : Nat) (r : BistResult) :
    slotView (bistResult s origin r) = slotView s := by
  unfold bistResult
  split
  · rfl
  · split
    · simp
    · have hcores := slotView_foldl (fun s k _ => slotView_bistFail s r.chip k origin) r.failedCores h
      have hrows := slotView_foldl (fun s p _ => slotView_spareRow s r.chip p.1 p.2 origin) r.failedRows (hcores.symm ▸ h)
      have hspares := slotView_foldl (fun s p _ => slotView_spareFails s r.chip p.1 p.2 origin) r.failedSpares
        ((hrows.trans hcores).symm ▸ h)
      have hall := hspares.trans (hrows.trans hcores)
      dsimp only
      split
      · exact hall
      · exact (slotView_ringFails _ _ _).trans hall

/-- A task leaves the commands, MODE_CTRL and a settled wish for a quiet slot as they are. -/
theorem slotView_runTask {s : State} (h : wishSettled (slotView s)) (k : Task) : slotView (runTask s k) = slotView s := by
  unfold runTask
  split
  · exact slotView_foldl (fun _ x hs => slotView_applyScrub hs x) _ h
  · simp
  · exact slotView_foldl (fun _ x hs => slotView_applyIncident hs [] x) _ h
  · exact slotView_foldl (fun _ x hs => slotView_bistResult hs 2 x) _ h
  · simp
  · rfl

theorem slotView_runTasks {s : State} (h : wishSettled (slotView s)) (l : List Task) : slotView (l.foldl runTask s) = slotView s :=
  slotView_foldl (fun _ k hs => slotView_runTask hs k) l h

end Sys2Proof.Laws
end

section
/-! SUPPORT. The TMC's resume and counter saves: the ledger with the entries that waited (R404, R407, R432). -/

open Sys2Proof Sys2Proof.Machine

namespace Sys2Proof.Laws

/-- Entries added to both copies stand in the one in use (R408). -/
theorem ledgerNow_bothLedgers (s : State) (es : List LedgerEntry) :
    ledgerNow (bothLedgers s es) = { ledgerNow s with entries := (ledgerNow s).entries ++ es } := by
  unfold ledgerNow
  by_cases hfirst : (s.vault.ledgerA.valid && (!s.vault.ledgerB.valid || decide (s.vault.ledgerB.seq ≤ s.vault.ledgerA.seq))) = true
  · exact (if_pos hfirst).trans (by rw [if_pos hfirst]; rfl)
  · exact (if_neg hfirst).trans (by rw [if_neg hfirst]; rfl)

/-- Entries written stand in the ledger in use behind those before, while a rebuild goes on and else (R407). -/
theorem ledgerNow_writeEntries (s : State) (es : List LedgerEntry) :
    (ledgerNow (writeEntries s es)).entries = (ledgerNow s).entries ++ es := by
  unfold writeEntries
  split
  · rw [ledgerNow_bothLedgers]
  · rw [ledgerNow_write]

/-- Writing the ledger leaves the fault log as it is. -/
theorem faultLog_writeEntries (s : State) (es : List LedgerEntry) : (writeEntries s es).vault.faultLog = s.vault.faultLog := by
  unfold writeEntries
  split
  · rfl
  · unfold writeLedger
    dsimp only
    split <;> rfl

/-- The ledger in use has grown by entries, and nothing else changes but how its write stands. -/
structure LedgerGrown (s u : State) (es : List LedgerEntry) : Prop where
  entries : (ledgerNow u).entries = (ledgerNow s).entries ++ es
  faultLog : u.vault.faultLog = s.vault.faultLog
  frame : { u with vault := s.vault, ledgerWrite := s.ledgerWrite } = s

theorem ledgerGrown_writeEach (es : List LedgerEntry) (s : State) : LedgerGrown s (es.foldl (fun s e => writeEntries s [e]) s) es := by
  induction es generalizing s with
  | nil => exact ⟨(List.append_nil _).symm, rfl, rfl⟩
  | cons e es ih =>
    have h := ih (writeEntries s [e])
    refine ⟨?_, h.faultLog.trans (faultLog_writeEntries s [e]), ?_⟩
    · rw [List.foldl_cons, h.entries, ledgerNow_writeEntries, List.append_assoc, List.singleton_append]
    · exact (congrArg (fun x : State => { x with vault := s.vault, ledgerWrite := s.ledgerWrite }) h.frame).trans
        (writeEntries_frame s [e])

/-- The saved counters depend on what is counted: cores, links, HBM, chips and the tray. -/
theorem counterSet_congr {s u : State} (hchips : u.chips = s.chips) (hmesh : u.mesh = s.mesh) (htotals : u.totals = s.totals) :
    counterSet u = counterSet s := by
  unfold counterSet
  rw [hchips, hmesh, htotals]

/-! ## Each event of the TMC's restart -/

theorem doTmcWatchdog_restarts {s : State} (hready : s.regs.ready = true) (hdeputy : s.deputy = none) :
    doTmcWatchdog s = { s with deputy := some s.regs.lead } := if_neg (by simp [hready, hdeputy])

theorem doTmcWatchdog_stays {s : State} (h : s.regs.ready = false ∨ s.deputy.isSome = true) : doTmcWatchdog s = s :=
  if_pos (by simpa [or_comm] using h)

theorem doCounterSave_saves {s : State} (hdeputy : s.deputy = none) :
    doCounterSave s = { s with vault := { s.vault with counters := counterSet s } } := if_neg (by simp [hdeputy])

theorem doCounterSave_waits {s : State} (hdeputy : s.deputy.isSome = true) : doCounterSave s = s := if_pos hdeputy

theorem doTmcResume_running {s : State} (hdeputy : s.deputy = none) : doTmcResume s = s := by
  unfold doTmcResume
  rw [hdeputy]

/-- The TMC resumes: no deputy, nothing waits, the entries and the log entries that waited are written with the counters. -/
structure TmcResumed (s u : State) : Prop where
  deputy : u.deputy = none
  deferred : u.deferred = []
  deferredLog : u.deferredLog = []
  counters : u.vault.counters = counterSet s
  entries : (ledgerNow u).entries = (ledgerNow s).entries ++ s.deferred
  faultLog : u.vault.faultLog = (s.deferredLog.reverse ++ s.vault.faultLog).take 1024
  frame : { u with
    deputy := s.deputy, deferred := s.deferred, deferredLog := s.deferredLog, vault := s.vault
    ledgerWrite := s.ledgerWrite } = s

theorem tmcResumed_of_deputy {s : State} {d : Nat} (hd : s.deputy = some d) : TmcResumed s (doTmcResume s) := by
  have h := ledgerGrown_writeEach s.deferred { s with deputy := none, deferred := [], deferredLog := [] }
  unfold doTmcResume
  rw [hd]
  dsimp only
  generalize s.deferred.foldl (fun s e => writeEntries s [e]) { s with deputy := none, deferred := [], deferredLog := [] } = w at h ⊢
  obtain ⟨hentries, hlog, hframe⟩ := h
  exact {
    deputy := (congrArg State.deputy hframe :)
    deferred := (congrArg State.deferred hframe :)
    deferredLog := (congrArg State.deferredLog hframe :)
    counters := counterSet_congr (congrArg State.chips hframe :) (congrArg State.mesh hframe :) (congrArg State.totals hframe :)
    entries := hentries
    faultLog := congrArg (fun l => (s.deferredLog.reverse ++ l).take 1024) hlog
    frame := (congrArg (fun x : State => { x with
      deputy := s.deputy, deferred := s.deferred, deferredLog := s.deferredLog }) hframe :) }

end Sys2Proof.Laws
end

section
/-! SUPPORT. Background tasks that fall due: when one waits, when the gap serves it, what each changes (R346, R410, R446, R456 to R460). -/

open Sys2Proof Sys2Proof.Machine

namespace Sys2Proof.Laws

/-! ## When tasks may run -/

/-- FIXED order is in force: in MODE_CTRL, or for a command no longer held that was accepted under it (R372). -/
def fixedOrder (s : State) : Prop :=
  modeFixed s.regs.modeCtrl = true ∨ ∃ c ∈ s.cmds, c.phase ≠ .held ∧ modeFixed c.modeCtrl = true

theorem fixedNow_iff (s : State) : fixedNow s = true ↔ fixedOrder s := by
  simp [fixedNow, fixedOrder]

/-- The tray is in service, in no window, no shutdown and no loss (R446, R460). -/
def tasksAllowed (s : State) : Prop := s.regs.ready = true ∧ s.power.window = none ∧ s.shutdown = .none ∧ s.loss = .none

theorem slotsOpen_iff (s : State) : slotsOpen s = true ↔ tasksAllowed s := by
  simp [slotsOpen, tasksAllowed, and_assoc]

theorem noPieceWork_iff (s : State) : noPieceWork s = true ↔ ∀ c ∈ s.cmds, c.phase ≠ .started := by
  simp [noPieceWork]

theorem wishSettled_of_free {s : State} (h : ¬ fixedOrder s) : wishSettled (slotView s) :=
  .inr (Bool.eq_false_iff.2 (mt (fixedNow_iff s).1 h))

theorem askQuiet_wanted {s : State} (hquiet : s.quiet = .none) (hopen : tasksAllowed s) (hfixed : fixedOrder s) (htasks : s.tasks ≠ []) :
    askQuiet s = { s with quiet := .wanted } := by
  simp [askQuiet, hquiet, (slotsOpen_iff s).2 hopen, (fixedNow_iff s).2 hfixed, htasks]

theorem askQuiet_stands {s : State} (h : s.quiet ≠ .none ∨ ¬ tasksAllowed s) : askQuiet s = s := by
  refine if_neg fun hask => ?_
  simp only [Bool.and_eq_true, beq_iff_eq] at hask
  obtain ⟨⟨⟨hnone, hopen⟩, -⟩, -⟩ := hask
  exact h.elim (fun hquiet => hquiet hnone) fun hshut => hshut ((slotsOpen_iff s).1 hopen)

theorem askQuiet_quiet (s : State) : (askQuiet s).quiet = s.quiet ∨ (askQuiet s).quiet = .wanted := by
  unfold askQuiet
  split
  · exact .inr rfl
  · exact .inl rfl

/-! ## What a slot may change -/

/-- Nothing changes but what slots and the tasks served in them may change. -/
def slotFrame (s u : State) : Prop :=
  { u with
    now := s.now, cmds := s.cmds, tasks := s.tasks, quiet := s.quiet, chips := s.chips, mesh := s.mesh, totals := s.totals
    regs := s.regs, mgmt := s.mgmt, vault := s.vault, deferred := s.deferred, deferredLog := s.deferredLog
    streams := s.streams, audited := s.audited, masks := s.masks, loss := s.loss, power := s.power, bist := s.bist
    ledgerWrite := s.ledgerWrite } = s

/-- Tasks served stay within what a slot may change. -/
theorem slotFrame_of_steady {s v u : State} (h : slotFrame s v) (k : steady v u) : slotFrame s u :=
  Eq.trans (congrArg (fun x : State => { x with
    now := s.now, cmds := s.cmds, tasks := s.tasks, quiet := s.quiet, chips := s.chips, mesh := s.mesh, totals := s.totals
    regs := s.regs, mgmt := s.mgmt, vault := s.vault, deferred := s.deferred, deferredLog := s.deferredLog
    streams := s.streams, audited := s.audited, masks := s.masks, loss := s.loss, power := s.power, bist := s.bist
    ledgerWrite := s.ledgerWrite }) k.same :) h

theorem steady_now {s u : State} (h : steady s u) : u.now = s.now := (congrArg State.now h.same :)
theorem steady_cmds {s u : State} (h : steady s u) : u.cmds = s.cmds := (congrArg State.cmds h.same :)
theorem steady_power {s u : State} (h : steady s u) : u.power = s.power := (congrArg State.power h.same :)
theorem steady_bist {s u : State} (h : steady s u) : u.bist = s.bist := (congrArg State.bist h.same :)

/-! ## Single tasks -/

/-- A lane pause and telemetry change nothing of the model's state (R460). -/
theorem runTask_idle (s : State) {k : Task} (h : k.kind = 2 ∨ 6 ≤ k.kind) : runTask s k = s := by
  unfold runTask
  split
  case h_6 => rfl
  all_goals omega

theorem runTask_recalibration (s : State) {k : Task} (h : k.kind = 1) :
    runTask s k = doLinkRecalibration s (nth (0, 1) linkPairs k.arg).1 (nth (0, 1) linkPairs k.arg).2 := by
  unfold runTask
  rw [h]
  rfl

/-- A recalibration reads and changes the link and the totals alone (R346). -/
theorem doLinkRecalibration_congr {s v : State} (hmesh : v.mesh = s.mesh) (htotals : v.totals = s.totals) (a b : Nat) :
    doLinkRecalibration s a b =
      { s with mesh := (doLinkRecalibration v a b).mesh, totals := (doLinkRecalibration v a b).totals } := by
  have hfailed : linkFailed v a b = linkFailed s a b := by unfold linkFailed linkOf; rw [hmesh]
  unfold doLinkRecalibration
  rw [hfailed]
  split
  · rw [hmesh, htotals]
  · simp only [countLink, countTotal, setLink, hmesh, htotals]

theorem doLinkRecalibration_tasks (s : State) (a b : Nat) : (doLinkRecalibration s a b).tasks = s.tasks := by
  rw [doLinkRecalibration_congr rfl rfl]

theorem doLinkRecalibration_chips (s : State) (a b : Nat) : (doLinkRecalibration s a b).chips = s.chips := by
  rw [doLinkRecalibration_congr rfl rfl]

/-- A task that makes no further task: a recalibration, or a BIST segment that finds nothing. -/
def findsNothing (k : Task) : Prop := k.kind = 1 ∨ k.kind = 4 ∧ k.bad = []

theorem runTask_tasks {k : Task} (h : findsNothing k) (s : State) : (runTask s k).tasks = s.tasks := by
  rcases h with hkind | ⟨hkind, hbad⟩
  · rw [runTask_recalibration s hkind, doLinkRecalibration_tasks]
  · unfold runTask
    rw [hkind, hbad]
    rfl

theorem runTasks_tasks {l : List Task} (h : ∀ k ∈ l, findsNothing k) (s : State) : (l.foldl runTask s).tasks = s.tasks := by
  induction l generalizing s with
  | nil => rfl
  | cons k l ih =>
    rw [List.forall_mem_cons] at h
    exact (ih h.2 _).trans (runTask_tasks h.1 s)

/-! ## A task that falls due -/

theorem bistDue_eq_false_iff (s : State) : bistDue s = false ↔ 512 ≤ bistTaken s ∧ testWanted s = false := by
  simp [bistDue]

theorem wake_eq (s : State) : ∃ p v, wake s = { s with power := p, vault := v } ∧ p.idle = 0 ∧ p.window = s.power.window := by
  unfold wake
  split
  · exact ⟨_, s.vault, rfl, ‹_›, rfl⟩
  · exact ⟨_, _, rfl, rfl, rfl⟩

/-- Periodic BIST after a task of a kind: a segment is counted in its round (R410). -/
def bistAfter (s : State) (kind : Nat) (t : Tick) : Bist := if kind = 4 then (countSegment (stamp s t)).bist else s.bist

/-- The tray woken, with the task that fell due among those that wait (R456). -/
def dueState (s : State) (kind : Nat) (t : Tick) (task : Task) : State :=
  let v := wake (if kind = 4 then countSegment (stamp s t) else stamp s t)
  { v with tasks := v.tasks ++ [task] }

theorem dueState_eq (s : State) (kind : Nat) (t : Tick) (task : Task) :
    ∃ p v, dueState s kind t task = { s with
        now := max s.now t, power := p, vault := v, bist := bistAfter s kind t, tasks := s.tasks ++ [task] } ∧
      p.idle = 0 ∧ p.window = s.power.window := by
  unfold dueState bistAfter
  split
  · obtain ⟨p, v, hwake, hidle, hwindow⟩ := wake_eq (countSegment (stamp s t))
    exact ⟨p, v, by rw [hwake]; rfl, hidle, hwindow⟩
  · obtain ⟨p, v, hwake, hidle, hwindow⟩ := wake_eq (stamp s t)
    exact ⟨p, v, by rw [hwake]; rfl, hidle, hwindow⟩

section
variable {s : State} {kind : Nat} {t : Tick} {task : Task}

theorem dueState_fixedOrder : fixedOrder (dueState s kind t task) ↔ fixedOrder s := by
  obtain ⟨p, v, hdue, -, -⟩ := dueState_eq s kind t task
  rw [hdue]
  rfl

theorem dueState_tasksAllowed : tasksAllowed (dueState s kind t task) ↔ tasksAllowed s := by
  obtain ⟨p, v, hdue, -, hwindow⟩ := dueState_eq s kind t task
  rw [hdue]
  unfold tasksAllowed
  rw [hwindow]

/-- The task is taken on its tick: the tray awake, the segment counted, no command changed. -/
structure TaskTaken (s : State) (kind : Nat) (t : Tick) (u : State) : Prop where
  now : u.now = max s.now t
  cmds : u.cmds = s.cmds
  frame : slotFrame s u
  bist : u.bist = bistAfter s kind t
  idle : u.power.idle = 0

/-- A task stays taken while tasks are served. -/
theorem taskTaken_of_steady {u : State} (h : steady (dueState s kind t task) u) : TaskTaken s kind t u := by
  obtain ⟨p, v, hdue, hidle, -⟩ := dueState_eq s kind t task
  rw [hdue] at h
  exact {
    now := steady_now h
    cmds := (steady_cmds h :)
    frame := slotFrame_of_steady (by rfl) h
    bist := steady_bist h
    idle := (congrArg Power.idle (steady_power h)).trans hidle }

/-- Where tasks wait for nothing or are not taken, only the tick advances (R410, R460). -/
theorem doBackgroundTaskDue_passes {chip arg : Nat} {found : List Incident} {bad : List BistResult}
    (h : s.regs.ready = false ∨ kind = 2 ∨ 6 ≤ kind ∨ kind = 4 ∧ bistDue (stamp s t) = false) :
    doBackgroundTaskDue s kind chip arg found bad t = stamp s t := by
  unfold doBackgroundTaskDue
  dsimp only
  split
  · rfl
  · rename_i htaken
    split
    · rename_i hidle
      exact runTask_idle _ (by simpa using hidle)
    · rename_i hwaits
      simp only [Bool.or_eq_true, decide_eq_true_eq] at hwaits
      simp only [stamp_regs, Bool.or_eq_true, Bool.not_eq_true', Bool.and_eq_true, decide_eq_true_eq, not_or] at htaken
      rcases h with hready | hkind | hkind | hfull
      · exact absurd hready htaken.1
      · exact absurd (.inl hkind) hwaits
      · exact absurd (.inr hkind) hwaits
      · exact absurd hfull htaken.2

/-- A task that waits for the chips: in service, no lane pause or telemetry, no segment beyond those of its round (R410, R460). -/
def taskJoins (s : State) (kind : Nat) (t : Tick) : Prop :=
  s.regs.ready = true ∧ kind ≠ 2 ∧ kind < 6 ∧ ¬ (kind = 4 ∧ bistDue (stamp s t) = false)

theorem doBackgroundTaskDue_joins {chip arg : Nat} {found : List Incident} {bad : List BistResult} (h : taskJoins s kind t) :
    let v := dueState s kind t ⟨kind, chip, arg, max s.now t, found, bad⟩
    doBackgroundTaskDue s kind chip arg found bad t = if fixedNow v then askQuiet v else runGapTasks v := by
  obtain ⟨hready, h2, h6, hfull⟩ := h
  have htaken : ¬ (!(stamp s t).regs.ready || decide (kind = 4) && !bistDue (stamp s t)) = true := by
    simpa [hready] using hfull
  have hwaits : ¬ (decide (kind = 2) || decide (6 ≤ kind)) = true := by
    simp only [Bool.or_eq_true, decide_eq_true_eq]
    omega
  unfold doBackgroundTaskDue
  dsimp only
  rw [if_neg htaken, if_neg hwaits]
  rfl

/-- In FIXED order a task asks for a quiet slot (R459). -/
theorem exec_backgroundTaskDue_fixed {chip arg : Nat} {found : List Incident} {bad : List BistResult} (h : taskJoins s kind t)
    (hfixed : fixedOrder s) : exec (.backgroundTaskDue kind chip arg found bad t) s =
      .next (askQuiet (dueState s kind t ⟨kind, chip, arg, max s.now t, found, bad⟩)) :=
  congrArg Host.Outcome.next ((doBackgroundTaskDue_joins h).trans (if_pos ((fixedNow_iff _).2 (dueState_fixedOrder.2 hfixed))))

/-- In FREE order a task uses the gap (R458). -/
theorem exec_backgroundTaskDue_free {chip arg : Nat} {found : List Incident} {bad : List BistResult} (h : taskJoins s kind t)
    (hfree : ¬ fixedOrder s) : exec (.backgroundTaskDue kind chip arg found bad t) s =
      .next (runGapTasks (dueState s kind t ⟨kind, chip, arg, max s.now t, found, bad⟩)) :=
  congrArg Host.Outcome.next
    ((doBackgroundTaskDue_joins h).trans (if_neg (mt (fixedNow_iff _).1 (mt dueState_fixedOrder.1 hfree))))

/-! ## The gap -/

theorem runGapTasks_waits {v : State} (h : ¬ tasksAllowed v ∨ ∃ c ∈ v.cmds, c.phase = .started) : runGapTasks v = v := by
  refine if_neg fun hgap => ?_
  simp only [Bool.and_eq_true] at hgap
  obtain ⟨⟨⟨hopen, hpieces⟩, -⟩, -⟩ := hgap
  rcases h with hshut | ⟨c, hc, hstarted⟩
  · exact hshut ((slotsOpen_iff v).1 hopen)
  · exact (noPieceWork_iff v).1 hpieces c hc hstarted

/-- The state with no task left to wait. -/
def noTasks (v : State) : State := { v with tasks := [] }

theorem steady_noTasks (v : State) : steady v (noTasks v) := ⟨rfl⟩

theorem runGapTasks_serves {v : State} (hopen : tasksAllowed v) (hpieces : ∀ c ∈ v.cmds, c.phase ≠ .started) (hfree : ¬ fixedOrder v)
    (htasks : v.tasks ≠ []) : runGapTasks v = v.tasks.foldl runTask (noTasks v) := by
  have hfixed : fixedNow v = false := Bool.eq_false_iff.2 (mt (fixedNow_iff v).1 hfree)
  simp [runGapTasks, noTasks, (slotsOpen_iff v).2 hopen, (noPieceWork_iff v).2 hpieces, hfixed, htasks]

/-! ## A task that falls due, order by order -/

/-- Waking the tray for a task leaves the chips, the links, the totals and the quiet slot as they are. -/
theorem dueState_kept : (dueState s kind t task).tasks = s.tasks ++ [task] ∧ (dueState s kind t task).chips = s.chips ∧
    (dueState s kind t task).mesh = s.mesh ∧ (dueState s kind t task).totals = s.totals ∧
    (dueState s kind t task).quiet = s.quiet ∧ (dueState s kind t task).cmds = s.cmds := by
  obtain ⟨p, v, hdue, -, -⟩ := dueState_eq s kind t task
  rw [hdue]
  exact ⟨rfl, rfl, rfl, rfl, rfl, rfl⟩

/-- In FIXED order the task waits for a quiet slot, which is asked for where tasks may run and there is none (R459). -/
theorem askQuiet_dueState (hfixed : fixedOrder s) :
    let u := askQuiet (dueState s kind t task)
    TaskTaken s kind t u ∧ u.tasks = s.tasks ++ [task] ∧ u.chips = s.chips ∧ u.mesh = s.mesh ∧
      (s.quiet = .none → tasksAllowed s → u.quiet = .wanted) ∧ (s.quiet ≠ .none ∨ ¬ tasksAllowed s → u.quiet = s.quiet) := by
  intro u
  obtain ⟨htasks, hchips, hmesh, -, hquiet, -⟩ := dueState_kept (s := s) (kind := kind) (t := t) (task := task)
  have hframe := askQuiet_frame (dueState s kind t task)
  refine ⟨taskTaken_of_steady (steady_askQuiet _), (congrArg State.tasks hframe :).trans htasks,
    (congrArg State.chips hframe :).trans hchips, (congrArg State.mesh hframe :).trans hmesh, fun hnone hopen => ?asked, fun h => ?stands⟩
  case asked =>
    have hsome : (dueState s kind t task).tasks ≠ [] := by simp [htasks]
    exact congrArg State.quiet
      (askQuiet_wanted (hquiet.trans hnone) (dueState_tasksAllowed.2 hopen) (dueState_fixedOrder.2 hfixed) hsome)
  case stands =>
    have hstands := askQuiet_stands (s := dueState s kind t task) (h.imp (hquiet ▸ ·) (mt dueState_tasksAllowed.1))
    exact (congrArg State.quiet hstands).trans hquiet

/-- In FREE order the task waits while a command has started or tasks may not run (R446, R458, R460). -/
theorem gap_dueState_waits (h : (∃ c ∈ s.cmds, c.phase = .started) ∨ ¬ tasksAllowed s) :
    let u := runGapTasks (dueState s kind t task)
    TaskTaken s kind t u ∧ u.tasks = s.tasks ++ [task] ∧ u.chips = s.chips ∧ u.mesh = s.mesh ∧ u.quiet = s.quiet := by
  obtain ⟨htasks, hchips, hmesh, -, hquiet, hcmds⟩ := dueState_kept (s := s) (kind := kind) (t := t) (task := task)
  have hwaits : runGapTasks (dueState s kind t task) = dueState s kind t task :=
    runGapTasks_waits (h.symm.imp (mt dueState_tasksAllowed.1) (hcmds.symm ▸ ·))
  rw [hwaits]
  exact ⟨taskTaken_of_steady (steady_refl _), htasks, hchips, hmesh, hquiet⟩

/-- In FREE order with the chips idle the gap serves what waits, a recalibration pausing its link alone (R346, R458). -/
theorem gap_dueState_serves (hfree : ¬ fixedOrder s) (hpieces : ∀ c ∈ s.cmds, c.phase ≠ .started) (hopen : tasksAllowed s) :
    let u := runGapTasks (dueState s kind t task)
    let p := nth (0, 1) linkPairs task.arg
    TaskTaken s kind t u ∧ u.quiet = s.quiet ∧ (task.kind = 1 → s.tasks = [] →
      u.tasks = [] ∧ u.chips = s.chips ∧ doLinkRecalibration s p.1 p.2 = { s with mesh := u.mesh, totals := u.totals }) := by
  intro u p
  obtain ⟨htasks, hchips, hmesh, htotals, hquiet, hcmds⟩ := dueState_kept (s := s) (kind := kind) (t := t) (task := task)
  have hfree' : ¬ fixedOrder (dueState s kind t task) := mt dueState_fixedOrder.1 hfree
  have hu : u = (s.tasks ++ [task]).foldl runTask (noTasks (dueState s kind t task)) := by
    rw [← htasks]
    exact runGapTasks_serves (dueState_tasksAllowed.2 hopen) (hcmds.symm ▸ hpieces) hfree' (by simp [htasks])
  have hsteady : steady (dueState s kind t task) u := hu ▸ steady_trans (steady_noTasks _) (steady_runTasks _ _)
  have hview : slotView u = slotView (dueState s kind t task) :=
    hu ▸ slotView_runTasks (s := noTasks (dueState s kind t task)) (wishSettled_of_free (s := dueState s kind t task) hfree') _
  refine ⟨taskTaken_of_steady hsteady, (congrArg (fun v => v.2.2) hview).trans hquiet, fun hkind hnone => ?_⟩
  have hrecal : u = doLinkRecalibration (noTasks (dueState s kind t task)) p.1 p.2 := by
    rw [hu, hnone]
    exact runTask_recalibration _ hkind
  rw [hrecal]
  exact ⟨doLinkRecalibration_tasks _ _ _, (doLinkRecalibration_chips _ _ _).trans hchips,
    doLinkRecalibration_congr (v := noTasks (dueState s kind t task)) hmesh htotals _ _⟩

end

end Sys2Proof.Laws
end

section
/-! SUPPORT. Bounded slots and quiet slots: which task one serves, when it opens, and how it ends (R365, R381, R410, R458). -/

open Sys2Proof Sys2Proof.Machine

namespace Sys2Proof.Laws

/-! ## The overdue task of a chip -/

/-- A task of the chip that has waited as long as Table PWR-10 lets it. -/
def isOverdue (s : State) (chip : Nat) (k : Task) : Prop := k ∈ s.tasks ∧ k.chip = chip ∧ k.due + maxDeferral s k.kind ≤ s.now

/-- The order in which a bounded slot takes tasks: by their row of Table PWR-10, longest due first. -/
def slotOrder (a b : Task) : Bool := decide (a.kind < b.kind ∨ (a.kind = b.kind ∧ a.due < b.due))

theorem slotOrder_weak : weakOrder slotOrder := by
  constructor
  · intro a b h
    simp only [slotOrder, decide_eq_true_eq, decide_eq_false_iff_not, Tick] at h ⊢
    omega
  · intro a b c h
    simp only [slotOrder, decide_eq_true_eq, Tick] at h ⊢
    omega

/-- The tasks of a chip that are overdue. -/
def overdueTasks (s : State) (chip : Nat) : List Task :=
  s.tasks.filter fun t => t.chip == chip && decide (t.due + maxDeferral s t.kind ≤ s.now)

theorem mem_overdueTasks {s : State} {chip : Nat} {k : Task} : k ∈ overdueTasks s chip ↔ isOverdue s chip k := by
  simp [overdueTasks, isOverdue]

theorem overdueTask_eq (s : State) (chip : Nat) : overdueTask s chip = (sortBy slotOrder (overdueTasks s chip)).head? := rfl

/-- Where a task is overdue, a bounded slot serves an overdue task that no other one precedes. -/
theorem overdueTask_first {s : State} {chip : Nat} {k : Task} (hk : isOverdue s chip k) :
    ∃ k', overdueTask s chip = some k' ∧ isOverdue s chip k' ∧ (k'.kind < k.kind ∨ k'.kind = k.kind ∧ k'.due ≤ k.due) := by
  have hsorted := sortBy_sorted slotOrder_weak (overdueTasks s chip)
  have hperm := sortBy_perm slotOrder (overdueTasks s chip)
  have hmem := hperm.mem_iff.2 (mem_overdueTasks.2 hk)
  rw [overdueTask_eq]
  cases hl : sortBy slotOrder (overdueTasks s chip) with
  | nil =>
    rw [hl] at hmem
    cases hmem
  | cons k' l =>
    rw [hl] at hmem hsorted
    refine ⟨k', rfl, mem_overdueTasks.1 (hperm.mem_iff.1 (hl ▸ List.mem_cons_self)), ?_⟩
    rcases List.mem_cons.1 hmem with rfl | hlater
    · exact .inr ⟨rfl, Nat.le_refl _⟩
    · have hnot := List.rel_of_pairwise_cons hsorted hlater
      simp only [slotOrder, decide_eq_false_iff_not, Tick] at hnot ⊢
      omega

theorem overdueTask_none {s : State} {chip : Nat} (h : ∀ k, ¬ isOverdue s chip k) : overdueTask s chip = none := by
  have hempty : overdueTasks s chip = [] := List.eq_nil_iff_forall_not_mem.2 fun k hk => h k (mem_overdueTasks.1 hk)
  rw [overdueTask_eq, hempty]
  rfl

/-! ## Bounded slots -/

/-- The last bounded slot of the chip lies 160,000 ticks back, or there was none (R458). -/
def slotSpaced (s : State) (chip : Nat) : Prop := ∀ l, (chipOf s chip).lastSlot = some l → l + ticksA s 160000 ≤ s.now

/-- The test that a bounded slot makes of it. -/
def slotSpacedNow (s : State) (chip : Nat) : Bool :=
  match (chipOf s chip).lastSlot with
  | some l => decide (l + ticksA s 160000 ≤ s.now)
  | none => true

theorem slotSpacedNow_iff (s : State) (chip : Nat) : slotSpacedNow s chip = true ↔ slotSpaced s chip := by
  unfold slotSpacedNow slotSpaced
  cases (chipOf s chip).lastSlot <;> simp

/-- A command with piece work reports BG_INTRUSION (R458). -/
def intruded (c : Cmd) : Cmd := if hasPieces c then { c with cflags := c.cflags ||| 64 } else c

theorem intruded_phase (c : Cmd) : (intruded c).phase = c.phase := by
  unfold intruded
  split <;> rfl

theorem intruded_modeCtrl (c : Cmd) : (intruded c).modeCtrl = c.modeCtrl := by
  unfold intruded
  split <;> rfl

/-- The state in which a bounded slot serves a task. -/
def boundedState (s : State) (chip : Nat) (k : Task) : State :=
  { setChip s chip fun c => { c with lastSlot := some s.now } with tasks := s.tasks.erase k, cmds := s.cmds.map intruded }

theorem boundedState_free {s : State} (h : ¬ fixedOrder s) (chip : Nat) (k : Task) : ¬ fixedOrder (boundedState s chip k) := by
  rintro (hmode | ⟨c, hc, hphase, hmode⟩)
  · exact h (.inl hmode)
  · obtain ⟨d, hd, rfl⟩ := List.mem_map.1 hc
    rw [intruded_phase] at hphase
    rw [intruded_modeCtrl] at hmode
    exact h (.inr ⟨d, hd, hphase, hmode⟩)

theorem doBoundedSlot_eq (s : State) (chip : Nat) (t : Tick) :
    doBoundedSlot s chip t =
      if !slotsOpen (stamp s t) || fixedNow (stamp s t) || !slotSpacedNow (stamp s t) chip then stamp s t
      else (overdueTask (stamp s t) chip).elim (stamp s t) fun k => runTask (boundedState (stamp s t) chip k) k := by
  unfold doBoundedSlot
  dsimp only
  cases overdueTask (stamp s t) chip <;> rfl

/-- No bounded slot in FIXED order, in a window, shutdown or loss, too soon after the last, or with no task overdue (R458, R460). -/
theorem doBoundedSlot_passes {s : State} {chip : Nat} {t : Tick}
    (h : fixedOrder s ∨ ¬ tasksAllowed s ∨ ¬ slotSpaced (stamp s t) chip ∨ ∀ k, ¬ isOverdue (stamp s t) chip k) :
    doBoundedSlot s chip t = stamp s t := by
  rw [doBoundedSlot_eq]
  split
  · rfl
  · rename_i hslot
    simp only [Bool.or_eq_true, Bool.not_eq_true', not_or, Bool.not_eq_false, slotsOpen_iff, fixedNow_iff, slotSpacedNow_iff] at hslot
    obtain ⟨⟨hopen, hfree⟩, hspaced⟩ := hslot
    rcases h with hfixed | hshut | hsoon | hnone
    · exact absurd hfixed hfree
    · exact absurd hopen hshut
    · exact absurd hspaced hsoon
    · rw [overdueTask_none hnone]
      rfl

/-- Any other bounded slot serves the task that comes first. -/
theorem doBoundedSlot_serves {s : State} {chip : Nat} {t : Tick} {k : Task} (hfree : ¬ fixedOrder s) (hopen : tasksAllowed s)
    (hspaced : slotSpaced (stamp s t) chip) (hk : overdueTask (stamp s t) chip = some k) :
    doBoundedSlot s chip t = runTask (boundedState (stamp s t) chip k) k := by
  have hslots : slotsOpen (stamp s t) = true := (slotsOpen_iff _).2 hopen
  have hfixed : fixedNow (stamp s t) = false := Bool.eq_false_iff.2 (mt (fixedNow_iff _).1 hfree)
  rw [doBoundedSlot_eq, hslots, hfixed, (slotSpacedNow_iff _ _).2 hspaced, hk]
  rfl

/-! ## Quiet slots -/

theorem barrierTick_all {s : State} {arrivals : List (Nat × Tick)}
    (h : ∀ c, c < 8 → (chipOf s c).active = true → ∃ a ∈ arrivals, a.1 = c) :
    barrierTick s arrivals = some (arrivals.foldl (fun m a => max m a.2) 0 + ticksA s 2048) := by
  refine if_pos ?_
  simp only [List.all_eq_true, List.any_eq_true, beq_iff_eq, activeChips, List.mem_filter, List.mem_range]
  exact fun c hc => h c hc.1 hc.2

theorem barrierTick_missing {s : State} {arrivals : List (Nat × Tick)}
    (h : ¬ ∀ c, c < 8 → (chipOf s c).active = true → ∃ a ∈ arrivals, a.1 = c) : barrierTick s arrivals = none := by
  refine if_neg fun hall => h fun c hc hactive => ?_
  simp only [List.all_eq_true, List.any_eq_true, beq_iff_eq, activeChips, List.mem_filter, List.mem_range] at hall
  exact hall c ⟨hc, hactive⟩

theorem doQuietSlotStart_missing {s : State} {arrivals : List (Nat × Tick)} (h : barrierTick s arrivals = none) :
    doQuietSlotStart s arrivals = s := by
  unfold doQuietSlotStart
  rw [h]

/-- The state in which a quiet slot that opens now serves its tasks. -/
def quietState (s : State) : State :=
  { s with tasks := laterTasks s.tasks, quiet := .openUntil (s.now + ticksA s 12800) }

/-- A quiet slot that is asked for opens on the release tick r where tasks may run and no command is started (R381). -/
theorem doQuietSlotStart_opens {s : State} {arrivals : List (Nat × Tick)} {r : Tick} (hr : barrierTick s arrivals = some r)
    (hquiet : s.quiet = .wanted) (hopen : tasksAllowed s) (hheld : ∀ c ∈ s.cmds, c.phase = .held) :
    doQuietSlotStart s arrivals = (slotTasks s.tasks).foldl runTask (quietState (stamp s r)) := by
  unfold doQuietSlotStart
  rw [hr]
  refine if_pos ?_
  simpa [hquiet, (slotsOpen_iff (stamp s r)).2 hopen] using hheld

theorem doQuietSlotStart_passes {s : State} {arrivals : List (Nat × Tick)} {r : Tick} (hr : barrierTick s arrivals = some r)
    (h : s.quiet ≠ .wanted ∨ ¬ tasksAllowed s ∨ ∃ c ∈ s.cmds, c.phase ≠ .held) : doQuietSlotStart s arrivals = stamp s r := by
  unfold doQuietSlotStart
  rw [hr]
  refine if_neg fun hopens => ?_
  simp only [Bool.and_eq_true, beq_iff_eq, List.all_eq_true, slotsOpen_iff] at hopens
  obtain ⟨⟨hquiet, hopen⟩, hheld⟩ := hopens
  rcases h with hne | hshut | ⟨c, hc, hphase⟩
  · exact hne hquiet
  · exact hshut hopen
  · exact hphase (hheld c hc)

theorem mem_of_mem_slotTasks {l : List Task} {k : Task} (h : k ∈ slotTasks l) : k ∈ l := by
  rcases List.mem_append.1 h with hother | hbist
  · exact (List.mem_filter.1 hother).1
  · exact (List.mem_filter.1 (List.mem_of_mem_take hbist)).1

theorem doCommandStart_quiet (s : State) (id : Nat) (t : Tick) : (doCommandStart s id t).quiet = s.quiet := by
  have hstart (v : State) (c : Cmd) (r : List Nat) : (startCmd v c r).quiet = v.quiet := by
    unfold startCmd markBehind
    dsimp only
    split <;> rfl
  unfold doCommandStart
  dsimp only
  split
  · rfl
  · split
    · rfl
    · split
      · rfl
      · split
        · split
          · exact hstart _ _ _
          · rfl
        · exact hstart _ _ _

/-- Commands started one after another, each on the tick the last one left. -/
def startEach (ids : List Nat) (s : State) : State := ids.foldl (fun s id => doCommandStart s id s.now) s

theorem startEach_quiet (ids : List Nat) (s : State) : (startEach ids s).quiet = s.quiet := by
  unfold startEach
  induction ids generalizing s with
  | nil => rfl
  | cons id ids ih => exact (ih _).trans (doCommandStart_quiet s id s.now)

theorem doQuietSlotEnd_closes {s : State} {stop : Tick} (h : s.quiet = .openUntil stop) (t : Tick) :
    doQuietSlotEnd s t = askQuiet (startEach (s.cmds.map fun c => c.id) (stamp { s with quiet := .none } (min t stop))) := by
  unfold doQuietSlotEnd
  rw [h]
  rfl

theorem doQuietSlotEnd_passes {s : State} (h : ∀ stop, s.quiet ≠ .openUntil stop) (t : Tick) : doQuietSlotEnd s t = stamp s t := by
  unfold doQuietSlotEnd
  split
  · exact absurd ‹_› (h _)
  · rfl

/-! ## What each event of a slot leaves -/

/-- The marks of BG_INTRUSION, as the opcodes with piece work give them (R458). -/
theorem intruded_eq (c : Cmd) :
    intruded c = if c.phase = .started ∧ (isStepOp (pktOp c) = true ∨ isTensorOp (pktOp c) = true ∨ pktOp c = 0x60) then
      { c with cflags := c.cflags ||| 64 } else c := by
  simp [intruded, hasPieces, or_assoc]

/-- A bounded slot serves one overdue task that no other precedes (R458). -/
theorem boundedSlot_serves {s : State} {chip : Nat} {t : Tick} {k : Task} (hfree : ¬ fixedOrder s) (hopen : tasksAllowed s)
    (hspaced : slotSpaced (stamp s t) chip) (hk : isOverdue (stamp s t) chip k) :
    ∃ u k', exec (.boundedSlot chip t) s = .next u ∧ slotFrame s u ∧ u.now = max s.now t ∧ isOverdue (stamp s t) chip k' ∧
      (k'.kind < k.kind ∨ k'.kind = k.kind ∧ k'.due ≤ k.due) ∧ u.quiet = s.quiet ∧
      (k'.kind = 1 → u.tasks = s.tasks.erase k') ∧ u.cmds = s.cmds.map intruded := by
  obtain ⟨k', hfirst, hoverdue, hbefore⟩ := overdueTask_first hk
  have hfree' : ¬ fixedOrder (boundedState (stamp s t) chip k') := boundedState_free (s := stamp s t) hfree chip k'
  have hsteady := steady_runTask (boundedState (stamp s t) chip k') k'
  have hview := slotView_runTask (wishSettled_of_free hfree') k'
  refine ⟨_, k', congrArg Host.Outcome.next (doBoundedSlot_serves hfree hopen hspaced hfirst), slotFrame_of_steady (by rfl) hsteady,
    (steady_now hsteady :), hoverdue, hbefore, (congrArg (fun v => v.2.2) hview :), fun hkind => ?_, (steady_cmds hsteady :)⟩
  rw [runTask_recalibration _ hkind, doLinkRecalibration_tasks]
  rfl

/-- A quiet slot opens on the release tick for 12,800 ticks and serves at most four BIST segments (R381, R410). -/
theorem quietSlot_opens {s : State} {arrivals : List (Nat × Tick)} {r : Tick} (hr : barrierTick s arrivals = some r)
    (hquiet : s.quiet = .wanted) (hopen : tasksAllowed s) (hheld : ∀ c ∈ s.cmds, c.phase = .held) :
    ∃ u, exec (.quietSlotStart arrivals) s = .next u ∧ slotFrame s u ∧ u.now = max s.now r ∧ u.cmds = s.cmds ∧
      u.quiet = .openUntil (max s.now r + ticksA s 12800) ∧
      ((∀ k ∈ s.tasks, findsNothing k) → u.tasks = (s.tasks.filter fun k => k.kind == 4).drop 4) := by
  have hsteady := steady_runTasks (slotTasks s.tasks) (quietState (stamp s r))
  have hsettled : wishSettled (slotView (quietState (stamp s r))) := .inl (by simp [slotView, quietState])
  have hview := slotView_runTasks hsettled (slotTasks s.tasks)
  refine ⟨_, congrArg Host.Outcome.next (doQuietSlotStart_opens hr hquiet hopen hheld), slotFrame_of_steady (by rfl) hsteady,
    (steady_now hsteady :), (steady_cmds hsteady :), (congrArg (fun v => v.2.2) hview :), fun hplain => ?_⟩
  rw [runTasks_tasks fun k hk => hplain k (mem_of_mem_slotTasks hk)]
  rfl

/-- A quiet slot ends by starting the commands it held, one after another, and may be asked for anew (R381). -/
theorem quietSlot_ends {s : State} {stop : Tick} (h : s.quiet = .openUntil stop) (t : Tick) :
    ∃ u, exec (.quietSlotEnd t) s = .next u ∧ (u.quiet = .none ∨ u.quiet = .wanted) ∧
      { u with quiet := .none } = startEach (s.cmds.map fun c => c.id) { s with quiet := .none, now := max s.now (min t stop) } := by
  have hnone := startEach_quiet (s.cmds.map fun c => c.id) (stamp { s with quiet := .none } (min t stop))
  refine ⟨_, congrArg Host.Outcome.next (doQuietSlotEnd_closes h t), ?_, ?_⟩
  · exact (askQuiet_quiet _).imp_left fun hkept => hkept.trans hnone
  · have hframe := askQuiet_frame (startEach (s.cmds.map fun c => c.id) (stamp { s with quiet := .none } (min t stop)))
    rw [hnone] at hframe
    exact hframe

end Sys2Proof.Laws
end

section
/-! The TMC's restart, background tasks, bounded slots and quiet slots settled (R381, R404, R410, R432, R446, R458 to R460). -/

open Sys2Proof Sys2Proof.Machine

namespace Sys2Proof.Laws

/-- Settles O46: the resume writes what waited (`tmcResumed_of_deputy`); a task that falls due is taken and waits or is served by the
order in force (`askQuiet_dueState`, `gap_dueState_waits`, `gap_dueState_serves`); and the tasks that a slot serves ask for no further
slot (`boundedSlot_serves`, `quietSlot_opens`, both by `slotView_runTask`). -/
theorem tmcRestartsAndBackgroundTasks : Obligations.TmcRestartsAndBackgroundTasks := by
  unfold Obligations.TmcRestartsAndBackgroundTasks
  refine ⟨fun s => ?tmc, fun s t => ⟨fun kind chip arg found bad => ?due, fun chip => ?bounded, fun arrivals => ?quiet,
    fun stop h => quietSlot_ends h t, fun h => congrArg Host.Outcome.next (doQuietSlotEnd_passes h t)⟩⟩
  case tmc =>
    refine ⟨fun hready hdeputy => congrArg Host.Outcome.next (doTmcWatchdog_restarts hready hdeputy),
      fun h => congrArg Host.Outcome.next (doTmcWatchdog_stays h),
      fun hdeputy => ⟨congrArg Host.Outcome.next (doTmcResume_running hdeputy), ?saves⟩,
      fun hdeputy => ⟨congrArg Host.Outcome.next (doCounterSave_waits hdeputy), ?resumes⟩⟩
    case saves =>
      exact ⟨_, congrArg Host.Outcome.next (doCounterSave_saves hdeputy), ⟨rfl, rfl, rfl, rfl, rfl⟩, rfl⟩
    case resumes =>
      obtain ⟨d, hd⟩ := Option.isSome_iff_exists.1 hdeputy
      obtain ⟨hnone, hdeferred, hlog, hcounters, hentries, hfaults, hframe⟩ := tmcResumed_of_deputy hd
      exact ⟨_, rfl, ⟨congrArg CounterSet.core hcounters, congrArg CounterSet.link hcounters,
        congrArg CounterSet.hbm hcounters, congrArg CounterSet.chip hcounters, congrArg CounterSet.total hcounters⟩, hnone,
        hdeferred, hlog, hentries, hfaults, hframe⟩
  case due =>
    intro due i task full
    have hfull_iff : kind = 4 ∧ bistDue (stamp s t) = false ↔ full := and_congr_right' (bistDue_eq_false_iff (stamp s t))
    refine ⟨fun h => ?passes, fun hready h2 h6 hfull => ?joins⟩
    case passes =>
      rw [← hfull_iff] at h
      exact congrArg Host.Outcome.next (doBackgroundTaskDue_passes h)
    case joins =>
      have hjoins : taskJoins s kind t := ⟨hready, h2, h6, mt hfull_iff.1 hfull⟩
      have due_of {u : State} (hrun : exec i s = .next u) (h : TaskTaken s kind t u) : due i u :=
        ⟨hrun, h.now, h.cmds, h.frame, h.bist⟩
      refine ⟨fun hfixed => ?asks, fun hfree h => ?waits, fun hfree hpieces hopen => ?serves⟩
      case asks =>
        obtain ⟨htaken, hrest⟩ := askQuiet_dueState (kind := kind) (t := t) (task := task) hfixed
        exact ⟨_, due_of (exec_backgroundTaskDue_fixed hjoins hfixed) htaken, htaken.idle, hrest⟩
      case waits =>
        obtain ⟨htaken, hrest⟩ := gap_dueState_waits (kind := kind) (t := t) (task := task) h
        exact ⟨_, due_of (exec_backgroundTaskDue_free hjoins hfree) htaken, htaken.idle, hrest⟩
      case serves =>
        obtain ⟨htaken, hquiet, hrecal⟩ := gap_dueState_serves (kind := kind) (t := t) (task := task) hfree hpieces hopen
        refine ⟨_, due_of (exec_backgroundTaskDue_free hjoins hfree) htaken, htaken.idle, hquiet, fun hkind hnone => ?_⟩
        obtain ⟨htasks, hchips, hlink⟩ := hrecal hkind hnone
        exact ⟨htasks, hchips, congrArg Host.Outcome.next hlink⟩
  case bounded =>
    refine ⟨fun h => congrArg Host.Outcome.next (doBoundedSlot_passes h), fun hfree hopen hspaced k hk => ?_⟩
    obtain ⟨u, k', hrun, hframe, hnow, hoverdue, hbefore, hquiet, htasks, hcmds⟩ := boundedSlot_serves hfree hopen hspaced hk
    exact ⟨u, k', hrun, hframe, hnow, hoverdue, hbefore, hquiet, htasks, hcmds.trans (List.map_congr_left fun c _ => intruded_eq c)⟩
  case quiet =>
    exact ⟨fun hmissing => congrArg Host.Outcome.next (doQuietSlotStart_missing (barrierTick_missing hmissing)),
      fun hall hquiet hopen hheld => quietSlot_opens (barrierTick_all hall) hquiet hopen hheld,
      fun hall h => congrArg Host.Outcome.next (doQuietSlotStart_passes (barrierTick_all hall) h)⟩

end Sys2Proof.Laws
end

section
/-! SUPPORT. The cores of a chip: what a change of one of them leaves, a core's fence, and the order in which a chip's fences are
handled (R411 to R416). -/

open Sys2Proof Sys2Proof.Machine

namespace Sys2Proof.Laws

/-! ## A change of one core -/

/-- Core k of chip c reads as x; no other core of the tray changes, nor how many chips there are and whether chip c is active. -/
structure CoreBecomes (s u : State) (c k : Nat) (x : Core) : Prop where
  core : (chipOf u c).cores[k]? = some x
  cores : ∀ j, j ≠ k → (chipOf u c).cores[j]? = (chipOf s c).cores[j]?
  chips : ∀ i, i ≠ c → u.chips[i]? = s.chips[i]?
  length : u.chips.length = s.chips.length
  active : (chipOf u c).active = (chipOf s c).active

theorem CoreBecomes.trans {s t u : State} {c k : Nat} {x y : Core} (h : CoreBecomes s t c k x) (h' : CoreBecomes t u c k y) :
    CoreBecomes s u c k y where
  core := h'.core
  cores j hj := (h'.cores j hj).trans (h.cores j hj)
  chips i hi := (h'.chips i hi).trans (h.chips i hi)
  length := h'.length.trans h.length
  active := h'.active.trans h.active

theorem chipOf_of_chips {s u : State} (h : u.chips = s.chips) (c : Nat) : chipOf u c = chipOf s c := by
  unfold chipOf
  rw [h]

theorem CoreBecomes.of_chips {s t u : State} {c k : Nat} {x : Core} (h : CoreBecomes s t c k x) (hchips : u.chips = t.chips) :
    CoreBecomes s u c k x where
  core := by rw [chipOf_of_chips hchips, h.core]
  cores j hj := by rw [chipOf_of_chips hchips, h.cores j hj]
  chips i hi := by rw [hchips, h.chips i hi]
  length := by rw [hchips, h.length]
  active := by rw [chipOf_of_chips hchips, h.active]

/-- The tick on which a core changes is none of it. -/
theorem CoreBecomes.of_stamp {s u : State} {t : Tick} {c k : Nat} {x : Core} (h : CoreBecomes (stamp s t) u c k x) :
    CoreBecomes s u c k x := ⟨h.core, h.cores, h.chips, h.length, h.active⟩

theorem nth_of_getElem? {α : Type} {d x : α} {l : List α} {i : Nat} (h : l[i]? = some x) : nth d l i = x := by
  unfold nth
  rw [List.getD_eq_getElem?_getD, h]
  rfl

section
variable {s : State} {c k : Nat} {co : Core} (hc : c < s.chips.length) (hk : (chipOf s c).cores[k]? = some co)
include hc hk

theorem coreBecomes_setCore (f : Core → Core) : CoreBecomes s (setCore s c k f) c k (f co) where
  core := by rw [chipOf_setCore s c k f hc]; exact modNth_get _ _ _ _ hk
  cores j hj := by rw [chipOf_setCore s c k f hc]; exact modNth_other _ _ _ _ hj
  chips i hi := setChip_other s _ hi
  length := setChip_length s c _
  active := by rw [chipOf_setCore s c k f hc]

theorem coreBecomes_countChip (i n : Nat) : CoreBecomes s (countChip s c i n) c k co where
  core := by rw [chipOf_countChip s c i n hc]; exact hk
  cores j _ := by rw [chipOf_countChip s c i n hc]
  chips j hj := setChip_other s _ hj
  length := setChip_length s c _
  active := by rw [chipOf_countChip s c i n hc]

end

/-! ## The ledger with a field entry -/

/-- The TMC writes a field entry at once, with its fault-log entry (R407). -/
theorem addLedger_now {s : State} (hdeputy : s.deputy = none) (kind chip unit origin element replacement : Nat) :
    addLedger s kind chip unit origin element replacement =
      writeEntries (logFault s 0x41 chip unit kind) [⟨kind, chip, unit, origin, element, replacement, (ledgerNow s).bringUps⟩] := by
  have hlogged : (logFault s 0x41 chip unit kind).deputy = none :=
    (congrArg State.deputy (logFault_frame s 0x41 chip unit kind) :).trans hdeputy
  unfold addLedger
  dsimp only
  rw [hlogged]

theorem entries_addLedger {s : State} (hdeputy : s.deputy = none) (kind chip unit origin element replacement : Nat) :
    (ledgerNow (addLedger s kind chip unit origin element replacement)).entries =
      (ledgerNow s).entries ++ [⟨kind, chip, unit, origin, element, replacement, (ledgerNow s).bringUps⟩] := by
  rw [addLedger_now hdeputy, ledgerNow_writeEntries, logFault_ledger]

theorem addLedger_chips (s : State) (kind chip unit origin element replacement : Nat) :
    (addLedger s kind chip unit origin element replacement).chips = s.chips := by
  have h := congrArg State.chips (addLedger_frame s kind chip unit origin element replacement)
  exact h

/-! ## A core's fence -/

theorem losing_eq_false {s : State} {c : Nat} (hactive : (chipOf s c).active = true)
    (hloss : ∀ cs f old, s.loss = .declared cs f old → c ∉ cs) : losing s c = false := by
  unfold losing
  rw [hactive]
  cases hl : s.loss with
  | declared cs f old => simpa using hloss cs f old hl
  | none => rfl
  | recovering _ => rfl

/-- A core that is due to be fenced: it works or stands by, and its chip is not lost. -/
structure FenceDue (s : State) (c k : Nat) (co : Core) : Prop where
  chip : c < s.chips.length
  core : (chipOf s c).cores[k]? = some co
  losing : losing s c = false
  role : co.role ≠ .fenced

theorem FenceDue.passes {s : State} {c k : Nat} {co : Core} (h : FenceDue s c k co) :
    ¬ (Machine.losing s c || (nth (Core.fresh k) (chipOf s c).cores k).role == .fenced) = true := by
  rw [nth_of_getElem? h.core, h.losing]
  simpa using h.role

/-- Fewer than 12 working cores would be left: the chip is lost (R22, R415). -/
theorem fenceCore_few {s : State} {c k : Nat} {co : Core} (h : FenceDue s c k co) (hfew : workingCores s c ≤ 12) (origin : Nat) :
    fenceCore s c k origin = fatal s c :=
  (if_neg h.passes).trans (if_pos hfew)

/-- A spare that is fenced. -/
def spareFenced (s : State) (c k : Nat) : State := setCore s c k fun x => { x with role := .fenced }

/-- An active core that is fenced: it waits for its replacement, and the fence is counted. -/
def activeFenced (s : State) (c k origin : Nat) : State :=
  countChip (setCore s c k fun x => { x with role := .fenced, pending := some (origin, s.now), missed := 0 }) c 0 1

theorem fenceCore_spare_eq {s : State} {c k : Nat} {co : Core} (h : FenceDue s c k co) (hmany : 12 < workingCores s c)
    (hspare : co.role = .spare) (origin : Nat) : fenceCore s c k origin = addLedger (spareFenced s c k) 2 c k origin 0 0 := by
  refine (if_neg h.passes).trans ((if_neg (Nat.not_le.2 hmany)).trans (if_pos ?_))
  rw [nth_of_getElem? h.core, hspare]
  rfl

theorem fenceCore_active_eq {s : State} {c k : Nat} {co : Core} (h : FenceDue s c k co) (hmany : 12 < workingCores s c)
    (hactive : co.role = .active) (origin : Nat) :
    fenceCore s c k origin = logFault (raiseEvent (activeFenced s c k origin) evCORE_FENCED) evCORE_FENCED c k 0 := by
  refine (if_neg h.passes).trans ((if_neg (Nat.not_le.2 hmany)).trans (if_neg ?_))
  rw [nth_of_getElem? h.core, hactive]
  decide

/-- A spare leaves the pool, with its entry in the ledger (R411). -/
theorem fenceCore_spare {s : State} {c k : Nat} {co : Core} (h : FenceDue s c k co) (hmany : 12 < workingCores s c)
    (hspare : co.role = .spare) (hdeputy : s.deputy = none) (origin : Nat) :
    let u := fenceCore s c k origin
    CoreBecomes s u c k { co with role := .fenced } ∧
      (ledgerNow u).entries = (ledgerNow s).entries ++ [⟨2, c, k, origin, 0, 0, (ledgerNow s).bringUps⟩] ∧
      { u with chips := s.chips, vault := s.vault, ledgerWrite := s.ledgerWrite } = s := by
  dsimp only
  rw [fenceCore_spare_eq h hmany hspare]
  refine ⟨(coreBecomes_setCore h.chip h.core _).of_chips (addLedger_chips ..), entries_addLedger (s := spareFenced s c k) hdeputy .., ?_⟩
  exact congrArg (fun x : State => { x with chips := s.chips }) (addLedger_quiet (spareFenced s c k) 2 c k origin 0 0 hdeputy)

/-- An active core serves no more and waits for its replacement; CORE_FENCED is set (R413). -/
theorem fenceCore_active {s : State} {c k : Nat} {co : Core} (h : FenceDue s c k co) (hmany : 12 < workingCores s c)
    (hactive : co.role = .active) (origin : Nat) :
    let u := fenceCore s c k origin
    CoreBecomes s u c k { co with role := .fenced, pending := some (origin, s.now), missed := 0 } ∧
      u.regs.eventCause.getLsbD 1 = true ∧
      { u with
        chips := s.chips, totals := s.totals, vault := s.vault, deferredLog := s.deferredLog, regs := s.regs
        mgmt := s.mgmt } = s := by
  dsimp only
  rw [fenceCore_active_eq h hmany hactive]
  have hfenced : CoreBecomes s (activeFenced s c k origin) c k
      { co with role := .fenced, pending := some (origin, s.now), missed := 0 } :=
    have hset := coreBecomes_setCore h.chip h.core fun x => { x with role := .fenced, pending := some (origin, s.now), missed := 0 }
    hset.trans (coreBecomes_countChip (hset.length ▸ h.chip) hset.core 0 1)
  have hraised := raiseEvent_mild (activeFenced s c k origin) evCORE_FENCED
  have hcause : (raiseEvent (activeFenced s c k origin) evCORE_FENCED).regs.eventCause.getLsbD 1 = true :=
    raiseEvent_sets _ (by decide)
  generalize raiseEvent (activeFenced s c k origin) evCORE_FENCED = r at hraised hcause ⊢
  have hlogged := logFault_frame r evCORE_FENCED c k 0
  generalize logFault r evCORE_FENCED c k 0 = u at hlogged ⊢
  have hchips : u.chips = (activeFenced s c k origin).chips :=
    (congrArg State.chips hlogged :).trans (congrArg State.chips hraised :)
  have hregs : u.regs = r.regs := (congrArg State.regs hlogged :)
  refine ⟨hfenced.of_chips hchips, hregs ▸ hcause, ?_⟩
  calc _ = { r with
        chips := s.chips, totals := s.totals, vault := s.vault, deferredLog := s.deferredLog, regs := s.regs, mgmt := s.mgmt } :=
        congrArg (fun x : State => { x with
          chips := s.chips, totals := s.totals, vault := s.vault, deferredLog := s.deferredLog, regs := s.regs
          mgmt := s.mgmt }) hlogged
    _ = s := congrArg (fun x : State => { x with
          chips := s.chips, totals := s.totals, vault := s.vault, deferredLog := s.deferredLog }) hraised

/-! ## Heartbeats that a core misses -/

/-- A core that has missed n heartbeats in a row, the last one now. -/
def coreMissed (s : State) (c k n : Nat) : State := setCore s c k fun x => { x with missed := n, lastMiss := some s.now }

/-- The hang counted in the core (R412). -/
def coreHung (s : State) (c k n : Nat) : State := countCore (coreMissed s c k n) c k 8 1

theorem doCoreHeartbeatMiss_eq {s : State} {c k : Nat} {co : Core} {t : Tick} (hk : (chipOf s c).cores[k]? = some co)
    (hactive : (chipOf s c).active = true) (hrole : co.role ≠ .fenced) {n : Nat}
    (hn : missCount (stamp s t) co.missed co.lastMiss 16384 = n) :
    doCoreHeartbeatMiss s c k t =
      if 4 ≤ n then fenceCore (coreHung (stamp s t) c k n) c k 3 else coreMissed (stamp s t) c k n := by
  have hcore : nth (Core.fresh k) (chipOf (stamp s t) c).cores k = co := nth_of_getElem? hk
  subst hn
  unfold doCoreHeartbeatMiss
  dsimp only
  rw [hcore, if_neg]
  · rfl
  · simpa [show (chipOf (stamp s t) c).active = true from hactive] using hrole

theorem workingCores_coreHung {s : State} {c : Nat} (hc : c < s.chips.length) (k n : Nat) :
    workingCores (coreHung s c k n) c = workingCores s c :=
  (workingCores_setCore (coreMissed s c k n) c k (fun x => { x with counters := modNth x.counters 8 (satAdd 0xFFFF · 1) })
    ((setChip_length s c _).symm ▸ hc) fun _ => rfl).trans (workingCores_setCore s c k _ hc fun _ => rfl)

section
variable {s : State} {c k : Nat} {co : Core} (hc : c < s.chips.length) (hk : (chipOf s c).cores[k]? = some co)
include hc hk

theorem coreBecomes_coreHung (n : Nat) :
    CoreBecomes s (coreHung s c k n) c k
      { co with missed := n, lastMiss := some s.now, counters := modNth co.counters 8 (satAdd 0xFFFF · 1) } :=
  have hmissed := coreBecomes_setCore hc hk fun x => { x with missed := n, lastMiss := some s.now }
  have hcounted := coreBecomes_setCore (hmissed.length ▸ hc) hmissed.core fun x =>
    { x with counters := modNth x.counters 8 (satAdd 0xFFFF · 1) }
  (hmissed.trans hcounted).of_chips rfl

theorem fenceDue_coreHung (hactive : (chipOf s c).active = true) (hloss : ∀ cs f old, s.loss = .declared cs f old → c ∉ cs)
    (hrole : co.role ≠ .fenced) (n : Nat) :
    FenceDue (coreHung s c k n) c k
      { co with missed := n, lastMiss := some s.now, counters := modNth co.counters 8 (satAdd 0xFFFF · 1) } :=
  have h := coreBecomes_coreHung hc hk n
  { chip := h.length ▸ hc
    core := h.core
    losing := losing_eq_false (h.active.trans hactive) hloss
    role := hrole }

end

/-! ## The order of a chip's fences (R416) -/

/-- The fences of a chip that wait for a replacement: fence tick and core. -/
def fenceQueue (s : State) (c : Nat) : List (Tick × Nat) :=
  (withIndex (chipOf s c).cores).filterMap fun p => p.2.pending.map fun q => (q.2, p.1)

/-- By fence tick, and by core on one tick (log entry 94). -/
def fenceOrder (a b : Tick × Nat) : Bool := decide (a.1 < b.1 ∨ (a.1 = b.1 ∧ a.2 < b.2))

theorem nextFence_eq (s : State) (c : Nat) : nextFence s c = (sortBy fenceOrder (fenceQueue s c)).head?.map fun p => p.2 := rfl

theorem fenceOrder_weak : weakOrder fenceOrder := by
  constructor
  · intro a b h
    simp only [fenceOrder, decide_eq_true_eq, decide_eq_false_iff_not, Tick] at h ⊢
    omega
  · intro a b d h
    simp only [fenceOrder, decide_eq_true_eq, Tick] at h ⊢
    omega

theorem mem_fenceQueue {s : State} {c : Nat} {q : Tick × Nat} :
    q ∈ fenceQueue s c ↔ ∃ x origin, (chipOf s c).cores[q.2]? = some x ∧ x.pending = some (origin, q.1) := by
  unfold fenceQueue
  rw [List.mem_filterMap]
  constructor
  · rintro ⟨p, hp, hq⟩
    obtain ⟨⟨origin, f⟩, hpending, rfl⟩ := Option.map_eq_some_iff.1 hq
    exact ⟨p.2, origin, (mem_withIndex hp).2, hpending⟩
  · rintro ⟨x, origin, hx, hpending⟩
    exact ⟨(q.2, x), List.mem_of_getElem? (withIndex_get _ _ _ hx), by rw [hpending]; rfl⟩

/-- The first of a sorted list is one of its elements, and none precedes it. -/
theorem head_sortBy {α : Type} {lt : α → α → Bool} (w : weakOrder lt) {l : List α} {a : α} (ha : a ∈ l) :
    ∃ b, (sortBy lt l).head? = some b ∧ b ∈ l ∧ (a = b ∨ lt a b = false) := by
  have hsorted := sortBy_sorted w l
  have hperm := sortBy_perm lt l
  have hmem := hperm.mem_iff.2 ha
  cases hl : sortBy lt l with
  | nil =>
    rw [hl] at hmem
    cases hmem
  | cons b rest =>
    rw [hl] at hmem hsorted
    refine ⟨b, rfl, hperm.mem_iff.1 (hl ▸ List.mem_cons_self), ?_⟩
    rcases List.mem_cons.1 hmem with rfl | hlater
    · exact .inl rfl
    · exact .inr (List.rel_of_pairwise_cons hsorted hlater)

/-- Where a fence waits, the next one is a fence that no other precedes. -/
theorem nextFence_least {s : State} {c : Nat} {q : Tick × Nat} (hq : q ∈ fenceQueue s c) :
    ∃ b ∈ fenceQueue s c, nextFence s c = some b.2 ∧ (b.1 < q.1 ∨ b.1 = q.1 ∧ b.2 ≤ q.2) := by
  obtain ⟨b, hb, hmem, hleast⟩ := head_sortBy fenceOrder_weak hq
  refine ⟨b, hmem, by rw [nextFence_eq, hb]; rfl, ?_⟩
  rcases hleast with rfl | hleast
  · exact .inr ⟨rfl, Nat.le_refl _⟩
  · simp only [fenceOrder, decide_eq_false_iff_not, Tick] at hleast ⊢
    omega

section
variable {s : State} {c k : Nat} {co : Core} {origin : Nat} {f : Tick} (hk : (chipOf s c).cores[k]? = some co)
  (hpending : co.pending = some (origin, f))
include hk hpending

theorem mem_fenceQueue_of_pending : (f, k) ∈ fenceQueue s c := mem_fenceQueue.2 ⟨co, origin, hk, hpending⟩

/-- A fence that precedes all others of its chip is the next. -/
theorem nextFence_of_first (hfirst : ∀ (j : Nat) (x : Core), (chipOf s c).cores[j]? = some x → ∀ o g, x.pending = some (o, g) →
    f < g ∨ f = g ∧ k ≤ j) : nextFence s c = some k := by
  obtain ⟨b, hb, hnext, hleast⟩ := nextFence_least (mem_fenceQueue_of_pending hk hpending)
  obtain ⟨x, o, hx, ho⟩ := mem_fenceQueue.1 hb
  have hbefore := hfirst b.2 x hx o b.1 ho
  have hcore : b.2 = k := by
    simp only [Tick] at hbefore hleast
    omega
  rw [hnext, hcore]

/-- A fence with an earlier one beside it is not the next. -/
theorem nextFence_ne_of_earlier {j o : Nat} {x : Core} {g : Tick} (hj : (chipOf s c).cores[j]? = some x)
    (ho : x.pending = some (o, g)) (hearlier : g < f) : nextFence s c ≠ some k := by
  intro hnext
  obtain ⟨b, hb, hnext', hleast⟩ := nextFence_least (mem_fenceQueue_of_pending hj ho)
  obtain ⟨y, o', hy, ho'⟩ := mem_fenceQueue.1 hb
  have hcore : b.2 = k := Option.some.inj (hnext'.symm.trans hnext)
  rw [hcore, hk] at hy
  cases hy
  rw [hpending] at ho'
  have htick : f = b.1 := congrArg Prod.snd (Option.some.inj ho')
  simp only [Tick] at hleast hearlier htick
  omega

end

end Sys2Proof.Laws
end

section
/-! SUPPORT. A fenced core's replacement and the declaration of a chip loss (R403, R404, R413, R418, R419). -/

open Sys2Proof Sys2Proof.Machine

namespace Sys2Proof.Laws

/-! ## Replacements -/

/-- A fenced core whose fence has been handled: it waits no more, its sticky flags are clear. -/
def coreReplaced (s : State) (c k : Nat) : State := setCore s c k fun x => { x with pending := none, te := noFlags, sfu := noFlags }

/-- A spare in service, its sticky flags clear. -/
def spareServes (s : State) (c j : Nat) : State := setCore s c j fun x => { x with role := .active, te := noFlags, sfu := noFlags }

section
variable {s : State} {c k : Nat} {co : Core} {origin : Nat} {f : Tick} (hk : (chipOf s c).cores[k]? = some co)
include hk

theorem replaceCore_eq (hpending : co.pending = some (origin, f)) :
    replaceCore s c k = (spareCores (coreReplaced s c k) c).head?.elim (addLedger (coreReplaced s c k) 2 c k origin 0 0)
      fun j => addLedger (spareServes (coreReplaced s c k) c j) 1 c k origin 0 j := by
  unfold replaceCore coreReplaced
  dsimp only
  rw [nth_of_getElem? hk, hpending]
  dsimp only
  split
  · next j hspare => rw [hspare]; rfl
  · next hspare => rw [hspare]; rfl

variable (hc : c < s.chips.length)
include hc

theorem coreBecomes_coreReplaced :
    CoreBecomes s (coreReplaced s c k) c k { co with pending := none, te := noFlags, sfu := noFlags } :=
  coreBecomes_setCore hc hk _

omit hk in
theorem spareCores_coreReplaced : spareCores (coreReplaced s c k) c = spareCores s c :=
  spareCores_setCore s c k _ hc fun _ => rfl

variable (hpending : co.pending = some (origin, f)) (hdeputy : s.deputy = none)
include hpending hdeputy

/-- The lowest-numbered spare takes over a fenced core, and the ledger has the entry (R407, R413). -/
theorem replaceCore_spare {j : Nat} {sp : Core} (hrole : co.role = .fenced) (hspare : (spareCores s c).head? = some j)
    (hj : (chipOf s c).cores[j]? = some sp) :
    let u := replaceCore s c k
    (∃ t, CoreBecomes s t c k { co with pending := none, te := noFlags, sfu := noFlags } ∧
      CoreBecomes t u c j { sp with role := .active, te := noFlags, sfu := noFlags }) ∧ j ≠ k ∧
      (ledgerNow u).entries = (ledgerNow s).entries ++ [⟨1, c, k, origin, 0, j, (ledgerNow s).bringUps⟩] ∧
      { u with chips := s.chips, vault := s.vault, ledgerWrite := s.ledgerWrite } = s := by
  have hne : j ≠ k := by
    rintro rfl
    obtain ⟨x, hx, hrole'⟩ := mem_spareCores (List.mem_of_mem_head? hspare)
    rw [hk] at hx
    cases hx
    rw [hrole] at hrole'
    cases hrole'
  have hreplaced := coreBecomes_coreReplaced hk hc
  have hserves := coreBecomes_setCore (hreplaced.length ▸ hc) ((hreplaced.cores j hne).trans hj)
    fun x => { x with role := .active, te := noFlags, sfu := noFlags }
  have heq : replaceCore s c k = addLedger (spareServes (coreReplaced s c k) c j) 1 c k origin 0 j := by
    rw [replaceCore_eq hk hpending, spareCores_coreReplaced hc, hspare]
    rfl
  dsimp only
  rw [heq]
  refine ⟨⟨_, hreplaced, hserves.of_chips (addLedger_chips ..)⟩, hne,
    entries_addLedger (s := spareServes (coreReplaced s c k) c j) hdeputy .., ?_⟩
  exact congrArg (fun x : State => { x with chips := s.chips })
    (addLedger_quiet (spareServes (coreReplaced s c k) c j) 1 c k origin 0 j hdeputy)

/-- With no spare left the remaining cores serve, and the ledger has the entry (R407, R413). -/
theorem replaceCore_none (hspare : spareCores s c = []) :
    let u := replaceCore s c k
    CoreBecomes s u c k { co with pending := none, te := noFlags, sfu := noFlags } ∧
      (ledgerNow u).entries = (ledgerNow s).entries ++ [⟨2, c, k, origin, 0, 0, (ledgerNow s).bringUps⟩] ∧
      { u with chips := s.chips, vault := s.vault, ledgerWrite := s.ledgerWrite } = s := by
  have heq : replaceCore s c k = addLedger (coreReplaced s c k) 2 c k origin 0 0 := by
    rw [replaceCore_eq hk hpending, spareCores_coreReplaced hc, hspare]
    rfl
  dsimp only
  rw [heq]
  refine ⟨(coreBecomes_coreReplaced hk hc).of_chips (addLedger_chips ..),
    entries_addLedger (s := coreReplaced s c k) hdeputy .., ?_⟩
  exact congrArg (fun x : State => { x with chips := s.chips }) (addLedger_quiet (coreReplaced s c k) 2 c k origin 0 0 hdeputy)

end

theorem doCoreReplacement_next {s : State} {c k : Nat} (hactive : (chipOf s c).active = true) (hnext : nextFence s c = some k) :
    doCoreReplacement s c k = replaceCore s c k := if_pos (by simp [hactive, hnext])

theorem doCoreReplacement_passes {s : State} {c k : Nat} (h : (chipOf s c).active = false ∨ nextFence s c ≠ some k) :
    doCoreReplacement s c k = s := if_neg (by rcases h with h | h <;> simp [h])

/-! ## Losses declared -/

/-- What the loss of chip c leaves, with the fence tick f where none is declared yet: a chip declared lost stays so, one more
shares the fence tick of those before it, and a loss under recovery is kept beside it (R419, R423). -/
def lossDeclared (before : Loss) (c : Nat) (f : Tick) (l : Loss) : Prop :=
  (∀ cs g old, before = .declared cs g old → c ∈ cs → l = .declared cs g old) ∧
  (∀ cs g old, before = .declared cs g old → c ∉ cs → l = .declared (cs ++ [c]) g old) ∧
  (before = .none → l = .declared [c] f []) ∧
  (∀ old, before = .recovering old → l = .declared [c] f old)

theorem declareLoss_declares {s : State} {c : Nat} (hactive : (chipOf s c).active = true) :
    lossDeclared s.loss c (s.now + ticksA s 1600) (declareLoss s c).loss := by
  unfold declareLoss lossDeclared
  rw [hactive]
  cases hloss : s.loss with
  | none => simp
  | recovering old => simp
  | declared cs g old =>
    by_cases hmem : c ∈ cs
    · simp [hmem, hloss]
    · simp [hmem]

theorem declareLoss_inactive {s : State} {c : Nat} (h : (chipOf s c).active = false) : declareLoss s c = s :=
  if_pos (by rw [h]; rfl)

theorem declareBy_deputy {s : State} {c : Nat} (h : s.deputy = some c) : declareBy s c = s := if_pos h

theorem declareBy_other {s : State} {c : Nat} (h : s.deputy ≠ some c) : declareBy s c = declareLoss s c := if_neg h

/-! ## Reports of a chip and heartbeats that it misses -/

theorem doFatalReport_inactive {s : State} {c : Nat} (h : (chipOf s c).active = false) (t : Tick) : doFatalReport s c t = stamp s t :=
  if_pos (by rw [show (chipOf (stamp s t) c).active = false from h]; rfl)

theorem doFatalReport_active {s : State} {c : Nat} (h : (chipOf s c).active = true) (t : Tick) :
    doFatalReport s c t = declareBy (countChip (stamp s t) c 7 1) c :=
  if_neg (by rw [show (chipOf (stamp s t) c).active = true from h]; decide)

theorem doRegulatorFault_restarting {s : State} (h : s.deputy.isSome = true) (c : Nat) (t : Tick) :
    doRegulatorFault s c t = stamp s t := if_pos h

theorem doRegulatorFault_running {s : State} (h : s.deputy = none) (c : Nat) (t : Tick) :
    doRegulatorFault s c t = declareLoss (stamp s t) c :=
  (if_neg (by rw [h]; decide)).trans (declareBy_other (by rw [stamp_deputy, h]; rintro ⟨⟩))

theorem doRegulatorFault_inactive {s : State} {c : Nat} (h : (chipOf s c).active = false) (t : Tick) :
    doRegulatorFault s c t = stamp s t := by
  cases hdeputy : s.deputy with
  | none => rw [doRegulatorFault_running hdeputy, declareLoss_inactive (s := stamp s t) h]
  | some d => exact doRegulatorFault_restarting (by rw [hdeputy]; rfl) c t

/-- A chip that has missed n heartbeats in a row, the last one now; the miss is counted. -/
def chipMissed (s : State) (c n : Nat) : State := setChip (countChip s c 6 1) c fun x => { x with missed := n, lastMiss := some s.now }

theorem chipOf_chipMissed {s : State} {c : Nat} (hc : c < s.chips.length) (n : Nat) :
    chipOf (chipMissed s c n) c = { chipOf s c with
      missed := n, lastMiss := some s.now, counters := modNth (chipOf s c).counters 6 (satAdd 0xFFFF · 1) } :=
  (chipOf_setChip (countChip s c 6 1) c _ ((nearChip_countChip s c 6 1).2.2 ▸ hc)).trans
    (congrArg (fun x : Chip => { x with missed := n, lastMiss := some s.now }) (chipOf_countChip s c 6 1 hc))

theorem nearChip_chipMissed (s : State) (c n : Nat) : nearChip s (chipMissed s c n) c :=
  nearChip_trans (nearChip_countChip s c 6 1) (nearChip_setChip _ c _)

theorem doChipHeartbeatMiss_inactive {s : State} {c : Nat} (h : (chipOf s c).active = false) (t : Tick) :
    doChipHeartbeatMiss s c t = stamp s t :=
  if_pos (by rw [show (chipOf (stamp s t) c).active = false from h]; rfl)

theorem doChipHeartbeatMiss_active {s : State} {c : Nat} {t : Tick} (h : (chipOf s c).active = true) {n : Nat}
    (hn : missCount (stamp s t) (chipOf s c).missed (chipOf s c).lastMiss 32000 = n) :
    doChipHeartbeatMiss s c t =
      if 10 ≤ n ∨ 3 ≤ failedLinks s c then declareLoss (chipMissed (stamp s t) c n) c else chipMissed (stamp s t) c n := by
  subst hn
  refine (if_neg (by rw [show (chipOf (stamp s t) c).active = true from h]; decide)).trans ?_
  simp only [Bool.or_eq_true, decide_eq_true_eq]
  rfl

/-- On a tick a chip is counted, then its loss may be declared: chip c, the totals and the loss alone change. -/
theorem frame_nearChip_loss {s t u : State} {c : Nat} {tick : Tick} (hnear : nearChip (stamp s tick) t c)
    (hloss : { u with loss := t.loss } = t) :
    (∀ k, k ≠ c → u.chips[k]? = s.chips[k]?) ∧ chipOf u c = chipOf t c ∧
      { u with now := s.now, chips := s.chips, totals := s.totals, loss := s.loss } = s := by
  have hchips : u.chips = t.chips := (congrArg State.chips hloss :)
  obtain ⟨hframe, hothers, -⟩ := hnear
  refine ⟨fun k hk => hchips ▸ hothers k hk, chipOf_of_chips hchips c, ?_⟩
  calc _ = { t with now := s.now, chips := s.chips, totals := s.totals, loss := s.loss } :=
        congrArg (fun x : State => { x with now := s.now, chips := s.chips, totals := s.totals, loss := s.loss }) hloss
    _ = s := congrArg (fun x : State => { x with now := s.now, loss := s.loss }) hframe

end Sys2Proof.Laws
end

section
/-! Core hangs, replacements and chip losses settled (R403, R404, R412, R413, R415, R416, R418, R419). -/

open Sys2Proof Sys2Proof.Machine

namespace Sys2Proof.Laws

/-- Settles O44: a miss counts or fences the core by the spec of `fenceCore` for its role (`fenceCore_active`, `fenceCore_spare`,
`fenceCore_few`); a replacement follows the order of the fences (`nextFence_of_first`, `nextFence_ne_of_earlier`); each report of a
chip declares its loss as `declareLoss_declares` says. -/
theorem coreHangsAndChipLosses : Obligations.CoreHangsAndChipLosses := by
  unfold Obligations.CoreHangsAndChipLosses
  refine ⟨fun s c k co hc hk => ?cores, fun s c t hc => ?chips⟩
  case cores =>
    intro coreIs onlyCores
    have confined {u : State} {x : Core} (h : CoreBecomes s u c k x) : onlyCores u [k] :=
      ⟨fun j hj => h.cores j (by simpa using hj), h.chips⟩
    refine ⟨fun hactive hrole hloss t => ?miss, fun origin f hrole hpending hactive hdeputy => ?replace,
      fun origin f hpending ⟨j, x, o, g, hj, ho, hearlier⟩ => ?waits,
      fun h => congrArg Host.Outcome.next (doCoreReplacement_passes (.inl h))⟩
    case miss =>
      intro T n
      have hn : missCount (stamp s t) co.missed co.lastMiss 16384 = n := missCount_eq (stamp s t) _ _ _
      have heq := doCoreHeartbeatMiss_eq hk hactive hrole hn
      have hdue : FenceDue (coreHung (stamp s t) c k n) c k _ :=
        fenceDue_coreHung (s := stamp s t) hc hk hactive hloss hrole n
      have hhung := coreBecomes_coreHung (s := stamp s t) hc hk n
      have hworking : workingCores (coreHung (stamp s t) c k n) c = workingCores s c :=
        workingCores_coreHung (s := stamp s t) hc k n
      clear_value n
      refine ⟨fun hfew => ?counts, fun hmany hactive hworks => ?active, fun hmany hspare hworks hdeputy => ?spare,
        fun hmany hworks hnone hdeputy => ?lost⟩
      case counts =>
        have hmissed := (coreBecomes_setCore (s := stamp s t) hc hk fun x => { x with missed := n, lastMiss := some T }).of_stamp
        exact ⟨_, congrArg Host.Outcome.next (heq.trans (if_neg (Nat.not_le.2 hfew))), confined hmissed, hmissed.core, rfl⟩
      case active =>
        obtain ⟨hcore, hcause, hframe⟩ := fenceCore_active hdue (hworking ▸ hworks) hactive 3
        have hcores := (hhung.trans hcore).of_stamp
        exact ⟨_, congrArg Host.Outcome.next (heq.trans (if_pos hmany)), confined hcores, hcause, hcores.core,
          congrArg (fun x : State => { x with now := s.now, chips := s.chips, totals := s.totals }) hframe⟩
      case spare =>
        obtain ⟨hcore, hentries, hframe⟩ := fenceCore_spare hdue (hworking ▸ hworks) hspare hdeputy 3
        have hcores := (hhung.trans hcore).of_stamp
        exact ⟨_, congrArg Host.Outcome.next (heq.trans (if_pos hmany)), confined hcores, hcores.core, hentries,
          congrArg (fun x : State => { x with now := s.now, chips := s.chips, totals := s.totals }) hframe⟩
      case lost =>
        have hfatal := fatal_fresh _ c hdue.chip (hhung.active.trans hactive) hdeputy hnone
        have hcore := (coreBecomes_countChip hdue.chip hdue.core 7 1).core
        exact ⟨_, congrArg Host.Outcome.next (heq.trans ((if_pos hmany).trans
          ((fenceCore_few hdue (hworking ▸ hworks) 3).trans hfatal))), rfl, hcore⟩
    case replace =>
      intro first
      refine ⟨fun hfirst j sp hspare hj => ?takesOver, fun hfirst hspare => ?alone⟩
      all_goals
        have heq : exec (.coreReplacement c k) s = .next (replaceCore s c k) :=
          congrArg Host.Outcome.next (doCoreReplacement_next hactive (nextFence_of_first hk hpending hfirst))
      case takesOver =>
        obtain ⟨⟨t, hreplaced, hserves⟩, hne, hentries, hframe⟩ := replaceCore_spare hk hc hpending hdeputy hrole hspare hj
        refine ⟨_, heq, ⟨fun i hi => ?_, fun i hi => (hserves.chips i hi).trans (hreplaced.chips i hi)⟩,
          (hserves.cores k hne.symm).trans hreplaced.core, hserves.core, hentries, hframe⟩
        obtain ⟨hik, hij⟩ : i ≠ k ∧ i ≠ j := by simpa using hi
        exact (hserves.cores i hij).trans (hreplaced.cores i hik)
      case alone =>
        obtain ⟨hreplaced, hentries, hframe⟩ := replaceCore_none hk hc hpending hdeputy hspare
        exact ⟨_, heq, confined hreplaced, hreplaced.core, hentries, hframe⟩
    case waits =>
      exact congrArg Host.Outcome.next (doCoreReplacement_passes (.inr (nextFence_ne_of_earlier hk hpending hj ho hearlier)))
  case chips =>
    intro T p lost chipIs
    refine ⟨fun hinactive i hi => ?inactive, fun hactive => ⟨?fatal, fun hdeputy => ?regulator,
      fun hdeputy => congrArg Host.Outcome.next (doRegulatorFault_restarting hdeputy c t), ?heartbeat⟩⟩
    case inactive =>
      rcases List.mem_cons.1 hi with rfl | hi
      · exact congrArg Host.Outcome.next (doFatalReport_inactive hinactive t)
      rcases List.mem_cons.1 hi with rfl | hi
      · exact congrArg Host.Outcome.next (doRegulatorFault_inactive hinactive t)
      rcases List.mem_singleton.1 hi with rfl
      exact congrArg Host.Outcome.next (doChipHeartbeatMiss_inactive hinactive t)
    case fatal =>
      have hchip := chipOf_countChip (stamp s t) c 7 1 hc
      obtain ⟨hothers, hsame, hframe⟩ := frame_nearChip_loss (nearChip_countChip (stamp s t) c 7 1)
        (declareBy_frame (countChip (stamp s t) c 7 1) c)
      refine ⟨_, congrArg Host.Outcome.next (doFatalReport_active hactive t), fun hdeputy => ?_, fun hdeputy => ?_,
        ⟨hsame.trans hchip, hothers⟩, hframe⟩
      · rw [declareBy_other (s := countChip (stamp s t) c 7 1) hdeputy]
        exact declareLoss_declares ((congrArg Chip.active hchip).trans hactive)
      · rw [declareBy_deputy (s := countChip (stamp s t) c 7 1) hdeputy]
        rfl
    case regulator =>
      exact ⟨_, congrArg Host.Outcome.next (doRegulatorFault_running hdeputy c t), declareLoss_declares (s := stamp s t) hactive,
        congrArg (fun x : State => { x with now := s.now }) (declareLoss_frame (stamp s t) c)⟩
    case heartbeat =>
      intro n
      have hn : missCount (stamp s t) p.missed p.lastMiss 32000 = n := missCount_eq (stamp s t) _ _ _
      have heq := doChipHeartbeatMiss_active hactive hn
      clear_value n
      have hnear := nearChip_chipMissed (stamp s t) c n
      have hchip := chipOf_chipMissed (s := stamp s t) hc n
      by_cases hlost : 10 ≤ n ∨ 3 ≤ failedLinks s c
      · obtain ⟨hothers, hsame, hframe⟩ := frame_nearChip_loss hnear (declareLoss_frame (chipMissed (stamp s t) c n) c)
        exact ⟨_, congrArg Host.Outcome.next (heq.trans (if_pos hlost)), ⟨hsame.trans hchip, hothers⟩, hframe,
          fun _ => declareLoss_declares (s := chipMissed (stamp s t) c n) ((congrArg Chip.active hchip).trans hactive),
          fun _ _ => by omega⟩
      · obtain ⟨hothers, hsame, hframe⟩ := frame_nearChip_loss (u := chipMissed (stamp s t) c n) hnear rfl
        exact ⟨_, congrArg Host.Outcome.next (heq.trans (if_neg hlost)), ⟨hchip, hothers⟩, hframe, fun h => absurd h hlost,
          fun _ _ => rfl⟩

end Sys2Proof.Laws
end

section
/-! The configuration, the fault log and the ledger settled (R434, R466, R469, R471, R472, R477). -/

open Sys2Proof Sys2Proof.Machine

namespace Sys2Proof.Laws

/-! ## Who is answered (R466, R504) -/

section
variable {s : State}

theorem onMgmt_down (h : ¬ (redfishUp s = true ∨ mctpUp s = true)) (inRecovery : Bool) (k : State → State) :
    onMgmt s inRecovery k = s := if_pos (by simpa using h)

variable (hup : redfishUp s = true ∨ mctpUp s = true)
include hup

theorem not_unserved : ¬ (!(redfishUp s || mctpUp s)) = true := by
  rw [Bool.or_eq_true_iff.2 hup]
  decide

theorem onMgmt_up (k : State → State) : onMgmt s true k = k s :=
  (if_neg (not_unserved hup)).trans (if_neg (by simp))

theorem onMgmt_recovery (hboot : s.boot = .recovery) (k : State → State) : onMgmt s false k = answer s false [] :=
  (if_neg (not_unserved hup)).trans (if_pos (by simp [hboot]))

theorem onMgmt_served (hboot : s.boot ≠ .recovery) (inRecovery : Bool) (k : State → State) : onMgmt s inRecovery k = k s :=
  (if_neg (not_unserved hup)).trans (if_neg (by simp [hboot]))

end

/-! ## The copy that a write goes to (R471, log entry 79) -/

/-- A write goes to copy A unless A is valid and B is not, or has the lower CFG_SEQ. -/
def writesA (a b : List Byte) : Prop := ¬ (cfgValid a = true ∧ (cfgValid b = false ∨ fieldAt b 4 4 < fieldAt a 4 4))

theorem cfgTarget_A {s : State} (h : writesA s.vault.cfgA s.vault.cfgB) :
    cfgTarget s = (true, if cfgValid s.vault.cfgB then fieldAt s.vault.cfgB 4 4 + 1 else 1) := by
  unfold writesA at h
  unfold cfgTarget
  dsimp only
  cases ha : cfgValid s.vault.cfgA <;> cases hb : cfgValid s.vault.cfgB
  case false.false => rfl
  case false.true => rfl
  case true.false => exact absurd ⟨ha, .inl hb⟩ h
  case true.true => exact if_pos (Nat.not_lt.1 fun hlt => h ⟨ha, .inr hlt⟩)

theorem cfgTarget_B {s : State} (h : ¬ writesA s.vault.cfgA s.vault.cfgB) :
    cfgTarget s = (false, fieldAt s.vault.cfgA 4 4 + 1) := by
  obtain ⟨ha, hb⟩ := Classical.not_not.1 h
  unfold cfgTarget
  dsimp only
  rw [ha]
  cases hvalid : cfgValid s.vault.cfgB
  case false => rfl
  case true =>
    rw [hvalid] at hb
    exact if_neg (Nat.not_le.2 (hb.resolve_left (by decide)))

theorem storeCfg_A {s : State} {seq : Nat} (h : cfgTarget s = (true, seq)) (blob : List Byte) :
    storeCfg s blob = { s with vault := { s.vault with cfgA := sealBlob blob seq } } := by
  unfold storeCfg
  rw [h]
  rfl

theorem storeCfg_B {s : State} {seq : Nat} (h : cfgTarget s = (false, seq)) (blob : List Byte) :
    storeCfg s blob = { s with vault := { s.vault with cfgB := sealBlob blob seq } } := by
  unfold storeCfg
  rw [h]
  rfl

/-- Settles O55: who is served, by `onMgmt`; the reads answer what stands; a checked blob is sealed (`sealBlob_spec`) and stored in
the copy that `cfgTarget` names. -/
theorem configurationAndLogs : Obligations.ConfigurationAndLogs := by
  unfold Obligations.ConfigurationAndLogs
  intro s up answers a b toA seq
  refine ⟨fun hdown => ⟨fun i hi => ?down, fun x => congrArg Host.Outcome.next (onMgmt_down hdown _ _)⟩,
    fun hup hboot => ?recovery, fun hup => congrArg Host.Outcome.next (onMgmt_up hup _), fun hup hboot => ?serving⟩
  case down =>
    rcases List.mem_cons.1 hi with rfl | hi
    · exact congrArg Host.Outcome.next (onMgmt_down hdown _ _)
    rcases List.mem_cons.1 hi with rfl | hi
    · exact congrArg Host.Outcome.next (onMgmt_down hdown _ _)
    rcases List.mem_singleton.1 hi with rfl
    exact congrArg Host.Outcome.next (onMgmt_down hdown _ _)
  case recovery =>
    have hrefused (k : State → State) := congrArg (@Host.Outcome.next State Fault Refusal) (onMgmt_recovery hup hboot k)
    exact ⟨hrefused _, hrefused _, fun _ => hrefused _⟩
  case serving =>
    have hserved (k : State → State) := congrArg (@Host.Outcome.next State Fault Refusal) (onMgmt_served hup hboot false k)
    refine ⟨hserved _, ⟨_, hserved _⟩, fun x => ⟨fun hbad => ?refused, fun hok => ?stored⟩⟩
    case refused =>
      refine (hserved _).trans (congrArg Host.Outcome.next (if_neg ?_))
      rw [hbad]
      decide
    case stored =>
      refine ⟨sealBlob x seq, (hserved _).trans (congrArg Host.Outcome.next ((if_pos hok).trans ?_)), sealBlob_spec x seq hok⟩
      by_cases hA : writesA a b
      · have htoA : toA = true := decide_eq_true hA
        rw [storeCfg_A (cfgTarget_A hA)]
        simp only [seq, htoA, if_true]
        rfl
      · have htoA : toA = false := decide_eq_false hA
        rw [storeCfg_B (cfgTarget_B hA)]
        simp only [seq, htoA, Bool.false_eq_true, if_false]
        rfl

end Sys2Proof.Laws
end

section
/-! The step, and what every command answers (log entries 1 and 13). -/

open Sys2Proof Sys2Proof.Machine

namespace Sys2Proof.Laws

/-- Settles O1: that is the step's branch for a queue with a command in it. -/
theorem stepRunsFrontCommand : Obligations.StepRunsFrontCommand := by
  unfold Obligations.StepRunsFrontCommand
  intro c rest s
  rfl

/-- With no background task waiting, a gap serves none. -/
theorem runGapTasks_of_noTasks {s : State} (h : s.tasks = []) : runGapTasks s = s :=
  if_neg (by rw [h]; simp)

theorem step_of_empty {s : State} (h : s.pending = []) : step s = .next (idleTick s) := by
  unfold step
  rw [h]

/-- Settles O2: an idle step is `idleTick`, whose gap has no task to serve (`runGapTasks_of_noTasks`). -/
theorem idleStepAdvancesCounter : Obligations.IdleStepAdvancesCounter := by
  unfold Obligations.IdleStepAdvancesCounter
  intro s hempty
  rw [step_of_empty hempty]
  refine ⟨fun hoff => congrArg Host.Outcome.next (if_pos hoff), fun hon htasks => congrArg Host.Outcome.next ?_⟩
  calc idleTick s = runGapTasks { s with now := s.now + 1 } := if_neg hon
    _ = { s with now := s.now + 1 } := runGapTasks_of_noTasks htasks

/-- Every command answers a next state, and keeps what `Keeps` names: each by the lemma of its meaning. -/
theorem exec_keeps : ∀ (i : Instr) (s : State), ∃ t, exec i s = .next t ∧ Keeps s t
  | .nop _, _ => ⟨_, rfl, doNop_keeps ..⟩
  | .fence _, _ => ⟨_, rfl, doFence_keeps ..⟩
  | .loadModel _, _ => ⟨_, rfl, doLoadModel_keeps ..⟩
  | .unloadModel _, _ => ⟨_, rfl, doUnloadModel_keeps ..⟩
  | .setModelPriority _, _ => ⟨_, rfl, doSetModelPriority_keeps ..⟩
  | .openStream _, _ => ⟨_, rfl, doOpenStream_keeps ..⟩
  | .setStreamParams _, _ => ⟨_, rfl, doSetStreamParams_keeps ..⟩
  | .closeStream _, _ => ⟨_, rfl, doCloseStream_keeps ..⟩
  | .rebuildHistory _, _ => ⟨_, rfl, doRebuildHistory_keeps ..⟩
  | .saveStream _, _ => ⟨_, rfl, doSaveStream_keeps ..⟩
  | .restoreStream _, _ => ⟨_, rfl, doRestoreStream_keeps ..⟩
  | .stepCmd _ _, _ => ⟨_, rfl, doStepOp_keeps ..⟩
  | .stepScores _ _, _ => ⟨_, rfl, doStepOp_keeps ..⟩
  | .verify _ _, _ => ⟨_, rfl, doStepOp_keeps ..⟩
  | .lookahead _ _, _ => ⟨_, rfl, doStepOp_keeps ..⟩
  | .hostDraw _ _, _ => ⟨_, rfl, doStepOp_keeps ..⟩
  | .softmax _ _, _ => ⟨_, rfl, doSoftmax_keeps ..⟩
  | .topk _ _, _ => ⟨_, rfl, doTopk_keeps ..⟩
  | .thresholdCompact _ _, _ => ⟨_, rfl, doThresholdCompact_keeps ..⟩
  | .rowstat _ _, _ => ⟨_, rfl, doRowstat_keeps ..⟩
  | .castOp _ _, _ => ⟨_, rfl, doCast_keeps ..⟩
  | .randomFill _ _, _ => ⟨_, rfl, doRandomFill_keeps ..⟩
  | .applyFunction _ _, _ => ⟨_, rfl, doApplyFunction_keeps ..⟩
  | .ringJump _, _ => ⟨_, rfl, doRingJump_keeps ..⟩
  | .loadFunction _, _ => ⟨_, rfl, doLoadFunction_keeps ..⟩
  | .loadMask _, _ => ⟨_, rfl, doLoadMask_keeps ..⟩
  | .replay _ _, _ => ⟨_, rfl, doReplay_keeps ..⟩
  | .readDigests _, _ => ⟨_, rfl, doReadDigests_keeps ..⟩
  | .readFlags _ _, _ => ⟨_, rfl, doReadFlags_keeps ..⟩
  | .readCounters _ _, _ => ⟨_, rfl, doReadCounters_keeps ..⟩
  | .clearCounters _, _ => ⟨_, rfl, doClearCounters_keeps ..⟩
  | .setMode _, _ => ⟨_, rfl, doSetMode_keeps ..⟩
  | .setWakeTolerance _, _ => ⟨_, rfl, doSetWakeTolerance_keeps ..⟩
  | .barrier _ _, _ => ⟨_, rfl, doBarrier_keeps ..⟩
  | .barrierArrival _ _ _, _ => ⟨_, rfl, doBarrierArrival_keeps ..⟩
  | .barrierRelease _, _ => ⟨_, rfl, doBarrierRelease_keeps ..⟩
  | .launchAt _, _ => ⟨_, rfl, doLaunchAt_keeps ..⟩
  | .launchTick _, _ => ⟨_, rfl, doLaunchTick_keeps ..⟩
  | .abort _, _ => ⟨_, rfl, doAbort_keeps ..⟩
  | .sqTailDb _ _ _ _ _, _ => ⟨_, rfl, doSqTailDb_keeps ..⟩
  | .cqHeadDb _ _ _ _, _ => ⟨_, rfl, doCqHeadDb_keeps ..⟩
  | .sqEnable _ _ _, _ => ⟨_, rfl, doRingCtrl_keeps ..⟩
  | .sqDisable _ _ _, _ => ⟨_, rfl, doRingCtrl_keeps ..⟩
  | .cqEnable _ _ _, _ => ⟨_, rfl, doRingCtrl_keeps ..⟩
  | .cqDisable _ _ _, _ => ⟨_, rfl, doRingCtrl_keeps ..⟩
  | .ringErrClear _ _ _, _ => ⟨_, rfl, doRingErrClear_keeps ..⟩
  | .flagSummaryClear _, _ => ⟨_, rfl, doFlagSummaryClear_keeps ..⟩
  | .eventCauseClear _, _ => ⟨_, rfl, doEventCauseClear_keeps ..⟩
  | .vfEnable _, _ => ⟨_, rfl, doVfEnable_keeps ..⟩
  | .vfDisable _, _ => ⟨_, rfl, .ite (doVfDisable_keeps ..) (.refl _)⟩
  | .sriovVfEnable _ _, _ => ⟨_, rfl, doSriov_keeps ..⟩
  | .trayCountLoRead _, _ => ⟨_, rfl, doTrayCountLoRead_keeps ..⟩
  | .ingressSyncRead _, _ => ⟨_, rfl, doIngressSyncRead_keeps ..⟩
  | .bar2Write _ _ _ _, _ => ⟨_, rfl, doBar2Write_keeps ..⟩
  | .registerWrite _ _ _ _, _ => ⟨_, rfl, doRegisterWrite_keeps ..⟩
  | .functionLevelReset _, _ => ⟨_, rfl, doFlr_keeps ..⟩
  | .commandAccept _, _ => ⟨_, rfl, doCommandAccept_keeps ..⟩
  | .commandStart _ _, _ => ⟨_, rfl, doCommandStart_keeps ..⟩
  | .completionRecordWrite _ _, _ => ⟨_, rfl, doCompletionRecordWrite_keeps ..⟩
  | .cqCoalesceDelay _ _, _ => ⟨_, rfl, doCqCoalesceDelay_keeps ..⟩
  | .deadlineExpiry _, _ => ⟨_, rfl, doDeadlineExpiry_keeps ..⟩
  | .watchdogExpiry _ _ _, _ => ⟨_, rfl, doWatchdogExpiry_keeps ..⟩
  | .flitReceive _ _ _ _, _ => ⟨_, rfl, doFlitReceive_keeps ..⟩
  | .nackReceive _ _ _ _, _ => ⟨_, rfl, doNackReceive_keeps ..⟩
  | .ackTimeout _ _ _ _ _, _ => ⟨_, rfl, doAckTimeout_keeps ..⟩
  | .retryAttemptTimeout _ _ _, _ => ⟨_, rfl, doRetryAttemptTimeout_keeps ..⟩
  | .retryWindowExpiry _ _, _ => ⟨_, rfl, doRetryWindowExpiry_keeps ..⟩
  | .laneRetire _ _ _, _ => ⟨_, rfl, doLaneRetire_keeps ..⟩
  | .linkRecalibration _ _, _ => ⟨_, rfl, doLinkRecalibration_keeps ..⟩
  | .timeExchange _, _ => ⟨_, rfl, doTimeExchange_keeps ..⟩
  | .timeRsp _ _ _ _, _ => ⟨_, rfl, doTimeRsp_keeps ..⟩
  | .timeExchangeLoss _ _, _ => ⟨_, rfl, doTimeExchangeLoss_keeps ..⟩
  | .coreHeartbeatMiss _ _ _, _ => ⟨_, rfl, doCoreHeartbeatMiss_keeps ..⟩
  | .coreReplacement _ _, _ => ⟨_, rfl, doCoreReplacement_keeps ..⟩
  | .chipHeartbeatMiss _ _, _ => ⟨_, rfl, doChipHeartbeatMiss_keeps ..⟩
  | .fatalReport _ _, _ => ⟨_, rfl, doFatalReport_keeps ..⟩
  | .regulatorFault _ _, _ => ⟨_, rfl, doRegulatorFault_keeps ..⟩
  | .fenceTick _, _ => ⟨_, rfl, doFenceTick_keeps ..⟩
  | .chipLossRestart _, _ => ⟨_, rfl, doChipLossRestart_keeps ..⟩
  | .relayDone _, _ => ⟨_, rfl, doRelayDone_keeps ..⟩
  | .tmcWatchdog, _ => ⟨_, rfl, doTmcWatchdog_keeps ..⟩
  | .tmcResume, _ => ⟨_, rfl, doTmcResume_keeps ..⟩
  | .counterSave, _ => ⟨_, rfl, doCounterSave_keeps ..⟩
  | .backgroundTaskDue _ _ _ _ _ _, _ => ⟨_, rfl, doBackgroundTaskDue_keeps ..⟩
  | .boundedSlot _ _, _ => ⟨_, rfl, doBoundedSlot_keeps ..⟩
  | .quietSlotStart _, _ => ⟨_, rfl, doQuietSlotStart_keeps ..⟩
  | .quietSlotEnd _, _ => ⟨_, rfl, doQuietSlotEnd_keeps ..⟩
  | .pressureMeasurement _, _ => ⟨_, rfl, doPressureMeasurement_keeps ..⟩
  | .puffballMeasure _ _, _ => ⟨_, rfl, doPuffballMeasure_keeps ..⟩
  | .puffballCapacityMeasure _, _ => ⟨_, rfl, doPuffballCapacityMeasure_keeps ..⟩
  | .thermalThrottle _ _ _, _ => ⟨_, rfl, doThermalThrottle_keeps ..⟩
  | .coldPlateOvertemp _, _ => ⟨_, rfl, doColdPlateOvertemp_keeps ..⟩
  | .inputHigh _ _, _ => ⟨_, rfl, doInputHigh_keeps ..⟩
  | .pfEarly _ _, _ => ⟨_, rfl, doPfEarly_keeps ..⟩
  | .inputReturn _ _, _ => ⟨_, rfl, doInputReturn_keeps ..⟩
  | .decisionTick, _ => ⟨_, rfl, doDecisionTick_keeps ..⟩
  | .snapshotTick _, _ => ⟨_, rfl, doSnapshotTick_keeps ..⟩
  | .saveComplete _, _ => ⟨_, rfl, doSaveComplete_keeps ..⟩
  | .presenceLost _, _ => ⟨_, rfl, doPresenceLost_keeps ..⟩
  | .presenceMated, _ => ⟨_, rfl, doPresenceMated_keeps ..⟩
  | .puffballBleed, _ => ⟨_, rfl, doPuffballBleed_keeps ..⟩
  | .idleEntry _ _, _ => ⟨_, rfl, doIdleEntry_keeps ..⟩
  | .inputCheck _, _ => ⟨_, rfl, doInputCheck_keeps ..⟩
  | .puffballPreCharge _, _ => ⟨_, rfl, doPuffballPreCharge_keeps ..⟩
  | .tmcBoot _, _ => ⟨_, rfl, doTmcBoot_keeps ..⟩
  | .chipPowerOnBist _, _ => ⟨_, rfl, doChipPowerOnBist_keeps ..⟩
  | .hbmMycelTraining _, _ => ⟨_, rfl, doHbmMycelTraining_keeps ..⟩
  | .trayCounterAlignment _, _ => ⟨_, rfl, doTrayCounterAlignment_keeps ..⟩
  | .configurationApply, _ => ⟨_, rfl, doConfigurationApply_keeps ..⟩
  | .ready, _ => ⟨_, rfl, doReady_keeps ..⟩
  | .hostLinkTrained _ _ _, _ => ⟨_, rfl, doHostLinkTrained_keeps ..⟩
  | .hostLinkDown _, _ => ⟨_, rfl, doHostLinkDown_keeps ..⟩
  | .hostBridgeFailed _ _, _ => ⟨_, rfl, doHostBridgeFailed_keeps ..⟩
  | .gracefulRestart _, _ => ⟨_, rfl, doGracefulRestart_keeps ..⟩
  | .forceRestart, _ => ⟨_, rfl, doForceRestart_keeps ..⟩
  | .gracefulShutdown _, _ => ⟨_, rfl, doGracefulShutdown_keeps ..⟩
  | .on, _ => ⟨_, rfl, doOn_keeps ..⟩
  | .configWrite _, _ => ⟨_, rfl, doConfigWrite_keeps ..⟩
  | .configRead, _ => ⟨_, rfl, doConfigRead_keeps ..⟩
  | .faultLogRead, _ => ⟨_, rfl, doFaultLogRead_keeps ..⟩
  | .ledgerRead, _ => ⟨_, rfl, doLedgerRead_keeps ..⟩
  | .firmwareTransfer _ _ _, _ => ⟨_, rfl, doFirmwareTransfer_keeps ..⟩
  | .verifyComplete, _ => ⟨_, rfl, doVerifyComplete_keeps ..⟩
  | .activateFirmware, _ => ⟨_, rfl, doActivateFirmware_keeps ..⟩
  | .mctpControl _, _ => ⟨_, rfl, doMctpControl_keeps ..⟩
  | .getSensorReading _, _ => ⟨_, rfl, doGetSensorReading_keeps ..⟩
  | .getVersion _, _ => ⟨_, rfl, doGetVersion_keeps ..⟩
  | .getCapabilities _, _ => ⟨_, rfl, doGetCapabilities_keeps ..⟩
  | .negotiateAlgorithms _, _ => ⟨_, rfl, doNegotiateAlgorithms_keeps ..⟩
  | .getDigests _, _ => ⟨_, rfl, doGetDigests_keeps ..⟩
  | .getCertificate _, _ => ⟨_, rfl, doGetCertificate_keeps ..⟩
  | .challenge _, _ => ⟨_, rfl, doChallenge_keeps ..⟩
  | .getMeasurements _, _ => ⟨_, rfl, doGetMeasurements_keeps ..⟩
  | .redfishGet _, _ => ⟨_, rfl, doRedfishGet_keeps ..⟩
  | .eventSubscription _ _, _ => ⟨_, rfl, doEventSubscription_keeps ..⟩
  | .accountService _ _ _, _ => ⟨_, rfl, doAccountService_keeps ..⟩
  | .mirrorBuildComplete _, _ => ⟨_, rfl, doMirrorBuildComplete_keeps ..⟩
  | .modelRelayComplete _, _ => ⟨_, rfl, doModelRelayComplete_keeps ..⟩
  | .throttleRelease _ _, _ => ⟨_, rfl, doThrottleRelease_keeps ..⟩
  | .coldPlateRelease _, _ => ⟨_, rfl, doColdPlateRelease_keeps ..⟩

/-- Settles O3: no arm of `exec` faults or refuses, and each keeps the queue (`exec_keeps`). -/
theorem everyCommandAnswersNext : Obligations.EveryCommandAnswersNext := by
  unfold Obligations.EveryCommandAnswersNext
  intro i s
  obtain ⟨t, hnext, hkeeps⟩ := exec_keeps i s
  exact ⟨t, hnext, hkeeps.queue⟩

end Sys2Proof.Laws
end

section
/-! Writes to ingress memory (R500, R501). -/

open Sys2Proof Sys2Proof.Machine

namespace Sys2Proof.Laws

/-- Byte b of a memory after enabled bytes are stored from address a on. -/
theorem memByte_storeEnabled {m : List (Nat × Byte)} (w : mapWf 0#8 m = true) (a b : Nat) (bs : List (Option Byte)) :
    memByte (memStoreEnabled m a bs) b =
      if a ≤ b ∧ b < a + bs.length then ((bs[b - a]?).join).getD (memByte m b) else memByte m b := by
  induction bs generalizing m a with
  | nil => rw [if_neg (by simp only [List.length_nil]; omega)]; rfl
  | cons x xs ih =>
    obtain ⟨m', hm', hwf, hhead, htail⟩ : ∃ m', memStoreEnabled m a (x :: xs) = memStoreEnabled m' (a + 1) xs ∧
        mapWf 0#8 m' = true ∧ memByte m' a = x.getD (memByte m a) ∧ ∀ c, c ≠ a → memByte m' c = memByte m c := by
      cases x with
      | none => exact ⟨m, rfl, w, rfl, fun _ _ => rfl⟩
      | some v =>
        exact ⟨mapSet 0#8 m a v, rfl, mapSet_wf w a v, by simp [memByte, mapGet_set w], fun c hc => by
          simp [memByte, mapGet_set w, hc]⟩
    rw [hm', ih hwf, List.length_cons]
    by_cases hfirst : b = a
    · subst hfirst
      rw [if_neg (by omega), if_pos (by omega), hhead]
      simp
    · rw [htail b hfirst]
      by_cases hlater : a + 1 ≤ b ∧ b < a + 1 + xs.length
      · rw [if_pos hlater, if_pos (by omega), show b - a = (b - (a + 1)) + 1 by omega, List.getElem?_cons_succ]
      · rw [if_neg hlater, if_neg (by omega)]

/-- A bridge after a write: a failed one stands. -/
def bridgeStored (a : Nat) (bs : List (Option Byte)) (b : Bridge) : Bridge :=
  if b.failed then b else { b with ingress := memStoreEnabled b.ingress a bs }

theorem doBar2Write_stores {s : State} {fn link off : Nat} {bs : List (Option Byte)} (hlink : linkUp s link = true)
    (hfits : off + bs.length ≤ bar2Size fn) :
    doBar2Write s fn link off bs = { s with bridges := s.bridges.map (bridgeStored (bar2Base fn + off) bs) } :=
  if_neg (by simpa [hlink] using hfits)

theorem nth_map {α β : Type} {d : α} {e : β} (f : α → β) {l : List α} {k : Nat} (h : k < l.length) :
    nth e (l.map f) k = f (nth d l k) := by
  simp [nth, h]

theorem ingress_wf {s : State} (hwf : memoriesWf s = true) {k : Nat} (h : k < s.bridges.length) :
    Memory.wf (nth ⟨false, 0, [], []⟩ s.bridges k).ingress = true := by
  unfold memoriesWf at hwf
  simp only [Bool.and_eq_true, List.all_eq_true] at hwf
  obtain ⟨⟨-, hbridges⟩, -⟩ := hwf
  exact hbridges _ (by simp [nth, h])

/-- Settles O18: every bridge is mapped by `bridgeStored`, whose bytes `memByte_storeEnabled` reads. -/
theorem bar2WriteStoresEnabledBytes : Obligations.Bar2WriteStoresEnabledBytes := by
  unfold Obligations.Bar2WriteStoresEnabledBytes
  intro s fn link off bs hwf hlink hfits
  refine ⟨_, congrArg Host.Outcome.next (doBar2Write_stores hlink hfits), List.length_map _, fun k hk => ?_, rfl⟩
  intro b b'
  have hb' : b' = bridgeStored (bar2Base fn + off) bs b := nth_map _ hk
  have hbwf := ingress_wf hwf hk
  clear_value b'
  subst hb'
  refine ⟨fun hfailed => if_pos hfailed, fun hworks => ?_⟩
  have hstored : bridgeStored (bar2Base fn + off) bs b =
      { b with ingress := memStoreEnabled b.ingress (bar2Base fn + off) bs } := if_neg (by rw [hworks]; decide)
  rw [hstored]
  exact ⟨rfl, fun a => memByte_storeEnabled hbwf _ a bs⟩

end Sys2Proof.Laws
end

section
/-! SUPPORT. What management answers: MCTP control, the sensors of Table BOOT-8, Redfish resources, subscriptions and accounts
(R477, R478, R483, R484). -/

open Sys2Proof Sys2Proof.Machine

namespace Sys2Proof.Laws

/-! ## MCTP control (R477) -/

theorem doMctpControl_down {s : State} (h : mctpUp s = false) (msg : List Byte) : doMctpControl s msg = s :=
  if_pos (by rw [h]; rfl)

section
variable {s : State} {msg : List Byte} (hup : mctpUp s = true)
include hup

theorem doMctpControl_assign (h : fieldAt msg 1 1 = 1) :
    doMctpControl s msg =
      answer { s with mgmt := { s.mgmt with eid := fieldAt msg 3 1 } } true (leBytes 1 (fieldAt msg 3 1)) := by
  unfold doMctpControl
  rw [if_neg (by rw [hup]; decide), h]
  rfl

theorem doMctpControl_get (h : fieldAt msg 1 1 = 2) : doMctpControl s msg = answer s true (leBytes 1 s.mgmt.eid) := by
  unfold doMctpControl
  rw [if_neg (by rw [hup]; decide), h]
  rfl

theorem doMctpControl_other (h1 : fieldAt msg 1 1 ≠ 1) (h2 : fieldAt msg 1 1 ≠ 2) :
    doMctpControl s msg = nextFree (answer s false [Config.standardByte s.freeCtr 0]) := by
  unfold doMctpControl
  rw [if_neg (by rw [hup]; decide)]
  split
  · next h => exact absurd h h1
  · next h => exact absurd h h2
  · rfl

end

/-! ## Sensors (R33, R478, R488) -/

section
variable {s : State} {id : Nat} (hup : redfishUp s = true ∨ mctpUp s = true)
include hup

theorem doGetSensorReading_known {v : Nat} (h : sensor s id = some (some v, false)) :
    doGetSensorReading s id = answer s true (leBytes 1 1 ++ leBytes 4 v) := by
  unfold doGetSensorReading
  rw [onMgmt_up hup, h]

theorem doGetSensorReading_unavailable {open_ : Bool} (h : sensor s id = some (none, open_)) :
    doGetSensorReading s id = answer s true (leBytes 1 0 ++ leBytes 4 0) := by
  unfold doGetSensorReading
  rw [onMgmt_up hup, h]

theorem doGetSensorReading_measured {v : Nat} (h : sensor s id = some (some v, true)) :
    doGetSensorReading s id =
      nextFree (answer s true (leBytes 1 1 ++ leBytes 4 (openReading s id) ++ thresholdByte id (openReading s id))) := by
  unfold doGetSensorReading
  rw [onMgmt_up hup, h]

theorem doGetSensorReading_absent (h : sensor s id = none) : doGetSensorReading s id = answer s false [] := by
  unfold doGetSensorReading
  rw [onMgmt_up hup, h]

end

/-- A chip's temperature and its power: measured while the chip is active, unavailable once it is lost (R478). -/
theorem sensor_chip (s : State) {c id : Nat} (hc : c < 8) (hid : id = 0x10 + c ∨ id = 0x20 + c) :
    sensor s id = some (if (chipOf s c).active then (some 0, true) else (none, false)) := by
  rcases hid with rfl | rfl
  · exact (if_pos (by omega)).trans (by rw [Nat.add_sub_cancel_left])
  · exact (if_neg (by omega)).trans ((if_pos (by omega)).trans (by rw [Nat.add_sub_cancel_left]))

theorem sensor_absent (s : State) {id : Nat} (h : id = 0 ∨ 0x33 ≤ id) : sensor s id = none := by
  unfold sensor
  rw [if_neg (by omega), if_neg (by omega)]
  split
  case h_11 => rfl
  all_goals omega

/-- No package draws more than 30 W (R33). -/
theorem openReading_power_le (s : State) {c : Nat} (hc : c < 8) : openReading s (0x20 + c) ≤ 30 := by
  unfold openReading
  rw [if_pos (by omega)]
  omega

theorem thresholdByte_power (v : Nat) {c : Nat} (hc : c < 8) : thresholdByte (0x20 + c) v = [] := if_neg (by omega)

theorem thresholdByte_temperature {id : Nat} (v : Nat) (h : 0x10 ≤ id ∧ id ≤ 0x18) :
    thresholdByte id v = leBytes 1 (thresholdOf id v) := if_pos (by omega)

/-! ## Redfish resources and subscriptions (R7, R484) -/

theorem doRedfishGet_down {s : State} (h : redfishUp s = false) (path : Nat) : doRedfishGet s path = s :=
  if_pos (by rw [h]; rfl)

theorem doEventSubscription_down {s : State} (h : redfishUp s = false) (e : Nat) (create : Bool) :
    doEventSubscription s e create = s := if_pos (by rw [h]; rfl)

theorem resource_other (s : State) {path : Nat} (h : 9 ≤ path) : resource s path = none := by
  unfold resource
  split
  case h_10 => rfl
  all_goals omega

section
variable {s : State} (hup : redfishUp s = true)
include hup

theorem doRedfishGet_missing {path : Nat} (h : resource s path = none) : doRedfishGet s path = refuseHttp s 404 := by
  unfold doRedfishGet
  rw [if_neg (by rw [hup]; decide), h]

theorem doRedfishGet_recovery {path : Nat} {b : List Byte} (h : resource s path = some b) (hboot : s.boot = .recovery)
    (hpath : path ∉ [0, 1, 3, 6]) : doRedfishGet s path = answer s false [] := by
  unfold doRedfishGet
  rw [if_neg (by rw [hup]; decide), h]
  exact if_pos (by simpa [hboot] using hpath)

theorem doRedfishGet_served {path : Nat} {b : List Byte} (h : resource s path = some b)
    (hserved : s.boot ≠ .recovery ∨ path ∈ [0, 1, 3, 6]) :
    doRedfishGet s path = if path = 1 then nextFree (answer s true b) else answer s true b := by
  unfold doRedfishGet
  rw [if_neg (by rw [hup]; decide), h]
  refine if_neg fun hrefused => ?_
  obtain ⟨hboot, hpath⟩ := Bool.and_eq_true_iff.1 hrefused
  rcases hserved with hserved | hserved
  · exact hserved (of_decide_eq_true hboot)
  · rw [List.contains_iff_mem.2 hserved] at hpath
    cases hpath

variable (hboot : s.boot ≠ .recovery)
include hboot

theorem doEventSubscription_served (e : Nat) (create : Bool) :
    doEventSubscription s e create =
      if !create then answer { s with mgmt := { s.mgmt with subs := s.mgmt.subs.erase e } } true []
      else if s.mgmt.subs.contains e then answer s true []
      else if 4 ≤ s.mgmt.subs.length then answer s false []
      else answer { s with mgmt := { s.mgmt with subs := s.mgmt.subs ++ [e] } } true [] :=
  (if_neg (by rw [hup]; decide)).trans (if_neg hboot)

variable {e : Nat} (hnew : e ∉ s.mgmt.subs)
include hnew

theorem doEventSubscription_adds (hroom : s.mgmt.subs.length < 4) :
    doEventSubscription s e true = answer { s with mgmt := { s.mgmt with subs := s.mgmt.subs ++ [e] } } true [] :=
  (doEventSubscription_served hup hboot e true).trans
    ((if_neg (by decide)).trans ((if_neg (by simpa using hnew)).trans (if_neg (by omega))))

theorem doEventSubscription_full (hfull : 4 ≤ s.mgmt.subs.length) : doEventSubscription s e true = answer s false [] :=
  (doEventSubscription_served hup hboot e true).trans
    ((if_neg (by decide)).trans ((if_neg (by simpa using hnew)).trans (if_pos hfull)))

end

theorem flatMap_range_const (n : Nat) (x : List Byte) :
    ((List.range n).flatMap fun _ => x) = (List.replicate n x).flatten := by
  rw [List.flatMap_def, List.map_const', List.length_range]

/-! ## Accounts (R483) -/

theorem doAccountService_down {s : State} (h : ¬ (mgmtUp s = true ∧ bit (cfgField s 0x20 4) 0 = true)) (user act arg : Nat) :
    doAccountService s user act arg = s := if_pos (by simpa [Decidable.imp_iff_not_or] using h)

section
variable {s : State} (hup : mgmtUp s = true ∧ bit (cfgField s 0x20 4) 0 = true) {user : Nat}
include hup

theorem accounts_served : ¬ (!mgmtUp s || !bit (cfgField s 0x20 4) 0) = true := by
  obtain ⟨hserves, hport⟩ := hup
  rw [hserves, hport]
  decide

theorem doAccountService_unknown (h : roleOf s user = none) (act arg : Nat) :
    doAccountService s user act arg = answer s false [] := by
  unfold doAccountService
  rw [if_neg (accounts_served hup), h]

variable {r : Nat} (hrole : roleOf s user = some r) (arg : Nat)
include hrole

theorem doAccountService_login : doAccountService s user 0 arg =
    answer { s with mgmt := { s.mgmt with labelChanged := s.mgmt.labelChanged || user == 0 } } true [] := by
  unfold doAccountService
  rw [if_neg (accounts_served hup), hrole]
  exact if_pos rfl

theorem doAccountService_forbidden {act : Nat} (hact : act ≠ 0) (h : s.mgmt.labelChanged = false ∨ r ≠ 0) :
    doAccountService s user act arg = answer s false [] := by
  unfold doAccountService
  rw [if_neg (accounts_served hup), hrole]
  refine (if_neg hact).trans (if_pos ?_)
  rcases h with h | h <;> simp [h]

variable (hadmin : r = 0) (hlabel : s.mgmt.labelChanged = true) (hboot : s.boot ≠ .recovery)
include hadmin hlabel hboot

theorem doAccountService_create : doAccountService s user 1 arg =
    if 8 ≤ s.mgmt.accounts.length || 3 ≤ arg then answer s false []
    else answer { s with mgmt := { s.mgmt with accounts := s.mgmt.accounts ++ [(freeAccount s, arg)] } } true
      (leBytes 1 (freeAccount s)) := by
  unfold doAccountService
  rw [if_neg (accounts_served hup), hrole]
  exact (if_neg (by decide)).trans (if_neg (by simp [hadmin, hlabel, hboot]))

theorem doAccountService_remove : doAccountService s user 2 arg =
    answer { s with mgmt := { s.mgmt with accounts := s.mgmt.accounts.filter fun p => p.1 != arg } } true [] := by
  unfold doAccountService
  rw [if_neg (accounts_served hup), hrole]
  exact (if_neg (by decide)).trans (if_neg (by simp [hadmin, hlabel, hboot]))

end

/-- Settles O58: each request by the equation of its meaning for the case at hand; a new account has a free number (`free_unused`). -/
theorem managementAnswers : Obligations.ManagementAnswers := by
  unfold Obligations.ManagementAnswers
  intro s answers m
  have next {a b : State} (h : a = b) : (Host.Outcome.next a : Host.Outcome State Fault Refusal) = .next b := congrArg _ h
  refine ⟨fun msg => ⟨fun hdown => next (doMctpControl_down hdown msg), fun hup => ⟨fun h => next (doMctpControl_assign hup h),
      fun h => next (doMctpControl_get hup h), fun h1 h2 => ⟨_, _, next (doMctpControl_other hup h1 h2), rfl, rfl⟩⟩⟩,
    ⟨fun hdown id => next (onMgmt_down hdown _ _), fun hup => ?sensors⟩,
    fun hdown => ⟨fun p => next (doRedfishGet_down hdown p), fun e c => next (doEventSubscription_down hdown e c)⟩,
    fun hup => ?redfish, fun hdown u act arg => next (doAccountService_down hdown u act arg), fun hup u act arg => ?accounts⟩
  case sensors =>
    have known {id v : Nat} (h : sensor s id = some (some v, false)) := next (doGetSensorReading_known hup h)
    refine ⟨known rfl, known rfl, known rfl, known rfl, known rfl, known rfl, known rfl, fun c hc hlost id hid => ?lost,
      fun c hc hactive id hid => ?measured, fun id hid => next (doGetSensorReading_absent hup (sensor_absent s hid))⟩
    case lost =>
      have hsensor := sensor_chip s hc (id := id) (by simpa using hid)
      rw [hlost] at hsensor
      exact next (doGetSensorReading_unavailable hup hsensor)
    case measured =>
      have hsensor : sensor s id = some (some 0, true) := by
        rcases List.mem_cons.1 hid with rfl | hid
        · exact (sensor_chip s hc (.inl rfl)).trans (by rw [hactive]; rfl)
        rcases List.mem_cons.1 hid with rfl | hid
        · exact (sensor_chip s hc (.inr rfl)).trans (by rw [hactive]; rfl)
        rcases List.mem_singleton.1 hid with rfl
        rfl
      refine ⟨openReading s id, _, next (doGetSensorReading_measured hup hsensor), fun h => h ▸ openReading_power_le s hc, ?_, rfl⟩
      refine congrArg (fun b => 0#8 :: (leBytes 1 1 ++ leBytes 4 (openReading s id) ++ b)) ?_
      by_cases hpower : id = 0x20 + c
      · rw [if_pos hpower, hpower, thresholdByte_power _ hc]
      · rw [if_neg hpower]
        exact thresholdByte_temperature _ (by simp only [List.mem_cons, List.not_mem_nil, or_false] at hid; omega)
  case redfish =>
    refine ⟨fun p hp => next (doRedfishGet_missing hup (resource_other s hp)),
      ⟨sensorBytes s, _, next ((doRedfishGet_served hup rfl (.inr (by decide))).trans (if_pos rfl)), rfl, ?identity⟩,
      next (doRedfishGet_served hup rfl (.inr (by decide))),
      fun hboot => next (doRedfishGet_recovery hup rfl hboot (by decide)),
      fun hboot => ⟨next (doRedfishGet_served hup rfl (.inl hboot)), next (doRedfishGet_served hup rfl (.inl hboot)),
        fun e => ⟨next (doEventSubscription_served hup hboot e false), fun hnew hroom => next (doEventSubscription_adds hup hboot hnew hroom),
          fun hnew hfull => next (doEventSubscription_full hup hboot hnew hfull)⟩⟩⟩
    case identity =>
      rw [← flatMap_range_const]
      simp only [nextFree_regs, answer, identityBytes, List.append_assoc]
      rfl
  case accounts =>
    refine ⟨fun hnone => next (doAccountService_unknown hup hnone act arg), fun r hrole => ⟨fun hact => ?login,
      fun hact h => next (doAccountService_forbidden hup hrole arg hact h), fun hadmin hlabel hboot => ⟨fun hact hbad => ?refused,
        fun hact hroom harg => ?created, fun hact => ?removed⟩⟩⟩
    case login =>
      subst hact
      exact next (doAccountService_login hup hrole arg)
    case refused =>
      subst hact
      exact next ((doAccountService_create hup hrole arg hadmin hlabel hboot).trans (if_pos (by simpa using hbad)))
    case created =>
      subst hact
      have hfree : s.mgmt.accounts.length < 8 := hroom
      exact ⟨freeAccount s, free_unused s hroom, next ((doAccountService_create hup hrole arg hadmin hlabel hboot).trans
        (if_neg (by simp only [Bool.or_eq_true, decide_eq_true_eq]; omega)))⟩
    case removed =>
      subst hact
      exact next (doAccountService_remove hup hrole arg hadmin hlabel hboot)

end Sys2Proof.Laws
end

section
/-! SUPPORT. Firmware bundles transferred, verified and activated (R473 to R476, R485). -/

open Sys2Proof Sys2Proof.Machine

namespace Sys2Proof.Laws

/-! ## The signing key and the checks of a bundle (R473, R474) -/

/-- A bundle's key is fused in slot k, and the slot is not revoked. -/
def keyFits (m : Mgmt) (b : List Byte) (k : Nat) : Prop :=
  k ∉ m.revoked ∧ Config.sha384 (Config.bundlePart 1 b) = Config.fusedKeyHash k

/-- A bundle does not revoke slot k, and its signature verifies. -/
def signatureHolds (b : List Byte) (k : Nat) : Prop :=
  Config.bundleRevokes b ≠ some k ∧
    Config.ecdsaVerifies (Config.bundlePart 1 b) (Config.sha384 (Config.bundlePart 0 b)) (Config.bundlePart 2 b) = true

/-- What VERIFY_COMPLETE asks of a bundle: whole, of no lower SVN than the floor, and signed by the key of the first slot that has it. -/
def bundleAccepted (m : Mgmt) (b : List Byte) : Prop :=
  Config.bundleWhole b = true ∧ m.svnFloor ≤ (Config.bundleSvn b).toNat ∧
    ((keyFits m b 0 ∧ signatureHolds b 0) ∨ ¬ keyFits m b 0 ∧ keyFits m b 1 ∧ signatureHolds b 1)

theorem keyFits_iff (m : Mgmt) (b : List Byte) (k : Nat) : keyFits m b k ↔
    (!m.revoked.contains k && Config.sha384 (Config.bundlePart 1 b) == Config.fusedKeyHash k) = true := by
  simp [keyFits]

theorem not_keyFits_iff (m : Mgmt) (b : List Byte) (k : Nat) : ¬ keyFits m b k ↔
    (!m.revoked.contains k && Config.sha384 (Config.bundlePart 1 b) == Config.fusedKeyHash k) = false :=
  (not_congr (keyFits_iff m b k)).trans Bool.eq_false_iff.symm

theorem signingSlot_first {m : Mgmt} {b : List Byte} (h : keyFits m b 0) : signingSlot m b = some 0 := by
  simp only [signingSlot, List.find?_cons, (keyFits_iff m b 0).1 h]

theorem signingSlot_second {m : Mgmt} {b : List Byte} (h0 : ¬ keyFits m b 0) (h1 : keyFits m b 1) : signingSlot m b = some 1 := by
  simp only [signingSlot, List.find?_cons, (not_keyFits_iff m b 0).1 h0, (keyFits_iff m b 1).1 h1]

theorem signingSlot_none {m : Mgmt} {b : List Byte} (h0 : ¬ keyFits m b 0) (h1 : ¬ keyFits m b 1) : signingSlot m b = none := by
  simp only [signingSlot, List.find?_cons, (not_keyFits_iff m b 0).1 h0, (not_keyFits_iff m b 1).1 h1, List.find?_nil]

theorem bundleOk_iff (m : Mgmt) (b : List Byte) : bundleOk m b = true ↔ bundleAccepted m b := by
  unfold bundleOk bundleAccepted
  by_cases h0 : keyFits m b 0
  · rw [signingSlot_first h0]
    simp [h0, signatureHolds, and_assoc]
  · by_cases h1 : keyFits m b 1
    · rw [signingSlot_second h0 h1]
      simp [h0, h1, signatureHolds, and_assoc]
    · rw [signingSlot_none h0 h1]
      simp [h0, h1]

/-! ## The two banks -/

section
variable {m : Mgmt} (hactive : m.activeBank < 2) (hbanks : m.banks.length = 2) (x : Bank)
include hactive hbanks

theorem inactive_setBank : nth ⟨[], false⟩ (setBank m (1 - m.activeBank) x).banks (1 - m.activeBank) = x :=
  (setBank_get m.banks _ _ x (by omega)).trans (if_pos rfl)

theorem active_setBank :
    nth ⟨[], false⟩ (setBank m (1 - m.activeBank) x).banks m.activeBank = nth ⟨[], false⟩ m.banks m.activeBank :=
  (setBank_get m.banks _ _ x (by omega)).trans (if_neg (by omega))

end

/-! ## FIRMWARE_TRANSFER, VERIFY_COMPLETE, ACTIVATE_FIRMWARE (R475, R476, R485) -/

section
variable {s : State} {via : Bool} {bundle : List Byte} {whole : Bool}

theorem doFirmwareTransfer_down (h : (if via then redfishUp s else mctpUp s) = false) :
    doFirmwareTransfer s via bundle whole = s := if_pos (by rw [h]; rfl)

variable (hup : (if via then redfishUp s else mctpUp s) = true)
include hup

theorem doFirmwareTransfer_excluded (h : s.mgmt.update = some (!via)) :
    doFirmwareTransfer s via bundle whole = if via then refuseHttp s 409 else answer s false [] :=
  (if_neg (by rw [hup]; decide)).trans (if_pos (beq_iff_eq.2 h))

theorem doFirmwareTransfer_writes (h : s.mgmt.update ≠ some (!via)) :
    doFirmwareTransfer s via bundle whole = answer { s with mgmt := { setBank { s.mgmt with staged := false }
      (1 - s.mgmt.activeBank) ⟨if whole then bundle else [], false⟩ with update := if whole then some via else none } } whole [] :=
  (if_neg (by rw [hup]; decide)).trans (if_neg (mt beq_iff_eq.1 h))

end

section
variable {s : State}

/-- The bundle in the inactive bank. -/
def stagedBytes (s : State) : List Byte := (nth ⟨[], false⟩ s.mgmt.banks (1 - s.mgmt.activeBank)).bytes

theorem doVerifyComplete_down (h : mgmtUp s = false) : doVerifyComplete s = s := if_pos (by rw [h]; rfl)

theorem doActivateFirmware_down (h : mgmtUp s = false) : doActivateFirmware s = s := if_pos (by rw [h]; rfl)

variable (hup : mgmtUp s = true)
include hup

theorem doVerifyComplete_idle (h : s.mgmt.update = none) : doVerifyComplete s = answer s false [] :=
  (if_neg (by rw [hup]; decide)).trans (if_pos (by rw [h]; rfl))

theorem doVerifyComplete_accepts (h : s.mgmt.update ≠ none) (hok : bundleAccepted s.mgmt (stagedBytes s)) :
    doVerifyComplete s = answer (mgmtEvent { s with
      mgmt := setBank { s.mgmt with update := none, staged := true } (1 - s.mgmt.activeBank) ⟨stagedBytes s, true⟩ } 0x08 0 0)
        true [] :=
  (if_neg (by rw [hup]; decide)).trans ((if_neg (by simpa using h)).trans (if_pos ((bundleOk_iff _ _).2 hok)))

theorem doVerifyComplete_rejects (h : s.mgmt.update ≠ none) (hbad : ¬ bundleAccepted s.mgmt (stagedBytes s)) :
    doVerifyComplete s =
      answer { s with mgmt := setBank { s.mgmt with update := none } (1 - s.mgmt.activeBank) ⟨[], false⟩ } false [] :=
  (if_neg (by rw [hup]; decide)).trans ((if_neg (by simpa using h)).trans (if_neg (mt (bundleOk_iff _ _).1 hbad)))

theorem doActivateFirmware_unstaged (h : s.mgmt.staged = false) : doActivateFirmware s = answer s false [] :=
  (if_neg (by rw [hup]; decide)).trans (if_neg (by rw [h]; decide))

theorem doActivateFirmware_staged (h : s.mgmt.staged = true) : doActivateFirmware s = answer { s with
    mgmt := { s.mgmt with activeBank := 1 - s.mgmt.activeBank, staged := false, activated := true, tries := 0 } } true [] :=
  (if_neg (by rw [hup]; decide)).trans (if_pos h)

end

/-- Settles O56: a transfer, a verification and an activation by the branch that runs; `bundleOk_iff` says what is accepted, and
`inactive_setBank` and `active_setBank` what the banks then hold. -/
theorem firmwareUpdates : Obligations.FirmwareUpdates := by
  unfold Obligations.FirmwareUpdates
  intro s m other held bank b key signed good
  have next {a b : State} (h : a = b) : (Host.Outcome.next a : Host.Outcome State Fault Refusal) = .next b := congrArg _ h
  refine ⟨fun via bundle whole => ⟨fun hdown => next (doFirmwareTransfer_down hdown), fun hup => ⟨fun hother => ?excluded,
      fun hfree hactive hbanks => ?transferred⟩⟩,
    fun hdown => ⟨next (doVerifyComplete_down hdown), next (doActivateFirmware_down hdown)⟩,
    fun hup => ⟨fun hidle => next (doVerifyComplete_idle hup hidle), fun hbusy hactive hbanks => ?verified,
      fun hstaged => next (doActivateFirmware_unstaged hup hstaged), fun hstaged => next (doActivateFirmware_staged hup hstaged)⟩⟩
  case excluded =>
    refine (next (doFirmwareTransfer_excluded hup hother)).trans ?_
    cases via <;> rfl
  case transferred =>
    refine ⟨_, next (doFirmwareTransfer_writes hup hfree), rfl,
      inactive_setBank (m := { m with staged := false }) hactive hbanks _,
      active_setBank (m := { m with staged := false }) hactive hbanks _, rfl, rfl, ?_, rfl⟩
    cases whole <;> rfl
  case verified =>
    have hgood : good ↔ bundleAccepted s.mgmt (stagedBytes s) := by
      simp only [good, signed, key, bundleAccepted, keyFits, signatureHolds]
      rfl
    by_cases hok : bundleAccepted s.mgmt (stagedBytes s)
    · exact ⟨_, next (doVerifyComplete_accepts hup hbusy hok), rfl, rfl,
        active_setBank (m := { m with update := none, staged := true }) hactive hbanks _,
        fun _ => ⟨inactive_setBank (m := { m with update := none, staged := true }) hactive hbanks _, rfl, rfl, rfl⟩,
        fun hbad => absurd (hgood.2 hok) hbad⟩
    · exact ⟨_, next (doVerifyComplete_rejects hup hbusy hok), rfl, rfl,
        active_setBank (m := { m with update := none }) hactive hbanks _, fun hgood' => absurd (hgood.1 hgood') hok,
        fun _ => ⟨inactive_setBank (m := { m with update := none }) hactive hbanks _, rfl, rfl, rfl⟩⟩

end Sys2Proof.Laws
end

section
/-! SUPPORT. The SPDM responder: who is served, the negotiation's order, the measurement blocks asked for (R480 to R482). -/

open Sys2Proof Sys2Proof.Machine

namespace Sys2Proof.Laws

/-! ## The order of requests -/

theorem spdmUp_iff (s : State) : spdmUp s = true ↔
    mctpUp s = true ∧ s.boot ≠ .inputCheck ∧ s.boot ≠ .preCharge ∧ s.boot ≠ .tmcBoot := by
  simp [spdmUp]

section
variable {s : State} {n : Nat}

theorem onSpdm_down (h : ¬ spdmUp s = true) (k : State → State) : onSpdm s n k = s := if_pos (by simpa using h)

variable (hup : spdmUp s = true)
include hup

theorem onSpdm_early (h : s.mgmt.spdm < n) (k : State → State) : onSpdm s n k = spdmError s :=
  (if_neg (by rw [hup]; decide)).trans (if_pos h)

theorem onSpdm_ready (h : n ≤ s.mgmt.spdm) (k : State → State) : onSpdm s n k = k s :=
  (if_neg (by rw [hup]; decide)).trans (if_neg (Nat.not_lt.2 h))

/-! ## Requests that are served, by the branch of their meaning (R480, R481) -/

theorem doNegotiateAlgorithms_refused {req : List Byte} (h : 2 ≤ s.mgmt.spdm) (hoffer : ¬ offerOk req = true) :
    doNegotiateAlgorithms s req = spdmError s :=
  (onSpdm_ready hup h _).trans (if_pos (by simpa using hoffer))

theorem doNegotiateAlgorithms_agreed {req : List Byte} (h : 2 ≤ s.mgmt.spdm) (hoffer : offerOk req = true) :
    doNegotiateAlgorithms s req = spdmAnswer { s with mgmt := { s.mgmt with spdm := 3 } } req
      ([0x12#8, 0x63#8, 0#8, 0#8] ++ leBytes 2 36 ++ leBytes 1 1 ++ leBytes 1 0 ++ leBytes 4 4 ++ leBytes 4 0x80 ++
        leBytes 4 2 ++ leBytes 16 0) :=
  (onSpdm_ready hup h _).trans (if_neg (by rw [hoffer]; decide))

variable {req : List Byte} (hagreed : 3 ≤ s.mgmt.spdm)
include hagreed

theorem doGetCertificate_refused (h : fieldAt req 2 1 ≠ 0 ∨ Config.certChain.length ≤ fieldAt req 4 2) :
    doGetCertificate s req = spdmError s :=
  (onSpdm_ready hup hagreed _).trans (if_pos (by simpa using h))

theorem doGetCertificate_part (hslot : fieldAt req 2 1 = 0) (hoff : fieldAt req 4 2 < Config.certChain.length) :
    doGetCertificate s req =
      let off := fieldAt req 4 2
      let n := min (fieldAt req 6 2) (Config.certChain.length - off)
      spdmAnswer s req ([0x12#8, 0x02#8, 0#8, 0#8] ++ leBytes 2 n ++ leBytes 2 (Config.certChain.length - off - n) ++
        slice Config.certChain off n) :=
  (onSpdm_ready hup hagreed _).trans (if_neg (by simp [hslot, Nat.not_le.2 hoff]))

theorem doChallenge_refused (h : fieldAt req 2 1 ≠ 0) : doChallenge s req = spdmError s :=
  (onSpdm_ready hup hagreed _).trans (if_pos (bne_iff_ne.2 h))

theorem doChallenge_answered (h : fieldAt req 2 1 = 0) :
    doChallenge s req =
      let sum := if fieldAt req 3 1 = 0 then [] else digestBytes ((measurements s).flatMap fun p => p.2)
      let resp := [0x12#8, 0x03#8, 0#8, 1#8] ++ digestBytes Config.certChain ++ standardBytes s 32 ++ sum ++ leBytes 2 0
      nextFree (spdmAnswer s req (resp ++ transcriptSig s req resp)) :=
  (onSpdm_ready hup hagreed _).trans (if_neg (by rw [h]; decide))

theorem doGetMeasurements_refused (h : askedBlocks s (fieldAt req 3 1) = none) : doGetMeasurements s req = spdmError s := by
  refine (onSpdm_ready hup hagreed _).trans ?_
  dsimp only
  rw [h]

theorem doGetMeasurements_answered {l : List (Nat × List Byte)} (h : askedBlocks s (fieldAt req 3 1) = some l) :
    doGetMeasurements s req =
      let body := l.flatMap fun p => p.2
      let resp := [0x12#8, 0x60#8] ++ leBytes 1 (if fieldAt req 3 1 = 0 then (measurements s).length else 0) ++ leBytes 1 0 ++
        leBytes 1 l.length ++ leBytes 3 body.length ++ body ++ standardBytes s 32 ++ leBytes 2 0
      nextFree (spdmAnswer s req (if bit (fieldAt req 2 1) 0 then resp ++ transcriptSig s req resp else resp)) := by
  refine (onSpdm_ready hup hagreed _).trans ?_
  dsimp only
  rw [h]

end

/-! ## Measurement blocks (R481, R482) -/

/-- The blocks of a GET_MEASUREMENTS operation: none for 0, all for 255, else those of its index. -/
def blocksOf (s : State) (op : Nat) : List (Nat × List Byte) :=
  if op = 0 then [] else if op = 0xFF then measurements s else (measurements s).filter fun p => p.1 == op

theorem askedBlocks_none {s : State} {op : Nat} (h0 : op ≠ 0) (hall : op ≠ 0xFF) (h : blocksOf s op = []) :
    askedBlocks s op = none := by
  rw [blocksOf, if_neg h0, if_neg hall] at h
  unfold askedBlocks
  rw [if_neg h0, if_neg hall, h]

theorem askedBlocks_some {s : State} {op : Nat} (h : op = 0 ∨ op = 0xFF ∨ blocksOf s op ≠ []) :
    askedBlocks s op = some (blocksOf s op) := by
  unfold askedBlocks
  by_cases h0 : op = 0
  · rw [if_pos h0, blocksOf, if_pos h0]
  by_cases hall : op = 0xFF
  · rw [if_neg h0, if_pos hall, blocksOf, if_neg h0, if_pos hall]
  have hsome := (h.resolve_left h0).resolve_left hall
  rw [if_neg h0, if_neg hall]
  rw [blocksOf, if_neg h0, if_neg hall] at hsome ⊢
  split
  · next hnil => exact absurd hnil hsome
  · rfl

theorem standardBytes_length (s : State) (n : Nat) : (standardBytes s n).length = n := by
  rw [standardBytes, List.length_map, List.length_range]

theorem measurements_recovery {s : State} (h : s.boot = .recovery) : (measurements s).map (fun p => p.1) = [1] := by
  unfold measurements
  rw [if_pos h]
  rfl

theorem measurements_running {s : State} (h : s.boot ≠ .recovery) :
    (measurements s).map (fun p => p.1) = [1, 2, 3, 4, 5, 6, 7, 8] := by
  unfold measurements
  rw [if_neg h]
  rfl

/-- Settles O57: every request is an `onSpdm` of its step in the negotiation (`onSpdm_down`, `onSpdm_early`), and past that it is
answered by the branch that its operands choose. -/
theorem spdmResponds : Obligations.SpdmResponds := by
  unfold Obligations.SpdmResponds
  intro s req up n chain dig requests error reply old sign op blocks body
  have next {a b : State} (h : a = b) : (Host.Outcome.next a : Host.Outcome State Fault Refusal) = .next b := congrArg _ h
  have hordered : ∀ r ∈ requests, ∃ k, exec r.1 s = .next (onSpdm s r.2 k) := by
    simp only [requests, List.forall_mem_cons, List.not_mem_nil, false_implies, implies_true, and_true]
    exact ⟨⟨_, rfl⟩, ⟨_, rfl⟩, ⟨_, rfl⟩, ⟨_, rfl⟩, ⟨_, rfl⟩, ⟨_, rfl⟩, ⟨_, rfl⟩⟩
  have herror {i : Instr} (h : exec i s = .next (spdmError s)) : error i := ⟨_, _, h, rfl, rfl⟩
  refine ⟨fun hdown r hr => ?down, fun hserves => ?up, measurements_recovery, measurements_running⟩
  case down =>
    obtain ⟨k, hk⟩ := hordered r hr
    exact hk.trans (next (onSpdm_down (mt (spdmUp_iff s).1 hdown) k))
  case up =>
    have hup : spdmUp s = true := (spdmUp_iff s).2 hserves
    refine ⟨fun r hr hearly => ?early, ⟨_, next (onSpdm_ready hup (Nat.zero_le _) _), rfl, rfl, rfl⟩,
      fun h1 => ⟨standardBytes s 4, standardBytes_length s 4, _, next (onSpdm_ready hup h1 _), rfl, rfl, rfl⟩,
      fun h2 => ⟨fun hbad => herror (next (doNegotiateAlgorithms_refused hup h2 ?refused)),
        fun hoffer => ⟨_, next (doNegotiateAlgorithms_agreed hup h2 ?agreed), rfl, rfl, rfl⟩⟩,
      fun h3 => ⟨⟨_, next (onSpdm_ready hup h3 _), rfl, rfl, rfl⟩,
        ⟨fun hbad => herror (next (doGetCertificate_refused hup h3 hbad)),
          fun hslot hoff => ⟨_, next (doGetCertificate_part hup h3 hslot hoff), rfl, rfl, rfl⟩⟩,
        fun hslot => herror (next (doChallenge_refused hup h3 hslot)),
        fun hslot => ⟨standardBytes s 32, standardBytes_length s 32, _, next (doChallenge_answered hup h3 hslot), rfl, rfl, rfl⟩,
        fun h0 hall hnil => herror (next (doGetMeasurements_refused hup h3 (askedBlocks_none h0 hall hnil))),
        fun hasked => ⟨standardBytes s 32, standardBytes_length s 32, _,
          next (doGetMeasurements_answered hup h3 (askedBlocks_some hasked)), rfl, rfl, rfl⟩⟩⟩
    case early =>
      obtain ⟨k, hk⟩ := hordered r hr
      exact herror (hk.trans (next (onSpdm_early hup hearly k)))
    case refused => simpa [offerOk, and_assoc] using hbad
    case agreed => simpa [offerOk, and_assoc] using hoffer

end Sys2Proof.Laws
end

section
/-! SUPPORT. Events and fault-log entries as one record each: which fields of the state they may write. -/

open Sys2Proof Sys2Proof.Machine

namespace Sys2Proof.Laws

/-- An event raised: its bit of EVENT_CAUSE is set, and the fields named are all that it writes. -/
theorem raiseEvent_eq (s : State) {b : Nat} (hb : b < 32) : ∃ cause pend msi ev alert,
    raiseEvent s b = { s with
      regs := { s.regs with eventCause := cause, msixPending := pend, msi := msi, events := ev }
      mgmt := { s.mgmt with smbAlert := alert } } ∧ cause.getLsbD b = true := by
  let r := (raiseEvent s b).regs
  have h := congrArg (fun x : State => { x with
    regs := { x.regs with eventCause := r.eventCause, msixPending := r.msixPending, msi := r.msi, events := r.events }
    mgmt := { x.mgmt with smbAlert := (raiseEvent s b).mgmt.smbAlert } }) (raiseEvent_frame s b)
  exact ⟨r.eventCause, r.msixPending, r.msi, r.events, (raiseEvent s b).mgmt.smbAlert, h, raiseEvent_sets s hb⟩

/-- A fault-log entry is kept in the log, or deferred. -/
theorem logFault_eq (s : State) (event chip unit detail : Nat) : ∃ log deferred,
    logFault s event chip unit detail =
      { s with vault := { s.vault with faultLog := log }, deferredLog := deferred } := by
  unfold logFault
  dsimp only
  split
  · exact ⟨_, _, rfl⟩
  · exact ⟨_, _, rfl⟩

end Sys2Proof.Laws
end

section
/-! SUPPORT. The limiter, heat and the Puffball (R435 to R445, R488, R490). -/

open Sys2Proof Sys2Proof.Machine

namespace Sys2Proof.Laws

/-! ## Pressure (R437, R439) -/

/-- The thresholds of Table PWR-1 by level, level 0 having none. -/
def levelThreshold (r : Nat) : Nat := nth 0 (0 :: pressureThresholds) r

theorem le_levelThreshold : ∀ r ≤ 7, ∀ t ∈ pressureThresholds.take r, t ≤ levelThreshold r := by decide

theorem levelThreshold_le : ∀ r < 7, ∀ t ∈ pressureThresholds.drop r, levelThreshold (r + 1) ≤ t := by decide

/-- The level reached is the one whose threshold the power has reached, and the next one's not. -/
theorem reachedLevel_of_bounds {mw cap r : Nat} (hr : r ≤ 7) (hlow : r = 0 ∨ levelThreshold r * cap ≤ 100 * mw)
    (hhigh : r = 7 ∨ 100 * mw < levelThreshold (r + 1) * cap) : reachedLevel mw cap = r := by
  have hreached : ∀ t ∈ pressureThresholds.take r, decide (t * cap ≤ 100 * mw) = true := by
    intro t ht
    rcases hlow with rfl | hlow
    · cases ht
    · exact decide_eq_true ((Nat.mul_le_mul_right cap (le_levelThreshold r hr t ht)).trans hlow)
  have hbeyond : ∀ t ∈ pressureThresholds.drop r, ¬ decide (t * cap ≤ 100 * mw) = true := by
    intro t ht
    rcases hhigh with rfl | hhigh
    · cases ht
    · have hlt : r < 7 := by
        by_contra hge
        rw [show r = 7 by omega] at ht
        cases ht
      have hle := Nat.mul_le_mul_right cap (levelThreshold_le r hlt t ht)
      exact fun h => absurd (of_decide_eq_true h) (Nat.not_le.2 (hhigh.trans_le hle))
  unfold reachedLevel
  rw [← List.take_append_drop r pressureThresholds, List.filter_append, List.filter_eq_self.2 hreached,
    List.filter_eq_nil_iff.2 hbeyond, List.append_nil, List.length_take]
  exact Nat.min_eq_left hr

/-- The power state with a measurement entered, its level still to be judged. -/
def measuredState (s : State) (load charge : Nat) : Power :=
  { s.power with
    milliwatts := measuredPower s load charge, charging := min charge (chargeLimit s.power.energy s.power.pressure) }

section
variable {s : State} {load charge r : Nat} (hlevel : reachedLevel (measuredPower s load charge) (effectiveCap s) = r)
include hlevel

theorem doPressureMeasurement_rises (h : s.power.pressure < r) : doPressureMeasurement s load charge =
    { s with power := { measuredState s load charge with pressure := r, below := 0 } } := by
  subst hlevel
  exact congrArg (fun p => { s with power := p }) (if_pos h)

theorem doPressureMeasurement_stays (h : s.power.pressure = r) : doPressureMeasurement s load charge =
    { s with power := { measuredState s load charge with below := 0 } } := by
  subst hlevel
  exact congrArg (fun p => { s with power := p }) ((if_neg h.not_lt).trans (if_neg h.not_gt))

theorem doPressureMeasurement_waits (h : r < s.power.pressure) (hbelow : s.power.below < 15) :
    doPressureMeasurement s load charge =
      { s with power := { measuredState s load charge with below := s.power.below + 1 } } := by
  subst hlevel
  exact congrArg (fun p => { s with power := p }) ((if_neg h.not_gt).trans ((if_pos h).trans
    (if_neg (Nat.not_le.2 (Nat.succ_lt_succ hbelow)))))

theorem doPressureMeasurement_falls (h : r < s.power.pressure) (hbelow : 15 ≤ s.power.below) :
    doPressureMeasurement s load charge =
      { s with power := { measuredState s load charge with pressure := s.power.pressure - 1, below := 0 } } := by
  subst hlevel
  exact congrArg (fun p => { s with power := p }) ((if_neg h.not_gt).trans ((if_pos h).trans
    (if_pos (Nat.succ_le_succ hbelow))))

end

/-! ## Heat (R440, R488) -/

theorem chipPressure_hot {s : State} {c : Nat} (h : (chipOf s c).throttled = true ∨ s.power.coldPlate = true) :
    chipPressure s c = max 5 s.power.pressure := if_pos (by simpa using h)

theorem chipPressure_cool {s : State} {c : Nat} (hchip : (chipOf s c).throttled = false) (hplate : s.power.coldPlate = false) :
    chipPressure s c = s.power.pressure := if_neg (by simp [hchip, hplate])

theorem doThermalThrottle_passes {s : State} {c temp : Nat} (h : temp < 95 ∨ (chipOf s c).active = false) (t : Tick) :
    doThermalThrottle s c temp t = stamp s t := by
  refine if_pos ?_
  rw [show chipOf (stamp s t) c = chipOf s c from rfl]
  simpa using h

/-- A chip at its throttle point, with the first rise of THERMAL in the fault log (log entry 69). -/
def chipThrottled (s : State) (c : Nat) : State :=
  raiseEvent (setChip (if s.regs.eventCause.getLsbD evTHERMAL then s else logFault s evTHERMAL c 0 0) c
    fun x => { x with throttled := true }) evTHERMAL

theorem chipThrottled_eq (s : State) (c : Nat) : ∃ regs alert vault deferred,
    chipThrottled s c = { setChip s c fun x => { x with throttled := true } with
      regs := regs, mgmt := { s.mgmt with smbAlert := alert }, vault := vault, deferredLog := deferred } ∧
    regs.eventCause.getLsbD 11 = true := by
  obtain ⟨vault, deferred, hlog⟩ : ∃ vault deferred, (if s.regs.eventCause.getLsbD evTHERMAL then s
      else logFault s evTHERMAL c 0 0) = { s with vault := vault, deferredLog := deferred } := by
    split
    · exact ⟨s.vault, s.deferredLog, rfl⟩
    · obtain ⟨log, deferred, h⟩ := logFault_eq s evTHERMAL c 0 0
      exact ⟨_, _, h⟩
  unfold chipThrottled
  rw [hlog]
  obtain ⟨cause, pend, msi, ev, alert, hraise, hset⟩ := raiseEvent_eq
    (setChip { s with vault := vault, deferredLog := deferred } c fun x => { x with throttled := true }) (b := evTHERMAL) (by decide)
  exact ⟨_, alert, vault, deferred, hraise, hset⟩

theorem doThermalThrottle_hot {s : State} {c temp : Nat} (htemp : 95 ≤ temp) (hactive : (chipOf s c).active = true) (t : Tick) :
    doThermalThrottle s c temp t =
      if 110 ≤ temp then doRegulatorFault (chipThrottled (stamp s t) c) c t else chipThrottled (stamp s t) c :=
  if_neg (by simp [show (chipOf (stamp s t) c).active = true from hactive, htemp])

/-- A regulator's fault on the present tick writes the loss alone (R403). -/
theorem doRegulatorFault_eq (s : State) (c : Nat) {t : Tick} (ht : t ≤ s.now) : ∃ loss,
    doRegulatorFault s c t = { s with loss := loss } ∧ ((chipOf s c).active = true → s.deputy = none → s.loss = .none →
      loss = .declared [c] (s.now + ticksA s 1600) []) := by
  have hstamp : stamp s t = s := congrArg (fun n => { s with now := n }) (Nat.max_eq_left ht)
  rcases Option.eq_none_or_eq_some s.deputy with hdeputy | ⟨d, hdeputy⟩
  · refine ⟨(declareLoss s c).loss, ?_, fun hactive _ hloss => ?_⟩
    · rw [doRegulatorFault_running hdeputy, hstamp]
      have h := congrArg (fun x : State => { x with loss := (declareLoss s c).loss }) (declareLoss_frame s c)
      exact h
    · obtain ⟨-, -, hfirst, -⟩ := declareLoss_declares hactive
      exact hfirst hloss
  · exact ⟨s.loss, (doRegulatorFault_restarting (by rw [hdeputy]; rfl) c t).trans hstamp,
      fun _ hnone => by rw [hdeputy] at hnone; cases hnone⟩

/-- A chip from 95 °C: throttled, THERMAL raised, and from 110 °C its loss declared (R440, R488). -/
theorem doThermalThrottle_eq {s : State} {c temp : Nat} (hc : c < s.chips.length) (htemp : 95 ≤ temp)
    (hactive : (chipOf s c).active = true) (t : Tick) : ∃ regs alert vault deferred loss,
    doThermalThrottle s c temp t = { setChip (stamp s t) c fun x => { x with throttled := true } with
      regs := regs, mgmt := { s.mgmt with smbAlert := alert }, vault := vault, deferredLog := deferred, loss := loss } ∧
    regs.eventCause.getLsbD 11 = true ∧ (temp < 110 → loss = s.loss) ∧
    (110 ≤ temp → s.deputy = none → s.loss = .none → loss = .declared [c] (max s.now t + ticksA s 1600) []) := by
  rw [doThermalThrottle_hot htemp hactive]
  obtain ⟨regs, alert, vault, deferred, hthrottled, hset⟩ := chipThrottled_eq (stamp s t) c
  by_cases hfatal : 110 ≤ temp
  · have hlater : t ≤ (chipThrottled (stamp s t) c).now := by
      rw [hthrottled]
      exact Nat.le_max_right _ _
    obtain ⟨loss, hfault, hdeclared⟩ := doRegulatorFault_eq (chipThrottled (stamp s t) c) c hlater
    have hstill : (chipOf (chipThrottled (stamp s t) c) c).active = true := by
      rw [hthrottled]
      exact (congrArg Chip.active (chipOf_setChip (stamp s t) c (fun x => { x with throttled := true }) hc)).trans hactive
    rw [if_pos hfatal, hfault]
    rw [hthrottled] at hdeclared hstill ⊢
    exact ⟨regs, alert, vault, deferred, loss, rfl, hset, fun h => absurd hfatal (Nat.not_le.2 h), fun _ => hdeclared hstill⟩
  · rw [if_neg hfatal]
    exact ⟨regs, alert, vault, deferred, s.loss, hthrottled, hset, fun _ => rfl, fun h => absurd h hfatal⟩

/-! ## The Puffball (R442 to R445, R450, R490) -/

theorem powerReadyAfter_eq (p : Power) (mj : Nat) : powerReadyAfter p mj =
    if p.capacity < 12000 ∨ mj < 10000 then false else if 12000 ≤ mj then true else p.powerReady := by
  simp [powerReadyAfter]

/-- A measurement of the Puffball entered on its tick. -/
def puffballRead (s : State) (mj : Nat) (t : Tick) : State :=
  { stamp s t with power := { s.power with energy := mj, powerReady := powerReadyAfter s.power mj } }

/-- What a measurement decides: below E_COMMIT inside a window the loss of input (R445). -/
def puffballJudged (s : State) (mj : Nat) (t : Tick) : State :=
  if s.power.window.isSome && decide (mj < 8000) then decideLoss (puffballRead s mj t) else puffballRead s mj t

theorem doPuffballMeasure_eq {s : State} {t : Tick} (h : ∀ d, s.power.window = some d → t < d) (mj : Nat) :
    doPuffballMeasure s mj t =
      if mj = 0 && !inputPresent (puffballJudged s mj t) && railsUp (puffballJudged s mj t) then
        dropRails (cutWrite (puffballJudged s mj t)) .railsDown
      else puffballJudged s mj t := by
  unfold doPuffballMeasure
  rcases Option.eq_none_or_eq_some s.power.window with hwindow | ⟨d, hwindow⟩
  · rw [hwindow]
    rfl
  · rw [hwindow]
    dsimp only
    rw [if_neg (Nat.not_le.2 (h d hwindow))]
    rfl

section
variable {s : State} {mj : Nat}

theorem puffballJudged_stands (t : Tick) (h : s.power.window = none ∨ 8000 ≤ mj) : puffballJudged s mj t = puffballRead s mj t :=
  if_neg (by rcases h with h | h <;> simp [h])

/-- Below E_COMMIT inside a window the tray in service commits on that tick (R445). -/
theorem puffballJudged_commits (t : Tick) (hwindow : s.power.window.isSome = true) (hlow : mj < 8000) (hboot : s.boot = .serving)
    (hidle : s.power.idle ≠ 4) (hshutdown : s.shutdown = .none) : puffballJudged s mj t =
      commitShutdown { puffballRead s mj t with power := { (puffballRead s mj t).power with window := none } }
        (max s.now t) 0 false false :=
  (if_pos (by simp [hwindow, hlow])).trans (decideLoss_serving (puffballRead s mj t) hboot hidle hshutdown)

theorem inputPresent_congr {u : State} (hmated : u.power.mated = s.power.mated)
    (hdisconnected : u.power.disconnected = s.power.disconnected) (hmillivolts : u.power.millivolts = s.power.millivolts) :
    inputPresent u = inputPresent s := by
  unfold inputPresent
  rw [hmated, hdisconnected, hmillivolts]

end

/-- A ledger write torn: its entries wait, and the copy that it was written into no longer checks (R407). -/
def tornVault (v : Vault) (es : List LedgerEntry) : Vault :=
  { v with
    torn := v.torn ++ es
    ledgerA := if v.ledgerA.seq < v.ledgerB.seq then v.ledgerA else { v.ledgerA with checkOk := false }
    ledgerB := if v.ledgerB.seq < v.ledgerA.seq then v.ledgerB else { v.ledgerB with checkOk := false } }

/-- The TMC's power lost: no ledger write is under way any more, and one that was not yet done may be torn (R407, log entry 93). -/
theorem cutWrite_eq (s : State) : ∃ vault free,
    cutWrite s = { s with ledgerWrite := none, vault := vault, freeCtr := free } ∧
    ((∀ d es, s.ledgerWrite = some (d, es) → d ≤ s.now) → vault = s.vault) ∧
    (∀ d es, s.ledgerWrite = some (d, es) → s.now < d → vault = s.vault ∨ vault = tornVault s.vault es) := by
  rcases Option.eq_none_or_eq_some s.ledgerWrite with hnone | ⟨⟨d, es⟩, hwrite⟩
  · refine ⟨s.vault, s.freeCtr, ?_, fun _ => rfl, fun _ _ _ _ => .inl rfl⟩
    unfold cutWrite
    rw [hnone]
    exact congrArg (fun w => { s with ledgerWrite := w }) hnone
  · have hcut : cutWrite s = { s with ledgerWrite := none, freeCtr := s.freeCtr + 1, vault :=
        if s.now < d && Config.writeCut s.freeCtr then tornVault s.vault es else s.vault } := by
      unfold cutWrite
      rw [hwrite]
      dsimp only
      split <;> rfl
    refine ⟨_, _, hcut, fun hdone => if_neg ?_, fun d' es' h _ => ?_⟩
    · simp [Nat.not_lt.2 (hdone d es hwrite)]
    · rw [hwrite] at h
      cases h
      split
      · exact .inr rfl
      · exact .inl rfl

/-! ## The Puffball's capacity and its bleed (R444, R490) -/

section
variable {s : State} {mj : Nat}

theorem doPuffballCapacityMeasure_passes (h : s.power.powerReady = false ∨ s.power.window.isSome = true) :
    doPuffballCapacityMeasure s mj = s := if_pos (by simpa using h)

theorem doPuffballCapacityMeasure_taken (hready : s.power.powerReady = true) (hwindow : s.power.window = none) :
    doPuffballCapacityMeasure s mj =
      let v := { s with power := { s.power with capacity := mj, powerReady := decide (12000 ≤ mj) } }
      if mj < 14000 then mgmtEvent v 0x06 0 0 else v := by
  unfold doPuffballCapacityMeasure
  rw [if_neg (by simp [hready, hwindow]), hready]
  rfl

theorem doPuffballBleed_passes (h : s.boot ≠ .railsDown ∨ inputPresent s = true) : doPuffballBleed s = s :=
  if_neg (by rcases h with h | h <;> simp [h])

theorem doPuffballBleed_bleeds (hboot : s.boot = .railsDown) (hinput : inputPresent s = false) :
    doPuffballBleed s = nextFree { s with boot := .off, power := { s.power with
      energy := min s.power.energy (Config.bleedRemainder s.freeCtr % 1000), powerReady := false } } :=
  if_pos (by simp [hboot, hinput])

end

/-- Settles O47: the level by `reachedLevel_of_bounds`; heat by `doThermalThrottle_eq`; a measurement of the Puffball by what it decides
(`puffballJudged_stands`, `puffballJudged_commits`) and, where the rails drop, by what becomes of the ledger write (`cutWrite_eq`). -/
theorem powerHeatAndPuffball : Obligations.PowerHeatAndPuffball := by
  unfold Obligations.PowerHeatAndPuffball
  have next {a b : State} (h : a = b) : (Host.Outcome.next a : Host.Outcome State Fault Refusal) = .next b := congrArg _ h
  refine ⟨fun s => ?limiter, fun s mj => ?puffball⟩
  case limiter =>
    intro p cap th
    refine ⟨fun load charge r => ?pressure, fun c temp t hc => ?throttle, fun c temp hc => ?release, fun temp => ?plate⟩
    case pressure =>
      intro limit mw q hr hlow hhigh
      have hlimit : chargeLimit p.energy p.pressure = limit := by simp [chargeLimit, limit]
      have hmw : measuredPower s load charge = mw := congrArg (fun l => load + min charge l) hlimit
      have hq : measuredState s load charge = q := by
        unfold measuredState
        rw [hmw, hlimit]
      have hlevel : reachedLevel (measuredPower s load charge) (effectiveCap s) = r :=
        reachedLevel_of_bounds hr (hmw ▸ hlow) (hmw ▸ hhigh)
      rw [← hq]
      exact ⟨fun h => next (doPressureMeasurement_rises hlevel h), fun h => next (doPressureMeasurement_stays hlevel h),
        fun h hbelow => next (doPressureMeasurement_waits hlevel h hbelow),
        fun h hbelow => next (doPressureMeasurement_falls hlevel h hbelow)⟩
    case throttle =>
      refine ⟨fun h => next (doThermalThrottle_passes h t), fun htemp hactive => ?_⟩
      obtain ⟨regs, alert, vault, deferred, loss, heq, hcause, hloss, hdeclared⟩ := doThermalThrottle_eq hc htemp hactive t
      have hchip := chipOf_setChip (stamp s t) c (fun x => { x with throttled := true }) hc
      refine ⟨_, next heq, rfl, hchip, fun k hk => setChip_other (stamp s t) _ hk, hcause, rfl,
        chipPressure_hot (.inl (congrArg Chip.throttled hchip)), fun h => ?_, fun h hd hl => hdeclared h hd hl⟩
      rw [hloss h]
      rfl
    case release =>
      refine ⟨fun h => ?_, fun h => next (if_neg (Nat.not_le.2 h))⟩
      have hchip := chipOf_setChip s c (fun x => { x with throttled := false }) hc
      exact ⟨_, next (if_pos h), rfl, hchip, fun k hk => setChip_other s _ hk,
        fun hplate => chipPressure_cool (congrArg Chip.throttled hchip) hplate⟩
    case plate =>
      refine ⟨fun h => ?_, fun h => next (if_pos h), fun h => next (if_pos h), fun h => next (if_neg (Nat.not_lt.2 h))⟩
      obtain ⟨cause, pend, msi, ev, alert, heq, hcause⟩ := raiseEvent_eq
        { s with power := { s.power with coldPlate := true } } (b := evTHERMAL) (by decide)
      exact ⟨_, next ((if_neg (Nat.not_lt.2 h)).trans heq), rfl, rfl, hcause, fun c => chipPressure_hot (.inr rfl)⟩
  case puffball =>
    intro p ready
    have hready : powerReadyAfter p mj = ready := powerReadyAfter_eq p mj
    refine ⟨fun t hopen => ?measure, fun hset hwindow => ?capacity,
      fun h => next (doPuffballCapacityMeasure_passes h), fun hboot hinput => ?bleed, fun h => next (doPuffballBleed_passes h)⟩
    case measure =>
      intro T
      have heq := doPuffballMeasure_eq hopen mj
      refine ⟨fun hstands hpowered => ?stands, fun hwindow hlow hpowered hboot hidle hshutdown => ?commits,
        fun hempty hwindow hinput hrails => ?drops⟩
      case stands =>
        rw [puffballJudged_stands t hstands] at heq
        refine (next (heq.trans (if_neg ?_))).trans (by rw [← hready]; rfl)
        rw [show inputPresent (puffballRead s mj t) = inputPresent s from rfl, show railsUp (puffballRead s mj t) = railsUp s from rfl]
        rcases hpowered with h | h | h <;> simp [h]
      case commits =>
        rw [puffballJudged_commits t hwindow hlow hboot hidle hshutdown] at heq
        obtain ⟨hnow, hdrain, hsaving, hcause, hpower, hframe⟩ := commit_spec
          { puffballRead s mj t with power := { (puffballRead s mj t).power with window := none } } T 0 false false hshutdown
        have hinput := inputPresent_congr (s := s) (congrArg Power.mated hpower :) (congrArg Power.disconnected hpower :)
          (congrArg Power.millivolts hpower :)
        refine ⟨_, next (heq.trans (if_neg ?_)), hnow, hdrain, hsaving, hcause, hpower.trans ?_, ?_⟩
        · rw [hinput]
          rcases hpowered with h | h <;> simp [h]
        · have hlost : powerReadyAfter p mj = false := (powerReadyAfter_eq p mj).trans (if_pos (.inr (by omega)))
          exact congrArg (fun b => { p with energy := mj, powerReady := b, window := none }) hlost
        · exact congrArg (fun x : State => { x with now := s.now, regs := s.regs, power := s.power, mgmt := s.mgmt, shutdown := s.shutdown })
            hframe
      case drops =>
        rw [puffballJudged_stands t (.inl hwindow)] at heq
        obtain ⟨vault, free, hcut, hdone, hunder⟩ := cutWrite_eq (puffballRead s mj t)
        rw [hcut] at heq
        refine ⟨_, next (heq.trans (if_pos ?_)), rfl, rfl, rfl, rfl, rfl, rfl, rfl, fun hd => ?_, fun d es hw hd => ?_⟩
        · rw [show inputPresent (puffballRead s mj t) = inputPresent s from rfl, show railsUp (puffballRead s mj t) = railsUp s from rfl]
          simp [hempty, hinput, hrails]
        · rw [hdone hd]
          rfl
        · rcases hunder d es hw hd with hvault | hvault
          · exact .inl (by rw [hvault]; rfl)
          · exact .inr (by rw [hvault]; rfl)
    case capacity =>
      refine ⟨_, next (doPuffballCapacityMeasure_taken hset hwindow), ?_⟩
      dsimp only
      split
      · exact ⟨rfl, rfl, rfl⟩
      · exact ⟨rfl, rfl, rfl⟩
    case bleed =>
      exact ⟨_, next (doPuffballBleed_bleeds hboot hinput), rfl, (Nat.min_le_right _ _).trans_lt (Nat.mod_lt _ (by decide)),
        Nat.min_le_left _ _, rfl, rfl⟩

end Sys2Proof.Laws
end

section
/-! SUPPORT. Saves, shutdown commits and wakes as one record each, the idle states and the reset actions (R447, R454, R455, R465). -/

open Sys2Proof Sys2Proof.Machine

namespace Sys2Proof.Laws

/-! ## A slot written (R448) -/

/-- What a save writes: its SAVE_SEQ is one above the other slot's. -/
def savedSlot (s : State) (t kind : Nat) : Slot :=
  slotContents s (if saveToA s then s.vault.slotB else s.vault.slotA) t kind

theorem savedSlot_seq (s : State) (t kind : Nat) :
    (savedSlot s t kind).seq = max s.vault.slotA.seq s.vault.slotB.seq + 1 := by
  unfold savedSlot saveToA
  by_cases h : s.vault.slotA.seq ≤ s.vault.slotB.seq
  · rw [if_pos (decide_eq_true h)]
    exact congrArg (· + 1) (Nat.max_eq_right h).symm
  · rw [if_neg (by simpa using h)]
    exact congrArg (· + 1) (Nat.max_eq_left (Nat.le_of_not_le h)).symm

theorem writeSlot_eq (s : State) (t kind : Nat) : writeSlot s t kind =
    { s with vault := if s.vault.slotA.seq ≤ s.vault.slotB.seq then { s.vault with slotA := savedSlot s t kind }
      else { s.vault with slotB := savedSlot s t kind } } := by
  unfold writeSlot setSlot savedSlot saveToA
  by_cases h : s.vault.slotA.seq ≤ s.vault.slotB.seq
  · rw [decide_eq_true h, if_pos h]
    rfl
  · rw [decide_eq_false h, if_neg h]
    rfl

/-! ## Commits and wakes (R447, R456) -/

/-- A shutdown committed where none is under way. -/
theorem commitShutdown_eq {s : State} (h : s.shutdown = .none) (d kind : Nat) (stay i5 : Bool) : ∃ cause pend msi ev banks alert,
    commitShutdown s d kind stay i5 = { s with
      regs := { s.regs with saving := true, eventCause := cause, msixPending := pend, msi := msi, events := ev }
      power := { s.power with window := none }
      mgmt := { s.mgmt with update := none, banks := banks, smbAlert := alert }
      shutdown := .drain d kind stay i5 } ∧ cause.getLsbD 4 = true := by
  unfold commitShutdown
  rw [h]
  dsimp only
  obtain ⟨cause, pend, msi, ev, alert, heq, hset⟩ := raiseEvent_eq { s with
    regs := { s.regs with saving := true }
    power := { s.power with window := none }
    mgmt := { s.mgmt with
      update := none
      banks := if s.mgmt.update.isSome then modNth s.mgmt.banks (1 - s.mgmt.activeBank) fun _ => ⟨[], false⟩
        else s.mgmt.banks }
    shutdown := .drain d kind stay i5 } (b := evPOWER_SAVE) (by decide)
  exact ⟨cause, pend, msi, ev, _, alert, heq, hset⟩

/-- A wake writes the power state, and the slots of the vault. -/
theorem wake_slots (s : State) : ∃ p a b,
    wake s = { s with power := p, vault := { s.vault with slotA := a, slotB := b } } ∧ p.idle = 0 := by
  unfold wake
  split
  · exact ⟨_, s.vault.slotA, s.vault.slotB, rfl, ‹_›⟩
  · split
    · exact ⟨_, _, _, rfl, rfl⟩
    · exact ⟨_, s.vault.slotA, s.vault.slotB, rfl, rfl⟩

/-- A reset in service: the tray is awake and drains, SAVE_KIND 3 (R465). -/
theorem mgmtReset_eq {s : State} (h : s.shutdown = .none) (i5 : Bool) : ∃ cause pend msi ev banks alert p a b,
    mgmtReset s i5 = { s with
      regs := { s.regs with saving := true, eventCause := cause, msixPending := pend, msi := msi, events := ev }
      power := p
      mgmt := { s.mgmt with update := none, banks := banks, smbAlert := alert }
      shutdown := .drain s.now 3 false i5
      vault := { s.vault with slotA := a, slotB := b } } ∧ cause.getLsbD 4 = true ∧ p.idle = 0 := by
  obtain ⟨p, a, b, hwake, hidle⟩ := wake_slots s
  unfold mgmtReset
  rw [hwake]
  obtain ⟨cause, pend, msi, ev, banks, alert, heq, hset⟩ := commitShutdown_eq
    (s := { s with power := p, vault := { s.vault with slotA := a, slotB := b } }) h s.now 3 false i5
  exact ⟨cause, pend, msi, ev, banks, alert, _, a, b, heq, hset, hidle⟩

/-! ## Idle states (R454, R455) -/

theorem isIdle_iff (s : State) : isIdle s = true ↔
    s.cmds = [] ∧ s.power.window = none ∧ s.regs.ready = true ∧ s.shutdown = .none ∧ s.loss = .none ∧
      ∀ p ∈ s.rings, sqEnabled p.2 = true → p.2.sqHead = p.2.sqTail := by
  simp [isIdle, and_assoc, or_iff_not_imp_left]

/-- An idle entry is due: the tray is idle, n is the next state, WAKE_TOLERANCE allows its wake time, its delay has passed. -/
def idleDue (s : State) (n : Nat) (t : Tick) : Prop :=
  isIdle s = true ∧ n = s.power.idle + 1 ∧ n ≤ 4 ∧ (nth (0, 0) idleTable n).2 ≤ s.regs.wakeTolerance.toNat ∧
    s.power.idleSince + ticksUs s (nth (0, 0) idleTable n).1 ≤ max s.now t

/-- The tray in idle state n. -/
def idleEntered (s : State) (n : Nat) (t : Tick) : State := { stamp s t with power := { s.power with idle := n } }

section
variable {s : State} {n : Nat} {t : Tick}

theorem idleDue_iff : idleDue s n t ↔
    (isIdle s && n == s.power.idle + 1 && decide (n ≤ 4) && decide ((nth (0, 0) idleTable n).2 ≤ s.regs.wakeTolerance.toNat) &&
      decide (s.power.idleSince + ticksUs s (nth (0, 0) idleTable n).1 ≤ max s.now t)) = true := by
  simp [idleDue, and_assoc]

theorem doIdleEntry_waits (h : ¬ idleDue s n t) : doIdleEntry s n t = stamp s t := if_neg (mt idleDue_iff.2 h)

theorem doIdleEntry_due (h : idleDue s n t) : doIdleEntry s n t =
    let v := idleEntered s n t
    if n = 4 then
      { writeSlot v v.now 2 with power := { (writeSlot v v.now 2).power with i4Slot := true } }
    else v :=
  if_pos (idleDue_iff.1 h)

end

/-! ## Reset actions (R455, R465, R485) -/

section
variable {s : State}

theorem onReset_down (h : redfishUp s = false) (k : State → State) : onReset s k = s := if_pos (by rw [h]; rfl)

variable (hup : redfishUp s = true)
include hup

theorem onReset_busy (h : s.mgmt.resetBusy = true) (k : State → State) : onReset s k = refuseHttp s 409 :=
  (if_neg (by rw [hup]; decide)).trans (if_pos h)

theorem onReset_accepted (h : s.mgmt.resetBusy = false) (k : State → State) : onReset s k = k (answer s true []) :=
  (if_neg (by rw [hup]; decide)).trans (if_neg (by rw [h]; decide))

end

section
variable {s : State} (hshutdown : s.shutdown = .none) (t : Tick)
include hshutdown

theorem gracefulReset_serving (hboot : s.boot = .serving) (i5 : Bool) : gracefulReset s i5 t = busy (mgmtReset (stamp s t) i5) := by
  unfold gracefulReset
  dsimp only [stamp_shutdown, stamp_boot]
  rw [hshutdown, hboot]

theorem gracefulReset_i5 (hboot : s.boot = .i5) : gracefulReset s false t = busy { stamp s t with boot := downBoot s } := by
  unfold gracefulReset
  dsimp only [stamp_shutdown, stamp_boot]
  rw [hshutdown, hboot]
  rfl

end

/-- Settles O50: an idle entry by whether it is due (`isIdle_iff`), its slot by `writeSlot_eq`; a reset by `onReset`, its drain by
`mgmtReset_eq`. -/
theorem idleStatesAndResets : Obligations.IdleStatesAndResets := by
  unfold Obligations.IdleStatesAndResets
  have next {a b : State} (h : a = b) : (Host.Outcome.next a : Host.Outcome State Fault Refusal) = .next b := congrArg _ h
  refine ⟨fun s n t => ?idle, fun s t => ?resets⟩
  case idle =>
    intro T row idle enters
    have hdue : enters ↔ idleDue s n t := and_congr (isIdle_iff s).symm Iff.rfl
    refine ⟨fun h => next (doIdleEntry_waits (mt hdue.2 h)), fun h hn => next ((doIdleEntry_due (hdue.1 h)).trans (if_neg hn.ne)),
      fun h hn => ?deepest⟩
    case deepest =>
      have heq := (doIdleEntry_due (hdue.1 h)).trans (if_pos hn)
      subst hn
      rw [writeSlot_eq] at heq
      exact ⟨_, savedSlot (idleEntered s 4 t) T 2, next heq, rfl, rfl, rfl, rfl, rfl, rfl, savedSlot_seq _ _ _, rfl⟩
  case resets =>
    intro resets after used
    have haction : ∀ i ∈ resets, ∃ k, exec i s = .next (onReset s k) := by
      simp only [resets, List.forall_mem_cons, List.not_mem_nil, false_implies, implies_true, and_true]
      exact ⟨⟨_, rfl⟩, ⟨_, rfl⟩, ⟨_, rfl⟩, ⟨_, rfl⟩⟩
    refine ⟨fun hdown i hi => ?down, fun hup hbusy i hi => ?busy, fun hup hfree => ⟨fun hboot hshutdown i5 => ?graceful,
      ⟨_, next (onReset_accepted hup hfree _), rfl, rfl, rfl, rfl, rfl, rfl, rfl, rfl, rfl⟩,
      fun hboot => ⟨next ((onReset_accepted hup hfree _).trans (if_pos hboot)), fun hshutdown =>
        next ((onReset_accepted hup hfree _).trans (gracefulReset_i5 (s := answer s true []) hshutdown t hboot))⟩,
      fun hboot => next ((onReset_accepted hup hfree _).trans (if_neg hboot))⟩⟩
    case down =>
      obtain ⟨k, hk⟩ := haction i hi
      exact hk.trans (next (onReset_down hdown k))
    case busy =>
      obtain ⟨k, hk⟩ := haction i hi
      exact hk.trans (next (onReset_busy hup hbusy k))
    case graceful =>
      have hreset : exec (if i5 = true then .gracefulShutdown t else .gracefulRestart t) s =
          .next (busy (mgmtReset (stamp (answer s true []) t) i5)) := by
        refine Eq.trans ?_ (next ((onReset_accepted hup hfree fun s => gracefulReset s i5 t).trans
          (gracefulReset_serving (s := answer s true []) hshutdown t hboot i5)))
        cases i5 <;> rfl
      obtain ⟨cause, pend, msi, ev, banks, alert, p, a, b, heq, hcause, hidle⟩ :=
        mgmtReset_eq (s := stamp (answer s true []) t) hshutdown i5
      rw [heq] at hreset
      exact ⟨_, hreset, rfl, rfl, rfl, hcause, rfl, rfl, hidle, rfl⟩

end Sys2Proof.Laws
end

section
/-! SUPPORT. What READY leaves: the marks of a tray that serves, the slot consumed, the ledger counted (R370, R406, R453, R464, R474). -/

open Sys2Proof Sys2Proof.Machine

namespace Sys2Proof.Laws

/-! ## The lead (R370) -/

/-- The first element of an increasing list is in it and least. -/
theorem headD_least {l : List Nat} (hsorted : l.Pairwise (· < ·)) (hne : l ≠ []) (d : Nat) :
    l.headD d ∈ l ∧ ∀ k ∈ l, l.headD d ≤ k := by
  cases l with
  | nil => exact absurd rfl hne
  | cons x xs =>
    refine ⟨List.mem_cons_self, fun k hk => ?_⟩
    rcases List.mem_cons.1 hk with rfl | hk
    · exact Nat.le_refl _
    · exact ((List.pairwise_cons.1 hsorted).1 k hk).le

/-- The lead: the lowest-numbered active chip. -/
theorem lead_spec {s : State} (h : activeChips s ≠ []) :
    (activeChips s).headD 0 < 8 ∧ (chipOf s ((activeChips s).headD 0)).active = true ∧
      ∀ k, k < 8 → (chipOf s k).active = true → (activeChips s).headD 0 ≤ k := by
  obtain ⟨hmem, hleast⟩ := headD_least (List.pairwise_lt_range.filter _) h 0
  obtain ⟨hlt, hactive⟩ := List.mem_filter.1 hmem
  exact ⟨List.mem_range.1 hlt, hactive, fun k hk ha => hleast k ((mem_activeChips hk).2 ha)⟩

/-! ## Firmware marks and SETTINGS_FP (R474, Table DET-4) -/

theorem settingsNow_eq (s : State) : settingsNow s =
    if s.mgmt.running = [] then 0x0201000701040000#64
    else (0x0201#16 ++ Config.bundleTables s.mgmt.running ++ 0x0104#16 ++ 0#16).setWidth 64 := by
  unfold settingsNow
  simp only [List.isEmpty_iff]

theorem firmwareReady_spec (m : Mgmt) :
    (firmwareReady m).activated = false ∧ (firmwareReady m).tries = 0 ∧ (firmwareReady m).activeBank = m.activeBank ∧
      (firmwareReady m).svnFloor =
        if m.running = [] then m.svnFloor else max m.svnFloor (Config.bundleSvn m.running).toNat := by
  unfold firmwareReady
  by_cases h : m.running = []
  · rw [if_pos h, if_pos (List.isEmpty_iff.2 h)]
    exact ⟨rfl, rfl, rfl, rfl⟩
  · rw [if_neg h, if_neg (mt List.isEmpty_iff.1 h)]
    exact ⟨rfl, rfl, rfl, rfl⟩

/-! ## The slot, the ledger and the links -/

/-- The slot that a resume used is consumed, and the other stands (R453). -/
theorem consumeResumed_eq (s : State) : ∃ a b,
    consumeResumed s = { s with vault := { s.vault with slotA := a, slotB := b } } ∧
    (∀ x, resumeSlot s = some x → a = (if x then { s.vault.slotA with state := 3 } else s.vault.slotA) ∧
      b = if x then s.vault.slotB else { s.vault.slotB with state := 3 }) ∧
    (resumeSlot s = none → a = s.vault.slotA ∧ b = s.vault.slotB) := by
  unfold consumeResumed
  rcases Option.eq_none_or_eq_some (resumeSlot s) with hnone | ⟨x, hsome⟩
  · rw [hnone]
    exact ⟨s.vault.slotA, s.vault.slotB, rfl, fun _ h => (by cases h), fun _ => ⟨rfl, rfl⟩⟩
  · rw [hsome]
    cases x
    · exact ⟨_, _, rfl, fun x hx => (by cases hx; exact ⟨rfl, rfl⟩), fun h => (by cases h)⟩
    · exact ⟨_, _, rfl, fun x hx => (by cases hx; exact ⟨rfl, rfl⟩), fun h => (by cases h)⟩

theorem writeLedger_eq (s : State) (es : List LedgerEntry) (n : Nat) : ∃ a b,
    writeLedger s es n = { s with vault := { s.vault with ledgerA := a, ledgerB := b } } := by
  unfold writeLedger
  dsimp only
  split
  · exact ⟨s.vault.ledgerA, _, rfl⟩
  · exact ⟨_, s.vault.ledgerB, rfl⟩

/-- Failed links judged write the loss alone, and with none there is none to judge (R427). -/
theorem recheckLinks_eq (s : State) : ∃ loss,
    recheckLinks s = { s with loss := loss } ∧ ((∀ l ∈ s.mesh, l.failed = false) → loss = s.loss) := by
  have h := congrArg (fun x : State => { x with loss := (recheckLinks s).loss }) (recheckLinks_frame s)
  refine ⟨(recheckLinks s).loss, h, fun hwork => congrArg State.loss ?_⟩
  unfold recheckLinks
  exact fold_still _ _ _ fun l hl => if_neg (by rw [hwork l hl]; decide)

/-- What READY leaves in the vault: the slot used is consumed, and the ledger counts the bring-up under a new SEQUENCE. -/
structure CountedVault (s : State) (v : Vault) : Prop where
  resumed : ∀ a, resumeSlot s = some a →
    v.slotA = (if a then { s.vault.slotA with state := 3 } else s.vault.slotA) ∧
      v.slotB = if a then s.vault.slotB else { s.vault.slotB with state := 3 }
  cold : resumeSlot s = none → v.slotA = s.vault.slotA ∧ v.slotB = s.vault.slotB
  ledger : ledgerNow { s with vault := v } = ⟨1, true, (ledgerNow s).seq + 1, (ledgerNow s).bringUps + 1, (ledgerNow s).entries⟩
  frame : { v with
    slotA := s.vault.slotA, slotB := s.vault.slotB, ledgerA := s.vault.ledgerA, ledgerB := s.vault.ledgerB } = s.vault

theorem readyNow_eq (s : State) (held : Option Bool) : ∃ v loss,
    readyNow s held = { readyMarks s held with vault := v, loss := loss } ∧ CountedVault s v ∧
      ((∀ l ∈ s.mesh, l.failed = false) → loss = s.loss) := by
  obtain ⟨a, b, hconsumed, hresumed, hcold⟩ := consumeResumed_eq s
  let r : State := { s with vault := { s.vault with slotA := a, slotB := b } }
  obtain ⟨la, lb, hwritten⟩ := writeLedger_eq r (ledgerNow r).entries ((ledgerNow r).bringUps + 1)
  have hledger := ledgerNow_write r (ledgerNow r).entries ((ledgerNow r).bringUps + 1)
  rw [hwritten] at hledger
  obtain ⟨loss, hrechecked, hworks⟩ := recheckLinks_eq (readyMarks { r with vault := { r.vault with ledgerA := la, ledgerB := lb } } held)
  refine ⟨{ r.vault with ledgerA := la, ledgerB := lb }, loss, ?_, ⟨hresumed, hcold, hledger, rfl⟩, hworks⟩
  unfold readyNow
  dsimp only
  rw [hconsumed, hwritten, hrechecked]
  rfl

/-! ## READY -/

section
variable {s : State}

theorem onStep_passes {b : Boot} (h : s.boot ≠ b ∨ s.power.window ≠ none) (k : State → State) : onStep s b k = s :=
  if_neg fun ⟨hboot, hwindow⟩ => h.elim (· hboot) (· hwindow)

theorem onStep_runs {b : Boot} (hboot : s.boot = b) (hwindow : s.power.window = none) (k : State → State) : onStep s b k = k s :=
  if_pos ⟨hboot, hwindow⟩

variable (hboot : s.boot = .readyStep) (hwindow : s.power.window = none)
include hboot hwindow

theorem doReady_few (h : (activeChips s).length < 4) : doReady s = stayDown s :=
  (onStep_runs hboot hwindow _).trans (if_pos h)

theorem doReady_serves (h : 4 ≤ (activeChips s).length) (hheld : s.mgmt.heldReset = none) : doReady s = readyNow s none := by
  refine (onStep_runs hboot hwindow _).trans ((if_neg (Nat.not_lt.2 h)).trans ?_)
  rw [hheld]

theorem doReady_resets (h : 4 ≤ (activeChips s).length) {i5 : Bool} (hheld : s.mgmt.heldReset = some i5) :
    doReady s = mgmtReset (readyNow s (some i5)) i5 := by
  refine (onStep_runs hboot hwindow _).trans ((if_neg (Nat.not_lt.2 h)).trans ?_)
  rw [hheld]

end

/-- A reset of a tray that is awake leaves the vault's slots. -/
theorem mgmtReset_awake {s : State} (hidle : s.power.idle = 0) (i5 : Bool) : mgmtReset s i5 =
    commitShutdown { s with power := { s.power with idleSince := s.now } } s.now 3 false i5 := by
  unfold mgmtReset wake
  rw [if_pos hidle]

/-- One management event for each of a list of chips. -/
theorem foldl_mgmtEvent (code : Nat) (l : List Nat) (s : State) : ∃ ev alert,
    l.foldl (fun s c => mgmtEvent s code c 0) s = { s with
      regs := { s.regs with events := ev }, mgmt := { s.mgmt with smbAlert := alert } } ∧
    ∀ e, e ∈ ev ↔ e ∈ s.regs.events ∨ ∃ c ∈ l, e = (code, c, 0, s.now) := by
  induction l generalizing s with
  | nil => exact ⟨s.regs.events, s.mgmt.smbAlert, rfl, fun e => by simp⟩
  | cons c l ih =>
    obtain ⟨ev, alert, heq, hmem⟩ := ih (mgmtEvent s code c 0)
    refine ⟨ev, alert, heq, fun e => (hmem e).trans ?_⟩
    show e ∈ (code, c, 0, s.now) :: s.regs.events ∨ (∃ d ∈ l, e = (code, d, 0, s.now)) ↔ _
    rw [List.mem_cons, List.exists_mem_cons_iff, or_assoc, or_left_comm]

/-- Settles O60: READY serves as `readyNow_eq` says, a held reset commits to shutdown then (`commitShutdown_eq`), and with too few
chips each one left out is told (`foldl_mgmtEvent`). -/
theorem readyServesTheTray : Obligations.ReadyServesTheTray := by
  unfold Obligations.ReadyServesTheTray
  intro s m serves
  have next {a b : State} (h : a = b) : (Host.Outcome.next a : Host.Outcome State Fault Refusal) = .next b := congrArg _ h
  have hserves (held : Option Bool) (h : 4 ≤ (activeChips s).length) {v : Vault} {loss : Loss} (hvault : CountedVault s v)
      (hloss : (∀ l ∈ s.mesh, l.failed = false) → loss = s.loss) :
      serves { readyMarks s held with vault := v, loss := loss } := by
    obtain ⟨hlead, hactive, hleast⟩ := lead_spec (s := s) (List.ne_nil_of_length_pos (by omega))
    obtain ⟨hactivated, htries, hbank, hfloor⟩ := firmwareReady_spec m
    have hledger : ledgerNow { readyMarks s held with vault := v, loss := loss } = _ := hvault.ledger
    exact ⟨rfl, rfl, rfl, settingsNow_eq s, hlead, hactive, hleast, hvault.resumed, hvault.cold,
      (congrArg Ledger.entries hledger :), (congrArg Ledger.seq hledger :), (congrArg Ledger.bringUps hledger :), hvault.frame,
      hactivated, htries, rfl, hbank, hfloor, rfl, hloss⟩
  refine ⟨fun h => next (onStep_passes h _), fun hboot hwindow hmany hheld => ?ready, fun i5 hboot hwindow hmany hheld hshutdown => ?reset,
    fun hboot hwindow hfew => ?few⟩
  case ready =>
    obtain ⟨v, loss, heq, hvault, hloss⟩ := readyNow_eq s none
    exact ⟨_, next ((doReady_serves hboot hwindow hmany hheld).trans heq), hserves none hmany hvault hloss, rfl, rfl, rfl⟩
  case reset =>
    obtain ⟨v, loss, heq, hvault, hloss⟩ := readyNow_eq s (some i5)
    have hdown := (doReady_resets hboot hwindow hmany hheld).trans (mgmtReset_awake (by rw [heq]; rfl) i5)
    rw [heq] at hdown
    obtain ⟨cause, pend, msi, ev, banks, alert, hcommit, hset⟩ := commitShutdown_eq (s := { readyMarks s (some i5) with
      vault := v, loss := loss, power := { (readyMarks s (some i5)).power with idleSince := s.now } }) hshutdown s.now 3 false i5
    exact ⟨_, next (hdown.trans hcommit), hserves (some i5) hmany hvault hloss, rfl, rfl, rfl, hset, rfl⟩
  case few =>
    obtain ⟨ev, alert, heq, hmem⟩ := foldl_mgmtEvent 0x0B ((List.range 8).filter fun c => !(chipOf s c).active) s
    have hdown := doReady_few hboot hwindow hfew
    unfold stayDown at hdown
    rw [heq] at hdown
    refine ⟨_, next hdown, rfl, rfl, rfl, fun e => (hmem e).trans (or_congr_right ?_), rfl, rfl⟩
    simp only [List.mem_filter, List.mem_range, Bool.not_eq_true', and_assoc]

end Sys2Proof.Laws
end

section
/-! SUPPORT. Bring-up steps 1 to 3: the bank that the boot ROM starts, the configuration put in force, and the ledger entries that a
power loss had cut short (R407, R461 to R470, R474). -/

open Sys2Proof Sys2Proof.Machine

namespace Sys2Proof.Laws

/-! ## Steps 1 and 2 (R444, R461) -/

section
variable {s : State}

theorem doInputCheck_passes {mv : Nat} (h : ¬ ((s.boot = .off ∨ s.boot = .railsDown ∨ s.boot = .inputCheck) ∧ s.power.mated = true ∧
    40000 ≤ mv ∧ mv ≤ 60000 ∧ s.power.window = none)) : doInputCheck s mv = s :=
  if_neg fun hstarts => h (by simpa [and_assoc, or_assoc] using hstarts)

theorem doInputCheck_starts {mv : Nat} (h : (s.boot = .off ∨ s.boot = .railsDown ∨ s.boot = .inputCheck) ∧ s.power.mated = true ∧
    40000 ≤ mv ∧ mv ≤ 60000 ∧ s.power.window = none) : doInputCheck s mv =
      let v := resetRegs (if s.boot = .inputCheck then s else { s with now := 0 })
      { v with
        boot := .preCharge
        power := { v.power with millivolts := mv, disconnected := false }
        mgmt := { v.mgmt with eid := 0, spdm := 0, transcript := [] } } :=
  if_pos (by simpa [and_assoc, or_assoc] using h)

end

/-! ## What the start of a bank leaves of the configuration step -/

/-- From the configuration step w to the end u of step 3: the configuration and its registers stand, events are added, and of the
vault the ledger alone may be written, where entries wait for it. -/
structure Booted (w u : State) : Prop where
  frame : bootFrame w u
  inForce : u.mgmt.inForce = w.mgmt.inForce
  cfg : u.mgmt.cfg = w.mgmt.cfg
  cfgDefaulted : u.regs.cfgDefaulted = w.regs.cfgDefaulted
  cause : u.regs.eventCause = w.regs.eventCause
  events : ∀ x ∈ w.regs.events, x ∈ u.regs.events
  vault : { u.vault with ledgerA := w.vault.ledgerA, ledgerB := w.vault.ledgerB, torn := w.vault.torn } = w.vault
  settled : w.vault.torn = [] → u.vault = w.vault

theorem Booted.trans {s t u : State} (h : Booted s t) (k : Booted t u) (hvault : t.vault = s.vault) : Booted s u where
  frame := h.frame.trans k.frame
  inForce := k.inForce.trans h.inForce
  cfg := k.cfg.trans h.cfg
  cfgDefaulted := k.cfgDefaulted.trans h.cfgDefaulted
  cause := k.cause.trans h.cause
  events x hx := k.events x (h.events x hx)
  vault := hvault ▸ k.vault
  settled htorn := (k.settled (hvault ▸ htorn)).trans hvault

theorem booted_bootBank (s : State) : Booted s (bootBank s) := by
  obtain ⟨hframe, -, hregs, hsettled, hvault, hforce, hcfg, -⟩ := bootBank_spec s
  exact ⟨hframe, hforce, hcfg, congrArg Regs.cfgDefaulted hregs, congrArg Regs.eventCause hregs, fun x hx => hregs ▸ hx, hvault, hsettled⟩

theorem booted_enterRecovery (s : State) : Booted s (enterRecovery s) :=
  ⟨⟨rfl⟩, rfl, rfl, rfl, rfl, fun _ hx => List.mem_cons_of_mem _ hx, rfl, fun _ => rfl⟩

theorem booted_romTake (s : State) (b : Nat) : Booted s (romTake s b) := by
  unfold romTake
  split
  · exact ⟨⟨rfl⟩, rfl, rfl, rfl, rfl, fun _ hx => hx, rfl, fun _ => rfl⟩
  · exact ⟨⟨rfl⟩, rfl, rfl, rfl, rfl, fun _ hx => List.mem_cons_of_mem _ hx, rfl, fun _ => rfl⟩

/-! ## The bank that the boot ROM starts (R474) -/

theorem romTake_vault (s : State) (b : Nat) : (romTake s b).vault = s.vault := by unfold romTake; split <;> rfl

theorem romTake_bridges (s : State) (b : Nat) : (romTake s b).bridges = s.bridges := by unfold romTake; split <;> rfl

theorem romTake_banks (s : State) (b : Nat) : (romTake s b).mgmt.banks = s.mgmt.banks := by unfold romTake; split <;> rfl

theorem romTake_active (s : State) (b : Nat) : (romTake s b).mgmt.activeBank = b := by
  unfold romTake
  split
  · next h => exact h.symm
  · rfl

/-- A fall-back to the other bank ends a trial, and is told. -/
theorem romTake_other {s : State} {b : Nat} (h : b ≠ s.mgmt.activeBank) :
    (romTake s b).mgmt.activated = false ∧ (0x09, 0, 0, s.now) ∈ (romTake s b).regs.events := by
  unfold romTake
  rw [if_neg h]
  exact ⟨rfl, List.mem_cons_self⟩

/-- A bank that the boot ROM finds sound and that is valid. -/
def bankSound (banks : List Bank) (rom : RomResult) (b : Nat) : Bool :=
  (if b = 0 then rom.bankA else rom.bankB) && (nth ⟨[], false⟩ banks b).valid

theorem romPick_eq (s : State) (rom : RomResult) : romPick s rom =
    if bankSound s.mgmt.banks rom s.mgmt.activeBank then some s.mgmt.activeBank
    else if bankSound s.mgmt.banks rom (1 - s.mgmt.activeBank) then some (1 - s.mgmt.activeBank) else none := rfl

/-! ## Entries that a power loss had cut short (R407) -/

theorem revertBank_deferred (s : State) : (revertBank s).deferred = s.deferred := by
  unfold revertBank
  dsimp only
  split <;> rfl

/-- The configuration step leaves the vault but for its fault log. -/
theorem takeCfg_vault (s : State) : { (takeCfg s).vault with faultLog := s.vault.faultLog } = s.vault := by
  unfold takeCfg
  split
  · rfl
  · next h =>
    dsimp only
    generalize hv : mgmtEvent _ 0x01 0 0 = v
    obtain ⟨cause, pend, msi, ev, alert, hraise, -⟩ := raiseEvent_eq v (b := evCFG_DEFAULTED) (by decide)
    obtain ⟨log, deferred, hlog⟩ := logFault_eq (raiseEvent v evCFG_DEFAULTED) evCFG_DEFAULTED 0 0 0
    rw [hlog, hraise, ← hv]
    rfl

theorem writeTorn_ledger {s : State} (h : s.mgmt.rebuilt = false) :
    (writeTorn s).vault.torn = [] ∧ (ledgerNow (writeTorn s)).entries = (ledgerNow s).entries ++ s.vault.torn := by
  unfold writeTorn
  by_cases htorn : s.vault.torn = []
  · rw [if_pos (by rw [htorn]; rfl), htorn, List.append_nil]
    exact ⟨rfl, rfl⟩
  · rw [if_neg (by simpa using htorn)]
    unfold writeEntries
    rw [if_neg (by simp [h])]
    let v := markWrite { s with vault := { s.vault with torn := [] } } s.vault.torn
    obtain ⟨a, b, hwritten⟩ := writeLedger_eq v ((ledgerNow s).entries ++ s.vault.torn) (ledgerNow s).bringUps
    exact ⟨congrArg (fun x : State => x.vault.torn) hwritten, congrArg Ledger.entries (ledgerNow_write v _ _)⟩

/-- With a valid ledger copy the entries that wait are written as the bank starts. -/
theorem bootBank_ledger {s : State} (h : s.vault.ledgerA.valid = true ∨ s.vault.ledgerB.valid = true) :
    (bootBank s).vault.torn = [] ∧ (ledgerNow (bootBank s)).entries = (ledgerNow s).entries ++ s.vault.torn := by
  have hsound : (!s.vault.ledgerA.valid && !s.vault.ledgerB.valid) = false := by
    rcases h with h | h <;> simp [h]
  let v : State := { s with
    boot := .chipPower
    mgmt := { s.mgmt with running := (nth ⟨[], false⟩ s.mgmt.banks s.mgmt.activeBank).bytes, rebuilt := false } }
  have hvault : (bootBank s).vault = (writeTorn v).vault := by
    obtain ⟨-, -, -, h0, -⟩ := latchPort_spec (writeTorn v) 0
    obtain ⟨-, -, -, h1, -⟩ := latchPort_spec (latchPort (writeTorn v) 0) 1
    unfold bootBank
    dsimp only
    rw [hsound]
    exact h1.trans h0
  have hledger : ledgerNow (bootBank s) = ledgerNow (writeTorn v) := by
    unfold ledgerNow
    rw [hvault]
  rw [hvault, hledger]
  exact writeTorn_ledger (s := v) rfl

/-! ## TMC_BOOT -/

/-- The tray at the end of the configuration step: a bank on trial judged, the TMC's hand-overs in the vault, a copy in force. -/
def bootConfigured (s : State) : State :=
  takeCfg { revertBank s with
    deputy := none, deferred := [], deferredLog := []
    vault := { (revertBank s).vault with torn := (revertBank s).vault.torn ++ (revertBank s).deferred } }

/-- What stands before the copy is chosen. -/
theorem bootConfigured_eq (s : State) : ∃ q, bootConfigured s = takeCfg q ∧ q.deputy = none ∧ bootFrame s q ∧
    q.vault = { s.vault with torn := s.vault.torn ++ s.deferred } ∧ q.bridges = s.bridges ∧ q.mgmt.banks = s.mgmt.banks ∧
    q.mgmt.activeBank = (if s.mgmt.activated = true ∧ 3 ≤ s.mgmt.tries then 1 - s.mgmt.activeBank else s.mgmt.activeBank) ∧
    (s.mgmt.activated = true ∧ 3 ≤ s.mgmt.tries → (0x09, 0, 0, s.now) ∈ q.regs.events) := by
  obtain ⟨hframe, hactive, hbanks, hvault, hbridges, -, htold⟩ := revert_spec s
  refine ⟨_, rfl, rfl, hframe.trans ⟨rfl⟩, ?_, hbridges, hbanks, hactive, htold⟩
  dsimp only
  rw [hvault, revertBank_deferred]

theorem now_of_bootFrame {s u : State} (h : bootFrame s u) : u.now = s.now := (congrArg State.now h.same :)

/-- The bank that the boot ROM tries first. -/
def firstBank (m : Mgmt) : Nat := if m.activated = true ∧ 3 ≤ m.tries then 1 - m.activeBank else m.activeBank

theorem bootConfigured_frame (s : State) : bootFrame s (bootConfigured s) := by
  obtain ⟨q, heq, hdeputy, hframe, -⟩ := bootConfigured_eq s
  obtain ⟨hcfg, -⟩ := takeCfg_spec q hdeputy
  exact heq ▸ hframe.trans hcfg

/-- The banks and the bridges at the end of the configuration step, and a revert told. -/
theorem bootConfigured_bank (s : State) :
    (bootConfigured s).mgmt.banks = s.mgmt.banks ∧ (bootConfigured s).mgmt.activeBank = firstBank s.mgmt ∧
      (bootConfigured s).bridges = s.bridges ∧
      (firstBank s.mgmt ≠ s.mgmt.activeBank → (0x09, 0, 0, s.now) ∈ (bootConfigured s).regs.events) := by
  obtain ⟨q, heq, hdeputy, -, -, hbridges, hbanks, hactive, htold⟩ := bootConfigured_eq s
  obtain ⟨-, -, hactive', hbanks', hbridges', hevents, -⟩ := takeCfg_spec q hdeputy
  rw [heq]
  refine ⟨hbanks'.trans hbanks, hactive'.trans hactive, hbridges'.trans hbridges, fun h => hevents _ (htold ?_)⟩
  by_contra htrial
  exact h (if_neg htrial)

theorem bootConfigured_ledger (s : State) :
    (bootConfigured s).vault.torn = s.vault.torn ++ s.deferred ∧ (bootConfigured s).vault.ledgerA = s.vault.ledgerA ∧
      (bootConfigured s).vault.ledgerB = s.vault.ledgerB := by
  obtain ⟨q, heq, -, -, hvault, -⟩ := bootConfigured_eq s
  have h := takeCfg_vault q
  rw [hvault] at h
  rw [heq]
  exact ⟨(congrArg Vault.torn h :), (congrArg Vault.ledgerA h :), (congrArg Vault.ledgerB h :)⟩

/-- The configuration at the end of step 3 (R469, R470). -/
theorem booted_config {s u : State} (h : Booted (bootConfigured s) u) :
    u.mgmt.inForce = selectCfg s ∧
    (∀ a, selectCfg s = some a → u.mgmt.cfg = (if a then s.vault.cfgA else s.vault.cfgB) ∧ u.regs.cfgDefaulted = false ∧
      (s.vault.torn = [] → s.deferred = [] → u.vault = s.vault)) ∧
    (selectCfg s = none → u.mgmt.cfg = factoryBlob 0 ∧ u.regs.cfgDefaulted = true ∧ u.regs.eventCause.getLsbD 7 = true ∧
      (0x01, 0, 0, s.now) ∈ u.regs.events ∧ u.vault.cfgA = s.vault.cfgA ∧ u.vault.cfgB = s.vault.cfgB ∧
      u.vault.faultLog.head? = some ⟨s.now, 7, 0, 0, 0⟩) := by
  obtain ⟨q, heq, hdeputy, hframe, hvault, -⟩ := bootConfigured_eq s
  rw [heq] at h
  obtain ⟨-, hforce, -, -, -, -, hcopy, hfactory⟩ := takeCfg_spec q hdeputy
  have hselect : selectCfg q = selectCfg s := by
    unfold selectCfg
    rw [hvault]
  rw [hselect] at hforce hcopy hfactory
  refine ⟨h.inForce.trans hforce, fun a ha => ?_, fun hnone => ?_⟩
  · obtain ⟨hcfg, hdefaulted, hstands⟩ := hcopy a ha
    rw [hvault] at hcfg
    refine ⟨h.cfg.trans hcfg, h.cfgDefaulted.trans hdefaulted, fun htorn hdeferred => ?_⟩
    have hsame : q.vault = s.vault := by
      rw [hvault, hdeferred, List.append_nil]
    exact (h.settled (by rw [hstands, hsame, htorn])).trans (hstands.trans hsame)
  · obtain ⟨hcfg, hdefaulted, hcause, htold, hA, hB, hlog⟩ := hfactory hnone
    rw [now_of_bootFrame hframe] at htold hlog
    rw [hvault] at hA hB
    have hv := h.vault
    exact ⟨h.cfg.trans hcfg, h.cfgDefaulted.trans hdefaulted, h.cause ▸ hcause, h.events _ htold,
      (congrArg Vault.cfgA hv :).trans hA, (congrArg Vault.cfgB hv :).trans hB,
      (congrArg (fun v : Vault => v.faultLog.head?) hv :).trans hlog⟩

/-- A bank started: chips are powered next, it runs, waiting entries are written, and each port latches its configuration. -/
theorem bankStarted_spec (w : State) (b : Nat) :
    let u := bootBank (romTake w b)
    Booted w u ∧ u.boot = .chipPower ∧ u.mgmt.activeBank = b ∧ u.mgmt.running = (nth ⟨[], false⟩ w.mgmt.banks b).bytes ∧
    u.mgmt.activated = (romTake w b).mgmt.activated ∧ u.regs = (romTake w b).regs ∧
    (w.vault.ledgerA.valid = true ∨ w.vault.ledgerB.valid = true → u.vault.torn = [] ∧
      (ledgerNow u).entries = (ledgerNow w).entries ++ w.vault.torn) ∧
    ∀ q < 2, q < w.bridges.length → let l := (nth ⟨false, 0, [], []⟩ u.bridges q).latch
      bit l q = bit (cfgField u 0x17 1) q ∧ bit l (2 + q) = bit (cfgField u 0x17 1) (2 + q) := by
  obtain ⟨-, hboot, hregs, -, -, -, -, hactive, hactivated, hrunning, hlatch⟩ := bootBank_spec (romTake w b)
  have hledger := bootBank_ledger (s := romTake w b)
  have hnow : ledgerNow (romTake w b) = ledgerNow w := by
    unfold ledgerNow
    rw [romTake_vault]
  rw [romTake_bridges] at hlatch
  rw [romTake_banks, romTake_active] at hrunning
  rw [hnow, romTake_vault] at hledger
  exact ⟨(booted_romTake w b).trans (booted_bootBank _) (romTake_vault w b), hboot, hactive.trans (romTake_active w b), hrunning,
    hactivated, hregs, hledger, hlatch⟩

/-- A bank started from the configuration step: what waited for the ledger is written, and the bank runs with its ports latched. -/
theorem bankStarted_configured (s : State) (b : Nat) :
    let u := bootBank (romTake (bootConfigured s) b)
    (s.vault.ledgerA.valid = true ∨ s.vault.ledgerB.valid = true → u.vault.torn = [] ∧
      (ledgerNow u).entries = (ledgerNow s).entries ++ s.vault.torn ++ s.deferred) ∧
    u.mgmt.running = (nth ⟨[], false⟩ s.mgmt.banks u.mgmt.activeBank).bytes ∧
    ∀ q < 2, q < s.bridges.length → let l := (nth ⟨false, 0, [], []⟩ u.bridges q).latch
      bit l q = bit (cfgField u 0x17 1) q ∧ bit l (2 + q) = bit (cfgField u 0x17 1) (2 + q) := by
  obtain ⟨hbanks, -, hbridges, -⟩ := bootConfigured_bank s
  obtain ⟨htorn, hA, hB⟩ := bootConfigured_ledger s
  obtain ⟨-, -, hactive, hrunning, -, -, hledger, hlatch⟩ := bankStarted_spec (bootConfigured s) b
  have hnow : ledgerNow (bootConfigured s) = ledgerNow s := by
    unfold ledgerNow
    rw [hA, hB]
  rw [hA, hB, hnow, htorn, ← List.append_assoc] at hledger
  rw [hbanks] at hrunning
  rw [hbridges] at hlatch
  exact ⟨hledger, hrunning.trans (by rw [hactive]), hlatch⟩

/-- Step 3 starts the bank that the boot ROM picks, else it ends in recovery. -/
theorem doTmcBoot_runs {s : State} (hboot : s.boot = .tmcBoot) (hwindow : s.power.window = none) (rom : RomResult) :
    doTmcBoot s rom = (romPick (bootConfigured s) rom).elim (enterRecovery (bootConfigured s))
      fun b => bootBank (romTake (bootConfigured s) b) := by
  refine (onStep_runs hboot hwindow _).trans ?_
  change (match romPick (bootConfigured s) rom with | some b => bootBank (romTake (bootConfigured s) b) | none => _) = _
  cases romPick (bootConfigured s) rom <;> rfl

/-- Settles O51: steps 1 and 2 by their branches; step 3 by the configuration in force (`booted_config`) and the bank that the boot ROM
starts (`romPick_eq`, `bankStarted_spec`), if any. -/
theorem bringUpStartsFirmware : Obligations.BringUpStartsFirmware := by
  unfold Obligations.BringUpStartsFirmware
  intro s m p ready
  have next {a b : State} (h : a = b) : (Host.Outcome.next a : Host.Outcome State Fault Refusal) = .next b := congrArg _ h
  have hready (mj : Nat) : powerReadyAfter p mj = ready mj := powerReadyAfter_eq p mj
  refine ⟨fun mv => ⟨fun h => next (doInputCheck_passes h), fun h => ?inputCheck⟩,
    fun mj => ⟨fun h => next (onStep_passes h _), fun hboot hwindow hmj => ?charged, fun hboot hwindow hmj => ?uncharged⟩,
    fun rom => ⟨fun h => next (onStep_passes h _), fun hboot hwindow => ?tmcBoot⟩⟩
  case inputCheck =>
    refine next ((doInputCheck_starts h).trans ?_)
    split <;> rfl
  case charged =>
    refine next ((onStep_runs hboot hwindow _).trans ?_)
    rw [if_neg (Nat.not_lt.2 hmj), ← hready mj]
  case uncharged =>
    refine next ((onStep_runs hboot hwindow _).trans ?_)
    rw [if_pos hmj, ← hready mj]
    rfl
  case tmcBoot =>
    intro _ ok first _ copy
    have hrun := doTmcBoot_runs hboot hwindow rom
    have hpick := romPick_eq (bootConfigured s) rom
    obtain ⟨hbanks, hfirst, hbridges, hrevert⟩ := bootConfigured_bank s
    have hframe := bootConfigured_frame s
    have hnow := now_of_bootFrame hframe
    rw [hbanks, hfirst] at hpick
    change _ = if ok first = true then some first else if ok (1 - first) = true then some (1 - first) else none at hpick
    cases hsound : ok first with
    | true =>
      rw [hpick, if_pos hsound] at hrun
      obtain ⟨hbooted, hchip, hactive, -⟩ := bankStarted_spec (bootConfigured s) first
      obtain ⟨hledger, hruns⟩ := bankStarted_configured s first
      obtain ⟨hforce, hcopy, hfactory⟩ := booted_config hbooted
      exact ⟨_, next hrun, hforce, hcopy, hfactory, fun _ => hledger,
        fun _ => ⟨hchip, hactive, fun hne => hbooted.events _ (hrevert hne)⟩, nofun, fun _ => hruns, nofun,
        (hframe.trans hbooted.frame).same⟩
    | false =>
      cases hother : ok (1 - first) with
      | true =>
        rw [hpick, if_neg (by simp [hsound]), if_pos hother] at hrun
        obtain ⟨hbooted, hchip, hactive, -, hactivated, hregs, -⟩ := bankStarted_spec (bootConfigured s) (1 - first)
        obtain ⟨hledger, hruns⟩ := bankStarted_configured s (1 - first)
        obtain ⟨hforce, hcopy, hfactory⟩ := booted_config hbooted
        have hne : 1 - first ≠ (bootConfigured s).mgmt.activeBank := by
          change _ = first at hfirst
          omega
        obtain ⟨htrial, htold⟩ := romTake_other hne
        rw [hnow, ← hregs] at htold
        exact ⟨_, next hrun, hforce, hcopy, hfactory, fun _ => hledger, nofun,
          fun _ _ => ⟨hchip, hactive, hactivated.trans htrial, htold⟩, fun _ => hruns, nofun,
          (hframe.trans hbooted.frame).same⟩
      | false =>
        rw [hpick, if_neg (by simp [hsound]), if_neg (by simp [hother])] at hrun
        have hbooted := booted_enterRecovery (bootConfigured s)
        obtain ⟨hforce, hcopy, hfactory⟩ := booted_config hbooted
        exact ⟨_, next hrun, hforce, hcopy, hfactory, nofun, nofun, nofun, nofun,
          fun _ _ => ⟨rfl, hbridges, by rw [← hnow]; rfl⟩, (hframe.trans hbooted.frame).same⟩

end Sys2Proof.Laws
end

section
/-! The invariant and the registers right after reset (R303, R304, R469). -/

open Sys2Proof Sys2Proof.Machine

namespace Sys2Proof.Laws

/-! ## The invariant -/

theorem inv_of_keeps {s t : State} (hkeeps : Keeps s t) (hs : Machine.Inv s = true) : Machine.Inv t = true := by
  unfold Machine.Inv at hs ⊢
  rw [Bool.and_eq_true] at hs ⊢
  obtain ⟨hmem, hmode⟩ := hs
  exact ⟨hkeeps.mem hmem, hkeeps.mode hmode⟩

/-- Settles O4: the front command keeps what `Keeps` names (`exec_keeps`), and so does a tick without one (`idleTick_keeps`). -/
theorem stepKeepsInvariants : Obligations.StepKeepsInvariants := by
  unfold Obligations.StepKeepsInvariants
  intro s t hs hstep
  cases hqueue : s.pending with
  | nil =>
    rw [step_of_empty hqueue] at hstep
    cases hstep
    exact inv_of_keeps (idleTick_keeps s) hs
  | cons c rest =>
    obtain ⟨u, hnext, hkeeps⟩ := exec_keeps c { s with pending := rest }
    have hrun : step s = .next u := by
      unfold step
      rw [hqueue]
      exact hnext
    cases hrun.symm.trans hstep
    exact inv_of_keeps hkeeps hs

/-- Settles O5: every memory is empty, and no mode bit is set. -/
theorem invariantsHoldAtReset : Obligations.InvariantsHoldAtReset := by
  unfold Obligations.InvariantsHoldAtReset
  decide

/-! ## What BAR0 reads after reset -/

theorem ringFn_reset (r : Nat) : ringFn State.reset r = 0 := rfl

theorem trayRing_reset {r : Nat} (h : r < 256) : trayRing State.reset 0 r = some r := by
  simp [trayRing, ringFn_reset, h]

/-- A read in the ring region is that ring's register. -/
theorem readRegister_ring {s : State} {fn link ring off r : Nat} (hring : ring < 256) (hoff : off < 64)
    (h : trayRing s fn ring = some r) : readRegister s fn link (0x10000 + 64 * ring + off) = readRingReg s r off := by
  unfold readRegister
  rw [if_pos (by simp; omega), show (0x10000 + 64 * ring + off - 0x10000) / 64 = ring by omega, h,
    show (0x10000 + 64 * ring + off) % 64 = off by omega]

theorem vfOf_reset (v : Nat) : vfOf State.reset v = Vf.reset := by
  unfold vfOf nth
  rw [show State.reset.vfs = List.replicate 16 Vf.reset from rfl, List.getD_eq_getElem?_getD, List.getElem?_replicate]
  split <;> rfl

/-- A read in the VF management region. -/
theorem readRegister_vf_reset {link v off : Nat} (hv : v < 16) (hoff : off ∈ [0x00, 0x04, 0x08, 0x0C, 0x10]) :
    readRegister State.reset 0 link (0x300000 + 32 * v + off) = 0#32 := by
  have hlt : off < 32 := by simp at hoff; omega
  unfold readRegister
  rw [if_neg (by simp; omega), if_neg (by simp; omega), if_neg (by simp; omega), if_pos (by simp; omega),
    show (0x300000 + 32 * v + off) % 32 = off by omega, vfOf_reset]
  simp only [List.mem_cons, List.not_mem_nil, or_false] at hoff
  rcases hoff with rfl | rfl | rfl | rfl | rfl <;> rfl

/-- No model is there yet: its overhang allowance reads 0. -/
theorem readRegister_overhang_reset {link m : Nat} (hm : m < 256) :
    readRegister State.reset 0 link (0x1000 + 4 * m) = 0#32 := by
  unfold readRegister
  rw [if_neg (by simp; omega), if_neg (by simp; omega), if_neg (by simp; omega), if_neg (by simp; omega),
    if_pos (by simp; omega)]
  rfl

/-- Every MODEL_STATE reads 0. -/
theorem readRegister_modelState_reset {link m : Nat} (hm : m < 64) :
    readRegister State.reset 0 link (0x1400 + 4 * m) = 0#32 := by
  unfold readRegister
  rw [if_neg (by simp; omega), if_neg (by simp; omega), if_neg (by simp; omega), if_neg (by simp; omega),
    if_neg (by simp), if_pos (by simp; omega)]
  rfl

/-- Settles O6: ring, VF, allowance and MODEL_STATE registers region by region; the status registers are read one by one. -/
theorem resetRegisterValues : Obligations.ResetRegisterValues := by
  unfold Obligations.ResetRegisterValues
  intro link hlink
  refine ⟨rfl, rfl, rfl, rfl, rfl, fun off hoff => ?status, fun ring hring => ⟨?size, fun off hoff => ?ring⟩,
    fun v hv off hoff => readRegister_vf_reset hv hoff, fun m hm => readRegister_overhang_reset hm,
    fun m hm => readRegister_modelState_reset hm⟩
  case status =>
    decide +revert
  case size => exact readRegister_ring hring (by decide) (trayRing_reset hring)
  case ring =>
    have hlt : off < 64 := by simp at hoff; omega
    rw [readRegister_ring hring hlt (trayRing_reset hring)]
    simp only [List.mem_cons, List.not_mem_nil, or_false] at hoff
    rcases hoff with rfl | rfl | rfl | rfl | rfl | rfl | rfl | rfl | rfl | rfl <;> rfl

end Sys2Proof.Laws
end

section
/-! SUPPORT. Doorbells and ring configuration: what each write leaves of its ring, and that it leaves the others (R274 to R280, R507,
R508). -/

open Sys2Proof Sys2Proof.Machine

namespace Sys2Proof.Laws

/-! ## Doorbells -/

section

variable {s : State} {link fn ring r : Nat}

theorem doSqTailDb_open (news : HostNews) (v : Word) (hready : s.regs.ready = true) (hlink : linkUp s link = true)
    (hring : trayRing s fn ring = some r) : doSqTailDb s link fn ring v news =
      ringTail (keepTail (applyNews s news) r (bits v.toNat 15 0)) r (bits v.toNat 15 0) := by
  have hready' : regsOpen (applyNews s news) = true := hready
  have hlink' : linkUp (applyNews s news) link = true := hlink
  have hring' : trayRing (applyNews s news) fn ring = some r := hring
  unfold doSqTailDb
  dsimp only
  rw [hready', hlink', hring']
  rfl

theorem doCqHeadDb_open (v : Word) (hready : s.regs.ready = true) (hlink : linkUp s link = true)
    (hring : trayRing s fn ring = some r) : doCqHeadDb s link fn ring v = ringHead s r (bits v.toNat 15 0) := by
  have hready' : regsOpen s = true := hready
  unfold doCqHeadDb
  rw [hready', hlink, hring]
  rfl

theorem ringTail_inRange {n : Nat} (hsq : sqEnabled (ringOf s r) = true) (hn : n < sqEntries (ringOf s r)) :
    ringTail s r n = wake (setRing s r { ringOf s r with sqTail := n, stalled := false }) := by
  unfold ringTail
  simp [hsq, Nat.not_le.2 hn]

theorem ringTail_outOfRange {n : Nat} (hsq : sqEnabled (ringOf s r) = true) (hn : sqEntries (ringOf s r) ≤ n) :
    ringTail s r n = ringError s r 1 := by
  unfold ringTail
  simp [hsq, hn]

theorem ringTail_disabled {n : Nat} (hsq : sqEnabled (ringOf s r) = false) : ringTail s r n = s := by
  unfold ringTail
  simp [hsq]

/-- How many slots a value written to CQ_HEAD_DB releases. -/
def headDistance (x : Ring) (h : Nat) : Nat := (h + cqEntries x - x.cqHead) % cqEntries x

/-- A CQ's ring with the slots up to h released. -/
def headMoved (x : Ring) (h : Nat) : Ring :=
  { x with
    cqHead := h, written := x.written - headDistance x h
    records := x.records.filter fun p =>
      !((List.range (headDistance x h)).map fun k => (x.cqHead + k) % cqEntries x).contains p.1 }

theorem ringHead_inRange {h : Nat} (hcq : cqEnabled (ringOf s r) = true) (hh : h < cqEntries (ringOf s r))
    (hdist : headDistance (ringOf s r) h ≤ (ringOf s r).written) :
    ringHead s r h = wake (setRing s r (headMoved (ringOf s r) h)) := by
  unfold headDistance at hdist
  unfold ringHead
  simp only [hcq, Bool.not_true, Bool.false_eq_true, if_false]
  rw [if_neg (by simp [Nat.not_le.2 hh, Nat.not_lt.2 hdist])]
  rfl

theorem ringHead_outOfRange {h : Nat} (hcq : cqEnabled (ringOf s r) = true)
    (hh : cqEntries (ringOf s r) ≤ h ∨ (ringOf s r).written < headDistance (ringOf s r) h) :
    ringHead s r h = ringError s r 2 := by
  unfold headDistance at hh
  unfold ringHead
  simp only [hcq, Bool.not_true, Bool.false_eq_true, if_false]
  exact if_pos (by simpa using hh)

theorem ringHead_disabled {h : Nat} (hcq : cqEnabled (ringOf s r) = false) : ringHead s r h = s := by
  unfold ringHead
  simp [hcq]

end

theorem wake_host (s : State) : (wake s).host = s.host :=
  (congrArg State.host (wake_frame s) :)

theorem wake_hostBad (s : State) : (wake s).hostBad = s.hostBad :=
  (congrArg State.hostBad (wake_frame s) :)

theorem wake_bridges (s : State) : (wake s).bridges = s.bridges :=
  (congrArg State.bridges (wake_frame s) :)

theorem keepTail_kept {s : State} {r v : Nat} {b : Bridge} (hb : b ∈ (keepTail s r v).bridges) (hworks : b.failed = false) :
    mapGet 0 b.tails r = v := by
  obtain ⟨b', -, rfl⟩ := List.mem_map.1 hb
  by_cases hfailed : b'.failed
  · rw [if_pos hfailed, hfailed] at hworks
    cases hworks
  · rw [if_neg hfailed]
    exact mapGet_mapIns_self ..

/-! ## RING_CTRL -/

/-- Masks that differ outside bits [11:4] leave CQ_TARGET alone. -/
theorem bits_target_congr {v w : Word} (h : ∀ i, 4 ≤ i → i < 12 → v.getLsbD i = w.getLsbD i) :
    bits v.toNat 11 4 = bits w.toNat 11 4 := by
  unfold bits
  apply Nat.eq_of_testBit_eq
  intro i
  simp only [Nat.testBit_mod_two_pow, Nat.testBit_div_two_pow]
  by_cases hi : i < 8
  · have := h (i + 4) (by omega) (by omega)
    simp only [← BitVec.testBit_toNat] at this
    simp [hi, this]
  · simp [hi]

theorem target_masked (v : Word) : bits (v &&& 0x31FFC#32).toNat 11 4 = bits v.toNat 11 4 := by
  refine bits_target_congr fun i h4 h12 => ?_
  rw [BitVec.getLsbD_and]
  have : (0x31FFC#32).getLsbD i = true := by interval_cases i <;> rfl
  rw [this, Bool.and_true]

theorem target_or_two (v : Word) : bits (v ||| 2#32).toNat 11 4 = bits v.toNat 11 4 := by
  refine bits_target_congr fun i h4 h12 => ?_
  rw [BitVec.getLsbD_or]
  have : (2#32).getLsbD i = false := by interval_cases i <;> rfl
  rw [this, Bool.or_false]

/-- An enable bit written joins the mask of the fields. -/
theorem masked_or_bit {v m : Word} {i : Nat} (h : v.getLsbD i = true) :
    v &&& m ||| BitVec.twoPow 32 i = v &&& (m ||| BitVec.twoPow 32 i) := by
  rw [BitVec.and_or_distrib_left, BitVec.and_twoPow, if_pos h]

theorem masked_one {v : Word} (h : v.getLsbD 0 = true) : v &&& 0x31FFC#32 ||| 1#32 = v &&& 0x31FFD#32 := masked_or_bit h

theorem masked_two {v : Word} (h : v.getLsbD 1 = true) : v &&& 0x31FFC#32 ||| 2#32 = v &&& 0x31FFE#32 := masked_or_bit h

theorem masked_three {v : Word} (h : v.getLsbD 0 = true) : v &&& 0x31FFE#32 ||| 1#32 = v &&& 0x31FFF#32 := masked_or_bit h

/-- The ring as a write of RING_CTRL stores it, both enables still clear. -/
def ctrlStored (x : Ring) (v : Word) : Ring := { x with ctrl := v &&& 0x31FFC#32 }

/-- A CQ enabled starts from 0, with phase 1. -/
def cqRestarted (x : Ring) : Ring :=
  { x with
    ctrl := x.ctrl ||| 2#32, cqTail := 0, cqHead := 0, phase := true, written := 0, records := [], coal := 0, oldest := none }

/-- An SQ enabled starts from 0. -/
def sqRestarted (x : Ring) : Ring :=
  { x with ctrl := x.ctrl ||| 1#32, sqHead := 0, sqTail := 0, taken := [], stalled := false }

section

variable {s : State} {r q : Nat}

theorem enableCq_ok (hsize : sizeOk (bits (ringOf s r).size.toNat 12 8) = true)
    (hroom : targeting s r ≤ cqEntries (ringOf s r)) : enableCq s r = setRing s r (cqRestarted (ringOf s r)) := by
  unfold enableCq
  simp only [hsize, hroom, decide_true, Bool.and_self, if_true]
  rfl

theorem enableSq_ok (hsize : sizeOk (bits (ringOf s r).size.toNat 4 0) = true) (htarget : targetOf s r = some q)
    (hcq : cqEnabled (ringOf s q) = true)
    (hroom : targeting s q + sqEntries (ringOf s r) ≤ cqEntries (ringOf s q)) :
    enableSq s r = setRing s r (sqRestarted (ringOf s r)) := by
  unfold enableSq
  simp only [htarget, hcq, hsize, hroom, decide_true, Bool.and_self, if_true]
  rfl

theorem setRing_setRing (s : State) (r : Nat) (x y : Ring) : setRing (setRing s r x) r y = setRing s r y := by
  unfold setRing
  have : mapIns (mapIns s.rings r x) r y = mapIns s.rings r y := by
    induction s.rings with
    | nil => simp [mapIns]
    | cons p rest ih =>
      obtain ⟨k, z⟩ := p
      by_cases hk : k = r
      · simp [mapIns, hk]
      · by_cases hlt : r < k
        · simp [mapIns, hk, hlt]
        · simp [mapIns, hk, hlt, ih]
  rw [this]

theorem targetOf_setRing (s : State) (r p : Nat) (x : Ring) :
    targetOf (setRing s r x) p = trayRing s (ringFn s p) (ringTarget (if p = r then x else ringOf s p)) := by
  unfold targetOf
  rw [ringOf_setRing]
  rfl

/-- A sum over the rings sees a stored ring only through its own summand. -/
theorem foldl_mapIns_congr {f : Nat → Nat × Ring → Nat} {x y : Ring} (h : ∀ t, f t (r, x) = f t (r, y))
    (l : List (Nat × Ring)) (t : Nat) : (mapIns l r x).foldl f t = (mapIns l r y).foldl f t := by
  induction l generalizing t with
  | nil => simp [mapIns, h]
  | cons p rest ih =>
    obtain ⟨k, z⟩ := p
    by_cases hk : k = r
    · simp [mapIns, hk, h]
    · by_cases hlt : r < k
      · simp [mapIns, hk, hlt, h]
      · simp [mapIns, hk, hlt, ih]

/-- What the SQs take of a CQ does not turn on the indices of a ring whose SQ is disabled. -/
theorem targeting_setRing_congr {x y : Ring} (hx : sqEnabled x = false) (hy : sqEnabled y = false)
    (htarget : ringTarget x = ringTarget y) (q : Nat) : targeting (setRing s r x) q = targeting (setRing s r y) q := by
  have hsame : ∀ p, targetOf (setRing s r x) p = targetOf (setRing s r y) p := fun p => by
    rw [targetOf_setRing, targetOf_setRing]
    split <;> simp_all
  unfold targeting
  simp only [hsame]
  exact foldl_mapIns_congr (fun t => by simp [hx, hy]) _ _

/-! ### A write with both enables clear -/

section

variable {v : Word} (hsq : sqEnabled (ringOf s r) = false) (hcq : cqEnabled (ringOf s r) = false)
include hsq hcq

theorem writeRingCtrl_cq (h1 : v.getLsbD 1 = true) (h0 : v.getLsbD 0 = false)
    (hsize : sizeOk (bits (ringOf s r).size.toNat 12 8) = true)
    (hroom : targeting (setRing s r (ctrlStored (ringOf s r) v)) r ≤ cqEntries (ringOf s r)) :
    writeRingCtrl s r v = setRing s r (cqRestarted (ctrlStored (ringOf s r) v)) := by
  have henable := enableCq_ok (s := setRing s r (ctrlStored (ringOf s r) v)) (r := r)
    (by rw [ringOf_setRing_self]; exact hsize) (by rw [ringOf_setRing_self]; exact hroom)
  rw [ringOf_setRing_self, setRing_setRing] at henable
  unfold writeRingCtrl
  simp only [hsq, hcq, h0, h1, Bool.or_self, Bool.false_eq_true, if_false, if_true]
  exact henable

theorem writeRingCtrl_sq (h0 : v.getLsbD 0 = true) (h1 : v.getLsbD 1 = false)
    (hsize : sizeOk (bits (ringOf s r).size.toNat 4 0) = true) (hq : q ≠ r)
    (htarget : trayRing s (ringFn s r) (bits v.toNat 11 4) = some q) (hqcq : cqEnabled (ringOf s q) = true)
    (hroom : targeting (setRing s r (ctrlStored (ringOf s r) v)) q + sqEntries (ringOf s r) ≤ cqEntries (ringOf s q)) :
    writeRingCtrl s r v = setRing s r (sqRestarted (ctrlStored (ringOf s r) v)) := by
  have henable := enableSq_ok (s := setRing s r (ctrlStored (ringOf s r) v)) (r := r) (q := q)
    (by rw [ringOf_setRing_self]; exact hsize)
    (by rw [targetOf_setRing, if_pos rfl, ← htarget, ← target_masked v]; rfl)
    (by rw [ringOf_setRing_ne _ _ hq]; exact hqcq)
    (by rw [ringOf_setRing_ne _ _ hq, ringOf_setRing_self]; exact hroom)
  rw [ringOf_setRing_self, setRing_setRing] at henable
  unfold writeRingCtrl
  simp only [hsq, hcq, h0, h1, Bool.or_self, Bool.false_eq_true, if_false, if_true]
  exact henable

theorem writeRingCtrl_both (h0 : v.getLsbD 0 = true) (h1 : v.getLsbD 1 = true)
    (hcqSize : sizeOk (bits (ringOf s r).size.toNat 12 8) = true) (hsqSize : sizeOk (bits (ringOf s r).size.toNat 4 0) = true)
    (hcqRoom : targeting (setRing s r (ctrlStored (ringOf s r) v)) r ≤ cqEntries (ringOf s r))
    (htarget : trayRing s (ringFn s r) (bits v.toNat 11 4) = some q) (hqcq : q = r ∨ cqEnabled (ringOf s q) = true)
    (hroom : targeting (setRing s r (ctrlStored (ringOf s r) v)) q + sqEntries (ringOf s r) ≤ cqEntries (ringOf s q)) :
    writeRingCtrl s r v = setRing s r (sqRestarted (cqRestarted (ctrlStored (ringOf s r) v))) := by
  have hfirst := enableCq_ok (s := setRing s r (ctrlStored (ringOf s r) v)) (r := r)
    (by rw [ringOf_setRing_self]; exact hcqSize) (by rw [ringOf_setRing_self]; exact hcqRoom)
  rw [ringOf_setRing_self, setRing_setRing] at hfirst
  have hfields : ringTarget (cqRestarted (ctrlStored (ringOf s r) v)) = bits v.toNat 11 4 :=
    (target_or_two _).trans (target_masked v)
  have hroom' : targeting (setRing s r (cqRestarted (ctrlStored (ringOf s r) v))) q + sqEntries (ringOf s r) ≤
      cqEntries (ringOf s q) := by
    rw [targeting_setRing_congr (x := cqRestarted (ctrlStored (ringOf s r) v)) (y := ctrlStored (ringOf s r) v)
      (by simp [sqEnabled, cqRestarted, ctrlStored]) (by simp [sqEnabled, ctrlStored]) (target_or_two _)]
    exact hroom
  have hentries : cqEntries (ringOf (setRing s r (cqRestarted (ctrlStored (ringOf s r) v))) q) = cqEntries (ringOf s q) := by
    rw [ringOf_setRing]
    split
    · next h => rw [h]; rfl
    · rfl
  have hsecond := enableSq_ok (s := setRing s r (cqRestarted (ctrlStored (ringOf s r) v))) (r := r) (q := q)
    (by rw [ringOf_setRing_self]; exact hsqSize)
    (by rw [targetOf_setRing, if_pos rfl, hfields]; exact htarget)
    (by
      rw [ringOf_setRing]
      split
      · simp [cqEnabled, cqRestarted]
      · next hne => exact hqcq.resolve_left hne)
    (by rw [hentries, ringOf_setRing_self]; exact hroom')
  rw [ringOf_setRing_self, setRing_setRing] at hsecond
  unfold writeRingCtrl
  simp only [hsq, hcq, h0, h1, Bool.or_self, Bool.false_eq_true, if_false, if_true]
  exact (congrArg (enableSq · r) hfirst).trans hsecond

end

/-! ### A write with an enable set (R507) -/

section

variable {v : Word}

theorem writeRingCtrl_kept (hon : sqEnabled (ringOf s r) = true ∨ cqEnabled (ringOf s r) = true)
    (h0 : sqEnabled (ringOf s r) = true → v.getLsbD 0 = true) (h1 : cqEnabled (ringOf s r) = true → v.getLsbD 1 = true) :
    writeRingCtrl s r v = s := by
  unfold writeRingCtrl
  rw [if_pos (by simpa using hon)]
  cases hsq : sqEnabled (ringOf s r) <;> cases hcq : cqEnabled (ringOf s r) <;> simp_all

theorem writeRingCtrl_clearsSq (hsq : sqEnabled (ringOf s r) = true) (h0 : v.getLsbD 0 = false)
    (h1 : cqEnabled (ringOf s r) = true → v.getLsbD 1 = true) : writeRingCtrl s r v = disableSq s r := by
  unfold writeRingCtrl
  simp only [hsq, h0, Bool.true_or, if_true, Bool.not_false, Bool.and_self]
  exact if_neg (by simpa using h1)

theorem writeRingCtrl_clearsCq (hsq : sqEnabled (ringOf s r) = false) (hcq : cqEnabled (ringOf s r) = true)
    (h1 : v.getLsbD 1 = false) : writeRingCtrl s r v = disableCq s r := by
  unfold writeRingCtrl
  simp only [hsq, hcq, h1, Bool.false_or, if_true, Bool.false_and, Bool.false_eq_true, if_false, Bool.not_false, Bool.and_self]

end

/-- Is a CQ needed: an enabled SQ names it, or an incomplete command's record goes to it (R280)? -/
def cqBusy (s : State) (r : Nat) : Bool :=
  (s.rings.any fun p => sqEnabled p.2 && targetOf s p.1 == some r) || s.cmds.any fun c => c.cq == r

theorem disableCq_busy (h : cqBusy s r = true) : disableCq s r = ringError s r 6 := if_pos h

theorem disableCq_idle (h : cqBusy s r = false) :
    disableCq s r = setRing s r { ringOf s r with ctrl := (ringOf s r).ctrl &&& ~~~2#32 } :=
  if_neg (Bool.eq_false_iff.1 h)

end

theorem doRingCtrl_open {s : State} {fn ring r : Nat} (v : Word) (hready : s.regs.ready = true)
    (hring : trayRing s fn ring = some r) : doRingCtrl s fn ring v = writeRingCtrl s r v := by
  have hready' : regsOpen s = true := hready
  unfold doRingCtrl
  rw [hready', hring]
  rfl

/-- A write in the ring region reaches that ring's register. -/
theorem doRegisterWrite_ring {s : State} {fn link ring r off : Nat} (v : Word) (hready : s.regs.ready = true)
    (hlink : linkUp s link = true) (hring : ring < 256) (h : trayRing s fn ring = some r) (hoff : off < 64)
    (haligned : off % 4 = 0) : doRegisterWrite s fn link (0x10000 + 64 * ring + off) v = writeRingReg s r off v := by
  have hready' : regsOpen s = true := hready
  unfold doRegisterWrite
  rw [if_neg (by simp [hlink]; omega), if_pos (by simp; omega)]
  unfold ringRegionWrite
  rw [hready', show (0x10000 + 64 * ring + off - 0x10000) / 64 = ring by omega,
    show (0x10000 + 64 * ring + off - 0x10000) % 64 = off by omega, h]
  rfl

end Sys2Proof.Laws
end

section
/-! Doorbells and ring configuration settled (R274 to R280, R507, R508). -/

open Sys2Proof Sys2Proof.Machine

namespace Sys2Proof.Laws

/-- Settles O7: a value in range is stored by `ringTail_inRange`, and the wake leaves all but power and vault. -/
theorem sqTailDoorbellStoresTail : Obligations.SqTailDoorbellStoresTail := by
  unfold Obligations.SqTailDoorbellStoresTail
  intro s link fn ring r v news hready hlink hring hsq hrange
  have hrun : doSqTailDb s link fn ring v news = _ :=
    (doSqTailDb_open news v hready hlink hring).trans (ringTail_inRange hsq hrange)
  refine ⟨_, congrArg Host.Outcome.next hrun, ?_, fun q hq => ?_, wake_host _, wake_hostBad _, wake_idle _, fun b hb hworks => ?_, ?_⟩
  · rw [ringOf_wake, ringOf_setRing_self]
    rfl
  · rw [ringOf_wake, ringOf_setRing_ne _ _ hq]
    rfl
  · rw [wake_bridges] at hb
    exact keepTail_kept hb hworks
  · exact congrArg (fun u : State => { u with
      host := s.host, hostBad := s.hostBad, bridges := s.bridges, rings := s.rings, power := s.power, vault := s.vault })
      (wake_frame _)

/-- Settles O8: a value that releases written slots moves the head (`ringHead_inRange`), and the wake leaves all but power and
vault. -/
theorem cqHeadDoorbellReleasesSlots : Obligations.CqHeadDoorbellReleasesSlots := by
  unfold Obligations.CqHeadDoorbellReleasesSlots
  intro s link fn ring r v hready hlink hring hcq hrange hdist
  have hrun : doCqHeadDb s link fn ring v = _ :=
    (doCqHeadDb_open v hready hlink hring).trans (ringHead_inRange hcq hrange hdist)
  have hself : ringOf (wake (setRing s r (headMoved (ringOf s r) (bits v.toNat 15 0)))) r =
      headMoved (ringOf s r) (bits v.toNat 15 0) := by
    rw [ringOf_wake, ringOf_setRing_self]
  refine ⟨_, congrArg Host.Outcome.next hrun, by rw [hself]; rfl, by rw [hself]; rfl, by rw [hself]; rfl, fun q hq => ?_,
    wake_idle _, ?_⟩
  · rw [ringOf_wake, ringOf_setRing_ne _ _ hq]
  · exact congrArg (fun u : State => { u with rings := s.rings, power := s.power, vault := s.vault }) (wake_frame _)

/-- Settles O9: by whether the half is enabled; out of range the ring reports an error (`ringOf_ringError`). -/
theorem doorbellRangeErrors : Obligations.DoorbellRangeErrors := by
  unfold Obligations.DoorbellRangeErrors
  intro s link fn ring r v hready hlink hring
  have htail := doSqTailDb_open (s := s) ⟨[], s.hostBad⟩ v hready hlink hring
  have hhead := doCqHeadDb_open (s := s) v hready hlink hring
  refine ⟨fun hsq hrange => ?_, fun hsq => ?_, fun hcq hrange => ?_, fun hcq => ?_⟩
  · refine ⟨_, congrArg Host.Outcome.next (htail.trans (ringTail_outOfRange hsq hrange)), ?_, ringError_cause _ _ _,
      ringError_host _ _ _, ringError_cmds _ _ _⟩
    rw [ringOf_ringError, if_pos rfl]
    rfl
  · exact ⟨_, congrArg Host.Outcome.next (htail.trans (ringTail_disabled hsq)), rfl⟩
  · refine ⟨_, congrArg Host.Outcome.next (hhead.trans (ringHead_outOfRange hcq hrange)), ?_, ringError_cause _ _ _,
      ringError_host _ _ _, ringError_cmds _ _ _⟩
    rw [ringOf_ringError, if_pos rfl]
  · exact congrArg Host.Outcome.next (hhead.trans (ringHead_disabled hcq))

/-- Settles O10: which halves restart turns on the two enable bits written (`writeRingCtrl_cq`, `writeRingCtrl_sq`,
`writeRingCtrl_both`). -/
theorem ringEnableRestartsHalf : Obligations.RingEnableRestartsHalf := by
  unfold Obligations.RingEnableRestartsHalf
  intro s fn ring r v hready hring hsq hcq
  have hopen := doRingCtrl_open v hready hring
  refine ⟨fun h1 h0 hsize hroom => ?_, fun h0 h1 hsize q hq htarget hqcq hroom => ?_,
    fun h0 h1 hcqSize hsqSize hcqRoom q htarget hqcq hroom i hi => ?_⟩
  · refine ⟨_, congrArg Host.Outcome.next (hopen.trans (writeRingCtrl_cq hsq hcq h1 h0 hsize hroom)), ?_,
      fun q hq => ringOf_setRing_ne _ _ hq, rfl⟩
    rw [ringOf_setRing_self, cqRestarted, ctrlStored, masked_two h1]
  · refine ⟨_, congrArg Host.Outcome.next (hopen.trans (writeRingCtrl_sq hsq hcq h0 h1 hsize hq htarget hqcq hroom)), ?_,
      fun p hp => ringOf_setRing_ne _ _ hp, rfl⟩
    rw [ringOf_setRing_self, sqRestarted, ctrlStored, masked_one h0]
  · have hrun := hopen.trans (writeRingCtrl_both hsq hcq h0 h1 hcqSize hsqSize hcqRoom htarget hqcq hroom)
    refine ⟨setRing s r (sqRestarted (cqRestarted (ctrlStored (ringOf s r) v))), ?_, ?_,
      fun p hp => ringOf_setRing_ne _ _ hp, rfl⟩
    · rcases hi with rfl | rfl <;> exact congrArg Host.Outcome.next hrun
    · rw [ringOf_setRing_self, sqRestarted, cqRestarted, ctrlStored, masked_two h1, masked_three h0]

/-- Settles O11: an enabled ring takes only clears of its enables (`writeRingCtrl_kept`, `writeRingCtrl_clearsSq`,
`writeRingCtrl_clearsCq`), and a CQ that is needed stays enabled (`disableCq_busy`). -/
theorem enabledRingTakesOnlyClears : Obligations.EnabledRingTakesOnlyClears := by
  unfold Obligations.EnabledRingTakesOnlyClears
  intro s fn ring r v hready hring
  have hopen := doRingCtrl_open v hready hring
  refine ⟨fun link off hlink hon hlt hoff => congrArg Host.Outcome.next ?_, fun hon h0 h1 => ?_, fun hsq h0 h1 => ?_,
    fun hcq h1 hsq => ⟨fun hnamed hcmds => ?_, fun hneeded => ?_⟩⟩
  · simp only [List.mem_cons, List.not_mem_nil, or_false] at hoff
    rw [doRegisterWrite_ring v hready hlink hlt hring (by omega) (by omega)]
    unfold writeRingReg
    rw [if_neg (by omega), if_neg (by omega), if_pos (by simpa using hon)]
  · have hkept := hopen.trans (writeRingCtrl_kept hon h0 h1)
    exact ⟨congrArg Host.Outcome.next hkept, congrArg Host.Outcome.next hkept⟩
  · exact ⟨_, congrArg Host.Outcome.next (hopen.trans (writeRingCtrl_clearsSq hsq h0 h1)), ringOf_setRing_self _ _ _,
      fun q hq => ringOf_setRing_ne _ _ hq, rfl⟩
  · have hidle : cqBusy s r = false := by
      unfold cqBusy
      rw [hnamed]
      simpa using hcmds
    exact ⟨_, congrArg Host.Outcome.next (hopen.trans ((writeRingCtrl_clearsCq hsq hcq h1).trans (disableCq_idle hidle))),
      ringOf_setRing_self _ _ _, fun q hq => ringOf_setRing_ne _ _ hq, rfl⟩
  · have hbusy : cqBusy s r = true := by
      unfold cqBusy
      rw [Bool.or_eq_true]
      exact hneeded.imp id fun ⟨c, hc, hcq⟩ => List.any_eq_true.2 ⟨c, hc, beq_iff_eq.2 hcq⟩
    refine ⟨_, congrArg Host.Outcome.next (hopen.trans ((writeRingCtrl_clearsCq hsq hcq h1).trans (disableCq_busy hbusy))), ?_,
      ringError_cause _ _ _, ringError_cmds _ _ _⟩
    rw [ringOf_ringError, if_pos rfl]

/-- Settles O12: every offset of the ring region by `doRegisterWrite_ring`. -/
theorem disabledRingStoresRegisters : Obligations.DisabledRingStoresRegisters := by
  unfold Obligations.DisabledRingStoresRegisters
  intro s fn link ring r v hready hlink hlt hring hsq hcq w
  have hw {off : Nat} (hoff : off < 64) (haligned : off % 4 = 0) {u : State} (hu : writeRingReg s r off v = u) :
      w off = .next u :=
    congrArg Host.Outcome.next ((doRegisterWrite_ring v hready hlink hlt hring hoff haligned).trans hu)
  have hoff : (sqEnabled (ringOf s r) || cqEnabled (ringOf s r)) = false := by rw [hsq, hcq]; rfl
  refine ⟨hw (by decide) (by decide) ?_, hw (by decide) (by decide) ?_, hw (by decide) (by decide) ?_,
    hw (by decide) (by decide) ?_, hw (by decide) (by decide) ?_, hw (by decide) (by decide) ?_,
    hw (by decide) (by decide) ?_, fun q x => ringOf_setRing s r q x⟩
  all_goals
    unfold writeRingReg
    simp [hoff]

end Sys2Proof.Laws
end

section
/-! SUPPORT. Registers that clear by ones, the regions of BAR0, virtual functions and function-level resets (R303 to R309, R497). -/

open Sys2Proof Sys2Proof.Machine

namespace Sys2Proof.Laws

/-! ## Bits that clear by ones, and the regions of BAR0 -/

theorem getLsbD_and_not {w v : Word} {b : Nat} (hb : b < 32) : (w &&& ~~~v).getLsbD b = (w.getLsbD b && !v.getLsbD b) := by
  simp [hb]

theorem doRingErrClear_set {s : State} {fn ring r : Nat} {v : Word} (hready : s.regs.ready = true)
    (hring : trayRing s fn ring = some r) (h1 : v.getLsbD 1 = true) :
    doRingErrClear s fn ring v = setRing s r { ringOf s r with ringErr := false, errCode := 0 } := by
  have hready' : regsOpen s = true := hready
  unfold doRingErrClear
  rw [hready', h1, hring]
  rfl

theorem doRingErrClear_clear {s : State} {fn ring : Nat} {v : Word} (h1 : v.getLsbD 1 = false) :
    doRingErrClear s fn ring v = s := if_pos (by rw [h1]; simp)

/-- Below the first page of rings, and between the pages, the PF's writes reach the status registers alone. -/
theorem doRegisterWrite_status {s : State} {link off : Nat} (v : Word) (hlink : linkUp s link = true) (haligned : off % 4 = 0)
    (hoff : off < 0x10000 ∨ (0x14000 ≤ off ∧ off < 0x100000) ∨ (0x202000 ≤ off ∧ off < 0x300000) ∨ 0x300200 ≤ off) :
    doRegisterWrite s 0 link off v = statusRegionWrite s off v := by
  unfold doRegisterWrite
  rw [if_neg (by simp [hlink, haligned]), if_neg (by simp; omega), if_neg (by simp; omega), if_neg (by simp; omega),
    if_neg (by simp), if_neg (by simp; omega)]

theorem doRegisterWrite_unaligned {s : State} {fn link off : Nat} (v : Word) (haligned : off % 4 ≠ 0) :
    doRegisterWrite s fn link off v = s := by
  unfold doRegisterWrite
  exact if_pos (by simp [haligned])

theorem statusRegionWrite_other {s : State} {off : Nat} (v : Word)
    (hoff : off ≠ 0x30 ∧ off ≠ 0x34 ∧ off ≠ 0x38 ∧ off ≠ 0x3C) : statusRegionWrite s off v = s := by
  obtain ⟨h30, h34, h38, h3C⟩ := hoff
  unfold statusRegionWrite
  rw [if_neg h30, if_neg h34, if_neg h38, if_neg h3C]

/-! ## Enabling a VF (R306, R308) -/

theorem withIndex_eq_map {α : Type} (d : α) (l : List α) : withIndex l = (List.range l.length).map fun i => (i, nth d l i) := by
  refine List.ext_getElem (by simp [withIndex]) fun i h1 h2 => ?_
  have hi : i < l.length := by simpa using h1
  simp [withIndex, nth, hi]

/-- The VFs other than v that are enabled. -/
theorem otherVfs_eq (s : State) (v : Nat) (hlen : s.vfs.length = 16) :
    (((withIndex s.vfs).filter fun p => p.1 != v && p.2.enabled).map fun p => p.2) =
      ((List.range 16).filter fun w => w != v && (vfOf s w).enabled).map (vfOf s) := by
  rw [withIndex_eq_map Vf.reset, hlen, List.filter_map, List.map_map]
  rfl

/-- A sum over those chosen or equal to v has v's summand and the others'. -/
theorem sum_filter_or {l : List Nat} (hnodup : l.Nodup) {v : Nat} (hv : v ∈ l) (p : Nat → Bool) (f : Nat → Nat) :
    ((l.filter fun w => w == v || p w).map f).sum = f v + ((l.filter fun w => w != v && p w).map f).sum := by
  induction l with
  | nil => cases hv
  | cons x xs ih =>
    obtain ⟨hx, hnodup⟩ := List.nodup_cons.1 hnodup
    by_cases hxv : x = v
    · subst hxv
      have hrest : (xs.filter fun w => w == x || p w) = xs.filter fun w => w != x && p w := by
        apply List.filter_congr
        intro w hw
        have hne : w ≠ x := fun h => hx (h ▸ hw)
        rw [beq_false_of_ne hne, bne_iff_ne.2 hne, Bool.false_or, Bool.true_and]
      simp [hrest]
    · have hv' : v ∈ xs := (List.mem_cons.1 hv).resolve_left fun h => hxv h.symm
      have := ih hnodup hv'
      by_cases hp : p x
      · simp [hxv, hp, this]
        omega
      · simp [hxv, hp, this]

theorem foldl_add_eq_sum {α : Type} (f : α → Nat) (l : List α) (t : Nat) :
    l.foldl (fun t y => t + f y) t = t + (l.map f).sum := by
  induction l generalizing t with
  | nil => rfl
  | cons x xs ih => simp [ih, Nat.add_assoc]

/-- The stream range of a VF, and the vectors it asks for. -/
def vfStreamBase (y : Vf) : Nat := bits y.streamBase.toNat 15 0
def vfStreamCount (y : Vf) : Nat := bits y.streamCount.toNat 16 0
def vfVectors (y : Vf) : Nat := bits y.vectors.toNat 9 0

/-- When a VF may be enabled: its ranges meet no other enabled VF's, and the vectors suffice. -/
theorem vfOk_iff {s : State} {v : Nat} (hv : v < 16) (hlen : s.vfs.length = 16) :
    vfOk s v = true ↔
      (∀ w, w < 16 → w ≠ v → (vfOf s w).enabled = true →
        overlap (vfFirst (vfOf s v)) (vfCount (vfOf s v)) (vfFirst (vfOf s w)) (vfCount (vfOf s w)) = false ∧
        overlap (vfStreamBase (vfOf s v)) (vfStreamCount (vfOf s v)) (vfStreamBase (vfOf s w)) (vfStreamCount (vfOf s w)) =
          false) ∧
      (pfVectors s).length + (((List.range 16).filter fun w => w == v || (vfOf s w).enabled).map fun w =>
        vfVectors (vfOf s w)).sum ≤ 512 := by
  unfold vfOk
  simp only [otherVfs_eq s v hlen, Bool.and_eq_true, decide_eq_true_eq]
  refine and_congr ?_ ?_
  · simp only [List.all_map, List.all_eq_true, List.mem_filter, List.mem_range, Function.comp, Bool.and_eq_true,
      Bool.not_eq_true', bne_iff_ne, and_imp]
    rfl
  · change (vfOf s v :: _).foldl (fun t y => t + vfVectors y) _ ≤ 512 ↔ _
    rw [foldl_add_eq_sum vfVectors, sum_filter_or List.nodup_range (List.mem_range.2 hv) (fun w => (vfOf s w).enabled)
      fun w => vfVectors (vfOf s w), List.map_cons, List.sum_cons, List.map_map]
    rfl

/-- One VF changed: it reads as changed, every other as before. -/
theorem vfOf_modNth (s : State) (v w : Nat) (f : Vf → Vf) :
    vfOf { s with vfs := modNth s.vfs v f } w = if w = v ∧ v < s.vfs.length then f (vfOf s v) else vfOf s w :=
  nth_modNth _ _ _ _ _

theorem doVfEnable_disabled {s : State} {v : Nat} (hready : s.regs.ready = true) (hoff : (vfOf s v).enabled = false) :
    doVfEnable s v = { s with vfs := modNth s.vfs v fun x => { x with enabled := vfOk s v, cfgErr := !vfOk s v } } := by
  have hready' : regsOpen s = true := hready
  exact if_neg (by rw [hready', hoff]; decide)

/-! ## Function-level resets (R309) -/

theorem mem_flrCmds {s : State} {fn : Nat} {c : Cmd} (hc : c ∈ flrCmds s fn) (hfn : c.fn = fn) :
    c.cq = 256 ∧ onlyHeldAbort (pktOp c) = true := by
  unfold flrCmds at hc
  obtain ⟨d, hd, rfl⟩ := List.mem_map.1 hc
  by_cases h : d.fn = fn
  · have hkept := (List.mem_filter.1 hd).2
    simp only [h, bne_self_eq_false, Bool.false_or, Bool.and_eq_true] at hkept
    rw [if_pos (beq_iff_eq.2 h)]
    exact ⟨rfl, hkept.1.1⟩
  · rw [if_neg (by simpa using h)] at hfn
    exact absurd hfn h

theorem mem_flrCmds_other {s : State} {fn : Nat} {c : Cmd} (hc : c ∈ s.cmds) (hfn : c.fn ≠ fn) : c ∈ flrCmds s fn := by
  unfold flrCmds
  refine List.mem_map.2 ⟨c, List.mem_filter.2 ⟨hc, by simp [hfn]⟩, if_neg (by simpa using hfn)⟩

/-- A function-level reset before the registers of the PF: what leaves with the function's commands. -/
def flrCore (s : State) (fn : Nat) : State :=
  releaseMoves { s with
    barrierSt := s.barrierSt.filter fun b => !(s.cmds.any fun c => c.fn == fn && c.id == b.id)
    cmds := flrCmds s fn
    rings := s.rings.filter fun p => !(ringFn s p.1 == fn)
    unrecorded := s.unrecorded.filter fun p => !(ringFn s p.1 == fn)
    regs := { s.regs with
      msixTable := s.regs.msixTable.filter fun p => p.1 / 2 ^ 24 != fn
      msixPending := s.regs.msixPending.filter fun p => p / 512 != fn } }

theorem flr_pf (s : State) : flr s 0 =
    { flrCore s 0 with
      regs := { (flrCore s 0).regs with
        flagSummary := 0#32, eventCause := 0#32, eventEnable := 0#32, eventVector := 0#32, wakeTolerance := 0#32 }
      power := { s.power with cap := 300 } } := rfl

theorem flr_vf {s : State} {fn : Nat} (h : fn ≠ 0) : flr s fn = flrCore s fn := if_neg h

/-- The barrier that stays is one whose BARRIER stays. -/
theorem flrCore_barrier (s : State) (fn : Nat) (b : BarrierSt) :
    (flrCore s fn).barrierSt = some b ↔ s.barrierSt = some b ∧ ∀ c ∈ s.cmds, c.id = b.id → c.fn ≠ fn := by
  change s.barrierSt.filter _ = some b ↔ _
  rw [Option.filter_eq_some_iff]
  refine and_congr_right fun _ => ?_
  simp only [Bool.not_eq_true', List.any_eq_false, Bool.and_eq_true, beq_iff_eq, not_and]
  exact forall₂_congr fun c _ => ⟨fun h hid hfn => h hfn hid, fun h hfn hid => h hid hfn⟩

theorem doFlr_runs {s : State} {fn : Nat} (hready : s.regs.ready = true) (hfn : fn = 0 ∨ (vfOf s (fn - 1)).enabled = true) :
    doFlr s fn = flr s fn := by
  refine if_neg ?_
  rw [hready]
  rcases hfn with rfl | hon
  · simp
  · simp [hon]

/-- A VF disabled: its reset, and the enable clear. -/
theorem doVfDisable_enabled {s : State} {v : Nat} (hon : (vfOf s v).enabled = true) :
    doVfDisable s v = { flrCore s (v + 1) with vfs := modNth s.vfs v fun x => { x with enabled := false } } := by
  unfold doVfDisable
  rw [if_neg (by rw [hon]; decide), flr_vf (Nat.succ_ne_zero v)]
  rfl

theorem doVfDisable_disabled {s : State} {v : Nat} (hoff : (vfOf s v).enabled = false) : doVfDisable s v = s :=
  if_pos (by rw [hoff]; rfl)

/-- Disabling a VF leaves it disabled, no other enabled that was not, and streams and host memory as they were. -/
theorem doVfDisable_leaves (s : State) (v : Nat) :
    (doVfDisable s v).vfs.length = s.vfs.length ∧ (doVfDisable s v).streams = s.streams ∧ (doVfDisable s v).host = s.host ∧
      (v < s.vfs.length → (vfOf (doVfDisable s v) v).enabled = false) ∧
      ∀ w, (vfOf s w).enabled = false → (vfOf (doVfDisable s v) w).enabled = false := by
  by_cases hon : (vfOf s v).enabled = true
  · rw [doVfDisable_enabled hon]
    have hread : ∀ w, vfOf { flrCore s (v + 1) with vfs := modNth s.vfs v fun x => { x with enabled := false } } w = _ :=
      fun w => vfOf_modNth s v w _
    refine ⟨modNth_length _ _ _, rfl, rfl, fun hv => ?_, fun w hw => ?_⟩
    · rw [hread, if_pos ⟨rfl, hv⟩]
    · rw [hread]
      split
      · rfl
      · exact hw
  · rw [Bool.not_eq_true] at hon
    rw [doVfDisable_disabled hon]
    exact ⟨rfl, rfl, rfl, fun _ => hon, fun _ hw => hw⟩

/-- Disabling VFs one after another leaves each of them disabled. -/
theorem disableVfs_leaves (l : List Nat) (s : State) (hl : ∀ v ∈ l, v < s.vfs.length) :
    (l.foldl doVfDisable s).streams = s.streams ∧ (l.foldl doVfDisable s).host = s.host ∧
      ∀ w, w ∈ l ∨ (vfOf s w).enabled = false → (vfOf (l.foldl doVfDisable s) w).enabled = false := by
  induction l generalizing s with
  | nil => exact ⟨rfl, rfl, fun w hw => hw.resolve_left List.not_mem_nil⟩
  | cons v vs ih =>
    obtain ⟨hlen, hstreams, hhost, hself, hothers⟩ := doVfDisable_leaves s v
    obtain ⟨hstreams', hhost', hoff⟩ := ih (doVfDisable s v) fun w hw => hlen ▸ hl w (List.mem_cons_of_mem _ hw)
    refine ⟨hstreams'.trans hstreams, hhost'.trans hhost, fun w hw => hoff w ?_⟩
    rcases hw with hw | hw
    · rcases List.mem_cons.1 hw with rfl | hw
      · exact .inr (hself (hl w List.mem_cons_self))
      · exact .inl hw
    · exact .inr (hothers w hw)

/-! ## The owner of SR-IOV (R497) -/

theorem doSriov_owned {s : State} {link o : Nat} (hlink : linkUp s link = true) (howner : s.regs.sriovOwner = some o)
    (on : Bool) : doSriov s link on =
      if on || o != link then s else releaseSriov ((List.range 16).foldl doVfDisable s) := by
  unfold doSriov
  rw [if_neg (by rw [hlink]; decide), howner]

theorem releaseSriov_owner (s : State) : (releaseSriov s).regs.sriovOwner = none := rfl
theorem releaseSriov_streams (s : State) : (releaseSriov s).streams = s.streams := rfl
theorem releaseSriov_host (s : State) : (releaseSriov s).host = s.host := rfl
theorem vfOf_releaseSriov (s : State) (v : Nat) : vfOf (releaseSriov s) v = vfOf s v := rfl

end Sys2Proof.Laws
end

section
/-! Registers that clear by ones, BAR0's other registers, virtual functions, function-level resets and reads with an effect
settled (R18, R303 to R309, R361, R497, R508). -/

open Sys2Proof Sys2Proof.Machine

namespace Sys2Proof.Laws

/-- Settles O13: each register is masked by the complement of the value written (`getLsbD_and_not`). -/
theorem errorAndCauseBitsClear : Obligations.ErrorAndCauseBitsClear := by
  unfold Obligations.ErrorAndCauseBitsClear
  refine ⟨fun s fn ring r v hready hring => ⟨fun h1 => ?_, fun h1 => ?_⟩, fun s v => ⟨?_, ?_⟩⟩
  · exact congrArg Host.Outcome.next (doRingErrClear_set hready hring h1)
  · exact congrArg Host.Outcome.next (doRingErrClear_clear h1)
  · exact ⟨_, rfl, fun b hb => getLsbD_and_not hb, rfl⟩
  · exact ⟨_, rfl, fun b hb => getLsbD_and_not hb, rfl⟩

/-- Settles O14: all these offsets lie in the status region (`doRegisterWrite_status`), which writes four of them alone. -/
theorem statusRegisterWrites : Obligations.StatusRegisterWrites := by
  unfold Obligations.StatusRegisterWrites
  intro s link v hlink
  refine ⟨congrArg Host.Outcome.next (doRegisterWrite_status v hlink (by decide) (by decide)),
    congrArg Host.Outcome.next (doRegisterWrite_status v hlink (by decide) (by decide)),
    fun off hoff => congrArg Host.Outcome.next ?_, fun off hoff => congrArg Host.Outcome.next ?_⟩
  · simp only [List.mem_cons, List.not_mem_nil, or_false] at hoff
    rw [doRegisterWrite_status v hlink (by omega) (by omega), statusRegionWrite_other v (by omega)]
  · by_cases haligned : off % 4 = 0
    · rw [doRegisterWrite_status v hlink haligned (by omega), statusRegionWrite_other v (by omega)]
    · exact doRegisterWrite_unaligned v haligned

/-- Settles O15: a VF enables where `vfOk_iff` says so, is disabled with its reset (`doVfDisable_enabled`), and the owner of SR-IOV
disables them all (`disableVfs_leaves`). -/
theorem virtualFunctionsAndTheirOwner : Obligations.VirtualFunctionsAndTheirOwner := by
  unfold Obligations.VirtualFunctionsAndTheirOwner
  refine ⟨fun s v hready hv hlen => ⟨fun hoff => ?_, fun hon => ?_⟩, fun s link hlink => ⟨fun hfree => ?_,
    fun o howner hother b => ?_, fun howner hlen => ?_⟩⟩
  · intro sb sc ok
    have hok : vfOk s v = true ↔ ok := vfOk_iff hv hlen
    refine ⟨_, congrArg Host.Outcome.next (doVfEnable_disabled hready hoff), fun h => ?_, fun h => ?_, fun w hw => ?_, rfl⟩
    · rw [vfOf_modNth, if_pos ⟨rfl, hlen ▸ hv⟩, hok.2 h]
      rfl
    · rw [vfOf_modNth, if_pos ⟨rfl, hlen ▸ hv⟩, Bool.eq_false_iff.2 (mt hok.1 h)]
      rfl
    · rw [vfOf_modNth, if_neg fun h => hw h.1]
  · have hready' : regsOpen s = true := hready
    have hrun : (if regsOpen s then doVfDisable s v else s) = _ := (if_pos hready').trans (doVfDisable_enabled hon)
    refine ⟨_, congrArg Host.Outcome.next hrun, ?_, fun w hw => ?_, rfl, rfl, rfl, fun c hc hfn => mem_flrCmds hc hfn,
      fun c hc hfn => mem_flrCmds_other hc hfn, fun p hp => ?_, fun p hp hfn => ?_, rfl⟩
    · exact (vfOf_modNth s v v _).trans (if_pos ⟨rfl, hlen ▸ hv⟩)
    · exact (vfOf_modNth s v w _).trans (if_neg fun h => hw h.1)
    · exact fun h => absurd (List.mem_filter.1 hp).2 (by simp [h])
    · exact List.mem_filter.2 ⟨hp, by simp [hfn]⟩
  · refine congrArg Host.Outcome.next ?_
    unfold doSriov
    rw [hlink, hfree]
    rfl
  · exact congrArg Host.Outcome.next ((doSriov_owned hlink howner b).trans (if_pos (by rw [bne_iff_ne.2 hother, Bool.or_true])))
  · have hrun := (doSriov_owned hlink howner false).trans (if_neg (by rw [bne_self_eq_false]; decide))
    obtain ⟨hstreams, hhost, hoff⟩ := disableVfs_leaves (List.range 16) s (by simp [hlen])
    exact ⟨_, congrArg Host.Outcome.next hrun, releaseSriov_owner _, fun v hv =>
      (congrArg Vf.enabled (vfOf_releaseSriov _ v)).trans (hoff v (.inl (List.mem_range.2 hv))),
      (releaseSriov_streams _).trans hstreams, (releaseSriov_host _).trans hhost⟩

/-- Settles O16: what every reset drops stands in `flrCore`; the PF's registers are reset beside it (`flr_pf`). -/
theorem functionResetDropsCommands : Obligations.FunctionResetDropsCommands := by
  unfold Obligations.FunctionResetDropsCommands
  intro s fn hready hfn
  have hrings : ∀ p, p ∈ (flrCore s fn).rings ↔ p ∈ s.rings ∧ ringFn s p.1 ≠ fn := fun p => by
    change p ∈ s.rings.filter _ ↔ _
    simp
  have htable : ∀ p ∈ (flrCore s fn).regs.msixTable, p.1 / 2 ^ 24 ≠ fn := fun p hp => by
    simpa using (List.mem_filter.1 hp).2
  have hpending : ∀ p ∈ (flrCore s fn).regs.msixPending, p / 512 ≠ fn := fun p hp => by
    simpa using (List.mem_filter.1 hp).2
  have hhomes : ∀ p ∈ s.homes, p.1 ∉ s.moving → p ∈ (flrCore s fn).homes := fun p hp hstill =>
    List.mem_filter.2 ⟨hp, by simp [hstill]⟩
  have hhomes' : ∀ p ∈ (flrCore s fn).homes, p ∈ s.homes := fun p hp => (List.mem_filter.1 hp).1
  have hmoving : ∀ j, j ∈ (flrCore s fn).moving ↔ j ∈ s.moving ∧ stepOnStream { s with cmds := (flrCore s fn).cmds } j = true :=
    fun j => List.mem_filter
  by_cases hpf : fn = 0
  · subst hpf
    refine ⟨_, congrArg Host.Outcome.next ((doFlr_runs hready hfn).trans (flr_pf s)), rfl, flrCore_barrier s 0, hrings, htable,
      hpending, hhomes, hhomes', hmoving, fun _ => ⟨rfl, rfl, rfl, rfl, rfl, rfl⟩, fun h => absurd rfl h, rfl⟩
  · refine ⟨_, congrArg Host.Outcome.next ((doFlr_runs hready hfn).trans (flr_vf hpf)), rfl, flrCore_barrier s fn, hrings, htable,
      hpending, hhomes, hhomes', hmoving, fun h => absurd h hpf, fun _ => ⟨rfl, rfl⟩, rfl⟩

/-- Settles O17: through a trained link the latch of that link alone changes (`nth_modNth`); the count shows from the end of step 6. -/
theorem effectfulReadsAnswer : Obligations.EffectfulReadsAnswer := by
  unfold Obligations.EffectfulReadsAnswer
  intro s link hlt
  refine ⟨fun hup => ?_, fun hup => ?_, fun hdown => ⟨?_, ?_⟩, fun hboot => ?_, fun hboot => ?_⟩
  · have hrun : doTrayCountLoRead s link = _ := if_neg (by rw [hup]; decide)
    refine ⟨_, congrArg Host.Outcome.next hrun, rfl, ?_, fun l hl => ?_, rfl⟩
    · exact congrArg HostLink.latch ((nth_modNth _ _ _ _ _).trans (if_pos ⟨rfl, hlt⟩))
    · exact (nth_modNth _ _ _ _ _).trans (if_neg fun h => hl h.1)
  · exact congrArg Host.Outcome.next (if_neg (by rw [hup]; decide))
  · exact congrArg Host.Outcome.next (if_pos (by rw [hdown]; rfl))
  · exact congrArg Host.Outcome.next (if_pos (by rw [hdown]; rfl))
  · simp [visibleCount, countVisible, hboot]
  · simp [visibleCount, countVisible, hboot]

end Sys2Proof.Laws
end

section
/-! SUPPORT. Acceptance: the ring that is served, the command an entry makes, a ring that stalls (R279, R281, R291, R294, R297, R299,
R311). -/

open Sys2Proof Sys2Proof.Machine

namespace Sys2Proof.Laws

/-! ## What acceptance makes of an entry -/

theorem not_stalled_of_ringOffer {s : State} {r : Nat} {o : Nat × Bool} (h : ringOffer s r = some o) :
    (ringOf s r).stalled = false := by
  by_contra hstalled
  rw [Bool.not_eq_false] at hstalled
  unfold ringOffer at h
  simp only [hstalled, Bool.or_true, Bool.true_or, if_true] at h
  split at h <;> cases h

/-- The command of an entry by its verdict alone, before deadlines and launch ticks. -/
def verdictCmd (s : State) (q : Req) (cq idx : Nat) (t : Tick) (st dt : Nat) : Cmd :=
  { id := s.nextId, fn := q.fn, ring := q.ring, index := idx, cq := cq, packet := q.p, accept := t, start := t
    phase := if st = 0 then .held else .executed, status := st, detail := dt, cflags := 0, late := false
    modeCtrl := q.mode, ctxs := if st = 0 then snapshotStreams s q else [], commits := [], fixed := none
    notBefore := 0, skips := [], replayed := false, reserved := [], began := false
    behind := if isStepOp q.op then olderStep s else none, hang := 0, freed := t }

/-- Has an ABORT_ON_LATE entry's deadline come by tick t (R299)? -/
def lateEntry (q : Req) (t : Tick) : Prop := bit (q.f 1 1) 0 = true ∧ q.f 8 8 ≠ 0 ∧ q.f 8 8 ≤ t

section

variable {s : State} {q : Req} {cq idx : Nat} {t : Tick} {st dt : Nat}

theorem newCmd_late (hv : validate s q = (st, dt)) (hst : st = 0 ∨ st = 0x23) (hlate : lateEntry q t) : newCmd s q cq idx t =
    { verdictCmd s q cq idx t st dt with phase := .executed, status := 0x40, detail := 1, fixed := some t } := by
  obtain ⟨habort, hset, hcome⟩ := hlate
  unfold newCmd
  rw [hv]
  exact if_pos (by simp [habort, hset, hcome, hst])

theorem newCmd_launched (hv : validate s q = (0, dt)) (hlate : ¬ lateEntry q t) (hop : q.op = 0x73) (hcome : q.f 0x20 8 ≤ t) :
    newCmd s q cq idx t = { verdictCmd s q cq idx t 0 dt with phase := .executed, late := true, fixed := some t } := by
  unfold newCmd
  rw [hv]
  exact (if_neg (by simpa [lateEntry] using hlate)).trans (if_pos (by simp [hop, hcome]))

theorem newCmd_plain (hv : validate s q = (st, dt)) (hlate : st = 0 ∨ st = 0x23 → ¬ lateEntry q t)
    (hlaunch : st = 0 → q.op = 0x73 → t < q.f 0x20 8) : newCmd s q cq idx t = verdictCmd s q cq idx t st dt := by
  unfold newCmd
  rw [hv]
  refine (if_neg ?_).trans (if_neg ?_)
  · intro h
    simp only [Bool.and_eq_true, Bool.or_eq_true, decide_eq_true_eq] at h
    obtain ⟨⟨hst, habort⟩, hset⟩ := h
    exact hlate hst ⟨habort, hset⟩
  · intro h
    simp only [Bool.and_eq_true, decide_eq_true_eq] at h
    obtain ⟨⟨hst, hop⟩, hcome⟩ := h
    exact Nat.not_lt.2 hcome (hlaunch hst hop)

end

/-- Whatever its verdict, the command holds the entry's bytes and where it came from, and stages nothing. -/
theorem newCmd_origin (s : State) (q : Req) (cq idx : Nat) (t : Tick) : let c := newCmd s q cq idx t
    c.packet = q.p ∧ c.fn = q.fn ∧ c.ring = q.ring ∧ c.index = idx ∧ c.cq = cq ∧ c.accept = t ∧ c.modeCtrl = q.mode ∧
      c.id = s.nextId ∧ c.commits = [] := by
  intro c
  have hc : newCmd s q cq idx t = c := rfl
  clear_value c
  unfold newCmd at hc
  dsimp only at hc
  split at hc
  · subst hc
    exact ⟨rfl, rfl, rfl, rfl, rfl, rfl, rfl, rfl, rfl⟩
  · split at hc <;> subst hc <;> exact ⟨rfl, rfl, rfl, rfl, rfl, rfl, rfl, rfl, rfl⟩

/-! ## Joining the tray, and stalling -/

theorem ringOf_joinCommand (s : State) (r : Nat) (ahead : Bool) (c : Cmd) (q : Nat) :
    ringOf (joinCommand s r ahead c) q = if q = r then takeEntry (ringOf s r) c.index else ringOf s q := by
  have key (u : State) (hu : ∀ p, ringOf u p = ringOf s p) (cs : List Cmd) (n : Nat) (l : List Nat) :
      ringOf (wake { setRing u r (takeEntry (ringOf u r) c.index) with cmds := cs, nextId := n, served := l }) q =
        if q = r then takeEntry (ringOf s r) c.index else ringOf s q := by
    rw [ringOf_wake]
    refine (ringOf_setRing u r q _).trans ?_
    rw [hu, hu]
  unfold joinCommand
  dsimp only
  split
  · exact key (logAer s r) (ringOf_logAer s r) _ _ _
  · exact key s (fun _ => rfl) _ _ _

theorem joinCommand_idle (s : State) (r : Nat) (ahead : Bool) (c : Cmd) : (joinCommand s r ahead c).power.idle = 0 :=
  wake_idle _

theorem joinCommand_stamp_frame (s : State) (t : Tick) (r : Nat) (ahead : Bool) (c : Cmd) :
    { joinCommand (stamp s t) r ahead c with
      now := s.now, cmds := s.cmds, nextId := s.nextId, rings := s.rings, served := s.served, links := s.links
      power := s.power, vault := s.vault } = s :=
  congrArg (fun u : State => { u with now := s.now }) (joinCommand_frame (stamp s t) r ahead c)

/-- A ring whose entry cannot be read: it reports code 0x4 and stalls, and no command joins. -/
theorem stallRing_leaves (s : State) (r : Nat) :
    (stallRing s r).cmds = s.cmds ∧ (stallRing s r).host = s.host ∧ (stallRing s r).regs.eventCause.getLsbD 9 = true ∧
      ringOf (stallRing s r) r = { ringOf s r with
        stalled := true, ringErr := true, errCode := if (ringOf s r).ringErr then (ringOf s r).errCode else 4 } := by
  refine ⟨ringError_cmds s r 4, ringError_host s r 4, ringError_cause s r 4, ?_⟩
  unfold stallRing
  rw [ringOf_setRing_self, ringOf_ringError, if_pos rfl]

section

variable {s : State} {t : Tick}

theorem doCommandAccept_closed (h : accepting s = false) : doCommandAccept s t = stamp s t :=
  if_pos (by rw [show accepting (stamp s t) = accepting s from rfl, h]; rfl)

theorem doCommandAccept_picked {r i : Nat} {ahead : Bool} (h : accepting s = true)
    (hpick : pickRing (stamp s t) = some (r, i, ahead)) : doCommandAccept s t = takeCommand (stamp s t) r i ahead := by
  have h' : accepting (stamp s t) = true := h
  unfold doCommandAccept
  dsimp only
  rw [h', hpick]
  rfl

end

/-- The request that the entry at place i of ring r makes. -/
def entryReq (s : State) (r i : Nat) : Req := ⟨ringFn s r, r, hostBytes s (sqBase (ringOf s r) + 64 * i) 64, s.regs.modeCtrl⟩

/-- The command that the entry at place i of ring r becomes on a tick, its record reserved in CQ q. -/
def entryCmd (s : State) (r i q : Nat) (t : Tick) : Cmd := newCmd (stamp s t) (entryReq s r i) q i (max s.now t)

theorem entryCmd_packet (s : State) (r i q : Nat) (t : Tick) :
    (entryCmd s r i q t).packet = hostBytes s (sqBase (ringOf s r) + 64 * i) 64 := by
  obtain ⟨hpacket, -⟩ : (entryCmd s r i q t).packet = _ ∧ _ := newCmd_origin ..
  exact hpacket

theorem takeCommand_unreadable {s : State} {r i : Nat} {ahead : Bool} (t : Tick)
    (h : hostOk s (sqBase (ringOf s r) + 64 * i) 64 = false) : takeCommand (stamp s t) r i ahead = stallRing (stamp s t) r :=
  if_pos (by rw [show hostOk (stamp s t) (entryAddr (ringOf (stamp s t) r) i) 64 = false from h]; rfl)

theorem takeCommand_readable {s : State} {r i q : Nat} {ahead : Bool} (t : Tick) (hq : targetOf s r = some q)
    (h : hostOk s (sqBase (ringOf s r) + 64 * i) 64 = true) :
    takeCommand (stamp s t) r i ahead = joinCommand (stamp s t) r ahead (entryCmd s r i q t) := by
  have hq' : targetOf (stamp s t) r = some q := hq
  refine (if_neg (by rw [show hostOk (stamp s t) (entryAddr (ringOf (stamp s t) r) i) 64 = true from h]; decide)).trans ?_
  rw [hq']
  rfl

/-- What the verdict of acceptance makes of an entry's command. -/
theorem entryCmd_verdict {s : State} {r i q : Nat} {t : Tick} {st dt : Nat}
    (hv : validate (stamp s t) (entryReq s r i) = (st, dt)) :
    let c := entryCmd s r i q t
    let late : Prop := pktAbortOnLate c = true ∧ pktDeadline c ≠ 0 ∧ pktDeadline c ≤ max s.now t
    (st ≠ 0 → (st = 0x23 → ¬ late) → c.phase = .executed ∧ c.status = st ∧ c.detail = dt ∧ c.fixed = none) ∧
    (st = 0 ∨ st = 0x23 → late → c.phase = .executed ∧ c.status = 0x40 ∧ c.detail = 1 ∧ c.fixed = some (max s.now t)) ∧
    (st = 0 → ¬ late → pktOp c = 0x73 → pkt c 0x20 8 ≤ max s.now t →
      c.phase = .executed ∧ c.status = 0 ∧ c.late = true ∧ c.fixed = some (max s.now t)) ∧
    (st = 0 → ¬ late → (pktOp c = 0x73 → max s.now t < pkt c 0x20 8) →
      c.phase = .held ∧ c.status = 0 ∧ c.late = false ∧ c.fixed = none) := by
  intro c
  obtain ⟨hpacket, -⟩ : c.packet = (entryReq s r i).p ∧ _ := newCmd_origin ..
  have hlate : (pktAbortOnLate c = true ∧ pktDeadline c ≠ 0 ∧ pktDeadline c ≤ max s.now t) ↔
      lateEntry (entryReq s r i) (max s.now t) := by
    unfold pktAbortOnLate pktDeadline pkt lateEntry Req.f
    rw [hpacket]
  have hop : pktOp c = (entryReq s r i).op := by
    unfold pktOp pkt Req.op
    rw [hpacket]
  have htick : pkt c 0x20 8 = (entryReq s r i).f 0x20 8 := by
    unfold pkt Req.f
    rw [hpacket]
  have hc : c = newCmd (stamp s t) (entryReq s r i) q i (max s.now t) := rfl
  rw [hlate, hop, htick]
  clear_value c
  refine ⟨fun hne hnot => ?_, fun hst hcome => ?_, fun hst hnot hlaunch hcome => ?_, fun hst hnot hlaunch => ?_⟩
  · rw [hc, newCmd_plain hv (fun h => hnot (h.resolve_left hne)) fun h => absurd h hne]
    exact ⟨if_neg hne, rfl, rfl, rfl⟩
  · rw [hc, newCmd_late hv hst hcome]
    exact ⟨rfl, rfl, rfl, rfl⟩
  · subst hst
    rw [hc, newCmd_launched hv hnot hlaunch hcome]
    exact ⟨rfl, rfl, rfl, rfl⟩
  · subst hst
    rw [hc, newCmd_plain hv (fun _ => hnot) fun _ => hlaunch]
    exact ⟨rfl, rfl, rfl, rfl⟩

end Sys2Proof.Laws
end

section
/-! COMMAND_ACCEPT settled (R279, R281, R291, R294, R297, R299, R311). -/

open Sys2Proof Sys2Proof.Machine

namespace Sys2Proof.Laws

/-- Settles O19: the ring is the one `pickRing_spec` describes; its entry stalls it (`stallRing_leaves`) or becomes a command by the
verdict of acceptance (`entryCmd_verdict`). -/
theorem acceptedEntryBecomesCommand : Obligations.AcceptedEntryBecomesCommand := by
  unfold Obligations.AcceptedEntryBecomesCommand
  refine fun s t => ⟨fun hclosed => congrArg Host.Outcome.next (doCommandAccept_closed hclosed), fun r i ahead hopen hpick => ?_⟩
  have hrun := doCommandAccept_picked hopen hpick
  obtain ⟨hoffer, hprior⟩ := pickRing_spec hpick
  obtain ⟨hsq, ⟨q, hq, hfree⟩, hhead⟩ := ringOffer_spec hoffer
  refine ⟨hsq, not_stalled_of_ringOffer hoffer, ⟨q, hq, hfree⟩, fun h => ⟨(hhead h).1, (hhead h).2, hprior h⟩,
    fun hbad => ?_, fun hok => ?_⟩
  · exact ⟨_, congrArg Host.Outcome.next (hrun.trans (takeCommand_unreadable t hbad)), stallRing_leaves (stamp s t) r⟩
  · obtain ⟨hpacket, hfn, hring, hindex, hcq, haccept, hmode, hid, hcommits⟩ :=
      newCmd_origin (stamp s t) (entryReq s r i) q i (max s.now t)
    have hringOf : ∀ p, ringOf (joinCommand (stamp s t) r ahead (entryCmd s r i q t)) p =
        if p = r then takeEntry (ringOf s r) i else ringOf s p := fun p => by
      rw [ringOf_joinCommand, show (entryCmd s r i q t).index = i from hindex]
      rfl
    refine ⟨_, entryCmd s r i q t, congrArg Host.Outcome.next (hrun.trans (takeCommand_readable t hq hok)),
      joinCommand_cmds _ _ _ _, hpacket, hfn, hring, hindex, (congrArg some hcq).trans hq.symm, haccept, hmode, hid, hcommits,
      fun st dt hv => entryCmd_verdict (by rw [entryCmd_packet] at hv; exact hv), ?_, fun hi htaken => ?_, fun p hp => ?_, joinCommand_idle _ _ _ _, ?_⟩
    · rw [hringOf, if_pos rfl]
    · rw [hringOf, if_pos rfl, hi, takeEntry_head htaken]
    · rw [hringOf, if_neg hp]
    · exact joinCommand_stamp_frame s t r ahead _

end Sys2Proof.Laws
end

section
/-! SUPPORT. The start of a held command, and what keeps it back (R35, R45, R263, R268, R295, R299; Table CMD-13). -/

open Sys2Proof Sys2Proof.Machine

namespace Sys2Proof.Laws

theorem id_of_cmdOf {s : State} {id : Nat} {c : Cmd} (h : cmdOf s id = some c) : c.id = id := by
  simpa using List.find?_some h

/-! ## Starting -/

/-- The commands behind the older of two steps in flight, where there is one (R35). -/
def waitsBehind (u : State) (o : Option Nat) : State := { u with cmds := u.cmds.map fun d =>
  match o with
  | some n => if d.phase == .held && isStepOp (pktOp d) then { d with behind := some n } else d
  | none => d }

theorem markBehind_eq (u : State) : markBehind u = waitsBehind u (olderStep u) := by
  unfold markBehind waitsBehind
  cases olderStep u with
  | none => simp
  | some o => rfl

theorem olderStep_none {u : State} (h : stepsInFlight u < 2) : olderStep u = none := by
  unfold stepsInFlight at h
  unfold olderStep
  rcases hl : stepsFlying u with _ | ⟨a, _ | ⟨b, l⟩⟩
  · rfl
  · rfl
  · rw [hl] at h
    simp at h

theorem olderStep_first {u : State} {a b : Cmd} (h : stepsFlying u = [a, b]) (hab : a.start ≤ b.start) :
    olderStep u = some a.id := by
  unfold olderStep
  rw [h]
  exact congrArg some (if_neg (Nat.not_lt.2 hab))

theorem olderStep_second {u : State} {a b : Cmd} (h : stepsFlying u = [a, b]) (hba : b.start < a.start) :
    olderStep u = some b.id := by
  unfold olderStep
  rw [h]
  exact congrArg some (if_pos hba)

/-- The state with the tick of an event and one command changed. -/
def cmdAt (s : State) (T : Tick) (id : Nat) (f : Cmd → Cmd) : State :=
  { s with now := T, cmds := s.cmds.map fun d => if d.id == id then f d else d }

/-- A command started on a tick, with the rows reserved for it. -/
def startedAt (s : State) (c : Cmd) (T : Tick) (l : List Nat) (d : Cmd) : Cmd :=
  { d with phase := .started, start := T, began := true, hang := hangTicks s c, reserved := l }

/-- Has the deadline of a held command come by tick T, so that it is aborted instead of started (R299)? -/
def heldTooLong (c : Cmd) (T : Tick) : Prop :=
  c.phase = .held ∧ canAbort c = true ∧ pktAbortOnLate c = true ∧ pktDeadline c ≠ 0 ∧ pktDeadline c ≤ T

theorem heldTooLong_iff (s : State) (c : Cmd) (t : Tick) :
    heldTooLong c (max s.now t) ↔ (c.phase == .held && canAbort c && pastDeadline (stamp s t) c) = true := by
  simp [heldTooLong, pastDeadline, and_assoc]

section

variable {s : State} {id : Nat} {c : Cmd} (t : Tick) (hc : cmdOf s id = some c)
include hc

theorem doCommandStart_late (hlate : heldTooLong c (max s.now t)) : doCommandStart s id t =
    cmdAt s (max s.now t) id fun d => { d with
      phase := .executed, status := 0x40, detail := 1, commits := [], fixed := some (landing s (pktDeadline c)), reserved := [] } := by
  have hc' : cmdOf (stamp s t) id = some c := hc
  unfold doCommandStart
  dsimp only
  rw [hc']
  exact if_pos ((heldTooLong_iff s c t).1 hlate)

theorem doCommandStart_kept (hlate : ¬ heldTooLong c (max s.now t)) (hmay : mayStart s c = false) :
    doCommandStart s id t = stamp s t := by
  have hc' : cmdOf (stamp s t) id = some c := hc
  have hmay' : mayStart (stamp s t) c = false := hmay
  unfold doCommandStart
  dsimp only
  rw [hc']
  exact (if_neg fun h => hlate ((heldTooLong_iff s c t).2 h)).trans (if_pos (by rw [hmay']; rfl))

theorem doCommandStart_go (hlate : ¬ heldTooLong c (max s.now t)) (hmay : mayStart s c = true) (hready : s.regs.ready = true) :
    doCommandStart s id t =
      if pktOp c = 0x10 then
        match reserveLoad (stamp s t) (paramBytes (stamp s t) c) (pktModel c) with
        | some r => startCmd (stamp s t) c r
        | none => setCmd (stamp s t) id fun c => { c with phase := .executed, start := max s.now t, status := 0x30, began := true }
      else startCmd (stamp s t) c [] := by
  have hc' : cmdOf (stamp s t) id = some c := hc
  have hmay' : mayStart (stamp s t) c = true := hmay
  unfold doCommandStart
  dsimp only
  rw [hc']
  refine (if_neg fun h => hlate ((heldTooLong_iff s c t).2 h)).trans ((if_neg ?_).trans rfl)
  rw [hmay', stamp_regs, hready]
  decide

theorem startCmd_stamp (l : List Nat) : startCmd (stamp s t) c l =
    waitsBehind (cmdAt s (max s.now t) id (startedAt s c (max s.now t) l))
      (olderStep (cmdAt s (max s.now t) id (startedAt s c (max s.now t) l))) := by
  rw [← markBehind_eq]
  unfold startCmd
  rw [id_of_cmdOf hc]
  rfl

end

/-! ## What keeps a command back -/

section

variable {s : State} {c : Cmd}

theorem mayStart_of_notHeld (h : c.phase ≠ .held) : mayStart s c = false := by
  simp [mayStart, h]

/-- Anything that `mayStart` asks of a command other than an ABORT, and that does not hold, keeps it back. -/
theorem mayStart_requires (hop : pktOp c ≠ 0x7F) (hmay : mayStart s c = true) :
    (∀ d ∈ s.cmds, d.id < c.id → holdsBack s d c = false) ∧
    (isStepOp (pktOp c) = true → stepsInFlight s < 2 ∧ olderDone s c = true) ∧ streamBusy s c = false := by
  unfold mayStart at hmay
  simp only [Bool.and_eq_true, Bool.or_eq_true, beq_iff_eq, hop, false_or, List.all_eq_true, Bool.not_eq_true',
    decide_eq_true_eq, decide_eq_false_iff_not] at hmay
  obtain ⟨-, ⟨⟨⟨⟨⟨⟨⟨⟨hback, -⟩, hstep⟩, hbusy⟩, -⟩, -⟩, -⟩, -⟩, -⟩⟩ := hmay
  refine ⟨fun d hd hlt => (hback d hd).resolve_left (not_not.2 hlt), fun h => hstep.resolve_left (by rw [h]; decide), hbusy⟩

theorem mayStart_heldBack {d : Cmd} (hop : pktOp c ≠ 0x7F) (hd : d ∈ s.cmds) (hlt : d.id < c.id) (h : holdsBack s d c = true) :
    mayStart s c = false := by
  by_contra hmay
  obtain ⟨hback, -, -⟩ := mayStart_requires hop (Bool.not_eq_false _ ▸ hmay)
  rw [hback d hd hlt] at h
  cases h

/-- The holds of R35, R45 and Table CMD-13 between an earlier command d and c. -/
theorem holdsBack_of_order {d : Cmd}
    (h : (isStepOp (pktOp d) = true ∧ isStepOp (pktOp c) = true ∧ (∃ p ∈ c.ctxs, ∃ q ∈ d.ctxs, p.1 = q.1)) ∨
      (pktOp d = 0x02 ∧ ((pkt d 0x20 1 = 0 ∧ d.ring = c.ring) ∨ (pkt d 0x20 1 ≠ 0 ∧ d.fn = c.fn))) ∨
      (pktOp d = 0x73 ∧ d.ring = c.ring ∧ d.phase ≠ .executed) ∨ pktOp d = 0x72 ∨ pktOp d = 0x70 ∨ pktOp c = 0x70) :
    holdsBack s d c = true := by
  unfold holdsBack
  dsimp only
  rcases h with ⟨hd, hc, p, hp, q, hq, hpq⟩ | ⟨hd, hscope⟩ | ⟨hd, hring, hphase⟩ | hd | hd | hc
  · have hshares : ((cmdStreams s c).any fun x => (cmdStreams s d).contains x) = true := by
      unfold cmdStreams
      rw [if_pos hc, if_pos hd]
      refine List.any_eq_true.2 ⟨p.1, List.mem_map_of_mem hp, ?_⟩
      rw [List.contains_iff_mem, hpq]
      exact List.mem_map_of_mem hq
    simp only [hd, hc, hshares, Bool.and_self, Bool.true_or]
  · rcases hscope with ⟨hzero, hring⟩ | ⟨hone, hfn⟩
    · simp [hd, hzero, hring]
    · simp [hd, hone, hfn]
  · simp [hd, hring, hphase]
  · simp [hd]
  · simp [hd]
  · simp [hc]

theorem streamBusy_of_step {d : Cmd} (hd : d ∈ s.cmds) (hstep : isStepOp (pktOp d) = true) (hbegan : d.began = true)
    (hphase : d.phase ≠ .held) (hop : holdsForStep (pktOp c) = true) (h : ∃ p ∈ d.ctxs, p.1 ∈ cmdStreams s c) :
    streamBusy s c = true := by
  obtain ⟨p, hp, hmem⟩ := h
  unfold streamBusy
  rw [hop, Bool.true_and]
  refine List.any_eq_true.2 ⟨d, List.mem_filter.2 ⟨hd, by simp [hstep, hbegan, hphase]⟩, List.any_eq_true.2 ⟨p.1, hmem, ?_⟩⟩
  unfold cmdStreams
  rw [if_pos hstep, List.contains_iff_mem]
  exact List.mem_map_of_mem hp

/-- A held command that stands alone, with nothing else under way, may start. -/
theorem mayStart_alone (hheld : c.phase = .held) (hbehind : c.behind = none) (halone : s.cmds = [c]) (hquiet : s.quiet = .none)
    (hshutdown : s.shutdown = .none) (hloss : s.loss = .none) (hop : pktOp c ≠ 0x10) : mayStart s c = true := by
  have hflying : stepsFlying s = [] := by simp [stepsFlying, halone, hheld]
  unfold mayStart streamBusy stepsInFlight olderDone
  simp [halone, hheld, hbehind, hquiet, hshutdown, hloss, hop, hflying]

end

theorem not_abort_of_step {op : Nat} (h : isStepOp op = true) : op ≠ 0x7F := by
  rintro rfl
  revert h
  decide

theorem not_abort_of_holdsForStep {op : Nat} (h : holdsForStep op = true) : op ≠ 0x7F := by
  rintro rfl
  revert h
  decide

end Sys2Proof.Laws
end

section
/-! COMMAND_START settled (R35, R45, R263, R268, R295, R299). -/

open Sys2Proof Sys2Proof.Machine

namespace Sys2Proof.Laws

/-- Settles O20: what the event does turns on the deadline and on `mayStart` (`doCommandStart_late`, `doCommandStart_go`,
`doCommandStart_kept`), and what keeps a command back is a hold of an earlier one or a step in flight (`mayStart_requires`). -/
theorem heldCommandStarts : Obligations.HeldCommandStarts := by
  unfold Obligations.HeldCommandStarts
  intro s id c t hc hready T late go wait starts
  have hstarts (l : List Nat) (hrun : doCommandStart s id t = startCmd (stamp s t) c l) : starts l := by
    refine ⟨_, congrArg Host.Outcome.next (hrun.trans (startCmd_stamp t hc l)), olderStep_none, fun a b hab hle =>
      olderStep_first hab hle, fun a b hab hlt => olderStep_second hab hlt⟩
  refine ⟨fun hmay hlate hop => ?_, fun hmay hlate hop l hl => ?_, fun hmay hlate hop hnone => ?_, fun hlate => ?_,
    fun hmay hlate => ?_, mayStart_alone, mayStart_of_notHeld, fun hop d hd hlt h => ?_, fun d hd hstep hbegan hphase hop h => ?_,
    fun hstep h => ?_⟩
  · exact hstarts [] ((doCommandStart_go t hc hlate hmay hready).trans (if_neg hop))
  · have hl' : reserveLoad (stamp s t) (paramBytes (stamp s t) c) (pktModel c) = some l := hl
    refine hstarts l ((doCommandStart_go t hc hlate hmay hready).trans ((if_pos hop).trans ?_))
    rw [hl']
  · have hnone' : reserveLoad (stamp s t) (paramBytes (stamp s t) c) (pktModel c) = none := hnone
    refine congrArg Host.Outcome.next ((doCommandStart_go t hc hlate hmay hready).trans ((if_pos hop).trans ?_))
    rw [hnone']
    rfl
  · exact congrArg Host.Outcome.next (doCommandStart_late t hc hlate)
  · exact congrArg Host.Outcome.next (doCommandStart_kept t hc hlate hmay)
  · exact mayStart_heldBack hop hd hlt (holdsBack_of_order h)
  · by_contra hmay
    obtain ⟨-, -, hbusy⟩ := mayStart_requires (not_abort_of_holdsForStep hop) (Bool.not_eq_false _ ▸ hmay)
    rw [streamBusy_of_step hd hstep hbegan hphase hop h] at hbusy
    cases hbusy
  · by_contra hmay
    obtain ⟨-, hroom, -⟩ := mayStart_requires (not_abort_of_step hstep) (Bool.not_eq_false _ ▸ hmay)
    obtain ⟨htwo, hdone⟩ := hroom hstep
    rcases h with h | ⟨o, ho, d, hd, hid⟩
    · exact absurd htwo (Nat.not_lt.2 h)
    · unfold olderDone at hdone
      rw [ho] at hdone
      simpa [hid] using List.all_eq_true.1 hdone d hd

end Sys2Proof.Laws
end

section
/-! SUPPORT. A record written, a coalesced interrupt sent, a command ended by its deadline or by the watchdog (R278, R298, R299, R305,
R367, R428, R429). -/

open Sys2Proof Sys2Proof.Machine

namespace Sys2Proof.Laws

/-! ## The record of a due command -/

theorem recordBytes_congr {s u : State} (h : u.vfs = s.vfs) (c : Cmd) (t : Tick) (p : Bool) :
    recordBytes u c t p = recordBytes s c t p := by
  unfold recordBytes fnRing vfOf
  rw [h]

/-- The record of a due command: its 32 bytes in the next slot of its CQ, its ring moved on, the command gone. -/
theorem recordDue_written {s : State} {id : Nat} {c : Cmd} {t : Tick} (hdue : recordDue s id c (max s.now t)) :
    let x := ringOf s c.cq
    let u := doCompletionRecordWrite s id t
    let bs := recordBytes s c (max s.now t) x.phase
    u.host = memStore s.host (cqBase x + 32 * x.cqTail) bs ∧ u.now = max s.now t ∧
      (∃ f, followsOnly f ∧ u.cmds = (s.cmds.map f).filter fun d => d.id != c.id) ∧
      { ringOf u c.cq with coal := x.coal, oldest := x.oldest } =
        { x with
          cqTail := (x.cqTail + 1) % cqEntries x
          phase := if (x.cqTail + 1) % cqEntries x = 0 then !x.phase else x.phase, written := x.written + 1
          records := x.records ++ [(x.cqTail, max s.now t, bs)] } ∧
      ∀ q, q ≠ c.cq → ringOf u q = ringOf s q := by
  intro x u bs
  obtain ⟨v, f, hrun, hf, hcmds, hv⟩ := completeCmd_due hdue
  have hw := applyCommits_frame (max s.now t) (stamp s (max s.now t)) c.commits
  generalize hwdef : c.commits.foldl (applyCommit (max s.now t)) (stamp s (max s.now t)) = w at hv hw
  have hnow : v.now = max s.now t :=
    ((congrArg State.now hv :).trans (congrArg State.now hw :)).trans (Nat.max_eq_right (Nat.le_max_left _ _))
  have hhost : v.host = s.host := (congrArg State.host hv :).trans (congrArg State.host hw :)
  have hrings : v.rings = s.rings := (congrArg State.rings hv :).trans (congrArg State.rings hw :)
  have hvfs : v.vfs = s.vfs := (congrArg State.vfs hv :).trans (congrArg State.vfs hw :)
  have hlinks : v.links = s.links := (congrArg State.links hv :).trans (congrArg State.links hw :)
  have htrained : trainedLinks v ≠ [] := by
    obtain ⟨-, -, -, -, -, -, -, -, -, hs, -⟩ := hdue
    unfold trainedLinks linkUp at hs ⊢
    rwa [hlinks]
  have hring : ∀ q, ringOf v q = ringOf s q := fun q => by
    unfold ringOf
    rw [hrings]
  obtain ⟨hstored, hothers, hself, hframe⟩ := writeRecord_trained htrained c (max s.now t)
  simp only [hring, hhost, recordBytes_congr hvfs] at hstored hself
  have hu : u = writeRecord v c (max s.now t) := hrun
  rw [hu]
  exact ⟨hstored, (congrArg State.now hframe :).trans hnow, ⟨f, hf, (congrArg State.cmds hframe :).trans hcmds⟩, hself,
    fun q hq => (hothers q hq).trans (hring q)⟩

/-! ## Coalesced interrupts -/

/-- A message of a CQ: it goes out, or stays pending where its vector is masked, and the CQ's counts restart. -/
theorem sendCq_sends (s : State) (r : Nat) :
    let v := bits (ringOf s r).vector.toNat 8 0
    (msixMasked s (ringFn s r) v = false → (sendCq s r).regs.msi = (ringFn s r, v) :: s.regs.msi) ∧
    (msixMasked s (ringFn s r) v = true →
      (sendCq s r).regs.msi = s.regs.msi ∧ 512 * ringFn s r + v ∈ (sendCq s r).regs.msixPending) := by
  intro v
  have hsend : sendCq s r = sendMsi (setRing s r { ringOf s r with coal := 0, oldest := none }) (ringFn s r) v := rfl
  have hmask : msixMasked (setRing s r { ringOf s r with coal := 0, oldest := none }) (ringFn s r) v =
      msixMasked s (ringFn s r) v := rfl
  clear_value v
  rw [hsend]
  refine ⟨fun hopen => ?_, fun hmasked => ?_⟩
  · unfold sendMsi
    rw [if_neg (by rw [hmask, hopen]; decide)]
    rfl
  · unfold sendMsi
    rw [if_pos (hmask.trans hmasked)]
    refine ⟨rfl, ?_⟩
    dsimp only
    split
    · next h => exact List.contains_iff_mem.1 h
    · exact List.mem_cons_self

/-! ## Ticks that the counter skips (R367) -/

theorem landing_eq_or (s : State) (v : Tick) : landing s v = v ∨ landing s v = v + 1 := by
  unfold landing
  split
  · exact .inr rfl
  · exact .inl rfl

/-- A counter that is not behind the TMC's copy passes no tick. -/
theorem landing_ahead {s : State} (h : s.tmc.1 ≤ 0) (v : Tick) : landing s v = v := by
  refine if_neg ?_
  unfold skipsTick
  dsimp only
  rw [decide_eq_true_eq]
  rintro ⟨hpos, hle, -⟩
  exact absurd (hle.trans h) (not_le.2 (Int.natCast_pos.2 hpos))

/-! ## Deadlines and the watchdog -/

theorem yieldsToAbort_of_notFailure {st : Nat} (h : isFailure st = false) : yieldsToAbort st = true := by
  simp [yieldsToAbort, h]

theorem doDeadlineExpiry_ends {s : State} {id : Nat} {c : Cmd} (hc : cmdOf s id = some c) (hlive : isFailure c.status = false)
    (habort : pktAbortOnLate c = true) (hset : pktDeadline c ≠ 0) (hcan : c.began = false ∨ onlyHeldAbort (pktOp c) = false) :
    doDeadlineExpiry s id = dropBarrier
      (endCmd (stamp s (landing s (pktDeadline c))) id 0x40 1 (some (landing s (pktDeadline c)))) fun i => i == id := by
  unfold doDeadlineExpiry
  rw [hc]
  refine if_pos ?_
  have : (!c.began || !onlyHeldAbort (pktOp c)) = true := by simpa using hcan
  simp [habort, hset, canAbort, yieldsToAbort_of_notFailure hlive, this]

theorem doDeadlineExpiry_idle {s : State} {id : Nat} {c : Cmd} (hc : cmdOf s id = some c)
    (h : pktAbortOnLate c = false ∨ pktDeadline c = 0 ∨ (c.began = true ∧ onlyHeldAbort (pktOp c) = true)) :
    doDeadlineExpiry s id = s := by
  unfold doDeadlineExpiry
  rw [hc]
  refine if_neg ?_
  rcases h with h | h | ⟨hbegan, honly⟩
  · simp [h]
  · simp [h]
  · simp [canAbort, hbegan, honly]

/-- The command's count has reached its budget by tick T. -/
theorem expired_iff {s : State} {c : Cmd} (hwatched : watched (pktOp c) = true) (hheld : c.phase ≠ .held)
    (hlive : isFailure c.status = false) (T : Tick) :
    expired s c T = true ↔ c.start + watchdogBudget s c + skipTicks s c ≤ T := by
  simp [expired, hwatched, hheld, hlive]

theorem doWatchdogExpiry_ends {s : State} {id : Nat} {c : Cmd} {stuck : List (Nat × Nat)} {t : Tick} (hc : cmdOf s id = some c)
    (hloss : s.loss = .none) (hexp : expired (stamp s t) c (max s.now t) = true) : doWatchdogExpiry s id stuck t =
      stuck.foldl askTest (countChip (endCmd (stamp s t) id 0x41 0 none) s.regs.lead 5 1) := by
  have hc' : cmdOf (stamp s t) id = some c := hc
  unfold doWatchdogExpiry
  dsimp only
  rw [hc']
  refine if_pos ?_
  rw [Bool.and_eq_true]
  refine ⟨hexp, ?_⟩
  unfold caughtByFence
  rw [stamp_loss, hloss]
  rfl

theorem doWatchdogExpiry_waits {s : State} {id : Nat} {c : Cmd} {stuck : List (Nat × Nat)} {t : Tick} (hc : cmdOf s id = some c)
    (hexp : expired (stamp s t) c (max s.now t) = false) : doWatchdogExpiry s id stuck t = stamp s t := by
  have hc' : cmdOf (stamp s t) id = some c := hc
  unfold doWatchdogExpiry
  dsimp only
  rw [hc']
  exact if_neg (by rw [stamp_now, hexp]; simp)

/-- The test flag of a core. -/
def testAsked (s : State) (p : Nat × Nat) : Prop := (nth (Core.fresh p.2) (chipOf s p.1).cores p.2).test = true

/-- Is there such a core? -/
def coreThere (s : State) (p : Nat × Nat) : Prop := p.1 < s.chips.length ∧ p.2 < (chipOf s p.1).cores.length

theorem chipOf_askTest (s : State) (p : Nat × Nat) (c : Nat) :
    chipOf (askTest s p) c = if c = p.1 ∧ p.1 < s.chips.length then
      { chipOf s c with cores := modNth (chipOf s c).cores p.2 fun k => { k with test := true } } else chipOf s c := by
  by_cases hc : c = p.1
  · subst hc
    by_cases hlt : p.1 < s.chips.length
    · rw [if_pos ⟨rfl, hlt⟩]
      exact chipOf_setCore s p.1 p.2 _ hlt
    · rw [if_neg fun h => hlt h.2]
      exact (nth_modNth _ _ _ _ _).trans (if_neg fun h => hlt h.2)
  · rw [if_neg fun h => hc h.1]
    exact chipOf_setChip_ne s _ hc

theorem coreThere_askTest {s : State} {p q : Nat × Nat} : coreThere (askTest s p) q ↔ coreThere s q := by
  unfold coreThere
  rw [chipOf_askTest, show (askTest s p).chips.length = s.chips.length from setChip_length s p.1 _]
  split <;> simp

theorem testAsked_askTest {s : State} {p q : Nat × Nat} (h : testAsked s q ∨ p = q ∧ coreThere s q) :
    testAsked (askTest s p) q := by
  unfold testAsked at h ⊢
  rw [chipOf_askTest]
  split
  · next hchip =>
    rw [nth_modNth]
    split
    · rfl
    · next hcore =>
      refine h.resolve_right ?_
      rintro ⟨rfl, -, hlt⟩
      exact hcore ⟨rfl, hlt⟩
  · next hchip =>
    refine h.resolve_right ?_
    rintro ⟨rfl, hlt, -⟩
    exact hchip ⟨rfl, hlt⟩

theorem foldl_askTest_frame (l : List (Nat × Nat)) (s : State) : { l.foldl askTest s with chips := s.chips } = s := by
  induction l generalizing s with
  | nil => rfl
  | cons p l ih => exact congrArg (fun u : State => { u with chips := s.chips }) (ih (askTest s p))

/-- Every core of the list that is there is to be tested. -/
theorem testAsked_foldl (l : List (Nat × Nat)) (s : State) {q : Nat × Nat} (h : testAsked s q ∨ q ∈ l ∧ coreThere s q) :
    testAsked (l.foldl askTest s) q := by
  induction l generalizing s with
  | nil => exact h.resolve_right fun h => List.not_mem_nil h.1
  | cons p l ih =>
    refine ih (askTest s p) ?_
    rcases h with h | ⟨hq, hthere⟩
    · exact .inl (testAsked_askTest (.inl h))
    · rcases List.mem_cons.1 hq with rfl | hq
      · exact .inl (testAsked_askTest (.inr ⟨rfl, hthere⟩))
      · exact .inr ⟨hq, coreThere_askTest.2 hthere⟩

theorem coreThere_countChip {s : State} {c i n : Nat} {q : Nat × Nat} (h : coreThere s q) : coreThere (countChip s c i n) q := by
  obtain ⟨hchip, hcore⟩ := h
  have hlen : (countChip s c i n).chips.length = s.chips.length := modNth_length _ _ _
  refine ⟨hlen ▸ hchip, ?_⟩
  by_cases hq : q.1 = c
  · rw [hq] at hchip hcore ⊢
    rw [chipOf_countChip s c i n hchip]
    exact hcore
  · rw [nearChip_chipOf (nearChip_countChip s c i n) hq]
    exact hcore

end Sys2Proof.Laws
end

section
/-! The completion record, coalesced interrupts, deadlines and the watchdog settled (R278, R298, R299, R305, R367, R428, R429). -/

open Sys2Proof Sys2Proof.Machine

namespace Sys2Proof.Laws

/-- Settles O21: `recordDue_written` names what the record leaves, and the 32 bytes read back where they were stored. -/
theorem completionRecordWritten : Obligations.CompletionRecordWritten := by
  unfold Obligations.CompletionRecordWritten
  intro s id c t hwf hdue x T a tail bs
  obtain ⟨hhost, hnow, hcmds, hself, hothers⟩ := recordDue_written hdue
  have hlen : bs.length = 32 := recordBytes_length s c T x.phase
  rw [id_of_cmdOf hdue.1] at hcmds
  simp only [memoriesWf, Bool.and_eq_true] at hwf
  obtain ⟨⟨hmem, -⟩, -⟩ := hwf
  have hblock : BlockWritten s.host (doCompletionRecordWrite s id t).host a bs :=
    ⟨hhost ▸ memBytes_store hmem a bs, fun q hq => hhost ▸ memByte_store_outside hmem hq⟩
  exact ⟨_, rfl, hlen, hlen ▸ hblock.whole, hblock.sameOutside hlen, hnow, hcmds, hself, hothers⟩

/-- Settles O23: where the delay has passed the vector is sent as `sendCq_sends` says. -/
theorem coalescedInterruptGoesOut : Obligations.CoalescedInterruptGoesOut := by
  unfold Obligations.CoalescedInterruptGoesOut
  intro s r t t0 hold x delay v
  have hold' : (ringOf (stamp s t) r).oldest = some t0 := hold
  have hrun : doCqCoalesceDelay s r t =
      if ringIrq x && delay != 0 && decide (t0 + ticksUs s delay ≤ max s.now t) then sendCq (stamp s t) r else stamp s t := by
    unfold doCqCoalesceDelay
    dsimp only
    rw [hold']
    rfl
  refine ⟨fun hirq hdelay hpassed => ?_, fun h => ?_⟩
  · have hsend := hrun.trans (if_pos (by simp [hirq, hdelay, hpassed]))
    obtain ⟨hopen, hmasked⟩ := sendCq_sends (stamp s t) r
    refine ⟨_, congrArg Host.Outcome.next hsend, ?_, fun q hq => ?_, hopen, hmasked,
      congrArg (fun u : State => { u with now := s.now }) (sendCq_frame (stamp s t) r)⟩
    · exact (ringOf_sendCq (stamp s t) r r).trans (if_pos rfl)
    · exact (ringOf_sendCq (stamp s t) r q).trans (if_neg hq)
  · refine congrArg Host.Outcome.next (hrun.trans (if_neg ?_))
    rcases h with h | h | h
    · simp [h]
    · simp [h]
    · simp [Nat.not_le.2 h]

/-- Settles O24: a deadline ends a command that can still be ended (`doDeadlineExpiry_ends`); the watchdog ends one whose count has
reached its budget (`expired_iff`) and has the cores that hang tested (`testAsked_foldl`). -/
theorem deadlineAndWatchdogEndCommands : Obligations.DeadlineAndWatchdogEndCommands := by
  unfold Obligations.DeadlineAndWatchdogEndCommands
  intro s id c hc hlive ended D
  refine ⟨fun habort hset hcan => ⟨?_, landing_eq_or s _, fun h => landing_ahead h _⟩, fun h => ?_,
    fun stuck t hwatched hheld hloss => ?_⟩
  · exact congrArg Host.Outcome.next (doDeadlineExpiry_ends hc hlive habort hset hcan)
  · exact congrArg Host.Outcome.next (doDeadlineExpiry_idle hc h)
  · intro limit
    have hexp : expired (stamp s t) c (max s.now t) = true ↔ limit ≤ max s.now t := expired_iff hwatched hheld hlive _
    refine ⟨fun hcome => ?_, fun hearly => ?_⟩
    · have hrun := doWatchdogExpiry_ends (stuck := stuck) hc hloss (hexp.2 hcome)
      have hframe := foldl_askTest_frame stuck (countChip (endCmd (stamp s t) id 0x41 0 none) s.regs.lead 5 1)
      refine ⟨_, congrArg Host.Outcome.next hrun, (congrArg State.cmds hframe :), (congrArg State.totals hframe :),
        fun p hp hchip hcore => testAsked_foldl stuck _ (.inr ⟨hp, coreThere_countChip ⟨hchip, hcore⟩⟩), ?_⟩
      exact congrArg (fun u : State => { u with now := s.now, cmds := s.cmds, totals := s.totals, chips := s.chips }) hframe
    · exact congrArg Host.Outcome.next
        (doWatchdogExpiry_waits hc (Bool.eq_false_iff.2 fun h => Nat.not_lt.2 (hexp.1 h) hearly))

end Sys2Proof.Laws
end

section
/-! SUPPORT. Barriers, launch ticks and aborts (R297, R300, R301, R364 to R367). -/

open Sys2Proof Sys2Proof.Machine

namespace Sys2Proof.Laws

/-! ## BARRIER (R365) -/

/-- The release tick waits while an active chip has not arrived. -/
theorem barrierTick_waits {s : State} {l : List (Nat × Tick)}
    (h : ∃ c, c < 8 ∧ (chipOf s c).active = true ∧ ∀ a ∈ l, a.1 ≠ c) : barrierTick s l = none := by
  obtain ⟨c, hc, hactive, hmissing⟩ := h
  refine if_neg fun hall => ?_
  have := List.all_eq_true.1 hall c ((mem_activeChips hc).2 hactive)
  obtain ⟨a, ha, heq⟩ := List.any_eq_true.1 this
  exact hmissing a ha (beq_iff_eq.1 heq)

/-- The largest stamp of a list that is not empty is one of its stamps. -/
theorem exists_foldl_max {l : List (Nat × Tick)} (hl : l ≠ []) : ∃ a ∈ l, a.2 = l.foldl (fun m a => max m a.2) 0 := by
  have key : ∀ (l : List (Nat × Tick)) (m : Nat), l.foldl (fun m a => max m a.2) m = m ∨
      ∃ a ∈ l, a.2 = l.foldl (fun m a => max m a.2) m := by
    intro l
    induction l with
    | nil => exact fun m => .inl rfl
    | cons x xs ih =>
      intro m
      rcases ih (max m x.2) with h | ⟨a, ha, h⟩
      · rcases le_total m x.2 with hle | hle
        · exact .inr ⟨x, List.mem_cons_self, by simp only [List.foldl_cons]; rw [h, Nat.max_eq_right hle]⟩
        · exact .inl (by simp only [List.foldl_cons]; rw [h, Nat.max_eq_left hle])
      · exact .inr ⟨a, List.mem_cons_of_mem _ ha, h⟩
  rcases key l 0 with h | h
  · obtain ⟨a, ha⟩ := List.exists_mem_of_ne_nil l hl
    obtain ⟨-, hle⟩ := foldl_max_le (fun a : Nat × Tick => a.2) l 0
    have := hle a ha
    exact ⟨a, ha, by rw [h] at this ⊢; exact Nat.le_zero.1 this⟩
  · exact h

/-- Once every active chip has arrived, the release tick is the largest stamp plus 2,048 ticks at PLAN_A. -/
theorem barrierTick_fixed {s : State} {l : List (Nat × Tick)} (hl : l ≠ [])
    (h : ∀ c, c < 8 → (chipOf s c).active = true → ∃ a ∈ l, a.1 = c) :
    ∃ m, barrierTick s l = some (m + ticksA s 2048) ∧ (∀ a ∈ l, a.2 ≤ m) ∧ ∃ a ∈ l, a.2 = m := by
  obtain ⟨-, hle⟩ := foldl_max_le (fun a : Nat × Tick => a.2) l 0
  refine ⟨_, if_pos (List.all_eq_true.2 fun c hc => ?_), hle, exists_foldl_max hl⟩
  have hlt : c < 8 := List.mem_range.1 (List.mem_filter.1 hc).1
  obtain ⟨a, ha, heq⟩ := h c hlt ((mem_activeChips hlt).1 hc)
  exact List.any_eq_true.2 ⟨a, ha, beq_iff_eq.2 heq⟩

theorem doBarrierArrival_arrives {s : State} {id chip : Nat} {t : Tick} {l : List (Nat × Tick)}
    (hb : s.barrierSt = some ⟨id, l, none⟩) (hactive : (chipOf s chip).active = true) (hfirst : ∀ a ∈ l, a.1 ≠ chip)
    (hdone : ∀ d ∈ s.cmds, d.id < id → d.phase = .executed) : doBarrierArrival s id chip t =
      { s with now := max s.now t, barrierSt := some ⟨id, l ++ [(chip, t)], barrierTick s (l ++ [(chip, t)])⟩ } := by
  unfold doBarrierArrival
  rw [hb]
  refine if_neg ?_
  have hl : (l.any fun a => a.1 == chip) = false := List.any_eq_false.2 fun a ha => by simpa using hfirst a ha
  have hcmds : (s.cmds.any fun d => decide (d.id < id) && d.phase != .executed) = false :=
    List.any_eq_false.2 fun d hd => by simpa using hdone d hd
  dsimp only
  rw [hl, hcmds, hactive]
  simp

/-! ## A started command read after an update -/

theorem startedCmd_of_cmdOf {s : State} {id op : Nat} {c : Cmd} (h : cmdOf s id = some c) (hphase : c.phase = .started)
    (hop : pktOp c = op) : startedCmd s id op = some c := by
  unfold startedCmd
  rw [h]
  exact if_pos (by simp [hphase, hop])

/-- A command that ends OK on a tick fixed in advance. -/
def fixedOk (T : Tick) (d : Cmd) : Cmd :=
  { d with phase := .executed, status := 0, detail := 0, commits := [], fixed := some T }

/-- The tick fixed, then the body done: one change of the command. -/
theorem doneCmd_setFixed (s : State) (id : Nat) (T : Tick) (c : Cmd) (hid : c.id = id) :
    doneCmd (setCmd s id fun c => { c with fixed := some T }) c [] =
      { s with cmds := s.cmds.map fun d => if d.id == id then fixedOk T d else d } := by
  subst hid
  unfold doneCmd finishCmd setCmd
  dsimp only
  rw [List.map_map]
  congr 1
  refine List.map_congr_left fun d _ => ?_
  by_cases hd : d.id = c.id
  · simp [hd, fixedOk]
  · simp [hd]

/-- A fixed tick is not the phase or the opcode: the command is still the one started. -/
theorem startedCmd_setFixed {s : State} {id op : Nat} {c : Cmd} (h : startedCmd s id op = some c) (T : Tick) :
    startedCmd (setCmd s id fun c => { c with fixed := some T }) id op = some { c with fixed := some T } := by
  obtain ⟨hc, -, hphase, hop⟩ := startedCmd_spec h
  refine startedCmd_of_cmdOf ?_ hphase hop
  have := cmdOf_setCmd s id id (fun c => { c with fixed := some T }) fun _ => rfl
  rw [if_pos rfl, hc] at this
  exact this

theorem startedCmd_stamp {s : State} {id op : Nat} {c : Cmd} (h : startedCmd s id op = some c) (t : Tick) :
    startedCmd (stamp s t) id op = some c := h

theorem doBarrierRelease_releases {s : State} {id : Nat} {c : Cmd} {l : List (Nat × Tick)} {r : Tick}
    (hc : startedCmd s id 0x72 = some c) (hb : s.barrierSt = some ⟨id, l, some r⟩) (hfirst : ∀ d ∈ s.cmds, ¬ d.id < id) :
    doBarrierRelease s id = { s with
      now := max s.now (landing s r), barrierSt := none
      cmds := s.cmds.map fun d => if d.id == id then fixedOk (landing s r) d else d } := by
  have hnone : (s.cmds.any fun d => decide (d.id < id)) = false :=
    List.any_eq_false.2 fun d hd => by simpa using hfirst d hd
  obtain ⟨-, hid, -, -⟩ := startedCmd_spec hc
  have hc' : startedCmd { stamp s (landing s r) with barrierSt := none } id 0x72 = some c := hc
  unfold doBarrierRelease
  rw [hb]
  refine (if_neg (by rw [hnone]; simp)).trans ?_
  dsimp only
  rw [onCmd_of_started (startedCmd_setFixed hc' (landing s r))]
  exact doneCmd_setFixed { stamp s (landing s r) with barrierSt := none } id _ { c with fixed := some (landing s r) } hid

/-! ## LAUNCH_AT (R297, R366) -/

/-- A LAUNCH_AT that fired on tick T. -/
def launchedAt (s : State) (id : Nat) (T : Tick) : State :=
  { s with now := T, cmds := s.cmds.map fun d => if d.id == id then fixedOk T d else d }

theorem doneCmd_launched {s : State} {id : Nat} {c : Cmd} {T : Tick} (hid : c.id = id) (hT : s.now ≤ T) :
    doneCmd (setCmd (stamp s T) id fun c => { c with fixed := some T }) c [] = launchedAt s id T := by
  rw [doneCmd_setFixed (stamp s T) id T c hid]
  unfold launchedAt stamp
  rw [Nat.max_eq_right hT]

section

variable {s : State} {id : Nat} {c : Cmd} {T : Tick} (hc : startedCmd s id 0x73 = some c)
  (hT : T = max s.now (landing s (pkt c 0x20 8)))
include hc hT

theorem doLaunchTick_last (hnext : nextOfRing (launchedAt s id T) c = none) : doLaunchTick s id = launchedAt s id T := by
  obtain ⟨-, hid, -, -⟩ := startedCmd_spec hc
  unfold doLaunchTick
  rw [onCmd_of_started hc]
  dsimp only
  rw [← hT, doneCmd_launched hid (hT ▸ Nat.le_max_left _ _), hnext]

theorem doLaunchTick_next {d : Cmd} (hnext : nextOfRing (launchedAt s id T) c = some d) : doLaunchTick s id =
    if readyFor (launchedAt s id T) d T then doCommandStart (launchedAt s id T) d.id T else launchedAt s id T := by
  obtain ⟨-, hid, -, -⟩ := startedCmd_spec hc
  unfold doLaunchTick
  rw [onCmd_of_started hc]
  dsimp only
  rw [← hT, doneCmd_launched hid (hT ▸ Nat.le_max_left _ _), hnext]

end

/-- The next command of the ring stands as before: the launch changes the command before it alone. -/
theorem nextOfRing_launched (s : State) (c : Cmd) (T : Tick) : nextOfRing (launchedAt s c.id T) c =
    (s.cmds.filter fun d => d.ring == c.ring).find? fun d => decide (c.id < d.id) := by
  unfold nextOfRing ringCmds launchedAt
  dsimp only
  induction s.cmds with
  | nil => rfl
  | cons d l ih =>
    by_cases hd : d.id = c.id
    · by_cases hring : d.ring = c.ring
      · simp only [List.map_cons, List.filter_cons, hd, beq_self_eq_true, if_true, fixedOk, hring, List.find?_cons,
          Nat.lt_irrefl, decide_false]
        exact ih
      · simp only [List.map_cons, List.filter_cons, hd, beq_self_eq_true, if_true, fixedOk, beq_eq_false_iff_ne.2 hring,
          Bool.false_eq_true, if_false]
        exact ih
    · simp only [List.map_cons, List.filter_cons, beq_eq_false_iff_ne.2 hd, Bool.false_eq_true, if_false]
      by_cases hring : d.ring = c.ring
      · simp only [hring, beq_self_eq_true, if_true, List.find?_cons]
        split
        · rfl
        · exact ih
      · simp only [beq_eq_false_iff_ne.2 hring, Bool.false_eq_true, if_false]
        exact ih

/-! ## ABORT (R300, R301) -/

/-- A command that an ABORT ends: its record comes after the ABORT's stamp. -/
def abortedCmd (detail stampTick : Nat) (d : Cmd) : Cmd :=
  { d with
    phase := .executed, status := 0x40, detail := detail, commits := [], fixed := none, reserved := []
    notBefore := stampTick + 1 }

theorem abortOne_eq (detail stampTick : Nat) (s : State) (d : Cmd) : abortOne detail stampTick s d =
    { s with cmds := s.cmds.map fun c => if c.id == d.id then abortedCmd detail stampTick c else c } := by
  unfold abortOne endCmd setCmd
  dsimp only
  rw [List.map_map]
  congr 1
  refine List.map_congr_left fun c _ => ?_
  by_cases hc : c.id = d.id
  · simp [hc, abortedCmd]
  · simp [hc]

/-- Targets ended one after another: each command that one of them names by its number. -/
theorem foldl_abortOne (detail stampTick : Nat) (l : List Cmd) (s : State) : l.foldl (abortOne detail stampTick) s =
    { s with cmds := s.cmds.map fun c => if (l.any fun d => d.id == c.id) then abortedCmd detail stampTick c else c } := by
  induction l generalizing s with
  | nil => simp
  | cons d l ih =>
    rw [List.foldl_cons, ih, abortOne_eq]
    dsimp only
    rw [List.map_map]
    congr 1
    refine List.map_congr_left fun c _ => ?_
    by_cases hc : c.id = d.id
    · by_cases hl : (l.any fun d => d.id == c.id) = true
      · simp [hc, abortedCmd]
      · simp [hc, abortedCmd]
    · have hc' : d.id ≠ c.id := fun h => hc h.symm
      simp [hc, hc']

/-- What an ABORT reports in DETAIL [31:16] (R300). -/
def abortOutcome (s : State) (a : Cmd) : Nat :=
  if !((abortTargets s a).filter (abortCan s a.accept)).isEmpty then 0
  else if (abortTargets s a).any fun d => !isFailure d.status && !canAbort d && !boundaryCame s d a.accept then 3
  else if ((abortTargets s a).any fun d => (isFailure d.status && !canAbort d) || boundaryCame s d a.accept) ||
      s.done.any fun p => abortReaches s a p.1 p.2 then 1
  else 2

theorem doAbort_eq {s : State} {id : Nat} {a : Cmd} (ha : startedCmd s id 0x7F = some a) :
    let hit := (abortTargets s a).filter (abortCan s a.accept)
    doAbort s id = finishCmd
      { s with
        cmds := s.cmds.map fun c => if (hit.any fun d => d.id == c.id) then
          abortedCmd (if pkt a 0x22 1 = 0 then 0 else 2) a.accept c else c
        barrierSt := s.barrierSt.filter fun b => !(hit.any fun d => d.id == b.id) }
      id 0 (min 0xFFFF hit.length + 65536 * abortOutcome s a) 0 [] := by
  intro hit
  unfold doAbort
  rw [onCmd_of_started ha]
  dsimp only
  rw [foldl_abortOne]
  rfl

section

variable {s : State} {a : Cmd}

theorem abortOutcome_hit (h : (abortTargets s a).filter (abortCan s a.accept) ≠ []) : abortOutcome s a = 0 :=
  if_pos (by simpa using h)

/-- With none to end, every target is one that cannot be aborted any more or whose boundary has come. -/
theorem not_abortCan {d : Cmd} (h : (abortTargets s a).filter (abortCan s a.accept) = []) (hd : d ∈ abortTargets s a)
    (hcame : boundaryCame s d a.accept = false) : canAbort d = false := by
  have := List.filter_eq_nil_iff.1 h d hd
  unfold abortCan at this
  rw [hcame] at this
  simpa using this

theorem abortOutcome_busy (h : (abortTargets s a).filter (abortCan s a.accept) = [])
    (hbusy : ∃ d ∈ abortTargets s a, isFailure d.status = false ∧ boundaryCame s d a.accept = false) :
    abortOutcome s a = 3 := by
  obtain ⟨d, hd, hlive, hcame⟩ := hbusy
  unfold abortOutcome
  rw [h]
  exact if_pos (List.any_eq_true.2 ⟨d, hd, by rw [hlive, hcame, not_abortCan h hd hcame]; rfl⟩)

theorem abortOutcome_done (h : (abortTargets s a).filter (abortCan s a.accept) = [])
    (hall : ∀ d ∈ abortTargets s a, isFailure d.status = true ∨ boundaryCame s d a.accept = true)
    (hsome : (∃ d, d ∈ abortTargets s a) ∨ ∃ p ∈ s.done, abortReaches s a p.1 p.2 = true) : abortOutcome s a = 1 := by
  unfold abortOutcome
  rw [h]
  refine (if_neg (by simp)).trans ((if_neg ?_).trans (if_pos ?_))
  · rw [List.any_eq_true]
    rintro ⟨d, hd, hbusy⟩
    rcases hall d hd with hfail | hcame
    · simp [hfail] at hbusy
    · simp [hcame] at hbusy
  · rw [Bool.or_eq_true]
    refine hsome.imp (fun ⟨d, hd⟩ => List.any_eq_true.2 ⟨d, hd, ?_⟩) fun ⟨p, hp, hreach⟩ => List.any_eq_true.2 ⟨p, hp, hreach⟩
    cases hcame : boundaryCame s d a.accept with
    | true => exact Bool.or_true _
    | false =>
      rw [not_abortCan h hd hcame, (hall d hd).resolve_right (by rw [hcame]; decide)]
      rfl

theorem abortOutcome_none (hnone : abortTargets s a = []) (hdone : ∀ p ∈ s.done, abortReaches s a p.1 p.2 = false) :
    abortOutcome s a = 2 := by
  have : (s.done.any fun p => abortReaches s a p.1 p.2) = false := List.any_eq_false.2 fun p hp => by simp [hdone p hp]
  simp [abortOutcome, hnone, this]

end

end Sys2Proof.Laws
end

section
/-! BARRIER, LAUNCH_AT and ABORT settled (R297, R300, R301, R364 to R367). -/

open Sys2Proof Sys2Proof.Machine

namespace Sys2Proof.Laws

/-- Settles O27: arrivals gather until `barrierTick` is fixed, and the release ends the BARRIER on the tick where it lands. -/
theorem barrierReleasesOnOneTick : Obligations.BarrierReleasesOnOneTick := by
  unfold Obligations.BarrierReleasesOnOneTick
  refine fun s id => ⟨fun c t hc hnone => ?_, fun chip t l hb hactive hfirst hdone => ?_, fun c l r hc hb hfirst => ?_⟩
  · obtain ⟨-, hid, -, -⟩ := startedCmd_spec hc
    have hnone' : (stamp s t).barrierSt = none := hnone
    refine congrArg Host.Outcome.next ?_
    unfold doBarrier
    rw [onCmd_of_started (startedCmd_stamp hc t), hnone', hid]
    rfl
  · refine ⟨_, congrArg Host.Outcome.next (doBarrierArrival_arrives hb hactive hfirst hdone), barrierTick_waits, fun hall => ?_⟩
    exact barrierTick_fixed (by simp) hall
  · exact ⟨landing_eq_or s r, fun h => landing_ahead h r, congrArg Host.Outcome.next (doBarrierRelease_releases hc hb hfirst)⟩

/-- Settles O28: the launch ends on the tick where it lands (`doneCmd_launched`), and the next command of its ring is the one that
stood behind it (`nextOfRing_launched`). -/
theorem launchFiresOnItsTick : Obligations.LaunchFiresOnItsTick := by
  unfold Obligations.LaunchFiresOnItsTick
  intro s id c hc L T v
  have hnext : nextOfRing (launchedAt s id T) c = (s.cmds.filter fun d => d.ring == c.ring).find? fun d => decide (c.id < d.id) := by
    obtain ⟨-, rfl, -, -⟩ := startedCmd_spec hc
    exact nextOfRing_launched s c T
  refine ⟨landing_eq_or s _, fun h => landing_ahead h _, fun hpast => ?_, fun hfuture => ?_, fun hlast => ?_,
    fun d hd => ⟨fun hready => ?_, fun hlate => ?_⟩⟩
  · have hend : exec (.launchAt id) s = .next (doneCmd s c []) := congrArg Host.Outcome.next
      ((onCmd_of_started hc _).trans (if_pos hpast))
    exact endsStaging_of_finish hc hend rfl
  · exact congrArg Host.Outcome.next ((onCmd_of_started hc _).trans (if_neg (Nat.not_le.2 hfuture)))
  · refine congrArg Host.Outcome.next (doLaunchTick_last hc rfl (hnext.trans (List.find?_eq_none.2 fun d hd => ?_)))
    obtain ⟨hd, hring⟩ := List.mem_filter.1 hd
    simpa using hlast d hd (beq_iff_eq.1 hring)
  · exact congrArg Host.Outcome.next ((doLaunchTick_next hc rfl (hnext.trans hd)).trans (if_pos (decide_eq_true hready)))
  · exact congrArg Host.Outcome.next
      ((doLaunchTick_next hc rfl (hnext.trans hd)).trans (if_neg fun h => Nat.not_le.2 hlate (of_decide_eq_true h)))

/-- Settles O29: `doAbort_eq` ends the targets that can still be ended, and `abortOutcome` says of the others what they are. -/
theorem abortEndsItsTargets : Obligations.AbortEndsItsTargets := by
  unfold Obligations.AbortEndsItsTargets
  intro s id a ha named came hit
  have htargets : ∀ d, d ∈ abortTargets s a ↔ d ∈ s.cmds ∧ named d = true := fun d => List.mem_filter
  have hhit : (abortTargets s a).filter (abortCan s a.accept) = hit := by
    unfold abortTargets
    rw [List.filter_filter]
    exact List.filter_congr fun d _ => Bool.and_comm _ _
  have hrun := doAbort_eq ha
  rw [hhit] at hrun
  refine ⟨_, abortOutcome s a, congrArg Host.Outcome.next hrun, ?_, rfl, fun h => abortOutcome_hit (hhit ▸ h),
    fun h ⟨d, hd, hnamed, hlive, hcame⟩ => ?_, fun h hall hsome => ?_, fun h hnone hdone => ?_, rfl⟩
  · change (s.cmds.map _).map _ = _
    rw [List.map_map]
    refine List.map_congr_left fun d _ => ?_
    simp only [Function.comp, Nat.or_zero, abortedCmd]
  · exact abortOutcome_busy (hhit.trans h) ⟨d, (htargets d).2 ⟨hd, hnamed⟩, hlive, hcame⟩
  · refine abortOutcome_done (hhit.trans h) (fun d hd => hall d ((htargets d).1 hd).1 ((htargets d).1 hd).2) ?_
    exact hsome.imp_left fun ⟨d, hd, hnamed⟩ => ⟨d, (htargets d).2 ⟨hd, hnamed⟩⟩
  · refine abortOutcome_none (List.eq_nil_iff_forall_not_mem.2 fun d hd => ?_) hdone
    obtain ⟨hd, hnamed⟩ := (htargets d).1 hd
    rw [hnone d hd] at hnamed
    cases hnamed

end Sys2Proof.Laws
end

section
/-! SUPPORT. The stream commands: what a parameter block sets, what each command stages, what SAVE_STREAM writes (R236 to R250). -/

open Sys2Proof Sys2Proof.Machine

namespace Sys2Proof.Laws

/-! ## Checks -/

/-- No check of a list fails exactly where all of them pass (R13). -/
theorem firstBad_eq_none_iff {l : List (Nat × Bool)} : firstBad l = none ↔ ∀ p ∈ l, p.2 = true := by
  have hfilter : firstBad l = none ↔ (l.filter fun p => !p.2) = [] := by
    unfold firstBad
    cases l.filter fun p => !p.2 with
    | nil => exact iff_of_true rfl rfl
    | cons p ps => exact iff_of_false nofun nofun
  rw [hfilter, List.filter_eq_nil_iff]
  exact forall₂_congr fun p _ => by rw [Bool.not_eq_true', Bool.not_eq_false]

/-- A failing check gives an offset. -/
theorem firstBad_of_failing {l : List (Nat × Bool)} (h : ∃ p ∈ l, p.2 = false) : ∃ o, firstBad l = some o := by
  obtain ⟨p, hp, hbad⟩ := h
  refine Option.ne_none_iff_exists'.1 fun hnone => ?_
  rw [firstBad_eq_none_iff.1 hnone p hp] at hbad
  cases hbad

/-! ## Parameter blocks (R236, R237) -/

/-- The bias list a block gives: nothing where its fields are not set. -/
theorem withBias_of_fine {s : State} (hf : hostFine s = true) (c : Cmd) (b : List Byte) (set : Bool)
    (k : List (Nat × Word) → State) :
    withBias s c b set k =
      k (if set then parsePairs (hostBytes s (fieldAt b 0x70 8) (8 * fieldAt b 0x3C 2)) (fieldAt b 0x3C 2) else []) := by
  unfold withBias
  cases set with
  | false => rfl
  | true =>
    dsimp only
    rw [if_pos rfl, Bool.true_and]
    by_cases hn : fieldAt b 0x3C 2 = 0
    · rw [hn]; rfl
    · rw [if_pos (bne_iff_ne.2 hn), withList_of_fine hf]

/-- An update that leaves MODES, the cut and the bias list sets the fields of each chosen bit and no other. -/
theorem applyParams_plain (st : Stream) (b : List Byte) (sel : Nat → Bool) (w : Word) (bias : List (Nat × Word))
    (h2 : sel 2 = false) (h4 : sel 4 = false) (h7 : sel 7 = false) :
    applyParams st b sel w bias = { st with
      seed := if sel 0 then qword b 0 else st.seed
      step := if sel 1 then fieldAt b 0x10 6 else st.step
      temp := if sel 3 then posZero (word32 b 0x20) else st.temp
      softCap := if sel 5 then posZero (word32 b 0x2C) else st.softCap
      rep := if sel 6 then word32 b 0x30 else st.rep
      pres := if sel 6 then posZero (word32 b 0x34) else st.pres
      freq := if sel 6 then posZero (word32 b 0x38) else st.freq
      window := if sel 6 then fieldAt b 0x1A 2 else st.window
      maskSpec := if sel 8 then fieldAt b 0x40 8 else st.maskSpec
      ring := if sel 9 then qword b 0x48 else st.ring
      ringBound := if sel 9 then decide (qword b 0x48 ≠ 0#128) else st.ringBound
      userTag := if sel 10 then fieldAt b 0x60 8 else st.userTag } := by
  have kept {p : Bool} (h : p = false) (x y : Stream) : (if p then x else y) = y := if_neg (by rw [h]; decide)
  have chosen (p : Bool) (f : Bool → Stream) : (if p then f true else f false) = f p := by cases p <;> rfl
  unfold applyParams
  extract_lets m st0 st1 st2 st3 st4 st5 st6 st7 st8 st9
  have e0 : st0 = _ := chosen (sel 0) fun p => { st with seed := if p then qword b 0 else st.seed }
  have e1 : st1 = _ := chosen (sel 1) fun p => { st0 with step := if p then fieldAt b 0x10 6 else st0.step }
  have e2 : st2 = st1 := kept h2 _ _
  have e3 : st3 = _ := chosen (sel 3) fun p => { st2 with temp := if p then posZero (word32 b 0x20) else st2.temp }
  have e4 : st4 = st3 := kept h4 _ _
  have e5 : st5 = _ := chosen (sel 5) fun p => { st4 with softCap := if p then posZero (word32 b 0x2C) else st4.softCap }
  have e6 : st6 = _ := chosen (sel 6) fun p => { st5 with
    rep := if p then word32 b 0x30 else st5.rep
    pres := if p then posZero (word32 b 0x34) else st5.pres
    freq := if p then posZero (word32 b 0x38) else st5.freq
    window := if p then fieldAt b 0x1A 2 else st5.window }
  have e7 : st7 = st6 := kept h7 _ _
  have e8 : st8 = _ := chosen (sel 8) fun p => { st7 with maskSpec := if p then fieldAt b 0x40 8 else st7.maskSpec }
  have e9 : st9 = _ := chosen (sel 9) fun p => { st8 with
    ring := if p then qword b 0x48 else st8.ring
    ringBound := if p then decide (qword b 0x48 ≠ 0#128) else st8.ringBound }
  have e10 := chosen (sel 10) fun p => { st9 with userTag := if p then fieldAt b 0x60 8 else st9.userTag }
  clear_value st0 st1 st2 st3 st4 st5 st6 st7 st8 st9
  refine Eq.trans e10 ?_
  simp only [e0, e1, e2, e3, e4, e5, e6, e7, e8, e9]

/-- The MODES byte an OPEN_STREAM leaves: the substituted modes and COMPAT below, the cut above (R84, R237). -/
theorem openedStream_modes (b : List Byte) (w : Word) (bias : List (Nat × Word)) :
    (openedStream b w bias).modes = (substModes (fieldAt b 0x19 1) (bit (fieldAt b 0x6C 1) 0) w +
      32 * b2n (modesCompat (fieldAt b 0x19 1))) % 64 + 64 * modesCut (fieldAt b 0x19 1) := by
  have hcut : modesCut Stream.closed.modes = 0 := rfl
  show (_ + 64 * modesCut Stream.closed.modes) % 64 + _ = _
  rw [hcut]
  rfl

/-! ## What each command stages -/

section
variable {s : State} {id : Nat} {c : Cmd}

theorem exec_closeStream_of_started (hc : startedCmd s id 0x21 = some c) : exec (.closeStream id) s =
    .next (if !(streamOf s (pktStream c)).isOpen then lateBad s c 0x20 else doneCmd s c [.closeStream (pktStream c)]) :=
  congrArg Host.Outcome.next (onCmd_of_started hc _)

section
variable (hf : hostFine s = true)
include hf

theorem exec_openStream_of_started (hc : startedCmd s id 0x20 = some c) :
    let b := paramBytes s c
    let bias := parsePairs (hostBytes s (fieldAt b 0x70 8) (8 * fieldAt b 0x3C 2)) (fieldAt b 0x3C 2)
    exec (.openStream id) s = .next (if (streamOf s (pktStream c)).isOpen then lateBad s c 0x20
      else doneCmd s c [.openStream (pktStream c) (openedStream b c.modeCtrl bias)]) := by
  refine congrArg Host.Outcome.next ((onCmd_of_started hc _).trans ?_)
  rw [withParams_of_fine hf, withBias_of_fine hf]
  rfl

/-- SET_STREAM_PARAMS of an open stream, its bias list not set, that keeps the limits. -/
theorem exec_setStreamParams_kept (hc : startedCmd s id 0x22 = some c) (hopen : (streamOf s (pktStream c)).isOpen = true)
    (h7 : selOf (paramBytes s c) 7 = false)
    (hlimits : ∀ p ∈ limitChecks (applyParams (streamOf s (pktStream c)) (paramBytes s c) (selOf (paramBytes s c)) c.modeCtrl [])
      (selOf (paramBytes s c)), p.2 = true) :
    exec (.setStreamParams id) s = .next (doneCmd s c [.setParams (pktStream c) (paramBytes s c) c.modeCtrl []]) := by
  refine congrArg Host.Outcome.next ((onCmd_of_started hc _).trans ?_)
  rw [withParams_of_fine hf, withBias_of_fine hf]
  refine (if_neg (by rw [hopen]; decide)).trans ?_
  rw [h7, if_neg Bool.false_ne_true, firstBad_eq_none_iff.2 hlimits]

theorem exec_rebuildHistory_of_started (hc : startedCmd s id 0x23 = some c) (hopen : (streamOf s (pktStream c)).isOpen = true) :
    exec (.rebuildHistory id) s = .next (if pkt c 0x22 1 = 1 && !(streamOf s (pktStream c)).histValid then lateBad s c 0x22
      else doneCmd s c [.history (pktStream c) (pkt c 0x22 1)
        ((List.range (pkt c 0x24 4)).map fun i => fieldAt (paramBytes s c) (4 * i) 4)]) := by
  refine congrArg Host.Outcome.next ((onCmd_of_started hc _).trans ?_)
  rw [withParams_of_fine hf]
  exact if_neg (by rw [hopen]; decide)

/-- RESTORE_STREAM on a closed stream: what `firstBad` finds of the image decides. -/
theorem doRestoreStream_of_started (hc : startedCmd s id 0x25 = some c) (hclosed : (streamOf s (pktStream c)).isOpen = false) :
    (firstBad (imageChecks (paramBytes s c)) = none → exec (.restoreStream id) s =
      .next (doneCmd s c [.openStream (pktStream c) (restoredStream (paramBytes s c)), .clearAudit (pktStream c)])) ∧
    ∀ o, firstBad (imageChecks (paramBytes s c)) = some o → exec (.restoreStream id) s = .next (lateBad s c (inBlock o)) := by
  refine ⟨fun h => ?_, fun o h => ?_⟩
  all_goals
    refine congrArg Host.Outcome.next ((onCmd_of_started hc _).trans ?_)
    rw [withParams_of_fine hf]
    refine (if_neg (by rw [hclosed]; decide)).trans ?_
    rw [h]

end

end

/-! ## Stream images (R249, Table STRM-7) -/

/-- The stream whose context an image holds: without WITH_HISTORY its history is left out. -/
def savedContext (st : Stream) (full : Bool) : Stream :=
  if full then { st with histHead := st.hist.length % 4096 } else { st with hist := [], histHead := 0, histValid := false }

/-- The context, the bias list and the history of an image. -/
def imageBody (sid : Nat) (st : Stream) (full : Bool) : List Byte :=
  ctxBytes sid (savedContext st full) ++ padTo 2048 (biasBytes st.bias) ++
    padTo 16384 (if full then st.hist.flatMap (leBytes 4) else [])

/-- An image is its body, the check of that body, and 12 bytes of 0. -/
theorem imageBytes_eq (sid : Nat) (st : Stream) (full : Bool) :
    imageBytes sid st full = imageBody sid st full ++ leBytes 4 (crc32c (imageBody sid st full)) ++ leBytes 12 0 := by
  cases full <;> rfl

theorem imageBody_length (sid : Nat) {st : Stream} (full : Bool) (hbias : st.bias.length ≤ 256) (hhist : st.hist.length ≤ 4096) :
    (imageBody sid st full).length = 0x4A00 := by
  have hpairs : (padTo 2048 (biasBytes st.bias)).length = 2048 := padTo_length _ _ (by rw [biasBytes_length]; omega)
  have htokens : (padTo 16384 (if full then st.hist.flatMap (leBytes 4) else [])).length = 16384 := by
    refine padTo_length _ _ ?_
    cases full with
    | false => exact Nat.zero_le _
    | true => rw [if_pos rfl, histBytes_length]; omega
  rw [imageBody, List.length_append, List.length_append, ctxBytes_length, hpairs, htokens]

theorem imageBytes_length (sid : Nat) {st : Stream} (full : Bool) (hbias : st.bias.length ≤ 256) (hhist : st.hist.length ≤ 4096) :
    (imageBytes sid st full).length = 18960 := by
  rw [imageBytes_eq, List.length_append, List.length_append, leBytes_length, leBytes_length, imageBody_length sid full hbias hhist]

end Sys2Proof.Laws
end

section
/-! OPEN_STREAM, SET_STREAM_PARAMS, CLOSE_STREAM, REBUILD_HISTORY, RESTORE_STREAM and SAVE_STREAM settled (09_streams.md). -/

open Sys2Proof Sys2Proof.Machine

namespace Sys2Proof.Laws

/-- Settles O30: both commands stage what their block says (`exec_openStream_of_started`, `exec_setStreamParams_kept`), and an update
sets the fields of its bits alone (`applyParams_plain`). -/
theorem openAndSetParamsStageContext : Obligations.OpenAndSetParamsStageContext := by
  unfold Obligations.OpenAndSetParamsStageContext
  intro s id c hf b sid bias
  refine ⟨fun hc hclosed => ?opened, fun hc hopen => ?already, fun hc hopen _ h2 h4 h7 hlimits => ?update⟩
  case opened =>
    obtain ⟨u, hrun, hended, hkept⟩ := endsStaging_of_finish (status := 0) (detail := 0) hc (exec_openStream_of_started hf hc)
      (if_neg (by rw [show (streamOf s (pktStream c)).isOpen = false from hclosed]; decide))
    exact ⟨u, _, hrun, hended, hkept, rfl, rfl, rfl, rfl, rfl, rfl, rfl, rfl, rfl, rfl, rfl, rfl, rfl, rfl, rfl, rfl, rfl, rfl, rfl,
      rfl, openedStream_modes _ _ _⟩
  case already => exact endsStaging_of_finish hc (exec_openStream_of_started hf hc) (if_pos hopen)
  case update =>
    obtain ⟨u, hrun, hended, hkept⟩ :=
      endsStaging_of_finish (status := 0) (detail := 0) hc (exec_setStreamParams_kept hf hc hopen h7 hlimits) rfl
    exact ⟨u, hrun, hended, hkept, applyParams_plain _ _ _ _ _ h2 h4 h7⟩

/-- Settles O31: the command stages the close of its stream, and its record clears the stream in the Ledger and in the vault. -/
theorem closeStreamClearsContext : Obligations.CloseStreamClearsContext := by
  unfold Obligations.CloseStreamClearsContext
  intro s id c hc hr
  refine ⟨fun hopen => ?_, fun hclosed => ?_⟩
  · have hstaged := (exec_closeStream_of_started hc).trans (congrArg Host.Outcome.next (if_neg (by
      rw [show (streamOf s (pktStream c)).isOpen = true from hopen]; decide)))
    refine ⟨_, hstaged, rfl, fun t => ⟨_, rfl, ?_⟩⟩
    obtain ⟨hcmd, rfl, -, -⟩ := startedCmd_spec hc
    have hdue := recordDue_of_ready hcmd hr 0 0 0 [.closeStream (pktStream c)] rfl (List.forall_mem_singleton.2 hopen) (max s.now t)
    obtain ⟨hstreams, hvault, hmodels, hmasks, -⟩ := recordDue_parts hdue
    obtain ⟨hself, hother⟩ := streamOf_of_mapIns (s := s) hstreams
    refine ⟨hself, (congrArg (fun v => mapGet [] v.bias _) hvault).trans (mapGet_mapIns_self _ _ _ _), fun p hp => ?_, hmasks,
      (congrArg Vault.masks hvault :), hmodels, hother⟩
    have hslots := congrArg (fun v : Vault => v.slotA.contexts ++ v.slotB.contexts) hvault
    exact (List.mem_append.1 (Eq.mp (congrArg (p ∈ ·) hslots) hp)).elim clearSlot_contexts clearSlot_contexts
  · exact endsStaging_of_finish hc (exec_closeStream_of_started hc) (if_pos (by
      rw [show (streamOf s (pktStream c)).isOpen = false from hclosed]; decide))

/-- Settles O32: REBUILD_HISTORY by its mode, RESTORE_STREAM by what `firstBad` finds in the image. -/
theorem rebuildAndRestoreStageHistory : Obligations.RebuildAndRestoreStageHistory := by
  unfold Obligations.RebuildAndRestoreStageHistory
  intro s id c hf b sid
  refine ⟨fun hc hopen => ⟨fun hmode => ?_, fun hmode hvalid => ?_⟩, fun hc hclosed => ?_⟩
  · refine endsStaging_of_finish hc (exec_rebuildHistory_of_started hf hc hopen) (if_neg ?_)
    rcases hmode with hreplace | hvalid
    · rw [decide_eq_false hreplace]
      exact Bool.false_ne_true
    · rw [show (streamOf s (pktStream c)).histValid = true from hvalid, Bool.not_true, Bool.and_false]
      decide
  · refine endsStaging_of_finish hc (exec_rebuildHistory_of_started hf hc hopen) (if_pos ?_)
    rw [show (streamOf s (pktStream c)).histValid = false from hvalid, hmode]
    rfl
  · obtain ⟨hpass, hfail⟩ := doRestoreStream_of_started hf hc hclosed
    refine ⟨fun hall => ?_, fun hbad => ?_⟩
    · obtain ⟨u, hrun, hended, hkept⟩ :=
        endsStaging_of_finish (status := 0) (detail := 0) hc (hpass (firstBad_eq_none_iff.2 hall)) rfl
      exact ⟨u, hrun, hkept, hended⟩
    · obtain ⟨o, ho⟩ := firstBad_of_failing hbad
      obtain ⟨u, hrun, hended, hkept⟩ := endsStaging_of_finish (status := 0x20) (detail := inBlock o) hc (hfail o ho) rfl
      exact ⟨u, _, hrun, hended, hkept⟩

/-- Settles O33: the image's three parts have their lengths, and the one block written is `imageBytes`. -/
theorem saveStreamWritesImage : Obligations.SaveStreamWritesImage := by
  unfold Obligations.SaveStreamWritesImage
  intro s id c hw ht hc hopen hbias hhist st full st' body
  obtain ⟨m, hwrite, hblock⟩ := hostWrite_block hw ht (pktParam c) (imageBytes (pktStream c) st full)
  have hlen : (imageBytes (pktStream c) st full).length = 18960 := imageBytes_length _ _ hbias hhist
  have hrun : doSaveStream s id = doneCmd { s with host := m } c [] := by
    refine (onCmd_of_started hc _).trans ((if_neg (by
      rw [show (streamOf s (pktStream c)).isOpen = true from hopen]; decide)).trans ?_)
    exact congrArg (fun x => doneCmd x c []) hwrite
  obtain ⟨-, rfl, -, -⟩ := startedCmd_spec hc
  have hwhole : memBytes m (pktParam c) 18960 = imageBytes (pktStream c) st full := hlen ▸ hblock.whole
  exact ⟨_, congrArg Host.Outcome.next hrun, ranTo_finish rfl _ _ _ _ _, imageBody_length _ _ hbias hhist,
    hwhole.trans (imageBytes_eq _ _ _), hblock.sameOutside (u := { s with host := m }) hlen, rfl⟩

end Sys2Proof.Laws
end

section
/-! SUPPORT. A stream image read back: the fields of its context, its bias list, its history and its two checks (R249, R250). -/

open Sys2Proof Sys2Proof.Machine

namespace Sys2Proof.Laws

/-- A CRC-32C fills its four bytes. -/
theorem crc32c_mod (bs : List Byte) : crc32c bs % 256 ^ 4 = crc32c bs := Nat.mod_eq_of_lt (crc32c_lt bs)

/-! ## The parts of a full image -/

section
variable (sid : Nat) (st : Stream)

/-- The context an image WITH_HISTORY holds. -/
abbrev fullContext : Stream := savedContext st true

/-- The bytes of a full image after its context. -/
def imageTail : List Byte :=
  padTo 2048 (biasBytes st.bias) ++ (padTo 16384 (st.hist.flatMap (leBytes 4)) ++
    (leBytes 4 (crc32c (imageBody sid st true)) ++ leBytes 12 0))

theorem imageBytes_parts : imageBytes sid st true = ctxBytes sid (fullContext st) ++ imageTail sid st := by
  rw [imageBytes_eq, imageTail, imageBody]
  simp only [List.append_assoc, if_true]

theorem image_take_context : (imageBytes sid st true).take 512 = ctxBytes sid (fullContext st) := by
  rw [imageBytes_parts]
  exact List.take_left' (ctxBytes_length _ _)

/-- The k-th field of the context of a full image. -/
theorem image_field (k : Nat) {n v o : Nat} (h : (ctxSegs sid (fullContext st)).drop k = (n, v) :: (ctxSegs sid (fullContext st)).drop (k + 1))
    (ho : o = segLen ((ctxSegs sid (fullContext st)).take k)) : fieldAt (imageBytes sid st true) o n = v % 256 ^ n := by
  rw [imageBytes_parts]
  exact ctx_field sid _ _ _ _ n v o ((List.take_append_drop k _).symm.trans (congrArg _ h)) ho

theorem image_flags : fieldAt (imageBytes sid st true) 0x18 1 =
    (b2n st.isOpen + 2 * b2n st.histValid + 4 * b2n st.ringBound) % 256 ^ 1 :=
  image_field sid st 3 rfl (by simp only [ctxSegs, List.take, segLen])

theorem image_biasCount : fieldAt (imageBytes sid st true) 0x3C 2 = st.bias.length % 256 ^ 2 :=
  image_field sid st 14 rfl (by simp only [ctxSegs, List.take, segLen])

theorem image_histCount : fieldAt (imageBytes sid st true) 0x3E 2 = st.hist.length % 256 ^ 2 :=
  image_field sid st 15 rfl (by simp only [ctxSegs, List.take, segLen])

theorem image_histHead : fieldAt (imageBytes sid st true) 0x58 2 = st.hist.length % 4096 % 256 ^ 2 :=
  image_field sid st 18 rfl (by simp only [ctxSegs, List.take, segLen])

/-- The reserved bytes between two fields of the context are 0. -/
theorem image_zeros (k : Nat) {n lo hi : Nat}
    (h : (ctxSegs sid (fullContext st)).drop k = (n, 0) :: (ctxSegs sid (fullContext st)).drop (k + 1))
    (ho : lo = segLen ((ctxSegs sid (fullContext st)).take k)) (hn : hi - lo = n) :
    zeroField (imageBytes sid st true) lo hi = (lo, true) := by
  refine zeroField_of (k := n) ?_
  rw [hn, imageBytes_parts, ctxBytes_segs, List.append_assoc, ← List.take_append_drop k (ctxSegs sid (fullContext st)), h, ← leBytes_zero]
  exact slice_segs _ _ _ _ _ _ ho

/-- CTX_CHECK holds. -/
theorem image_contextCheck : fieldAt (imageBytes sid st true) 0x1FC 4 = crc32c ((imageBytes sid st true).take 0x1FC) := by
  have hlen := ctxSegs_length sid (fullContext st)
  rw [imageBytes_parts, ctxBytes_segs, List.append_assoc, List.take_left' hlen]
  have hright := fieldAt_right (segs (ctxSegs sid (fullContext st)))
    (leBytes 4 (crc32c (segs (ctxSegs sid (fullContext st)))) ++ imageTail sid st) 0 4
  rw [hlen, fieldAt_leBytes, crc32c_mod] at hright
  exact hright

section
variable {st} (hbias : st.bias.length ≤ 256)
include hbias

/-- The bias list read back. -/
theorem image_bias (hidx : ∀ p ∈ st.bias, p.1 < 2 ^ 32) :
    parsePairs (slice (imageBytes sid st true) 0x200 2048) (fieldAt (imageBytes sid st true) 0x3C 2) = st.bias := by
  have hpad : (padTo 2048 (biasBytes st.bias)).length = 2048 := padTo_length _ _ (by rw [biasBytes_length]; omega)
  have hslice : slice (imageBytes sid st true) 0x200 2048 = padTo 2048 (biasBytes st.bias) := by
    rw [imageBytes_parts, ← ctxBytes_length sid (fullContext st)]
    exact slice_exact _ _ _ _ hpad
  rw [hslice, image_biasCount, Nat.mod_eq_of_lt (by omega)]
  exact parsePairs_biasBytes _ _ hidx

/-- The history read back, oldest token first. -/
theorem image_hist (hhist : st.hist.length ≤ 4096) (htok : ∀ t ∈ st.hist, t < 2 ^ 32) :
    ((List.range (fieldAt (imageBytes sid st true) 0x3E 2)).map fun i => fieldAt (imageBytes sid st true) (0xA00 + 4 * i) 4) =
      st.hist := by
  have hpad : (padTo 2048 (biasBytes st.bias)).length = 2048 := padTo_length _ _ (by rw [biasBytes_length]; omega)
  have hlen : (ctxBytes sid (fullContext st) ++ padTo 2048 (biasBytes st.bias)).length = 0xA00 := by
    rw [List.length_append, ctxBytes_length, hpad]
  have hfield (i : Nat) : fieldAt (imageBytes sid st true) (0xA00 + 4 * i) 4 =
      fieldAt (padTo 16384 (st.hist.flatMap (leBytes 4)) ++ (leBytes 4 (crc32c (imageBody sid st true)) ++ leBytes 12 0)) (4 * i) 4 := by
    rw [imageBytes_parts, imageTail, ← List.append_assoc, ← hlen]
    exact fieldAt_right _ _ _ _
  rw [image_histCount, Nat.mod_eq_of_lt (by omega), List.map_congr_left fun i _ => hfield i, padTo, List.append_assoc]
  exact tokens_histBytes _ _ htok

/-- IMAGE_CHECK holds, and the bytes after it are 0. -/
theorem image_bodyCheck (hhist : st.hist.length ≤ 4096) :
    fieldAt (imageBytes sid st true) 0x4A00 4 = crc32c ((imageBytes sid st true).take 0x4A00) ∧
    zeroField (imageBytes sid st true) 0x4A04 0x4A10 = (0x4A04, true) := by
  have hlen := imageBody_length sid true hbias hhist
  have hcheck := fieldAt_right (imageBody sid st true) (leBytes 4 (crc32c (imageBody sid st true)) ++ leBytes 12 0) 0 4
  have hend := slice_append_right (imageBody sid st true ++ leBytes 4 (crc32c (imageBody sid st true))) (leBytes 12 0) 0 12
  rw [hlen, fieldAt_leBytes, crc32c_mod, ← List.append_assoc] at hcheck
  rw [List.length_append, leBytes_length, hlen] at hend
  rw [imageBytes_eq]
  refine ⟨?_, zeroField_of (k := 12) (hend.trans ?_)⟩
  · rw [List.append_assoc, List.take_left' hlen, ← List.append_assoc]
    exact hcheck
  · decide

end

/-! ## The parameters in the context -/

/-- The fields of a context before HIST_HEAD are the same bytes in a full image as in the context of the stream as it stands. -/
theorem image_parameter {o n : Nat} (h : o + n ≤ 0x58) : fieldAt (imageBytes sid st true) o n = fieldAt (ctxBytes sid st) o n := by
  have hhead (st : Stream) : segs (ctxSegs sid st) = segs ((ctxSegs sid st).take 18) ++ segs ((ctxSegs sid st).drop 18) := by
    rw [← segs_append, List.take_append_drop]
  have hlen : (segs ((ctxSegs sid st).take 18)).length = 0x58 := by rw [segs_length]; simp only [ctxSegs, List.take, segLen]
  have hsame : (ctxSegs sid (fullContext st)).take 18 = (ctxSegs sid st).take 18 := rfl
  rw [imageBytes_parts, ctxBytes_segs, ctxBytes_segs, hhead, hhead, hsame]
  simp only [List.append_assoc]
  rw [fieldAt_left _ _ _ _ (hlen ▸ h), fieldAt_left _ _ _ _ (hlen ▸ h)]

end

/-- The parameter checks look at the fields before HIST_HEAD alone. -/
theorem paramChecks_congr {a b : List Byte} (h : ∀ o n, o + n ≤ 0x58 → fieldAt a o n = fieldAt b o n) (sel : Nat → Bool) :
    paramChecks a sel = paramChecks b sel := by
  simp only [paramChecks, word32, h 0x19 1 (by decide), h 0x1A 2 (by decide), h 0x1C 4 (by decide), h 0x20 4 (by decide),
    h 0x24 4 (by decide), h 0x28 4 (by decide), h 0x2C 4 (by decide), h 0x30 4 (by decide), h 0x34 4 (by decide),
    h 0x38 4 (by decide), h 0x3C 2 (by decide), h 0x40 8 (by decide)]

/-- A stream whose fields fit their places in a context (Table STRM-2). -/
structure FitsContext (st : Stream) : Prop where
  step : st.step < 2 ^ 48
  modes : st.modes < 256
  window : st.window < 65536
  topK : st.topK < 2 ^ 32
  maskSpec : st.maskSpec < 2 ^ 64
  userTag : st.userTag < 2 ^ 64
  biasCount : st.bias.length ≤ 256
  biasIndex : ∀ p ∈ st.bias, p.1 < 2 ^ 32
  histCount : st.hist.length ≤ 4096
  tokens : ∀ t ∈ st.hist, t < 2 ^ 32

namespace FitsContext
variable {sid : Nat} {st : Stream} (h : FitsContext st)
include h

/-- The context of a full image read back, with any bias list and history. -/
theorem parse_image (bias : List (Nat × Word)) (hist : List Nat) :
    parseCtx ((imageBytes sid st true).take 512) bias hist = { fullContext st with bias := bias, hist := hist } := by
  rw [image_take_context]
  exact parse_ctx sid (fullContext st) bias hist h.step h.modes h.window h.topK h.maskSpec h.userTag (Nat.mod_lt _ (by decide))

/-- Decode of encode: a full image gives back its stream. -/
theorem imageStream_eq : imageStream (imageBytes sid st true) = fullContext st := by
  rw [imageStream, h.parse_image, image_bias sid h.biasCount h.biasIndex]
  exact congrArg (fun l => { fullContext st with hist := l }) (image_hist sid h.biasCount h.histCount h.tokens)

/-- Every check of a full image passes where its parameters and limits hold. -/
theorem imageChecks_pass (hopen : st.isOpen = true) (hparams : ∀ p ∈ paramChecks (ctxBytes sid st) (fun _ => true), p.2 = true)
    (hlimits : ∀ p ∈ limitChecks st (fun _ => true), p.2 = true) (hbias : biasBad st.bias = none) :
    ∀ p ∈ imageChecks (imageBytes sid st true), p.2 = true := by
  obtain ⟨hbit, -, -, hhigh⟩ := flagBits st.isOpen st.histValid st.ringBound
  have hhead : st.hist.length % 4096 % 256 ^ 2 < 4096 := by omega
  have hcount : st.hist.length % 256 ^ 2 ≤ 4096 := by have := h.histCount; omega
  obtain ⟨hcheck, hend⟩ := image_bodyCheck sid h.biasCount h.histCount
  have hreserved := image_zeros sid st 19 (n := 6) (lo := 0x5A) (hi := 0x60) rfl (by simp only [ctxSegs, List.take, segLen]) rfl
  have hpadding := image_zeros sid st 21 (n := 404) (lo := 0x68) (hi := 0x1FC) rfl (by simp only [ctxSegs, List.take, segLen]) rfl
  unfold imageChecks
  dsimp only
  rw [image_flags, image_histCount, image_histHead, h.parse_image, image_bias sid h.biasCount h.biasIndex, hbias,
    paramChecks_congr (fun o n => image_parameter sid st (o := o) (n := n)), hreserved, hpadding, hend, hbit, hhigh, hopen]
  intro p hp
  simp only [List.mem_append] at hp
  rcases hp with ((hflags | hparam) | hlimit) | hrest
  · rw [List.mem_singleton.1 hflags]
    rfl
  · exact hparams p hparam
  · exact hlimits p hlimit
  · revert p hrest
    simp only [List.forall_mem_cons]
    exact ⟨decide_eq_true hcount, decide_eq_true hhead, trivial, trivial, beq_iff_eq.2 (image_contextCheck sid st), rfl,
      beq_iff_eq.2 hcheck, trivial, List.forall_mem_nil _⟩

end FitsContext

end Sys2Proof.Laws
end

section
/-! SAVE_STREAM and RESTORE_STREAM settled against each other (R249, R250). -/

open Sys2Proof Sys2Proof.Machine

namespace Sys2Proof.Laws

/-- Settles O34: a full image gives back its stream (`FitsContext.imageStream_eq`) and passes the checks (`imageChecks_pass`). -/
theorem savedImageRestoresContext : Obligations.SavedImageRestoresContext := by
  unfold Obligations.SavedImageRestoresContext
  intro sid st _ hopen hstep hmodes hwindow htopK hmask htag hbias hidx hhist htok
  have hfits : FitsContext st := ⟨hstep, hmodes, hwindow, htopK, hmask, htag, hbias, hidx, hhist, htok⟩
  exact ⟨hfits.imageStream_eq, hfits.imageChecks_pass hopen⟩

end Sys2Proof.Laws
end

section
/-! SUPPORT. LOAD_MASK, LOAD_FUNCTION and CLEAR_COUNTERS: what they read, write and stage (R129, R248, R332, R333, R340). -/

open Sys2Proof Sys2Proof.Machine

namespace Sys2Proof.Laws

/-! ## LOAD_MASK (R248, R333) -/

/-- Bit i of a little-endian value is bit i mod 8 of its byte i / 8. -/
theorem leNat_testBit (bs : List Byte) (i : Nat) : (leNat bs).testBit i = (nth 0#8 bs (i / 8)).toNat.testBit (i % 8) := by
  induction bs generalizing i with
  | nil => rw [leNat, Nat.zero_testBit, nth, List.getD_nil, BitVec.toNat_zero, Nat.zero_testBit]
  | cons b bs ih =>
    rw [leNat, Nat.add_comm, show 256 = 2 ^ 8 from rfl, Nat.testBit_two_pow_mul_add _ b.isLt]
    by_cases hi : i < 8
    · rw [if_pos hi, Nat.div_eq_of_lt hi, Nat.mod_eq_of_lt hi]
      rfl
    · have hdiv : i / 8 = (i - 8) / 8 + 1 := by omega
      have hmod : i % 8 = (i - 8) % 8 := by omega
      rw [if_neg hi, ih, hdiv, hmod]
      rfl

/-- Bit i of the len bits at an address (R333). -/
theorem maskBits_testBit (s : State) (a : Nat) {len i : Nat} (hi : i < len) :
    (leNat (hostBytes s a (ceilDiv len 8)) % 2 ^ len).testBit i = (memByte s.host (a + i / 8)).toNat.testBit (i % 8) := by
  have hbyte : i / 8 < ceilDiv len 8 := by unfold ceilDiv; omega
  have hread : nth 0#8 (hostBytes s a (ceilDiv len 8)) (i / 8) = memByte s.host (a + i / 8) := by
    rw [nth, hostBytes, memBytes, List.getD_eq_getElem?_getD, List.getElem?_map, List.getElem?_range hbyte]
    rfl
  rw [Nat.testBit_mod_two_pow, leNat_testBit, hread, decide_eq_true hi, Bool.true_and]

section
variable {s : State} {id : Nat} {c : Cmd} (hf : hostFine s = true) (hc : startedCmd s id 0x51 = some c)
include hf hc

theorem exec_loadMask_of_started : let b := paramBytes s c
    exec (.loadMask id) s = .next (if fieldAt b 4 4 = 0 then doneCmd s c [.mask (fieldAt b 0 2) none]
      else if 134217728 < maskBytes s (fieldAt b 0 2) + ceilDiv (fieldAt b 4 4) 8 then finishCmd s c.id 0x30 0 0 []
      else doneCmd s c [.mask (fieldAt b 0 2)
        (some ⟨fieldAt b 4 4, leNat (hostBytes s (fieldAt b 8 8) (ceilDiv (fieldAt b 4 4) 8)) % 2 ^ fieldAt b 4 4⟩)]) := by
  refine congrArg Host.Outcome.next ((onCmd_of_started hc _).trans ?_)
  rw [withParams_of_fine hf]
  simp only [withList_of_fine hf]

end

/-! ## CLEAR_COUNTERS (R340) -/

/-- The counters of a list after CLEAR_COUNTERS, one by one. -/
theorem clearSelected_eq (mask : Nat) (l : List Nat) :
    clearSelected mask l = (List.range l.length).map fun i => if mask = 0 ∨ bit mask i = true then 0 else nth 0 l i := by
  rw [clearSelected, withIndex_eq_map 0, List.map_map]
  exact List.map_congr_left fun i _ => if_congr (by simp only [Bool.or_eq_true, decide_eq_true_eq]) rfl rfl

/-- A list of counters cleared where a bit of SCOPE asks for it. -/
theorem cleared_of_eq {on : Bool} {mask : Nat} {l l' : List Nat} (h : l' = if on then clearSelected mask l else l) :
    if on then l' = (List.range l.length).map fun i => if mask = 0 ∨ bit mask i = true then 0 else nth 0 l i else l' = l := by
  cases on with
  | false => exact h
  | true => exact h.trans (clearSelected_eq mask l)

/-- A chip after CLEAR_COUNTERS. -/
def clearedChip (scope mask : Nat) (ch : Chip) : Chip :=
  { ch with
    cores := if bit scope 0 then ch.cores.map fun k => { k with counters := clearSelected mask k.counters } else ch.cores
    hbm := if bit scope 2 then clearSelected mask ch.hbm else ch.hbm
    counters := if bit scope 3 then clearSelected mask ch.counters else ch.counters }

theorem chipOf_clearCounterSets {s u : State} {scope mask k : Nat} (h : u.chips = s.chips.map (clearedChip scope mask))
    (hk : k < s.chips.length) : chipOf u k = clearedChip scope mask (chipOf s k) := by
  rw [chipOf, chipOf, h, nth, nth, List.getD_eq_getElem?_getD, List.getD_eq_getElem?_getD, List.getElem?_map,
    List.getElem?_eq_getElem hk]
  rfl

/-- A core of a cleared chip: its counters are cleared where SCOPE bit 0 is set, and the rest of it stays. -/
theorem clearedChip_core (scope mask : Nat) (ch : Chip) {j : Nat} (hj : j < ch.cores.length) :
    nth (Core.fresh j) (clearedChip scope mask ch).cores j = { nth (Core.fresh j) ch.cores j with
      counters := if bit scope 0 then clearSelected mask (nth (Core.fresh j) ch.cores j).counters
        else (nth (Core.fresh j) ch.cores j).counters } := by
  rw [nth, nth, List.getD_eq_getElem?_getD, List.getD_eq_getElem?_getD, clearedChip]
  by_cases h : bit scope 0 = true
  · simp only [if_pos h, List.getElem?_map, List.getElem?_eq_getElem hj, Option.map_some, Option.getD_some]
  · simp only [if_neg h]

/-- The record of CLEAR_COUNTERS leaves the chips, the links and the tray's counters as the commit makes them. -/
theorem clearCounters_record {s : State} {id op : Nat} {c : Cmd} (hc : startedCmd s id op = some c) (hr : recordReady s c)
    (scope mask : Nat) (t : Tick) :
    let x := doCompletionRecordWrite (doneCmd s c [.clearCounters scope mask]) id t
    let w := clearCounterSets s scope mask
    x.chips = w.chips ∧ x.mesh = w.mesh ∧ x.totals = w.totals := by
  obtain ⟨hcmd, rfl, -, -⟩ := startedCmd_spec hc
  have hdue := recordDue_of_ready hcmd hr 0 0 0 [.clearCounters scope mask] rfl (List.forall_mem_singleton.2 rfl) (max s.now t)
  obtain ⟨-, -, -, -, -, -, hchips, hmesh, htotals, -⟩ := recordDue_parts hdue
  exact ⟨hchips, hmesh, htotals⟩

/-! ## LOAD_FUNCTION (R129, R332) -/

/-- REPORT_CODE is one byte. -/
theorem imageReport_code_lt (bs : List Byte) (occupied : Nat → Bool) : (imageReport bs occupied).1 < 256 := by
  unfold imageReport
  dsimp only
  split
  · exact (by decide : 1 < 256)
  · split
    · exact (by decide : 2 < 256)
    · split
      · exact (by decide : 3 < 256)
      · split
        · exact (by decide : 4 < 256)
        · exact (by decide : 0 < 256)

/-- The verdict of LOAD_FUNCTION on the image at its parameter block. -/
def loadReport (s : State) (c : Cmd) : Nat × Word × Word × Word :=
  imageReport (paramBytes s c) fun slot => s.functions.any fun p => p.1 == slot

/-- What LOAD_FUNCTION writes into its image: REPORT_CODE and the FAIL fields. -/
def reportWrites (s : State) (c : Cmd) : List (Nat × List Byte) :=
  let r := loadReport s c
  [(pktParam c + 0x14, leBytes 1 r.1),
   (pktParam c + 0x18, leBytes 4 r.2.1.toNat ++ leBytes 4 r.2.2.1.toNat ++ leBytes 4 r.2.2.2.toNat)]

section
variable {s : State} {id : Nat} {c : Cmd} (hf : hostFine s = true)
include hf

theorem doLoadFunction_of_fine (hc : startedCmd s id 0x50 = some c) : doLoadFunction s id [] =
    if (loadReport s c).1 = 0 then doneCmd (writeAll s (reportWrites s c)) c [.function (fieldAt (paramBytes s c) 1 1) (paramBytes s c)]
    else finishCmd (writeAll s (reportWrites s c)) c.id 0x20 (loadReport s c).1 0 [] := by
  refine (onCmd_of_started hc _).trans ?_
  rw [withParams_of_fine hf]
  rfl

/-- The report is read back from its byte, and no byte outside the two fields changes. -/
theorem reportWrites_written (hw : memoriesWf s = true) :
    memByte (writeAll s (reportWrites s c)).host (pktParam c + 0x14) = BitVec.ofNat 8 (loadReport s c).1 ∧
    sameOutside [(pktParam c + 0x14, 1), (pktParam c + 0x18, 12)] s (writeAll s (reportWrites s c)) := by
  have ht := trained_of_fine hf
  have hinside : ∀ w ∈ reportWrites s c, ∃ p ∈ [(pktParam c + 0x14, 1), (pktParam c + 0x18, 12)],
      p.1 ≤ w.1 ∧ w.1 + w.2.length ≤ p.1 + p.2 := by
    simp only [reportWrites, List.forall_mem_cons, List.length_append, leBytes_length]
    exact ⟨⟨_, List.mem_cons_self, Nat.le_refl _, Nat.le_refl _⟩,
      ⟨_, List.mem_cons_of_mem _ List.mem_cons_self, Nat.le_refl _, Nat.le_refl _⟩, List.forall_mem_nil _⟩
  have hread := writeAll_read (reportWrites s c) (pktParam c + 0x14, leBytes 1 (loadReport s c).1) List.mem_cons_self (by
    simp only [reportWrites, List.forall_mem_cons, leBytes_length]
    exact ⟨.inl trivial, .inr (.inr (by omega)), List.forall_mem_nil _⟩) s hw ht
  exact ⟨(List.cons.inj hread).1, (writeAll_ran _ _ hinside s hw ht).1⟩

end

end Sys2Proof.Laws
end

section
/-! LOAD_MASK, LOAD_FUNCTION and CLEAR_COUNTERS settled (11_data_processing_operators.md). -/

open Sys2Proof Sys2Proof.Machine

namespace Sys2Proof.Laws

/-- Settles O37: each command stages what its block says; the record of CLEAR_COUNTERS leaves `clearedChip` of every chip, and
LOAD_FUNCTION writes its report in two blocks (`reportWrites_written`). -/
theorem loadMaskFunctionAndClearCounters : Obligations.LoadMaskFunctionAndClearCounters := by
  unfold Obligations.LoadMaskFunctionAndClearCounters
  intro s id c hf b
  refine ⟨fun hc => ⟨fun hlen => ?freed, fun hlen hfits => ?loaded, fun hlen hover => ?full⟩, fun hc hr => ?clear,
    fun hc hw => ?function⟩
  case freed => exact endsStaging_of_finish hc (exec_loadMask_of_started hf hc) (if_pos hlen)
  case loaded =>
    obtain ⟨u, hrun, hended, hkept⟩ := endsStaging_of_finish (status := 0) (detail := 0) hc (exec_loadMask_of_started hf hc)
      ((if_neg hlen).trans (if_neg (Nat.not_lt.2 hfits)))
    exact ⟨u, _, hrun, hended, hkept, rfl, fun i hi => maskBits_testBit s _ hi⟩
  case full => exact endsStaging_of_finish hc (exec_loadMask_of_started hf hc) ((if_neg hlen).trans (if_pos hover))
  case clear =>
    intro z
    have hrun : exec (.clearCounters id) s = .next (doneCmd s c [.clearCounters (fieldAt b 0 1) (fieldAt b 4 4)]) :=
      congrArg Host.Outcome.next ((onCmd_of_started hc _).trans (withParams_of_fine hf c _))
    refine ⟨_, hrun, rfl, fun t => ⟨_, rfl, ?_⟩⟩
    obtain ⟨hchips, hmesh, htotals⟩ := clearCounters_record hc hr (fieldAt b 0 1) (fieldAt b 4 4) t
    refine ⟨(congrArg List.length hchips).trans (List.length_map _), cleared_of_eq htotals, fun k hk => ?_, fun h1 => ?_, fun h1 => ?_⟩
    · have hchip := chipOf_clearCounterSets hchips hk
      refine ⟨cleared_of_eq (congrArg Chip.hbm hchip), cleared_of_eq (congrArg Chip.counters hchip), fun j hj => ?_⟩
      have hcore := (congrArg (fun ch : Chip => nth (Core.fresh j) ch.cores j) hchip).trans (clearedChip_core _ _ _ hj)
      exact ⟨cleared_of_eq (congrArg Core.counters hcore), congrArg (fun q : Core => { q with counters := (nth (Core.fresh j) (chipOf s k).cores j).counters }) hcore⟩
    · exact hmesh.trans (if_neg (by rw [h1]; exact Bool.false_ne_true))
    · refine (congrArg (List.map fun l : Link => l.counters) (hmesh.trans (if_pos h1))).trans ?_
      rw [List.map_map]
      exact List.map_congr_left fun l _ => clearSelected_eq _ _
  case function =>
    obtain ⟨hcode, houtside⟩ := reportWrites_written (c := c) hf hw
    obtain ⟨m, hwritten⟩ := writeAll_onlyHost hw (trained_of_fine hf) (reportWrites s c)
    have hrun := doLoadFunction_of_fine hf hc
    have hlt : (loadReport s c).1 < 256 := imageReport_code_lt _ _
    obtain ⟨-, rfl, -, -⟩ := startedCmd_spec hc
    rw [hwritten] at hrun hcode houtside
    by_cases hzero : (loadReport s c).1 = 0
    · rw [if_pos hzero] at hrun
      rw [hzero] at hcode
      exact ⟨_, _, congrArg Host.Outcome.next hrun, hcode, fun _ => ranTo_finish rfl _ _ _ _ _, fun h => absurd rfl h, houtside, rfl⟩
    · rw [if_neg hzero] at hrun
      have hbyte : (BitVec.ofNat 8 (loadReport s c).1).toNat = (loadReport s c).1 := by
        rw [BitVec.toNat_ofNat, Nat.mod_eq_of_lt hlt]
      refine ⟨_, _, congrArg Host.Outcome.next hrun, hcode, fun h => absurd ?_ hzero, fun _ => ?_, houtside, rfl⟩
      · rw [h] at hbyte
        exact hbyte.symm
      · rw [hbyte]
        exact ranTo_finish rfl _ _ _ _ _

end Sys2Proof.Laws
end

section
/-! SUPPORT. One link of the fabric through a run of changes: its two directions, and everything beside it (R347 to R354). -/

open Sys2Proof Sys2Proof.Machine

namespace Sys2Proof.Laws

/-! ## Links that are not the pair's -/

/-- A chip's link to any other partner is another one. -/
theorem linkIndex_ne {a b h : Nat} (ha : a < 8) (hb : b < 8) (hab : a ≠ b) (hne : h ≠ a) : linkIndex b h ≠ linkIndex a b := by
  intro heq
  have hlt : linkIndex b h < linkPairs.length := heq ▸ Nat.lt_of_lt_of_le (linkIndex_lt ha hb hab) (by decide)
  have hhit : (linkPairs[linkIndex b h]'hlt).1 = min b h ∧ (linkPairs[linkIndex b h]'hlt).2 = max b h := by
    have := List.findIdx_getElem (p := fun p : Nat × Nat => p.1 == min b h && p.2 == max b h) (w := hlt)
    simp only [Bool.and_eq_true, beq_iff_eq] at this
    exact this
  have hpair : linkPairs[linkIndex b h]'hlt = (min a b, max a b) := by
    have := linkIndex_pair a ha b hb hab
    rw [← heq, List.getElem?_eq_getElem hlt] at this
    exact Option.some.inj this
  rw [hpair] at hhit
  obtain ⟨hmin, hmax⟩ := hhit
  omega

theorem linkFailed_comm {s : State} {a b : Nat} (h : linkIndex a b < s.mesh.length) : linkFailed s a b = linkFailed s b a :=
  congrArg Link.failed (linkOf_comm s a b h)

/-! ## A state that differs from another in one link -/

/-- A command without the ticks its watchdog skips. -/
def noSkips (c : Cmd) : Cmd := { c with skips := [] }

/-- u is s on tick T but for the link of a and b, whose directions are x and y in u, for the totals and for the ticks that
watchdogs skip; where `calm` holds not even those. -/
structure OnLink (calm : Prop) (T : Tick) (s u : State) (a b : Nat) (x y : Dir) : Prop where
  now : u.now = T
  forth : dirOf u a b = x
  back : dirOf u b a = y
  apart : a ≠ b
  bound : linkIndex a b < u.mesh.length
  size : u.mesh.length = s.mesh.length
  failed : linkFailed u a b = linkFailed s a b
  frame : { u with now := s.now, mesh := s.mesh, totals := s.totals, cmds := s.cmds } = s
  cmds : calm → u.cmds = s.cmds
  skips : u.cmds.map noSkips = s.cmds.map noSkips
  others : ∀ i, i ≠ linkIndex a b → u.mesh[i]? = s.mesh[i]?

namespace OnLink
variable {calm : Prop} {T : Tick} {s u : State} {a b : Nat} {x y : Dir}

theorem start (s : State) (t : Tick) (calm : Prop) (hab : a ≠ b) (h : linkIndex a b < s.mesh.length) :
    OnLink calm (max s.now t) s (stamp s t) a b (dirOf s a b) (dirOf s b a) :=
  ⟨rfl, rfl, rfl, hab, h, rfl, rfl, rfl, fun _ => rfl, rfl, fun _ _ => rfl⟩

section
variable (h : OnLink calm T s u a b x y)
include h

theorem boundBack : linkIndex b a < u.mesh.length := linkIndex_comm a b ▸ h.bound

/-- A change to the state that is near the link and leaves the directions as x' and y'. -/
theorem step {v : State} {x' y' : Dir} (hnear : nearLink u v a b) (hnow : v.now = u.now) (hcmds : v.cmds = u.cmds)
    (hforth : dirOf v a b = x') (hback : dirOf v b a = y') : OnLink calm T s v a b x' y' := by
  obtain ⟨hframe, hothers, hlen, hfailed⟩ := hnear
  refine ⟨hnow.trans h.now, hforth, hback, h.apart, hlen ▸ h.bound, hlen.trans h.size, hfailed.trans h.failed, ?_, fun hc => hcmds.trans (h.cmds hc),
    (congrArg (List.map noSkips) hcmds).trans h.skips, fun i hi => (hothers i hi).trans (h.others i hi)⟩
  have := congrArg (fun w : State => { w with now := s.now, mesh := s.mesh, totals := s.totals, cmds := s.cmds }) hframe
  exact Eq.trans (b := { u with now := s.now, mesh := s.mesh, totals := s.totals, cmds := s.cmds }) this h.frame

theorem setForth (f : Dir → Dir) : OnLink calm T s (setDir u a b f) a b (f x) y :=
  h.step (nearLink_setDir u a b f h.bound) rfl rfl ((dirOf_setDir u a b f h.bound).trans (congrArg f h.forth))
    ((dirOf_setDir_back u b a f h.apart.symm h.boundBack).trans h.back)

theorem setBack (f : Dir → Dir) : OnLink calm T s (setDir u b a f) a b x (f y) :=
  h.step (nearLink_setDir_back u a b f h.bound) rfl rfl ((dirOf_setDir_back u a b f h.apart h.bound).trans h.forth)
    ((dirOf_setDir u b a f h.boundBack).trans (congrArg f h.back))

theorem count (i n : Nat) : OnLink calm T s (countLink u a b i n) a b x y := by
  refine h.step (nearLink_count u a b i n h.bound) rfl rfl ((dirOf_countLink u a b i n h.bound).trans h.forth) ?_
  have hcomm : countLink u a b i n = countLink u b a i n := congrArg (countTotal · (9 + i) n) (setLink_comm u a b _)
  rw [hcomm]
  exact (dirOf_countLink u b a i n h.boundBack).trans h.back

/-- Ticks skipped are entered in commands; nothing else of the state changes. -/
theorem skip (hcalm : ¬ calm) {f : Cmd → Cmd} (hf : ∀ c, noSkips (f c) = noSkips c) :
    OnLink calm T s { u with cmds := u.cmds.map f } a b x y := by
  refine ⟨h.now, h.forth, h.back, h.apart, h.bound, h.size, h.failed, h.frame, fun hc => absurd hc hcalm, ?_, h.others⟩
  refine Eq.trans ?_ h.skips
  rw [List.map_map]
  exact List.map_congr_left fun c _ => hf c

/-- The ticks in RETRY entered for the commands of the direction (R428). -/
theorem closeForth (hcalm : calm → x.retry = none) :
    OnLink calm T s (closeSkips u a b) a b { x with retry := x.retry.map fun r => { r with mark := T } } y := by
  unfold closeSkips
  dsimp only
  rw [h.forth]
  cases hr : x.retry with
  | none => exact (show x = { x with retry := none } by cases x; cases hr; rfl) ▸ h
  | some r =>
    have hnot : ¬ calm := fun hc => Option.some_ne_none r (hr.symm.trans (hcalm hc))
    have hset := (h.skip hnot (f := fun c => if dirHolds x c.id then { c with skips := c.skips ++ [(r.mark, u.now)] } else c)
      (fun c => by split <;> rfl)).setForth fun d => { d with retry := d.retry.map fun r => { r with mark := u.now } }
    rw [hr, h.now] at hset
    rw [h.now]
    exact hset

theorem swap : OnLink calm T s u b a y x where
  now := h.now
  forth := h.back
  back := h.forth
  apart := h.apart.symm
  bound := h.boundBack
  size := h.size
  failed := (linkFailed_comm h.bound).symm.trans (h.failed.trans (linkFailed_comm (h.size ▸ h.bound)))
  frame := h.frame
  cmds := h.cmds
  skips := h.skips
  others := linkIndex_comm a b ▸ h.others

end

end OnLink

/-! ### Retry attempts and NACKs (R349, R351, R352) -/

/-- A direction after an attempt started on tick T: every unacknowledged flit replayed, and waited for. -/
def attemptOf (T : Tick) (x : Dir) (fails : Nat) (entered : Tick) (told : Bool) : Dir :=
  { x with
    sent := x.sent ++ x.unacked
    retry := some ⟨entered, T, x.unacked.map fun p => p.seq, if x.unacked = [] then 0 else fails,
      if x.unacked = [] then some 0 else none, told, T⟩ }

/-- A direction after its receiver had a NACK to send: one NACK after a good flit. -/
def nackOf (x : Dir) : Dir := if x.nacked then x else { x with nacked := true, nacks := x.nacks ++ [x.accepted] }

/-- The other direction after that NACK went out. -/
def nackSent (a b : Nat) (x y : Dir) : Dir :=
  if x.nacked then y else { y with sent := y.sent ++ [⟨2, b, a, 0, some x.accepted, 0, false, 0, 0, []⟩] }

namespace OnLink
variable {calm : Prop} {T : Tick} {s u : State} {a b : Nat} {x y : Dir}

section
variable (h : OnLink calm T s u a b x y)
include h

theorem attempt (fails : Nat) (entered : Tick) (told : Bool) :
    OnLink calm T s (startAttempt u a b fails entered told) a b (attemptOf T x fails entered told) y := by
  unfold startAttempt
  dsimp only
  rw [h.forth, h.now]
  have hset := (h.setForth fun d => { d with
    retry := some ⟨entered, T, x.unacked.map fun p => p.seq, if (x.unacked.map fun p => p.seq).isEmpty then 0 else fails,
      if (x.unacked.map fun p => p.seq).isEmpty then some 0 else none, told, T⟩
    sent := d.sent ++ d.unacked }).count 6 (x.unacked.map fun p => p.seq).length
  have hempty : (x.unacked.map fun p => p.seq).isEmpty = true ↔ x.unacked = [] := by
    rw [List.isEmpty_iff, List.map_eq_nil_iff]
  simp only [hempty] at hset ⊢
  exact hset

theorem nack : OnLink calm T s (sendNack u a b) a b (nackOf x) (nackSent a b x y) := by
  unfold sendNack nackOf nackSent
  dsimp only
  rw [h.forth]
  by_cases hn : x.nacked = true
  · simp only [if_pos hn]
    exact h
  · simp only [if_neg hn]
    exact (h.setForth fun d => { d with nacked := true, nacks := d.nacks ++ [x.accepted] }).setBack fun d =>
      { d with sent := d.sent ++ [{ localFlit 2 b a [] with ack := some x.accepted }] }

/-! ### Sending (R349, R350) -/

/-- What a direction sends leaves its RETRY and its receiver's end. -/
theorem pumpForth (n : Nat) : ∃ x', OnLink calm T s (pump u a b n) a b x' y ∧ x'.retry = x.retry := by
  induction n generalizing u x with
  | zero => exact ⟨x, h, rfl⟩
  | succ n ih =>
    unfold pump
    dsimp only
    split
    · exact ⟨x, h, rfl⟩
    · split
      · rename_i f _
        obtain ⟨x', hpump, hretry⟩ := ih (h.setForth fun d => putFlit d f)
        exact ⟨x', hpump, hretry⟩
      · exact ⟨x, h, rfl⟩

theorem sendForth : ∃ x', OnLink calm T s (sendAll u a b) a b x' y ∧ x'.retry = x.retry := h.pumpForth _

/-- Flits of the direction acknowledged: a running attempt may succeed, and then it has no failure. -/
theorem acknowledgeForth (hcalm : calm → x.retry = none) (ack : Nat) :
    ∃ x', OnLink calm T s (acknowledge u a b ack) a b x' y ∧
      ∀ r, x.retry = some r → ∃ r', x'.retry = some r' ∧ r'.told = r.told ∧ r'.entered = r.entered ∧ r'.fails ≤ r.fails := by
  obtain ⟨x', hsent, hretry⟩ := ((h.closeForth hcalm).setForth fun d => judgeAttempt (trimAcked d ack)).sendForth
  refine ⟨x', hsent, fun r hr => ?_⟩
  rw [hretry, judgeAttempt, trimAcked, hr]
  dsimp only [Option.map_some]
  split
  · exact ⟨_, rfl, rfl, rfl, Nat.zero_le _⟩
  · exact ⟨_, rfl, rfl, rfl, Nat.le_refl _⟩

theorem acknowledgeBack (hcalm : calm → y.retry = none) (ack : Nat) : ∃ y', OnLink calm T s (acknowledge u b a ack) a b x y' := by
  obtain ⟨y', hack, -⟩ := h.swap.acknowledgeForth hcalm ack
  exact ⟨y', hack.swap⟩

theorem sendBack : ∃ y', OnLink calm T s (sendAll u b a) a b x y' := by
  obtain ⟨y', hsent, -⟩ := h.swap.sendForth
  exact ⟨y', hsent.swap⟩

end

/-! ### Good flits (R349, R350, R352) -/

end OnLink

/-- RETRY after a good flit: in the clean run it counts, and the 256th ends RETRY before its limit. -/
def cleanRetry (limit : Nat) (T : Tick) (r : Retry) : Option Retry :=
  match r.good with
  | some n => if 256 ≤ n + 1 ∧ T < r.entered + limit then none else some { r with good := some (n + 1) }
  | none => some r

/-- A flit noted as sent leaves the direction's RETRY and its receiver's end. -/
theorem noteSent_end (x : Dir) (f : Flit) : let z := noteSent x f
    z.retry = x.retry ∧ z.accepted = x.accepted ∧ z.nacked = x.nacked ∧ z.nacks = x.nacks ∧ z.delivered = x.delivered := by
  unfold noteSent
  dsimp only
  split
  · exact ⟨rfl, rfl, rfl, rfl, rfl⟩
  · exact ⟨rfl, rfl, rfl, rfl, rfl⟩

/-- A flit that its sender still keeps is noted already. -/
theorem noteSent_kept {x : Dir} {f : Flit} (h : ∃ p ∈ x.unacked, p.seq = f.seq) : noteSent x f = x := by
  obtain ⟨p, hp, hseq⟩ := h
  have hany : (x.unacked.any fun p => p.seq == f.seq) = true := List.any_eq_true.2 ⟨p, hp, beq_iff_eq.2 hseq⟩
  unfold noteSent
  dsimp only
  rw [hany, Bool.or_true]
  rfl

/-- A flit that the receiver sends on leaves the direction it came from. -/
theorem dirOf_queueFlit {s : State} {a b : Nat} (ha : a < 8) (hb : b < 8) (hab : a ≠ b) (h : linkIndex a b < s.mesh.length) (f : Flit) :
    dirOf (queueFlit s b f) a b = dirOf s a b := by
  unfold queueFlit
  split
  · rename_i hop _
    by_cases hback : hop = a
    · subst hback
      obtain ⟨y, hsent⟩ := ((OnLink.start s s.now True hab h).setBack fun d => { d with queue := d.queue ++ [f] }).sendBack
      have hstamp : stamp s s.now = s := by rw [stamp, max_self]
      rw [hstamp] at hsent
      exact hsent.forth
    · have hne := linkIndex_ne ha hb hab hback
      have hstands := linkStands_trans (linkStands_setDir s b hop (linkIndex a b) (fun d => { d with queue := d.queue ++ [f] }) hne)
        (linkStands_pump _ b hop _ (dirOf (setDir s b hop fun d => { d with queue := d.queue ++ [f] }) b hop).queue.length hne)
      exact congrArg (fun l : Link => if a < b then l.up else l.down) (linkStands_linkOf hstands h)
  · rfl

namespace OnLink
variable {calm : Prop} {T : Tick} {s u : State} {a b : Nat} {x y : Dir} (h : OnLink calm T s u a b x y)
include h

theorem ticks (n : Nat) : ticksA u n = ticksA s n := (congrArg (ticksA · n) h.frame :)

theorem clean (hcalm : calm → x.retry = none) :
    OnLink calm T s (goodRun u a b) a b { x with retry := x.retry.bind (cleanRetry (ticksA s 320000) T) } y := by
  have hsame {r : Option Retry} (hr : x.retry = r) : OnLink calm T s u a b { x with retry := r } y :=
    (show x = { x with retry := r } by cases x; cases hr; rfl) ▸ h
  unfold goodRun
  rw [h.forth]
  cases hr : x.retry with
  | none => exact hsame hr
  | some r =>
    dsimp only [Option.bind_some, cleanRetry]
    cases hg : r.good with
    | none => exact hsame hr
    | some n =>
      dsimp only
      rw [h.now, h.ticks]
      by_cases hend : 256 ≤ n + 1 ∧ T < r.entered + ticksA s 320000
      · rw [if_pos (by rw [Bool.and_eq_true]; exact ⟨decide_eq_true hend.1, decide_eq_true hend.2⟩), if_pos hend]
        exact (h.closeForth hcalm).setForth fun d => { d with retry := none }
      · rw [if_neg (by rw [Bool.and_eq_true, decide_eq_true_eq, decide_eq_true_eq]; exact hend), if_neg hend]
        exact h.setForth fun d => { d with retry := some { r with good := some (n + 1) } }

/-- A DATA flit in sequence: accepted, and delivered where this is its destination. -/
theorem accepts (ha : a < 8) (hb : b < 8) {f : Flit} (hseq : f.seq = (x.accepted + 1) % 4096) :
    dirOf (dataFlit u a b f) a b =
      { x with accepted := f.seq, nacked := false, delivered := if f.dst = b then x.delivered ++ [f.payload] else x.delivered } ∧
    (f.dst = b → OnLink calm T s (dataFlit u a b f) a b
      { x with accepted := f.seq, nacked := false, delivered := if f.dst = b then x.delivered ++ [f.payload] else x.delivered } y) := by
  have hset := h.setForth fun d => { d with
    accepted := f.seq, nacked := false, delivered := if f.dst = b then d.delivered ++ [f.payload] else d.delivered }
  unfold dataFlit
  rw [h.forth, if_pos hseq]
  dsimp only
  by_cases hdst : f.dst = b
  · simp only [if_pos hdst] at hset ⊢
    exact ⟨hset.forth, fun _ => hset⟩
  · rw [if_neg hdst]
    exact ⟨(dirOf_queueFlit ha hb h.apart hset.bound _).trans hset.forth, fun he => absurd he hdst⟩

/-- A DATA flit out of sequence is discarded, with a NACK. -/
theorem discards {f : Flit} (hseq : f.seq ≠ (x.accepted + 1) % 4096) :
    OnLink calm T s (dataFlit u a b f) a b (nackOf x) (nackSent a b x y) := by
  unfold dataFlit
  rw [h.forth, if_neg hseq]
  exact h.nack

/-- A good DATA flit up to its own effect: the clean run counted, its acknowledgement and its credits served, the flit noted. -/
theorem serves (hforth : calm → x.retry = none) (hback : calm → y.retry = none) {f : Flit} (htyp : f.typ = 1) (t : Tick) :
    ∃ v y', goodFlit u a b f t = dataFlit v a b f ∧
      OnLink calm T s v a b (noteSent { x with retry := x.retry.bind (cleanRetry (ticksA s 320000) T) } f) y' := by
  have hclean := h.clean hforth
  obtain ⟨y₁, hack⟩ : ∃ y₁, OnLink calm T s (match f.ack with
      | some k => if f.typ = 2 then goodRun u a b else acknowledge (goodRun u a b) b a k
      | none => goodRun u a b) a b { x with retry := x.retry.bind (cleanRetry (ticksA s 320000) T) } y₁ := by
    cases f.ack with
    | none => exact ⟨y, hclean⟩
    | some k =>
      dsimp only
      rw [if_neg (by rw [htyp]; decide)]
      exact hclean.acknowledgeBack hback k
  obtain ⟨y₂, hsent⟩ := (hack.setBack fun d =>
    { d with credits := modNth d.credits (bits f.credits 1 0 + 4 * b2n f.relay) (· + bits f.credits 7 2) }).sendBack
  refine ⟨_, y₂, ?_, hsent.setForth fun d => noteSent d f⟩
  unfold goodFlit
  dsimp only
  exact if_pos htyp

end OnLink

end Sys2Proof.Laws
end

section
/-! SUPPORT. Flits, NACKs and retry attempts on a link that works (R348 to R353). -/

open Sys2Proof Sys2Proof.Machine

namespace Sys2Proof.Laws

/-! ## CRC errors of a link -/

/-- A link's counter of CRC errors is the same in two states. -/
structure CrcKept (a b : Nat) (s u : State) : Prop where
  size : u.mesh.length = s.mesh.length
  errors : linkIndex a b < s.mesh.length → nth 0 (linkOf u a b).counters 0 = nth 0 (linkOf s a b).counters 0

namespace CrcKept
variable {a b : Nat} {s u v : State}

theorem trans (h : CrcKept a b s u) (k : CrcKept a b u v) : CrcKept a b s v :=
  ⟨k.size.trans h.size, fun hi => (k.errors (h.size ▸ hi)).trans (h.errors hi)⟩

theorem setLink (s : State) {f : Link → Link} (hf : ∀ l, nth 0 (f l).counters 0 = nth 0 l.counters 0) :
    CrcKept a b s (setLink s a b f) :=
  ⟨modNth_length _ _ _, fun hi => by rw [linkOf_setLink _ _ _ _ hi, hf]⟩

theorem setDir (s : State) (f : Dir → Dir) : CrcKept a b s (setDir s a b f) := setLink s fun l => by split <;> rfl

theorem setDir_back (s : State) (f : Dir → Dir) : CrcKept a b s (Machine.setDir s b a f) := by
  unfold Machine.setDir
  rw [setLink_comm]
  exact setLink s fun l => by split <;> rfl

theorem count (s : State) {i n : Nat} (hi : i ≠ 0) : CrcKept a b s (countLink s a b i n) :=
  trans (setLink s fun _ => (nth_modNth _ _ _ _ _).trans (if_neg fun h => hi h.1.symm)) ⟨rfl, fun _ => rfl⟩

theorem closeSkips (s : State) : CrcKept a b s (closeSkips s a b) := by
  unfold Machine.closeSkips
  dsimp only
  split
  · exact ⟨rfl, fun _ => rfl⟩
  · refine trans ?_ (setDir _ _)
    exact ⟨rfl, fun _ => rfl⟩

theorem startAttempt (s : State) (fails : Nat) (entered : Tick) (told : Bool) : CrcKept a b s (startAttempt s a b fails entered told) :=
  trans (setDir s _) (count _ (by decide))

theorem sendNack (s : State) : CrcKept a b s (sendNack s a b) := by
  unfold Machine.sendNack
  dsimp only
  split
  · exact ⟨rfl, fun _ => rfl⟩
  · exact trans (setDir s _) (setDir_back _ _)

end CrcKept

/-- A CRC error counted, up to 65,535. -/
theorem crcErrors_countLink {s : State} {a b : Nat} (h : linkIndex a b < s.mesh.length) :
    nth 0 (linkOf (countLink s a b 0 1) a b).counters 0 =
      if (linkOf s a b).counters = [] then 0 else min 0xFFFF (nth 0 (linkOf s a b).counters 0 + 1) := by
  rw [linkOf_countLink _ _ _ _ _ h]
  cases (linkOf s a b).counters with
  | nil => rfl
  | cons x xs => exact (if_neg (List.cons_ne_nil x xs)).symm

/-! ## What each event leaves of the link -/

/-- A link declared FAILED: LINK_FAILED is set and nothing is kept for replay (R353). -/
def linkDown (u : State) (a b : Nat) : Prop :=
  linkFailed u a b = true ∧ u.regs.eventCause.getLsbD 2 = true ∧ (dirOf u a b).unacked = [] ∧ (dirOf u b a).unacked = []

namespace OnLink
variable {calm : Prop} {T : Tick} {s u : State} {a b : Nat} {x y : Dir} (h : OnLink calm T s u a b x y)
include h

/-- A failed attempt: the eighth in a row fails the link, any other starts the next. -/
theorem failed_attempt (hworks : linkFailed s a b = false) (r : Retry) :
    (r.fails < 7 → OnLink calm T s (failAttempt u a b r) a b (attemptOf T x (r.fails + 1) r.entered false) y) ∧
    (7 ≤ r.fails → linkDown (failAttempt u a b r) a b) := by
  have hcounted := h.count 2 1
  unfold failAttempt
  dsimp only
  refine ⟨fun hlt => ?_, fun hge => ?_⟩
  · rw [if_neg (by omega)]
    exact hcounted.attempt _ _ _
  · rw [if_pos (by omega)]
    obtain ⟨hfailed, hcause, hforth, hback, -⟩ := failLink_spec _ a b h.apart hcounted.bound (hcounted.failed.trans hworks)
    exact ⟨hfailed, hcause, hforth, hback⟩

/-- A bad flit while no attempt has succeeded: one NACK. -/
theorem bad_running (hr : ∀ r, x.retry = some r → r.good = none) :
    OnLink calm T s (badFlit u a b) a b (nackOf x) (nackSent a b x y) := by
  have hcounted := h.count 0 1
  unfold badFlit
  dsimp only
  rw [hcounted.forth]
  cases hx : x.retry with
  | none => exact hcounted.nack
  | some r =>
    dsimp only
    rw [hr r hx]
    exact hcounted.nack

/-- A bad flit in the clean run: a new attempt, and one NACK (R352). -/
theorem bad_clean (hnot : ¬ calm) {r : Retry} (hx : x.retry = some r) (hgood : r.good ≠ none) :
    OnLink calm T s (badFlit u a b) a b (nackOf (attemptOf T x r.fails r.entered !x.nacked)) (nackSent a b x y) := by
  have hcounted := h.count 0 1
  unfold badFlit
  dsimp only
  rw [hcounted.forth, hx]
  dsimp only
  rw [if_pos (Option.isSome_iff_ne_none.2 hgood)]
  exact ((hcounted.closeForth fun hc => absurd hc hnot).attempt r.fails r.entered !x.nacked).nack

/-- RETRY entered: the first attempt starts (R351). -/
theorem retry_enters (hr : x.retry = none) : OnLink calm T s (retryEvent u a b) a b (attemptOf T x 0 T false) y := by
  unfold retryEvent
  rw [h.forth, hr, h.now]
  exact (h.count 1 1).attempt 0 T false

/-- A running attempt that something else fails. -/
theorem retry_fails (hworks : linkFailed s a b = false) {r : Retry} (hr : x.retry = some r) (hg : r.good = none) :
    (r.fails < 7 → OnLink calm T s (retryEvent u a b) a b (attemptOf T x (r.fails + 1) r.entered false) y) ∧
    (7 ≤ r.fails → linkDown (retryEvent u a b) a b) := by
  unfold retryEvent
  rw [h.forth, hr]
  dsimp only
  rw [hg]
  exact h.failed_attempt hworks r

end OnLink

/-- A NACK leaves the rest of the direction. -/
theorem nackOf_kept (x : Dir) : (nackOf x).accepted = x.accepted ∧ (nackOf x).delivered = x.delivered ∧ (nackOf x).retry = x.retry := by
  unfold nackOf
  split
  · exact ⟨rfl, rfl, rfl⟩
  · exact ⟨rfl, rfl, rfl⟩

theorem nackOf_nacks (x : Dir) : (nackOf x).nacks = if x.nacked then x.nacks else x.nacks ++ [x.accepted] := by
  unfold nackOf
  split
  · rfl
  · rfl

/-- A bad flit counts one CRC error, whatever else it does. -/
theorem crcErrors_badFlit {s : State} {a b : Nat} (h : linkIndex a b < s.mesh.length) :
    nth 0 (linkOf (badFlit s a b) a b).counters 0 =
      if (linkOf s a b).counters = [] then 0 else min 0xFFFF (nth 0 (linkOf s a b).counters 0 + 1) := by
  have hsize : (countLink s a b 0 1).mesh.length = s.mesh.length := modNth_length _ _ _
  have hkept : CrcKept a b (countLink s a b 0 1) (badFlit s a b) := by
    unfold badFlit
    dsimp only
    refine CrcKept.trans ?_ (CrcKept.sendNack _)
    split
    · split
      · exact CrcKept.trans (CrcKept.closeSkips _) (CrcKept.startAttempt _ _ _ _)
      · exact ⟨rfl, fun _ => rfl⟩
    · exact ⟨rfl, fun _ => rfl⟩
  exact (hkept.errors (hsize.symm ▸ h)).trans (crcErrors_countLink h)

/-- Does the receiver take flits of a chip: before READY, and then while the chip is not lost (R419)? -/
def chipHeard (s : State) (a : Nat) : Prop := s.regs.ready = false ∨ (chipOf s a).active = true

section
variable {s : State} {a b : Nat} (hworks : linkFailed s a b = false) (t : Tick)
include hworks

theorem doFlitReceive_of_heard (hheard : chipHeard s a) (f : List Byte) : doFlitReceive s a b f t =
    if flitGood f then goodFlit (stamp s t) a b (parseFlit f) t else badFlit (stamp s t) a b := by
  refine if_neg ?_
  rw [show linkFailed (stamp s t) a b = false from hworks, Bool.false_or]
  show ¬ (s.regs.ready && !(chipOf s a).active) = true
  rcases hheard with hdown | hactive
  · rw [hdown]; exact Bool.false_ne_true
  · rw [hactive, Bool.not_true, Bool.and_false]; exact Bool.false_ne_true

theorem doNackReceive_of_due (ack : Nat) (hdue : nackDue (dirOf s a b) = true) : doNackReceive s a b ack t =
    acknowledge (setDir (stamp s t) a b fun d => { d with retry := d.retry.map fun r => { r with told := false } }) a b (ack % 4096) :=
  (if_neg (by rw [show linkFailed (stamp s t) a b = false from hworks]; decide)).trans (if_pos hdue)

theorem doNackReceive_of_fresh (ack : Nat) (hdue : nackDue (dirOf s a b) = false) : doNackReceive s a b ack t =
    retryEvent (setDir (closeSkips (stamp s t) a b) a b fun d => trimAcked d (ack % 4096)) a b :=
  (if_neg (by rw [show linkFailed (stamp s t) a b = false from hworks]; decide)).trans (if_neg (by
    rw [show nackDue (dirOf (stamp s t) a b) = false from hdue]; decide))

end

theorem doFlitReceive_of_lost {s : State} {a : Nat} (h : ¬ chipHeard s a) (b : Nat) (f : List Byte) (t : Tick) :
    doFlitReceive s a b f t = stamp s t := by
  obtain ⟨hready, hlost⟩ := not_or.1 h
  refine if_pos ?_
  rw [show (stamp s t).regs.ready = true from Bool.eq_true_of_not_eq_false hready,
    show (chipOf (stamp s t) a).active = false from Bool.eq_false_of_not_eq_true hlost]
  exact Bool.or_true _

end Sys2Proof.Laws
end

section
/-! The fabric's flits and retries settled (12_mycel_fabric.md). -/

open Sys2Proof Sys2Proof.Machine

namespace Sys2Proof.Laws

/-- Settles O42: every event's changes to its link are followed by `OnLink`, step by step. -/
theorem linkFlitsAndRetries : Obligations.LinkFlitsAndRetries := by
  unfold Obligations.LinkFlitsAndRetries
  intro s src dst t hsrc hdst hne hmesh hworks d T near nack attempt trim failed heard
  have hbound : linkIndex src dst < s.mesh.length := hmesh ▸ linkIndex_lt hsrc hdst hne
  have hstart := OnLink.start s t (d.retry = none ∧ (dirOf s dst src).retry = none) hne hbound
  have hnear {u : State} {x y : Dir} (h : OnLink (d.retry = none ∧ (dirOf s dst src).retry = none) T s u src dst x y) : near u :=
    ⟨h.now, h.failed.trans hworks, h.frame, fun hd he => h.cmds ⟨hd, he⟩, h.skips, h.others⟩
  refine ⟨fun f hlost => congrArg Host.Outcome.next (doFlitReceive_of_lost hlost dst f t), fun f hheard hgood => ?bad,
    fun f hheard hgood htyp => ?data, fun ack => ⟨fun hr => ?enter, fun r hr hg htold => ?again, fun r hr hg htold => ?due⟩,
    fun hr p hp hseq => ?timeout, fun r hr hg hlate => ?attempt, fun r hr => ?window⟩
  case bad =>
    have hrun : doFlitReceive s src dst f t = badFlit (stamp s t) src dst :=
      (doFlitReceive_of_heard hworks t hheard f).trans (if_neg (by rw [hgood]; decide))
    have hcrc := crcErrors_badFlit (s := stamp s t) hbound
    by_cases hclean : ∀ r, d.retry = some r → r.good = none
    · have hbad := hstart.bad_running hclean
      exact ⟨_, congrArg Host.Outcome.next hrun, hnear hbad, fun _ => hbad.forth,
        fun r hr hg => absurd (hclean r hr) hg, hbad.back, hcrc⟩
    · push Not at hclean
      obtain ⟨r, hr, hg⟩ := hclean
      have hbad := hstart.bad_clean (fun hc => Option.some_ne_none r (hr.symm.trans hc.1)) hr hg
      refine ⟨_, congrArg Host.Outcome.next hrun, hnear hbad, fun hnone => absurd (hnone r hr) hg, fun r' hr' _ => ?_, hbad.back, hcrc⟩
      rw [← Option.some.inj (hr.symm.trans hr')]
      exact hbad.forth
  case data =>
    have hrun : doFlitReceive s src dst f t = goodFlit (stamp s t) src dst (parseFlit f) t :=
      (doFlitReceive_of_heard hworks t hheard f).trans (if_pos hgood)
    obtain ⟨v, y, hserved, hlink⟩ := hstart.serves (fun hc => hc.1) (fun hc => hc.2) (f := parseFlit f) htyp t
    obtain ⟨hretry, haccepted, hnacked, hnacks, hdelivered⟩ :=
      noteSent_end { d with retry := d.retry.bind (cleanRetry (ticksA s 320000) T) } (parseFlit f)
    have hclean (r : Retry) (n : Nat) (hr : d.retry = some r) (hg : r.good = some n) :
        d.retry.bind (cleanRetry (ticksA s 320000) T) =
          if 256 ≤ n + 1 ∧ T < r.entered + ticksA s 320000 then none else some { r with good := some (n + 1) } := by
      rw [hr, Option.bind_some, cleanRetry, hg]
    by_cases hseq : (parseFlit f).seq = (d.accepted + 1) % 4096
    · obtain ⟨hdir, honly⟩ := hlink.accepts hsrc hdst (haccepted.symm ▸ hseq)
      have hu := (congrArg (dirOf · src dst) hserved).trans hdir
      refine ⟨_, congrArg Host.Outcome.next hrun, fun hd => hnear (hserved.symm ▸ honly hd), fun _ =>
        ⟨(congrArg Dir.accepted hu).trans hseq, (congrArg Dir.nacks hu).trans hnacks, (congrArg Dir.delivered hu).trans ?_⟩,
        fun hother => absurd hseq hother, fun r n hr hg => (congrArg Dir.retry hu).trans (hretry.trans (hclean r n hr hg))⟩
      dsimp only
      rw [hdelivered]
      by_cases hd : (parseFlit f).dst = dst
      · rw [if_pos hd, if_pos (show bits (fieldAt f 1 1) 7 4 = dst from hd)]
        rfl
      · rw [if_neg hd, if_neg (show ¬ bits (fieldAt f 1 1) 7 4 = dst from hd), List.append_nil]
    · have hdiscard := hlink.discards (f := parseFlit f) (haccepted.symm ▸ hseq)
      have hu := (congrArg (dirOf · src dst) hserved).trans hdiscard.forth
      obtain ⟨hsame, hnot, hretried⟩ := nackOf_kept (noteSent { d with retry := d.retry.bind (cleanRetry (ticksA s 320000) T) } (parseFlit f))
      refine ⟨_, congrArg Host.Outcome.next hrun, fun _ => hnear (hserved.symm ▸ hdiscard), fun hin => absurd hin hseq, fun _ =>
        ⟨(congrArg Dir.accepted hu).trans (hsame.trans haccepted), (congrArg Dir.delivered hu).trans (hnot.trans hdelivered),
          (congrArg Dir.nacks hu).trans ?_⟩, fun r n hr hg => (congrArg Dir.retry hu).trans (hretried.trans (hretry.trans (hclean r n hr hg)))⟩
      rw [nackOf_nacks, hnacked, hnacks, haccepted]
      exact (nackOf_nacks d).symm
  case enter =>
    have hfresh : nackDue (dirOf s src dst) = false := by rw [nackDue, show (dirOf s src dst).retry = none from hr]
    have hrun := doNackReceive_of_fresh hworks t ack hfresh
    have hdone := ((hstart.closeForth fun hc => hc.1).setForth fun d => trimAcked d (ack % 4096)).retry_enters
      (by rw [trimAcked, show (dirOf s src dst).retry = _ from hr]; rfl)
    exact ⟨_, congrArg Host.Outcome.next hrun, hnear hdone, hdone.forth⟩
  case again =>
    have hfresh : nackDue (dirOf s src dst) = false := by
      rw [nackDue, show (dirOf s src dst).retry = some r from hr]
      dsimp only
      rw [htold, Bool.and_false]
    have hrun := doNackReceive_of_fresh hworks t ack hfresh
    obtain ⟨hnext, hdown⟩ := ((hstart.closeForth fun hc => hc.1).setForth fun d => trimAcked d (ack % 4096)).retry_fails hworks
      (r := { r with mark := T }) (by rw [trimAcked, show (dirOf s src dst).retry = _ from hr]; rfl) hg
    exact ⟨_, congrArg Host.Outcome.next hrun, fun hlt => ⟨hnear (hnext hlt), (hnext hlt).forth⟩, hdown⟩
  case due =>
    have hdue : nackDue (dirOf s src dst) = true := by
      rw [nackDue, show (dirOf s src dst).retry = some r from hr]
      dsimp only
      rw [hg, htold]
      rfl
    have hnot : ¬ (d.retry = none ∧ (dirOf s dst src).retry = none) := fun hc => Option.some_ne_none r (hr.symm.trans hc.1)
    obtain ⟨x, hack, hkept⟩ := (hstart.setForth fun d => { d with retry := d.retry.map fun r => { r with told := false } }).acknowledgeForth
      (fun hc => absurd hc hnot) (ack % 4096)
    obtain ⟨r', hr', htold', hentered, hfails⟩ := hkept { r with told := false } (congrArg (Option.map fun r : Retry => { r with told := false }) hr)
    exact ⟨_, r', congrArg Host.Outcome.next (doNackReceive_of_due hworks t ack hdue), hnear hack,
      (congrArg Dir.retry hack.forth).trans hr', htold', hentered, hfails⟩
  case timeout =>
    have hsame : noteSent d ⟨1, src, dst, p.seq % 4096, none, 0, false, 0, p.context, []⟩ = d :=
      noteSent_kept ⟨p, hp, (Nat.mod_eq_of_lt hseq).symm⟩
    have hnoted := hstart.setForth fun d => noteSent d ⟨1, src, dst, p.seq % 4096, none, 0, false, 0, p.context, []⟩
    rw [show noteSent (dirOf s src dst) _ = d from hsame] at hnoted
    have hrun : doAckTimeout s src dst p.seq p.context t = retryEvent (setDir (stamp s t) src dst fun d =>
        noteSent d ⟨1, src, dst, p.seq % 4096, none, 0, false, 0, p.context, []⟩) src dst := by
      refine (if_neg (by rw [show linkFailed (stamp s t) src dst = false from hworks]; decide)).trans ?_
      rw [hnoted.forth, hr]
    exact ⟨_, congrArg Host.Outcome.next hrun, hnear (hnoted.retry_enters hr), (hnoted.retry_enters hr).forth⟩
  case attempt =>
    have hrun : doRetryAttemptTimeout s src dst t = failAttempt (closeSkips (stamp s t) src dst) src dst r := by
      unfold doRetryAttemptTimeout
      dsimp only
      rw [show (dirOf (stamp s t) src dst).retry = some r from hr]
      exact if_pos (by rw [hg]; exact decide_eq_true hlate)
    obtain ⟨hnext, hdown⟩ := (hstart.closeForth fun hc => hc.1).failed_attempt hworks r
    exact ⟨_, congrArg Host.Outcome.next hrun, fun hlt => ⟨hnear (hnext hlt), (hnext hlt).forth⟩, hdown⟩
  case window =>
    have hrun : doRetryWindowExpiry s src dst = failLink (stamp s (r.entered + ticksA s 320000)) src dst := by
      unfold doRetryWindowExpiry
      rw [show (dirOf s src dst).retry = some r from hr]
    obtain ⟨hfailed, hcause, hforth, hback, hnow⟩ := failLink_spec (stamp s (r.entered + ticksA s 320000)) src dst hne hbound hworks
    exact ⟨_, congrArg Host.Outcome.next hrun, ⟨hfailed, hcause, hforth, hback⟩, hnow⟩

end Sys2Proof.Laws
end

section
/-! SUPPORT. Lanes, recalibrations and time exchanges (R345, R346, R358 to R360). -/

open Sys2Proof Sys2Proof.Machine

namespace Sys2Proof.Laws

/-! ## Symbol errors (R345) -/

/-- No window of the manual is 0 ticks long under any plan. -/
theorem ticksA_pos (s : State) {n : Nat} (hn : 0 < n) : 0 < ticksA s n := by
  have hrate (p : Nat) : 0 < planRate p := by
    unfold planRate
    split <;> decide
  have hpos : 0 < n * planRate (clockPlan s) := Nat.mul_pos hn (hrate _)
  unfold ticksA ceilDiv
  omega

/-- A sum over the elements of a list that meet a test, as the model folds it. -/
theorem foldl_if_add {α : Type} (p : α → Prop) [DecidablePred p] (f : α → Nat) (l : List α) (m : Nat) :
    l.foldl (fun n e => if p e then n + f e else n) m = m + ((l.filter p).map f).sum := by
  induction l generalizing m with
  | nil => rfl
  | cons x xs ih =>
    rw [List.foldl_cons, ih]
    by_cases hx : p x
    · rw [if_pos hx, List.filter_cons_of_pos (by simpa using hx), List.map_cons, List.sum_cons, Nat.add_assoc]
    · rw [if_neg hx, List.filter_cons_of_neg (by simpa using hx)]

/-- The symbol errors kept by a direction once a report is entered on tick T. -/
def errorsWith (s : State) (T : Tick) (d : Dir) (lane n : Nat) : List (Nat × Tick × Nat) :=
  (d.errors.filter fun e => decide (T < e.2.1 + ticksA s 1600000)) ++ [(lane, T, n)]

/-- Once a report is entered, the errors counted are all those kept of the lane. -/
theorem laneErrorCount_entered (s : State) (d : Dir) (lane n : Nat) :
    laneErrorCount s { d with errors := errorsWith s s.now d lane n } lane =
      (((errorsWith s s.now d lane n).filter fun e => e.1 == lane).map fun e => e.2.2).sum := by
  have hall : ∀ e ∈ errorsWith s s.now d lane n, s.now < e.2.1 + ticksA s 1600000 := by
    intro e he
    rcases List.mem_append.1 he with hold | hnew
    · exact of_decide_eq_true (List.mem_filter.1 hold).2
    · rw [List.mem_singleton.1 hnew]
      exact Nat.lt_add_of_pos_right (ticksA_pos s (by decide))
  rw [laneErrorCount, foldl_if_add, Nat.zero_add]
  refine congrArg (fun l : List (Nat × Tick × Nat) => (l.map fun e => e.2.2).sum) (List.filter_congr fun e he => ?_)
  rw [Bool.eq_iff_iff, decide_eq_true_eq, beq_iff_eq]
  exact ⟨fun h => h.1, fun h => ⟨h, hall e he⟩⟩

/-- A lane to be retired: its lock lost, or more than 64 symbol errors within the window. -/
def laneBad (s : State) (T : Tick) (d : Dir) (lane : Nat) (lost : Bool) (n : Nat) : Prop :=
  lost = true ∨ 64 < (((errorsWith s T d lane n).filter fun e => e.1 == lane).map fun e => e.2.2).sum

/-! ## A lane retired -/

theorem OnLink.near {T : Tick} {s u : State} {a b : Nat} {x y : Dir} (h : OnLink True T s u a b x y) :
    { u with now := s.now, mesh := s.mesh, totals := s.totals } = s := by
  have hframe := h.frame
  rw [← h.cmds trivial] at hframe
  exact hframe

/-- The state in which a report is entered. -/
def entered (s : State) (a b : Nat) (t : Tick) (lane n : Nat) : State :=
  setDir (stamp s t) a b fun d => { d with errors := errorsWith s (max s.now t) d lane n }

section
variable {s : State} {a b : Nat} {t : Tick} (hworks : linkFailed s a b = false) (lane : Nat) (lost : Bool) (n : Nat)
  (hab : a ≠ b) (hbound : linkIndex a b < s.mesh.length)

section
include hab hbound

theorem entered_onLink : OnLink True (max s.now t) s (entered s a b t lane n) a b
    { dirOf s a b with errors := errorsWith s (max s.now t) (dirOf s a b) lane n } (dirOf s b a) :=
  (OnLink.start s t True hab hbound).setForth fun d => { d with errors := errorsWith s (max s.now t) d lane n }

end

include hworks

/-- A report about a lane of the link: entered, and then judged. -/
theorem doLaneRetire_of_lane (hlane : lane ∈ (dirOf s a b).lanes ∨ (dirOf s a b).spare = some lane) :
    doLaneRetire s a b lane lost n t =
      if !lost && decide (laneErrorCount (entered s a b t lane n) (dirOf (entered s a b t lane n) a b) lane ≤ 64) then entered s a b t lane n
      else
        let w := countLink (setDir (entered s a b t lane n) a b fun d => retireLane d lane) a b 3 1
        if (dirOf w a b).lanes.length < 2 then failLink w a b else w := by
  refine if_neg ?_
  rw [show linkFailed (stamp s t) a b = false from hworks, Bool.false_or, Bool.not_eq_true', Bool.not_eq_false, Bool.or_eq_true]
  exact hlane.imp (fun h => List.contains_iff_mem.2 h) fun h => beq_iff_eq.2 h

include hab hbound

theorem doLaneRetire_kept (hlane : lane ∈ (dirOf s a b).lanes ∨ (dirOf s a b).spare = some lane)
    (hgood : ¬ laneBad s (max s.now t) (dirOf s a b) lane lost n) :
    doLaneRetire s a b lane lost n t = entered s a b t lane n := by
  obtain ⟨hlock, hfew⟩ := not_or.1 hgood
  refine (doLaneRetire_of_lane hworks lane lost n hlane).trans (if_pos ?_)
  rw [(entered_onLink lane n hab hbound).forth, Bool.eq_false_of_not_eq_true hlock]
  refine decide_eq_true (Nat.not_lt.1 fun hmany => hfew ?_)
  exact (laneErrorCount_entered (stamp s t) (dirOf s a b) lane n) ▸ hmany

/-- A bad lane is retired, and a link left with fewer than 2 usable lanes fails. -/
theorem doLaneRetire_bad (hlane : lane ∈ (dirOf s a b).lanes ∨ (dirOf s a b).spare = some lane)
    (hbad : laneBad s (max s.now t) (dirOf s a b) lane lost n) :
    let x := retireLane { dirOf s a b with errors := errorsWith s (max s.now t) (dirOf s a b) lane n } lane
    (2 ≤ x.lanes.length → OnLink True (max s.now t) s (doLaneRetire s a b lane lost n t) a b x (dirOf s b a)) ∧
    (x.lanes.length < 2 → linkDown (doLaneRetire s a b lane lost n t) a b) := by
  have hentered := entered_onLink (t := t) lane n hab hbound
  have hretired := (hentered.setForth fun d => retireLane d lane).count 3 1
  have hrun : ¬ (!lost && decide (laneErrorCount (entered s a b t lane n) (dirOf (entered s a b t lane n) a b) lane ≤ 64)) = true := by
    rw [hentered.forth, Bool.and_eq_true, decide_eq_true_eq, Bool.not_eq_true']
    rintro ⟨hlock, hfew⟩
    rcases hbad with hlost | hmany
    · rw [hlock] at hlost
      cases hlost
    · exact Nat.lt_irrefl _ (Nat.lt_of_lt_of_le (laneErrorCount_entered (stamp s t) (dirOf s a b) lane n ▸ hmany) hfew)
  rw [doLaneRetire_of_lane hworks lane lost n hlane, if_neg hrun]
  dsimp only
  rw [hretired.forth]
  refine ⟨fun h2 => ?_, fun hfew => ?_⟩
  · rw [if_neg (Nat.not_lt.2 h2)]
    exact hretired
  · rw [if_pos hfew]
    obtain ⟨hfailed, hcause, hforth, hback, -⟩ := failLink_spec _ a b hab hretired.bound (hretired.failed.trans hworks)
    exact ⟨hfailed, hcause, hforth, hback⟩

end

/-- A report about a lane that the link does not use changes nothing but the tick. -/
theorem doLaneRetire_absent {s : State} {a b lane : Nat} (hlanes : lane ∉ (dirOf s a b).lanes) (hspare : (dirOf s a b).spare ≠ some lane)
    (lost : Bool) (n : Nat) (t : Tick) : doLaneRetire s a b lane lost n t = stamp s t := by
  refine if_pos ?_
  have hout : ((dirOf s a b).lanes.contains lane || (dirOf s a b).spare == some lane) = false := by
    rw [Bool.or_eq_false_iff, beq_eq_false_iff_ne]
    exact ⟨by simpa using hlanes, hspare⟩
  rw [show ((dirOf (stamp s t) a b).lanes.contains lane || (dirOf (stamp s t) a b).spare == some lane) = false from hout]
  exact Bool.or_true _

theorem retireLane_spare {d : Dir} {sp : Nat} (h : d.spare = some sp) :
    retireLane d sp = { d with spare := none, retired := d.retired ++ [sp] } := if_pos h

theorem retireLane_replaced {d : Dir} {lane sp : Nat} (h : d.spare = some sp) (hne : sp ≠ lane) :
    retireLane d lane = { d with
      lanes := d.lanes.map fun l => if l = lane then sp else l, spare := none, retired := d.retired ++ [lane] } := by
  unfold retireLane
  dsimp only
  rw [h, if_neg fun he => hne (Option.some.inj he)]

theorem retireLane_narrowed {d : Dir} (lane : Nat) (h : d.spare = none) :
    retireLane d lane = { d with lanes := d.lanes.filter fun l => l != lane, retired := d.retired ++ [lane] } := by
  unfold retireLane
  dsimp only
  rw [h]
  rfl

/-! ## Recalibration (R346) -/

theorem modNth_const {α : Type} (l : List α) (i : Nat) (x : α) : modNth l i (fun _ => x) = l.set i x := by
  induction l generalizing i with
  | nil => rfl
  | cons y l ih =>
    cases i with
    | zero => rfl
    | succ i => exact congrArg (y :: ·) (ih i)

theorem recalDir_kept {d : Dir} (c : Nat) (h : d.spare = none) : recalDir c d = d := by rw [recalDir, h]

theorem recalDir_swapped {d : Dir} {sp : Nat} (c : Nat) (h : d.spare = some sp) :
    recalDir c d = { d with lanes := d.lanes.set (c % 4) sp, spare := d.lanes[c % 4]? } := by
  rw [recalDir, h]
  dsimp only
  rw [modNth_const]

/-- A link with both directions recalibrated. -/
def recalLink (l : Link) : Link :=
  { l with up := recalDir l.recal l.up, down := recalDir l.recal l.down, recal := l.recal + 1 }

theorem dirOf_recalLink {s : State} {a b : Nat} (hbound : linkIndex a b < s.mesh.length) :
    dirOf (setLink s a b recalLink) a b = recalDir (linkOf s a b).recal (dirOf s a b) := by
  rw [dirOf_setLink _ _ _ _ hbound]
  unfold dirOf
  dsimp only
  split <;> rfl

section
variable {s : State} {a b : Nat} (hab : a ≠ b) (hbound : linkIndex a b < s.mesh.length) (hworks : linkFailed s a b = false)
include hworks

theorem doLinkRecalibration_works : doLinkRecalibration s a b = countLink (setLink s a b recalLink) a b 4 1 :=
  if_neg (by rw [hworks]; decide)

include hbound

/-- The count of recalibrations goes up by one. -/
theorem recal_doLinkRecalibration : (linkOf (doLinkRecalibration s a b) a b).recal = (linkOf s a b).recal + 1 := by
  have hsize : linkIndex a b < (setLink s a b recalLink).mesh.length := (modNth_length _ _ _).symm ▸ hbound
  rw [doLinkRecalibration_works hworks, linkOf_countLink _ _ _ _ _ hsize, linkOf_setLink _ _ _ _ hbound]
  rfl

include hab

/-- Both directions of a link that works are recalibrated by its count. -/
theorem doLinkRecalibration_onLink : OnLink True s.now s (doLinkRecalibration s a b) a b
    (recalDir (linkOf s a b).recal (dirOf s a b)) (recalDir (linkOf s a b).recal (dirOf s b a)) := by
  have hback : linkIndex b a < s.mesh.length := linkIndex_comm a b ▸ hbound
  have hhere : OnLink True s.now s s a b (dirOf s a b) (dirOf s b a) :=
    ⟨rfl, rfl, rfl, hab, hbound, rfl, rfl, rfl, fun _ => rfl, rfl, fun _ _ => rfl⟩
  rw [doLinkRecalibration_works hworks]
  refine (hhere.step (nearLink_setLink s a b recalLink hbound fun _ => rfl) rfl rfl (dirOf_recalLink hbound) ?_).count 4 1
  rw [setLink_comm, dirOf_recalLink hback, linkOf_comm s a b hbound]

end

/-! ## Time exchanges (R358, R359) -/

theorem linkFailed_setDir (s : State) (x y : Nat) (f : Dir → Dir) (p q : Nat) :
    linkFailed (setDir s x y f) p q = linkFailed s p q := by
  unfold linkFailed linkOf setDir setLink
  dsimp only
  rw [nth_modNth]
  split
  · rename_i h
    rw [h.1]
    split <;> rfl
  · rfl

/-- A direction to one chip is untouched by a change towards another. -/
theorem dirOf_setDir_ne {s : State} {a c h : Nat} (ha : a < 8) (hc : c < 8) (hne : c ≠ a) (hbound : linkIndex a c < s.mesh.length)
    (hother : h ≠ c) (f : Dir → Dir) : dirOf (setDir s a h f) a c = dirOf s a c := by
  have hindex : linkIndex a h ≠ linkIndex a c := linkIndex_comm c a ▸ linkIndex_ne hc ha hne hother
  exact congrArg (fun l : Link => if a < c then l.up else l.down) (linkStands_linkOf (linkStands_setDir s a h _ f hindex) hbound)

/-- u is s but for what the directions of links sent: towards c, chip a sent the flits l as well. -/
structure SentMore (s u : State) (a c : Nat) (l : List Flit) : Prop where
  frame : { u with mesh := s.mesh, freeCtr := s.freeCtr } = s
  size : u.mesh.length = s.mesh.length
  failed : ∀ p q, linkFailed u p q = linkFailed s p q
  sent : (dirOf u a c).sent = (dirOf s a c).sent ++ l

theorem SentMore.trans {s u v : State} {a c : Nat} {l k : List Flit} (h : SentMore s u a c l) (g : SentMore u v a c k) :
    SentMore s v a c (l ++ k) := by
  refine ⟨?_, g.size.trans h.size, fun p q => (g.failed p q).trans (h.failed p q), ?_⟩
  · exact Eq.trans (congrArg (fun w : State => { w with mesh := s.mesh, freeCtr := s.freeCtr }) g.frame :) h.frame
  · rw [g.sent, h.sent, List.append_assoc]

section
variable {s : State} {a c : Nat} (ha : a < 8) (hc : c < 8) (hne : c ≠ a) (hbound : linkIndex a c < s.mesh.length)
  (hworks : linkFailed s a c = false)
include ha hc hne hbound hworks

/-- A link-local flit at its sender goes towards c where it is for c, or where c relays it. -/
theorem sendLocal_sentMore (f : Flit) : ∃ l, SentMore s (sendLocal s a f) a c l ∧ (∀ g ∈ l, g = f) ∧ (f.dst = c → f ∈ l) := by
  have hdirect : f.dst = c → hopOf s a f.dst = some c := fun he => by
    rw [hopOf, he, if_neg (by rw [hworks]; decide)]
  unfold sendLocal
  cases hh : hopOf s a f.dst with
  | none => exact ⟨[], ⟨rfl, rfl, fun _ _ => rfl, (List.append_nil _).symm⟩, List.forall_mem_nil _, fun he => by
      rw [hdirect he] at hh; cases hh⟩
  | some h =>
    dsimp only
    have hset (l : List Flit) (hl : (dirOf (setDir s a h fun d => { d with sent := d.sent ++ [f] }) a c).sent = (dirOf s a c).sent ++ l) :
        SentMore s (setDir s a h fun d => { d with sent := d.sent ++ [f] }) a c l :=
      ⟨rfl, modNth_length _ _ _, fun p q => linkFailed_setDir _ _ _ _ _ _, hl⟩
    by_cases hto : h = c
    · subst hto
      exact ⟨[f], hset _ (congrArg Dir.sent (dirOf_setDir s a h _ hbound)), fun g hg => List.mem_singleton.1 hg,
        fun _ => List.mem_singleton_self f⟩
    · refine ⟨[], hset _ ?_, List.forall_mem_nil _, fun he => ?_⟩
      · rw [dirOf_setDir_ne ha hc hne hbound hto, List.append_nil]
      · rw [hdirect he] at hh
        exact absurd (Option.some.inj hh).symm hto

end

/-- A TIME_REQ to chip k with its timestamp. -/
def requestTo (a : Nat) (s : State) (k : Nat) : State :=
  if k = a then s else nextFree (sendLocal s a (localFlit 3 a k (Config.timePayload s.freeCtr)))

/-- Requests to a list of chips: only TIME_REQs go towards c, among them its own. -/
theorem foldl_requestTo {a c : Nat} (ha : a < 8) (hc : c < 8) (hne : c ≠ a) (ks : List Nat) (s : State)
    (hbound : linkIndex a c < s.mesh.length) (hworks : linkFailed s a c = false) :
    ∃ l, SentMore s (ks.foldl (requestTo a) s) a c l ∧ (∀ f ∈ l, f.typ = 3) ∧ (c ∈ ks → ∃ f ∈ l, f.src = a ∧ f.dst = c) := by
  induction ks generalizing s with
  | nil => exact ⟨[], ⟨rfl, rfl, fun _ _ => rfl, (List.append_nil _).symm⟩, List.forall_mem_nil _, nofun⟩
  | cons k ks ih =>
    obtain ⟨l, hfirst, htyp, hown⟩ : ∃ l, SentMore s (requestTo a s k) a c l ∧ (∀ f ∈ l, f.typ = 3) ∧
        (c = k → ∃ f ∈ l, f.src = a ∧ f.dst = c) := by
      unfold requestTo
      split
      · rename_i hk
        exact ⟨[], ⟨rfl, rfl, fun _ _ => rfl, (List.append_nil _).symm⟩, List.forall_mem_nil _, fun he => absurd (he.trans hk) hne⟩
      · obtain ⟨l, ⟨hframe, hsize, hfailed, hsent⟩, hall, hto⟩ :=
          sendLocal_sentMore ha hc hne hbound hworks (localFlit 3 a k (Config.timePayload s.freeCtr))
        exact ⟨l, ⟨hframe, hsize, hfailed, hsent⟩, fun f hf => hall f hf ▸ rfl, fun he => ⟨_, hto he.symm, rfl, he.symm⟩⟩
    obtain ⟨m, hrest, htyps, howns⟩ := ih (requestTo a s k) (hfirst.size.symm ▸ hbound) ((hfirst.failed a c).trans hworks)
    refine ⟨l ++ m, hfirst.trans hrest, fun f hf => (List.mem_append.1 hf).elim (htyp f) (htyps f), fun hmem => ?_⟩
    rcases List.mem_cons.1 hmem with he | hin
    · obtain ⟨f, hf, hfc⟩ := hown he
      exact ⟨f, List.mem_append_left _ hf, hfc⟩
    · obtain ⟨f, hf, hfc⟩ := howns hin
      exact ⟨f, List.mem_append_right _ hf, hfc⟩

end Sys2Proof.Laws
end

section
/-! SUPPORT. The start of a time exchange, and the time faults of a chip (R358 to R360, R404, R433). -/

open Sys2Proof Sys2Proof.Machine

namespace Sys2Proof.Laws

/-! ## The exchange's start (R358) -/

theorem requestTo_frame (a : Nat) (s : State) (k : Nat) : { requestTo a s k with mesh := s.mesh, freeCtr := s.freeCtr } = s := by
  unfold requestTo sendLocal
  split
  · rfl
  · split <;> rfl

theorem foldl_requestTo_frame (a : Nat) (ks : List Nat) (s : State) :
    { ks.foldl (requestTo a) s with mesh := s.mesh, freeCtr := s.freeCtr } = s := by
  induction ks generalizing s with
  | nil => rfl
  | cons k ks ih =>
    exact Eq.trans (congrArg (fun w : State => { w with mesh := s.mesh, freeCtr := s.freeCtr }) (ih (requestTo a s k)) :)
      (requestTo_frame a s k)

theorem doTimeExchange_eq (s : State) (off : Int) (t : Tick) :
    let u := (activeChips s).foldl (requestTo s.regs.lead) (stamp s t)
    doTimeExchange s off t = if s.deputy.isSome then u else { u with tmc := (off, max s.now t) } := by
  have hframe := foldl_requestTo_frame s.regs.lead (activeChips s) (stamp s t)
  intro u
  have hdeputy : u.deputy = s.deputy := (congrArg State.deputy hframe :)
  have hnow : u.now = max s.now t := (congrArg State.now hframe :)
  rw [← hdeputy, ← hnow]
  rfl

/-! ## Time faults (R359, R360) -/

/-- Chip c is q, and every other chip as before. -/
def chipIs (s u : State) (c : Nat) (q : Chip) : Prop := chipOf u c = q ∧ ∀ k, k ≠ c → u.chips[k]? = s.chips[k]?

/-- v is s on tick T with chip c as q. -/
structure ChipSet (T : Tick) (s v : State) (c : Nat) (q : Chip) : Prop where
  now : v.now = T
  chip : chipIs s v c q
  frame : { v with now := s.now, chips := s.chips } = s
  bound : c < v.chips.length

theorem ChipSet.start {s : State} {c : Nat} (hc : c < s.chips.length) (f : Chip → Chip) :
    ChipSet s.now s (setChip s c f) c (f (chipOf s c)) :=
  ⟨rfl, ⟨chipOf_setChip s c f hc, fun _ hk => setChip_other s f hk⟩, rfl, (setChip_length s c f).symm ▸ hc⟩

theorem ChipSet.stamped {s : State} {c : Nat} (hc : c < s.chips.length) (t : Tick) (f : Chip → Chip) :
    ChipSet (max s.now t) s (setChip (stamp s t) c f) c (f (chipOf s c)) :=
  ⟨rfl, ⟨chipOf_setChip (stamp s t) c f hc, fun _ hk => setChip_other (stamp s t) f hk⟩, rfl,
    (setChip_length (stamp s t) c f).symm ▸ hc⟩

namespace ChipSet
variable {T : Tick} {s v : State} {c : Nat} {q : Chip} (h : ChipSet T s v c q) {after : Int}
include h

/-- The rest of the chips and of the state after one more change to the chip, its counter and the totals. -/
theorem count (i : Nat) : chipIs s (countChip v c i 1) c { q with counters := modNth q.counters i (satAdd 0xFFFF · 1) } ∧
    { countChip v c i 1 with now := s.now, chips := s.chips, totals := s.totals } = s := by
  obtain ⟨hframe, hothers, -⟩ := nearChip_countChip v c i 1
  refine ⟨⟨?_, fun k hk => (hothers k hk).trans (h.chip.2 k hk)⟩, ?_⟩
  · rw [chipOf_countChip v c i 1 h.bound, h.chip.1]
  · exact (congrArg (fun w : State => { w with totals := s.totals }) h.frame :)

/-- A small time fault is counted, and the chip serves on (R360). -/
theorem fault_small (hd : s.deputy = none) (hsmall : after.natAbs ≤ ticksA s 4) : timeFault v c after = countChip v c 4 1 := by
  have hdeputy : v.deputy = s.deputy := (congrArg State.deputy h.frame :)
  have hticks : ticksA v 4 = ticksA s 4 := (congrArg (ticksA · 4) h.frame :)
  exact (if_neg (by rw [hdeputy, hd]; decide)).trans (if_pos (hticks.symm ▸ hsmall))

/-- A large one is a fatal report that loses the chip (R433). -/
theorem fault_large (hd : s.deputy = none) (hlarge : ticksA s 4 < after.natAbs) (hl : s.loss = .none) (ha : q.active = true) :
    timeFault v c after = { countChip v c 7 1 with loss := .declared [c] (T + ticksA s 1600) [] } := by
  have hdeputy : v.deputy = s.deputy := (congrArg State.deputy h.frame :)
  have hticks (n : Nat) : ticksA v n = ticksA s n := (congrArg (ticksA · n) h.frame :)
  have hloss : v.loss = s.loss := (congrArg State.loss h.frame :)
  refine (if_neg (by rw [hdeputy, hd]; decide)).trans ((if_neg (Nat.not_le.2 (by rw [hticks]; exact hlarge))).trans ?_)
  rw [fatal_fresh v c h.bound (h.chip.1.symm ▸ ha) (by rw [hdeputy, hd]; nofun) (hloss.trans hl), h.now, hticks]

/-- No time fault is raised while the TMC restarts (R404). -/
theorem fault_restarting (hd : s.deputy.isSome = true) : timeFault v c after = v :=
  if_pos ((congrArg (fun w : State => w.deputy.isSome) h.frame :).trans hd)

end ChipSet

end Sys2Proof.Laws
end

section
/-! Lanes and tray time settled (12_mycel_fabric.md, 13_tray_time.md). -/

open Sys2Proof Sys2Proof.Machine

namespace Sys2Proof.Laws

/-- Settles O43: the link's clauses by `doLaneRetire_bad` and the recalibration's `OnLink`, the exchange's start by what the lead
sends (`foldl_requestTo`), and a chip's time faults by `ChipSet`. -/
theorem lanesAndTimeExchanges : Obligations.LanesAndTimeExchanges := by
  unfold Obligations.LanesAndTimeExchanges
  refine ⟨fun s src dst t hsrc hdst hne hmesh hworks => ?link, fun s off t => ?start, fun s c hc ha => ?chip⟩
  case link =>
    intro T d near errs bad
    have hbound : linkIndex src dst < s.mesh.length := hmesh ▸ linkIndex_lt hsrc hdst hne
    have hnear {T : Tick} {u : State} {x y : Dir} (h : OnLink True T s u src dst x y) : near u :=
      ⟨h.failed.trans hworks, h.near, h.others⟩
    have hretired {lane : Nat} {lost : Bool} {n : Nat} {x : Dir} (hlane : lane ∈ d.lanes ∨ d.spare = some lane)
        (hbad : bad lane lost n) (hx : retireLane { d with errors := errs lane n } lane = x) (h2 : 2 ≤ x.lanes.length) :
        ∃ u, exec (.laneRetire src dst ⟨lane, lost, n, t⟩) s = .next u ∧ u.now = T ∧ near u ∧ dirOf u dst src = dirOf s dst src ∧
          dirOf u src dst = x := by
      obtain ⟨hnext, -⟩ := doLaneRetire_bad hworks lane lost n hne hbound hlane hbad
      have hdone := hnext (hx.symm ▸ h2)
      exact ⟨_, rfl, hdone.now, hnear hdone, hdone.back, hdone.forth.trans hx⟩
    refine ⟨fun lane lost n hlane hgood => ?_, fun lane lost n hlanes hspare => ?_, fun lane lost n sp hbad hlane hsp hspne h2 => ?_,
      fun lost n sp hbad hsp h2 => ?_, fun lane lost n hbad hlane hsp => ⟨fun h2 => ?_, fun hfew => ?_⟩, ?_⟩
    · have hentered := entered_onLink (t := t) lane n hne hbound
      rw [← doLaneRetire_kept hworks lane lost n hne hbound hlane hgood] at hentered
      exact ⟨_, rfl, hentered.now, hnear hentered, hentered.back, hentered.forth⟩
    · exact congrArg Host.Outcome.next (doLaneRetire_absent hlanes hspare lost n t)
    · have hx := retireLane_replaced (d := { d with errors := errs lane n }) hsp hspne
      exact hretired (.inl hlane) hbad hx (by rw [List.length_map]; exact h2)
    · exact hretired (.inr hsp) hbad (retireLane_spare (d := { d with errors := errs sp n }) hsp) h2
    · exact hretired (.inl hlane) hbad (retireLane_narrowed (d := { d with errors := errs lane n }) lane hsp) h2
    · obtain ⟨-, hdown⟩ := doLaneRetire_bad hworks lane lost n hne hbound (.inl hlane) hbad
      have hx := retireLane_narrowed lane (d := { d with errors := errs lane n }) hsp
      exact ⟨_, rfl, hdown ((congrArg (fun x : Dir => x.lanes.length) hx).trans_lt hfew)⟩
    · have hrecal := doLinkRecalibration_onLink hne hbound hworks
      refine ⟨_, rfl, hrecal.now, hnear hrecal, recal_doLinkRecalibration hbound hworks, ?_⟩
      rw [List.forall_mem_cons, List.forall_mem_singleton]
      exact ⟨⟨fun hnone => hrecal.forth.trans (recalDir_kept _ hnone), fun sp hsp _ => hrecal.forth.trans (recalDir_swapped _ hsp)⟩,
        ⟨fun hnone => hrecal.back.trans (recalDir_kept _ hnone), fun sp hsp _ => hrecal.back.trans (recalDir_swapped _ hsp)⟩⟩
  case start =>
    have heq := doTimeExchange_eq s off t
    have hframe := foldl_requestTo_frame s.regs.lead (activeChips s) (stamp s t)
    generalize hv : (activeChips s).foldl (requestTo s.regs.lead) (stamp s t) = v at hframe
    rw [hv] at heq
    have hsent (c : Nat) (hc : c < 8) (hlead : s.regs.lead < 8) (hne : c ≠ s.regs.lead) (hmesh : s.mesh.length = 28)
        (ha : (chipOf s c).active = true) (hworks : linkFailed s s.regs.lead c = false) :
        ∃ l, (dirOf v s.regs.lead c).sent = (dirOf s s.regs.lead c).sent ++ l ∧ (∀ f ∈ l, f.typ = 3) ∧
          ∃ f ∈ l, f.src = s.regs.lead ∧ f.dst = c := by
      obtain ⟨l, hmore, htyp, hown⟩ := foldl_requestTo hlead hc hne (activeChips s) (stamp s t)
        (hmesh ▸ linkIndex_lt hlead hc hne.symm) hworks
      exact ⟨l, hv ▸ hmore.sent, htyp, hown ((mem_activeChips hc).2 ha)⟩
    have hrest := (congrArg (fun w : State => { w with now := s.now }) hframe :)
    cases hd : s.deputy with
    | none =>
      rw [hd] at heq
      exact ⟨_, congrArg Host.Outcome.next heq, (congrArg State.now hframe :), fun _ => rfl, nofun,
        (congrArg (fun w : State => { w with tmc := s.tmc }) hrest :), hsent⟩
    | some k =>
      rw [hd] at heq
      exact ⟨_, congrArg Host.Outcome.next heq, (congrArg State.now hframe :), nofun, fun _ => (congrArg State.tmc hframe :),
        (congrArg (fun w : State => { w with tmc := s.tmc }) hrest :), hsent⟩
  case chip =>
    intro p isChip fault
    have hfault {i : Instr} {q : Chip} {after : Int} {T : Tick} {v : State} (hset : ChipSet T s v c q) (hcounters : q.counters = p.counters)
        (hactive : q.active = true) (hexec : exec i s = .next (timeFault v c after)) : fault i q after T := by
      refine ⟨fun hd => ⟨v, ?_, hset.now, hset.chip, hset.frame⟩, fun hd hsmall => ⟨countChip v c 4 1, ?_, hset.now, ?_, ?_⟩,
        fun hd hlarge hl => ⟨{ countChip v c 7 1 with loss := .declared [c] (T + ticksA s 1600) [] }, ?_, hset.now, ?_, rfl, ?_⟩⟩
      · rw [hexec, hset.fault_restarting hd]
      · rw [hexec, hset.fault_small hd hsmall]
      · exact hcounters ▸ (hset.count 4).1
      · exact (hset.count 4).2
      · rw [hexec, hset.fault_large hd hlarge hl hactive]
      · exact hcounters ▸ (hset.count 7).1
      · exact (congrArg (fun w : State => { w with loss := s.loss }) (hset.count 7).2 :)
    have hactive : ¬ (!(chipOf s c).active) = true := by rw [ha]; decide
    refine ⟨fun sent received answered back after => ?_, fun after => ⟨fun hfew => ?_, fun hmany => ?_⟩⟩
    · intro T trip off q i
      have hset : ChipSet T s _ c q := ChipSet.stamped hc back fun x =>
        { x with badExchanges := 0, offset := offsetOf sent received answered back, offsetAt := max s.now back }
      refine ⟨fun hshort => ⟨fun hsmall => ⟨_, ?_, hset.now, hset.chip, hset.frame⟩, fun hlarge => hfault hset rfl ha ?_⟩, fun hlong => ?_⟩
      · exact congrArg Host.Outcome.next ((if_neg hactive).trans ((if_neg (not_lt.2 hshort)).trans (if_neg (Nat.not_lt.2 hsmall))))
      · exact congrArg Host.Outcome.next ((if_neg hactive).trans ((if_neg (not_lt.2 hshort)).trans (if_pos hlarge)))
      · exact congrArg Host.Outcome.next ((if_neg hactive).trans (if_pos hlong))
    · have hset := ChipSet.start hc fun x => { x with badExchanges := (chipOf s c).badExchanges + 1 }
      exact ⟨_, congrArg Host.Outcome.next ((if_neg hactive).trans (if_neg (Nat.not_le.2 (Nat.succ_lt_succ hfew)))), hset.chip, hset.frame⟩
    · exact hfault (ChipSet.start hc fun x => { x with badExchanges := 0 }) rfl ha
        (congrArg Host.Outcome.next ((if_neg hactive).trans (if_pos (Nat.succ_le_succ hmany))))

end Sys2Proof.Laws
end

section
/-! SUPPORT. The fence tick of a chip loss, stage by stage (R39, R230, R419 to R424). -/

open Sys2Proof Sys2Proof.Machine

namespace Sys2Proof.Laws

/-! ## The ledger entry of a loss (R419) -/

/-- Entries that a rebuild adds end the ledger in use. -/
theorem bothLedgers_entries (s : State) (es : List LedgerEntry) :
    (ledgerNow (bothLedgers s es)).entries = (ledgerNow s).entries ++ es := by
  have hsame : ledgerNow (bothLedgers s es) = if s.vault.ledgerA.valid && (!s.vault.ledgerB.valid ||
      decide (s.vault.ledgerB.seq ≤ s.vault.ledgerA.seq)) then { s.vault.ledgerA with entries := s.vault.ledgerA.entries ++ es }
      else { s.vault.ledgerB with entries := s.vault.ledgerB.entries ++ es } := rfl
  rw [hsame, ledgerNow]
  dsimp only
  split <;> rfl

/-- Entries written end the ledger in use, while a rebuild goes on as otherwise (R407, R408). -/
theorem writeEntries_entries (s : State) (es : List LedgerEntry) :
    (ledgerNow (writeEntries s es)).entries = (ledgerNow s).entries ++ es := by
  unfold writeEntries
  split
  · exact bothLedgers_entries s es
  · dsimp only
    rw [ledgerNow_write]

theorem ledgerNow_raiseEvent (s : State) (b : Nat) : ledgerNow (raiseEvent s b) = ledgerNow s := by
  have hvault : (raiseEvent s b).vault = s.vault := (congrArg State.vault (raiseEvent_mild s b) :)
  rw [ledgerNow, hvault]
  rfl

/-- A field entry with the TMC at work ends the ledger in use. -/
theorem addLedger_appends {s : State} (hd : s.deputy = none) (k c u o e r : Nat) :
    (ledgerNow (addLedger s k c u o e r)).entries = (ledgerNow s).entries ++ [⟨k, c, u, o, e, r, (ledgerNow s).bringUps⟩] := by
  have hlog : (logFault s 0x41 c u k).deputy = none := by unfold logFault; rw [hd]
  unfold addLedger
  dsimp only
  rw [hlog]
  dsimp only
  rw [writeEntries_entries, logFault_ledger]

/-- A chip lost with the TMC at work ends the ledger in use with its entry (R419). -/
theorem dropChip_entries {s : State} (hd : s.deputy = none) (c : Nat) : (ledgerNow (dropChip s c)).entries =
    (ledgerNow s).entries ++ [⟨5, c, 0, 3, lossCount s c + 1, 0, (ledgerNow s).bringUps⟩] := by
  have hlast (v : State) (n : Nat) : ledgerNow { logFault (raiseEvent v evCHIP_LOST) evCHIP_LOST c 0 n with
      audited := v.audited.filter fun a => a.chip != c } = ledgerNow v :=
    (logFault_ledger (raiseEvent v evCHIP_LOST) evCHIP_LOST c 0 n).trans (ledgerNow_raiseEvent v evCHIP_LOST)
  have hentry := addLedger_appends (s := countTotal (setChip s c dropped) 29 1) hd 5 c 0 3 (lossCount s c + 1) 0
  rw [dropChip_eq]
  exact (congrArg Ledger.entries (hlast (addLedger (countTotal (setChip s c dropped) 29 1) 5 c 0 3 (lossCount s c + 1) 0) _)).trans hentry

/-! ## Commands caught (R420) -/

/-- The fence's marks on a command, opcode by opcode (Table FLT-7). -/
theorem catchCmd_eq (c : Cmd) : catchCmd c =
    if c.phase = .held ∨ isFailure c.status = true then c
    else if pktOp c ∈ [0x30, 0x31, 0x32, 0x33, 0x34, 0x40, 0x41, 0x42, 0x43, 0x44, 0x45, 0x46, 0x60, 0x61, 0x62, 0x63,
        0x64, 0x20, 0x21, 0x22, 0x23, 0x24, 0x25, 0x47, 0x50, 0x51, 0x70] then
      { c with
        phase := .held, status := 0, detail := 0, cflags := 0, commits := [], fixed := none, replayed := true
        reserved := [] }
    else if pktOp c = 0x10 then
      { c with phase := .held, status := 0, detail := 0, cflags := 0, commits := [], reserved := [] }
    else c := by
  have hops (op : Nat) : replayedByLoss op = true ↔ op ∈ [0x30, 0x31, 0x32, 0x33, 0x34, 0x40, 0x41, 0x42, 0x43, 0x44, 0x45, 0x46,
      0x60, 0x61, 0x62, 0x63, 0x64, 0x20, 0x21, 0x22, 0x23, 0x24, 0x25, 0x47, 0x50, 0x51, 0x70] := by
    simp only [replayedByLoss, isStepOp, isTensorOp, Bool.or_eq_true, decide_eq_true_eq, List.contains_iff_mem, List.mem_cons,
      List.not_mem_nil, or_false]
    omega
  unfold catchCmd
  refine if_congr (by rw [Bool.or_eq_true, beq_iff_eq]) rfl (if_congr (hops _) rfl rfl)

/-! ## Homes and streams (R230, R231) -/

/-- The streams that a loss leaves without a copy. -/
def lostStreams (before s : State) (lost : List Nat) : List Nat :=
  (s.streams.filter fun p =>
    lost.contains (homeOf before p.1).1 && (match (homeOf before p.1).2 with | some x => lost.contains x | none => true)).map fun p => p.1

/-- The homes that a loss leaves. -/
def keptHome (lost : List Nat) : Nat × Nat × Option Nat → Option (Nat × Nat × Option Nat)
  | (sid, h, m) =>
    let m' := match m with | some x => if lost.contains x then none else some x | none => none
    if lost.contains h then m'.map fun x => (sid, x, none) else some (sid, h, m')

theorem promoteHomes_eq (before s : State) (lost : List Nat) :
    promoteHomes before s lost = (lostStreams before s lost).foldl loseStream { s with homes := s.homes.filterMap (keptHome lost) } := rfl

theorem mem_lostStreams {before s : State} {lost : List Nat} {sid : Nat} : sid ∈ lostStreams before s lost ↔
    (∃ p ∈ s.streams, p.1 = sid) ∧ (homeOf before sid).1 ∈ lost ∧ ∀ x, (homeOf before sid).2 = some x → x ∈ lost := by
  have hgone (h : Nat × Option Nat) : (lost.contains h.1 && (match h.2 with | some x => lost.contains x | none => true)) = true ↔
      h.1 ∈ lost ∧ ∀ x, h.2 = some x → x ∈ lost := by
    rw [Bool.and_eq_true, List.contains_iff_mem]
    cases h.2 with
    | none => exact and_congr_right fun _ => iff_of_true rfl nofun
    | some x => exact and_congr_right fun _ => by simp
  unfold lostStreams
  rw [List.mem_map]
  constructor
  · rintro ⟨p, hp, rfl⟩
    obtain ⟨hmem, hlost⟩ := List.mem_filter.1 hp
    exact ⟨⟨p, hmem, rfl⟩, (hgone _).1 hlost⟩
  · rintro ⟨⟨p, hp, rfl⟩, hlost⟩
    exact ⟨p, List.mem_filter.2 ⟨hp, (hgone _).2 hlost⟩, rfl⟩

theorem mapGet_absent {α : Type} (d : α) {l : List (Nat × α)} {a : Nat} (h : ∀ p ∈ l, p.1 ≠ a) : mapGet d l a = d := by
  induction l with
  | nil => rfl
  | cons p l ih => exact (if_neg (h p List.mem_cons_self)).trans (ih fun q hq => h q (List.mem_cons_of_mem _ hq))

/-- An open stream has its entry. -/
theorem mem_streams_of_open {s : State} {sid : Nat} (h : (streamOf s sid).isOpen = true) : ∃ p ∈ s.streams, p.1 = sid := by
  by_contra hnone
  rw [streamOf, mapGet_absent _ fun p hp he => hnone ⟨p, hp, he⟩] at h
  cases h

/-- A home with its mirror after a loss that leaves one of them. -/
theorem keptHome_pair (lost : List Nat) (j h m : Nat) (hkept : ¬ (h ∈ lost ∧ m ∈ lost)) :
    keptHome lost (j, h, some m) = some (j, if h ∈ lost then (m, none) else if m ∈ lost then (h, none) else (h, some m)) := by
  unfold keptHome
  simp only [List.contains_iff_mem]
  by_cases hh : h ∈ lost
  · have hm : m ∉ lost := fun hm => hkept ⟨hh, hm⟩
    rw [if_pos hh, if_pos hh, if_neg hm]
    rfl
  · rw [if_neg hh, if_neg hh]
    by_cases hm : m ∈ lost
    · rw [if_pos hm, if_pos hm]
    · rw [if_neg hm, if_neg hm]

/-- A lookup in a list of homes of which a function keeps some, each under its stream. -/
theorem find_keptHome (lost : List Nat) (sid : Nat) (l : List (Nat × Nat × Option Nat)) :
    (∀ p, l.find? (fun p => p.1 == sid) = some p → (keptHome lost p).isSome = true →
      (l.filterMap (keptHome lost)).find? (fun p => p.1 == sid) = keptHome lost p) ∧
    (l.find? (fun p => p.1 == sid) = none → (l.filterMap (keptHome lost)).find? (fun p => p.1 == sid) = none) := by
  have hkey (p q : Nat × Nat × Option Nat) (h : keptHome lost p = some q) : q.1 = p.1 := by
    obtain ⟨j, a, m⟩ := p
    unfold keptHome at h
    dsimp only at h
    split at h
    · obtain ⟨x, -, rfl⟩ := Option.map_eq_some_iff.1 h
      rfl
    · cases h
      rfl
  induction l with
  | nil => exact ⟨nofun, fun _ => rfl⟩
  | cons y l ih =>
    obtain ⟨ihsome, ihnone⟩ := ih
    by_cases hy : y.1 = sid
    · rw [List.find?_cons_of_pos (by simpa using hy)]
      refine ⟨fun p hp hkept => ?_, nofun⟩
      cases hp
      obtain ⟨q, hq⟩ := Option.isSome_iff_exists.1 hkept
      rw [List.filterMap_cons_some hq, List.find?_cons_of_pos (by simpa using (hkey y q hq).trans hy), hq]
    · rw [List.find?_cons_of_neg (by simpa using hy)]
      cases hq : keptHome lost y with
      | none => rw [List.filterMap_cons_none hq]; exact ⟨ihsome, ihnone⟩
      | some q =>
        rw [List.filterMap_cons_some hq, List.find?_cons_of_neg (by simpa using fun he => hy ((hkey y q hq).symm.trans he))]
        exact ⟨ihsome, ihnone⟩

/-- The home and the mirror of a stream that keeps a copy (R230). -/
theorem homeOf_fenced {s u : State} {lost : List Nat} {sid h m : Nat} (hhomes : u.homes = s.homes.filterMap (keptHome lost))
    (hhoming : u.homing = s.homing) (hactive : ∀ k, (chipOf u k).active = ((chipOf s k).active && !lost.contains k))
    (hs : homeOf s sid = (h, some m)) (hkept : ¬ (h ∈ lost ∧ m ∈ lost)) :
    homeOf u sid = if h ∈ lost then (m, none) else if m ∈ lost then (h, none) else (h, some m) := by
  unfold homeOf at hs ⊢
  rw [hhomes, hhoming]
  obtain ⟨hsome, hnone⟩ := find_keptHome lost sid s.homes
  cases hf : s.homes.find? (fun p => p.1 == sid) with
  | some p =>
    obtain ⟨j, a, b⟩ := p
    rw [hf] at hs
    cases hs
    have hpair := keptHome_pair lost j h m hkept
    rw [hsome _ hf (hpair ▸ rfl), hpair]
  | none =>
    rw [hf] at hs
    rw [hnone hf]
    dsimp only at hs ⊢
    generalize nth 0 s.homing (sid % s.homing.length) = h₀ at hs ⊢
    generalize nth 0 s.homing ((sid % s.homing.length + 1) % s.homing.length) = m₀ at hs ⊢
    have hboth : (chipOf s h₀).active = true ∧ ((chipOf s m₀).active && m₀ != h₀) = true ∧ h₀ = h ∧ m₀ = m := by
      split at hs
      · split at hs
        · cases hs
          exact ⟨‹_›, ‹_›, rfl, rfl⟩
        · cases hs
      · split at hs <;> cases hs
    obtain ⟨hh, hm, rfl, rfl⟩ := hboth
    obtain ⟨hm, hne⟩ := Bool.and_eq_true_iff.1 hm
    rw [hactive, hactive, hh, hm, hne, List.contains_eq_mem, List.contains_eq_mem]
    by_cases hl : h₀ ∈ lost
    · rw [if_pos hl, decide_eq_true hl, decide_eq_false fun hml => hkept ⟨hl, hml⟩]
      rfl
    · rw [if_neg hl, decide_eq_false hl]
      by_cases hml : m₀ ∈ lost
      · rw [if_pos hml, decide_eq_true hml]
        rfl
      · rw [if_neg hml, decide_eq_false hml]
        rfl

/-! ## After the homes: the plan, the links, the ports and the shutdown (R39, R424) -/

/-- One host port with all four chips behind it lost: its links are down. -/
def portDown (s : State) (p : Nat) : State :=
  if (List.range 4).any fun i => (chipOf s (4 * p + i)).active then s
  else { s with links := modNth (modNth s.links (2 * p) fun _ => .down) (2 * p + 1) fun _ => .down }

theorem portsDown_eq (s : State) : portsDown s = portDown (portDown s 0) 1 := rfl

theorem portDown_frame (s : State) (p : Nat) : { portDown s p with links := s.links } = s := by
  unfold portDown
  split <;> rfl

theorem portsDown_frame (s : State) : { portsDown s with links := s.links } = s :=
  (congrArg (fun u : State => { u with links := s.links }) (portDown_frame (portDown s 0) 1) :).trans (portDown_frame s 0)

theorem linkUp_taken_down {s : State} {l k : Nat} (h : linkUp s l = false ∨ l = k) :
    linkUp { s with links := modNth s.links k fun _ => .down } l = false := by
  unfold linkUp
  dsimp only
  rw [nth_modNth]
  split
  · rfl
  · rename_i hout
    rcases h with h | rfl
    · exact h
    · have hlen : s.links.length ≤ l := Nat.not_lt.1 fun hlt => hout ⟨rfl, hlt⟩
      rw [nth, List.getD_eq_default _ _ hlen]
      rfl

/-- A link that is down stays down, and those of a port with no active chip go down. -/
theorem linkUp_portDown {s : State} {l p : Nat}
    (h : linkUp s l = false ∨ p = l / 2 ∧ ∀ i, i < 4 → (chipOf s (4 * p + i)).active = false) : linkUp (portDown s p) l = false := by
  unfold portDown
  split
  · rename_i hany
    rcases h with h | ⟨-, hdead⟩
    · exact h
    · obtain ⟨i, hi, hactive⟩ := List.any_eq_true.1 hany
      rw [hdead i (List.mem_range.1 hi)] at hactive
      cases hactive
  · refine linkUp_taken_down (s := { s with links := modNth s.links (2 * p) fun _ => .down }) (l := l) ?_
    by_cases hodd : l = 2 * p + 1
    · exact .inr hodd
    · refine .inl (linkUp_taken_down ?_)
      rcases h with h | ⟨hp, -⟩
      · exact .inl h
      · exact .inr (by omega)

/-- A host port's links go down with all four chips behind it (R39). -/
theorem linkUp_portsDown {s : State} {l : Nat} (hl : l < 4) (h : ∀ i, i < 4 → (chipOf s (4 * (l / 2) + i)).active = false) :
    linkUp (portsDown s) l = false := by
  have hchips : (portDown s 0).chips = s.chips := (congrArg State.chips (portDown_frame s 0) :)
  rw [portsDown_eq]
  by_cases hport : l / 2 = 0
  · exact linkUp_portDown (.inl (linkUp_portDown (.inr ⟨hport.symm, by rwa [hport] at h⟩)))
  · have hone : l / 2 = 1 := by omega
    refine linkUp_portDown (.inr ⟨hone.symm, fun i hi => ?_⟩)
    rw [chipOf_congr hchips]
    exact hone ▸ h i hi

/-- The stages that follow the homes: marks, plan, links and ports. -/
def fencePlan (s : State) (lost : List Nat) : State := portsDown (recheckLinks (fixPlan (fenceMarks s lost)))

/-- What those stages change, and what they leave of the registers and the ledger. -/
theorem fencePlan_parts (s : State) (lost : List Nat) : let u := fencePlan s lost
    { u with
      models := s.models, vault := s.vault, regs := s.regs, mgmt := s.mgmt, loss := s.loss, links := s.links, deputy := s.deputy
      barrierSt := s.barrierSt } = s ∧ ledgerNow u = ledgerNow s ∧ u.regs.degraded = true ∧
    u.regs.relayActive = decide (4 ≤ (activeChips s).length) ∧
    ∀ j, s.regs.eventCause.getLsbD j = true → u.regs.eventCause.getLsbD j = true := by
  obtain ⟨hplan, hledger, hdegraded, hrelay, hevents⟩ := planStep_fixPlan (fenceMarks s lost)
  unfold fencePlan
  generalize fixPlan (fenceMarks s lost) = v at hplan hledger hdegraded hrelay hevents
  have hlinks := recheckLinks_frame v
  generalize recheckLinks v = w at hlinks
  have hports := portsDown_frame w
  generalize portsDown w = u at hports
  have hregs : u.regs = v.regs := (congrArg State.regs hports :).trans (congrArg State.regs hlinks :)
  have hvault : u.vault = v.vault := (congrArg State.vault hports :).trans (congrArg State.vault hlinks :)
  have hsame : ledgerNow u = ledgerNow v :=
    (congrArg (fun x : Vault => if x.ledgerA.valid && (!x.ledgerB.valid || decide (x.ledgerB.seq ≤ x.ledgerA.seq)) then x.ledgerA
      else x.ledgerB) hvault :)
  refine ⟨?_, hsame.trans hledger, ?_, ?_, fun j hj => ?_⟩
  · have hlast := (congrArg (fun u : State => { u with
      models := s.models, vault := s.vault, regs := s.regs, mgmt := s.mgmt, loss := s.loss, links := s.links, deputy := s.deputy
      barrierSt := s.barrierSt }) hports :)
    have hmid := (congrArg (fun u : State => { u with
      models := s.models, vault := s.vault, regs := s.regs, mgmt := s.mgmt, loss := s.loss, links := s.links, deputy := s.deputy
      barrierSt := s.barrierSt }) hlinks :)
    have hfirst := (congrArg (fun u : State => { u with
      models := s.models, vault := s.vault, regs := s.regs, mgmt := s.mgmt, loss := s.loss, links := s.links, deputy := s.deputy
      barrierSt := s.barrierSt }) hplan :)
    exact hlast.trans (hmid.trans hfirst)
  · rw [hregs]
    exact hdegraded
  · rw [hregs]
    exact hrelay
  · rw [hregs]
    exact hevents j hj

/-- A commitment to shutdown keeps the bits of EVENT_CAUSE that are set. -/
theorem commitShutdown_event {s : State} {j : Nat} (h : s.regs.eventCause.getLsbD j = true) (d kind : Nat) (stay i5 : Bool) :
    (commitShutdown s d kind stay i5).regs.eventCause.getLsbD j = true := by
  unfold commitShutdown
  split
  · exact raiseEvent_stays _ _ _ h
  · exact h

/-- A tray with fewer than four chips commits to a fault shutdown, unless it is under way to one (R424). -/
theorem fewChips_parts (s : State) : let u := fewChips s
    { u with regs := s.regs, mgmt := s.mgmt, power := s.power, shutdown := s.shutdown } = s ∧
    u.regs.degraded = s.regs.degraded ∧ u.regs.relayActive = s.regs.relayActive ∧
    (∀ j, s.regs.eventCause.getLsbD j = true → u.regs.eventCause.getLsbD j = true) ∧
    (4 ≤ (activeChips s).length → u.shutdown = s.shutdown) ∧
    ((activeChips s).length < 4 → s.shutdown = .none →
      u.shutdown = .drain s.now 1 true false ∧ u.regs.saving = true ∧ u.regs.eventCause.getLsbD 4 = true) := by
  intro u
  by_cases h : (activeChips s).length < 4 ∧ s.shutdown = .none
  · obtain ⟨hfew, hnone⟩ := h
    have hu : u = commitShutdown (mgmtEvent s 0x0D 0 0) s.now 1 true false :=
      if_pos (Bool.and_eq_true_iff.2 ⟨decide_eq_true hfew, beq_iff_eq.2 hnone⟩)
    obtain ⟨cause, pend, msi, ev, banks, alert, heq, hset⟩ := commitShutdown_eq (s := mgmtEvent s 0x0D 0 0) hnone s.now 1 true false
    have hbits (j : Nat) (hj : s.regs.eventCause.getLsbD j = true) : u.regs.eventCause.getLsbD j = true := by
      rw [hu]
      exact commitShutdown_event (s := mgmtEvent s 0x0D 0 0) hj _ _ _ _
    rw [hu] at hbits ⊢
    rw [heq] at hbits ⊢
    exact ⟨rfl, rfl, rfl, hbits, fun hmany => absurd hfew (Nat.not_lt.2 hmany), fun _ _ => ⟨rfl, rfl, hset⟩⟩
  · have hu : u = s := if_neg fun hc => h (by
      obtain ⟨hfew, hnone⟩ := Bool.and_eq_true_iff.1 hc
      exact ⟨of_decide_eq_true hfew, beq_iff_eq.1 hnone⟩)
    rw [hu]
    exact ⟨rfl, rfl, rfl, fun _ hj => hj, fun _ => rfl, fun hfew hnone => absurd ⟨hfew, hnone⟩ h⟩

/-! ## The whole fence tick -/

/-- The state in which the homes are promoted. -/
def fencedHomes (s : State) (lost old : List Nat) : State :=
  promoteHomes s (catchCommands (lost.foldl dropChip s) (old ++ lost)) lost

theorem fenceNow_eq (s : State) (lost old : List Nat) : fenceNow s lost old = fewChips (fencePlan (fencedHomes s lost old) lost) := rfl

/-- What the fence up to the homes leaves, field by field. -/
structure HomesFenced (s u : State) (lost : List Nat) : Prop where
  frame : { u with
    chips := s.chips, totals := s.totals, vault := s.vault, deferred := s.deferred, deferredLog := s.deferredLog
    regs := s.regs, mgmt := s.mgmt, audited := s.audited, ledgerWrite := s.ledgerWrite, cmds := s.cmds, loss := s.loss
    homes := s.homes, streams := s.streams } = s
  cmds : u.cmds = s.cmds.map catchCmd
  chips : u.chips = (lost.foldl dropChip s).chips
  regs : u.regs = (lost.foldl dropChip s).regs
  ledger : ledgerNow u = ledgerNow (lost.foldl dropChip s)
  homes : u.homes = s.homes.filterMap (keptHome lost)
  streams : ∀ sid, streamOf u sid = if sid ∈ lostStreams s s lost ∧ (streamOf s sid).isOpen = true then Stream.closed else streamOf s sid

theorem fencedHomes_parts (s : State) (lost old : List Nat) : HomesFenced s (fencedHomes s lost old) lost := by
  have hdrop := dropChips_frame lost s
  unfold fencedHomes
  generalize hv : lost.foldl dropChip s = v at hdrop
  have hlost : lostStreams s (catchCommands v (old ++ lost)) lost = lostStreams s s lost :=
    (congrArg (fun x : State => lostStreams s x lost) hdrop :)
  have hkept : (catchCommands v (old ++ lost)).homes = s.homes := (congrArg State.homes hdrop :)
  rw [promoteHomes_eq, hlost, hkept]
  generalize hw : ({ catchCommands v (old ++ lost) with homes := s.homes.filterMap (keptHome lost) } : State) = w
  have hlose := loseStreams_frame (lostStreams s s lost) w
  have hledger := loseStreams_ledger (lostStreams s s lost) w
  have hstreams := streamOf_loseStreams (lostStreams s s lost) w
  generalize (lostStreams s s lost).foldl loseStream w = u at hlose hledger hstreams
  subst hw hv
  refine ⟨?_, ?_, (congrArg State.chips hlose :), (congrArg State.regs hlose :), hledger, (congrArg State.homes hlose :), fun sid => ?_⟩
  · have hlast := (congrArg (fun x : State => { x with
      chips := s.chips, totals := s.totals, vault := s.vault, deferred := s.deferred, deferredLog := s.deferredLog
      regs := s.regs, mgmt := s.mgmt, audited := s.audited, ledgerWrite := s.ledgerWrite, cmds := s.cmds, loss := s.loss
      homes := s.homes, streams := s.streams }) hlose :)
    have hfirst := (congrArg (fun x : State => { x with cmds := s.cmds, loss := s.loss, homes := s.homes, streams := s.streams }) hdrop :)
    exact hlast.trans hfirst
  · exact (congrArg State.cmds hlose :).trans (congrArg (fun x : State => x.cmds.map catchCmd) hdrop :)
  · have hsame : streamOf (lost.foldl dropChip s) sid = streamOf s sid := (congrArg (fun x : State => streamOf x sid) hdrop :)
    exact (hstreams sid).trans
      (congrArg (fun x : Stream => if sid ∈ lostStreams s s lost ∧ x.isOpen = true then Stream.closed else x) hsame)

end Sys2Proof.Laws
end

section
/-! SUPPORT. The fence tick as a whole, and the restart after a loss (R230, R368, R371, R419 to R424). -/

open Sys2Proof Sys2Proof.Machine

namespace Sys2Proof.Laws

/-! ## The fence tick as a whole -/

theorem linkUp_fencePlan {s : State} {lost : List Nat} {l : Nat} (hl : l < 4)
    (h : ∀ i, i < 4 → (chipOf (fencePlan s lost) (4 * (l / 2) + i)).active = false) : linkUp (fencePlan s lost) l = false := by
  unfold fencePlan at h ⊢
  generalize recheckLinks (fixPlan (fenceMarks s lost)) = v at h ⊢
  have hchips : (portsDown v).chips = v.chips := (congrArg State.chips (portsDown_frame v) :)
  exact linkUp_portsDown hl fun i hi => (congrArg Chip.active (chipOf_congr hchips _)).symm.trans (h i hi)

/-- The fence tick, from the homes on, leaves everything but what its later stages name. -/
theorem fenceNow_parts (s : State) (lost old : List Nat) : let u := fenceNow s lost old
    u.now = s.now ∧ u.host = s.host ∧ u.cmds = s.cmds.map catchCmd ∧ u.chips = (lost.foldl dropChip s).chips ∧
    u.homes = s.homes.filterMap (keptHome lost) ∧ u.homing = s.homing ∧ u.regs.degraded = true ∧
    u.regs.relayActive = decide (4 ≤ (activeChips u).length) ∧ ledgerNow u = ledgerNow (lost.foldl dropChip s) ∧
    (∀ j, (lost.foldl dropChip s).regs.eventCause.getLsbD j = true → u.regs.eventCause.getLsbD j = true) ∧
    (∀ sid, streamOf u sid =
      if sid ∈ lostStreams s s lost ∧ (streamOf s sid).isOpen = true then Stream.closed else streamOf s sid) ∧
    (∀ l, l < 4 → (∀ i, i < 4 → (chipOf u (4 * (l / 2) + i)).active = false) → linkUp u l = false) ∧
    (4 ≤ (activeChips u).length → u.shutdown = s.shutdown) ∧
    ((activeChips u).length < 4 → s.shutdown = .none →
      u.shutdown = .drain u.now 1 true false ∧ u.regs.saving = true ∧ u.regs.eventCause.getLsbD 4 = true) := by
  have hhomes := fencedHomes_parts s lost old
  rw [fenceNow_eq]
  generalize fencedHomes s lost old = v at hhomes
  obtain ⟨hplan, hledger, hdegraded, hrelay, hevents⟩ := fencePlan_parts v lost
  have hports := fun l => linkUp_fencePlan (s := v) (lost := lost) (l := l)
  generalize fencePlan v lost = w at hplan hledger hdegraded hrelay hevents hports
  obtain ⟨hfew, hdegraded', hrelay', hevents', hmany, hdown⟩ := fewChips_parts w
  generalize fewChips w = u at hfew hdegraded' hrelay' hevents' hmany hdown
  have hactive : activeChips u = activeChips w := (congrArg activeChips hfew :)
  have hactive' : activeChips w = activeChips v := (congrArg activeChips hplan :)
  have hnow : w.now = u.now := (congrArg State.now hfew :).symm
  have hshut : w.shutdown = s.shutdown := (congrArg State.shutdown hplan :).trans (congrArg State.shutdown hhomes.frame :)
  have hstreams (sid : Nat) : streamOf u sid = streamOf v sid :=
    (congrArg (streamOf · sid) hfew :).trans (congrArg (streamOf · sid) hplan :)
  refine ⟨hnow.symm.trans ((congrArg State.now hplan :).trans (congrArg State.now hhomes.frame :)),
    (congrArg State.host hfew :).trans ((congrArg State.host hplan :).trans (congrArg State.host hhomes.frame :)),
    (congrArg State.cmds hfew :).trans ((congrArg State.cmds hplan :).trans hhomes.cmds),
    (congrArg State.chips hfew :).trans ((congrArg State.chips hplan :).trans hhomes.chips),
    (congrArg State.homes hfew :).trans ((congrArg State.homes hplan :).trans hhomes.homes),
    (congrArg State.homing hfew :).trans ((congrArg State.homing hplan :).trans (congrArg State.homing hhomes.frame :)),
    hdegraded'.trans hdegraded, ?_, (congrArg ledgerNow hfew :).trans (hledger.trans hhomes.ledger),
    fun j hj => hevents' j (hevents j (hhomes.regs ▸ hj)), fun sid => (hstreams sid).trans (hhomes.streams sid), fun l hl hdead => ?_,
    fun h4 => (hmany (hactive ▸ h4)).trans hshut, fun hlt hnone => ?_⟩
  · rw [hrelay', hrelay, hactive, hactive']
  · have hsame : linkUp u l = linkUp w l := (congrArg (linkUp · l) hfew :)
    rw [hsame]
    exact hports l hl fun i hi => (congrArg (fun x : State => (chipOf x (4 * (l / 2) + i)).active) hfew :).symm.trans (hdead i hi)
  · obtain ⟨hdrain, hsaving, hset⟩ := hdown (hactive ▸ hlt) (hshut.trans hnone)
    exact ⟨hnow ▸ hdrain, hsaving, hset⟩

/-- A lost chip is inactive, with its core fences moot; every other chip stays (R39, R419). -/
theorem chipOf_dropChips {s : State} {lost : List Nat} (hlen : s.chips.length = 8) {k : Nat} (hk : k < 8) :
    chipOf (lost.foldl dropChip s) k = if k ∈ lost then dropped (chipOf s k) else chipOf s k := by
  rw [dropChips_chipOf lost s k (hlen.symm ▸ hk), List.contains_eq_mem]
  exact if_congr decide_eq_true_iff rfl rfl

theorem active_dropChips {s : State} {lost : List Nat} (hlen : s.chips.length = 8) (k : Nat) :
    (chipOf (lost.foldl dropChip s) k).active = ((chipOf s k).active && !lost.contains k) := by
  by_cases hk : k < 8
  · rw [dropChips_chipOf lost s k (hlen.symm ▸ hk)]
    cases lost.contains k with
    | true => rw [if_pos rfl, Bool.not_true, Bool.and_false]; rfl
    | false => rw [if_neg Bool.false_ne_true, Bool.not_false, Bool.and_true]
  · have hout (u : State) (hu : u.chips.length = 8) : chipOf u k = Chip.fresh k :=
      List.getD_eq_default _ _ (hu.symm ▸ Nat.not_lt.1 hk)
    rw [hout _ ((dropChips_length lost s).trans hlen), hout s hlen]
    rfl

/-! ## The restart (R368, R371, R421) -/

/-- The lowest-numbered active chip. -/
theorem headD_activeChips {s : State} {k : Nat} (hk : k < 8) (ha : (chipOf s k).active = true) (d : Nat) :
    ∃ l, (activeChips s).headD d = l ∧ l ≤ k ∧ (chipOf s l).active = true ∧ ∀ j, j < l → (chipOf s j).active = false := by
  obtain ⟨l, hhead, hle, hactive, hbefore⟩ := find_range (fun c => (chipOf s c).active) 8 k hk ha
  refine ⟨l, ?_, hle, hactive, hbefore⟩
  rw [List.headD_eq_head?_getD, activeChips, hhead]
  rfl

theorem askQuiet_asked (s : State) : (askQuiet s).quiet = s.quiet ∨ s.quiet = .none ∧ (askQuiet s).quiet = .wanted := by
  unfold askQuiet
  split
  · rename_i h
    simp only [Bool.and_eq_true, beq_iff_eq] at h
    exact .inr ⟨h.1.1.1, rfl⟩
  · exact .inl rfl

/-- A caught command started again, with a fresh watchdog (R421, R428). -/
theorem restartCmd_eq (s : State) (c : Cmd) : restartCmd s c =
    if c.phase = .held ∧ c.replayed = true ∧ s.shutdown = .none then
      { c with phase := .started, start := s.now, skips := [], hang := hangTicks s c } else c :=
  if_congr (by simp only [Bool.and_eq_true, beq_iff_eq, and_assoc]) rfl rfl

theorem lateLaunch_eq (s : State) (c : Cmd) : lateLaunch s c =
    if pktOp c = 0x73 ∧ c.phase = .started ∧ pkt c 0x20 8 ≤ s.now then
      { c with phase := .executed, late := true, fixed := some s.now } else c :=
  if_congr (by simp only [Bool.and_eq_true, beq_iff_eq, decide_eq_true_eq, and_assoc]) rfl rfl

theorem readTails_none {s : State} (h : workingBridge s = none) : readTails s = s := by rw [readTails, h]

theorem readTails_some {s : State} {b : Bridge} (h : workingBridge s = some b) :
    readTails s = { s with rings := s.rings.map fun p => (p.1, { p.2 with sqTail := mapGet p.2.sqTail b.tails p.1 }) } := by
  rw [readTails, h]

/-- The lead moved: the kept tails read, its counter aligned to the TMC, the launches that are late fired. -/
theorem moveLead_eq (s : State) : ∃ rings, moveLead s = { s with
      rings := rings, regs := { s.regs with lead := (activeChips s).headD s.regs.lead }, tmc := (0, s.now)
      cmds := s.cmds.map (lateLaunch s) } ∧
    (∀ b, workingBridge s = some b → rings = s.rings.map fun p => (p.1, { p.2 with sqTail := mapGet p.2.sqTail b.tails p.1 })) ∧
    (workingBridge s = none → rings = s.rings) := by
  have hmove {v : State} (hv : readTails { s with
      regs := { s.regs with lead := (activeChips s).headD s.regs.lead }, tmc := (0, s.now) } = v) :
      moveLead s = { v with cmds := v.cmds.map (lateLaunch v) } := hv ▸ rfl
  cases hb : workingBridge s with
  | none => exact ⟨s.rings, hmove (readTails_none hb), nofun, fun _ => rfl⟩
  | some b => exact ⟨_, hmove (readTails_some hb), fun b' hb' => by cases hb'; rfl, nofun⟩

section
variable {s : State} {lost : List Nat} (hl : s.loss = .recovering lost) (t : Tick)
include hl

theorem doChipLossRestart_recovering : doChipLossRestart s t =
    let v := if s.regs.lead ∈ lost then moveLead (stamp s t) else stamp s t
    askQuiet { v with loss := .none, cmds := v.cmds.map (restartCmd v) } := by
  unfold doChipLossRestart
  rw [hl]
  simp only [List.contains_iff_mem]
  rfl

end

/-! ## Re-lay (R267, R270, R422) -/

/-- Is a re-lay under way and all of it done? -/
def relayOver (s : State) : Prop := s.regs.relayActive = true ∧ s.loss = .none ∧ ∀ p ∈ s.models, p.2.state ≠ 5

theorem relayOver_iff (s : State) :
    ¬ (!s.regs.relayActive || s.loss != .none || s.models.any fun p => p.2.state == 5) = true ↔ relayOver s := by
  rw [Bool.not_eq_true, Bool.or_eq_false_iff, Bool.or_eq_false_iff, Bool.not_eq_false', bne_eq_false_iff_eq, List.any_eq_false, and_assoc]
  simp only [relayOver, beq_iff_eq, ne_eq]

/-- The streams of the step commands in flight, each once. -/
def flyingStreams (s : State) : List Nat := ((stepsFlying s).flatMap (cmdStreams s)).eraseDups

theorem mem_flyingStreams {s : State} {j : Nat} : j ∈ flyingStreams s ↔
    ∃ d ∈ s.cmds, isStepOp (pktOp d) = true ∧ d.began = true ∧ d.phase ≠ .held ∧ ∃ p ∈ d.ctxs, p.1 = j := by
  have hstreams (d : Cmd) (hop : isStepOp (pktOp d) = true) : cmdStreams s d = d.ctxs.map fun p => p.1 := if_pos hop
  unfold flyingStreams stepsFlying
  rw [List.mem_eraseDups, List.mem_flatMap]
  constructor
  · rintro ⟨d, hd, hj⟩
    obtain ⟨hmem, htest⟩ := List.mem_filter.1 hd
    simp only [Bool.and_eq_true, bne_iff_ne] at htest
    obtain ⟨⟨hop, hbegan⟩, hphase⟩ := htest
    rw [hstreams d hop, List.mem_map] at hj
    exact ⟨d, hmem, hop, hbegan, hphase, hj⟩
  · rintro ⟨d, hmem, hop, hbegan, hphase, hj⟩
    refine ⟨d, List.mem_filter.2 ⟨hmem, ?_⟩, ?_⟩
    · simp only [Bool.and_eq_true, bne_iff_ne]
      exact ⟨⟨hop, hbegan⟩, hphase⟩
    · rw [hstreams d hop]
      exact List.mem_map.2 hj

/-- A re-lay that is over: RELAY_DONE, service whole again, and a homing (R230, R422). -/
theorem doRelayDone_over {s : State} (h : relayOver s) (t : Tick) : ∃ regs mgmt,
    doRelayDone s t = { s with
      now := max s.now t, regs := regs, mgmt := mgmt, homing := activeChips s, moving := flyingStreams s, audited := []
      homes := (flyingStreams s).map fun j => (j, (homeOf s j).1, (homeOf s j).2) } ∧
    regs.relayActive = false ∧ regs.degraded = false ∧ regs.eventCause.getLsbD 5 = true := by
  have hrun : doRelayDone s t = homingNow (raiseEvent { stamp s t with
      regs := { s.regs with relayActive := false, degraded := false } } evRELAY_DONE) (flyingStreams s) :=
    if_neg ((relayOver_iff (stamp s t)).2 h)
  have hraised := raiseEvent_mild { stamp s t with regs := { s.regs with relayActive := false, degraded := false } } evRELAY_DONE
  have hset := raiseEvent_sets { stamp s t with regs := { s.regs with relayActive := false, degraded := false } } (b := evRELAY_DONE) (by decide)
  have hregs := raiseEvent_regs { stamp s t with regs := { s.regs with relayActive := false, degraded := false } } evRELAY_DONE
  rw [hrun]
  generalize raiseEvent { stamp s t with regs := { s.regs with relayActive := false, degraded := false } } evRELAY_DONE = v
    at hraised hset hregs
  refine ⟨v.regs, v.mgmt, ?_, (congrArg Regs.relayActive hregs :), (congrArg Regs.degraded hregs :), hset⟩
  have hhome (j : Nat) : homeOf v j = homeOf s j := (congrArg (homeOf · j) hraised :)
  have hactive : activeChips v = activeChips s := (congrArg activeChips hraised :)
  unfold homingNow
  simp only [hhome, hactive]
  exact (congrArg (fun x : State => { x with
    regs := v.regs, mgmt := v.mgmt, homing := activeChips s, moving := flyingStreams s, audited := []
    homes := (flyingStreams s).map fun j => (j, (homeOf s j).1, (homeOf s j).2) }) hraised :)

end Sys2Proof.Laws
end

section
/-! SUPPORT. The clauses about a loss, one by one: the fence tick, the restart, the re-lay and the mirrors. -/

open Sys2Proof Sys2Proof.Machine

namespace Sys2Proof.Laws

/-! ## The fence tick (R39, R419 to R424) -/

section
variable {s : State} {lost old : List Nat} {f : Tick} (hl : s.loss = .declared lost f old)
include hl

theorem doFenceTick_before {t : Tick} (ht : t < f) : doFenceTick s t = stamp s t := by
  unfold doFenceTick
  rw [hl]
  exact if_pos ht

theorem doFenceTick_due {t : Tick} (ht : f ≤ t) : doFenceTick s t = fenceNow (stamp s f) lost old := by
  unfold doFenceTick
  rw [hl]
  exact if_neg (Nat.not_lt.2 ht)

end

/-! ## The restart (R368, R371, R421) -/

section
variable {s : State} {lost : List Nat} (hl : s.loss = .recovering lost) (t : Tick)
include hl

/-- With the lead at hand the interrupted commands start again. -/
theorem doChipLossRestart_led (h : s.regs.lead ∉ lost) :
    doChipLossRestart s t = askQuiet { stamp s t with loss := .none, cmds := s.cmds.map (restartCmd (stamp s t)) } := by
  have hrun := doChipLossRestart_recovering hl t
  rw [if_neg h] at hrun
  exact hrun

/-- With the lead lost its role moves first. -/
theorem doChipLossRestart_moved (h : s.regs.lead ∈ lost) : doChipLossRestart s t =
    askQuiet { moveLead (stamp s t) with loss := .none, cmds := (moveLead (stamp s t)).cmds.map (restartCmd (moveLead (stamp s t))) } := by
  have hrun := doChipLossRestart_recovering hl t
  rw [if_pos h] at hrun
  exact hrun

end

/-! ## The re-lay (R267, R270) -/

theorem doRelayDone_waits {s : State} (h : ¬ relayOver s) (t : Tick) : doRelayDone s t = stamp s t :=
  if_pos (by_contra fun hn => h ((relayOver_iff (stamp s t)).1 hn))

theorem doModelRelayComplete_idle {s : State} {mid : Nat} (h : ∀ m, modelOf s mid = some m → m.state ≠ 5) :
    doModelRelayComplete s mid = s := by
  unfold doModelRelayComplete
  cases hm : modelOf s mid with
  | none => rfl
  | some m => exact if_pos (bne_iff_ne.2 (h m hm))

/-- The writes of a model's overhang. -/
def overhangWrites (m : Model) : List (Nat × List Byte) := (overhangGranules m).map fun g => (imageAddr m g, granuleImage m g)

theorem writeOverhang_writeAll (s : State) (m : Model) : (writeOverhang s m).1 = writeAll s (overhangWrites m) := by
  rw [writeAll, overhangWrites, List.foldl_map]
  rfl

/-- Overhang images that lie apart are all read back as written. -/
theorem overhang_read {s : State} (hw : memoriesWf s = true) (ht : trainedLinks s ≠ []) {m : Model}
    (hapart : (overhangAreas m).Pairwise fun p q => p.1 + p.2 ≤ q.1 ∨ q.1 + q.2 ≤ p.1) {g : Nat} (hg : g ∈ overhangGranules m) :
    hostBytes (writeOverhang s m).1 (imageAddr m g) (granuleImage m g).length = granuleImage m g := by
  have hpairs := List.pairwise_map.1 hapart
  rw [writeOverhang_writeAll]
  refine writeAll_read (overhangWrites m) (imageAddr m g, granuleImage m g) (List.mem_map.2 ⟨g, hg, rfl⟩) (fun q hq => ?_) s hw ht
  obtain ⟨k, hk, rfl⟩ := List.mem_map.1 hq
  by_cases hkg : k = g
  · exact .inl (by rw [hkg])
  · have hsym : Std.Symm fun k g => imageAddr m k + (granuleImage m k).length ≤ imageAddr m g ∨
        imageAddr m g + (granuleImage m g).length ≤ imageAddr m k := ⟨fun _ _ h => h.symm⟩
    exact .inr (hpairs.forall hk hg hkg)

/-- A re-lay done: the model has its planned ranks and rows, and its overhang is written. -/
theorem doModelRelayComplete_due {s : State} {mid r : Nat} {m : Model} {ranks} (hm : modelOf s mid = some m)
    (hst : m.state = 5) (hplan : m.plan = some (ranks, r)) :
    let placed : Model := { m with
      ranks := ranks, resident := r, plan := none, state := if r < granuleRows m.desc ranks.length then 3 else 2 }
    let w := writeOverhang s placed
    doModelRelayComplete s mid = { w.1 with
      models := w.1.models.map fun p => if p.1 = mid then (mid, w.2) else p
      vault := { w.1.vault with models := w.1.vault.models.map fun p =>
        if p.1 = mid then (mid, { p.2 with state := w.2.state }) else p } } := by
  have hplaced : relaidModel m = { m with
      ranks := ranks, resident := r, plan := none, state := if r < granuleRows m.desc ranks.length then 3 else 2 } := by
    rw [relaidModel, hplan]
  intro placed w
  unfold doModelRelayComplete
  rw [hm]
  dsimp only
  rw [if_neg (by rw [hst]; decide), hplaced]
  simp only [beq_iff_eq]
  rfl

/-! ## Mirrors (R230) -/

/-- The first number of a range for which a test holds, above a given one. -/
theorem nextChip_spec {s : State} {h m : Nat} (hm : m < 8) (hne : m ≠ h) (ha : (chipOf s m).active = true) :
    ∃ x, nextChip s h = some x ∧ x ≠ h ∧ (chipOf s x).active = true ∧ (h < m → h < x ∧ x ≤ m) ∧ (x < h → x ≤ m) := by
  have hrest : (activeChips s).filter (fun x => x != h) = (List.range 8).filter fun x => (chipOf s x).active && x != h := by
    rw [activeChips, List.filter_filter]
    simp only [Bool.and_comm]
  have hfind : ((activeChips s).filter fun x => x != h).find? (fun x => decide (h < x)) =
      ((List.range 8).filter fun x => ((chipOf s x).active && x != h) && decide (h < x)).head? := by
    rw [hrest, ← List.head?_filter, List.filter_filter]
    simp only [Bool.and_comm]
  have htest (x : Nat) : ((chipOf s x).active && x != h) = true ↔ (chipOf s x).active = true ∧ x ≠ h := by
    rw [Bool.and_eq_true, bne_iff_ne]
  have habove (x : Nat) : (((chipOf s x).active && x != h) && decide (h < x)) = true ↔ ((chipOf s x).active = true ∧ x ≠ h) ∧ h < x := by
    rw [Bool.and_eq_true, htest, decide_eq_true_iff]
  unfold nextChip
  dsimp only
  rw [hfind, hrest]
  cases hx : ((List.range 8).filter fun x => ((chipOf s x).active && x != h) && decide (h < x)).head? with
  | some x =>
    rw [List.head?_filter] at hx
    obtain ⟨⟨hactive, hxh⟩, hlt⟩ := (habove x).1 (List.find?_some (p := fun x => ((chipOf s x).active && x != h) && decide (h < x)) hx)
    refine ⟨x, rfl, hxh, hactive, fun hlow => ⟨hlt, ?_⟩, fun hgt => by omega⟩
    obtain ⟨y, hy, hle, -⟩ := find_range (fun x => ((chipOf s x).active && x != h) && decide (h < x)) 8 m hm ((habove m).2 ⟨⟨ha, hne⟩, hlow⟩)
    rw [List.head?_filter] at hy
    cases hx.symm.trans hy
    exact hle
  | none =>
    obtain ⟨x, hfirst, hle, hgood, -⟩ := find_range (fun x => (chipOf s x).active && x != h) 8 m hm ((htest m).2 ⟨ha, hne⟩)
    obtain ⟨hactive, hxh⟩ := (htest x).1 hgood
    refine ⟨x, hfirst, hxh, hactive, fun hlow => ?_, fun _ => hle⟩
    rw [List.head?_eq_none_iff, List.filter_eq_nil_iff] at hx
    exact absurd ((habove m).2 ⟨⟨ha, hne⟩, hlow⟩) (hx m (List.mem_range.2 hm))

theorem homeOf_of_entry {s : State} {sid h : Nat} {m : Option Nat} (hf : s.homes.find? (fun p => p.1 == sid) = some (sid, h, m)) :
    homeOf s sid = (h, m) := by
  rw [homeOf, hf]

theorem homeOf_same_entry {s : State} {homes : List (Nat × Nat × Option Nat)} {j : Nat}
    (hf : homes.find? (fun p => p.1 == j) = s.homes.find? fun p => p.1 == j) : homeOf { s with homes := homes } j = homeOf s j := by
  unfold homeOf
  dsimp only
  rw [hf]
  rfl

/-- The homes with one stream's entry put last. -/
theorem find_replaced {l : List (Nat × Nat × Option Nat)} {sid : Nat} (e : Nat × Option Nat) (j : Nat) :
    ((l.filter fun p => p.1 != sid) ++ [(sid, e)]).find? (fun p => p.1 == j) =
      if j = sid then some (sid, e) else l.find? fun p => p.1 == j := by
  rw [List.find?_append, List.find?_filter]
  by_cases hj : j = sid
  · subst hj
    have hnone : l.find? (fun p => decide ((p.1 != j) = true ∧ (p.1 == j) = true)) = none :=
      List.find?_eq_none.2 fun p _ h => by simp at h
    rw [if_pos rfl, hnone, Option.none_or, List.find?_cons_of_pos (by simp)]
  · have hsame : (fun p : Nat × Nat × Option Nat => decide ((p.1 != sid) = true ∧ (p.1 == j) = true)) = fun p => p.1 == j := by
      funext p
      by_cases hp : p.1 = j
      · simp [hp, hj]
      · simp [hp]
    rw [if_neg hj, hsame, List.find?_cons_of_neg (by simpa using fun h => hj h.symm)]
    exact Option.or_none

theorem doMirrorBuildComplete_kept {s : State} {sid h m : Nat} (hs : homeOf s sid = (h, some m)) : doMirrorBuildComplete s sid = s := by
  unfold doMirrorBuildComplete
  rw [hs]

theorem doMirrorBuildComplete_built {s : State} {sid h : Nat} (hs : homeOf s sid = (h, none)) :
    doMirrorBuildComplete s sid = { s with homes := (s.homes.filter fun p => p.1 != sid) ++ [(sid, h, nextChip s h)] } := by
  unfold doMirrorBuildComplete
  rw [hs]

end Sys2Proof.Laws
end

section
/-! What follows the loss of a chip settled: the fence tick, the restart, the re-lay and the mirrors (21_faults.md). -/

open Sys2Proof Sys2Proof.Machine

namespace Sys2Proof.Laws

/-- The fence tick's changes, as LossRecoveryRuns words them, made on state s. -/
def FenceDone (s u : State) (lost : List Nat) : Prop :=
  u.now = s.now ∧ u.host = s.host ∧
  (∀ k, k < 8 → chipOf u k = if k ∈ lost then
      { chipOf s k with active := false, cores := (chipOf s k).cores.map fun x => { x with pending := none } }
    else chipOf s k) ∧
  (∀ l, l < 4 → (∀ i, i < 4 → (chipOf u (4 * (l / 2) + i)).active = false) → linkUp u l = false) ∧
  u.regs.degraded = true ∧ (lost ≠ [] → u.regs.eventCause.getLsbD 0 = true) ∧
  (∀ c, lost = [c] → s.deputy = none → (ledgerNow u).entries = (ledgerNow s).entries ++
    [⟨5, c, 0, 3, lossCount s c + 1, 0, (ledgerNow s).bringUps⟩]) ∧
  u.cmds = s.cmds.map catchCmd ∧
  (∀ sid h m, homeOf s sid = (h, some m) → h ≠ m → ¬ (h ∈ lost ∧ m ∈ lost) →
    streamOf u sid = streamOf s sid ∧
    homeOf u sid = if h ∈ lost then (m, none) else if m ∈ lost then (h, none) else (h, some m)) ∧
  (∀ sid h m, homeOf s sid = (h, m) → h ∈ lost → (∀ x, m = some x → x ∈ lost) →
    (streamOf s sid).isOpen = true → streamOf u sid = Machine.Stream.closed) ∧
  (4 ≤ (activeChips u).length → u.shutdown = s.shutdown ∧ u.regs.relayActive = true) ∧
  ((activeChips u).length < 4 → s.shutdown = .none →
    u.shutdown = .drain u.now 1 true false ∧ u.regs.saving = true ∧ u.regs.eventCause.getLsbD 4 = true)

theorem fenceNow_done {s : State} {lost : List Nat} (old : List Nat) (hlen : s.chips.length = 8) :
    FenceDone s (fenceNow s lost old) lost := by
  have hparts := fenceNow_parts s lost old
  generalize fenceNow s lost old = u at hparts ⊢
  obtain ⟨hnow, hhost, hcmds, hchips, hhomes, hhoming, hdegraded, hrelay, hledger, hevents, hstreams, hlinks, hmany, hfew⟩ := hparts
  refine ⟨hnow, hhost, fun k hk => ?_, hlinks, hdegraded, fun hne => hevents 0 (dropChips_event lost s (.inl hne)), ?_, hcmds, ?_, ?_,
    fun h4 => ⟨hmany h4, hrelay.trans (decide_eq_true h4)⟩, hfew⟩
  · rw [chipOf_congr hchips, chipOf_dropChips hlen hk]
    rfl
  · rintro c rfl hd
    rw [hledger]
    exact dropChip_entries hd c
  · intro sid h m hs _ hkept
    refine ⟨?_, homeOf_fenced hhomes hhoming (fun k => ?_) hs hkept⟩
    · rw [hstreams, if_neg]
      rintro ⟨hmem, -⟩
      obtain ⟨-, hh, hm⟩ := mem_lostStreams.1 hmem
      rw [hs] at hh hm
      exact hkept ⟨hh, hm m rfl⟩
    · rw [chipOf_congr hchips, active_dropChips hlen]
  · intro sid h m hs hh hm hopen
    rw [hstreams, if_pos]
    refine ⟨mem_lostStreams.2 ⟨mem_streams_of_open hopen, ?_⟩, hopen⟩
    rw [hs]
    exact ⟨hh, hm⟩

/-- A re-lay done, as LossRecoveryRuns words it. -/
theorem doModelRelayComplete_ran {s : State} {mid r : Nat} {m : Model} {ranks} (hm : modelOf s mid = some m)
    (hst : m.state = 5) (hplan : m.plan = some (ranks, r)) (hw : memoriesWf s = true) (ht : trainedLinks s ≠ []) :
    let placed : Model := { m with
      ranks := ranks, resident := r, plan := none, state := if r < granuleRows m.desc ranks.length then 3 else 2 }
    let x : Model := { placed with crcs := (overhangGranules placed).map fun g => crc32c (granuleImage placed g) }
    let u := doModelRelayComplete s mid
    u.models = s.models.map (fun p => if p.1 = mid then (mid, x) else p) ∧
    u.vault = { s.vault with models := s.vault.models.map fun p => if p.1 = mid then (mid, { p.2 with state := x.state }) else p } ∧
    sameOutside (overhangAreas placed) s u ∧
    ((overhangAreas placed).Pairwise (fun p q => p.1 + p.2 ≤ q.1 ∨ q.1 + q.2 ≤ p.1) →
      ∀ g ∈ overhangGranules placed, hostBytes u (imageAddr placed g) (granuleImage placed g).length = granuleImage placed g) ∧
    { u with host := s.host, models := s.models, vault := s.vault } = s := by
  intro placed x u
  have hrun : u = _ := doModelRelayComplete_due hm hst hplan
  have hread := fun ha g => overhang_read hw ht (m := placed) ha (g := g)
  obtain ⟨host, hwritten, houtside⟩ := writeOverhang_host hw ht placed
  rw [hwritten] at hread
  dsimp only at hrun
  rw [hwritten] at hrun
  rw [hrun]
  exact ⟨rfl, rfl, houtside, fun ha g hg => hread ha g hg, rfl⟩

/-- Settles O45: the fence tick by its stages (`fenceNow_parts`), the restart by `restartCmd_eq` and `lateLaunch_eq` after
`moveLead_eq`, the re-lay by what `writeOverhang` writes, and a mirror by `nextChip_spec`. -/
theorem lossRecoveryRuns : Obligations.LossRecoveryRuns := by
  unfold Obligations.LossRecoveryRuns
  refine ⟨fun s lost old f t hl hlen => ⟨fun ht => ?_, fun ht => ?fence⟩, fun s t => ?rest⟩
  · exact congrArg Host.Outcome.next (doFenceTick_before hl ht)
  case fence =>
    obtain ⟨hnow, hhost, hchips, hlinks, hdegraded, hcause, hentry, hcmds, hrest⟩ := fenceNow_done (s := stamp s f) (lost := lost) old hlen
    exact ⟨_, congrArg Host.Outcome.next (doFenceTick_due hl ht), hnow, hhost, hchips, hlinks, hdegraded, hcause, hentry,
      hcmds.trans (List.map_congr_left fun c _ => catchCmd_eq c), hrest⟩
  intro T
  refine ⟨fun lost hl => ?restart, fun hactive hloss hmodels => ?done, fun hwaits => ?_, fun mid hidle => ?_,
    fun mid m ranks r hm hst hplan hw ht => ?relaid, fun sid h m hs => ?_, fun sid h hs => ?mirror⟩
  case restart =>
    intro restart late asked
    refine ⟨fun hlead => ?_, fun hlead k hk ha => ?moved⟩
    · refine ⟨_, congrArg Host.Outcome.next (doChipLossRestart_led hl t hlead), askQuiet_asked _, ?_⟩
      exact (askQuiet_frame _).trans (congrArg (fun l => { stamp s t with loss := .none, cmds := l })
        (List.map_congr_left fun c _ => restartCmd_eq (stamp s t) c))
    case moved =>
      obtain ⟨l, hhead, hle, hl', hbefore⟩ := headD_activeChips (s := stamp s t) hk ha (stamp s t).regs.lead
      obtain ⟨rings, hmoved, hsome, hnone⟩ := moveLead_eq (stamp s t)
      have hrun := doChipLossRestart_moved hl t hlead
      rw [hmoved, hhead] at hrun
      refine ⟨l, hle, hl', hbefore, _, congrArg Host.Outcome.next hrun, askQuiet_asked _,
        fun b hb => (congrArg State.rings (askQuiet_frame _) :).trans (hsome b hb),
        fun hb => (congrArg State.rings (askQuiet_frame _) :).trans (hnone hb), ?_⟩
      refine (congrArg (fun x : State => { x with rings := s.rings }) (askQuiet_frame _) :).trans
        (congrArg (fun l' : List Cmd => { stamp s t with
          loss := .none, regs := { s.regs with lead := l }, tmc := (0, T), cmds := l' }) ?_)
      rw [List.map_congr_left (fun c _ => lateLaunch_eq (stamp s t) c)]
      exact List.map_congr_left fun c _ => restartCmd_eq _ c
  case done =>
    obtain ⟨regs, mgmt, hrun, hrelay, hdegraded, hset⟩ := doRelayDone_over (s := s) ⟨hactive, hloss, hmodels⟩ t
    exact ⟨_, congrArg Host.Outcome.next hrun, rfl, hrelay, hdegraded, hset, rfl, rfl, fun j => mem_flyingStreams, rfl, rfl⟩
  · refine congrArg Host.Outcome.next (doRelayDone_waits (fun hover => ?_) t)
    obtain ⟨hactive, hloss, hmodels⟩ := hover
    rcases hwaits with h | h | ⟨p, hp, h⟩
    · exact Bool.false_ne_true (h.symm.trans hactive)
    · exact h hloss
    · exact hmodels p hp h
  · exact congrArg Host.Outcome.next (doModelRelayComplete_idle hidle)
  case relaid =>
    obtain ⟨hmodels, hvault, houtside, hread, hrest⟩ := doModelRelayComplete_ran hm hst hplan hw ht
    exact ⟨_, rfl, hmodels, hvault, houtside, hread, hrest⟩
  · exact congrArg Host.Outcome.next (doMirrorBuildComplete_kept hs)
  case mirror =>
    refine ⟨_, congrArg Host.Outcome.next (doMirrorBuildComplete_built hs), rfl, fun j hj => homeOf_same_entry ?_, fun m hm hne ha => ?_⟩
    · rw [find_replaced, if_neg hj]
    · obtain ⟨x, hnext, hxh, hactive, habove, hbelow⟩ := nextChip_spec hm hne ha
      refine ⟨x, homeOf_of_entry ?_, hxh, hactive, habove, hbelow⟩
      rw [hnext]
      exact (find_replaced _ sid).trans (if_pos rfl)

end Sys2Proof.Laws
end

section
/-! SUPPORT. The input's dips and losses as one record each: what PF_EARLY, a return and the presence contacts leave (R445, R493). -/

open Sys2Proof Sys2Proof.Machine

namespace Sys2Proof.Laws

/-- Are the chip rails down and no bring-up begun? -/
theorem bootDown_iff (b : Boot) : (decide (b = .off) || decide (b = .railsDown)) = true ↔ b = .off ∨ b = .railsDown := by
  rw [Bool.or_eq_true, decide_eq_true_iff, decide_eq_true_iff]

/-! ## PF_EARLY (R445) -/

section
variable {s : State} (hw : s.power.window = none) (mv : Nat) (t : Tick)
include hw

theorem doPfEarly_passes (hmv : 38000 ≤ mv) (hd : s.power.disconnected = false) : doPfEarly s mv t = stamp s t := by
  unfold doPfEarly
  rw [hw]
  exact if_pos (by rw [show (stamp s t).power.disconnected = false from hd, decide_eq_true hmv]; rfl)

/-- A dip: with the rails down it is only measured. -/
theorem doPfEarly_down (hdip : mv < 38000 ∨ s.power.disconnected = true) (hb : s.boot = .off ∨ s.boot = .railsDown) :
    doPfEarly s mv t = { stamp s t with power := { s.power with millivolts := mv } } := by
  unfold doPfEarly
  rw [hw]
  refine (if_neg ?_).trans (if_pos ?_)
  · rcases hdip with h | h <;> simp [h]
  · rcases hb with h | h <;> simp [h]

/-- A dip with the rails up, before PF_EARLY is raised: the tray awake, the window open. -/
def dipSeen (s : State) (mv : Nat) : State :=
  let v : State := { s with power := { s.power with millivolts := mv } }
  let v := if v.power.idle = 4 then v else wake v
  { v with
    regs := { v.regs with pfEarly := true }
    power := { v.power with window := some (v.now + ticksUs v 5000) } }

theorem doPfEarly_up (hdip : mv < 38000 ∨ s.power.disconnected = true) (hb : ¬ (s.boot = .off ∨ s.boot = .railsDown)) :
    doPfEarly s mv t = raiseEvent (dipSeen (stamp s t) mv) evPF_EARLY := by
  unfold doPfEarly
  rw [hw]
  refine (if_neg ?_).trans (if_neg fun h => hb ((bootDown_iff s.boot).1 ?_))
  · rcases hdip with h | h <;> simp [h]
  · have htest : (decide (s.boot = .off) || decide (s.boot = .railsDown) || s.power.window.isSome) = true := h
    rwa [hw, Option.isSome_none, Bool.or_false] at htest

end

/-- A wake from I1 to I3 writes the power state alone. -/
theorem wake_shallow {s : State} (h : s.power.idle ≠ 4) : ∃ since i4, wake s =
    { s with power := { s.power with idle := 0, idleSince := since, i4Slot := i4 } } := by
  unfold wake
  by_cases h0 : s.power.idle = 0
  · exact ⟨s.now, s.power.i4Slot, (if_pos h0).trans (by rw [← h0])⟩
  · exact ⟨s.now, false, (if_neg h0).trans (congrArg (fun v => { s with power := { s.power with idle := 0, idleSince := s.now, i4Slot := false }, vault := v })
      (if_neg h))⟩

theorem dipSeen_parts (s : State) (mv : Nat) : let u := dipSeen s mv
    u.regs.pfEarly = true ∧ u.power.window = some (s.now + ticksUs s 5000) ∧ u.power.millivolts = mv ∧
    (s.power.idle ≠ 4 → u.power.idle = 0) ∧ { u with regs := s.regs, power := s.power } = s := by
  unfold dipSeen
  dsimp only
  by_cases h : s.power.idle = 4
  · rw [if_pos h]
    exact ⟨rfl, rfl, rfl, fun hne => absurd h hne, rfl⟩
  · obtain ⟨since, i4, hwake⟩ := wake_shallow (s := { s with power := { s.power with millivolts := mv } }) h
    rw [if_neg h, hwake]
    exact ⟨rfl, rfl, rfl, fun _ => rfl, rfl⟩

/-! ## The return (R445, R449) -/

/-- The input back at a voltage. -/
def inputBack (s : State) (mv : Nat) : State := { s with power := { s.power with millivolts := mv, disconnected := false } }

theorem doInputReturn_passes {s : State} {mv : Nat} (h : mv < 40000 ∨ 63000 < mv ∨ s.power.mated = false) (t : Tick) :
    doInputReturn s mv t = s := if_pos (by simpa [or_assoc] using h)

section
variable {s : State} {mv : Nat} (hlow : 40000 ≤ mv) (hhigh : mv ≤ 63000) (hm : s.power.mated = true) (t : Tick)
include hlow hhigh hm

theorem returns_test : ¬ (decide (mv < 40000) || decide (63000 < mv) || !s.power.mated) = true := by
  simp [Nat.not_lt.2 hlow, Nat.not_lt.2 hhigh, hm]

theorem doInputReturn_rides {d : Tick} (hw : s.power.window = some d) (ht : t < d) : doInputReturn s mv t =
    askQuiet (countTotal { inputBack (stamp s t) mv with
      regs := { s.regs with pfEarly := false }
      power := { (inputBack s mv).power with window := none, idleSince := max s.now t } } 31 1) := by
  refine (if_neg (returns_test hlow hhigh hm)).trans ?_
  rw [hw]
  exact if_pos ht

theorem doInputReturn_late {d : Tick} (hw : s.power.window = some d) (ht : d ≤ t) :
    doInputReturn s mv t = inputBack (stamp (decideLoss (stamp s d)) t) mv := by
  have hdecide : doDecisionTick s = decideLoss (stamp s d) := by rw [doDecisionTick, hw]
  refine (if_neg (returns_test hlow hhigh hm)).trans ?_
  rw [hw, hdecide]
  exact if_neg (Nat.not_lt.2 ht)

theorem doInputReturn_down (hw : s.power.window = none) (hb : s.boot = .off ∨ s.boot = .railsDown) :
    doInputReturn s mv t = { inputBack s mv with now := 0, boot := .inputCheck } := by
  refine (if_neg (returns_test hlow hhigh hm)).trans ?_
  rw [hw]
  exact if_pos (by simpa [or_comm] using hb)

theorem doInputReturn_up (hw : s.power.window = none) (hb : ¬ (s.boot = .off ∨ s.boot = .railsDown)) :
    doInputReturn s mv t = inputBack (stamp s t) mv := by
  refine (if_neg (returns_test hlow hhigh hm)).trans ?_
  rw [hw]
  exact if_neg (by simpa [or_comm] using hb)

end

theorem countTotal_totals (s : State) (j n : Nat) :
    (j < s.totals.length → nth 0 (countTotal s j n).totals j = min 0xFFFFFFFF (nth 0 s.totals j + n)) ∧
    ∀ i, i ≠ j → nth 0 (countTotal s j n).totals i = nth 0 s.totals i := by
  have hread (i : Nat) := nth_modNth 0 s.totals j i (satAdd 0xFFFFFFFF · n)
  exact ⟨fun hj => (hread j).trans (if_pos ⟨rfl, hj⟩), fun i hi => (hread i).trans (if_neg fun h => hi h.1)⟩

/-! ## Presence (R492, R493) -/

section
variable {s : State} (hw : s.power.window = none) (t : Tick)
include hw

theorem doPresenceLost_down (hb : s.boot = .off ∨ s.boot = .railsDown) :
    doPresenceLost s t = { stamp s t with power := { s.power with mated := false } } := by
  unfold doPresenceLost
  rw [hw]
  exact if_pos ((bootDown_iff s.boot).2 hb)

theorem doPresenceLost_bringingUp (hb : bringingUp s = true) : doPresenceLost s t =
    { stamp s t with power := { s.power with mated := false, window := some (max s.now t + ticksUs s 5000) } } := by
  have hboot : ¬ (s.boot = .off ∨ s.boot = .railsDown) := by
    rintro (h | h) <;> rw [bringingUp, h] at hb <;> cases hb
  unfold doPresenceLost
  rw [hw]
  refine (if_neg (mt (bootDown_iff s.boot).1 hboot)).trans ((if_pos hb).trans (if_neg ?_))
  rw [show ({ stamp s t with power := { s.power with mated := false } } : State).power.window = none from hw]
  decide

theorem doPresenceLost_serving (hb : s.boot = .serving) : doPresenceLost s t =
    decideLoss { stamp s t with power := { s.power with mated := false } } := by
  have hnot : ¬ bringingUp s = true := by rw [bringingUp, hb]; decide
  unfold doPresenceLost
  rw [hw]
  exact (if_neg (by rw [show ({ stamp s t with power := { s.power with mated := false } } : State).boot = .serving from hb]; decide)).trans
    (if_neg hnot)

end

end Sys2Proof.Laws
end

section
/-! The input's dips and losses settled (22_power_and_brownouts.md). -/

open Sys2Proof Sys2Proof.Machine

namespace Sys2Proof.Laws

/-- A loss of input decided in service with no shutdown under way: the commit, as InputDipsAndLosses words it. -/
theorem decideLoss_commits {s : State} (hb : s.boot = .serving) (hi : s.power.idle ≠ 4) (hs : s.shutdown = .none) :
    let u := decideLoss s
    u.now = s.now ∧ u.shutdown = .drain s.now 0 false false ∧ u.regs.saving = true ∧ u.regs.eventCause.getLsbD 4 = true ∧
      u.power = { s.power with window := none } ∧
      { u with regs := s.regs, power := s.power, mgmt := s.mgmt, shutdown := s.shutdown } = s := by
  dsimp only
  rw [decideLoss_serving s hb hi hs]
  obtain ⟨hnow, hdrain, hsaving, hcause, hpower, hframe⟩ :=
    commit_spec { s with power := { s.power with window := none } } s.now 0 false false hs
  exact ⟨hnow, hdrain, hsaving, hcause, hpower, (congrArg (fun x : State => { x with power := s.power }) hframe :)⟩

/-- A return inside the window: closed and counted (R445). -/
theorem rides_parts (v : State) : let u := askQuiet (countTotal v 31 1)
    u = { v with totals := u.totals, quiet := u.quiet } ∧ (u.quiet = v.quiet ∨ v.quiet = .none ∧ u.quiet = .wanted) ∧
    (31 < v.totals.length → nth 0 u.totals 31 = min 0xFFFFFFFF (nth 0 v.totals 31 + 1)) ∧
    ∀ i, i ≠ 31 → nth 0 u.totals i = nth 0 v.totals i := by
  intro u
  have hframe := askQuiet_frame (countTotal v 31 1)
  have htotals : u.totals = (countTotal v 31 1).totals := (congrArg State.totals hframe :)
  obtain ⟨hcounted, hothers⟩ := countTotal_totals v 31 1
  refine ⟨?_, askQuiet_asked _, by rwa [htotals], by rwa [htotals]⟩
  rw [htotals]
  exact (congrArg (fun x : State => { x with quiet := u.quiet }) hframe :)

/-- Settles O48: a dip by `dipSeen`, a return by where it finds the tray, and a loss by `decideLoss_commits` in service and
`decideLoss_drop` elsewhere. -/
theorem inputDipsAndLosses : Obligations.InputDipsAndLosses := by
  unfold Obligations.InputDipsAndLosses
  have next {a b : State} (h : a = b) : (Host.Outcome.next a : Host.Outcome State Fault Refusal) = .next b := congrArg _ h
  refine ⟨fun s mv t => ?dips, fun s => ?losses⟩
  case dips =>
    intro p T down back
    refine ⟨fun h => next (if_pos h), fun hlow hhigh => next ((if_neg (Nat.not_lt.2 hlow)).trans (if_pos hhigh)),
      fun h => next ((if_neg (by omega)).trans (if_neg (by omega))), fun hw => ⟨fun hmv hd => next (doPfEarly_passes hw mv t hmv hd),
        fun hdip => ⟨fun hb => next (doPfEarly_down hw mv t hdip hb), fun hb => ?early⟩⟩,
      fun h => next (doInputReturn_passes h t), fun hlow hhigh hm => ⟨fun d hw ht => ?rides, fun d hw ht hb hi hs => ?late,
        fun hw hb => next (doInputReturn_down hlow hhigh hm t hw hb), fun hw hb => next (doInputReturn_up hlow hhigh hm t hw hb)⟩⟩
    case early =>
      have hrun := doPfEarly_up hw mv t hdip hb
      obtain ⟨hearly, hwindow, hmv, hidle, hframe⟩ := dipSeen_parts (stamp s t) mv
      obtain ⟨cause, pend, msi, ev, alert, hraised, hcause⟩ := raiseEvent_eq (dipSeen (stamp s t) mv) (b := evPF_EARLY) (by decide)
      have hnow : (dipSeen (stamp s t) mv).now = T := (congrArg State.now hframe :)
      generalize dipSeen (stamp s t) mv = v at hrun hearly hwindow hmv hidle hframe hraised hnow
      refine ⟨_, next (hrun.trans hraised), hnow, hearly, hcause, hwindow, hmv, hidle, ?_⟩
      exact (congrArg (fun x : State => { x with now := s.now, mgmt := s.mgmt }) hframe :)
    case rides =>
      obtain ⟨hsame, hquiet, hcounted, hothers⟩ := rides_parts { inputBack (stamp s t) mv with
        regs := { s.regs with pfEarly := false }
        power := { (inputBack s mv).power with window := none, idleSince := T } }
      exact ⟨_, next (doInputReturn_rides hlow hhigh hm t hw ht), hsame, hquiet, hcounted, hothers⟩
    case late =>
      have hrun := doInputReturn_late hlow hhigh hm t hw ht
      obtain ⟨-, hdrain, hsaving, hcause, hpower, -⟩ := decideLoss_commits (s := stamp s d) hb hi hs
      generalize decideLoss (stamp s d) = v at hrun hdrain hsaving hcause hpower
      exact ⟨_, next hrun, hdrain, hsaving, hcause, congrArg (fun q : Power => { q with millivolts := mv, disconnected := false }) hpower⟩
  case losses =>
    intro p dropped commits
    refine ⟨fun hw => next (by rw [doDecisionTick, hw]), fun d hw hs hb => ?decided, fun t hw => ?presence, rfl⟩
    case decided =>
      have hrun : doDecisionTick s = decideLoss (stamp s d) := by rw [doDecisionTick, hw]
      refine ⟨fun hserving hi => ?_, fun hdown => ?_⟩
      · obtain ⟨hnow, hdrain, hsaving, hcause, hpower, hframe⟩ := decideLoss_commits (s := stamp s d) hserving hi hs
        exact ⟨_, next hrun, ⟨hnow, hdrain, hsaving, hcause, (congrArg (fun x : State => { x with now := s.now }) hframe :)⟩, hpower⟩
      · exact ⟨_, next (hrun.trans (decideLoss_drop (stamp s d) hb hs hdown)), ⟨rfl, rfl, rfl, rfl, rfl, rfl, rfl, rfl, rfl⟩, rfl⟩
    case presence =>
      intro T
      refine ⟨fun hb => next (doPresenceLost_down hw t hb), fun hb => next (doPresenceLost_bringingUp hw t hb), fun hb hi hs => ?_⟩
      obtain ⟨hnow, hdrain, hsaving, hcause, hpower, hframe⟩ :=
        decideLoss_commits (s := { stamp s t with power := { s.power with mated := false } }) hb hi hs
      refine ⟨_, next (doPresenceLost_serving hw t hb), ⟨hnow, hdrain, hsaving, hcause,
        (congrArg (fun x : State => { x with now := s.now, power := s.power }) hframe :)⟩, hpower.trans ?_⟩
      exact congrArg (fun w => { s.power with mated := false, window := w }) hw.symm

end Sys2Proof.Laws
end

section
/-! The snapshot tick and the completed save slot settled (22_power_and_brownouts.md). -/

open Sys2Proof Sys2Proof.Machine

namespace Sys2Proof.Laws

/-! ## The snapshot tick (R447, R313) -/

theorem drained_iff (s : State) : drained s = true ↔ ∀ c ∈ s.cmds, c.phase = .held ∨ isFailure c.status = true := by
  simp only [drained, List.all_eq_true, Bool.or_eq_true, beq_iff_eq]

/-- What the snapshot leaves once every command has ended. -/
def snapped (s : State) (x : Tick) (kind : Nat) (stay i5 : Bool) : State :=
  beginSlot { s with shutdown := .save x kind stay i5, barrierSt := none, tasks := [], quiet := .none }

section
variable {s : State} {d : Tick} {kind : Nat} {stay i5 : Bool} (hs : s.shutdown = .drain d kind stay i5) (t : Tick)
include hs

theorem doSnapshotTick_waits (hbusy : ∃ c ∈ s.cmds, c.phase ≠ .held ∧ isFailure c.status = false) (ht : t < d + ticksUs s 10000) :
    doSnapshotTick s t = stamp s t := by
  have hnot : drained s = false := by
    rw [← Bool.not_eq_true, drained_iff]
    obtain ⟨c, hc, hphase, hstatus⟩ := hbusy
    intro hall
    rcases hall c hc with h | h
    · exact hphase h
    · rw [hstatus] at h
      cases h
  unfold doSnapshotTick
  rw [hs]
  exact if_pos (by rw [hnot, decide_eq_true ht]; rfl)

theorem doSnapshotTick_ends (hdue : (∀ c ∈ s.cmds, c.phase = .held ∨ isFailure c.status = true) ∨ d + ticksUs s 10000 ≤ t)
    (hnone : ∀ c ∈ s.cmds, pktOp c ≠ 0x7F) :
    let x := max s.now (min t (d + ticksUs s 10000))
    doSnapshotTick s t = snapped (s.cmds.foldl (saveAbort x) (stamp s (min t (d + ticksUs s 10000)))) x kind stay i5 := by
  have hwait : ¬ (!drained s && decide (t < d + ticksUs s 10000)) = true := by
    rw [Bool.and_eq_true, Bool.not_eq_true', decide_eq_true_iff]
    rintro ⟨hd, ht⟩
    rcases hdue with h | h
    · rw [(drained_iff s).2 h] at hd
      cases hd
    · exact absurd ht (Nat.not_lt.2 h)
  have haborts := standingAborts_none (stamp s (min t (d + ticksUs s 10000))) hnone
  unfold doSnapshotTick
  rw [hs]
  refine (if_neg hwait).trans ?_
  dsimp only
  rw [haborts]
  rfl

end

theorem doSnapshotTick_none {s : State} (h : ∀ d kind stay i5, s.shutdown ≠ .drain d kind stay i5) (t : Tick) :
    doSnapshotTick s t = stamp s t := by
  unfold doSnapshotTick
  cases hs : s.shutdown with
  | drain d kind stay i5 => exact absurd hs (h d kind stay i5)
  | none => rfl
  | save x kind stay i5 => rfl

/-- With every command ended none is left. -/
theorem saveAborts_cmds (s : State) (t : Tick) (h : ∀ c ∈ s.cmds, pktOp c ≠ 0x7F ∧ (isFailure c.status = true → c.commits = [])) :
    (s.cmds.foldl (saveAbort t) s).cmds = [] := by
  obtain ⟨-, f, hf, hcmds⟩ := saveAborts_spec s.cmds s t h
  rw [hcmds, List.filter_eq_nil_iff]
  intro d hd hall
  obtain ⟨c, hc, rfl⟩ := List.mem_map.1 hd
  exact bne_iff_ne.1 (List.all_eq_true.1 hall c hc) (bare_id hf c)

/-- The snapshot of a state that the endings have left. -/
theorem snapped_parts {s v : State} (he : ended s v) (x : Tick) (kind : Nat) (stay i5 : Bool) :
    let u := snapped v x kind stay i5
    let a := decide (s.vault.slotA.seq ≤ s.vault.slotB.seq)
    let slot (u : State) (b : Bool) : Slot := if b then u.vault.slotA else u.vault.slotB
    u.now = s.now ∧ u.cmds = v.cmds ∧ u.host = v.host ∧ u.shutdown = .save x kind stay i5 ∧
      u.barrierSt = none ∧ u.tasks = [] ∧ u.quiet = .none ∧ slot u a = { slot s a with state := 1, headerOk := false } ∧
      slot u (!a) = slot s (!a) ∧
      { u with
        cmds := s.cmds, shutdown := s.shutdown, barrierSt := s.barrierSt, tasks := s.tasks, quiet := s.quiet
        vault := { u.vault with slotA := s.vault.slotA, slotB := s.vault.slotB }, done := s.done, recent := s.recent, host := s.host
        rings := s.rings, regs := { u.regs with msi := s.regs.msi, msixPending := s.regs.msixPending }
        power := { u.power with idleSince := s.power.idleSince }, freeCtr := s.freeCtr, homes := s.homes, moving := s.moving } = s := by
  have hvault : v.vault = s.vault := he.keep State.vault fun _ _ _ _ _ _ _ _ _ _ _ _ => rfl
  have hside : saveToA v = decide (s.vault.slotA.seq ≤ s.vault.slotB.seq) := by rw [saveToA, hvault]
  have hnow : v.now = s.now := he.keep State.now fun _ _ _ _ _ _ _ _ _ _ _ _ => rfl
  obtain ⟨hnew, hother, hframe⟩ := setSlot_spec { v with shutdown := .save x kind stay i5, barrierSt := none, tasks := [], quiet := .none }
    (saveToA v) fun x => { x with state := 1, headerOk := false }
  intro u a slot
  have hu : u = setSlot { v with shutdown := .save x kind stay i5, barrierSt := none, tasks := [], quiet := .none }
    (saveToA v) fun x => { x with state := 1, headerOk := false } := rfl
  rw [← hu] at hnew hother hframe
  clear_value u
  have hkept : ({ v with shutdown := .save x kind stay i5, barrierSt := none, tasks := [], quiet := .none } : State).vault = s.vault := hvault
  rw [hkept, hside] at hnew
  rw [hkept, hside] at hother
  refine ⟨(congrArg State.now hframe :).trans hnow, (congrArg State.cmds hframe :), (congrArg State.host hframe :),
    (congrArg State.shutdown hframe :), (congrArg State.barrierSt hframe :), (congrArg State.tasks hframe :),
    (congrArg State.quiet hframe :), hnew, hother, ?_⟩
  have hfirst := (congrArg (fun y : State => { y with
    cmds := s.cmds, shutdown := s.shutdown, barrierSt := s.barrierSt, tasks := s.tasks, quiet := s.quiet
    vault := { y.vault with slotA := s.vault.slotA, slotB := s.vault.slotB }, done := s.done, recent := s.recent, host := s.host
    rings := s.rings, regs := { y.regs with msi := s.regs.msi, msixPending := s.regs.msixPending }
    power := { y.power with idleSince := s.power.idleSince }, freeCtr := s.freeCtr, homes := s.homes, moving := s.moving }) hframe :)
  refine hfirst.trans ?_
  exact (congrArg (fun y : State => { y with
    shutdown := s.shutdown, barrierSt := s.barrierSt, tasks := s.tasks, quiet := s.quiet
    vault := { y.vault with slotA := s.vault.slotA, slotB := s.vault.slotB } }) he.same :)

/-- The record of the one command that was under way (R447). -/
theorem saveAbort_record {s : State} {c : Cmd} (ha : pktOp c ≠ 0x7F) (hst : c.status = 0) (hlate : pktAbortOnLate c = false)
    (hcommits : c.commits = []) (hcq : c.cq < 256) (ht : trainedLinks s ≠ []) (hw : memoriesWf s = true) (x : Tick) :
    hostBytes (saveAbort x s c) (cqBase (ringOf s c.cq) + 32 * (ringOf s c.cq).cqTail) 32 =
      leBytes 4 (pktTag c) ++ leBytes 2 (fnRing s c.fn c.ring) ++ leBytes 2 c.index ++ leBytes 1 0x60 ++
      leBytes 1 (b2n (ringOf s c.cq).phase) ++ leBytes 2 (complFlags c x) ++ leBytes 4 0 ++ leBytes 8 c.accept ++ leBytes 8 x :=
  (saveAbort_spec s c x ha fun _ => hcommits).2.2 hst hlate hcommits hcq ht hw

/-! ## The save (R448, R449, R424) -/

/-- The slot written and the counters with it. -/
def savedState (s : State) (x kind : Nat) : State :=
  let v := writeSlot s x kind
  { v with vault := { v.vault with counters := counterSet v } }

/-- What the save writes: one slot, and the counters. -/
theorem savedState_parts (s : State) (x kind : Nat) :
    let a := decide (s.vault.slotA.seq ≤ s.vault.slotB.seq)
    let slot (v : Vault) (b : Bool) : Slot := if b then v.slotA else v.slotB
    ∃ vault, savedState s x kind = { s with vault := vault } ∧ slot vault (!a) = slot s.vault (!a) ∧
      slot vault a = slotContents s (slot s.vault (!a)) x kind ∧ vault.counters.total = s.totals ∧ vault.torn = s.vault.torn ∧
      { vault with slotA := s.vault.slotA, slotB := s.vault.slotB, counters := s.vault.counters } = s.vault := by
  intro a slot
  have hside : saveToA s = a := rfl
  unfold savedState writeSlot
  rw [hside]
  dsimp only
  cases a <;> exact ⟨_, rfl, rfl, rfl, rfl, rfl, rfl⟩

section
variable {s : State} {x kind : Nat} {stay i5 : Bool} (hs : s.shutdown = .save x kind stay i5) (hd : s.deputy = none) (t : Tick)
include hs hd

theorem doSaveComplete_saves : doSaveComplete s t =
    let v := savedState (stamp s t) x kind
    if stay then { v with
      shutdown := .none, boot := .faultShutdown, regs := { v.regs with ready := false }, mgmt := { v.mgmt with resetBusy := false } }
    else if i5 then { dropRails v .i5 with mgmt := { (dropRails v .i5).mgmt with resetBusy := false } }
    else dropRails v (downBoot v) := by
  unfold doSaveComplete
  dsimp only
  rw [show (stamp s t).shutdown = _ from hs, doTmcResume_running (s := stamp s t) hd]
  rfl

end

theorem doSaveComplete_none {s : State} (h : ∀ x kind stay i5, s.shutdown ≠ .save x kind stay i5) (t : Tick) :
    doSaveComplete s t = stamp s t := by
  unfold doSaveComplete
  dsimp only
  cases hs : s.shutdown with
  | save x kind stay i5 => exact absurd hs (h x kind stay i5)
  | none => rw [show (stamp s t).shutdown = .none from hs]
  | drain d kind stay i5 => rw [show (stamp s t).shutdown = .drain d kind stay i5 from hs]

/-- Settles O49: the snapshot by what ends its commands (`saveAborts_spec`, `snapped_parts`), the save by `writeSlot_eq`. -/
theorem savesSnapshotAndComplete : Obligations.SavesSnapshotAndComplete := by
  unfold Obligations.SavesSnapshotAndComplete
  have next {a b : State} (h : a = b) : (Host.Outcome.next a : Host.Outcome State Fault Refusal) = .next b := congrArg _ h
  intro s t T a slot
  refine ⟨fun d kind stay i5 hs => ?snapshot, fun h => next (doSnapshotTick_none h t), fun x kind stay i5 hs hd => ?save,
    fun h => next (doSaveComplete_none h t)⟩
  case snapshot =>
    intro last x
    refine ⟨fun hbusy ht => next (doSnapshotTick_waits hs t hbusy ht), fun hdue hall => ?_⟩
    have hrun := doSnapshotTick_ends hs t hdue fun c hc => (hall c hc).1
    have hended := (saveAborts_spec s.cmds (stamp s (min t last)) x hall).1
    have hcmds := saveAborts_cmds (stamp s (min t last)) x hall
    have hrecord : ∀ c, s.cmds = [c] → c.status = 0 → pktAbortOnLate c = false → c.commits = [] → c.cq < 256 → trainedLinks s ≠ [] →
        memoriesWf s = true → hostBytes (s.cmds.foldl (saveAbort x) (stamp s (min t last)))
          (cqBase (ringOf s c.cq) + 32 * (ringOf s c.cq).cqTail) 32 =
        leBytes 4 (pktTag c) ++ leBytes 2 (fnRing s c.fn c.ring) ++ leBytes 2 c.index ++ leBytes 1 0x60 ++
        leBytes 1 (b2n (ringOf s c.cq).phase) ++ leBytes 2 (complFlags c x) ++ leBytes 4 0 ++ leBytes 8 c.accept ++ leBytes 8 x := by
      intro c hone hst hlate hcommits hcq ht hw
      have hc := (hall c (hone ▸ List.mem_singleton_self c)).1
      rw [hone]
      exact saveAbort_record (s := stamp s (min t last)) hc hst hlate hcommits hcq ht hw x
    generalize hv : s.cmds.foldl (saveAbort x) (stamp s (min t last)) = v at hrecord
    replace hrun : doSnapshotTick s t = snapped v x kind stay i5 := hrun.trans (by rw [← hv])
    replace hended : ended (stamp s (min t last)) v := hv ▸ hended
    replace hcmds : v.cmds = [] := (congrArg State.cmds hv).symm.trans hcmds
    obtain ⟨hnow, hleft, hhost, hshutdown, hbarrier, htasks, hquiet, hnew, hother, hframe⟩ := snapped_parts hended x kind stay i5
    generalize snapped v x kind stay i5 = u at hrun hnow hleft hhost hshutdown hbarrier htasks hquiet hnew hother hframe
    refine ⟨u, next hrun, hnow, hleft.trans hcmds, hshutdown, hbarrier, htasks, hquiet, hnew, hother,
      (congrArg (fun y : State => { y with now := s.now }) hframe :), fun c hone hst hlate hcommits hcq ht hw => ?_⟩
    rw [hostBytes, hhost]
    exact hrecord c hone hst hlate hcommits hcq ht hw
  case save =>
    have hrun := doSaveComplete_saves hs hd t
    obtain ⟨vault, hsaved, hother, hnew, htotal, htorn, hvault⟩ := savedState_parts (stamp s t) x kind
    rw [hsaved] at hrun
    cases stay with
    | true =>
      refine ⟨_, next (hrun.trans (if_pos rfl)), rfl, rfl, hother, hnew, htotal, ?_, fun _ => htorn, rfl,
        fun _ => ⟨rfl, rfl, rfl⟩, nofun⟩
      exact (congrArg (fun v : Vault => { v with torn := s.vault.torn }) hvault :)
    | false =>
      have hdrop := hrun.trans (if_neg Bool.false_ne_true)
      cases i5 with
      | true =>
        refine ⟨_, next (hdrop.trans (if_pos rfl)), rfl, rfl, hother, hnew, htotal, ?_, fun hnone => ?_, rfl, nofun,
          fun _ => ⟨rfl, rfl, rfl, rfl, rfl, rfl⟩⟩
        · exact (congrArg (fun v : Vault => { v with torn := s.vault.torn }) hvault :)
        · exact (congrArg (vault.torn ++ ·) hnone).trans ((List.append_nil _).trans htorn)
      | false =>
        refine ⟨_, next (hdrop.trans (if_neg Bool.false_ne_true)), rfl, rfl, hother, hnew, htotal, ?_, fun hnone => ?_, rfl, nofun,
          fun _ => ⟨rfl, rfl, rfl, rfl, rfl, rfl⟩⟩
        · exact (congrArg (fun v : Vault => { v with torn := s.vault.torn }) hvault :)
        · exact (congrArg (vault.torn ++ ·) hnone).trans ((List.append_nil _).trans htorn)

end Sys2Proof.Laws
end

section
/-! SUPPORT. Steps 6 and 7 of a bring-up: the counters aligned, the configuration applied, the resume and the cold start. -/

open Sys2Proof Sys2Proof.Machine

namespace Sys2Proof.Laws

/-! ## Step 6 (R356, R357) -/

theorem chipOf_chipsMap (s : State) (f : Chip → Chip) {c : Nat} (hc : c < s.chips.length) :
    chipOf { s with chips := s.chips.map f } c = f (chipOf s c) :=
  nth_map f hc

theorem doTrayCounterAlignment_runs {s : State} (hboot : s.boot = .alignment) (hwindow : s.power.window = none) (outside : List Nat) :
    let u := doTrayCounterAlignment s outside
    { u with chips := s.chips } =
      { s with boot := .apply, now := 0, tmc := (0, 0), ledgerWrite := none, power := { s.power with idleSince := 0 } } ∧
    ∀ c, c < s.chips.length → chipOf u c =
      { chipOf s c with active := (chipOf s c).active && !outside.contains c, offset := 0, offsetAt := 0 } := by
  have hrun := onStep_runs hboot hwindow fun s =>
    let s := outside.foldl (fun s c => setChip s c fun x => { x with active := false }) s
    { s with
      boot := .apply, now := 0, tmc := (0, 0), ledgerWrite := none
      chips := s.chips.map fun x => { x with offset := 0, offsetAt := 0 }
      power := { s.power with idleSince := 0 } }
  obtain ⟨hframe, hlength, hchips⟩ := align_spec outside s
  intro u
  have hu : u = _ := hrun
  generalize outside.foldl (fun s c => setChip s c fun x => { x with active := false }) s = v at hu hframe hlength hchips
  rw [hu]
  refine ⟨(congrArg (fun x : State => { x with
    boot := .apply, now := 0, tmc := (0, 0), ledgerWrite := none, power := { x.power with idleSince := 0 } }) hframe :), fun c hc => ?_⟩
  refine (chipOf_chipsMap v (fun x => { x with offset := 0, offsetAt := 0 }) (hlength.symm ▸ hc)).trans ?_
  rw [hchips c hc, List.contains_eq_mem]
  by_cases hout : c ∈ outside
  · rw [if_pos hout, decide_eq_true hout, Bool.not_true, Bool.and_false]
  · rw [if_neg hout, decide_eq_false hout, Bool.not_false, Bool.and_true]

/-! ## Step 7: what the configuration and the vault give (R398) -/

/-- The tray with its configuration in force and the vault's functions installed, before the resume or the cold start. -/
def configured (s : State) : State := homingNow ((applyCfg s).vault.functions.foldl reinstall (applyCfg s)) []

theorem doConfigurationApply_runs {s : State} (hboot : s.boot = .apply) (hwindow : s.power.window = none) :
    doConfigurationApply s = { resumeOrCold (configured s) with boot := .readyStep } := onStep_runs hboot hwindow _

theorem configured_frame (s : State) :
    { configured s with
      functions := s.functions, regs := s.regs, mgmt := s.mgmt, power := s.power, masks := s.masks, modelGen := s.modelGen
      vault := s.vault, homing := s.homing, homes := s.homes, moving := s.moving, audited := s.audited } = s ∧
    (configured s).vault = { s.vault with maskGen := [] } ∧ (configured s).power = { s.power with cap := cfgField s 0x14 2 } ∧
    (configured s).masks = s.vault.masks ∧ (configured s).modelGen = [] ∧
    (configured s).regs.modeCtrl = BitVec.ofNat 32 (cfgField s 0x10 4) ∧
    (configured s).regs.wakeTolerance = BitVec.ofNat 32 (cfgField s 0x1C 4) := by
  obtain ⟨hframe, hregs⟩ := reinstalls_frame (applyCfg s).vault.functions (applyCfg s)
  unfold configured homingNow
  generalize (applyCfg s).vault.functions.foldl reinstall (applyCfg s) = v at hframe hregs
  refine ⟨?_, (congrArg State.vault hframe :), (congrArg State.power hframe :), (congrArg State.masks hframe :),
    (congrArg State.modelGen hframe :), (congrArg Regs.modeCtrl hregs :), (congrArg Regs.wakeTolerance hregs :)⟩
  exact (congrArg (fun x : State => { x with
      functions := s.functions, regs := s.regs, mgmt := s.mgmt, power := s.power, masks := s.masks, modelGen := s.modelGen
      vault := s.vault, homing := s.homing, homes := s.homes, moving := s.moving, audited := s.audited }) hframe :)

/-- One vaulted function image: installed where it is sound (R398). -/
theorem configured_functions {s : State} {p : Nat × List Byte} (hvault : s.vault.functions = [p]) (hnone : s.functions = []) :
    (configured s).functions = if imageCheck p.2 = fieldAt p.2 0x10 4 then [p] else [] := by
  have hone : (configured s).functions = (reinstall (applyCfg s) p).functions := by
    rw [configured, show (applyCfg s).vault.functions = [p] from hvault]
    rfl
  rw [hone]
  unfold reinstall
  rw [show (applyCfg s).functions = [] from hnone]
  split
  · rfl
  · exact hnone

/-! ## Step 7: the resume (R251, R196, R273, R453) -/

/-- What a resume restores, and what it leaves. -/
theorem resumeFrom_parts {s : State} (hd : s.deputy = none) (x : Slot) : let u := resumeFrom s x
    { u with streams := s.streams, vault := s.vault, chips := s.chips, models := s.models } = s ∧
    { u.vault with faultLog := s.vault.faultLog, models := s.vault.models } = s.vault ∧
    (∀ j, (∀ p ∈ x.contexts, p.1 ≠ j) → streamOf u j = streamOf s j) ∧
    (∀ p ∈ x.contexts, (x.contexts.Pairwise fun p q => p.1 ≠ q.1) → streamOf u p.1 =
      if crc32c (p.2.take 508) = fieldAt p.2 508 4 then
        { parseCtx p.2 (mapGet [] s.vault.bias p.1) [] with histValid := false, hist := [], histHead := 0 } else streamOf s p.1) ∧
    (∀ p, x.contexts = [p] → crc32c (p.2.take 508) ≠ fieldAt p.2 508 4 →
      u.vault.faultLog.head? = some ⟨s.now, 0x40, 0, 0, p.1⟩) ∧
    (∀ c, c < 8 → c < s.chips.length → (chipOf s c).active = true → bit x.chips c = true → c < x.lanes.length →
      (chipOf u c).lanes = nth [] x.lanes c) ∧
    u.models = s.vault.models.map fun p => (p.1, suspendedModel p.2) := by
  obtain ⟨hctx, hctxVault, hother, hrestored⟩ := resumeContexts_spec x.contexts s hd
  have hlog : ∀ p, x.contexts = [p] → crc32c (p.2.take 508) ≠ fieldAt p.2 508 4 →
      (x.contexts.foldl resumeContext s).vault.faultLog.head? = some ⟨s.now, 0x40, 0, 0, p.1⟩ := fun p hp hc => by
    rw [hp]
    exact (resumeContext_frame s p hd).2.2.2 hc
  unfold resumeFrom
  generalize x.contexts.foldl resumeContext s = v at hctx hctxVault hother hrestored hlog
  have hchips : v.chips = s.chips := (congrArg State.chips hctx :)
  obtain ⟨hlanes, -, -, hset⟩ := resumeLanes_spec x (List.range 8) v List.nodup_range
  generalize (List.range 8).foldl (resumeLanes x) v = w at hlanes hset
  have hvault : w.vault = v.vault := (congrArg State.vault hlanes :)
  have hstreams (j : Nat) : streamOf w j = streamOf v j := (congrArg (streamOf · j) hlanes :)
  have hmodels : w.vault.models = s.vault.models := (congrArg Vault.models hvault).trans (congrArg Vault.models hctxVault :)
  unfold suspendVaulted
  refine ⟨?_, ?_, fun j hj => (hstreams j).trans (hother j hj), fun p hp hpair => (hstreams p.1).trans (hrestored p hp hpair),
    fun p hp hc => (congrArg (fun y : Vault => y.faultLog.head?) hvault).trans (hlog p hp hc), fun c hc hlen ha hbit hl => ?_, ?_⟩
  · have hlast := (congrArg (fun y : State => { y with streams := s.streams, vault := s.vault, chips := s.chips, models := s.models }) hlanes :)
    have hfirst := (congrArg (fun y : State => { y with chips := s.chips, models := s.models }) hctx :)
    exact hlast.trans hfirst
  · have hlast := (congrArg (fun y : Vault => { y with faultLog := s.vault.faultLog, models := s.vault.models }) hvault :)
    have hfirst := (congrArg (fun y : Vault => { y with models := s.vault.models }) hctxVault :)
    exact hlast.trans hfirst
  · rw [← hchips] at hlen
    exact hset c (List.mem_range.2 hc) hlen ((congrArg Chip.active (chipOf_congr hchips c)).trans ha) hbit hl
  · exact congrArg (fun l => l.map fun p => (p.1, suspendedModel p.2)) hmodels

/-! ## Step 7: the cold start (R450, R453) -/

/-- Does a save slot stand unfinished? -/
def slotLost (x : Slot) : Bool := x.state == 1 || (x.state == 2 && !x.headerOk)

theorem coldStart_eq (s : State) :
    coldStart s = if slotLost s.vault.slotA || slotLost s.vault.slotB then
      logOther (mgmtEvent { s with vault := { s.vault with models := [] } } 0x07 0 0) else { s with vault := { s.vault with models := [] } } := rfl

theorem coldStart_parts (s : State) : let u := coldStart s
    { u with vault := s.vault, regs := s.regs, mgmt := s.mgmt, deferredLog := s.deferredLog, freeCtr := s.freeCtr } = s ∧
    { u.vault with faultLog := s.vault.faultLog } = { s.vault with models := [] } ∧ { u.regs with events := s.regs.events } = s.regs ∧
    (s.vault.slotA.state = 1 → (0x07, 0, 0, s.now) ∈ u.regs.events) := by
  rw [coldStart_eq]
  split
  · obtain ⟨hframe, hvault⟩ := logOther_spec (mgmtEvent { s with vault := { s.vault with models := [] } } 0x07 0 0)
    generalize logOther (mgmtEvent { s with vault := { s.vault with models := [] } } 0x07 0 0) = u at hframe hvault
    have hregs : u.regs = { s.regs with events := (0x07, 0, 0, s.now) :: s.regs.events } := (congrArg State.regs hframe :)
    exact ⟨(congrArg (fun x : State => { x with vault := s.vault, regs := s.regs, mgmt := s.mgmt }) hframe :), hvault,
      congrArg (fun x : Regs => { x with events := s.regs.events }) hregs,
      fun _ => (congrArg Regs.events hregs) ▸ List.mem_cons_self⟩
  · rename_i hsound
    refine ⟨rfl, rfl, rfl, fun hlost => absurd ?_ hsound⟩
    rw [slotLost, hlost]
    rfl

/-! ## Step 7 as a whole -/

/-- The slot that a resume takes. -/
def resumedSlot (s : State) (a : Bool) : Slot := if a then s.vault.slotA else s.vault.slotB

theorem resumeOrCold_resumes {s : State} {a : Bool} (h : resumeSlot s = some a) : resumeOrCold s = resumeFrom s (resumedSlot s a) := by
  unfold resumeOrCold
  rw [h]
  cases a <;> rfl

theorem resumeOrCold_cold {s : State} (h : resumeSlot s = none) : resumeOrCold s = coldStart s := by
  unfold resumeOrCold
  rw [h]

/-- What neither the resume nor the cold start touches. -/
theorem resumeOrCold_frame {s : State} (hd : s.deputy = none) : let u := resumeOrCold s
    { u with
      streams := s.streams, vault := s.vault, chips := s.chips, models := s.models, regs := s.regs, mgmt := s.mgmt
      deferredLog := s.deferredLog, freeCtr := s.freeCtr } = s ∧
    { u.regs with events := s.regs.events } = s.regs ∧ u.vault.maskGen = s.vault.maskGen := by
  cases h : resumeSlot s with
  | some a =>
    rw [resumeOrCold_resumes h]
    obtain ⟨hframe, hvault, -⟩ := resumeFrom_parts hd (resumedSlot s a)
    generalize resumeFrom s (resumedSlot s a) = u at hframe hvault
    refine ⟨(congrArg (fun x : State => { x with
      regs := s.regs, mgmt := s.mgmt, deferredLog := s.deferredLog, freeCtr := s.freeCtr }) hframe :), ?_, (congrArg Vault.maskGen hvault :)⟩
    exact (congrArg (fun x : State => { x.regs with events := s.regs.events }) hframe :)
  | none =>
    rw [resumeOrCold_cold h]
    obtain ⟨hframe, hvault, hregs, -⟩ := coldStart_parts s
    generalize coldStart s = u at hframe hvault hregs
    exact ⟨(congrArg (fun x : State => { x with streams := s.streams, chips := s.chips, models := s.models }) hframe :), hregs,
      (congrArg Vault.maskGen hvault :)⟩

end Sys2Proof.Laws
end

section
/-! Steps 6 and 7 of a bring-up settled (23_bring_up.md). -/

open Sys2Proof Sys2Proof.Machine

namespace Sys2Proof.Laws

/-- Settles O53: step 6 by `align_spec`; step 7 by `configured_frame` and then `resumeFrom_parts` or `coldStart_parts`. -/
theorem alignmentAndApply : Obligations.AlignmentAndApply := by
  unfold Obligations.AlignmentAndApply
  have next {a b : State} (h : a = b) : (Host.Outcome.next a : Host.Outcome State Fault Refusal) = .next b := congrArg _ h
  refine fun s => ⟨fun outside => ⟨fun h => next (onStep_passes h _), fun hboot hwindow => ?align⟩,
    fun h => next (onStep_passes h _), fun hboot hwindow hd => ?apply⟩
  case align =>
    obtain ⟨hframe, hchips⟩ := doTrayCounterAlignment_runs hboot hwindow outside
    exact ⟨_, rfl, hframe, hchips⟩
  case apply =>
    have hrun := doConfigurationApply_runs hboot hwindow
    obtain ⟨hconf, hvault, hpower, hmasks, hgen, hmode, hwake⟩ := configured_frame s
    have hfunctions := fun p => configured_functions (s := s) (p := p)
    generalize configured s = v at hrun hconf hvault hpower hmasks hgen hmode hwake hfunctions
    have hdeputy : v.deputy = none := (congrArg State.deputy hconf :).trans hd
    have hnow : v.now = s.now := (congrArg State.now hconf :)
    have hchips : v.chips = s.chips := (congrArg State.chips hconf :)
    have hslot : resumeSlot v = resumeSlot s := (congrArg (fun x : Vault => resumeSlot { v with vault := x }) hvault :)
    have hstreams (j : Nat) : streamOf v j = streamOf s j := (congrArg (streamOf · j) hconf :)
    obtain ⟨hkept, hregs, hmaskGen⟩ := resumeOrCold_frame hdeputy
    refine ⟨_, next hrun, rfl, (congrArg Regs.modeCtrl hregs :).trans hmode, (congrArg Regs.wakeTolerance hregs :).trans hwake,
      (congrArg State.power hkept :).trans hpower, (congrArg State.masks hkept :).trans hmasks, (congrArg State.modelGen hkept :).trans hgen,
      hmaskGen.trans (congrArg Vault.maskGen hvault :),
      fun p hp hnone => (congrArg State.functions hkept :).trans (hfunctions p hp hnone), fun hnone => ?cold, fun a ha => ?resume⟩
    case cold =>
      obtain ⟨hframe, hcold, -, hlost⟩ := coldStart_parts v
      rw [resumeOrCold_cold (hslot.trans hnone)]
      generalize coldStart v = u at hframe hcold hlost
      refine ⟨(congrArg State.models hframe :).trans (congrArg State.models hconf :),
        (congrArg State.streams hframe :).trans (congrArg State.streams hconf :), (congrArg Vault.models hcold :), fun hst => ?_⟩
      exact hnow ▸ hlost ((congrArg (fun x : Vault => x.slotA.state) hvault :).trans hst)
    case resume =>
      intro x
      have hx : resumedSlot v a = x := by rw [resumedSlot, hvault]
      obtain ⟨-, -, hother, hrestored, hlog, hlanes, hmodels⟩ := resumeFrom_parts hdeputy (resumedSlot v a)
      rw [hx] at hother hrestored hlog hlanes hmodels
      rw [resumeOrCold_resumes (hslot.trans ha), hx]
      generalize resumeFrom v x = u at hother hrestored hlog hlanes hmodels
      have hvaulted : v.vault.models = s.vault.models := (congrArg Vault.models hvault :)
      have hbias : v.vault.bias = s.vault.bias := (congrArg Vault.bias hvault :)
      rw [hvaulted] at hmodels
      rw [hbias] at hrestored
      rw [hnow] at hlog
      refine ⟨fun p hp hpair => ⟨fun hc => (hrestored p hp hpair).trans (if_pos hc), fun hc =>
          ⟨((hrestored p hp hpair).trans (if_neg hc)).trans (hstreams p.1), fun hone => hlog p hone hc⟩⟩,
        fun j hj => (hother j hj).trans (hstreams j),
        fun c hc hlen hactive => hlanes c hc (hchips ▸ hlen) ((congrArg Chip.active (chipOf_congr hchips c)).trans hactive), ?_, fun p hp => ?_⟩
      · exact (congrArg (List.map fun p => p.1) hmodels).trans List.map_map
      · obtain ⟨q, hq, rfl⟩ := List.mem_map.1 (hmodels ▸ hp)
        exact ⟨rfl, q, hq, rfl, rfl, rfl⟩

end Sys2Proof.Laws
end

section
/-! Host links and bridges settled (25_host_links.md). -/

open Sys2Proof Sys2Proof.Machine

namespace Sys2Proof.Laws

/-! ## Training (R39, R494, R495) -/

theorem portLost_iff (s : State) (p : Nat) :
    portLost s p = true ↔ s.regs.ready = true ∧ ∀ i < 4, (chipOf s (4 * p + i)).active = false := by
  simp only [portLost, Bool.and_eq_true, List.all_eq_true, List.mem_range, Bool.not_eq_true']

/-- Which widths a port has: x4, x8, and x16 unless its bridge's latch splits it (R495). -/
theorem widths_iff (width : Nat) (split : Bool) :
    [4, 8, 16].contains width = true ∧ width ≤ (if split then 8 else 16) ↔ width = 4 ∨ width = 8 ∨ width = 16 ∧ split = false := by
  rw [List.contains_iff_mem, List.mem_cons, List.mem_cons, List.mem_singleton]
  cases split <;> simp <;> omega

theorem linkBridge_half {l : Nat} (hl : l < 4) : linkBridge l = l / 2 := by
  unfold linkBridge
  split <;> omega

theorem linkCan_iff (s : State) (l width speed : Nat) : linkCan s l width speed = true ↔
    let latch := (nth ⟨false, 0, [], []⟩ s.bridges (l / 2)).latch
    l < 4 ∧ (nth ⟨false, 0, [], []⟩ s.bridges (l / 2)).failed = false ∧ (bit latch (l / 2) = true ∨ l % 2 = 0) ∧
      (width = 4 ∨ width = 8 ∨ (width = 16 ∧ bit latch (l / 2) = false)) ∧
      (speed = 32 ∨ (speed = 64 ∧ bit latch (2 + l / 2) = false)) ∧ s.boot ≠ .off ∧ s.boot ≠ .railsDown ∧
      ¬ (s.regs.ready = true ∧ ∀ i < 4, (chipOf s (4 * (l / 2) + i)).active = false) := by
  by_cases hl : l < 4
  · unfold linkCan
    dsimp only
    rw [linkBridge_half hl, ← portLost_iff, ← widths_iff]
    simp only [Bool.and_eq_true, Bool.or_eq_true, Bool.not_eq_true', beq_iff_eq, decide_eq_true_eq, List.contains_eq_mem,
      decide_eq_false_iff_not, List.mem_cons, List.not_mem_nil, or_false, not_or, Bool.not_eq_true]
    tauto
  · refine iff_of_false (fun h => hl ?_) fun h => hl h.1
    simp only [linkCan, Bool.and_eq_true, decide_eq_true_eq] at h
    tauto

/-- Writes made in order through a host memory. -/
def storeAll (m : List (Nat × Byte)) (ws : List (Nat × List Byte)) : List (Nat × Byte) := ws.foldl (fun m w => memStore m w.1 w.2) m

theorem trainedLinks_ne {s : State} {l : Nat} (hl : l < 4) (h : linkUp s l = true) : trainedLinks s ≠ [] :=
  List.ne_nil_of_mem (List.mem_filter.2 ⟨List.mem_range.2 hl, h⟩)

/-- What waited goes out in order, outputs before records, once a link is trained (R311). -/
theorem flushWaiting_trained {s : State} (h : trainedLinks s ≠ []) : flushWaiting s = { s with
    host := storeAll s.host (s.unsent ++ s.unrecorded.map fun p => p.2), unsent := [], unrecorded := []
    rings := s.rings.map fun p => (p.1, { p.2 with stalled := false }) } := by
  have houts := foldWrites_trained (fun p : Nat × List Byte => p) s.unsent { s with unsent := [], unrecorded := [] } h
  have hrecords := foldWrites_trained (fun p : Nat × Nat × List Byte => p.2) s.unrecorded
    { s with unsent := [], unrecorded := [], host := storeAll s.host s.unsent } h
  rw [List.map_id'] at houts
  have hall := (congrArg (fun v => s.unrecorded.foldl (fun s p => hostWrite s p.2.1 p.2.2) v) houts).trans hrecords
  rw [storeAll, List.foldl_append]
  exact congrArg (fun v : State => { v with rings := v.rings.map fun p : Nat × Ring => (p.1, { p.2 with stalled := false }) }) hall

/-- A link that trains (R311, R495). -/
theorem doHostLinkTrained_trains {s : State} {l width speed : Nat} (hcan : linkCan s l width speed = true) (hl4 : l < 4)
    (hl : l < s.links.length) : doHostLinkTrained s l width speed = { s with
      links := modNth s.links l fun x => { x with trained := true, width := width, speed := speed }
      host := storeAll s.host (s.unsent ++ s.unrecorded.map fun p => p.2), unsent := [], unrecorded := []
      rings := s.rings.map fun p => (p.1, { p.2 with stalled := false }) } := by
  have hup := (linkUp_mod s l l (fun x => { x with trained := true, width := width, speed := speed }) hl).trans (if_pos rfl)
  refine (if_neg (by rw [hcan]; decide)).trans ?_
  exact flushWaiting_trained (trainedLinks_ne hl4 hup)

/-- The last of a list of writes is read back. -/
theorem storeAll_last {m : List (Nat × Byte)} (hw : Memory.wf m = true) (ws : List (Nat × List Byte)) (a : Nat) (bs : List Byte) :
    memBytes (storeAll m (ws ++ [(a, bs)])) a bs.length = bs := by
  rw [storeAll, List.foldl_append]
  exact memBytes_store (foldl_memStore_wf ws m hw) a bs

/-! ## A failed bridge (R503) -/

/-- The outputs that are written again. -/
def lateOutputs (s : State) : List (Nat × List Byte) :=
  (s.recent.filter fun p => decide (p.1 < s.now ∧ s.now ≤ p.1 + ticksUs s 200)).flatMap fun p => p.2

theorem rewriteRecent_trained {s : State} (h : trainedLinks s ≠ []) :
    rewriteRecent s = { s with host := storeAll s.host (lateOutputs s) } :=
  foldGroups_trained (fun p : Tick × List (Nat × List Byte) => p.2) _ s h

/-- The records of a ring that are written again. -/
def lateRecords (s : State) (p : Nat × Ring) : List (Nat × List Byte) :=
  (p.2.records.filter fun r => decide (r.2.1 < s.now ∧ s.now ≤ r.2.1 + ticksUs s 200)).map fun r => (cqBase p.2 + 32 * r.1, r.2.2)

theorem rewriteRecords_eq (s : State) (p : Nat × Ring) :
    rewriteRecords s p = (lateRecords s p).foldl (fun s o => hostWrite s o.1 o.2) s := by
  rw [lateRecords, List.foldl_map]
  rfl

theorem rewriteAll_trained {s : State} (h : trainedLinks s ≠ []) (l : List (Nat × Ring)) :
    l.foldl rewriteRecords s = { s with host := storeAll s.host (l.flatMap (lateRecords s)) } := by
  induction l generalizing s with
  | nil => rfl
  | cons p l ih =>
    rw [List.foldl_cons, rewriteRecords_eq, foldWrites_trained (fun o => o) _ s h, List.map_id', ih (by exact h), List.flatMap_cons,
      storeAll, storeAll, List.foldl_append]
    rfl

/-- A bridge with its two links gone leaves every link of the other as it is. -/
theorem linkUp_failBridge (s : State) (b : Nat) {l : Nat} (hl : l < s.links.length) :
    linkUp (failBridge s b) l = (decide (l / 2 ≠ b) && linkUp s l) := by
  unfold linkUp failBridge
  dsimp only
  rw [nth_modNth, nth_modNth, modNth_length]
  by_cases hodd : l = 2 * b + 1
  · rw [if_pos ⟨hodd, hodd ▸ hl⟩, decide_eq_false (by omega)]
    rfl
  · rw [if_neg fun h => hodd h.1]
    by_cases heven : l = 2 * b
    · rw [if_pos ⟨heven, heven ▸ hl⟩, decide_eq_false (by omega)]
      rfl
    · rw [if_neg fun h => heven h.1, decide_eq_true (by omega), Bool.true_and]

theorem doHostBridgeFailed_passes {s : State} {b : Nat} (h : (nth ⟨true, 0, [], []⟩ s.bridges b).failed = true ∨ 2 ≤ b) (t : Tick) :
    doHostBridgeFailed s b t = stamp s t :=
  if_pos (by simpa using h)

/-- A bridge that fails while the other serves. -/
theorem doHostBridgeFailed_fails {s : State} {b : Nat} (hb : (nth ⟨true, 0, [], []⟩ s.bridges b).failed = false) (hb2 : b < 2) (t : Tick)
    (ht : trainedLinks (failBridge (stamp s t) b) ≠ []) : doHostBridgeFailed s b t =
      let v := failBridge (stamp s t) b
      { v with host := storeAll s.host (lateOutputs v ++ s.rings.flatMap (lateRecords v)) } := by
  refine (if_neg (by simp [hb, hb2])).trans ?_
  dsimp only
  rw [rewriteRecent_trained ht, rewriteAll_trained (by exact ht), storeAll, storeAll, storeAll, List.foldl_append]
  rfl

/-- Settles O54: training by `linkCan_iff` and `flushWaiting_trained`, a failed bridge by what `doHostBridgeFailed_fails` writes again. -/
theorem hostLinksTrainAndFail : Obligations.HostLinksTrainAndFail := by
  unfold Obligations.HostLinksTrainAndFail
  have next {a b : State} (h : a = b) : (Host.Outcome.next a : Host.Outcome State Fault Refusal) = .next b := congrArg _ h
  intro s stored
  refine ⟨fun l width speed => ?trains, fun l hl => ?down, fun b t => ?bridge⟩
  case down =>
    refine ⟨_, rfl, rfl, ?_, fun k hk => modNth_other _ _ _ _ hk⟩
    exact (linkUp_mod s l l (fun _ => HostLink.down) hl).trans (if_pos rfl)
  case trains =>
    intro port latch can
    have hcan : linkCan s l width speed = true ↔ can := linkCan_iff s l width speed
    refine ⟨fun h => next (if_pos ?_), fun h hl => next (doHostLinkTrained_trains (hcan.2 h) h.1 hl), fun h hl hw r a bs hrec =>
      ⟨_, next (doHostLinkTrained_trains (hcan.2 h) h.1 hl), ?_⟩⟩
    · rw [Bool.not_eq_true', ← Bool.not_eq_true]
      exact mt hcan.1 h
    · simp only [memoriesWf, Bool.and_eq_true] at hw
      obtain ⟨⟨hhost, -⟩, -⟩ := hw
      rw [hrec]
      exact storeAll_last hhost s.unsent a bs
  case bridge =>
    intro T bridge late
    refine ⟨fun h => next (doHostBridgeFailed_passes h t), fun hb hb2 ⟨l, hup, hl4, hne⟩ => ?_⟩
    have hlen : l < s.links.length := by
      by_contra hout
      rw [linkUp, nth, List.getD_eq_default _ _ (Nat.not_lt.1 hout)] at hup
      cases hup
    have htrained := trainedLinks_ne hl4 ((linkUp_failBridge (stamp s t) b hlen).trans (by
      rw [decide_eq_true hne]
      exact hup))
    refine ⟨_, next (doHostBridgeFailed_fails hb hb2 t htrained), rfl, ?_, fun k hk => modNth_other _ _ _ _ hk,
      fun l _ hl => linkUp_failBridge (stamp s t) b hl, rfl⟩
    refine (congrArg Bridge.failed (nth_modNth _ s.bridges b b _)).trans ?_
    split
    · rfl
    · rename_i hout
      exact congrArg Bridge.failed (List.getD_eq_default _ _ (Nat.not_lt.1 fun hlt => hout ⟨rfl, hlt⟩))

end Sys2Proof.Laws
end

section
/-! SUPPORT. Step 4 of a bring-up: the ledger applied, and a chip that fails power-up BIST (R408, R409, R411, R425). -/

open Sys2Proof Sys2Proof.Machine

namespace Sys2Proof.Laws

/-! ## A ledger entry applied (R409) -/

section
variable {s : State} {e : LedgerEntry} (hc : e.chip < s.chips.length) (hk : e.unit < (chipOf s e.chip).cores.length)
include hc hk

/-- CORE_SPARED: the core fenced, its spare active. -/
theorem applyEntry_spared (hkind : e.kind = 1) (hr : e.replacement < (chipOf s e.chip).cores.length) (hne : e.replacement ≠ e.unit) :
    (nth (Core.fresh e.unit) (chipOf (applyEntry s e) e.chip).cores e.unit).role = .fenced ∧
    (nth (Core.fresh e.replacement) (chipOf (applyEntry s e) e.chip).cores e.replacement).role = .active := by
  have hlen : (setCore s e.chip e.unit fun x => { x with role := .fenced }).chips.length = s.chips.length := setChip_length _ _ _
  have hcores : (chipOf (setCore s e.chip e.unit fun x => { x with role := .fenced }) e.chip).cores.length =
      (chipOf s e.chip).cores.length := by
    rw [chipOf_setCore s _ _ _ hc]
    exact modNth_length _ _ _
  have hread (j : Nat) := core_setCore (setCore s e.chip e.unit fun x => { x with role := .fenced }) e.chip e.replacement j
    (fun x => { x with role := .active }) (hlen.symm ▸ hc) (hcores.symm ▸ hr)
  have happly : applyEntry s e = setCore (setCore s e.chip e.unit fun x => { x with role := .fenced }) e.chip e.replacement fun x =>
      { x with role := .active } := by
    unfold applyEntry
    rw [hkind]
    rfl
  rw [happly]
  constructor
  · rw [hread, if_neg hne.symm, core_setCore s e.chip e.unit e.unit _ hc hk, if_pos rfl]
  · rw [hread, if_pos rfl]

/-- CORE_FENCED: the core fenced. -/
theorem applyEntry_fenced (hkind : e.kind = 2) :
    (nth (Core.fresh e.unit) (chipOf (applyEntry s e) e.chip).cores e.unit).role = .fenced := by
  have happly : applyEntry s e = setCore s e.chip e.unit fun x => { x with role := .fenced } := by
    unfold applyEntry
    rw [hkind]
    rfl
  rw [happly, core_setCore s e.chip e.unit e.unit _ hc hk, if_pos rfl]

/-- ROW_SPARED: the row replaced. -/
theorem applyEntry_row (hkind : e.kind = 3) :
    (nth (Core.fresh e.unit) (chipOf (applyEntry s e) e.chip).cores e.unit).spared =
      ((nth (Core.fresh e.unit) (chipOf s e.chip).cores e.unit).spared.filter fun p => p.1 != e.element) ++
        [(e.element, e.replacement)] := by
  have happly : applyEntry s e = setCore s e.chip e.unit fun x => { x with
      badSpares := x.badSpares ++ (x.spared.filter fun p => p.1 == e.element).map fun p => p.2
      spared := (x.spared.filter fun p => p.1 != e.element) ++ [(e.element, e.replacement)] } := by
    unfold applyEntry
    rw [hkind]
    rfl
  rw [happly, core_setCore s e.chip e.unit e.unit _ hc hk, if_pos rfl]

end

/-! ## Power-up BIST (R411) -/

section
variable {s : State} (hboot : s.boot = .chipPower) (hwindow : s.power.window = none)
include hboot hwindow

theorem doChipPowerOnBist_runs (found : List BistResult) : doChipPowerOnBist s found =
    let v : State := { found.foldl bootBist (poweredUp s) with boot := .training }
    if s.mgmt.rebuilt then logOther (mgmtEvent v 0x02 0 0) else v :=
  onStep_runs hboot hwindow _

theorem doChipPowerOnBist_kept (found : List BistResult) (hr : s.mgmt.rebuilt = false) :
    doChipPowerOnBist s found = { found.foldl bootBist (poweredUp s) with boot := .training } :=
  (doChipPowerOnBist_runs hboot hwindow found).trans (if_neg (by rw [hr]; decide))

theorem doChipPowerOnBist_rebuilt (found : List BistResult) (hr : s.mgmt.rebuilt = true) : doChipPowerOnBist s found =
    logOther (mgmtEvent { found.foldl bootBist (poweredUp s) with boot := .training } 0x02 0 0) :=
  (doChipPowerOnBist_runs hboot hwindow found).trans (if_pos hr)

/-- What the note of a rebuilt ledger leaves of the tray. -/
theorem doChipPowerOnBist_frame (found : List BistResult) : let v := found.foldl bootBist (poweredUp s)
    let u := doChipPowerOnBist s found
    u.boot = .training ∧
    { u with boot := v.boot, vault := v.vault, regs := v.regs, mgmt := v.mgmt, freeCtr := v.freeCtr, deferredLog := v.deferredLog } = v ∧
    { u.vault with faultLog := v.vault.faultLog } = v.vault ∧ { u.regs with events := v.regs.events } = v.regs := by
  dsimp only
  cases hr : s.mgmt.rebuilt with
  | false =>
    rw [doChipPowerOnBist_kept hboot hwindow found hr]
    exact ⟨rfl, rfl, rfl, rfl⟩
  | true =>
    rw [doChipPowerOnBist_rebuilt hboot hwindow found hr]
    generalize found.foldl bootBist (poweredUp s) = v
    obtain ⟨hframe, hvault⟩ := logOther_spec (mgmtEvent { v with boot := .training } 0x02 0 0)
    generalize logOther (mgmtEvent { v with boot := .training } 0x02 0 0) = u at hframe hvault
    refine ⟨(congrArg State.boot hframe :), ?_, hvault, ?_⟩
    · exact (congrArg (fun x : State => { x with
        boot := v.boot, vault := v.vault, regs := v.regs, mgmt := v.mgmt, freeCtr := v.freeCtr, deferredLog := v.deferredLog }) hframe :)
    · exact (congrArg (fun x : State => { x.regs with events := v.regs.events }) hframe :)

end

/-- A chip that fails BIST is left out, with BIST_FAIL where it was powered; every other chip stays. -/
theorem bootBist_fails {s : State} {c : Nat} (hc : c < s.chips.length) (ring : Bool) (cores : List Nat) (rows spares : List (Nat × Nat)) :
    let u := bootBist s ⟨c, false, ring, cores, rows, spares⟩
    (chipOf u c).active = false ∧ (∀ k, k ≠ c → chipOf u k = chipOf s k) ∧
    ((chipOf s c).active = true → u.regs.eventCause.getLsbD 8 = true) := by
  unfold bootBist
  dsimp only
  cases ha : (chipOf s c).active with
  | false => exact ⟨ha, fun _ _ => rfl, nofun⟩
  | true =>
    have hlog := logFault_frame (raiseEvent s evBIST_FAIL) evBIST_FAIL c 0 0
    have hset := raiseEvent_sets s (b := evBIST_FAIL) (by decide)
    have hraised := raiseEvent_mild s evBIST_FAIL
    have hchips : (logFault (raiseEvent s evBIST_FAIL) evBIST_FAIL c 0 0).chips = s.chips :=
      (congrArg State.chips hlog :).trans (congrArg State.chips hraised :)
    have hregs : (logFault (raiseEvent s evBIST_FAIL) evBIST_FAIL c 0 0).regs = (raiseEvent s evBIST_FAIL).regs :=
      (congrArg State.regs hlog :)
    generalize logFault (raiseEvent s evBIST_FAIL) evBIST_FAIL c 0 0 = v at hchips hregs
    rw [if_neg (by decide), if_pos (by decide)]
    refine ⟨?_, fun k hk => (chipOf_setChip_ne v _ hk).trans (chipOf_congr hchips k), fun _ => ?_⟩
    · exact congrArg Chip.active (chipOf_setChip v c (fun x => { x with active := false }) (hchips ▸ hc))
    · exact (congrArg (fun r : Regs => r.eventCause.getLsbD 8) hregs).trans hset

/-- The chips and registers after power-up BIST. -/
theorem doChipPowerOnBist_chips {s : State} (hboot : s.boot = .chipPower) (hwindow : s.power.window = none) (found : List BistResult) :
    (doChipPowerOnBist s found).chips = (found.foldl bootBist (poweredUp s)).chips ∧
    (doChipPowerOnBist s found).regs.eventCause = (found.foldl bootBist (poweredUp s)).regs.eventCause := by
  obtain ⟨-, hframe, -, hregs⟩ := doChipPowerOnBist_frame hboot hwindow found
  exact ⟨(congrArg State.chips hframe :), (congrArg Regs.eventCause hregs :)⟩

end Sys2Proof.Laws
end

section
/-! SUPPORT. Step 5 of a bring-up: what training leaves where one chip or one link needs attention (R344, R355, R425). -/

open Sys2Proof Sys2Proof.Machine

namespace Sys2Proof.Laws

/-- A fold in which one element alone does anything. -/
theorem foldl_one {α β : Type} (f : β → α → β) {l : List α} (hl : l.Nodup) {x : α} (hx : x ∈ l) (s : β)
    (hbefore : ∀ y ∈ l, y ≠ x → f s y = s) (hafter : ∀ y ∈ l, y ≠ x → f (f s x) y = f s x) : l.foldl f s = f s x := by
  obtain ⟨l₁, l₂, rfl⟩ := List.append_of_mem hx
  have hne : ∀ y ∈ l₁ ++ l₂, y ≠ x := by
    intro y hy he
    subst he
    exact (List.nodup_cons.1 (List.nodup_middle.1 hl)).1 hy
  rw [List.foldl_append, List.foldl_cons, fold_still f l₁ s fun y hy => hbefore y (by simp [hy]) (hne y (by simp [hy]))]
  exact fold_still f l₂ (f s x) fun y hy => hafter y (by simp [hy]) (hne y (by simp [hy]))

/-! ## Links (R344) -/

/-- A link fit for use. -/
def linkSound (l : Link) : Prop := l.failed = false ∧ 2 ≤ l.up.lanes.length ∧ 2 ≤ l.down.lanes.length

theorem linkOf_of_get {s u : State} {a b : Nat} (h : u.mesh[linkIndex a b]? = s.mesh[linkIndex a b]?) : linkOf u a b = linkOf s a b := by
  rw [linkOf, linkOf, nth, nth, List.getD_eq_getElem?_getD, List.getD_eq_getElem?_getD, h]

theorem linkPairs_nodup : linkPairs.Nodup := by decide

theorem mem_linkPairs {a b : Nat} (hab : a < b) (hb : b < 8) : (a, b) ∈ linkPairs := by
  have hpair := linkIndex_pair a (hab.trans hb) b hb hab.ne
  rw [Nat.min_eq_left hab.le, Nat.max_eq_right hab.le] at hpair
  exact List.mem_of_getElem? hpair

theorem linkIndex_injective {p q : Nat × Nat} (hp : p ∈ linkPairs) (hq : q ∈ linkPairs) (h : linkIndex p.1 p.2 = linkIndex q.1 q.2) :
    p = q := by
  have hpair (r : Nat × Nat) (hr : r ∈ linkPairs) : linkPairs[linkIndex r.1 r.2]? = some r := by
    obtain ⟨hlt, h8⟩ := mem_bound r hr
    rw [linkIndex_pair r.1 (hlt.trans h8) r.2 h8 hlt.ne, Nat.min_eq_left hlt.le, Nat.max_eq_right hlt.le]
  exact Option.some.inj ((hpair p hp).symm.trans (h ▸ hpair q hq))

/-- With every link sound nothing is acted on. -/
theorem bootLinks_sound {s : State} (h : ∀ q ∈ linkPairs, linkSound (linkOf s q.1 q.2)) : linkPairs.foldl bootLink s = s :=
  fold_still bootLink linkPairs s fun q hq => bootLink_sound s q (h q hq)

/-- With one link that is not sound only that one is acted on. -/
theorem bootLinks_one {s : State} (hlen : s.mesh.length = 28) {p : Nat × Nat} (hp : p ∈ linkPairs)
    (h : ∀ q ∈ linkPairs, q ≠ p → linkSound (linkOf s q.1 q.2)) : linkPairs.foldl bootLink s = bootLink s p := by
  obtain ⟨hlt, h8⟩ := mem_bound p hp
  obtain ⟨-, -, -, hothers, -⟩ := bootLink_spec s p (hlen.symm ▸ linkIndex_lt (hlt.trans h8) h8 hlt.ne)
  refine foldl_one bootLink linkPairs_nodup hp s (fun q hq hne => bootLink_sound s q (h q hq hne)) fun q hq hne => ?_
  refine bootLink_sound _ q ?_
  rw [linkOf_of_get (hothers _ fun he => hne (linkIndex_injective hq hp he))]
  exact h q hq hne

/-- A link that did not train is FAILED, with LINK_FAILED between two admitted chips; every other link stays. -/
theorem bootLinks_untrained {s : State} (hlen : s.mesh.length = 28) (h : ∀ q ∈ linkPairs, linkSound (linkOf s q.1 q.2)) {a b : Nat}
    (hab : a < b) (hb : b < 8) : let u := linkPairs.foldl bootLink (setLink s a b fun l => { l with failed := true })
    u.mesh.length = 28 ∧ linkFailed u a b = true ∧ u.chips = s.chips ∧
    (∀ q ∈ linkPairs, linkIndex q.1 q.2 ≠ linkIndex a b → linkOf u q.1 q.2 = linkOf s q.1 q.2) ∧
    ((chipOf s a).active = true → (chipOf s b).active = true → u.regs.eventCause.getLsbD 2 = true) := by
  have hp := mem_linkPairs hab hb
  have hlt : linkIndex a b < s.mesh.length := hlen.symm ▸ linkIndex_lt (hab.trans hb) hb hab.ne
  have hfailed := linkOf_setLink s a b (fun l => { l with failed := true }) hlt
  have hkept (i : Nat) (hi : i ≠ linkIndex a b) : (setLink s a b fun l => { l with failed := true }).mesh[i]? = s.mesh[i]? :=
    modNth_other _ _ _ _ hi
  have hmesh : (setLink s a b fun l => { l with failed := true }).mesh.length = 28 := (modNth_length _ _ _).trans hlen
  have hchips : (setLink s a b fun l => { l with failed := true }).chips = s.chips := rfl
  generalize setLink s a b (fun l => { l with failed := true }) = w at hfailed hkept hmesh hchips
  have hbad : (linkOf w a b).failed = true := congrArg Link.failed hfailed
  have hrun := bootLinks_one hmesh hp fun q hq hne => by
    rw [linkOf_of_get (hkept _ fun he => hne (linkIndex_injective hq hp he))]
    exact h q hq
  obtain ⟨hsame, hlen', -, hothers, hstill, -, hraised⟩ := bootLink_spec w (a, b) (hmesh.symm ▸ hlen ▸ hlt)
  dsimp only
  rw [hrun]
  generalize bootLink w (a, b) = u at hsame hlen' hothers hstill hraised
  refine ⟨hlen'.trans hmesh, hstill hbad, hsame.trans hchips, fun q hq hne => ?_, fun hactive hactive' => hraised hbad ?_ ?_⟩
  · rw [linkOf_of_get (hothers _ hne), linkOf_of_get (hkept _ hne)]
  · exact (congrArg Chip.active (chipOf_congr hchips a)).trans hactive
  · exact (congrArg Chip.active (chipOf_congr hchips b)).trans hactive'

/-! ## Chips (R425) -/

theorem lossCount_none {s : State} (hes : (ledgerNow s).entries = []) (hdef : s.deferred = []) (c : Nat) : lossCount s c = 0 := by
  rw [lossCount, hes, hdef]
  rfl

/-- With no loss in the ledger no chip is judged. -/
theorem readmits_none {s : State} (h : ∀ c, lossCount s c = 0) : (List.range 8).foldl readmit s = s :=
  fold_still readmit (List.range 8) s fun c _ => readmit_none s c (h c)

/-- The one entry of a loss counts for its chip alone. -/
theorem lossCount_of_losses {s : State} {es : List LedgerEntry} {e : LedgerEntry} (hes : (ledgerNow s).entries = e :: es)
    (hdef : s.deferred = []) (hkind : e.kind = 5) (hrest : ∀ x ∈ es, x.kind ≠ 5) (c : Nat) :
    lossCount s c = if e.chip = c then 1 else 0 := by
  have hnone : es.filter (fun x => x.kind == 5 && x.chip == c) = [] :=
    List.filter_eq_nil_iff.2 fun x hx h => hrest x hx (eq_of_beq (Bool.and_eq_true_iff.1 h).1)
  rw [lossCount, hes, hdef, List.append_nil]
  by_cases hc : e.chip = c
  · rw [if_pos hc, List.filter_cons_of_pos (by simp [hkind, hc]), hnone]
    rfl
  · rw [if_neg hc, List.filter_cons_of_neg (by simp [hc]), hnone]
    rfl

section
variable {s : State} {e : LedgerEntry} (hes : (ledgerNow s).entries = [e]) (hkind : e.kind = 5) (hdef : s.deferred = [])
  (hactive : (chipOf s e.chip).active = true)
include hes hkind hdef hactive

/-- A lost chip with at least three links is admitted and entered (R425). -/
theorem readmit_enters (hpeers : 3 ≤ trainedPeers s e.chip) : readmit s e.chip = addLedger s 6 e.chip 0 1 0 0 := by
  have hcount : lossCount s e.chip = 1 := (lossCount_of_losses hes hdef hkind nofun e.chip).trans (if_pos rfl)
  have hlast : lostLast s e.chip = true := by
    have hone : [e].filter (fun x => x.chip == e.chip && (x.kind == 5 || x.kind == 6)) = [e] :=
      List.filter_cons_of_pos (by simp [hkind])
    rw [lostLast, hes, hone]
    exact beq_iff_eq.2 hkind
  unfold readmit
  rw [if_neg (by rw [hactive, hcount]; decide), if_neg (Nat.not_lt.2 hpeers), if_pos hlast]

/-- With fewer it is left out. -/
theorem readmit_refuses (hpeers : trainedPeers s e.chip < 3) :
    readmit s e.chip = setChip s e.chip fun x => { x with active := false } := by
  have hcount : lossCount s e.chip = 1 := (lossCount_of_losses hes hdef hkind nofun e.chip).trans (if_pos rfl)
  unfold readmit
  rw [if_neg (by rw [hactive, hcount]; decide), if_pos hpeers]

/-- Only the lost chip is judged. -/
theorem readmits_one (hd : s.deputy = none) (hc : e.chip < 8) : (List.range 8).foldl readmit s = readmit s e.chip := by
  refine foldl_one readmit List.nodup_range (List.mem_range.2 hc) s (fun c _ hne => ?_) fun c _ hne => ?_
  · exact readmit_none s c ((lossCount_of_losses hes hdef hkind nofun c).trans (if_neg hne.symm))
  · rcases Nat.lt_or_ge (trainedPeers s e.chip) 3 with hpeers | hpeers
    · rw [readmit_refuses hes hkind hdef hactive hpeers]
      exact readmit_none _ c ((lossCount_of_losses hes hdef hkind nofun c).trans (if_neg hne.symm))
    · have hentries := addLedger_appends hd 6 e.chip 0 1 0 0
      have hdef' : (addLedger s 6 e.chip 0 1 0 0).deferred = [] := (congrArg State.deferred (addLedger_quiet s 6 e.chip 0 1 0 0 hd) :).trans hdef
      rw [readmit_enters hes hkind hdef hactive hpeers]
      rw [hes] at hentries
      refine readmit_none _ c ((lossCount_of_losses hentries hdef' hkind ?_ c).trans (if_neg hne.symm))
      simp

end

/-! ## Training as a whole -/

theorem doHbmMycelTraining_runs {s : State} (hboot : s.boot = .training) (hwindow : s.power.window = none) (found : List TrainResult) :
    doHbmMycelTraining s found = { trainNow s found with boot := .alignment } := onStep_runs hboot hwindow _

/-- Training where the ledger holds no entry. -/
theorem trainNow_fresh {s : State} (hes : (ledgerNow s).entries = []) (found : List TrainResult) :
    trainNow s found = linkPairs.foldl bootLink ((List.range 8).foldl readmit (found.foldl bootTrain s)) := by
  rw [trainNow, hes]
  rfl

/-- Training where the ledger's one entry is a loss. -/
theorem trainNow_lost {s : State} {e : LedgerEntry} (hes : (ledgerNow s).entries = [e]) (hkind : e.kind = 5) :
    trainNow s [] = linkPairs.foldl bootLink ((List.range 8).foldl readmit s) := by
  have hlane : ledgerLane s e = s := if_pos (by rw [hkind]; decide)
  rw [trainNow, hes, List.foldl_cons, hlane]
  rfl

theorem bootTrain_hbm (s : State) (c : Nat) :
    bootTrain s ⟨c, false, [], []⟩ = setChip s c fun x => { x with active := false } := rfl

theorem bootTrain_link (s : State) (a b : Nat) :
    bootTrain s ⟨a, true, [b], []⟩ = setLink s a b fun l => { l with failed := true } := rfl

end Sys2Proof.Laws
end

section
/-! Steps 4 and 5 of a bring-up settled (23_bring_up.md). -/

open Sys2Proof Sys2Proof.Machine

namespace Sys2Proof.Laws

/-- The clause of BistAndTrainingAdmitChips about links: one that did not train, named by either of its chips. -/
theorem trainNow_untrained {s : State} (hes : (ledgerNow s).entries = []) (hdef : s.deferred = []) (hlen : s.mesh.length = 28)
    (hsound : ∀ q ∈ linkPairs, linkSound (linkOf s q.1 q.2)) {a b : Nat} (ha : a < 8) (hb : b < 8) (hab : a ≠ b) :
    let u := trainNow s [⟨a, true, [b], []⟩]
    linkFailed u a b = true ∧ u.chips = s.chips ∧
    (∀ q ∈ linkPairs, linkIndex q.1 q.2 ≠ linkIndex a b → linkOf u q.1 q.2 = linkOf s q.1 q.2) ∧
    ((chipOf s a).active = true → (chipOf s b).active = true → u.regs.eventCause.getLsbD 2 = true) := by
  have hrun : trainNow s [⟨a, true, [b], []⟩] = linkPairs.foldl bootLink (setLink s a b fun l => { l with failed := true }) := by
    rw [trainNow_fresh hes, List.foldl_cons, List.foldl_nil, bootTrain_link,
      readmits_none (s := setLink s a b fun l => { l with failed := true }) (lossCount_none hes hdef)]
  dsimp only
  rw [hrun]
  rcases Nat.lt_or_gt_of_ne hab with hlt | hlt
  · exact (bootLinks_untrained hlen hsound hlt hb).2
  · rw [setLink_comm, linkIndex_comm]
    obtain ⟨hlen', hfailed, hchips, hothers, hraised⟩ := bootLinks_untrained hlen hsound hlt ha
    exact ⟨(linkFailed_comm (hlen'.symm ▸ linkIndex_lt ha hb hab)).trans hfailed, hchips, hothers, fun h h' => hraised h' h⟩

/-- The clause about a chip with a loss in the ledger. -/
theorem trainNow_readmits {s : State} {e : LedgerEntry} (hes : (ledgerNow s).entries = [e]) (hkind : e.kind = 5)
    (hdef : s.deferred = []) (hd : s.deputy = none) (hc : e.chip < 8) (hactive : (chipOf s e.chip).active = true)
    (hsound : ∀ q ∈ linkPairs, linkSound (linkOf s q.1 q.2)) : trainNow s [] = readmit s e.chip := by
  have hmesh : (readmit s e.chip).mesh = s.mesh := by
    rcases Nat.lt_or_ge (trainedPeers s e.chip) 3 with hpeers | hpeers
    · rw [readmit_refuses hes hkind hdef hactive hpeers]
      rfl
    · rw [readmit_enters hes hkind hdef hactive hpeers]
      exact (congrArg State.mesh (addLedger_quiet s 6 e.chip 0 1 0 0 hd) :)
  rw [trainNow_lost hes hkind, readmits_one hes hkind hdef hactive hd hc]
  exact bootLinks_sound fun q hq => (linkOf_of_get (congrArg (fun l => l[linkIndex q.1 q.2]?) hmesh)).symm ▸ hsound q hq

/-- Settles O52: step 4 by `poweredUp_spec` and `bootBist_fails`, step 5 by the one chip or link that training acts on
(`readmits_one`, `bootLinks_one`). -/
theorem bistAndTrainingAdmitChips : Obligations.BistAndTrainingAdmitChips := by
  unfold Obligations.BistAndTrainingAdmitChips
  have next {a b : State} (h : a = b) : (Host.Outcome.next a : Host.Outcome State Fault Refusal) = .next b := congrArg _ h
  refine ⟨fun s found => ?bist, fun s found => ?training⟩
  case bist =>
    intro rebuilt es lost core
    refine ⟨fun h => next (onStep_passes h _), fun hboot hwindow hdef => ⟨?applied, fun c ring cores rows spares hc => ?fails⟩⟩
    case applied =>
      obtain ⟨hframe, -, htotals, hvault, hchips, w, hw, hwlen, hwcores⟩ := poweredUp_spec s hdef
      obtain ⟨htraining, hkept, -, hregs⟩ := doChipPowerOnBist_frame hboot hwindow []
      obtain ⟨hsame, -⟩ := doChipPowerOnBist_chips hboot hwindow []
      rw [List.foldl_nil] at hkept hregs hsame
      have hchip (c : Nat) : chipOf (doChipPowerOnBist s []) c = chipOf (poweredUp s) c := chipOf_congr hsame c
      refine ⟨doChipPowerOnBist s [], rfl, htraining, (congrArg State.totals hkept :).trans htotals, fun c hc => ?_, fun e he hc hk => ?_,
        fun hr => ?_, fun hr => ?_, ?_⟩
      · rw [hchip]
        exact hchips c hc
      · have happlied : poweredUp s = applyEntry w e := hw.trans (congrArg (List.foldl applyEntry w) he)
        obtain ⟨hlen, hspared⟩ := hwcores e.chip hc
        rw [← hwlen] at hc
        rw [← hlen] at hk
        simp only [core]
        rw [hchip, happlied]
        refine ⟨fun hkind hrep hne => applyEntry_spared hc hk hkind (hlen.symm ▸ hrep) hne, fun hkind => applyEntry_fenced hc hk hkind,
          fun hkind => (applyEntry_row hc hk hkind).trans ?_⟩
        rw [hspared e.unit (hlen ▸ hk)]
      · rw [doChipPowerOnBist_kept hboot hwindow [] hr]
        exact ⟨hvault.trans (if_neg fun h => Bool.false_ne_true (hr.symm.trans h)), (congrArg State.regs hframe :)⟩
      · have hrun := doChipPowerOnBist_rebuilt hboot hwindow [] hr
        obtain ⟨hlog, hlogVault⟩ := logOther_spec (mgmtEvent { poweredUp s with boot := .training } 0x02 0 0)
        rw [List.foldl_nil] at hrun
        rw [← hrun] at hlog hlogVault
        have hnew := hvault.trans (if_pos hr)
        have hpowered : (poweredUp s).regs = s.regs := (congrArg State.regs hframe :)
        have hnow : (poweredUp s).now = s.now := (congrArg State.now hframe :)
        refine ⟨(congrArg Vault.ledgerA hlogVault :).trans (congrArg Vault.ledgerA hnew :),
          (congrArg Vault.ledgerB hlogVault :).trans (congrArg Vault.ledgerB hnew :), ?_, ?_⟩
        · refine (congrArg (fun x : State => x.regs.events) hlog :).trans ?_
          exact congrArg₂ (fun t (r : Regs) => ((0x02, 0, 0, t) :: r.events : List _)) hnow hpowered
        · exact (congrArg (fun x : State => x.regs.eventCause) hlog :).trans (congrArg Regs.eventCause hpowered :)
      · refine (congrArg (fun x : State => { x with
          boot := s.boot, chips := s.chips, mesh := s.mesh, totals := s.totals, vault := s.vault, regs := s.regs, mgmt := s.mgmt
          freeCtr := s.freeCtr, deferredLog := s.deferredLog }) hkept :).trans ?_
        exact (congrArg (fun x : State => { x with
          boot := s.boot, regs := s.regs, mgmt := s.mgmt, freeCtr := s.freeCtr, deferredLog := s.deferredLog }) hframe :)
    case fails =>
      obtain ⟨-, hlen, -, -, hchips, -⟩ := poweredUp_spec s hdef
      obtain ⟨hout, hothers, hraised⟩ := bootBist_fails (s := poweredUp s) (hlen.symm ▸ hc) ring cores rows spares
      obtain ⟨hsame, hcause⟩ := doChipPowerOnBist_chips hboot hwindow [⟨c, false, ring, cores, rows, spares⟩]
      have hchip := chipOf_congr hsame
      refine ⟨_, rfl, (congrArg Chip.active (hchip c)).trans hout, fun k hk hne => ?_, fun hfew => ?_⟩
      · exact (congrArg Chip.active ((hchip k).trans (hothers k hne))).trans (hchips k hk).1
      · exact (congrArg (fun w => w.getLsbD 8) hcause).trans (hraised ((hchips c hc).1.trans (decide_eq_true hfew)))
  case training =>
    intro es sound
    refine ⟨fun h => next (onStep_passes h _), fun hboot hwindow hd hdef hchips hmesh _ hsound =>
      ⟨fun hes => ?fresh, fun hes c hc => ?hbm, fun hes a b ha hb hab => ?link, fun e hes hkind hc hactive => ?lost⟩⟩
    case fresh =>
      refine next ((doHbmMycelTraining_runs hboot hwindow []).trans ?_)
      rw [trainNow_fresh hes, List.foldl_nil, readmits_none (lossCount_none hes hdef), bootLinks_sound hsound]
    case hbm =>
      have hrun : trainNow s [⟨c, false, [], []⟩] = setChip s c fun x => { x with active := false } := by
        rw [trainNow_fresh hes, List.foldl_cons, List.foldl_nil, bootTrain_hbm,
          readmits_none (s := setChip s c fun x => { x with active := false }) (lossCount_none hes hdef),
          bootLinks_sound (s := setChip s c fun x => { x with active := false }) hsound]
      have hall := doHbmMycelTraining_runs hboot hwindow [⟨c, false, [], []⟩]
      rw [hrun] at hall
      refine ⟨_, next hall, rfl, ?_, fun k hk => setChip_other s _ hk, rfl⟩
      exact chipOf_setChip s c _ (hchips.symm ▸ hc)
    case link =>
      obtain ⟨hfailed, hsame, hothers, hraised⟩ := trainNow_untrained hes hdef hmesh hsound ha hb hab
      have hrun := doHbmMycelTraining_runs hboot hwindow [⟨a, true, [b], []⟩]
      generalize trainNow s [⟨a, true, [b], []⟩] = u at hrun hfailed hsame hothers hraised
      exact ⟨_, next hrun, rfl, hfailed, hsame, hothers, hraised⟩
    case lost =>
      intro peers
      have hrun := doHbmMycelTraining_runs hboot hwindow []
      rw [trainNow_readmits hes hkind hdef hd hc hactive hsound] at hrun
      rcases Nat.lt_or_ge (trainedPeers s e.chip) 3 with hfew | hmany
      · rw [readmit_refuses hes hkind hdef hactive hfew] at hrun
        exact ⟨_, next hrun, rfl, rfl, fun hpeers => absurd hfew (Nat.not_lt.2 hpeers),
          fun _ => ⟨chipOf_setChip s e.chip _ (hchips.symm ▸ hc), fun k hk => setChip_other s _ hk, rfl⟩⟩
      · have hquiet := addLedger_quiet s 6 e.chip 0 1 0 0 hd
        have hentries := addLedger_appends hd 6 e.chip 0 1 0 0
        rw [readmit_enters hes hkind hdef hactive hmany] at hrun
        generalize addLedger s 6 e.chip 0 1 0 0 = u at hrun hquiet hentries
        exact ⟨_, next hrun, rfl, (congrArg State.mesh hquiet :),
          fun _ => ⟨(congrArg State.chips hquiet :), hentries.trans (congrArg (· ++ _) hes)⟩,
          fun hpeers => absurd hpeers (Nat.not_lt.2 hmany)⟩

end Sys2Proof.Laws
end
